-- ==== Sys2Proof/Word.lean ====
section
/-! DEFINITION. Word types: bytes, words, exact fractions. -/
namespace Sys2Proof

/-- One byte (R61). -/
abbrev Byte := BitVec 8
/-- One control-space register word (R3). -/
abbrev Word := BitVec 32
/-- One scalar register or slot (R243, R247). -/
abbrev DWord := BitVec 64

/-- An exact rational number; `den` is never 0 in a value the model forms. Not kept in lowest terms. -/
structure Frac where
  num : Int
  den : Nat
  deriving DecidableEq, Repr

end Sys2Proof
end

