-- ==== Sys2Proof/Config.lean ====
section
/-! DEFINITION. The free values: what the spec leaves open. Nothing in Lean can evaluate them. -/
namespace Sys2Proof.Config

/-- The energy charge, in µJ, of one operation of a die, by operation number (R46; the manual gives no figures). Log 6. -/
opaque charge : Nat → Nat

/-- Random bytes and keys of the hub's generator, by draw number (R355, R431, R432). Log 7. -/
opaque randomByte : Nat → Byte

/-- SHA-512 of the mask ROM, byte by byte (Table 19-5 `ROM_DIGEST`). Log 7. -/
opaque romDigestByte : Nat → Byte

/-- Position taken next by the atomic unit among n waiting elements, by draw number (R329). Log 8. -/
opaque atomicPick : Nat → Nat → Nat

/-- A value the spec states no result for, by draw number. Log 9. -/
opaque freeNat : Nat → Nat

/-- The element that a row function gives where the manual states none: the divisor of a soft maximum is 0, or the
variance read from a block is negative. Row, element and the two operands. Log 9. -/
opaque rowCorner : Nat → Nat → Int → Int → Nat

end Sys2Proof.Config
end

