-- ==== Sys2Proof/Machine/Bits.lean ====
section
/-! DEFINITION. Exact fractions, bit fields, sign extension and byte order (R3, R61). -/
namespace Sys2Proof

namespace Frac

def ofInt (z : Int) : Frac := ⟨z, 1⟩
def zero : Frac := ⟨0, 1⟩
def one : Frac := ⟨1, 1⟩
def add (a b : Frac) : Frac := ⟨a.num * b.den + b.num * a.den, a.den * b.den⟩
def neg (a : Frac) : Frac := ⟨-a.num, a.den⟩
def sub (a b : Frac) : Frac := a.add b.neg
def mul (a b : Frac) : Frac := ⟨a.num * b.num, a.den * b.den⟩
def abs (a : Frac) : Frac := ⟨a.num.natAbs, a.den⟩
/-- The quotient, for a divisor that is not 0. -/
def div (a b : Frac) : Frac :=
  if b.num < 0 then ⟨-(a.num * b.den), a.den * b.num.natAbs⟩ else ⟨a.num * b.den, a.den * b.num.natAbs⟩
def lt (a b : Frac) : Bool := decide (a.num * b.den < b.num * a.den)
def le (a b : Frac) : Bool := decide (a.num * b.den ≤ b.num * a.den)
def eqv (a b : Frac) : Bool := decide (a.num * b.den = b.num * a.den)
def isZero (a : Frac) : Bool := decide (a.num = 0)
def isNeg (a : Frac) : Bool := decide (a.num < 0)
def floor (a : Frac) : Int := a.num / (a.den : Int)
/-- The part above `floor`, in [0, 1). -/
def fract (a : Frac) : Frac := ⟨a.num % (a.den : Int), a.den⟩
/-- 2 to the power k. -/
def pow2 (k : Int) : Frac := if 0 ≤ k then ⟨(2 ^ k.toNat : Nat), 1⟩ else ⟨1, 2 ^ (-k).toNat⟩
def half : Frac := ⟨1, 2⟩
/-- a × 2^k. -/
def scale2 (a : Frac) (k : Int) : Frac := a.mul (pow2 k)
/-- floor(log2 a), for a > 0. -/
def log2 (a : Frac) : Int :=
  let g : Int := (Nat.log2 a.num.natAbs : Int) - (Nat.log2 a.den : Int)
  if (pow2 g).le a then g else g - 1
/-- Rounding to an integer, ties to even (R65). -/
def rne (a : Frac) : Int :=
  let t := a.floor
  let d := a.fract
  if half.lt d || (half.eqv d && decide (t % 2 = 1)) then t + 1 else t

end Frac

/-- `n` bytes of a natural number, least significant byte first (R61). -/
def leBytes : Nat → Nat → List Byte
  | 0, _ => []
  | n + 1, x => BitVec.ofNat 8 x :: leBytes n (x / 256)

/-- The number that bytes spell, least significant byte first (R61). -/
def leNat : List Byte → Nat
  | [] => 0
  | b :: bs => b.toNat + 256 * leNat bs

/-- `n` bytes of a natural number, most significant byte first. -/
def beBytes (n x : Nat) : List Byte := (leBytes n x).reverse

/-- The number that bytes spell, most significant byte first. -/
def beNat (bs : List Byte) : Nat := leNat bs.reverse

/-- Bits [lo + w − 1 : lo] of a number (R3). -/
def bitsAt (x lo w : Nat) : Nat := (x / 2 ^ lo) % 2 ^ w

/-- Bit i of a number (R3). -/
def bitAt (x i : Nat) : Bool := decide ((x / 2 ^ i) % 2 = 1)

/-- 1 for true, 0 for false. -/
def b2n (b : Bool) : Nat := if b then 1 else 0

/-- A w-bit pattern read as a two's complement integer. -/
def toSigned (w x : Nat) : Int := if x % 2 ^ w < 2 ^ (w - 1) then (x % 2 ^ w : Nat) else (x % 2 ^ w : Nat) - (2 ^ w : Nat)

/-- The w-bit two's complement pattern of an integer, as an unsigned number. -/
def ofSigned (w : Nat) (z : Int) : Nat := (z % (2 ^ w : Nat)).toNat

/-- The least whole number of blocks of `b` that hold `a`. -/
def ceilDiv (a b : Nat) : Nat := (a + b - 1) / b

/-- A 32-bit count that saturates (Tables 2-11, 16-8, 18-13). -/
def satAdd32 (a b : Nat) : Nat := min (a + b) 0xFFFFFFFF

/-- Zero bytes. -/
def zeros (n : Nat) : List Byte := List.replicate n 0

/-- Element i of a list, or `d`. -/
def nth {α : Type} (l : List α) (i : Nat) (d : α) : α := (l[i]?).getD d

/-- The first index of a true element, from `i`. -/
def firstIdx {α : Type} (p : α → Bool) : List α → Nat → Option Nat
  | [], _ => none
  | a :: as, i => if p a then some i else firstIdx p as (i + 1)

/-- Inserting an element before the first one that it may precede. -/
def insertBy {α : Type} (le : α → α → Bool) (a : α) : List α → List α
  | [] => [a]
  | b :: l => if le a b then a :: b :: l else b :: insertBy le a l

/-- Stable sorting. -/
def sortBy {α : Type} (le : α → α → Bool) : List α → List α
  | [] => []
  | a :: l => insertBy le a (sortBy le l)

/-- floor(sqrt x), by bit search over `k` result bits. -/
def isqrtAux (x : Nat) : Nat → Nat → Nat
  | 0, r => r
  | k + 1, r => if (r + 2 ^ k) * (r + 2 ^ k) ≤ x then isqrtAux x k (r + 2 ^ k) else isqrtAux x k r

/-- floor(sqrt x). -/
def isqrt (x : Nat) : Nat := isqrtAux x (Nat.log2 x / 2 + 1) 0

end Sys2Proof
end

