-- ==== Sys2Proof/Syntax.lean ====
section
/-! DEFINITION. The commands: one constructor of `Instr` per row of the table of operations and events. -/
namespace Sys2Proof

/-- A compute die, 0–15 (R9). -/
abbrev Die := Fin 16
/-- A 6-bit register number: V0–V63 or S0–S63 (R276). -/
abbrev Reg6 := Fin 64
/-- A 4-bit register number: P0–P15, A0–A15, B0–B15, M0–M15 (R276). -/
abbrev Reg4 := Fin 16

/-- The element formats of Table 3-1 (R51). -/
inductive Fmt where
  | p8 | p16 | p32 | b16 | bf16 | b32 | i8 | u8 | i4
  deriving DecidableEq, Repr

/-- The two matrix arrays of a core (R14). -/
inductive Arr where
  | mxa | mxb
  deriving DecidableEq, Repr

/-- A core store operand (R277). -/
structure Csa where
  au : Bool
  an : Reg4
  off : BitVec 16
  deriving DecidableEq, Repr

/-- CTL.ALU functions (Table 12-2). -/
inductive AluFn where
  | add | sub | and | or | xor | shl | shr | sar | min | max | minu | maxu | slt | sltu
  deriving DecidableEq, Repr

/-- Branch conditions (R251). -/
inductive BrCond where
  | eq | ne | lt | le | ltu | leu
  deriving DecidableEq, Repr

/-- Combiners of CTL.COLL (R249). -/
inductive Comb where
  | or | and | max | min | sum
  deriving DecidableEq, Repr

/-- Conditions of V.CMP (Table 12-7). -/
inductive CmpCond where
  | eq | ne | lt | le | gt | ge
  deriving DecidableEq, Repr

/-- Operations of V.PLOG (Table 12-7). -/
inductive PlogOp where
  | and | or | xor | andNot
  deriving DecidableEq, Repr

/-- Element functions 0x00–0x0E (Table 9-1). -/
inductive ElemFn where
  | exp | exp2 | log | log2 | recip | sqrt | rsqrt | tanh | sigmoid | silu | gelu | erf | sin | cos | softplus
  deriving DecidableEq, Repr

/-- Fused gate functions 0x20–0x22 (Table 9-1). -/
inductive GateFn where
  | gsilu | ggelu | gsig
  deriving DecidableEq, Repr

/-- Reduction kinds (Table 8-4). -/
inductive RedKind where
  | sum | sumsq | mean | prod | count | max | min | maxloc | minloc
  deriving DecidableEq, Repr

/-- Directions of NET.MESH (Table 12-10). -/
inductive Dir where
  | north | east | south | west
  deriving DecidableEq, Repr

/-- The tile row operand of MX.STRM and MX.CLOSE (R282). -/
structure TileSel where
  au : Bool
  an : Reg4
  row : Fin 128
  deriving DecidableEq, Repr

/-- Register form of a VEC operation (Table 12-5); `vb` names Sn when `scal` is set. -/
structure RegForm where
  zm : Bool
  scal : Bool
  rnd : Bool
  fmt : Fmt
  vd : Reg6
  va : Reg6
  vb : Reg6
  vc : Reg6
  sp : Reg6
  deriving DecidableEq, Repr

/-- Descriptor form of a VEC operation (Table 12-6); the low 6 bits of `db` name Sn when `scal` is set. -/
structure DescForm where
  scal : Bool
  dd : BitVec 11
  da : BitVec 11
  db : BitVec 11
  sp : Reg6
  deriving DecidableEq, Repr

/-- The two forms of a VEC operation. -/
inductive VForm where
  | reg (r : RegForm)
  | desc (r : DescForm)
  deriving DecidableEq, Repr

/-- Operands of V.RED beside its form (Tables 12-5 to 12-7). -/
structure RedArgs where
  kind : RedKind
  out : Fmt
  rdims : Fin 4
  start : Bool
  emit : Bool
  qout : Bool
  deriving DecidableEq, Repr

/-- The shared fields of the MEM slot (Table 12-11). -/
structure MemArgs where
  async : Bool
  sa : Reg6
  an : Reg4
  sh : Fin 16
  bar : Reg4
  sig : Bool
  au : Bool
  csa : Csa
  deriving DecidableEq, Repr

/-- A received Niwick frame: its source, the Niwick header of Table 18-2 and its payload (R406). -/
structure Frame where
  srcAddr : BitVec 128
  srcMac : BitVec 48
  srcPort : BitVec 16
  toLinkLocal : Bool
  ver : Byte
  cls : Byte
  type : Byte
  flags : Byte
  sender : Word
  seq : Word
  ack : Word
  sack : DWord
  queue : BitVec 16
  len : BitVec 16
  aux : Word
  payload : List Byte
  deriving DecidableEq, Repr

/-- Who asked for a command, and its token (R419). -/
structure CmdReq where
  peer : Fin 16
  token : Word
  deriving DecidableEq, Repr

/-- Causes of detected faults, 0x0001–0x0012 (Table 16-3). -/
inductive DetCause where
  | csUe | regUe | queueUe | accResidue | vecResidue | dupMismatch | seqLockstep | wordEcc | pstoreUe
  | linkCrc | memParity | memMulti | memCtrlUe | chReset | epochDrop | clockXchk | hubLockstep | fencedDone
  deriving DecidableEq, Repr

/-- What a mechanism of Table 16-1 reports: a masked event, or a detected fault with its place (R364). -/
inductive Detection where
  /-- A single-bit error corrected in a core store, queue or register word. -/
  | csCorrected
  /-- A slot error corrected at a core of die `d` (R266). -/
  | wordCorrected (d : Die)
  /-- A memory burst corrected. -/
  | memCorrected
  /-- A stripe reconstructed (Table 14-3). -/
  | memRecon
  /-- A flit corrected by FEC. -/
  | linkCorrected
  /-- A fault of one core (local index `core` of die `d`). -/
  | core (cause : DetCause) (d : Die) (core : Nat) (unit : Nat) (detail : BitVec 16) (addr : BitVec 48)
  /-- A fault of a die: its sequencer, program store or issue path. -/
  | die (cause : DetCause) (d : Die) (unit : Nat)
  /-- A residual error on link n of R373. -/
  | link (n : Fin 28)
  /-- A fault of a channel of a tier of die `d`: tier, channel 0–19, and the device address. -/
  | channel (cause : DetCause) (d : Die) (far : Bool) (ch : Fin 20) (addr : BitVec 48)
  /-- A hub lockstep mismatch. -/
  | hub
  deriving DecidableEq, Repr

/-- What a memory packet says of its channel (Table 14-7): whether it is a reply, the tier, the channel, its epoch. -/
structure ChanTag where
  reply : Bool
  far : Bool
  ch : Fin 20
  epoch : BitVec 4
  deriving DecidableEq, Repr

/-- A TAP instruction (R437). -/
inductive TapInstr where
  | bypass | sample | preload | extest | factory
  deriving DecidableEq, Repr

/-- Why a received frame is discarded before the Niwick engine takes it (R22, R400, R401, R459). -/
inductive DropReason where
  | fcs | unsupported | tooLong | beforeFirstLap | rejected
  deriving DecidableEq, Repr

/-- The crossings of the input voltage that R441 and R450 watch: it falls through 40.0 V or 39.0 V, or rises to 39.0 V or
40.0 V. -/
inductive VinCross where
  | falls40 | falls39 | rises39 | rises40
  deriving DecidableEq, Repr

/-- Sensor readings of one sample, in 0.1 °C (R448): the pairs of readings of the eight regions of each die and of the two
regions of the hub, and the coolant. -/
structure Thermal where
  dies : Vector (Vector (Int × Int) 8) 16
  hub : Vector (Int × Int) 2
  inlet : Int
  outlet : Int
  deriving DecidableEq, Repr

/-- The commands. Each constructor is the row of the table that LAWS.json names for it. -/
inductive Instr where
  -- CTL slot (Table 12-1)
  | nop (d : Die)
  | ctlLi (d : Die) (hi : Bool) (sd : Reg6) (imm : Word)
  | ctlAlu (d : Die) (fn : AluFn) (sd sa sb : Reg6) (immf : Bool) (imm : BitVec 16)
  | ctlMul (d : Die) (sd sa sb : Reg6)
  | ctlLidx (d : Die) (sd : Reg6) (q : Fin 8)
  | ctlLinfo (d : Die) (sd : Reg6) (item : Fin 16)
  | ctlColl (d : Die) (sd vn : Reg6) (comb : Comb) (pq : Reg4)
  | ctlPstep (d : Die) (sa : Reg6)
  | ctlBr (d : Die) (cond : BrCond) (sa sb : Reg6) (ofs : BitVec 20)
  | ctlJmp (d : Die) (ofs : BitVec 20)
  | ctlLoop (d : Die) (src : Bool) (sa : Reg6) (count body : BitVec 16)
  | ctlSig (d : Die) (bar : Reg4) (mask : BitVec 16)
  | ctlWait (d : Die) (bar : Reg4) (n : BitVec 16) (limit : Word)
  | ctlPage (d : Die) (src : Bool) (sa : Reg6) (page : BitVec 14)
  | lapEnd (d : Die) (final : Bool)
  -- MXA and MXB slots (Table 12-3)
  | mxCfg (d : Die) (arr : Arr) (fmt : Fmt) (cap : Fin 32)
  | mxLdw (d : Die) (arr : Arr) (p : Reg4) (fmt : Fmt) (rows : Fin 32) (stride : BitVec 16) (csa : Csa)
  | mxSwap (d : Die) (arr : Arr)
  | mxStrm (d : Die) (arr : Arr) (p : Reg4) (tile : TileSel) (group : Fin 8)
  | mxOpen (d : Die) (arr : Arr) (count : BitVec 8) (first : Fin 128) (afmt : Fmt) (group : Fin 8)
  | mxZero (d : Die) (arr : Arr) (p : Reg4) (group : Fin 8)
  | mxClose (d : Die) (arr : Arr) (p : Reg4) (exd : BitVec 11) (tile : TileSel) (group : Fin 8)
  | mxSpill (d : Die) (arr : Arr) (p : Reg4) (csa : Csa) (att : Bool) (group : Fin 8)
  | mxFill (d : Die) (arr : Arr) (p : Reg4) (csa : Csa) (att : Bool) (group : Fin 8)
  | mxFree (d : Die) (arr : Arr) (group : Fin 8)
  -- MVP slot (Table 12-4)
  | mvOpen (d : Die) (afmt : Fmt)
  | mvZero (d : Die) (p : Reg4) (mask : BitVec 16)
  | mvDot (d : Die) (p : Reg4) (wf xf : Fmt) (acc : Reg4) (vn e : Reg6) (csa : Csa)
  | mvCol (d : Die) (p : Reg4) (wf xf : Fmt) (acc : Reg4) (vn k : Reg6) (csa : Csa)
  | mvClose (d : Die) (p : Reg4) (out : BitVec 10) (exd : BitVec 11) (n : Fin 32) (acc : Reg4)
  | mvSpill (d : Die) (p : Reg4) (csa : Csa) (att : Bool) (mask : BitVec 16)
  | mvFill (d : Die) (p : Reg4) (csa : Csa) (att : Bool) (mask : BitVec 16)
  -- VEC slot (Tables 12-5 to 12-8)
  | vMov (d : Die) (p : Reg4) (form : VForm)
  | vAnd (d : Die) (p : Reg4) (form : VForm)
  | vOr (d : Die) (p : Reg4) (form : VForm)
  | vXor (d : Die) (p : Reg4) (form : VForm)
  | vSel (d : Die) (p : Reg4) (zm : Bool) (fmt : Fmt) (vd va vb : Reg6) (pq : Reg4)
  | vPlog (d : Die) (p : Reg4) (zm : Bool) (op : PlogOp) (pd pa pb : Reg4)
  | vNeg (d : Die) (p : Reg4) (form : VForm)
  | vAbs (d : Die) (p : Reg4) (form : VForm)
  | vMax (d : Die) (p : Reg4) (form : VForm)
  | vMin (d : Die) (p : Reg4) (form : VForm)
  | vCmp (d : Die) (p : Reg4) (zm scal : Bool) (fmt : Fmt) (pd : Reg4) (va vb : Reg6) (cond : CmpCond)
  | vAdd (d : Die) (p : Reg4) (form : VForm)
  | vSub (d : Die) (p : Reg4) (form : VForm)
  | vMul (d : Die) (p : Reg4) (form : VForm)
  | vFma (d : Die) (p : Reg4) (form : VForm)
  | vCvt (d : Die) (p : Reg4) (form : VForm) (target : Fmt)
  | vFn (d : Die) (p : Reg4) (form : VForm) (fn : ElemFn)
  | vFnGate (d : Die) (p : Reg4) (form : VForm) (fn : GateFn)
  | softmax (d : Die) (p : Reg4) (dd da : BitVec 11)
  | smsum (d : Die) (p : Reg4) (da : BitVec 11) (sp : Reg6)
  | smnorm (d : Die) (p : Reg4) (dd da : BitVec 11) (sp : Reg6)
  | lnorm (d : Die) (p : Reg4) (dd da db : BitVec 11) (sp : Reg6)
  | rmsnorm (d : Die) (p : Reg4) (dd da db : BitVec 11) (sp : Reg6)
  | nstat (d : Die) (p : Reg4) (da : BitVec 11) (sp : Reg6)
  | vRed (d : Die) (p : Reg4) (form : VForm) (args : RedArgs)
  | vQuant (d : Die) (p : Reg4) (dd da : BitVec 11) (sp : Reg6) (pd : Reg4)
  | vPop (d : Die) (p : Reg4) (vd : Reg6) (lq : Reg4) (qsum : Bool)
  | vQzero (d : Die) (p : Reg4) (fmt : Fmt) (lmask : BitVec 16)
  | vQrnd (d : Die) (p : Reg4) (rnd : Bool) (fmt : Fmt) (vd : Reg6) (lmask : BitVec 16) (sp : Reg6)
  | vQspill (d : Die) (p : Reg4) (att : Bool) (lmask addr : BitVec 16)
  | vQfill (d : Die) (p : Reg4) (att : Bool) (lmask addr : BitVec 16)
  | vRdfl (d : Die) (p : Reg4) (vd : Reg6)
  -- MOV slot (Table 12-9)
  | movFeed (d : Die) (p : Reg4) (arr : Arr) (csa : Csa)
  | movTag (d : Die) (arr : Arr) (csa : Csa)
  | movLdv (d : Die) (p : Reg4) (vd : Reg6) (csa : Csa)
  | movStv (d : Die) (p : Reg4) (va : Reg6) (csa : Csa)
  | movLdp (d : Die) (p : Reg4) (pd : Reg4) (csa : Csa)
  | movStp (d : Die) (p : Reg4) (pa : Reg4) (csa : Csa)
  | movCpy (d : Die) (p : Reg4) (dst src : Csa)
  | movAset (d : Die) (p : Reg4) (src : Bool) (ad : Reg4) (sa : Reg6) (imm : BitVec 16)
  | movAadd (d : Die) (p : Reg4) (ad as_ : Reg4) (imm : BitVec 16)
  | movAidx (d : Die) (p : Reg4) (ad : Reg4) (what : Fin 8)
  -- NET slot (Table 12-10)
  | netMesh (d : Die) (p : Reg4) (dir : Dir) (dst : BitVec 16) (csa : Csa)
  | netSend (d : Die) (p : Reg4) (ax : Reg4) (w : BitVec 8) (dst : BitVec 16) (csa : Csa)
  -- MEM slot (Table 12-12)
  | memRd (d : Die) (p : Reg4) (m : MemArgs) (len : BitVec 10)
  | memWr (d : Die) (p : Reg4) (m : MemArgs) (len : BitVec 10)
  | memQadd (d : Die) (p : Reg4) (m : MemArgs) (fmt : Fmt) (cnt : Fin 64)
  | memMaxloc (d : Die) (p : Reg4) (m : MemArgs) (fmt : Fmt) (cnt : Fin 64)
  | memRadd (d : Die) (p : Reg4) (m : MemArgs) (fmt : Fmt) (cnt : Fin 64)
  -- events of the units
  | memUnitService (d : Die) (far : Bool)
  | memComplete (d : Die)
  | signalArrive (d : Die) (bar : Reg4)
  | waitMet (d : Die)
  | waitLimit (d : Die)
  | pageLoadDone (d : Die) (frame : Fin 128)
  | residentReloadDone (d : Die)
  | netArrive (d : Die) (core : Nat)
  -- laps
  | lapCut (ptpNs : Nat)
  | splitHeaderWritten
  | closePhaseStart
  | lapOverrun
  | earlyClose
  | lapVerdict
  | lapSeal
  -- frames and the port
  | dataFrame (f : Frame)
  | directWrite (f : Frame)
  | ackFrame (f : Frame)
  | commandFrame (f : Frame)
  | managementFrame (f : Frame)
  | mgmtReadDeferred
  | neighbourSolicitation (src target : BitVec 128) (srcMac : BitVec 48)
  | ptpSync (offsetNs : Int)
  | ptpSyncLoss
  | pfcReceive (ctrl : Bool) (quanta : BitVec 16)
  | pfcResumeSend (ctrl : Bool)
  | portLinkChange (lanes : BitVec 8)
  | egressTransmit (peer : Fin 16)
  | egressDiscard
  | retransmit (peer : Fin 16) (cls : Fin 5)
  | ackDelay (peer : Fin 16) (cls : Fin 5)
  | recordTransmit
  | drainSend
  -- controller commands
  | ping (req : CmdReq)
  | load (req : CmdReq) (image : DWord)
  | loadDone (d : Die)
  | run (req : CmdReq) (params queues : DWord) (restore : Bool)
  | resume (req : CmdReq)
  | stop (req : CmdReq)
  | controlledStop
  | reset (req : CmdReq)
  | attest (req : CmdReq) (nonce : BitVec 256)
  | recoverCommit (req : CmdReq) (length : DWord)
  | unknownCommand (req : CmdReq) (code : Byte)
  | recoveryDirectWrite (f : Frame)
  | flashProgramDone
  -- register actions
  | wsetStart (peer : Fin 16)
  | wsetDigestDone
  | verify (peer : Fin 16)
  | verifyDone
  | cancel (peer : Fin 16)
  | faultPop (peer : Fin 16)
  | fenceClear (peer : Fin 16)
  | advance (peer : Fin 16) (readsBack : Bool)
  | revoke0 (peer : Fin 16) (readsBack : Bool)
  | revoke1 (peer : Fin 16) (readsBack : Bool)
  | lockService (peer : Fin 16) (readsBack : Bool)
  | budgetWrite (peer : Fin 16) (cls : Fin 7) (value : Word)
  | envelopeWrite (peer : Fin 16) (value : Word)
  | peerCfgWrite (peer : Fin 16) (entry : Fin 16) (value : Word)
  | peerAdminWrite (peer : Fin 16) (value : Word)
  | registerWrite (peer : Fin 16) (addr value : Word)
  -- faults and clocks
  | faultDetected (det : Detection)
  | faultRecordQueue
  | patrolRead (d : Die) (core : Nat) (flips : Fin 3)
  | dieResetEnd (d : Die)
  | fencedCompletion (d : Die)
  | fabricPacketArrive (dst src : Fin 17) (dstEpoch srcEpoch : BitVec 4) (chan : Option ChanTag)
  | memResponseTimeout (d : Die) (far : Bool) (ch : Fin 20)
  | channelResetEnd (d : Die) (far : Bool) (ch : Fin 20) (trained : Bool)
  | refresh (d : Die) (far : Bool) (ch : Fin 20) (rank : Fin 2)
  | memHot (overRange : Bool) (overRate : Bool)
  | clockXchk (countB : Nat) (aAgrees bAgrees : Bool)
  | oscSwitch
  | driftCheck (ppm : Nat)
  | recoveryDone (trainFailed : BitVec 28)
  -- power, boot and the service connector
  | inputRise
  | staggerStep
  | powerGoodCheck (good : Bool)
  | uvStop
  | railsOff
  | overvoltageShutdown
  | overcurrentShutdown
  | thermalSample (t : Thermal)
  | romVerifyDone (flashReads : Bool)
  | sealKeyIssue
  | memTrainingDone (failed : List (Die × Bool × Fin 20))
  | linkTrainingDone (failed : BitVec 28)
  | mapBuild
  | firstIdleLap (bootUs : Word)
  | extestLoad
  | extestRelease
  | tapInstruction (ti : TapInstr)
  | discardedFrame (why : DropReason)
  | ptpDelayResponse (followUp : Bool) (delayNs : Int)
  | pauseTimeExpiry (ctrl : Bool)
  | uvChange (cross : VinCross)
  deriving DecidableEq, Repr

end Sys2Proof
end

