-- ==== Sys2Proof/Machine/Formats.lean ====
section
/-! DEFINITION. Posit and companion number formats (chapter 3): decoding, the significand cap, rounding, conversion,
comparison, maximum and minimum. -/
namespace Sys2Proof.Machine

/-- Table 3-1 code of a format (R51). -/
def fmtCode : Fmt → Nat
  | .p8 => 0 | .p16 => 1 | .p32 => 2 | .b16 => 4 | .bf16 => 5 | .b32 => 6 | .i8 => 8 | .u8 => 9 | .i4 => 0xA

/-- The format of a Table 3-1 code; a reserved code has none (R51). -/
def fmtOf : Nat → Option Fmt
  | 0 => some .p8 | 1 => some .p16 | 2 => some .p32 | 4 => some .b16 | 5 => some .bf16 | 6 => some .b32
  | 8 => some .i8 | 9 => some .u8 | 0xA => some .i4 | _ => none

/-- Element width in bits (Table 3-1). -/
def fmtBits : Fmt → Nat
  | .p8 => 8 | .p16 => 16 | .p32 => 32 | .b16 => 16 | .bf16 => 16 | .b32 => 32 | .i8 => 8 | .u8 => 8 | .i4 => 4

def isPosit : Fmt → Bool
  | .p8 | .p16 | .p32 => true
  | _ => false

def isIeee : Fmt → Bool
  | .b16 | .bf16 | .b32 => true
  | _ => false

def isIntFmt : Fmt → Bool
  | .i8 | .u8 | .i4 => true
  | _ => false

/-- The value an encoding stands for: NaR or NaN, an infinity, or a sign and an exact magnitude (a zero magnitude with
sign set is −0, IEEE only). -/
inductive Num where
  | nan
  | inf (neg : Bool)
  | fin (neg : Bool) (mag : Frac)
  deriving DecidableEq, Repr

/-- A finite value as an integer significand and a scale: ±X × 2^exp, with its significand width (R54, R81). -/
structure Unpacked where
  neg : Bool
  sig : Nat
  exp : Int
  width : Nat
  deriving DecidableEq, Repr

/-- The length of the run of bits equal to `lead` at bit `i` and below (R52). -/
def runLen (b : Nat) (lead : Bool) : Nat → Nat
  | 0 => if bitAt b 0 == lead then 1 else 0
  | i + 1 => if bitAt b (i + 1) == lead then runLen b lead i + 1 else 0

/-- The significand, scale and width of a non-zero magnitude encoding `b` of an n-bit posit (R52, R54). -/
def positUnpackMag (n b : Nat) : Nat × Int × Nat :=
  let lead := bitAt b (n - 2)
  let m := runLen b lead (n - 2)
  let r : Int := if lead then (m : Int) - 1 else -(m : Int)
  let left := n - 1 - m - 1
  let e := if 2 ≤ left then bitsAt b (left - 2) 2 else if left = 1 then 2 * (b % 2) else 0
  let nf := left - 2
  let f := b % 2 ^ nf
  (2 ^ nf + f, 4 * r + e - nf, nf + 1)

/-- An n-bit posit: none for NaR (R52, R53). Zero has significand 0. -/
def positUnpack (n b : Nat) : Option Unpacked :=
  let b := b % 2 ^ n
  if b = 2 ^ (n - 1) then none
  else if b = 0 then some ⟨false, 0, 0, 0⟩
  else
    let neg := bitAt b (n - 1)
    let (x, l, w) := positUnpackMag n (if neg then 2 ^ n - b else b)
    some ⟨neg, x, l, w⟩

/-- Exponent bits, fraction bits and least normal exponent of an IEEE format (R58). -/
def ieeeShape : Fmt → Nat × Nat × Int
  | .b16 => (5, 10, -14)
  | .bf16 => (8, 7, -126)
  | _ => (8, 23, -126)

/-- A finite IEEE value; none for an infinity or a NaN (R58). -/
def ieeeUnpack (f : Fmt) (b : Nat) : Option Unpacked :=
  let (eb, mb, emin) := ieeeShape f
  let e := bitsAt b mb eb
  let m := b % 2 ^ mb
  let neg := bitAt b (eb + mb)
  if e = 2 ^ eb - 1 then none
  else if e = 0 then some ⟨neg, m, emin - mb, mb + 1⟩
  else some ⟨neg, 2 ^ mb + m, emin - mb + ((e : Int) - 1), mb + 1⟩

/-- Any element as significand and scale; none for NaR, NaN and infinities. -/
def unpack (f : Fmt) (b : Nat) : Option Unpacked :=
  match f with
  | .p8 | .p16 | .p32 => positUnpack (fmtBits f) b
  | .b16 | .bf16 | .b32 => ieeeUnpack f b
  | .i8 | .i4 =>
    let z := toSigned (fmtBits f) b
    some ⟨decide (z < 0), z.natAbs, 0, fmtBits f⟩
  | .u8 => some ⟨false, b % 256, 0, 8⟩

/-- The exact value of an unpacked element. -/
def Unpacked.mag (u : Unpacked) : Frac := Frac.scale2 (Frac.ofInt u.sig) u.exp

/-- The value of an encoding (R52, R58, R60). -/
def decodeNum (f : Fmt) (b : Nat) : Num :=
  match unpack f b with
  | some u => .fin u.neg u.mag
  | none =>
    if isPosit f then .nan
    else
      let (eb, mb, _) := ieeeShape f
      if b % 2 ^ mb = 0 then .inf (bitAt b (eb + mb)) else .nan

/-- The significand of a width above `c` rounded to `c` bits, ties to even; a carry raises the scale (R56). -/
def capUnpacked (c : Nat) (u : Unpacked) : Unpacked :=
  if c = 0 ∨ u.width ≤ c ∨ u.sig = 0 then u
  else
    let k := u.width - c
    let q := u.sig / 2 ^ k
    let rem := u.sig % 2 ^ k
    let up := decide (2 ^ (k - 1) < rem) || (decide (rem = 2 ^ (k - 1)) && decide (q % 2 = 1))
    ⟨u.neg, if up then q + 1 else q, u.exp + k, c⟩

/-- NaR, or the canonical quiet NaN, or the NaN result of an integer target (R53, R59, R72, Table 3-4). -/
def nanBits : Fmt → Nat
  | .p8 => 0x80 | .p16 => 0x8000 | .p32 => 0x80000000 | .b16 => 0x7E00 | .bf16 => 0x7FC0 | .b32 => 0x7FC00000
  | .i8 => 0x80 | .u8 => 0 | .i4 => 8

/-- Rounding modes: nearest even, stochastic with draw u (R62, R66), guarded (R193). -/
inductive Rnd where
  | rne
  | sto (u : Nat)
  | guarded
  deriving DecidableEq, Repr

/-- Conversion conditions (R73). -/
inductive Cond where
  | nar | range | clamp
  deriving DecidableEq, Repr

/-- Whether the mode rounds up a truncated value of parity `odd` with discarded part `d` (R63, R66, R193). -/
def roundsUp (m : Rnd) (odd : Bool) (d : Frac) : Bool :=
  match m with
  | .rne => Frac.half.lt d || (Frac.half.eqv d && odd)
  | .sto u => decide (65536 ≤ (d.mul (Frac.ofInt 65536)).floor + u)
  | .guarded =>
    let q := (d.mul (Frac.ofInt 4096)).floor
    decide (2048 < q) || (decide (q = 2048) && odd)

/-- The unbounded encoding of a positive magnitude, as an integer part of n bits and a fraction (R63). -/
def positField (n : Nat) (x : Frac) : Frac :=
  let s := x.log2
  let r := s / 4
  let e := s % 4
  let f := (x.scale2 (-s)).sub Frac.one
  let pre : Int := if 0 ≤ r then 2 ^ (r + 2).toNat - 2 else 1
  let len : Int := if 0 ≤ r then r + 2 else 1 - r
  ((Frac.ofInt (4 * pre + e)).add f).scale2 ((n : Int) - 3 - len)

/-- Greatest magnitude encoding of an n-bit posit, and its value 2^(4(n − 2)) (Table 3-2). -/
def maxposVal (n : Nat) : Frac := Frac.pow2 (4 * ((n : Int) - 2))
def minposVal (n : Nat) : Frac := Frac.pow2 (-(4 * ((n : Int) - 2)))

/-- Rounding of a positive magnitude to an n-bit posit magnitude encoding (R63), with the clamp condition (R73). -/
def roundPositMag (n : Nat) (m : Rnd) (x : Frac) : Nat × Option Cond :=
  let v := positField n x
  let t := v.floor
  let r := if roundsUp m (decide (t % 2 = 1)) v.fract then t + 1 else t
  let r := if r < 1 then 1 else if (2 ^ (n - 1) : Nat) ≤ r then 2 ^ (n - 1) - 1 else r
  (r.toNat, if (maxposVal n).lt x || x.lt (minposVal n) then some .clamp else none)

/-- Rounding of a magnitude to an IEEE encoding without sign; true when it overflows (R64, R66). -/
def roundIeeeMag (f : Fmt) (m : Rnd) (x : Frac) : Nat × Bool :=
  let (eb, mb, emin) := ieeeShape f
  let infb := (2 ^ eb - 1) * 2 ^ mb
  if x.isZero then (0, false)
  else
    let s := x.log2
    let q := (if s < emin then emin else s) - mb
    let v := x.scale2 (-q)
    let t := v.floor
    let enc (t : Int) : Nat := ((q - (emin - mb)) * 2 ^ mb + t).toNat
    let near := enc (if roundsUp (match m with | .guarded => .guarded | _ => .rne) (decide (t % 2 = 1)) v.fract
      then t + 1 else t)
    if infb ≤ near then (infb, true)
    else
      let r := enc (if roundsUp m (decide (t % 2 = 1)) v.fract then t + 1 else t)
      (if infb ≤ r then infb - 1 else r, false)

/-- Bounds of an integer format (R60). -/
def intBounds : Fmt → Int × Int
  | .i8 => (-128, 127)
  | .u8 => (0, 255)
  | _ => (-8, 7)

/-- Rounding of a magnitude to an integer (R65, R66). -/
def roundInt (m : Rnd) (x : Frac) : Int :=
  let t := x.floor
  if roundsUp m (decide (t % 2 = 1)) x.fract then t + 1 else t

/-- A value rounded once to a format, with the condition of R73 (R62–R66, R69–R72). -/
def convertNum (f : Fmt) (m : Rnd) (x : Num) : Nat × Option Cond :=
  let w := fmtBits f
  match x with
  | .nan => (nanBits f, if isIntFmt f then some .nar else none)
  | .inf neg =>
    if isPosit f then (nanBits f, none)
    else if isIeee f then
      let (eb, mb, _) := ieeeShape f
      ((2 ^ eb - 1) * 2 ^ mb + (if neg then 2 ^ (eb + mb) else 0), none)
    else (ofSigned w (if neg then (intBounds f).1 else (intBounds f).2), some .range)
  | .fin neg mag =>
    if isPosit f then
      if mag.isZero then (0, none)
      else
        let (r, c) := roundPositMag w m mag
        (if neg then 2 ^ w - r else r, c)
    else if isIeee f then
      let (r, ovf) := roundIeeeMag f m mag
      (r + (if neg then 2 ^ (w - 1) else 0), if ovf then some .range else none)
    else
      let z := roundInt m mag
      let z := if neg then -z else z
      let (lo, hi) := intBounds f
      if z < lo then (ofSigned w lo, some .range)
      else if hi < z then (ofSigned w hi, some .range)
      else (ofSigned w z, none)

/-- V.CVT of one element (R68–R73). -/
def convertElem (src dst : Fmt) (m : Rnd) (b : Nat) : Nat × Option Cond := convertNum dst m (decodeNum src b)

/-- A signed exact value as a `Num`. -/
def numOf (x : Frac) : Num := .fin x.isNeg x.abs

/-- The signed exact value of a finite `Num`; 0 otherwise. -/
def Num.val : Num → Frac
  | .fin neg m => if neg then m.neg else m
  | _ => Frac.zero

def Num.isNan : Num → Bool
  | .nan => true
  | _ => false

/-- Order of posit encodings: two's complement integers (R75). -/
def positOrd (f : Fmt) (b : Nat) : Int := toSigned (fmtBits f) b

/-- Sign and magnitude order of non-NaN IEEE values; −0 and +0 compare equal (R77). −1, 0 or 1. -/
def ieeeCmp (x y : Num) : Int :=
  match x, y with
  | .inf a, .inf b => if a == b then 0 else if a then -1 else 1
  | .inf a, _ => if a then -1 else 1
  | _, .inf b => if b then 1 else -1
  | _, _ => if x.val.lt y.val then -1 else if y.val.lt x.val then 1 else 0

/-- Comparison of two elements of one format (R75, R77). -/
def compareElem (f : Fmt) (c : CmpCond) (a b : Nat) : Bool :=
  let byOrd (o : Int) : Bool :=
    match c with
    | .eq => decide (o = 0)
    | .ne => decide (o ≠ 0)
    | .lt => decide (o < 0)
    | .le => decide (o ≤ 0)
    | .gt => decide (0 < o)
    | .ge => decide (0 ≤ o)
  if isIeee f then
    let x := decodeNum f a
    let y := decodeNum f b
    if x.isNan || y.isNan then decide (c = .ne) else byOrd (ieeeCmp x y)
  else byOrd (positOrd f a - positOrd f b)

/-- Total order used by maximum and minimum: posit encodings, or IEEE with −0 below +0 (R76–R78). -/
def totalLt (f : Fmt) (a b : Nat) : Bool :=
  if isIeee f then
    let x := decodeNum f a
    let y := decodeNum f b
    let o := ieeeCmp x y
    decide (o < 0) || (decide (o = 0) && bitAt a (fmtBits f - 1) && !bitAt b (fmtBits f - 1))
  else decide (positOrd f a < positOrd f b)

/-- Maximum of two elements; NaR and NaN are ignored (R76, R77). -/
def maxElem (f : Fmt) (a b : Nat) : Nat :=
  if (decodeNum f a).isNan then (if (decodeNum f b).isNan then nanBits f else b)
  else if (decodeNum f b).isNan then a
  else if totalLt f a b then b else a

/-- Minimum of two elements (R76, R77). -/
def minElem (f : Fmt) (a b : Nat) : Nat :=
  if (decodeNum f a).isNan then (if (decodeNum f b).isNan then nanBits f else b)
  else if (decodeNum f b).isNan then a
  else if totalLt f b a then b else a

/-- Negation: two's complement for posits (R53), sign change for IEEE; a NaN gives the canonical NaN (Table 8-1). -/
def negElem (f : Fmt) (a : Nat) : Nat :=
  if isIeee f then
    if (decodeNum f a).isNan then nanBits f else (a % 2 ^ fmtBits f) ^^^ 2 ^ (fmtBits f - 1)
  else (2 ^ fmtBits f - a % 2 ^ fmtBits f) % 2 ^ fmtBits f

/-- Absolute value; NaR stays NaR (R169). -/
def absElem (f : Fmt) (a : Nat) : Nat :=
  if (decodeNum f a).isNan then nanBits f
  else if bitAt a (fmtBits f - 1) then negElem f a else a % 2 ^ fmtBits f

/-- The encoding of 1 in a posit format or binary32. -/
def oneBits : Fmt → Nat
  | .p8 => 0x40 | .p16 => 0x4000 | .p32 => 0x40000000 | .b32 => 0x3F800000 | .b16 => 0x3C00 | .bf16 => 0x3F80 | _ => 1

end Sys2Proof.Machine
end

