-- ==== Sys2Proof/Machine/Ecdsa.lean ====
section
/-! DEFINITION. ECDSA on P-521, the algorithm of every signature of the module (R355, R426, R431–R434): the curve of SP 800-186,
signing and verification of FIPS 186-5. -/
namespace Sys2Proof.Machine

/-! ### The field and the curve y² = x³ − 3x + b -/

/-- The prime of the field. -/
def curveP : Nat := 2 ^ 521 - 1

/-- The order of the base point. -/
def curveN : Nat :=
  0x01FFFFFFFFFFFFFFFFFFFFFFFFFFFFFFFFFFFFFFFFFFFFFFFFFFFFFFFFFFFFFFFFFA51868783BF2F966B7FCC0148F709A5D03BB5C9B8899C47AEBB6FB71E91386409

/-- The coefficient b. -/
def curveB : Nat :=
  0x0051953EB9618E1C9A1F929A21A0B68540EEA2DA725B99B315F3B8B489918EF109E156193951EC7E937B1652C0BD3BB1BF073573DF883D2C34F1EF451FD46B503F00

/-- Coordinates of the base point. -/
def curveGx : Nat :=
  0x00C6858E06B70404E9CD9E3ECB662395B4429C648139053FB521F828AF606B4D3DBAA14B5E77EFE75928FE1DC127A2FFA8DE3348B3C1856A429BF97E7E31C2E5BD66
def curveGy : Nat :=
  0x011839296A789A3BC0045C8A5FB42C7D1BD998F54449579B446817AFBD17273E662C97EE72995EF42640C550B9013FAD0761353C7086A272C24088BE94769FD16650

/-- A point by its coordinates; none is the point at infinity. -/
abbrev Point := Option (Nat × Nat)

/-- The base point. -/
def basePoint : Point := some (curveGx, curveGy)

/-- b^e modulo m, over at most `k` bits of e. -/
def powMod (m : Nat) : Nat → Nat → Nat → Nat
  | 0, _, _ => 1
  | k + 1, b, e => if e = 0 then 1 else (if e % 2 = 1 then b * powMod m k (b * b % m) (e / 2) % m else powMod m k (b * b % m) (e / 2))

/-- The inverse modulo a prime below 2^521. -/
def invMod (m x : Nat) : Nat := powMod m 521 (x % m) (m - 2)

/-- Whether coordinates name a point of the curve. -/
def onCurve (x y : Nat) : Bool :=
  decide (x < curveP) && decide (y < curveP) && decide (y * y % curveP = (x * x * x + (curveP - 3) * x + curveB) % curveP)

/-- The sum of two points. -/
def pointAdd (p q : Point) : Point :=
  match p, q with
  | none, q => q
  | p, none => p
  | some (x1, y1), some (x2, y2) =>
    if x1 = x2 ∧ (y1 + y2) % curveP = 0 then none
    else
      let l := if x1 = x2 then (3 * x1 * x1 + (curveP - 3)) * invMod curveP (2 * y1) % curveP
        else (y2 + curveP - y1) * invMod curveP (x2 + curveP - x1) % curveP
      let x3 := (l * l + 2 * curveP - x1 - x2) % curveP
      some (x3, (l * (x1 + curveP - x3) + curveP - y1) % curveP)

/-- k times a point, over at most `n` bits of k. -/
def pointMul : Nat → Nat → Point → Point
  | 0, _, _ => none
  | n + 1, k, p =>
    if k = 0 then none
    else if k % 2 = 1 then pointAdd p (pointMul n (k / 2) (pointAdd p p)) else pointMul n (k / 2) (pointAdd p p)

/-- The public key of a private scalar. -/
def publicPoint (key : Nat) : Point := pointMul 521 key basePoint

/-- A private scalar or a nonce, from 1 to n − 1, out of random bytes. -/
def scalarOf (bs : List Byte) : Nat := 1 + beNat bs % (curveN - 1)

/-! ### Octet strings (R423) -/

/-- The uncompressed encoding of a public key: 0x04, X and Y of 66 bytes each. -/
def pointBytes (p : Point) : List Byte :=
  match p with
  | some (x, y) => 4 :: (beBytes 66 x ++ beBytes 66 y)
  | none => [0]

/-- Reading an uncompressed point of the curve. -/
def parsePoint (bs : List Byte) : Point :=
  let x := beNat ((bs.drop 1).take 66)
  let y := beNat ((bs.drop 67).take 66)
  if bs.length = 133 ∧ bs.head? = some 4 ∧ onCurve x y = true then some (x, y) else none

/-! ### Signing and verifying a digest -/

/-- The signature (r, s) of a digest with a private scalar and a nonce. -/
def ecdsaSign (key nonce : Nat) (digest : List Byte) : Nat × Nat :=
  let r := match publicPoint nonce with | some y => y.1 % curveN | none => 0
  (r, invMod curveN nonce * (beNat digest + r * key) % curveN)

/-- Whether (r, s) is a signature of a digest under a public key. -/
def ecdsaVerify (pub : Point) (digest : List Byte) (r s : Nat) : Bool :=
  if pub.isNone ∨ r = 0 ∨ curveN ≤ r ∨ s = 0 ∨ curveN ≤ s then false
  else
    let w := invMod curveN s
    match pointAdd (pointMul 521 (beNat digest * w % curveN) basePoint) (pointMul 521 (r * w % curveN) pub) with
    | some y => decide (y.1 % curveN = r)
    | none => false

/-- A signature as two big-endian octet strings of 66 bytes (Tables 15-4, 19-2, 19-5). -/
def sigBytes (g : Nat × Nat) : List Byte := beBytes 66 g.1 ++ beBytes 66 g.2

end Sys2Proof.Machine
end

