-- ==== Sys2Proof/Machine/Cert.lean ====
section
/-! DEFINITION. The X.509 v3 certificates of the module in DER (R431, R432, RFC 5280). The manual names their contents; the
string types, the critical marks and a name of no further attributes are the model's (PRESUMED, log 52). -/
namespace Sys2Proof.Machine

/-! ### DER -/

/-- The length octets of a value below 65,536 bytes. -/
def derLen (n : Nat) : List Byte :=
  if n < 128 then [BitVec.ofNat 8 n] else if n < 256 then [0x81, BitVec.ofNat 8 n] else [0x82, BitVec.ofNat 8 (n / 256), BitVec.ofNat 8 n]

/-- One element: tag, length, contents. -/
def tlv (tag : Byte) (c : List Byte) : List Byte := tag :: (derLen c.length ++ c)

/-- SEQUENCE of elements. -/
def derSeq (l : List (List Byte)) : List Byte := tlv 0x30 l.flatten

/-- INTEGER of a non-negative number given by big-endian bytes. -/
def derInt (bs : List Byte) : List Byte :=
  match bs.dropWhile (· == 0) with
  | [] => tlv 2 [0]
  | b :: l => tlv 2 (if b.toNat < 128 then b :: l else 0 :: b :: l)

/-- The bytes of an ASCII string. -/
def ascii (s : String) : List Byte := s.toList.map fun c => BitVec.ofNat 8 c.toNat

/-! ### Parts of a certificate -/

/-- The algorithm identifier of ECDSA with SHA-512. -/
def sigAlg : List Byte := derSeq [tlv 6 [0x2A, 0x86, 0x48, 0xCE, 0x3D, 0x04, 0x03, 0x04]]

/-- The attribute serialNumber, with the fused serial number without its padding. -/
def serialAttr (serial : List Byte) : List Byte :=
  tlv 0x31 (derSeq [tlv 6 [0x55, 0x04, 0x05], tlv 0x13 ((serial.take 16).filter (· != 0))])

/-- The attribute commonName. -/
def nameAttr (s : String) : List Byte := tlv 0x31 (derSeq [tlv 6 [0x55, 0x04, 0x03], tlv 0x0C (ascii s)])

/-- The subject of the identity certificate, which issues the seal certificates (R431, R432). -/
def identName (serial : List Byte) : List Byte := derSeq [serialAttr serial]

/-- The subject of a lap seal certificate (R432). -/
def sealName (serial : List Byte) : List Byte := derSeq [nameAttr "Xervo lap seal", serialAttr serial]

/-- Validity from 20000101000000Z to 99991231235959Z (R431). -/
def validity : List Byte := derSeq [tlv 0x18 (ascii "20000101000000Z"), tlv 0x18 (ascii "99991231235959Z")]

/-- The subject public key on P-521. -/
def keyInfo (p : Point) : List Byte :=
  derSeq [derSeq [tlv 6 [0x2A, 0x86, 0x48, 0xCE, 0x3D, 0x02, 0x01], tlv 6 [0x2B, 0x81, 0x04, 0x00, 0x23]], tlv 3 (0 :: pointBytes p)]

/-- A critical extension. -/
def extension (oid value : List Byte) : List Byte := derSeq [tlv 6 oid, tlv 1 [0xFF], tlv 4 value]

/-- basicConstraints CA true with pathLenConstraint 0 and keyUsage digitalSignature and keyCertSign; or CA false and keyUsage
digitalSignature (R431, R432). -/
def certExts (ca : Bool) : List Byte :=
  tlv 0xA3 (derSeq [extension [0x55, 0x1D, 0x13] (derSeq (if ca then [tlv 1 [0xFF], tlv 2 [0]] else [])),
    extension [0x55, 0x1D, 0x0F] (tlv 3 (if ca then [2, 0x84] else [7, 0x80]))])

/-- What a certificate signs: version 3, serial number, algorithm, issuer, validity, subject, key, extensions. -/
def certBody (number issuer subject : List Byte) (key : Point) (ca : Bool) : List Byte :=
  derSeq [tlv 0xA0 (tlv 2 [2]), derInt number, sigAlg, issuer, validity, subject, keyInfo key, certExts ca]

/-- The certificate of a body with its signature. -/
def certOfBody (body : List Byte) (g : Nat × Nat) : List Byte :=
  derSeq [body, sigAlg, tlv 3 (0 :: derSeq [derInt (beBytes 66 g.1), derInt (beBytes 66 g.2)])]

/-- What the identity certificate signs, under the name of the manufacturing CA (R431). -/
def identBody (number caName serial : List Byte) (key : Nat) : List Byte :=
  certBody number caName (identName serial) (publicPoint key) true

/-- What a lap seal certificate signs: its 16-byte number has its top bit 0 (R432). -/
def sealBodyOf (number serial : List Byte) (key : Nat) : List Byte :=
  certBody number (identName serial) (sealName serial) (publicPoint key) false

/-- A serial number of 16 random bytes with the top bit 0 (R432). -/
def certNumber (bs : List Byte) : List Byte :=
  match bs with
  | [] => []
  | b :: l => (b &&& 0x7F) :: l

end Sys2Proof.Machine
end

