-- ==== Sys2Proof/Machine/State.lean ====
section
/-! DEFINITION. The state of the module as plain data, and the state right after reset.
Fields cite the rule that gives them; INVENTORY.md lists every one with its reset value. -/
namespace Sys2Proof.Machine

/-- Bytes by address in canonical form: addresses strictly rising, no entry equal to 0; an unlisted address reads 0.
Core store before a run and tiers after power have no stated contents: DESIGN CHOICE 0, unsafe (log 5). -/
abbrev Mem := List Host.Cell

/-- A quire, or a 32-bit integer accumulator (`fmt` = `i8`), or a binary32 quire (`fmt` = `b32`): R79–R85, R94, R129, R176. -/
structure Quire where
  fmt : Fmt
  val : Int
  terms : Nat
  res : Nat
  nar : Bool
  sat : Bool
  pinf : Bool
  ninf : Bool
  nan : Bool
  negz : Bool
  deriving DecidableEq, Repr

/-- A quire with its attached long base, if any, the cycle from which its last term is held, and the cycle from which
additions may fall after a service operation (R90, R147, R154, R175). -/
structure AccQ where
  q : Quire
  base : Option Nat
  held : Nat
  svcAt : Nat
  deriving DecidableEq, Repr

/-- One feeder queue entry: 16 raw elements, their format, the data tag, ready from `ready` (R103, R227). -/
structure FeedEntry where
  ready : Nat
  fmt : Fmt
  elems : List Nat
  tag : Byte
  deriving DecidableEq, Repr

/-- One stationary bank: its format, 256 raw weights row by row, and the residue register of each cell (R100, R113, R117). -/
structure Bank where
  fmt : Fmt
  w : List Nat
  res : List Nat
  deriving DecidableEq, Repr

/-- One tile row of an open group: accumulators, vectors received, data tag, skew mark (R123, R127, R138), and the
cycles from which other operations (R115) and additions (R132) may act on it. -/
structure TileRow where
  accs : List Quire
  vecs : Nat
  tag : Option Byte
  skew : Bool
  doneAt : Nat
  svcAt : Nat
  deriving DecidableEq, Repr

/-- An open accumulation group (R124): format, first tile row, its rows, saturated mark, long base, integer term limit. -/
structure Group where
  fmt : Fmt
  first : Nat
  rows : List TileRow
  sat : Bool
  base : Option Nat
  limit : Nat
  deriving DecidableEq, Repr

/-- A sticky record: per flag, whether it was raised, and the number of the first operation, counted without a limit, and its
position (Tables 6-9, 8-8). -/
structure Sticky where
  flag : List Bool
  idx : List Nat
  pos : List Nat
  deriving DecidableEq, Repr

/-- An MX.LDW whose rows are being read: effect cycle, address, stride, rows, format (R117). -/
structure LoadJob where
  start : Nat
  addr : Nat
  stride : Nat
  rows : Nat
  fmt : Fmt
  deriving DecidableEq, Repr

/-- One matrix array of a core (chapters 5 and 6). -/
structure MArray where
  fmt : Fmt
  cap : Nat
  cfgAt : Nat
  feed : List FeedEntry
  freeing : List Nat
  tagReg : Byte
  bank0 : Bank
  bank1 : Bank
  active1 : Bool
  busyTo : Nat
  maxTp : Nat
  winOpen : Nat
  loadEnd : Nat
  ldw : Option LoadJob
  groups : Vector (Option Group) 8
  portTo : Nat
  sticky : Sticky
  exits : Nat
  deriving DecidableEq, Repr

/-- The matrix-vector unit of a core (chapter 7). -/
structure Mvp where
  fmt : Fmt
  accs : Vector AccQ 16
  svcTo : Nat
  sticky : Sticky
  exits : Nat
  deriving DecidableEq, Repr

/-- One tile queue entry (R141–R143): entry cycle, source, 16 raw elements and their format, status word, statistics. -/
structure TileEntry where
  enter : Nat
  fmt : Fmt
  elems : List Nat
  status : Word
  stat : Option (Nat × Nat × Quire)
  deriving DecidableEq, Repr

/-- What a timed write changes: a core store byte or nibble, a vector register byte (64 × register + byte) or nibble,
predicate bits under a mask, an address register, a VEC flag, or an exit flag of MXA (0), MXB (1) or the MVP (2). -/
inductive PWrite where
  | cs (addr : Nat) (b : Byte)
  | csn (addr : Nat) (hi : Bool) (x : Nat)
  | v (addr : Nat) (b : Byte)
  | vn (addr : Nat) (hi : Bool) (x : Nat)
  | p (reg : Nat) (mask val : DWord)
  | a (reg : Nat) (val : BitVec 16)
  | vflag (f op pos : Nat)
  | eflag (u f op pos : Nat)
  deriving DecidableEq, Repr

/-- A write that becomes readable in cycle `ready`, and whether the VEC slot made it (R166, R187, R279, R471). -/
structure Pend where
  ready : Nat
  vec : Bool
  w : PWrite
  deriving DecidableEq, Repr

/-- A parsed tensor descriptor (Table 8-3). -/
structure TDesc where
  addr : Nat
  base : Nat
  fmt : Fmt
  rank : Nat
  masked : Bool
  zmask : Bool
  rnd : Bool
  n : List Nat
  s : List Int
  maskDesc : Nat
  stream : Nat
  idxBase : Nat
  deriving DecidableEq, Repr

/-- A VEC operation in the element pipe whose later beats or rows are still to come (R166, R204); for a row, its first
and last cycle and the byte ranges it reads (R471). -/
structure VecJob where
  instr : Instr
  start : Nat
  opIdx : Nat
  act : DWord
  sval : DWord
  s2 : DWord
  s3 : DWord
  pstep : Word
  seed : DWord
  unit : Nat
  units : Nat
  nextAt : Nat
  dst : Option TDesc
  src1 : Option TDesc
  src2 : Option TDesc
  mask : Option TDesc
  lanes : List Nat
  count : Nat
  best : Option (Nat × Nat)
  rowFirst : Nat
  rowLast : Nat
  reads : List (Nat × Nat)
  deriving DecidableEq, Repr

/-- One logical core (R14). -/
structure Core where
  cs : Mem
  v : Mem
  p : Vector DWord 16
  a : Vector (BitVec 16) 16
  pend : List Pend
  fresh : List Nat
  hist : List (Nat × Nat × Byte)
  mxa : MArray
  mxb : MArray
  mvp : Mvp
  tq : List TileEntry
  lq : Vector AccQ 16
  job : Option VecJob
  vecTo : Nat
  vecDone : Nat
  vecSticky : Sticky
  vecOps : Nat
  mesh : Vector Nat 4
  injTo : Nat
  degen : Nat
  fallback : Nat
  patrol : Nat
  deriving DecidableEq, Repr

/-- A scalar write that becomes readable in cycle `ready`, from the operation issued in cycle `issued` (R248). -/
structure SPend where
  ready : Nat
  issued : Nat
  reg : Reg6
  val : DWord
  deriving DecidableEq, Repr

/-- A loop level (R252, Table 17-4). -/
structure Loop where
  left : Nat
  iter : Nat
  first : Nat
  last : Nat
  deriving DecidableEq, Repr

/-- A wait in progress (R257). -/
structure Wait where
  bar : Reg4
  n : Nat
  limit : Nat
  issued : Nat
  deriving DecidableEq, Repr

/-- One frame of the program store (R262, R263): no page; loading a page with `taken` words taken, the last in cycle
`last`; or holding a page. -/
inductive PFrame where
  | none
  | loading (page taken last : Nat)
  | held (page : Nat)
  deriving DecidableEq, Repr

/-- What one issue cycle sent to the cores: whether a program word, and the scalars, PSTEP and PC read with it (R247). -/
structure Issue where
  prog : Bool
  s : Vector DWord 64
  pstep : Word
  pc : Nat
  deriving DecidableEq, Repr

/-- A CTL.COLL issued in cycle `issued`, which reads the cores in cycle `readAt` (R249). -/
structure Coll where
  readAt : Nat
  issued : Nat
  sd : Reg6
  vn : Reg6
  comb : Comb
  pq : Reg4
  deriving DecidableEq, Repr

/-- The die sequencer and its control core (chapter 11). -/
structure Seq where
  s : Vector DWord 64
  spend : List SPend
  bar : Vector Nat 16
  pstep : Word
  pstepNext : Option Word
  pc : Nat
  jump : Option Nat
  issued : Bool
  nops : Nat
  loops : List Loop
  wait : Option Wait
  ended : Bool
  endCyc : Option Nat
  final : Bool
  frames : Vector PFrame 128
  pageQ : List Nat
  pageUsed : Nat
  pipe : List Issue
  colls : List Coll
  energy : Nat
  words : Nat
  stalls : Nat
  deriving DecidableEq, Repr

/-- The entry of one summary flag (Table 11-12). -/
structure FlagEntry where
  core : Nat
  index : Nat
  unit : Nat
  pos : Nat
  deriving DecidableEq, Repr

/-- The entry of a flag that no core raised (Table 11-12). -/
def FlagEntry.none_ : FlagEntry := ⟨0xFFFFF, 0xFFFF, 3, 0xFFFFFFFF⟩

/-- The registers of one die (Tables 11-8 to 11-12). Here and below `setNow` marks the W1C bits that the module set in this
cycle, which a write in it does not clear (R6). -/
structure DieRegs where
  state : BitVec 2
  loopDepth : Nat
  lockstepSeen : Bool
  wordEccSeen : Bool
  setNow : BitVec 9
  loadCode : Byte
  loadDone : Bool
  endCycle : Word
  stallCycles : Word
  wordCount : Word
  wordCorrected : Nat
  flags : List Bool
  entries : List FlagEntry
  deriving DecidableEq, Repr

/-- The operations of memory requests (Table 12-12). -/
inductive MemKind where
  | rd | wr
  | qadd (fmt : Fmt)
  | maxloc (fmt : Fmt)
  | radd (fmt : Fmt)
  deriving DecidableEq, Repr

/-- One core's part of a memory request: its local index, whether active, its tier offset, core store address, bytes,
units, units served (R321, R324), and the data it has read so far. -/
structure MemPart where
  core : Nat
  active : Bool
  off : Nat
  cs : Nat
  len : Nat
  units : Nat
  served : Nat
  buf : List Byte
  deriving DecidableEq, Repr

/-- A memory request on one tier (R325–R329): units `allowed` by the budgets, the units from `floorFrom` on not before
`floorAt` (R41, R326), whether the energy allowance has been drawn, and the first payload word of its packets (R333). -/
structure MemReq where
  id : Nat
  kind : MemKind
  die : Die
  target : Die
  far : Bool
  async : Bool
  effect : Nat
  earliest : Nat
  parts : List MemPart
  served : Nat
  total : Nat
  allowed : Nat
  floorFrom : Nat
  floorAt : Nat
  paid : Bool
  charge : Nat
  lastAt : Nat
  sig : Option Reg4
  word : DWord
  deriving DecidableEq, Repr

/-- An element that the atomic unit has taken and whose request is not complete (R328, R329): request,
operation, issuing core, tier offset, operand bytes, and whether it has been applied. -/
structure AtomElem where
  id : Nat
  kind : MemKind
  die : Die
  core : Nat
  off : Nat
  operand : List Byte
  async : Bool
  done : Bool
  deriving DecidableEq, Repr

/-- State of one memory channel (R333, R334, R372). -/
structure Chan where
  epoch : BitVec 4
  resets : Nat
  resetFrom : Option Nat
  failed : Bool
  deriving DecidableEq, Repr

/-- One tier of a die (R315): its data lines, and the parity line of stripe `st` of the tier in bytes [64 st, 64 st + 64)
of `parity` (R319); `banks` is the bank that the latest refresh of each channel and rank named (R332). -/
structure Tier where
  mem : Mem
  parity : Mem
  staticUsed : Nat
  asyncUsed : Nat
  usedNow : Nat
  usedAt : Nat
  atoms : List AtomElem
  chans : Vector Chan 20
  degraded : Bool
  banks : Vector (Option Nat) 40
  deriving DecidableEq, Repr

/-- The map of a die (R300, R301): physical row of each local row, the cores unavailable at the build, retired rows. -/
structure DieMap where
  rows : List Nat
  bad : List (Nat × Nat)
  retired : List Nat
  exhausted : Bool
  deriving DecidableEq, Repr

/-- One compute die: the cores of the program's grid, then those at the positions that R12 leaves idle, by row and column;
`due` are the resident words that it has still to take (R268, R271). -/
structure DieSt where
  cores : List Core
  rest : List Core
  seq : Seq
  regs : DieRegs
  near : Tier
  far : Tier
  memQ : List MemReq
  epoch : BitVec 4
  copies : Vector (BitVec 4) 17
  due : Nat
  resetFrom : Option Nat
  defects : List (Nat × Nat)
  fences : List (Nat × Nat)
  map : DieMap
  groupsOn : Nat
  deriving DecidableEq, Repr

/-- Laps (chapter 2, Tables 2-7, 2-8, 2-11). -/
structure Laps where
  now : Nat
  cyc : Nat
  curK : Nat
  len : Nat
  state : BitVec 2
  lastAborted : Bool
  admitPending : Bool
  moduleLap : Nat
  runLap : Nat
  earlyCount : Nat
  overrunCount : Nat
  abortCount : Nat
  padCycles : Nat
  gridMode : BitVec 2
  gridPeriod : Word
  gridPhase : Word
  gridTarget : Option Nat
  lapFault : Bool
  progFault : Bool
  closed : Bool
  verdict : Option Bool
  sealed : Bool
  early : Bool
  committed : Bool
  stopIssue : Bool
  deriving DecidableEq, Repr

/-- The pacer (Tables 2-4, 2-6, 2-9, 2-10). -/
structure Pacer where
  envStep : Nat
  envActive : Nat
  envPending : Bool
  declared : Nat
  counted : Nat
  events : BitVec 6
  setNow : BitVec 6
  admitCode : Byte
  budget : Vector Nat 7
  written : Vector Nat 7
  used : Vector Nat 7
  usedNow : Vector Nat 7
  asyncEnergy : Nat
  deriving DecidableEq, Repr

/-- A NET datum in flight (R292, R304): source die, destination, address, bytes, the cycle from which it is readable, kind,
and the epochs of its header: the source's, and the destination's as the source knew it (Table 13-5). -/
structure NetDatum where
  src : Die
  die : Die
  core : Nat
  addr : Nat
  bytes : List Byte
  arrive : Nat
  mesh : Bool
  live : Bool
  lap : Nat
  srcEpoch : BitVec 4
  dstEpoch : BitVec 4
  deriving DecidableEq, Repr

/-- A NET.SEND whose words are still to leave (R292): source core, first cycle, words, core store address, destination;
an inactive one occupies its port and is counted (R306). -/
structure SendJob where
  die : Die
  core : Nat
  start : Nat
  words : Nat
  src : Nat
  toDie : Die
  toCore : Nat
  dst : Nat
  live : Bool
  deriving DecidableEq, Repr

/-- A signal in flight (R255, R294); completion signals carry `sentLap` = none (R256 does not apply). Its source and the
epochs of its header (Table 13-5). -/
structure Signal where
  src : Die
  die : Die
  bar : Reg4
  arrive : Nat
  sentLap : Option Nat
  srcEpoch : BitVec 4
  dstEpoch : BitVec 4
  deriving DecidableEq, Repr

/-- A fenced completion (R313, R334): the requester (16 the hub) and its epoch, the die that answers and its epoch, and,
for a channel, the payload word of Table 14-7 with `NEW_EPOCH`. -/
structure FencedDone where
  to_ : Nat
  toEpoch : BitVec 4
  die : Die
  dieEpoch : BitVec 4
  word : Option DWord
  deriving DecidableEq, Repr

/-- The fabric (chapter 13) and its links (R373). -/
structure Fabric where
  data : List NetDatum
  sends : List SendJob
  crossings : List (Nat × Nat × Nat × Nat)
  signals : List Signal
  fenced : List FencedDone
  linkErrors : Vector Nat 28
  linkFailed : BitVec 28
  nextId : Nat
  deriving DecidableEq, Repr

/-- A loaded program: its image header (Table 11-6) and digest (R344). -/
structure Program where
  image : Nat
  grade : Nat
  k : Nat
  asyncEnergy : Nat
  egressMax : Nat
  energy : List Nat
  nearStatic : List Nat
  farStatic : List Nat
  streams : List (Nat × Nat × Nat)
  digest : List Byte
  deriving DecidableEq, Repr

/-- One queue of the queue table (Table 18-5). -/
structure QueueCfg where
  die : Nat
  dir : Nat
  peer : Nat
  base : Nat
  half : Nat
  deriving DecidableEq, Repr

/-- The areas of one die in the queue table (Table 18-5). -/
structure DieAreas where
  recBase : Nat
  recHalf : Nat
  egdBase : Nat
  egdHalf : Nat
  deriving DecidableEq, Repr

/-- Split settings latched at RUN (R378): manifest header blocks and entries, step block, interval, `AUTO_RESUME`. -/
structure SplitCfg where
  hdrA : Nat
  hdrB : Nat
  regions : List (Nat × Nat × Nat)
  scb : Nat
  interval : Nat
  auto : Bool
  deriving DecidableEq, Repr

/-- A run, or the admission of one (R32, R269, R272, R337). -/
structure RunCfg where
  strict : Bool
  records : Bool
  seed : DWord
  n : Nat
  gridMode : BitVec 2
  queues : List QueueCfg
  areas : List DieAreas
  split : Option SplitCfg
  restore : Bool
  startLap : Nat
  deriving DecidableEq, Repr

/-- An admission in progress (R32): the configuration, the parameter words of each die as read at the cut (R272), who
asked, the failing code (0 if none), what bytes 8–19 of the reply hold, and how many replies of the cut stand before it. -/
structure Admission where
  cfg : RunCfg
  params : List (List DWord)
  req : CmdReq
  code : Byte
  lap : Nat
  status : Nat
  place : Nat
  deriving DecidableEq, Repr

/-- Mode, seed, TDC, weight set and the run (Tables 15-6 to 15-10, 10-8); a LOAD in progress: its program if every check
passes, and the load code of each die (R268); the parameter words of the run (R272); whether a RUN has been executed at this cut (R419); of the weight-set digest, the units
that each die has read so far (R322, R346). -/
structure RunSt where
  program : Option Program
  loading : Option Program
  loadCodes : List Byte
  params : List (List DWord)
  ranCut : Bool
  run : Option RunCfg
  last : Option RunCfg
  admission : Option Admission
  strict : Bool
  records : Bool
  strictActive : Bool
  recordsActive : Bool
  seed : DWord
  tdc : Nat
  tdcKinds : BitVec 3
  tdcNow : Nat
  kindsNow : BitVec 3
  restores : Nat
  wsetAddr : Nat
  wsetCount : Nat
  wsetStart : Bool
  wsetBusy : Bool
  wsetValid : Bool
  wsetErr : Bool
  setNow : BitVec 3
  wsetErrCode : Nat
  wsetRegions : List (Nat × Nat)
  wsetDirty : Bool
  wsetRead : Vector Nat 16
  wsetDigest : List Byte
  degen : Nat
  fallback : Nat
  deriving DecidableEq, Repr

/-- An open slot (R347, R348), or one that has ended and whose record is due: the number of this opening, identifier,
first lap, the digest inputs so far, the lap in which it ended, and whether the module ended it (R352). -/
structure Slot where
  inst : Nat
  id : Nat
  first : Nat
  inCount : Nat
  inBytes : List Byte
  outCount : Nat
  outBytes : List Byte
  ended : Option Nat
  unterm : Bool
  deriving DecidableEq, Repr

/-- A staged egress payload (Table 18-8): queue, slot-end mark, slot, die, near-tier offset, bytes, and the bytes of it
that the digest reads of R351 have taken; `inst` names the opening of its slot. -/
structure Egress where
  queue : Nat
  slotEnd : Bool
  slot : Nat
  die : Nat
  off : Nat
  len : Nat
  inst : Nat
  got : List Byte
  deriving DecidableEq, Repr

/-- The Mladar unit (chapter 15). -/
structure Mladar where
  slots : List Slot
  ended : List Slot
  nextInst : Nat
  leaves : List (List Byte)
  toDigest : List Egress
  runHeader : List Byte
  runDigest : List Byte
  prev : List Byte
  restores : Nat
  events : Nat
  sealNow : Option (List Byte)
  certsDue : Bool
  closingLap : Bool
  closingAborts : Nat
  deriving DecidableEq, Repr

/-- A fault record (Table 16-2). -/
structure FaultRec where
  cls : Nat
  cause : Nat
  core : Nat
  die : Nat
  unit : Nat
  detail : Nat
  phys : Nat
  runLap : Nat
  moduleLap : Nat
  cycle : Nat
  pc : Nat
  address : Nat
  action : Nat
  epoch : Nat
  more : Nat
  at_ : Nat
  deriving DecidableEq, Repr

/-- Fault detection, fencing and recovery (Tables 16-5 to 16-8, R390–R394); `fresh` records were queued in cycle `cameAt`, and
those of `spill` found the queue full in it (R366). -/
structure Faults where
  detected : List FaultRec
  queue : List FaultRec
  lost : Nat
  total : Nat
  csCorrected : Nat
  memCorrected : Nat
  memRecon : Nat
  linkCorrected : Nat
  oscB : Bool
  oscAFailed : Bool
  oscBFailed : Bool
  drift : Bool
  setNow : BitVec 4
  undecided : Bool
  oscDue : Bool
  fenceDie : Nat
  fenceIndex : Nat
  clearPending : Bool
  cameAt : Nat
  fresh : Nat
  spill : List FaultRec
  toRetrain : BitVec 28
  lapRecs : List FaultRec
  recovering : Bool
  recDone : Bool
  recOfRun : Bool
  recSteps : Nat
  recCount : Nat
  deriving DecidableEq, Repr

/-- The state that a split captures (R384). -/
structure SplitImage where
  side : Bool
  index : Nat
  step : Nat
  streams : Nat
  origin : Nat
  stride : Nat
  cursors : List Nat
  resumeLap : Nat
  moduleLap : Nat
  tdc : Nat
  tdcKinds : Nat
  restores : Nat
  prev : List Byte
  dies : List (List Byte)
  deriving DecidableEq, Repr

/-- Splits (Tables 17-8 to 17-10). -/
structure Splits where
  enable : Bool
  autoResume : Bool
  interval : Word
  man : Nat
  scb : Nat
  live : Bool
  draining : Bool
  drainDone : Bool
  verified : Bool
  verifyBusy : Bool
  verifyStart : Bool
  stretched : Bool
  skew : Bool
  giveup : Bool
  setNow : BitVec 8
  endReason : Nat
  errCode : Nat
  index : Nat
  step : Nat
  lap : Nat
  drainPos : Nat
  drainTotal : Nat
  stretchCount : Nat
  cursors : List Nat
  boundary : Nat
  atBoundary : Bool
  image : Option SplitImage
  hdrDone : Bool
  stop : Bool
  resumeReq : Bool
  verifySide : Bool
  verifyRead : Vector Nat 16
  cfg : Option SplitCfg
  deriving DecidableEq, Repr

/-- A Niwick frame that the module sends (Table 18-2): its peer, class (0 command, 1 data, 2 management, 3 drain,
4 record), the other header fields, and the payload. -/
structure TxFrame where
  peer : Nat
  ver : Byte
  sender : Word
  cls : Nat
  type : Nat
  flags : Nat
  seq : Nat
  ack : Nat
  sack : Nat
  queue : Nat
  aux : Nat
  payload : List Byte
  deriving DecidableEq, Repr

/-- Where a Niwick frame goes on the wire (R400, R402, R461): destination MAC address, VLAN, priority, IPv6 address, UDP port. -/
structure WireTo where
  mac : BitVec 48
  vid : Nat
  pcp : Nat
  addr : BitVec 128
  port : BitVec 16
  deriving DecidableEq, Repr

/-- What leaves the port (R16): a Niwick frame to a peer, one to the source of a recovery responder's frame (R427), a
priority flow control frame (R402), an answer to a neighbour solicitation (R400, R461), or an IEEE 1588 Delay_Req of a
domain (Table 18-1). -/
inductive Sent where
  | niwick (to_ : WireTo) (f : TxFrame)
  | responder (mac : BitVec 48) (f : TxFrame)
  | pfc (ctrl : Bool) (quanta : Nat)
  | advert (to_ target : BitVec 128) (mac : BitVec 48)
  | delayReq (domain : Nat)
  deriving DecidableEq, Repr

/-- A frame of the record buffer (R418): its payload, the peers it still goes to, and the peer and sequence number of
each transmission not yet acknowledged. -/
structure RecFrame where
  payload : List Byte
  todo : List Nat
  wait : List (Nat × Nat)
  deriving DecidableEq, Repr

/-- A frame kept until it is acknowledged: transmissions and the cycle of the last one (R408). -/
structure Unacked where
  frame : TxFrame
  sends : Nat
  last : Nat
  deriving DecidableEq, Repr

/-- The sequence state of one class of one peer, both directions (R407, R408). -/
structure SeqSt where
  rxNext : Nat
  rxHave : List Nat
  txNext : Nat
  unacked : List Unacked
  ackDue : Option Nat
  deriving DecidableEq, Repr

/-- One entry of the peer table (Tables 18-12, 18-13), and the credit limit of a credit frame that waits to be sent. -/
structure Peer where
  addr : BitVec 128
  port : BitVec 16
  cmd : Bool
  mgmt : Bool
  dataIn : Bool
  dataOut : Bool
  drainRx : Bool
  recordRx : Bool
  open_ : Bool
  sender : Word
  share : Word
  down : Bool
  bound : Bool
  classes : Vector SeqSt 5
  consumed : Nat
  limit : Nat
  creditDue : Option Nat
  deriving DecidableEq, Repr

/-- Configuration registers whose writes wait for a cut (R421). -/
structure NetCfg where
  mtu : Nat
  pcpBulk : Nat
  pcpCtrl : Nat
  vid : Nat
  udpPort : Nat
  rtoUs : Nat
  domain : Nat
  ptpEn : Bool
  gwMac : BitVec 48
  addr : BitVec 128
  deriving DecidableEq, Repr

/-- A command bound to a lap (R419): sender, sequence number, peer, its 64 bytes. -/
structure BoundCmd where
  sender : Nat
  seq : Nat
  peer : Fin 16
  payload : List Byte
  deriving DecidableEq, Repr

/-- A management frame: the module lap to which it is bound, peer, operations left, reply so far (R420, R465). -/
structure BoundMgmt where
  lap : Nat
  peer : Fin 16
  todo : List (Nat × Nat)
  done : List Byte
  deriving DecidableEq, Repr

/-- A data payload taken (R412): the run lap that R21 binds it to and the one that presents it. -/
structure Ingress where
  bound : Nat
  lap : Nat
  queue : Nat
  slotEnd : Bool
  sender : Nat
  seq : Nat
  order : Nat
  slot : Nat
  bytes : List Byte
  deriving DecidableEq, Repr

/-- A data frame of released egress waiting for its first transmission (R417); its bytes lie in the near tier of `die`. -/
structure OutFrame where
  lap : Nat
  queue : Nat
  peer : Nat
  slotEnd : Bool
  slot : Nat
  die : Nat
  off : Nat
  len : Nat
  deriving DecidableEq, Repr

/-- The network port and the Niwick transport (chapter 18); a pause of a priority ends at `bulkUntil` or `ctrlUntil`. -/
structure Net where
  lanes : BitVec 8
  carries : Bool
  bulkPaused : Bool
  ctrlPaused : Bool
  bulkUntil : Nat
  ctrlUntil : Nat
  cfg : NetCfg
  cfgNext : Option NetCfg
  ptpLocked : Bool
  ptpGood : Nat
  ptpBad : Nat
  ptpOffset : Int
  ptpDelay : Int
  ptpLast : Nat
  mac : BitVec 48
  firstMac : BitVec 48
  events : Byte
  setNow : Byte
  rxDropped : Nat
  egressLost : Nat
  retransmits : Nat
  peers : Vector Peer 16
  peerCfgNext : List (Nat × Nat × Nat)
  bulkBuf : Nat
  ctrlBuf : Nat
  bulkPfc : Bool
  ctrlPfc : Bool
  cmds : List BoundCmd
  mgmt : List BoundMgmt
  replies : List (Nat × Nat × List Byte)
  ingress : List Ingress
  order : Nat
  egress : List Egress
  out : List OutFrame
  storeBytes : Nat
  records : List RecFrame
  sent : List Sent
  presented : List Nat
  dark : Bool
  deriving DecidableEq, Repr

/-- Fuses, firmware, identity and the recovery responder (chapter 19): `trims` are the factory trims (R8, R425), `identKey` the
one-time-programmable identity scalar (R431) and `sealKey` the lap seal scalar in hub memory (R432). `flash` holds the image
area of Table 19-1; the other areas are the fence lists of the dies and the two stored certificates. -/
structure Sec where
  slotDigest : Vector (List Byte) 2
  revoked : Vector Bool 2
  rollback : Nat
  locked : Bool
  part : List Byte
  serial : List Byte
  trims : List Byte
  identKey : Nat
  sealKey : Nat
  flash : Mem
  certMfg : List Byte
  certIdent : List Byte
  certSeal : List Byte
  secVerRun : Nat
  slot : Nat
  fwDigest : List Byte
  sealReady : Bool
  admin : BitVec 16
  denied : Bool
  advDone : Bool
  advFail : Bool
  setNow : BitVec 3
  responder : Bool
  reason : Nat
  staging : Mem
  commit : Option (CmdReq × Nat)
  tap : TapInstr
  extest : Bool
  deriving DecidableEq, Repr

/-- Phases between power and the first idle lap (R457). -/
inductive Phase where
  | off | softStart | stagger | boot | laps
  deriving DecidableEq, Repr

/-- Power, bring-up and telemetry (chapters 20 and 21); `fell`: the input has fallen below 38.0 V since a latched shutdown
(R442); `riseAt`: the cycle of the last rise through 39.5 V; `below40`: the input is below 40.0 V (R450); `uvSince`: since when
it has been below 39.0 V (R441); `sampledAt`: the last sample of the sensors (R448); `stopAt`: the cycle of the condition that
made a controlled stop due (R449). -/
structure Power where
  phase : Phase
  latched : Bool
  fell : Bool
  step : Nat
  goodDone : Bool
  verified : Bool
  sealIssued : Bool
  memTrained : Bool
  linkTrained : Bool
  mapped : Bool
  restarts : Nat
  riseAt : Nat
  uv : Bool
  below40 : Bool
  uvSince : Option Nat
  sampledAt : Option Nat
  stopAt : Nat
  vinMv : Nat
  iinDa : Nat
  pinW : Nat
  energyJ : Nat
  warn : Bool
  stopPending : Bool
  memHot : Bool
  hottest : Nat
  events : BitVec 6
  setNow : BitVec 6
  sensorFail : List Nat
  inlet : Int
  outlet : Int
  hubTj : Int
  tj : Vector Int 16
  peak : Int
  peakAt : Nat
  deriving DecidableEq, Repr

/-- Identity registers (Table 21-5). -/
structure Ident where
  grade : Bool
  scratch : Word
  resetCause : Nat
  bootDegraded : Bool
  restarts : Nat
  bootTime : Word
  resetCount : Nat
  deriving DecidableEq, Repr

/-- The whole module. `freeIdx` is the model's own: the counter that free values are applied to (log 6).
`pending` is the queue of commands. -/
structure State where
  laps : Laps
  pacer : Pacer
  dies : Vector DieSt 16
  fabric : Fabric
  run : RunSt
  mladar : Mladar
  faults : Faults
  split : Splits
  net : Net
  sec : Sec
  power : Power
  ident : Ident
  freeIdx : Nat
  pending : List Instr
  deriving DecidableEq, Repr

/-- Reasons to stop. No command of this hardware stops the machine: a fault aborts a lap (R30, R367), which is a next
state. The one constructor is the guard of a byte read outside every address space; safe. -/
inductive Fault where
  /-- Raised by no path of the model: an access outside an address space is a program fault of the lap. Safe. -/
  | noAddress
  deriving DecidableEq, Repr

/-- Reasons to refuse a command. -/
inductive Refusal where
  /-- A command without a meaning yet, by mnemonic. Safe. -/
  | notModelled (mnemonic : String)
  /-- A field holds a value that R276, R280, R282, R285–R289 or Table 12-11 reserves, which admission refuses: no module
  executes it. Raised by the meaning of the command that holds the field. Safe. -/
  | reserved
  deriving DecidableEq, Repr

/-- A zero quire of a format (R80). -/
def Quire.zero (f : Fmt) : Quire := ⟨f, 0, 0, 0, false, false, false, false, false, false⟩

/-- A zero accumulator with no long base. -/
def AccQ.zero (f : Fmt) : AccQ := ⟨Quire.zero f, none, 0, 0⟩

/-- A cleared sticky record of `k` flags; every index field is `i` and every position field `j` (all ones, R142, R186). -/
def Sticky.clear (k i j : Nat) : Sticky := ⟨List.replicate k false, List.replicate k i, List.replicate k j⟩

/-- Run-start bank: zero weights in P8 (R116). -/
def Bank.init : Bank := ⟨.p8, List.replicate 256 0, List.replicate 256 0⟩

/-- Run-start array (R106, R116, R119, R125, R227); `t` is the first cycle of the body. -/
def MArray.init (t : Nat) : MArray :=
  { fmt := .p8, cap := 0, cfgAt := 0, feed := [], freeing := [], tagReg := 0, bank0 := Bank.init, bank1 := Bank.init,
    active1 := false, busyTo := 0, maxTp := 0, winOpen := t, loadEnd := 0, ldw := none,
    groups := Vector.replicate 8 none, portTo := 0, sticky := Sticky.clear 6 0xFFFF 0xF, exits := 0 }

/-- Run-start matrix-vector unit (R147, R157). -/
def Mvp.init : Mvp := ⟨.p8, Vector.replicate 16 (AccQ.zero .p8), 0, Sticky.clear 6 0xFFFF 0xF, 0⟩

/-- Run-start core (R160, R161, R175, R186, R278, R297). -/
def Core.init (t : Nat) : Core :=
  { cs := [], v := [], p := Vector.replicate 16 0, a := Vector.replicate 16 0, pend := [], fresh := [], hist := [],
    mxa := MArray.init t, mxb := MArray.init t, mvp := Mvp.init, tq := [],
    lq := Vector.replicate 16 (AccQ.zero .p8), job := none, vecTo := 0, vecDone := 0,
    vecSticky := Sticky.clear 9 0xFFFF 0xFFFFFFFF, vecOps := 0, mesh := Vector.replicate 4 0, injTo := 0,
    degen := 0, fallback := 0, patrol := 0 }

/-- An issue cycle that sent a NOP word (R241). -/
def Issue.nop : Issue := ⟨false, Vector.replicate 64 0, 0, 0xFFFFFFFF⟩

/-- Sequencer outside a run: stack empty, counters 0; scalars 0 (DESIGN CHOICE, log 3; a run loads them, R272). -/
def Seq.init : Seq :=
  { s := Vector.replicate 64 0, spend := [], bar := Vector.replicate 16 0, pstep := 0, pstepNext := none, pc := 0,
    jump := none, issued := false, nops := 0, loops := [], wait := none, ended := false, endCyc := none, final := false,
    frames := Vector.replicate 128 .none, pageQ := [], pageUsed := 0, pipe := List.replicate 12 Issue.nop, colls := [], energy := 0, words := 0, stalls := 0 }

/-- Reset values of Tables 11-10 to 11-12. -/
def DieRegs.init : DieRegs :=
  ⟨0, 0, false, false, 0, 0, false, 0xFFFFFFFF, 0, 0, 0, List.replicate 15 false,
    List.replicate 15 ⟨0xFFFFF, 0xFFFF, 3, 0xFFFFFFFF⟩⟩

def Chan.init : Chan := ⟨0, 0, none, false⟩
def Tier.init : Tier := ⟨[], [], 0, 0, 0, 0, [], Vector.replicate 20 Chan.init, false, Vector.replicate 40 none⟩

/-- A die with no defective and no fenced core, mapped one to one (log 4), n × n logical cores. -/
def DieSt.init (n : Nat) : DieSt :=
  { cores := List.replicate (n * n) (Core.init 0), rest := [], seq := Seq.init, regs := DieRegs.init, near := Tier.init,
    far := Tier.init, memQ := [], epoch := 0, copies := Vector.replicate 17 0, due := 0, resetFrom := none, defects := [],
    fences := [], map := ⟨List.range n, [], [], false⟩, groupsOn := 16 }

/-- Reset values of chapter 2; the clock starts at 0 (log 3). -/
def Laps.init : Laps :=
  { now := 0, cyc := 0, curK := 12, len := 4096, state := 0, lastAborted := false, admitPending := false,
    moduleLap := 0, runLap := 0, earlyCount := 0, overrunCount := 0, abortCount := 0, padCycles := 0, gridMode := 0,
    gridPeriod := 0, gridPhase := 0, gridTarget := none, lapFault := false, progFault := false, closed := false,
    verdict := none, sealed := false, early := false, committed := false, stopIssue := false }

/-- Reset budgets of Table 2-4 and envelope of Table 2-9. -/
def Pacer.init : Pacer :=
  { envStep := 12, envActive := 12, envPending := false, declared := 0, counted := 0, events := 0, setNow := 0, admitCode := 0,
    budget := #v[12288, 8192, 4096, 256, 4096, 4096, 1024], written := #v[12288, 8192, 4096, 256, 4096, 4096, 1024],
    used := Vector.replicate 7 0, usedNow := Vector.replicate 7 0, asyncEnergy := 0 }

def Fabric.init : Fabric := ⟨[], [], [], [], [], Vector.replicate 28 0, 0, 0⟩

/-- Reset values of Tables 15-7 to 15-10 and 10-8 (R338). -/
def RunSt.init : RunSt :=
  { program := none, loading := none, loadCodes := [], params := [], ranCut := false, run := none, last := none, admission := none, strict := true, records := true,
    strictActive := true, recordsActive := true, seed := 0, tdc := 0, tdcKinds := 0, tdcNow := 0, kindsNow := 0,
    restores := 0, wsetAddr := 0, wsetCount := 0, wsetStart := false, wsetBusy := false, wsetValid := false,
    wsetErr := false, setNow := 0, wsetErrCode := 0, wsetRegions := [], wsetDirty := false, wsetRead := Vector.replicate 16 0, wsetDigest := List.replicate 64 0,
    degen := 0, fallback := 0 }

def Mladar.init : Mladar :=
  { slots := [], ended := [], nextInst := 0, leaves := [], toDigest := [], runHeader := [],
    runDigest := List.replicate 64 0, prev := List.replicate 64 0, restores := 0, events := 0, sealNow := none, certsDue := false, closingLap := false,
    closingAborts := 0 }

/-- Reset values of Tables 16-6 to 16-8. -/
def Faults.init : Faults :=
  { detected := [], queue := [], lost := 0, total := 0, csCorrected := 0, memCorrected := 0, memRecon := 0,
    linkCorrected := 0, oscB := false, oscAFailed := false, oscBFailed := false, drift := false, setNow := 0, undecided := false,
    oscDue := false, fenceDie := 0, fenceIndex := 0, clearPending := false, cameAt := 0, fresh := 0,
    spill := [], toRetrain := 0,
    lapRecs := [], recovering := false, recDone := false, recOfRun := false, recSteps := 0, recCount := 0 }

/-- Reset values of Tables 17-9 and 17-10. -/
def Splits.init : Splits :=
  { enable := false, autoResume := true, interval := 1, man := 0, scb := 0, live := false, draining := false,
    drainDone := false, verified := false, verifyBusy := false, verifyStart := false, stretched := false,
    skew := false, giveup := false, setNow := 0, endReason := 0, errCode := 0, index := 0, step := 0, lap := 0, drainPos := 0,
    drainTotal := 0, stretchCount := 0, cursors := List.replicate 64 0, boundary := 0,
    atBoundary := false, image := none, hdrDone := true, stop := false, resumeReq := false,
    verifySide := false, verifyRead := Vector.replicate 16 0, cfg := none }

def SeqSt.init : SeqSt := ⟨0, [], 0, [], none⟩

/-- An empty peer entry (Tables 18-12, 18-13). -/
def Peer.empty : Peer :=
  { addr := 0, port := 0, cmd := false, mgmt := false, dataIn := false, dataOut := false, drainRx := false,
    recordRx := false, open_ := false, sender := 0, share := 0, down := false, bound := false,
    classes := Vector.replicate 5 SeqSt.init, consumed := 0, limit := 0, creditDue := none }

/-- Peer 0 after reset: open, command and management permission (R405). -/
def Peer.first : Peer := { Peer.empty with cmd := true, mgmt := true, open_ := true }

/-- The peer table after reset (R405). -/
def peersInit : Vector Peer 16 := (Vector.replicate 16 Peer.empty).set 0 Peer.first

/-- Reset values of Tables 18-12 and 18-13. -/
def NetCfg.init : NetCfg := ⟨0x2400, 3, 6, 1, 0xB7A3, 0x28, 0, true, 0, 0⟩

/-- The port after reset; the MAC address is a fuse value (log 4). -/
def Net.init (mac : BitVec 48) : Net :=
  { lanes := 0, carries := false, bulkPaused := false, ctrlPaused := false, bulkUntil := 0, ctrlUntil := 0,
    cfg := NetCfg.init, cfgNext := none,
    ptpLocked := false, ptpGood := 0, ptpBad := 0, ptpOffset := 0, ptpDelay := 0, ptpLast := 0, mac := mac,
    firstMac := 0, events := 0, setNow := 0, rxDropped := 0, egressLost := 0, retransmits := 0, peers := peersInit,
    peerCfgNext := [], bulkBuf := 0, ctrlBuf := 0, bulkPfc := false, ctrlPfc := false, cmds := [], mgmt := [],
    replies := [], ingress := [], order := 0, egress := [], out := [], storeBytes := 0, records := [],
    sent := [], presented := List.replicate 16 0, dark := false }

/-- The fused serial number of the modelled part (log 4). -/
def partSerial : List Byte := List.replicate 12 0x30 ++ [0, 0, 0, 0]

/-- The identity certificate of the modelled part: number 1, under a CA name of the model's, with a signature (1, 1) in place
of the CA's (log 52). -/
def partIdent : List Byte :=
  certOfBody (identBody [1] (derSeq [nameAttr "Hituyn Prellavo manufacturing CA"]) partSerial 1) (1, 1)

/-- Fuses, flash and certificates of the modelled part (log 4, log 52): no key slot revoked, counter 0, lock blown, flash erased
to 0, identity scalar 1, no seal key of an earlier bring-up. -/
def Sec.init : Sec :=
  { slotDigest := #v[List.replicate 64 0, List.replicate 64 0], revoked := #v[false, false], rollback := 0,
    locked := true, part := [0x50, 0x58, 0x56, 0x2D, 0x31, 0x30, 0x30, 0x30, 0x2D, 0x41, 0, 0, 0, 0, 0, 0],
    serial := partSerial, trims := [], identKey := 1, sealKey := 0, flash := [], certMfg := [], certIdent := partIdent,
    certSeal := [],
    secVerRun := 0, slot := 0, fwDigest := List.replicate 64 0, sealReady := true, admin := 1, denied := false,
    advDone := false, advFail := false, setNow := 0, responder := false, reason := 0, staging := [], commit := none,
    tap := .bypass, extest := false }

/-- Powered, first idle lap open (log 3); sensors read 44.0 V and 25.0 °C (log 14). -/
def Power.init : Power :=
  { phase := .laps, latched := false, fell := false, step := 257, goodDone := true, verified := true, sealIssued := true,
    memTrained := true, linkTrained := true, mapped := true, restarts := 0, riseAt := 0, uv := false, below40 := false, uvSince := none,
    sampledAt := none, stopAt := 0, vinMv := 44000, iinDa := 0, pinW := 0, energyJ := 0, warn := false, stopPending := false, memHot := false,
    hottest := 0, events := 0, setNow := 0, sensorFail := [], inlet := 250, outlet := 250, hubTj := 250,
    tj := Vector.replicate 16 250, peak := 250, peakAt := 0 }

/-- A PXV-1000 part (log 4), power applied once (log 3). -/
def Ident.init : Ident := ⟨false, 0, 1, false, 0, 0, 0⟩

/-- The module right after reset: its first idle lap has just opened after power (R7, R457). -/
def State.reset : State :=
  { laps := Laps.init, pacer := Pacer.init, dies := Vector.replicate 16 (DieSt.init 250), fabric := Fabric.init,
    run := RunSt.init, mladar := Mladar.init, faults := Faults.init, split := Splits.init,
    net := Net.init 0x025A3C001234, sec := Sec.init, power := Power.init, ident := Ident.init, freeIdx := 0,
    pending := [] }

end Sys2Proof.Machine
end

