-- ==== Sys2Proof/Machine/Ops.lean ====
section
/-! DEFINITION. The named operations over memory, registers, dies and faults that the meanings share. -/
namespace Sys2Proof.Machine

/-! ### Byte memories (canonical form: rising addresses, no entry equal to 0) -/

/-- Reading one byte: an unlisted address reads 0 (log 5). -/
def memGet : Mem → Nat → Byte
  | [], _ => 0
  | (k, b) :: m, a => if k = a then b else if a < k then 0 else memGet m a

/-- Writing one byte; the value that an unlisted address reads as removes the entry. -/
def memSet : Mem → Nat → Byte → Mem
  | [], a, b => if b = 0 then [] else [(a, b)]
  | (k, x) :: m, a, b =>
    if a < k then (if b = 0 then (k, x) :: m else (a, b) :: (k, x) :: m)
    else if a = k then (if b = 0 then m else (a, b) :: m)
    else (k, x) :: memSet m a b

/-- The canonical form from a lower bound on. -/
def memWfFrom : Nat → Mem → Bool
  | _, [] => true
  | lo, (k, b) :: m => decide (lo ≤ k) && !(b == 0) && memWfFrom (k + 1) m

/-- The canonical form of a byte memory. -/
def Memory.wf (m : Mem) : Bool := memWfFrom 0 m

/-- `n` bytes from address `a` on (R61). -/
def memRead (m : Mem) (a : Nat) : Nat → List Byte
  | 0 => []
  | n + 1 => memGet m a :: memRead m (a + 1) n

/-- Writing bytes from address `a` on. -/
def memWrite (m : Mem) (a : Nat) : List Byte → Mem
  | [] => m
  | b :: bs => memWrite (memSet m a b) (a + 1) bs

/-- Dropping every byte in [a, a + n): those bytes read 0 afterwards. -/
def memClear (m : Mem) (a n : Nat) : Mem := m.filter (fun c => decide (c.1 < a) || decide (a + n ≤ c.1))

/-! ### Vectors by number -/

/-- Element i of a vector, or `d` outside it. -/
def vget {α : Type} {n : Nat} (v : Vector α n) (i : Nat) (d : α) : α := (v[i]?).getD d

/-- The vector with element i replaced; unchanged outside it. -/
def vset {α : Type} {n : Nat} (v : Vector α n) (i : Nat) (x : α) : Vector α n := v.setIfInBounds i x

/-- One die. -/
def State.die (s : State) (d : Die) : DieSt := s.dies[d]

/-- The state with one die replaced. -/
def State.setDie (s : State) (d : Die) (x : DieSt) : State := { s with dies := s.dies.set d x }

/-- The state with one die's sequencer replaced. -/
def State.setSeq (s : State) (d : Die) (q : Seq) : State := s.setDie d { s.die d with seq := q }

/-- A die by number; numbers above 15 wrap (never formed). -/
def dieOf (n : Nat) : Die := Fin.ofNat 16 n

/-- Folding an operation over the 16 dies in ascending order. -/
def forDies (f : State → Die → State) (s : State) : State := (List.finRange 16).foldl f s

/-! ### Geometry (R10, R11, R15) -/

/-- Die hops of R15. -/
def hops (a b : Nat) : Nat :=
  ((a / 4 : Int) - (b / 4 : Int)).natAbs + ((a % 4 : Int) - (b % 4 : Int)).natAbs

/-- Logical position of local index `i` of die `d` under grid side `n` (R11). -/
def logicalX (n d i : Nat) : Nat := (d % 4) * n + i % n
def logicalY (n d i : Nat) : Nat := (d / 4) * n + i / n

/-- Logical core address (R10). -/
def coreAddr (n d i : Nat) : Nat := logicalY n d i * 1024 + logicalX n d i

/-- Grid side of the grade of the part (R11, Table 0-1). -/
def gridSide (s : State) : Nat := if s.ident.grade then 245 else 250

/-- Grid side per die of the program in force (R11): of the run, else of the part. -/
def sideN (s : State) : Nat :=
  match s.run.run with
  | some r => r.n
  | none => gridSide s

/-! ### The map (R300) -/

/-- Whether a physical core is available: neither defective nor, at the build, fenced (R300, R370). -/
def coreAvail (x : DieSt) (pr pc : Nat) : Bool := !(x.defects.contains (pr, pc)) && !(x.map.bad.contains (pr, pc))

/-- The physical columns of row `pr`, in order, that are available. -/
def rowCols (x : DieSt) (pr : Nat) : List Nat := (List.range 256).filter (coreAvail x pr)

/-- Local column and row of index `i` on a die of side `m` in a run of side `n`: the program's grid by rows, then the
positions that R12 leaves idle, by rows. -/
def posOf (n m i : Nat) : Nat × Nat :=
  let j := i - n * n
  let k := j - n * (m - n)
  if i < n * n then (i % n, i / n)
  else if j < n * (m - n) then (n + j % (m - n), j / (m - n))
  else (k % m, n + k / m)

/-- The physical core (row, column) of local index `i`, when the die presents it (R300, R369). -/
def physOf (s : State) (d : Die) (i : Nat) : Option (Nat × Nat) :=
  let p := posOf (sideN s) (gridSide s) i
  let x := s.die d
  if x.map.exhausted then none
  else
    match x.map.rows[p.2]? with
    | none => none
    | some pr =>
      match (rowCols x pr)[p.1]? with
      | none => none
      | some pc => some (pr, pc)

/-! ### Lap times (R18, R19) -/

/-- L, the length of the current lap. -/
def lapLen (s : State) : Nat := s.laps.len

/-- D, the last cycle of the body, as a lap cycle. -/
def lapD (s : State) : Nat := s.laps.len - 1025

/-- The absolute cycle of the current lap's cut. -/
def lapStart (s : State) : Nat := s.laps.now - s.laps.cyc

/-- Absolute cycle of D. -/
def absD (s : State) : Nat := lapStart s + lapD s

/-- Whether laps turn, and with them the Niwick engine takes frames: power is up and the recovery responder is not (R427,
R457, R459). -/
def portOn (s : State) : Bool := decide (s.power.phase = .laps) && !s.sec.responder

/-- A command of the control space or of a peer takes effect at a cut of a module that turns laps, and nothing of it happens
at any other time (R20, R419, R420, R427, R446; log 13). -/
def atCut (s : State) (f : State → State) : State := if portOn s && decide (s.laps.cyc = 0) then f s else s

/-- Whether a run's laps are being turned (Table 2-7 `STATE` 0b01 or 0b10 with the run in force). -/
def runActive (s : State) : Bool := s.run.run.isSome && (s.laps.state == 1 || s.laps.state == 2)

/-! ### Faults (R364, R365, R367) -/

/-- What a core operation reports: cause, unit, detail, address. -/
abbrev Raise := Nat × Nat × Nat × Nat

/-- `ACTION` of a merged record: WORD_ECC on several cores of a die in one cycle resets the die in place of a fence
(Table 16-1). -/
def mergedAction (x r : FaultRec) : Nat :=
  if x.cause = 8 ∧ x.cls = 1 ∧ x.core ≠ r.core then 5 else x.action ||| r.action

/-- Merging of records of one cause, die and cycle: lowest core kept, the others counted (R365). Two links are no one die:
records without a die stay apart. -/
def mergeRec (r : FaultRec) : List FaultRec → List FaultRec
  | [] => [r]
  | x :: xs =>
    if x.cause = r.cause ∧ x.die = r.die ∧ x.at_ = r.at_ ∧ x.die ≠ 0xFF then
      let lo := if r.core < x.core then r else x
      { lo with more := min (x.more + r.more + 1) 0xFFFF, action := mergedAction x r } :: xs
    else x :: mergeRec r xs

/-- CYCLE of a record: the lap cycle, or the padding count in padding (Table 16-2). -/
def recCycle (s : State) : Nat := if s.laps.len ≤ s.laps.cyc then s.laps.cyc - s.laps.len else s.laps.cyc

/-- RUN_LAP of a record: all ones between runs (Table 16-2). -/
def recRunLap (s : State) : Nat := if s.run.run.isSome then s.laps.runLap else 2 ^ 64 - 1

/-- The issue word that takes effect at the cores of a die in this cycle (R240). -/
def issueNow (s : State) (d : Die) : Issue := ((s.die d).seq.pipe.getLast?).getD Issue.nop

/-- PHYS of Table 16-2 for a local index. -/
def physWord (s : State) (d : Die) (i : Nat) : Nat :=
  match physOf s d i with
  | some (pr, pc) => 65536 + pc * 256 + pr
  | none => 0

/-- A record with the fields that detection fixes (Table 16-2). `core` is a local index. -/
def mkRec (s : State) (cls cause : Nat) (d : Die) (core : Option Nat) (unit detail addr action : Nat) : FaultRec :=
  { cls := cls, cause := cause,
    core := (match core with | some i => if i < sideN s * sideN s then coreAddr (sideN s) d i else 0xFFFFF | none => 0xFFFFF),
    die := d, unit := unit, detail := detail,
    phys := (match core with | some i => physWord s d i | none => 0),
    runLap := recRunLap s, moduleLap := s.laps.moduleLap, cycle := recCycle s,
    pc := (issueNow s d).pc, address := addr, action := action, epoch := 0, more := 0, at_ := s.laps.now }

/-- A fault attributed to the current lap: its record is detected and the lap will be aborted (R28, R367). -/
def addFault (s : State) (r : FaultRec) : State :=
  { s with
    faults := { s.faults with detected := mergeRec r s.faults.detected, lapRecs := mergeRec r s.faults.lapRecs }
    laps := { s.laps with lapFault := true, progFault := s.laps.progFault || r.cls == 2 } }

/-- A program fault of one core, or a detected fault (cause below 0x0100), which fences the core (R367, Table 16-1). -/
def raiseCore (s : State) (d : Die) (i : Nat) (r : Raise) : State :=
  let det := decide (r.1 < 0x100)
  addFault s (mkRec s (if det then 1 else 2) r.1 d (some i) r.2.1 r.2.2.1 r.2.2.2 (if det then 3 else 1))

/-- A program fault of a whole die (R365). -/
def raiseDie (s : State) (d : Die) (cause unit addr : Nat) : State :=
  addFault s (mkRec s 2 cause d none unit 0 addr 1)

/-- A program fault of the module, reported by the hub. -/
def raiseHub (s : State) (cause : Nat) : State :=
  addFault s { mkRec s 2 cause 0 none 12 0 0 1 with die := 16, pc := 0xFFFFFFFF }

/-! ### Events of the power block (Table 20-12) -/

/-- Setting bits of PT_EVENTS, marked as set in this cycle (R6). -/
def Power.setEvents (p : Power) (e : BitVec 6) : Power := { p with events := p.events ||| e, setNow := p.setNow ||| e }

/-- A write of `v` to a W1C field: bits written 1 are cleared, but those that the module set in this cycle (R5, R6). -/
def w1c {n : Nat} (held setNow : BitVec n) (v : Nat) : BitVec n := held &&& (~~~(BitVec.ofNat n v) ||| setNow)

/-- The same of a single bit `b` of a written word. -/
def w1cBit {n : Nat} (held : Bool) (setNow : BitVec n) (v b : Nat) : Bool := held && (!bitAt v b || setNow.getLsbD b)

/-- A condition of the power block asks for a controlled stop: `STOP_PENDING`, and of a run a stop that falls due even if
the condition ends; noted with its cycle if none is asked yet (R441, R449). -/
def askStop (s : State) : State :=
  { s with
    power := { s.power with stopPending := true
                            stopAt := if s.split.stop || s.power.stopPending then s.power.stopAt else s.laps.now }
    split := { s.split with stop := s.split.stop || s.run.run.isSome } }

/-! ### Epochs (R311, R312) -/

/-- The epoch of die `b` as die `a` knows it (R311). -/
def epochOf (s : State) (a b : Die) : BitVec 4 := if a = b then (s.die a).epoch else vget (s.die a).copies b.val 0

/-- Whether a packet from `src` to `dst` is dropped in this cycle: an epoch of its header is not the one in force (R312). -/
def staleEpochs (s : State) (src dst : Die) (se de : BitVec 4) : Bool := de != (s.die dst).epoch || se != epochOf s dst src

/-- Dropping `n` packets at die `d`: one record for each, merged (R312, R365). -/
def dropPackets (s : State) (d : Die) (n : Nat) : State :=
  (List.range n).foldl (fun s _ => addFault s (mkRec s 1 15 d none 0xFF 0 0 1)) s

/-! ### Operations of a die's cores (R240, R243, R245) -/

/-- What a core operation sees beside its core: die, grid side, local index, this cycle, the lap's cut, L, the word's
scalars, PSTEP and PC, STRICT, the pepper seed and the run lap. -/
structure CoreIn where
  die : Nat
  n : Nat
  idx : Nat
  now : Nat
  start : Nat
  len : Nat
  issue : Issue
  strict : Bool
  seed : DWord
  runLap : Nat
  deriving DecidableEq, Repr

/-- The input of core `i` of die `d` in this cycle. -/
def coreIn (s : State) (d : Die) (i : Nat) : CoreIn :=
  { die := d, n := sideN s, idx := i, now := s.laps.now, start := lapStart s, len := s.laps.len,
    issue := issueNow s d,
    strict := (match s.run.run with | some r => r.strict | none => s.run.strictActive),
    seed := (match s.run.run with | some r => r.seed | none => s.run.seed), runLap := s.laps.runLap }

/-- Running a core function over a list of cores from local index `i`: the new cores and what each reports. -/
def mapCores (f : Nat → Core → Core × List Raise) : Nat → List Core → List Core × List (Nat × Raise)
  | _, [] => ([], [])
  | i, c :: cs =>
    let r := f i c
    let t := mapCores f (i + 1) cs
    (r.1 :: t.1, r.2.map (fun x => (i, x)) ++ t.2)

/-- The state with a die's cores replaced. -/
def State.setCores (s : State) (d : Die) (cs : List Core) : State := s.setDie d { s.die d with cores := cs }

/-- Run-start cores in place of a list of cores, with `n` of them, each at the patrol position that it had (R363). -/
def freshCores (l : List Core) (n t : Nat) : List Core :=
  (List.range n).map fun i => { Core.init t with patrol := match l[i]? with | some c => c.patrol | none => 0 }

/-- Applying a core function to every core of a die and taking what the cores report as program faults. -/
def onCores (s : State) (d : Die) (f : CoreIn → Core → Core × List Raise) : State :=
  let r := mapCores (fun i c => f (coreIn s d i) c) 0 (s.die d).cores
  r.2.foldl (fun s x => raiseCore s d x.1 x.2) (s.setCores d r.1)

/-- Counting the charge of an operation of die `d` (R46, R261; log 6). -/
def addEnergy (s : State) (d : Die) (op : Nat) : State :=
  let q := (s.die d).seq
  s.setSeq d { q with energy := q.energy + Config.charge op }

/-- An operation of a core slot: it acts when the word that takes effect in this cycle is a program word (R240, R241).
A cycle whose word is a NOP word changes nothing. -/
def slotOp (s : State) (d : Die) (op : Nat) (f : CoreIn → Core → Core × List Raise) : State :=
  if (issueNow s d).prog then onCores (addEnergy s d op) d f else s

/-! ### Registers and stores of one core -/

/-- Predicate register; P0 is all ones (R161). -/
def predVal (c : Core) (p : Reg4) : DWord := if p = 0 then 0xFFFFFFFFFFFFFFFF else c.p[p]

/-- Whether an operation acts on this core: bit 0 of its predicate (R245). -/
def activeOn (c : Core) (p : Reg4) : Bool := (predVal c p).getLsbD 0

/-- Effective address of a core store operand (R277). -/
def csaAddr (c : Core) (x : Csa) : Nat := if x.au then (x.off.toNat + (c.a[x.an]).toNat) % 65536 else x.off.toNat

/-- Size of the core store (R297). -/
def csSize : Nat := 0xC000

/-- Alignment and range of a core store access (R277). -/
def csOk (a align n : Nat) : Bool := decide (a % align = 0) && decide (a + n ≤ csSize)

/-- Bytes of core store as readable in this cycle. -/
def csRead (c : Core) (a n : Nat) : List Byte := memRead c.cs a n

/-- The 64 bytes of a vector register as readable in this cycle (R160). -/
def vRead (c : Core) (r : Nat) : List Byte := memRead c.v (64 * r) 64

/-- Element i, of `w` bits, of bytes (INT4: two per byte, low nibble first, R61). -/
def elemAt (w : Nat) (bs : List Byte) (i : Nat) : Nat :=
  if w = 4 then (let b := (nth bs (i / 2) 0).toNat; if i % 2 = 0 then b % 16 else b / 16)
  else leNat ((bs.drop (i * (w / 8))).take (w / 8))

/-- The `n` elements of format `f` that bytes spell. -/
def elemsOf (f : Fmt) (n : Nat) (bs : List Byte) : List Nat := (List.range n).map (elemAt (fmtBits f) bs)

/-- Bytes of whole elements of format `f` (INT4: pairs). -/
def bytesOfElems (f : Fmt) : List Nat → List Byte
  | [] => []
  | [a] => if fmtBits f = 4 then [BitVec.ofNat 8 (a % 16)] else leBytes (fmtBits f / 8) a
  | a :: b :: l =>
    if fmtBits f = 4 then BitVec.ofNat 8 (a % 16 + 16 * (b % 16)) :: bytesOfElems f l
    else leBytes (fmtBits f / 8) a ++ bytesOfElems f (b :: l)

/-- The core store byte that a timed write changes. -/
def csTarget : PWrite → Option Nat
  | .cs a _ => some a
  | .csn a _ _ => some a
  | _ => none

/-- Whether a timed write to a core store byte of [a, a + n) becomes readable in the same cycle (R279; a nibble counts as
its byte, R174). -/
def wawHit (c : Core) (ready a n : Nat) : Bool :=
  c.pend.any fun p => decide (p.ready = ready) &&
    (match csTarget p.w with | some x => decide (a ≤ x) && decide (x < a + n) | none => false)

/-- The timed writes of bytes at an address. -/
def csPends (ready : Nat) (vec : Bool) (a : Nat) : List Byte → List Pend
  | [] => []
  | b :: bs => ⟨ready, vec, .cs a b⟩ :: csPends ready vec (a + 1) bs

/-- A write of core store bytes by `unit` readable from `ready`, with the CS_WAW condition of R279. -/
def csWrite (c : Core) (ready a : Nat) (bs : List Byte) (unit : Nat) : Core × List Raise :=
  ({ c with pend := c.pend ++ csPends ready (decide (unit = 3)) a bs },
    if wawHit c ready a bs.length then [(0x015B, unit, 0, a)] else [])

/-- Whether two writes change a common vector register element (R167). -/
def vClash : PWrite → PWrite → Bool
  | .v a _, .v b _ => decide (a = b)
  | .v a _, .vn b _ _ => decide (a = b)
  | .vn a _ _, .v b _ => decide (a = b)
  | .vn a h _, .vn b g _ => decide (a = b) && decide (h = g)
  | .p r m _, .p q n _ => decide (r = q) && decide (r ≠ 0) && !((m &&& n) == 0)
  | _, _ => false

/-- The timed writes of vector register bytes (64 × register + byte). -/
def vPends (ready a : Nat) : List Byte → List PWrite
  | [] => []
  | b :: bs => .v a b :: vPends ready (a + 1) bs

/-- Register writes readable from `ready`, with the VEC_WAW condition of R167. -/
def regWrite (c : Core) (ready : Nat) (vec : Bool) (ws : List PWrite) : Core × List Raise :=
  ({ c with pend := c.pend ++ ws.map (fun w => ⟨ready, vec, w⟩) },
    if c.pend.any (fun p => decide (p.ready = ready) && ws.any (vClash p.w)) then [(0x0135, 3, 0, 0)] else [])

/-- Raising a flag of a sticky record: the entry is that of the first operation in order, and of its first position
(R74, R142, R186). Operations are numbered without a limit; the record shows 0xFFFE from the 65,535th on. -/
def Sticky.raise (k : Sticky) (f op pos : Nat) : Sticky :=
  let i := nth k.idx f 0
  let first := !(nth k.flag f false) || decide (op < i) || (decide (op = i) && decide (pos < nth k.pos f 0))
  if first then ⟨k.flag.set f true, k.idx.set f op, k.pos.set f pos⟩ else k

/-- The operation index that a sticky record shows for a flag: it holds at 0xFFFE (R142, R186). -/
def Sticky.index (k : Sticky) (f : Nat) : Nat := min (nth k.idx f 0xFFFF) 0xFFFE

/-- A byte with one nibble replaced. -/
def setNib (b : Byte) (hi : Bool) (n : Nat) : Byte :=
  if hi then BitVec.ofNat 8 (b.toNat % 16 + 16 * (n % 16)) else BitVec.ofNat 8 (b.toNat / 16 * 16 + n % 16)

/-- Applying one timed write to a core. -/
def applyPWrite (c : Core) : PWrite → Core
  | .cs x b => { c with cs := memSet c.cs x b }
  | .csn x h n => { c with cs := memSet c.cs x (setNib (memGet c.cs x) h n) }
  | .v x b => { c with v := memSet c.v x b }
  | .vn x h n => { c with v := memSet c.v x (setNib (memGet c.v x) h n) }
  | .p r mask val => if r = 0 then c else { c with p := vset c.p r ((vget c.p r 0 &&& ~~~mask) ||| (val &&& mask)) }
  | .a r val => { c with a := vset c.a r val }
  | .vflag f op pos => { c with vecSticky := c.vecSticky.raise f op pos }
  | .eflag u f op pos =>
    if u = 0 then { c with mxa := { c.mxa with sticky := c.mxa.sticky.raise f op pos } }
    else if u = 1 then { c with mxb := { c.mxb with sticky := c.mxb.sticky.raise f op pos } }
    else { c with mvp := { c.mvp with sticky := c.mvp.sticky.raise f op pos } }

/-- Core store bytes of a timed write as they stood before it, with the cycle from which the write is readable. -/
def undoOf (t : Nat) (c : Core) (w : PWrite) : List (Nat × Nat × Byte) :=
  match csTarget w with
  | some a => [(t, a, memGet c.cs a)]
  | none => []

/-- The core with every timed write that is readable in cycle `t` applied, in order (R166, R279). `fresh` keeps the core
store bytes that became readable in this cycle, for the condition CS_WAW of data that arrives in it; `hist` keeps what
core store bytes held before, for 144 cycles, for write data that R326 reads 24h cycles before its service. -/
def commitPend (t : Nat) (c : Core) : Core :=
  let due := c.pend.filter fun p => decide (p.ready ≤ t)
  due.foldl (fun c p => applyPWrite { c with hist := undoOf t c p.w ++ c.hist } p.w)
    { c with pend := c.pend.filter (fun p => decide (t < p.ready)), fresh := due.filterMap (fun p => csTarget p.w),
             hist := c.hist.filter fun y => decide (t ≤ y.1 + 144) }

/-- A core store byte as timed writes already made leave it in cycle `t`. -/
def csSoon (c : Core) (t a : Nat) : Byte :=
  ((c.pend.filter fun p => decide (p.ready ≤ t) && decide (csTarget p.w = some a)).foldl (fun (y : Nat × Byte) p =>
    if y.1 ≤ p.ready then
      (p.ready, match p.w with | .cs _ b => b | .csn _ h n => setNib y.2 h n | _ => y.2)
    else y) (0, memGet c.cs a)).2

/-- A core store byte as it stood in cycle `t`: what the earliest later write replaced, else what it holds. -/
def csByteAt (c : Core) (t a : Nat) : Byte :=
  match (c.hist.filter fun y => decide (t < y.1) && decide (y.2.1 = a)).getLast? with
  | some y => y.2.2
  | none => memGet c.cs a

/-- Core store bytes as they stood in cycle `t`. -/
def csReadAt (c : Core) (t a n : Nat) : List Byte := (List.range n).map fun k => csByteAt c t (a + k)

/-- The array of a slot. -/
def Core.arr (c : Core) (k : Arr) : MArray :=
  match k with
  | .mxa => c.mxa
  | .mxb => c.mxb

def Core.setArr (c : Core) (k : Arr) (m : MArray) : Core :=
  match k with
  | .mxa => { c with mxa := m }
  | .mxb => { c with mxb := m }

/-- Unit number of an array (Table 16-2). -/
def arrUnit : Arr → Nat
  | .mxa => 0
  | .mxb => 1

/-! ### Free values -/

/-- The next draw number of a free value (log 6). -/
def State.draw (s : State) : Nat × State := (s.freeIdx, { s with freeIdx := s.freeIdx + 1 })

/-- The next `n` draw numbers. -/
def State.drawN (s : State) (n : Nat) : Nat × State := (s.freeIdx, { s with freeIdx := s.freeIdx + n })

/-- `n` random bytes (log 7). -/
def randomBytes (i n : Nat) : List Byte := (List.range n).map (fun k => Config.randomByte (i + k))

end Sys2Proof.Machine
end

