-- ==== Sys2Proof/Machine/Control.lean ====
section
/-! DEFINITION. The CTL slot: scalars, branches, loops, signals, waits, paging and LAP.END (chapter 11, Table 12-1). -/
namespace Sys2Proof.Machine

/-! ### The word being issued (R241, R262) -/

/-- Stream length in words of a die's program (Table 11-6). -/
def streamLen (s : State) (d : Die) : Nat :=
  match s.run.program with
  | some p => (nth p.streams d (0, 0, 0)).1
  | none => 0

/-- Words of page `p` (R262). -/
def pageWords (s : State) (d : Die) (p : Nat) : Nat := min 1024 (streamLen s d - p * 1024)

/-- The frame that can hold a word (R262). -/
def frameOf (q : Seq) (w : Nat) : PFrame := vget q.frames (w / 1024 % 128) .none

/-- Whether the frame of a word holds its page (R262). -/
def pageHeld (q : Seq) (w : Nat) : Bool := frameOf q w == .held (w / 1024)

/-- Whether the frame of a word is loading its page (R263). -/
def pageLoading (q : Seq) (w : Nat) : Bool :=
  match frameOf q w with
  | .loading p _ _ => decide (p = w / 1024)
  | _ => false

/-- Whether the body of a run's lap is open for issue on a die (R241, R367, R371). -/
def bodyOpen (s : State) (d : Die) : Bool :=
  runActive s && !s.laps.stopIssue && decide (1 ≤ s.laps.cyc) && decide (s.laps.cyc ≤ lapD s) &&
    (s.die d).resetFrom.isNone && !(s.die d).seq.ended

/-- Whether the sequencer would issue a program word in this cycle if its page is held (R251, R257). -/
def wantsWord (s : State) (d : Die) : Bool :=
  bodyOpen s d && (s.die d).seq.wait.isNone && decide ((s.die d).seq.nops = 0)

/-- Whether the sequencer issues the program word at the program counter in this cycle (R241, R262). -/
def issuing (s : State) (d : Die) : Bool :=
  wantsWord s d && decide ((s.die d).seq.pc < streamLen s d) && pageHeld (s.die d).seq (s.die d).seq.pc

/-- An operation of the CTL slot: it acts when the sequencer issues a program word in this cycle (R241). -/
def ctlOp (s : State) (d : Die) (op : Nat) (f : State → State) : State :=
  if issuing s d then
    let s := addEnergy s d op
    f (s.setSeq d { (s.die d).seq with issued := true })
  else s

/-! ### Scalars (R247, R248) -/

/-- A scalar as readable in this cycle. -/
def sRead (s : State) (d : Die) (r : Reg6) : DWord := (s.die d).seq.s[r]

/-- A scalar write readable `lat` cycles after this one (Table 11-3). -/
def sWrite (s : State) (d : Die) (r : Reg6) (lat : Nat) (v : DWord) : State :=
  let q := (s.die d).seq
  s.setSeq d { q with spend := q.spend ++ [⟨s.laps.now + lat, s.laps.now, r, v⟩] }

/-- The scalar writes that become readable by `t`, applied in order of readiness, then of issue (R248). -/
def commitScalars (t : Nat) (q : Seq) : Seq :=
  let due := sortBy (fun a b => decide (a.ready < b.ready) || (decide (a.ready = b.ready) && decide (a.issued ≤ b.issued)))
    (q.spend.filter fun p => decide (p.ready ≤ t))
  { q with s := due.foldl (fun v p => v.set p.reg p.val) q.s
           spend := q.spend.filter (fun p => decide (t < p.ready)) }

/-- CTL.ALU functions (Table 12-2). -/
def aluFn (f : AluFn) (a b : DWord) : DWord :=
  match f with
  | .add => a + b
  | .sub => a - b
  | .and => a &&& b
  | .or => a ||| b
  | .xor => a ^^^ b
  | .shl => a <<< (b.toNat % 64)
  | .shr => a >>> (b.toNat % 64)
  | .sar => a.sshiftRight (b.toNat % 64)
  | .min => if a.slt b then a else b
  | .max => if a.slt b then b else a
  | .minu => if a.ult b then a else b
  | .maxu => if a.ult b then b else a
  | .slt => if a.slt b then 1 else 0
  | .sltu => if a.ult b then 1 else 0

/-- The value that CTL.LI writes (Table 12-1). -/
def liValue (hi : Bool) (old : DWord) (imm : Word) : DWord :=
  if hi then imm ++ old.extractLsb' 0 32 else imm.signExtend 64

/-- Branch conditions (R251). -/
def brTaken (c : BrCond) (a b : DWord) : Bool :=
  match c with
  | .eq => a == b
  | .ne => !(a == b)
  | .lt => a.slt b
  | .le => a.sle b
  | .ltu => a.ult b
  | .leu => a.ule b

/-- The mode word (R336). -/
def modeWord (strict records : Bool) : Nat := b2n strict + 2 * b2n records

/-- The items of Table 11-4. -/
def linfoItem (s : State) (d : Die) (item : Nat) : Nat :=
  match item with
  | 0 => s.laps.runLap
  | 1 => s.laps.moduleLap
  | 2 => d
  | 3 => s.laps.curK
  | 4 => sideN s
  | 5 => (match s.run.run with | some r => modeWord r.strict r.records | none => modeWord s.run.strictActive s.run.recordsActive)
  | 6 => (match s.run.run with | some r => r.seed.toNat | none => s.run.seed.toNat)
  | _ => nth s.net.presented d 0

/-! ### Branches and loops (R251–R253) -/

/-- Program counter and loop stack (innermost first) after the word at `w`: the innermost body that ends at `w` iterates
or is popped (R252, R253). -/
def advance : List Loop → Nat → List Loop × Nat
  | [], w => ([], w + 1)
  | l :: ls, w =>
    if w = l.last then
      if 1 < l.left then ({ l with left := l.left - 1, iter := l.iter + 1 } :: ls, l.first) else advance ls w
    else (l :: ls, w + 1)

/-- The target of a branch at `pc` with a signed 20-bit offset. A target below 0 has no stream word: it is taken past the
end of every stream (PC_RANGE). -/
def brTarget (pc : Nat) (ofs : BitVec 20) : Nat :=
  let t : Int := (pc : Int) + ofs.toInt
  if t < 0 then 2 ^ 24 else t.toNat

/-- A branch taken to `t`, or not taken; two NOP words follow (R251). -/
def branchTo (s : State) (d : Die) (t : Option Nat) : State :=
  let q := (s.die d).seq
  s.setSeq d { q with jump := t, nops := 2 }

/-- Pushing a level for a count of at least 1; a count of 0 skips the body (R252). -/
def loopStart (q : Seq) (count b : Nat) : Seq :=
  if count = 0 then
    let r := advance q.loops (q.pc + b)
    { q with loops := r.1, jump := some r.2, nops := 2 }
  else { q with loops := ⟨count, 0, q.pc + 1, q.pc + b⟩ :: q.loops }

/-! ### Meanings -/

/-- NOP changes no state (R241). -/
def execNop (_d : Die) (s : State) : Host.Outcome State Fault Refusal := .next s

/-- CTL.LI (R248, Table 12-1). -/
def execCtlLi (d : Die) (hi : Bool) (sd : Reg6) (imm : Word) (s : State) : Host.Outcome State Fault Refusal :=
  .next (ctlOp s d 0x01 fun s => sWrite s d sd 1 (liValue hi (sRead s d sd) imm))

/-- CTL.ALU (R248, Table 12-2). -/
def execCtlAlu (d : Die) (fn : AluFn) (sd sa sb : Reg6) (immf : Bool) (imm : BitVec 16) (s : State) :
    Host.Outcome State Fault Refusal :=
  .next (ctlOp s d 0x02 fun s =>
    sWrite s d sd 1 (aluFn fn (sRead s d sa) (if immf then imm.signExtend 64 else sRead s d sb)))

/-- CTL.MUL (R248). -/
def execCtlMul (d : Die) (sd sa sb : Reg6) (s : State) : Host.Outcome State Fault Refusal :=
  .next (ctlOp s d 0x03 fun s => sWrite s d sd 3 (sRead s d sa * sRead s d sb))

/-- CTL.LIDX (R248); a level that is not open is refused (R280). -/
def execCtlLidx (d : Die) (sd : Reg6) (q : Fin 8) (s : State) : Host.Outcome State Fault Refusal :=
  if issuing s d then
    match (s.die d).seq.loops[q.val]? with
    | some l => .next (ctlOp s d 0x04 fun s => sWrite s d sd 1 (BitVec.ofNat 64 l.iter))
    | none => .refused .reserved
  else .next s

/-- CTL.LINFO (R250); an item above 7 is refused. -/
def execCtlLinfo (d : Die) (sd : Reg6) (item : Fin 16) (s : State) : Host.Outcome State Fault Refusal :=
  if item.val < 8 then .next (ctlOp s d 0x05 fun s => sWrite s d sd 2 (BitVec.ofNat 64 (linfoItem s d item)))
  else .refused .reserved

/-- CTL.COLL (R249): the cores are read 12 cycles after issue, by the tick. -/
def execCtlColl (d : Die) (sd vn : Reg6) (comb : Comb) (pq : Reg4) (s : State) : Host.Outcome State Fault Refusal :=
  .next (ctlOp s d 0x06 fun s =>
    let q := (s.die d).seq
    s.setSeq d { q with colls := q.colls ++ [⟨s.laps.now + 12, s.laps.now, sd, vn, comb, pq⟩] })

/-- CTL.PSTEP (R236): effective from the next issue word. -/
def execCtlPstep (d : Die) (sa : Reg6) (s : State) : Host.Outcome State Fault Refusal :=
  .next (ctlOp s d 0x07 fun s =>
    let q := (s.die d).seq
    s.setSeq d { q with pstepNext := some ((sRead s d sa).setWidth 32) })

/-- CTL.BR (R251). -/
def execCtlBr (d : Die) (cond : BrCond) (sa sb : Reg6) (ofs : BitVec 20) (s : State) :
    Host.Outcome State Fault Refusal :=
  .next (ctlOp s d 0x10 fun s =>
    branchTo s d (if brTaken cond (sRead s d sa) (sRead s d sb) then some (brTarget (s.die d).seq.pc ofs) else none))

/-- CTL.JMP (R251). -/
def execCtlJmp (d : Die) (ofs : BitVec 20) (s : State) : Host.Outcome State Fault Refusal :=
  .next (ctlOp s d 0x11 fun s => branchTo s d (some (brTarget (s.die d).seq.pc ofs)))

/-- CTL.LOOP (R252). -/
def execCtlLoop (d : Die) (src : Bool) (sa : Reg6) (count body : BitVec 16) (s : State) :
    Host.Outcome State Fault Refusal :=
  .next (ctlOp s d 0x12 fun s =>
    s.setSeq d (loopStart (s.die d).seq (if src then ((sRead s d sa).setWidth 32 : Word).toNat else count.toNat)
      (body.toNat + 1)))

/-- CTL.SIG (R255); an empty mask is refused (R280). -/
def execCtlSig (d : Die) (bar : Reg4) (mask : BitVec 16) (s : State) : Host.Outcome State Fault Refusal :=
  if mask = 0 then .refused .reserved
  else .next (ctlOp s d 0x18 fun s =>
    { s with fabric := { s.fabric with
        signals := s.fabric.signals ++ ((List.finRange 16).filter (fun e : Die => mask.getLsbD e)).map
          (fun e => ⟨d, e, bar, s.laps.now + 8 + 24 * hops d e, some s.laps.moduleLap, (s.die d).epoch, epochOf s d e⟩) } })

/-- CTL.WAIT (R257); a count of 0 is refused (R280). -/
def execCtlWait (d : Die) (bar : Reg4) (n : BitVec 16) (limit : Word) (s : State) :
    Host.Outcome State Fault Refusal :=
  if n = 0 then .refused .reserved
  else .next (ctlOp s d 0x19 fun s =>
    let q := (s.die d).seq
    s.setSeq d { q with wait := some ⟨bar, n.toNat, limit.toNat, s.laps.now⟩ })

/-- Starting to load a page (R263): PAGE_RANGE beyond the stream, PAGE_LIVE onto the page being issued or a loading frame. -/
def pageStart (s : State) (d : Die) (p : Nat) : State :=
  let q := (s.die d).seq
  if streamLen s d ≤ p * 1024 then raiseDie s d 0x0150 6 0
  else
    match vget q.frames (p % 128) .none with
    | .loading _ _ _ => raiseDie s d 0x014F 6 0
    | fr =>
      if fr = .held (q.pc / 1024) then raiseDie s d 0x014F 6 0
      else s.setSeq d { q with frames := vset q.frames (p % 128) (.loading p 0 s.laps.now), pageQ := q.pageQ ++ [p] }

/-- CTL.PAGE (R263). Its charge is asynchronous: the allowance of R41 bears it with the first word that the page takes. -/
def execCtlPage (d : Die) (src : Bool) (sa : Reg6) (page : BitVec 14) (s : State) :
    Host.Outcome State Fault Refusal :=
  .next (if issuing s d then
    pageStart (s.setSeq d { (s.die d).seq with issued := true }) d (if src then (sRead s d sa).toNat else page.toNat)
  else s)

/-- LAP.END (R258, R259): no word issues after it in this lap; it is executed 12 cycles later, by the tick. -/
def execLapEnd (d : Die) (final : Bool) (s : State) : Host.Outcome State Fault Refusal :=
  .next (ctlOp s d 0x3F fun s =>
    let q := (s.die d).seq
    s.setSeq d { q with ended := true, endCyc := some (s.laps.cyc + 12), final := final })

/-! ### Signals and waits (R255–R257) -/

/-- SIGNAL_ARRIVE (R255, R256): every signal due at this counter by this cycle counts, but one that R312 drops;
BARRIER_OVF above 0xFFFF;
SIG_LATE for a CTL.SIG signal after cycle D of its lap. A completion signal after cycle D counts from cycle 1 of the next
lap (R294). -/
def execSignalArrive (d : Die) (bar : Reg4) (s : State) : Host.Outcome State Fault Refusal :=
  let body := decide (1 ≤ s.laps.cyc) && decide (s.laps.cyc ≤ lapD s)
  let mine (g : Signal) : Bool :=
    decide (g.die = d) && decide (g.bar = bar) && decide (g.arrive ≤ s.laps.now) && (g.sentLap.isSome || body)
  let came := s.fabric.signals.filter mine
  let due := came.filter fun g => !staleEpochs s g.src d g.srcEpoch g.dstEpoch
  let q := (s.die d).seq
  let total := vget q.bar bar 0 + due.length
  let s1 := { s with fabric := { s.fabric with signals := s.fabric.signals.filter (fun g => !mine g) } }
  let s2 := s1.setSeq d { q with bar := vset q.bar bar (min total 0xFFFF) }
  let s3 := if 0xFFFF < total then raiseDie s2 d 0x0148 6 0 else s2
  let late := due.any fun g =>
    match g.sentLap with
    | some m => !decide (m = s.laps.moduleLap) || decide (absD s < g.arrive)
    | none => false
  let s4 := if late then raiseDie s3 d 0x0149 6 0 else s3
  .next (dropPackets s4 d (came.length - due.length))

/-- WAIT_MET (R257): the counter is reduced; the next word issues in the next cycle. Unmet, or first met after cycle
i + T: nothing changes. -/
def execWaitMet (d : Die) (s : State) : Host.Outcome State Fault Refusal :=
  let q := (s.die d).seq
  match q.wait with
  | some w =>
    let b := vget q.bar w.bar 0
    if w.n ≤ b ∧ (w.limit = 0 ∨ s.laps.now ≤ w.issued + w.limit) then
      .next (s.setSeq d { q with bar := vset q.bar w.bar (b - w.n), wait := none,
                                 nops := if w.issued < s.laps.now then 1 else 0,
                                 stalls := if w.issued < s.laps.now then q.stalls + 1 else q.stalls })
    else .next s
  | none => .next s

/-- WAIT_LIMIT (R257): in cycle i + T + 1 of a wait that cycle i + T left unmet, whatever arrives now. -/
def execWaitLimit (d : Die) (s : State) : Host.Outcome State Fault Refusal :=
  match (s.die d).seq.wait with
  | some w =>
    if w.limit ≠ 0 ∧ w.issued + w.limit + 1 = s.laps.now then
      .next (raiseDie s d 0x014A 6 0)
    else .next s
  | none => .next s

/-- PAGE_LOAD_DONE (R263): a frame whose last word was taken 176 cycles ago holds its page. -/
def execPageLoadDone (d : Die) (frame : Fin 128) (s : State) : Host.Outcome State Fault Refusal :=
  let q := (s.die d).seq
  match q.frames[frame] with
  | .loading p taken last =>
    if taken = pageWords s d p ∧ last + 176 ≤ s.laps.now then
      .next (s.setSeq d { q with frames := q.frames.set frame (.held p) })
    else .next s
  | _ => .next s

end Sys2Proof.Machine
end

