-- ==== Sys2Proof/Machine/Pepper.lean ====
section
/-! DEFINITION. The pepper generator, Philox4x32-10 (R233–R235). -/
namespace Sys2Proof.Machine

/-- One round: counter words c0 to c3 under keys k0 and k1 (R234). -/
def philoxRound (k0 k1 : Nat) (c : Nat × Nat × Nat × Nat) : Nat × Nat × Nat × Nat :=
  let p0 := 0xD2511F53 * c.1
  let p1 := 0xCD9E8D57 * c.2.2.1
  (Nat.xor (Nat.xor (p1 / 2 ^ 32) c.2.1) k0, p1 % 2 ^ 32, Nat.xor (Nat.xor (p0 / 2 ^ 32) c.2.2.2) k1, p0 % 2 ^ 32)

/-- `r` rounds, the keys stepping after each (R234). -/
def philoxRounds : Nat → Nat → Nat → Nat × Nat × Nat × Nat → Nat × Nat × Nat × Nat
  | 0, _, _, c => c
  | r + 1, k0, k1, c => philoxRounds r ((k0 + 0x9E3779B9) % 2 ^ 32) ((k1 + 0xBB67AE85) % 2 ^ 32) (philoxRound k0 k1 c)

/-- The four output words for a seed, stream identifier, step and element index (R233, Table 10-6). -/
def philox (seed : DWord) (stream step index : Nat) : Nat × Nat × Nat × Nat :=
  philoxRounds 10 (seed.toNat % 2 ^ 32) (seed.toNat / 2 ^ 32)
    (index % 2 ^ 32, index / 2 ^ 32 % 2 ^ 32, step % 2 ^ 32, stream % 2 ^ 32)

/-- The draw u of R66: bits [15:0] of output word c0 (R235). -/
def pepperDraw (seed : DWord) (stream step index : Nat) : Nat := (philox seed stream step index).1 % 65536

end Sys2Proof.Machine
end

