-- ==== Sys2Proof/Machine/Quire.lean ====
section
/-! DEFINITION. Quires, their residue shadows, quire images and rounding (chapter 4), integer accumulators (R128–R130). -/
namespace Sys2Proof.Machine

/-- The modulus of the residue shadow (R94). -/
def resMod : Nat := 65535

/-- The residue of an integer, in 0–65,534 (R95: equal to the residue of its two's complement pattern). -/
def resOf (z : Int) : Nat := (z % 65535).toNat

/-- n of the posit format of a quire (R79). Integer accumulators act at n = 32 in images (R130). -/
def quireN : Fmt → Nat
  | .p8 => 8
  | .p16 => 16
  | _ => 32

/-- The integer that an N-bit two's complement register holds (R79). -/
def wrapInt (w : Nat) (z : Int) : Int := toSigned w (ofSigned w z)

/-- Bits of an accumulator of a format: 16n, or 32 for an integer accumulator (R79, Table 6-1). -/
def accBits (f : Fmt) : Nat := if f = .i8 then 32 else 16 * quireN f

/-- A quire set to NaR: its pattern and residue (R80, R83). -/
def Quire.setNar (q : Quire) : Quire :=
  { q with nar := true, val := -(2 ^ (accBits q.fmt - 1) : Nat), res := 32767 }

/-- A saturated quire: NaR and marked (R85). -/
def Quire.saturate (q : Quire) : Quire := { q.setNar with sat := true }

/-- A term as an integer at the quire's weight, its residue formed from the operands (R81, R94); none for NaR. -/
abbrev Term := Option (Int × Nat)

/-- ±a × b × 2^shift, and its residue by rotation from the residue `rb` held for `b` (R94, R113). -/
def mkTermR (neg : Bool) (a b rb : Nat) (shift : Int) : Term :=
  let v : Int := ((a * b * 2 ^ shift.toNat : Nat) : Int)
  let r := (a % resMod) * rb * 2 ^ (shift.toNat % 16) % resMod
  some (if neg then (-v, (resMod - r) % resMod) else (v, r))

/-- ±a × b × 2^shift, and its residue by rotation (R94). -/
def mkTerm (neg : Bool) (a b : Nat) (shift : Int) : Term := mkTermR neg a b (b % resMod) shift

/-- A product of two posits in a quire of format `f`; the streamed operand under cap `c` (R56, R81). -/
def prodTerm (f fa fb : Fmt) (c a b : Nat) : Term :=
  match unpack fa a, unpack fb b with
  | some x, some y =>
    let x := capUnpacked c x
    if x.sig = 0 ∨ y.sig = 0 then some (0, 0)
    else mkTerm (Bool.xor x.neg y.neg) x.sig y.sig (x.exp + y.exp + 8 * quireN f - 16)
  | _, _ => none

/-- The residue register of a stationary element: X_w mod 65,535, from the element as loaded (R113). -/
def cellRes (f : Fmt) (a : Nat) : Nat := match unpack f a with | some u => u.sig % resMod | none => 0

/-- The product of a streamed posit and a stationary one whose cell holds residue `rw` (R81, R113). -/
def cellTerm (f fa fb : Fmt) (c a b rw : Nat) : Term :=
  match unpack fa a, unpack fb b with
  | some x, some y =>
    let x := capUnpacked c x
    if x.sig = 0 ∨ (y.sig = 0 ∧ rw = 0) then some (0, 0)
    else mkTermR (Bool.xor x.neg y.neg) x.sig y.sig rw (x.exp + y.exp + 8 * quireN f - 16)
  | _, _ => none

/-- The product of a streamed integer and a stationary one whose cell holds residue `rw` (R108, R113, R129). -/
def cellInt (fa fb : Fmt) (a b rw : Nat) : Term :=
  match unpack fa a, unpack fb b with
  | some x, some y => mkTermR (Bool.xor x.neg y.neg) x.sig y.sig rw 0
  | _, _ => none

/-- A posit term in a quire of format `f` (R81). -/
def positTerm (f fa : Fmt) (a : Nat) : Term :=
  match unpack fa a with
  | some x => if x.sig = 0 then some (0, 0) else mkTerm x.neg x.sig 1 (x.exp + 8 * quireN f - 16)
  | none => none

/-- A product of two integer codes (R108, R129). -/
def intTerm (fa fb : Fmt) (a b : Nat) : Term :=
  match unpack fa a, unpack fb b with
  | some x, some y => mkTerm (Bool.xor x.neg y.neg) x.sig y.sig 0
  | _, _ => none

/-- Adding a term; `k` counts and the limit of R85. A NaR quire stays NaR (R83). -/
def Quire.addTerm (q : Quire) (t : Term) (k limit : Nat) : Quire :=
  let n := q.terms + k
  let q := { q with terms := min n (2 ^ 63 - 1) }
  if limit < n then q.saturate
  else
    match t with
    | none => q.setNar
    | some (v, r) =>
      if q.nar then q
      else { q with val := wrapInt (accBits q.fmt) (q.val + v), res := (q.res + r) % resMod }

/-- Adding several terms that count `k` in all (R84, R111). -/
def Quire.addTerms (q : Quire) (ts : List Term) (k limit : Nat) : Quire :=
  (ts.foldl (fun q t => q.addTerm t 0 limit) (q.addTerm (some (0, 0)) k limit))

/-- The term limit of a quire, or of a quire with a base image of `b` terms (R85). -/
def quireLimit (base : Option Nat) : Nat :=
  match base with
  | none => 2 ^ 31 - 1
  | some b => 2 ^ 63 - 1 - b

/-- Whether the residue check of R95 passes. -/
def Quire.resOk (q : Quire) : Bool := decide (resOf q.val = q.res)

/-! ### Quire images (R88, R89, Table 4-3) -/

/-- Bits of the value field of an image (Table 4-3). -/
def imgValBits : Fmt → Nat
  | .p8 => 192
  | .p16 => 320
  | _ => 576

/-- Bytes of an image (Table 4-3). -/
def imgSize (f : Fmt) : Nat := 16 + imgValBits f / 8

/-- Format of the image of an accumulator: P32 for an integer accumulator (R130). -/
def imgFmt (f : Fmt) : Fmt := if f = .i8 then .p32 else f

/-- Bits of a long quire (R88). -/
def longBits (f : Fmt) : Nat := 16 * quireN f + 32

/-- The long quire that an image of format `f` holds, and its FMT code. Of an image that breaks Table 4-3 the value field is
taken whole as a signed number, and bit 63 of `TERMS` and the reserved bits are not looked at (DESIGN CHOICE, log 51). -/
def imgParse (f : Fmt) (bs : List Byte) : Quire × Nat :=
  let flags := (nth bs 11 0).toNat
  let v := toSigned (imgValBits f) (leNat ((bs.drop 16).take (imgValBits f / 8)))
  let nar := bitAt flags 0 || decide (v = -(2 ^ (longBits f - 1) : Nat))
  (⟨f, v, leNat (bs.take 8) % 2 ^ 63, leNat ((bs.drop 8).take 2), nar, bitAt flags 1, false, false, false, false⟩,
    (nth bs 10 0).toNat)

/-- The bytes of the image of a long quire. -/
def imgBytes (q : Quire) : List Byte :=
  leBytes 8 q.terms ++ leBytes 2 q.res ++ [BitVec.ofNat 8 (fmtCode q.fmt), BitVec.ofNat 8 (b2n q.nar + 2 * b2n q.sat)] ++
    zeros 4 ++ leBytes (imgValBits q.fmt / 8) (ofSigned (imgValBits q.fmt) q.val)

/-- A long quire that is NaR: pattern and residue at its width (R83, R88). -/
def Quire.longNar (q : Quire) : Quire := { q with nar := true, val := -(2 ^ (longBits q.fmt - 1) : Nat), res := 32767 }

/-- A zero image with no terms (R90). -/
def imgZero (f : Fmt) : Quire := Quire.zero f

/-- An accumulator as a long quire of its image's format: an integer accumulator enters at bit 240 (R82, R130). -/
def Quire.toLong (q : Quire) (f : Fmt) : Quire :=
  if q.nar then { q with fmt := f }.longNar
  else if q.fmt = .i8 then { q with fmt := f, val := q.val * (2 ^ 240 : Nat) }
  else { q with fmt := f, val := q.val * (2 ^ (8 * (quireN f - quireN q.fmt)) : Nat) }

/-- The exact sum of two long quires of one format (R90 step 2, R97): terms capped at the limit when it saturates. -/
def longAdd (a b : Quire) : Quire :=
  let t := a.terms + b.terms
  let sat := a.sat || b.sat || decide (2 ^ 63 - 1 < t)
  let q : Quire := { a with terms := min t (2 ^ 63 - 1), sat := sat,
                            val := wrapInt (longBits a.fmt) (a.val + b.val), res := (a.res + b.res) % resMod }
  if a.nar || b.nar || sat then q.longNar else q

/-- The exact value of a quire of format `f`, or of a long quire; an integer accumulator is an integer (R79, R88). -/
def Quire.num (q : Quire) : Num :=
  if q.nar then .nan
  else if q.fmt = .i8 then numOf (Frac.ofInt q.val)
  else numOf (Frac.scale2 (Frac.ofInt q.val) (16 - 8 * (quireN q.fmt : Int)))

/-- One rounding of an exact quire value (R93). -/
def roundQuire (out : Fmt) (m : Rnd) (x : Num) : Nat × Option Cond := convertNum out m x

/-- Adding a quire of the same or a narrower format as a term (R82, R83, R85, R94). -/
def Quire.addQuire (q t : Quire) (limit : Nat) : Quire :=
  let q1 := { q with terms := min (q.terms + t.terms) (2 ^ 63 - 1), sat := q.sat || t.sat }
  if limit < q.terms + t.terms ∨ q1.sat then q1.saturate
  else if q.nar || t.nar then q1.setNar
  else { q1 with val := wrapInt (accBits q.fmt) (q.val + t.val * (2 ^ (8 * (quireN q.fmt - quireN t.fmt)) : Nat)),
                 res := (q.res + t.res) % resMod }

/-- One marathon spill of one accumulator into the image that core store holds: the new image (R90). -/
def spillInto (base q : Quire) : Quire := longAdd base (q.toLong base.fmt)

end Sys2Proof.Machine
end

