-- ==== Sys2Proof/Machine/Exit.lean ====
section
/-! DEFINITION. The exit path shared by MX.CLOSE and MV.CLOSE: descriptor, tables, outcome of an element, row statistics,
status word (R133–R141). -/
namespace Sys2Proof.Machine

/-- Exit descriptor (Table 6-4). -/
structure ExitDesc where
  out : Fmt
  rnd : Bool
  zp : Bool
  chScale : Bool
  tokScale : Bool
  rowStat : Bool
  chTable : Nat
  tokTable : Nat
  k : Nat
  colBase : Nat
  stream : Nat
  idxRow : Nat
  idxBase : Nat
  deriving DecidableEq, Repr

/-- Byte `i` of a list as a number. -/
def byteAt (bs : List Byte) (i : Nat) : Nat := (nth bs i 0).toNat

/-- The little-endian field of `n` bytes at `i`. -/
def fieldAt (bs : List Byte) (i n : Nat) : Nat := leNat ((bs.drop i).take n)

/-- Reading an exit descriptor; none where a reserved bit is set, OUT_FMT is reserved, or ROWSTAT has no posit format. -/
def parseExit (bs : List Byte) : Option ExitDesc :=
  let b0 := byteAt bs 0
  let b1 := byteAt bs 1
  match fmtOf (b0 % 16) with
  | none => none
  | some f =>
    if b0 / 32 = 0 ∧ b1 / 16 = 0 ∧ fieldAt bs 6 2 = 0 ∧ (bitAt b1 3 = true → isPosit f = true) then
      some { out := f, rnd := bitAt b0 4, zp := bitAt b1 0, chScale := bitAt b1 1, tokScale := bitAt b1 2,
             rowStat := bitAt b1 3, chTable := fieldAt bs 2 2, tokTable := fieldAt bs 4 2, k := fieldAt bs 8 4,
             colBase := fieldAt bs 12 4, stream := fieldAt bs 16 4, idxRow := fieldAt bs 20 4,
             idxBase := fieldAt bs 24 8 }
    else none

/-- Column `j` of a channel table (Table 6-5): s_c, cw, zc. -/
def chEntry (tab : List Byte) (j : Nat) : Nat × Int × Int :=
  (fieldAt tab (16 * j) 4, toSigned 32 (fieldAt tab (16 * j + 4) 4), toSigned 16 (fieldAt tab (16 * j + 8) 2))

/-- One rounded element: its bits and the flags it raises (bit order of Table 6-8). -/
abbrev ElemOut := Nat × List Nat

/-- Flag number of a conversion condition (Table 6-8). -/
def condFlag : Cond → Nat
  | .nar => 3
  | .range => 4
  | .clamp => 5

/-- The outcome of Table 6-7 (R139): `v` is the exact value, NaR for order 3. -/
def exitElem (out : Fmt) (m : Rnd) (skew sat : Bool) (v : Num) : ElemOut :=
  if skew then (nanBits out, [2])
  else if sat then (nanBits out, [1])
  else
    let r := convertNum out m v
    let cs := match r.2 with | some c => [condFlag c] | none => []
    (r.1, if v.isNan then 0 :: cs else cs)

/-- The exact value v_j of R135 from A_j, the scales (none: factor 1) and the correction terms. -/
def exitValue (a : Num) (sc st : Option Nat) (corr : Int) : Num :=
  let scale (x : Option Nat) : Num := match x with | some b => decodeNum .p32 b | none => .fin false Frac.one
  if a.isNan || (scale sc).isNan || (scale st).isNan then .nan
  else numOf (((a.val.add (Frac.ofInt corr)).mul (scale sc).val).mul (scale st).val)

/-- First position whose element raised a flag of `fs`. -/
def firstFlag (outs : List ElemOut) (fs : List Nat) : Option Nat := firstIdx (fun o => o.2.any (fs.contains ·)) outs 0

/-- The timed sticky flags of an exit of unit `u` with exit index `op`, in effect from `ready` (R142, R187). Order 1 and
the group's saturation report column 0. -/
def exitFlags (outs : List ElemOut) (u op ready : Nat) : List Pend :=
  (List.range 6).filterMap fun f => (firstFlag outs [f]).map fun j => ⟨ready, false, .eflag u f op j⟩

/-- Row maximum with index (R78, R140): NaR and all ones when every element is NaR. -/
def rowMax (f : Fmt) (base : Nat) : List Nat → Nat → Option (Nat × Nat) → Nat × Nat
  | [], _, none => (nanBits f, 0xFFFFFFFF)
  | [], _, some r => r
  | e :: es, j, best =>
    if (decodeNum f e).isNan then rowMax f base es (j + 1) best
    else
      match best with
      | none => rowMax f base es (j + 1) (some (e, (base + j) % 2 ^ 32))
      | some b =>
        if totalLt f b.1 e then rowMax f base es (j + 1) (some (e, (base + j) % 2 ^ 32))
        else rowMax f base es (j + 1) (some b)

/-- Row sum in a quire of the output format, one term per element (R140). -/
def rowSum (f : Fmt) (es : List Nat) : Quire :=
  es.foldl (fun q e => q.addTerm (positTerm f f e) 1 (2 ^ 31 - 1)) (Quire.zero f)

/-- The rounding mode of an element: pepper draw for its index when stochastic (R66, R136, R233). -/
def pepperMode (rnd : Bool) (seed : DWord) (stream step idx : Nat) : Rnd :=
  if rnd then .sto (pepperDraw seed stream step (idx % 2 ^ 64)) else .rne

end Sys2Proof.Machine
end

