-- ==== Sys2Proof/Machine/Matrix.lean ====
section
/-! DEFINITION. The matrix arrays, their accumulator memory and the tile exit (chapters 5 and 6). -/
namespace Sys2Proof.Machine

/-- Time per product (Table 5-2). -/
def timePer (f : Fmt) (cap : Nat) : Nat :=
  if isPosit f && decide (cap ≠ 0) then cap
  else
    match f with
    | .p16 => 12
    | .p32 => 28
    | .i8 => 8
    | _ => 4

/-- Whether a cap is allowed on a streamed format (R55): 0, or 2 to w of a posit format. -/
def capOk (f : Fmt) (cap : Nat) : Bool :=
  decide (cap = 0) || (decide (2 ≤ cap) && (match f with
    | .p8 => decide (cap ≤ 4) | .p16 => decide (cap ≤ 12) | .p32 => decide (cap ≤ 28) | _ => false))

/-- Formats of streamed and stationary operands (R282). -/
def arrayFmt : Fmt → Bool
  | .p8 | .p16 | .p32 | .i8 | .i4 => true
  | _ => false

/-- Accumulator formats (R282). -/
def accFmt : Fmt → Bool
  | .p8 | .p16 | .p32 | .i8 => true
  | _ => false

/-- Table 5-1: streamed, stationary, accumulator. -/
def pairOk (x w a : Fmt) : Bool :=
  if a = .i8 then (decide (x = .i8) || decide (x = .i4)) && (decide (w = .i8) || decide (w = .i4))
  else isPosit x && isPosit w && isPosit a && decide (fmtBits x ≤ fmtBits a) && decide (fmtBits w ≤ fmtBits a)

/-- Bytes of a tile row (Table 6-1). -/
def tileBytes : Fmt → Nat
  | .p8 => 256
  | .p16 => 512
  | .p32 => 1024
  | _ => 64

/-- Tile rows per array (Table 6-1). -/
def tileRows (f : Fmt) : Nat := 8192 / tileBytes f

/-- Term limit of an integer group by pairing (Table 6-2). -/
def intLimit (x w : Fmt) : Nat :=
  if x = .i8 ∧ w = .i8 then 131071 else if x = .i4 ∧ w = .i4 then 33554431 else 2097151

/-- DETAIL of an array record: group, tile row (Table 16-2). -/
def mxDetail (g t : Nat) : Nat := g + 8 * (t % 128)

/-- Port cycles per tile row of OPEN and ZERO, and of CLOSE without a long base (Table 6-3). -/
def portShort (f : Fmt) : Nat := if f = .p32 then 2 else 1

/-- Port cycles per tile row of SPILL and FILL (Table 6-3). -/
def portLong (f : Fmt) : Nat := if f = .p32 ∨ f = .i8 then 8 else 4

/-- Port cycles of CLOSE with a long base (Table 6-3). -/
def portCloseLong (f : Fmt) : Nat := if f = .p32 then 8 else 4

def zeroRow (f : Fmt) (svc : Nat) : TileRow := ⟨List.replicate 16 (Quire.zero f), 0, none, false, 0, svc⟩

/-- The group's term count (R127). -/
def Group.count (g : Group) : Nat := 16 * (g.rows.map (·.vecs)).foldl max 0

/-- The image address of column `j` of row `i` of a group with base `b` (R284). -/
def groupImage (f : Fmt) (b i j : Nat) : Nat := b + (16 * i + j) * imgSize (imgFmt f)

/-- The long quire at an address of core store, with the code of its FMT field. -/
def readImage (c : Core) (f : Fmt) (a : Nat) : Quire × Nat := imgParse f (csRead c a (imgSize f))

/-- The image addresses of all accumulators of a group, in order (R284). -/
def groupImages (g : Group) (b : Nat) : List Nat :=
  (List.range (16 * g.rows.length)).map fun k => b + k * imgSize (imgFmt g.fmt)

/-- `TERMS` of the image at an address, as the writes already made leave it in cycle `t` (R85, R90). -/
def termsSoon (c : Core) (t a : Nat) : Nat := leNat ((List.range 8).map fun k => csSoon c t (a + k)) % 2 ^ 63

/-- The greatest TERMS of a group's base images in cycle `t` (R85, R128). -/
def baseCount (c : Core) (t : Nat) (g : Group) : Option Nat :=
  g.base.map fun b => ((groupImages g b).map (termsSoon c t)).foldl max 0

/-- Whether some base image of the group is marked saturated (R86). -/
def baseSat (c : Core) (g : Group) : Bool :=
  match g.base with
  | some b => (groupImages g b).any fun a => (readImage c (imgFmt g.fmt) a).1.sat
  | none => false

/-- Whether the count of a group with its base in core store passes the limit of an image (R85, R92). -/
def groupOver (c : Core) (t : Nat) (g : Group) : Bool :=
  match baseCount c t g with
  | some b => decide (2 ^ 63 - 1 < b + g.count)
  | none => false

/-- The 16 products of column `j` for a vector `xs` on bank `b`, residues from the cells' registers (R100, R111, R113). -/
def columnTerms (f : Fmt) (e : FeedEntry) (cap : Nat) (b : Bank) (j : Nat) : List Term :=
  (List.range 16).map fun i =>
    let x := nth e.elems i 0
    let w := nth b.w (16 * i + j) 0
    let rw := nth b.res (16 * i + j) 0
    if f = .i8 then cellInt e.fmt b.fmt x w rw else cellTerm f e.fmt b.fmt cap x w rw

/-- A tile row with a vector's 16 column sums added (R112), and its tag compared (R138). -/
def addVector (f : Fmt) (e : FeedEntry) (cap : Nat) (b : Bank) (done : Nat) (r : TileRow) : TileRow :=
  { r with
    accs := r.accs.mapIdx fun j q => q.addTerms (columnTerms f e cap b j) 16 (2 ^ 63)
    vecs := r.vecs + 1
    tag := some (r.tag.getD e.tag)
    skew := r.skew || (match r.tag with | some t => !(t == e.tag) | none => false)
    doneAt := max r.doneAt done }

/-- The active bank (R116). -/
def MArray.bank (m : MArray) : Bank := if m.active1 then m.bank1 else m.bank0

/-- Saturation of a group after a vector of pairing (x, w) whose sums are added from cycle `t` on (R85, R128). -/
def satAfter (c : Core) (t : Nat) (g : Group) (x w : Fmt) : Bool :=
  let n := g.count
  if g.base.isSome then g.sat || groupOver c t g || (decide (g.fmt = .i8) && decide (intLimit x w < n))
  else g.sat || decide ((if g.fmt = .i8 then intLimit x w else 2 ^ 31 - 1) < n)

/-- A group with its saturated mark: every quire of a saturated posit group is NaR; integer accumulators keep their bits
(R85, R128). -/
def Group.mark (g : Group) (sat : Bool) : Group :=
  if sat && decide (g.fmt ≠ .i8) then
    { g with sat := true, rows := g.rows.map fun r => { r with accs := r.accs.map Quire.saturate } }
  else { g with sat := sat }

/-- The tile row of an operation (R282). -/
def tileOf (c : Core) (t : TileSel) : Nat := if t.au then (t.row.val + (c.a[t.an]).toNat) % 128 else t.row.val

/-- MX.STRM at a core (R104–R112, R126–R128, R132). A pairing outside Table 5-1 is ARRAY_PAIR on inactive cores too: R245
exempts them only from faults of addresses formed at run time (DEDUCED, log 51). -/
def strmCore (k : Arr) (p : Reg4) (ts : TileSel) (gi : Fin 8) (x : CoreIn) (c : Core) : Core × List Raise :=
  let m := c.arr k
  let u := arrUnit k
  let act := activeOn c p
  let t := tileOf c ts
  let det := mxDetail gi t
  if x.now < m.busyTo then (c, [(0x0111, u, det, 0)])
  else
    match m.feed with
    | [] => (c, [(0x0112, u, det, 0)])
    | e :: rest =>
      if x.now < e.ready then (c, [(0x0112, u, det, 0)])
      else
        let tp := timePer e.fmt m.cap
        let m1 := { m with feed := rest, freeing := m.freeing.filter (fun y => decide (x.now < y)) ++ [x.now + tp - 1],
                           busyTo := x.now + tp, maxTp := max m.maxTp tp }
        match m.groups[gi] with
        | none => (c.setArr k m1, [(0x011B, u, det, 0)])
        | some g =>
          if t < g.first ∨ g.first + g.rows.length ≤ t then
            (c.setArr k m1, if act || !ts.au then [(0x011B, u, det, 0)] else [])
          else
            let i := t - g.first
            let r := nth g.rows i (zeroRow g.fmt 0)
            let done := x.now + 22 + tp
            if x.now + tp + 4 < r.svcAt then (c.setArr k m1, [(0x0115, u, det, 0)])
            else if !pairOk e.fmt m.bank.fmt g.fmt then (c.setArr k m1, [(0x0110, u, det, 0)])
            else if !act then
              let g1 := { g with rows := g.rows.set i { r with doneAt := max r.doneAt done } }
              (c.setArr k { m1 with groups := m1.groups.set gi (some g1) }, [])
            else
              let g1 := { g with rows := g.rows.set i (addVector g.fmt e m.cap m.bank done r) }
              let g2 := { g1.mark (satAfter c (x.now + tp + 4) g1 e.fmt m.bank.fmt) with limit := intLimit e.fmt m.bank.fmt }
              (c.setArr k { m1 with groups := m1.groups.set gi (some g2) }, [])

/-- MX.CFG at a core (R106, R283). An entry that MX.STRM has taken is no longer held by the queue, though its place is not yet
free (DESIGN CHOICE, log 51). -/
def cfgCore (k : Arr) (f : Fmt) (cap : Nat) (x : CoreIn) (c : Core) : Core × List Raise :=
  let m := c.arr k
  if m.feed.isEmpty then (c.setArr k { m with fmt := f, cap := cap, cfgAt := x.now }, [])
  else (c, [(0x0159, arrUnit k, 0, 0)])

/-- Bytes of a row of 16 elements (R117). -/
def rowBytes (f : Fmt) : Nat := 2 * fmtBits f

/-- MX.LDW at a core (R117, R119, R120, R282). -/
def ldwCore (k : Arr) (p : Reg4) (f : Fmt) (rows stride : Nat) (a : Csa) (x : CoreIn) (c : Core) : Core × List Raise :=
  let m := c.arr k
  let u := arrUnit k
  if x.now ≤ m.loadEnd ∨ x.now + 2 < m.winOpen then (c, [(0x0114, u, 0, 0)])
  else
    let m1 := { m with loadEnd := x.now + 17 }
    if activeOn c p then
      let ad := csaAddr c a
      if csOk ad (rowBytes f) ((rows - 1) * stride + rowBytes f) && decide (stride % rowBytes f = 0) then
        let z : Bank := ⟨f, List.replicate 256 0, List.replicate 256 0⟩
        let m2 := { m1 with ldw := some ⟨x.now, ad, stride, rows, f⟩ }
        (c.setArr k (if m.active1 then { m2 with bank0 := z } else { m2 with bank1 := z }), [])
      else (c, [(0x0158, u, 0, ad)])
    else (c.setArr k m1, [])

/-- The loader in cycle `t`: row i is read and written in cycle a + 2 + i, its cells' residue registers with it (R113, R117). -/
def loaderTick (t : Nat) (cs : Mem) (m : MArray) : MArray :=
  match m.ldw with
  | none => m
  | some j =>
    if t < j.start + 2 then m
    else
      let i := t - (j.start + 2)
      if i < j.rows then
        let es := elemsOf j.fmt 16 (memRead cs (j.addr + i * j.stride) (rowBytes j.fmt))
        let lay (l new : List Nat) : List Nat := l.take (16 * i) ++ new ++ l.drop (16 * i + 16)
        let put (b : Bank) : Bank := { b with w := lay b.w es, res := lay b.res (es.map (cellRes j.fmt)) }
        let m1 := if m.active1 then { m with bank0 := put m.bank0 } else { m with bank1 := put m.bank1 }
        if 15 ≤ i then { m1 with ldw := none } else m1
      else if 15 ≤ i then { m with ldw := none } else m

/-- MX.SWAP at a core (R118–R120). -/
def swapCore (k : Arr) (x : CoreIn) (c : Core) : Core × List Raise :=
  let m := c.arr k
  if x.now ≤ m.loadEnd then (c, [(0x0114, arrUnit k, 0, 0)])
  else
    (c.setArr k { m with active1 := !m.active1, maxTp := 0,
                         winOpen := x.now + 15 + max m.maxTp (timePer m.fmt m.cap) }, [])

/-- Byte range of a group (R123). -/
def groupRange (f : Fmt) (first n : Nat) : Nat × Nat := (first * tileBytes f, (first + n) * tileBytes f)

/-- Whether a byte range overlaps another open group than `gi` (R124). -/
def overlaps (m : MArray) (gi : Fin 8) (r : Nat × Nat) : Bool :=
  (List.finRange 8).any fun h => decide (h ≠ gi) &&
    (match m.groups[h] with
     | some g => let q := groupRange g.fmt g.first g.rows.length; decide (q.1 < r.2) && decide (r.1 < q.2)
     | none => false)

/-- MX.OPEN at a core (R124, R131). -/
def openCore (k : Arr) (n first : Nat) (f : Fmt) (gi : Fin 8) (x : CoreIn) (c : Core) : Core × List Raise :=
  let m := c.arr k
  let u := arrUnit k
  let det := mxDetail gi first
  let bad := (if tileRows f < first + n then [(0x0118, u, det, 0)] else []) ++
    (if overlaps m gi (groupRange f first n) then [(0x0119, u, det, 0)] else []) ++
    (if m.groups[gi].isSome then [(0x011A, u, det, 0)] else []) ++
    (if x.now < m.portTo then [(0x011D, u, det, 0)] else [])
  if bad.isEmpty then
    let fin := x.now + n * portShort f
    let g : Group := ⟨f, first, List.replicate n (zeroRow f fin), false, none, 0⟩
    (c.setArr k { m with groups := m.groups.set gi (some g), portTo := fin }, [])
  else (c, bad)

/-- The conditions shared by the service operations on a whole group (R115, R126, R131, R132). -/
def serviceBad (u : Nat) (m : MArray) (gi : Fin 8) (now : Nat) (g : Group) : List Raise :=
  (if now < m.portTo then [(0x011D, u, mxDetail gi g.first, 0)] else []) ++
  (if g.rows.any (fun r => decide (now < r.doneAt)) then [(0x0115, u, mxDetail gi g.first, 0)] else [])

/-- A group whose tile rows are zeroed; marks cleared when `marks` (R80, R90). The long base stays attached, in MX.ZERO too,
since only MX.OPEN and MX.FREE are said to detach it (DESIGN CHOICE, log 51). -/
def clearRows (g : Group) (fin : Nat) (marks : Bool) : Group :=
  { g with sat := false
           rows := g.rows.map fun r => { zeroRow g.fmt fin with skew := r.skew && !marks, doneAt := r.doneAt } }

/-- The group with its tile rows tied to a service operation until `fin` and otherwise kept. -/
def holdRows (g : Group) (fin : Nat) : Group := { g with rows := g.rows.map fun r => { r with svcAt := fin } }

/-- A service operation on an open group: occupancy on every core, effect on active ones. `eff` gives the new group, the
core (its core store writes) and what is reported. -/
def serviceCore (k : Arr) (act : Bool) (gi : Fin 8) (cyc : Group → Nat)
    (eff : Nat → Group → Core → (Option Group × Core) × List Raise) (x : CoreIn) (c : Core) : Core × List Raise :=
  let m := c.arr k
  let u := arrUnit k
  match m.groups[gi] with
  | none => (c, [(0x011B, u, mxDetail gi 0, 0)])
  | some g =>
    let bad := serviceBad u m gi x.now g
    if bad.isEmpty then
      let fin := x.now + cyc g
      let r : (Option Group × Core) × List Raise := if act then eff fin g c else ((some (holdRows g fin), c), [])
      let m1 := r.1.2.arr k
      (r.1.2.setArr k { m1 with groups := m1.groups.set gi r.1.1, portTo := fin }, r.2)
    else (c, bad)

/-- MX.ZERO at a core (R80, R131, R132). -/
def zeroCore (k : Arr) (p : Reg4) (gi : Fin 8) (x : CoreIn) (c : Core) : Core × List Raise :=
  serviceCore k (activeOn c p) gi (fun g => g.rows.length * portShort g.fmt)
    (fun fin g c => ((some (clearRows g fin true), c), [])) x c

/-- MX.FREE at a core (R125). A group that is not open has nothing to close. -/
def freeCore (k : Arr) (gi : Fin 8) (x : CoreIn) (c : Core) : Core × List Raise :=
  if ((c.arr k).groups[gi]).isSome then
    serviceCore k true gi (fun _ => 1) (fun _ _ c => ((none, c), [])) x c
  else
    let m := c.arr k
    if x.now < m.portTo then (c, [(0x011D, arrUnit k, mxDetail gi 0, 0)])
    else (c.setArr k { m with portTo := x.now + 1 }, [])

/-- The address a spill acts on (R284): the attached base, or the named one; none is ACC_BASE. -/
def spillBase (base : Option Nat) (att : Bool) (named : Nat) : Option Nat :=
  match base with
  | some b => if att || decide (b = named) then some b else none
  | none => if att then none else some named

/-- The accumulator that a spill takes from a group: its count is the group's (R84), and a saturated group spills NaR
with the mark (R85, R129). -/
def spillQuire (g : Group) (q : Quire) : Quire :=
  let q := { q with terms := g.count }
  if g.sat && decide (g.fmt = .i8) then q.saturate else { q with sat := g.sat }

/-- New images of a spill: for accumulator `n` at address `a`, from the image there, or from zero (R90). -/
def spillImage (c : Core) (f : Fmt) (fresh : Bool) (a : Nat) (q : Quire) : Quire × Bool :=
  let b := if fresh then imgZero f else (readImage c f a).1
  (spillInto b q, b.resOk && (q.resOk || (q.sat && decide (q.fmt = .i8))))

/-- MX.SPILL at a core (R90, R130, R284). -/
def spillCore (k : Arr) (p : Reg4) (a : Csa) (att : Bool) (gi : Fin 8) (x : CoreIn) (c : Core) : Core × List Raise :=
  let u := arrUnit k
  serviceCore k (activeOn c p) gi (fun g => g.rows.length * portLong g.fmt)
    (fun fin g c =>
      let named := csaAddr c a
      let det := mxDetail gi g.first
      match spillBase g.base att named with
      | none => ((some g, c), [(0x015A, u, det, 0)])
      | some b =>
        let f := imgFmt g.fmt
        let z := imgSize f
        if !csOk b 8 (16 * g.rows.length * z) || decide (named % 8 ≠ 0) then ((some g, c), [(0x0158, u, det, b)])
        else
          let fresh := g.base.isNone
          let step (acc : Core × List Raise) (ij : Nat × TileRow) : Core × List Raise :=
            let ready := x.now + (ij.1 + 1) * portLong g.fmt
            let imgs := ij.2.accs.mapIdx fun j q => spillImage c f fresh (groupImage g.fmt b ij.1 j) (spillQuire g q)
            let w := csWrite acc.1 ready (groupImage g.fmt b ij.1 0) ((imgs.map fun y => imgBytes y.1).flatten) u
            (w.1, acc.2 ++ w.2 ++
              (match firstIdx (fun y => !y.2) imgs 0 with
               | some j => [(0x0004, u, mxDetail gi (g.first + ij.1) + 1024 * j, 0)]
               | none => []))
          let r := ((g.rows.mapIdx fun i y => (i, y)).foldl step (c, []))
          ((some { clearRows g fin false with base := some b }, r.1), r.2)) x c

/-- MX.FILL at a core (R91, R130, R284). -/
def fillCore (k : Arr) (p : Reg4) (a : Csa) (gi : Fin 8) (x : CoreIn) (c : Core) : Core × List Raise :=
  let u := arrUnit k
  serviceCore k (activeOn c p) gi (fun g => g.rows.length * portLong g.fmt)
    (fun fin g c =>
      let b := csaAddr c a
      let f := imgFmt g.fmt
      let det := mxDetail gi g.first
      if !csOk b 8 (16 * g.rows.length * imgSize f) then ((some g, c), [(0x0158, u, det, b)])
      else
        let imgs := (groupImages g b).map (readImage c f)
        if imgs.any (fun y => decide (y.2 ≠ fmtCode f)) then ((some g, c), [(0x0104, u, det, b)])
        else
          ((some { clearRows g fin false with base := some b }, c),
            match firstIdx (fun y => !y.1.resOk) imgs 0 with
            | some n => [(0x0004, u, mxDetail gi (g.first + n / 16) + 1024 * (n % 16), 0)]
            | none => [])) x c

/-- Inserting tile queue entries in order of entry cycle, MXA before MXB (R143). -/
def tqInsert (e : TileEntry) : List TileEntry → List TileEntry
  | [] => [e]
  | y :: ys =>
    if y.enter < e.enter then y :: tqInsert e ys
    else if y.enter = e.enter ∧ bitAt y.status.toNat 16 = false then y :: tqInsert e ys
    else e :: y :: ys

/-- A status word from its parts (Table 6-8). -/
def statusWord (k : Arr) (gi t : Nat) (long : Bool) (outs : List ElemOut) : Nat :=
  let has (f : Nat) : Nat := b2n (firstFlag outs [f]).isSome
  has 0 + 2 * has 1 + 4 * has 2 + 8 * has 3 + 16 * has 4 + 32 * has 5 + 64 * b2n long +
    256 * (firstFlag outs [0]).getD 15 + 4096 * (firstFlag outs [3, 4, 5]).getD 15 +
    65536 * arrUnit k + 2 ^ 17 * gi + 2 ^ 20 * t

/-- Delay from MX.CLOSE to the tile queue (R137). -/
def exitDelay (f : Fmt) (long : Bool) : Nat :=
  if f = .p32 then (if long then 19 else 13) else (if long then 14 else 11)

/-- The exact accumulator of column `j` of row `i`, base included, and whether its residues hold (R92, R96); only a saturated
integer group is exempt. Its term count is judged for the whole group (`groupOver`). -/
def exitAcc (c : Core) (g : Group) (i j : Nat) (q : Quire) : Num × Bool :=
  let ex := g.sat && decide (g.fmt = .i8)
  match g.base with
  | none => (q.num, q.resOk || ex)
  | some b =>
    let f := imgFmt g.fmt
    let img := (readImage c f (groupImage g.fmt b i j)).1
    ((longAdd { img with sat := false } ({ q with terms := 0 }.toLong f)).num, img.resOk && (q.resOk || ex))

/-- MX.CLOSE at a core (R133–R143). Every one that takes effect is counted (R142). Before the tile row is complete it is
TILE_EARLY on inactive cores too, as the other service operations are (DEDUCED from R115 and R245, log 51). -/
def closeCore (k : Arr) (p : Reg4) (exd : Nat) (ts : TileSel) (gi : Fin 8) (x : CoreIn) (c : Core) : Core × List Raise :=
  let m := c.arr k
  let u := arrUnit k
  let t := tileOf c ts
  let det := mxDetail gi t
  let act := activeOn c p
  let op := m.exits
  let m0 := { m with exits := m.exits + 1 }
  match m.groups[gi] with
  | none => (c.setArr k m0, [(0x011B, u, det, 0)])
  | some g =>
    let long := g.base.isSome
    let m1 := { m0 with portTo := x.now + (if long then portCloseLong g.fmt else portShort g.fmt) }
    let enter := x.now + exitDelay g.fmt long
    let db := csRead c (32 * exd) 32
    if x.now < m.portTo then (c.setArr k m0, [(0x011D, u, det, 0)])
    else if !act then
      let f := match fmtOf (byteAt db 0 % 16) with | some f => f | none => .p8
      let e : TileEntry := ⟨enter, f, List.replicate 16 0,
        BitVec.ofNat 32 (256 * 15 + 4096 * 15 + 65536 * u + 2 ^ 17 * gi + 2 ^ 20 * t), none⟩
      ({ c.setArr k m1 with tq := tqInsert e c.tq },
        if t < g.first ∨ g.first + g.rows.length ≤ t then (if ts.au then [] else [(0x011B, u, det, 0)])
        else if x.now < (nth g.rows (t - g.first) (zeroRow g.fmt 0)).doneAt then [(0x0115, u, det, 0)] else [])
    else if t < g.first ∨ g.first + g.rows.length ≤ t then (c.setArr k m1, [(0x011B, u, det, 0)])
    else
      let i := t - g.first
      let r := nth g.rows i (zeroRow g.fmt 0)
      if x.now < r.doneAt then (c.setArr k m1, [(0x0115, u, det, 0)])
      else
        match parseExit db with
        | none => (c.setArr k m1, [(0x011C, u, det, 32 * exd)])
        | some e =>
          let ta := e.tokTable + 16 * i
          if (e.zp && decide (g.fmt ≠ .i8)) || ((e.zp || e.chScale) && !csOk e.chTable 16 256) ||
              ((e.zp || e.tokScale) && !(csOk ta 16 16)) then (c.setArr k m1, [(0x011C, u, det, 32 * exd)])
          else
            let ch := csRead c e.chTable 256
            let tok := csRead c ta 16
            let useTok := e.zp || e.tokScale
            let skew := r.skew || (useTok && (match r.tag with | some y => !(y == nth tok 10 0) | none => false))
            let sat := g.sat || baseSat c g || groupOver c x.now g
            let rx := toSigned 32 (fieldAt tok 4 4)
            let zt := toSigned 16 (fieldAt tok 8 2)
            let accs := r.accs.mapIdx fun j q => exitAcc c g i j q
            let outs := accs.mapIdx fun j a =>
              let en := chEntry ch j
              let corr : Int := if e.zp then -(zt * en.2.1) - en.2.2 * rx + (e.k : Int) * zt * en.2.2 else 0
              let v := exitValue a.1 (if e.chScale then some en.1 else none)
                (if e.tokScale then some (fieldAt tok 0 4) else none) corr
              exitElem e.out (pepperMode e.rnd x.seed e.stream x.issue.pstep.toNat (e.idxBase + i * e.idxRow + j)) skew sat v
            let es := outs.map (·.1)
            let mx := rowMax e.out e.colBase es 0 none
            let ent : TileEntry := ⟨enter, e.out, es, BitVec.ofNat 32 (statusWord k gi t long outs),
              if e.rowStat then some (mx.1, mx.2, rowSum e.out es) else none⟩
            ({ c.setArr k m1 with tq := tqInsert ent c.tq, pend := c.pend ++ exitFlags outs u op enter },
              match firstIdx (fun a => !a.2) accs 0 with
              | some j => [(0x0004, u, det + 1024 * j, 0)]
              | none => [])

/-! ### Meanings -/

/-- Operation number of an array slot for charges. -/
def mxOp (k : Arr) (o : Nat) : Nat := 0x100 * (1 + arrUnit k) + o

/-- MX.CFG (R106, R282, R283). -/
def execMxCfg (d : Die) (k : Arr) (f : Fmt) (cap : Fin 32) (s : State) : Host.Outcome State Fault Refusal :=
  if arrayFmt f && capOk f cap then .next (slotOp s d (mxOp k 1) (cfgCore k f cap)) else .refused .reserved

/-- MX.LDW (R117). -/
def execMxLdw (d : Die) (k : Arr) (p : Reg4) (f : Fmt) (rows : Fin 32) (stride : BitVec 16) (a : Csa) (s : State) :
    Host.Outcome State Fault Refusal :=
  if arrayFmt f && decide (1 ≤ rows.val) && decide (rows.val ≤ 16) then
    .next (slotOp s d (mxOp k 2) (ldwCore k p f rows stride.toNat a))
  else .refused .reserved

/-- MX.SWAP (R118). -/
def execMxSwap (d : Die) (k : Arr) (s : State) : Host.Outcome State Fault Refusal :=
  .next (slotOp s d (mxOp k 3) (swapCore k))

/-- MX.STRM (R104). -/
def execMxStrm (d : Die) (k : Arr) (p : Reg4) (t : TileSel) (g : Fin 8) (s : State) : Host.Outcome State Fault Refusal :=
  .next (slotOp s d (mxOp k 4) (strmCore k p t g))

/-- MX.OPEN (R124). -/
def execMxOpen (d : Die) (k : Arr) (n : BitVec 8) (first : Fin 128) (f : Fmt) (g : Fin 8) (s : State) :
    Host.Outcome State Fault Refusal :=
  if accFmt f && decide (1 ≤ n.toNat) && decide (n.toNat ≤ 128) then
    .next (slotOp s d (mxOp k 8) (openCore k n.toNat first f g))
  else .refused .reserved

/-- MX.ZERO (R80). -/
def execMxZero (d : Die) (k : Arr) (p : Reg4) (g : Fin 8) (s : State) : Host.Outcome State Fault Refusal :=
  .next (slotOp s d (mxOp k 9) (zeroCore k p g))

/-- MX.CLOSE (R137). -/
def execMxClose (d : Die) (k : Arr) (p : Reg4) (exd : BitVec 11) (t : TileSel) (g : Fin 8) (s : State) :
    Host.Outcome State Fault Refusal :=
  if exd.toNat < 1536 then .next (slotOp s d (mxOp k 0xA) (closeCore k p exd.toNat t g)) else .refused .reserved

/-- MX.SPILL (R90). -/
def execMxSpill (d : Die) (k : Arr) (p : Reg4) (a : Csa) (att : Bool) (g : Fin 8) (s : State) :
    Host.Outcome State Fault Refusal :=
  .next (slotOp s d (mxOp k 0xB) (spillCore k p a att g))

/-- MX.FILL (R91): a fill has ATT = 0 (R284). -/
def execMxFill (d : Die) (k : Arr) (p : Reg4) (a : Csa) (att : Bool) (g : Fin 8) (s : State) :
    Host.Outcome State Fault Refusal :=
  if att then .refused .reserved else .next (slotOp s d (mxOp k 0xC) (fillCore k p a g))

/-- MX.FREE (R125). -/
def execMxFree (d : Die) (k : Arr) (g : Fin 8) (s : State) : Host.Outcome State Fault Refusal :=
  .next (slotOp s d (mxOp k 0xD) (freeCore k g))

end Sys2Proof.Machine
end

