-- ==== Sys2Proof/Machine/Move.lean ====
section
/-! DEFINITION. The MOV slot (Table 12-9, R103, R104, R227, R278, R289, R290). -/
namespace Sys2Proof.Machine

/-- Bytes of 16 elements of a streamed format (R290). -/
def feedBytes (f : Fmt) : Nat := 2 * fmtBits f

/-- Feeder entries occupied in cycle `t`: those waiting, and those taken whose entry is not yet free (R104). -/
def feedUsed (m : MArray) (t : Nat) : Nat := m.feed.length + (m.freeing.filter fun y => decide (t < y)).length

/-- MOV.FEED at a core (R103, R104, R227, R283, Table 11-2): an inactive write takes an entry of zero elements. -/
def feedCore (p : Reg4) (k : Arr) (a : Csa) (x : CoreIn) (c : Core) : Core × List Raise :=
  let m := c.arr k
  let u := arrUnit k
  let ad := csaAddr c a
  let n := feedBytes m.fmt
  let put (es : List Nat) : Core × List Raise :=
    (c.setArr k { m with feed := m.feed ++ [⟨x.now + 3, m.fmt, es, m.tagReg⟩] }, [])
  if m.cfgAt = x.now then (c, [(0x0159, u, 0, 0)])
  else if 8 ≤ feedUsed m x.now then (c, [(0x0113, u, 0, 0)])
  else if !activeOn c p then put (List.replicate 16 0)
  else if !csOk ad n n then (c, [(0x015C, 4, 0, ad)])
  else put (elemsOf m.fmt 16 (csRead c ad n))

/-- MOV.TAG at a core (R227, R290). -/
def tagCore (k : Arr) (a : Csa) (_x : CoreIn) (c : Core) : Core × List Raise :=
  let ad := csaAddr c a
  if csOk ad 16 16 then (c.setArr k { c.arr k with tagReg := memGet c.cs ad }, []) else (c, [(0x0141, arrUnit k, 0, ad)])

/-- A MOV operation on core store: nothing where inactive, MOV_ADDR where the address is not aligned or not in range. -/
def movCs (p : Reg4) (a : Csa) (n : Nat) (f : CoreIn → Nat → Core → Core × List Raise) (x : CoreIn) (c : Core) :
    Core × List Raise :=
  if activeOn c p then
    let ad := csaAddr c a
    if csOk ad n n then f x ad c else (c, [(0x015C, 4, 0, ad)])
  else (c, [])

/-- MOV.LDV at a core (R167, R290). -/
def ldvCore (p : Reg4) (vd : Reg6) (a : Csa) : CoreIn → Core → Core × List Raise :=
  movCs p a 64 fun x ad c => regWrite c (x.now + 3) false (vPends 0 (64 * vd) (csRead c ad 64))

/-- MOV.STV at a core. -/
def stvCore (p : Reg4) (va : Reg6) (a : Csa) : CoreIn → Core → Core × List Raise :=
  movCs p a 64 fun x ad c => csWrite c (x.now + 2) ad (vRead c va) 4

/-- MOV.LDP at a core: byte 0 holds bits [7:0]. -/
def ldpCore (p : Reg4) (pd : Reg4) (a : Csa) : CoreIn → Core → Core × List Raise :=
  movCs p a 8 fun x ad c =>
    regWrite c (x.now + 3) false [.p pd (BitVec.ofNat 64 (2 ^ 64 - 1)) (BitVec.ofNat 64 (leNat (csRead c ad 8)))]

/-- MOV.STP at a core. -/
def stpCore (p : Reg4) (pa : Reg4) (a : Csa) : CoreIn → Core → Core × List Raise :=
  movCs p a 8 fun x ad c => csWrite c (x.now + 2) ad (leBytes 8 (predVal c pa).toNat) 4

/-- MOV.CPY at a core (R290). -/
def cpyCore (p : Reg4) (dst src : Csa) : CoreIn → Core → Core × List Raise :=
  movCs p src 64 fun x ad c =>
    let tgt := csaAddr c dst
    if csOk tgt 64 64 then csWrite c (x.now + 3) tgt (csRead c ad 64) 4 else (c, [(0x015C, 4, 0, tgt)])

/-- A write of an address register, readable in the next cycle (R278). -/
def aWrite (p : Reg4) (ad : Reg4) (f : CoreIn → Core → BitVec 16) (x : CoreIn) (c : Core) : Core × List Raise :=
  if activeOn c p then ({ c with pend := c.pend ++ [⟨x.now + 1, false, .a ad (f x c)⟩] }, []) else (c, [])

/-- The positions that MOV.AIDX names (R289). -/
def aidxValue (what : Nat) (x : CoreIn) : Nat :=
  match what with
  | 0 => x.idx % x.n
  | 1 => x.idx / x.n
  | 2 => logicalX x.n x.die x.idx
  | 3 => logicalY x.n x.die x.idx
  | 4 => x.idx
  | _ => x.die

/-! ### Meanings -/

/-- MOV.FEED (R103). -/
def execMovFeed (d : Die) (p : Reg4) (k : Arr) (a : Csa) (s : State) : Host.Outcome State Fault Refusal :=
  .next (slotOp s d 0x501 (feedCore p k a))

/-- MOV.TAG (R227). -/
def execMovTag (d : Die) (k : Arr) (a : Csa) (s : State) : Host.Outcome State Fault Refusal :=
  .next (slotOp s d 0x502 (tagCore k a))

/-- MOV.LDV (R290). -/
def execMovLdv (d : Die) (p : Reg4) (vd : Reg6) (a : Csa) (s : State) : Host.Outcome State Fault Refusal :=
  .next (slotOp s d 0x503 (ldvCore p vd a))

/-- MOV.STV (R290). -/
def execMovStv (d : Die) (p : Reg4) (va : Reg6) (a : Csa) (s : State) : Host.Outcome State Fault Refusal :=
  .next (slotOp s d 0x504 (stvCore p va a))

/-- MOV.LDP (R290). -/
def execMovLdp (d : Die) (p : Reg4) (pd : Reg4) (a : Csa) (s : State) : Host.Outcome State Fault Refusal :=
  .next (slotOp s d 0x505 (ldpCore p pd a))

/-- MOV.STP (R290). -/
def execMovStp (d : Die) (p : Reg4) (pa : Reg4) (a : Csa) (s : State) : Host.Outcome State Fault Refusal :=
  .next (slotOp s d 0x506 (stpCore p pa a))

/-- MOV.CPY (R290). -/
def execMovCpy (d : Die) (p : Reg4) (dst src : Csa) (s : State) : Host.Outcome State Fault Refusal :=
  .next (slotOp s d 0x507 (cpyCore p dst src))

/-- MOV.ASET (R278): IMM, or Sa[15:0] of the word. -/
def execMovAset (d : Die) (p : Reg4) (src : Bool) (ad : Reg4) (sa : Reg6) (imm : BitVec 16) (s : State) :
    Host.Outcome State Fault Refusal :=
  .next (slotOp s d 0x508 (aWrite p ad fun x _ => if src then (vget x.issue.s sa 0).setWidth 16 else imm))

/-- MOV.AADD (R278). -/
def execMovAadd (d : Die) (p : Reg4) (ad as_ : Reg4) (imm : BitVec 16) (s : State) : Host.Outcome State Fault Refusal :=
  .next (slotOp s d 0x509 (aWrite p ad fun _ c => c.a[as_] + imm))

/-- MOV.AIDX (R289); values 6 and 7 are reserved. -/
def execMovAidx (d : Die) (p : Reg4) (ad : Reg4) (what : Fin 8) (s : State) : Host.Outcome State Fault Refusal :=
  if what.val < 6 then .next (slotOp s d 0x50A (aWrite p ad fun x _ => BitVec.ofNat 16 (aidxValue what x)))
  else .refused .reserved

end Sys2Proof.Machine
end

