-- ==== Sys2Proof/Machine/Mvp.lean ====
section
/-! DEFINITION. The matrix-vector path (chapter 7). -/
namespace Sys2Proof.Machine

/-- Products per operation: 4 when either operand is P32, else 16 (R149). -/
def mvCount (wf xf : Fmt) : Nat := if wf = .p32 ∨ xf = .p32 then 4 else 16

/-- Elements of a format that a vector register holds (R160). -/
def regElems (f : Fmt) : Nat := 512 / fmtBits f

/-- Whether both operands fit the accumulator format (R148). -/
def mvPairOk (wf xf af : Fmt) : Bool := decide (fmtBits wf ≤ fmtBits af) && decide (fmtBits xf ≤ fmtBits af)

/-- Term limit of an accumulator with its base image in core store (R85). -/
def accLimit (c : Core) (a : AccQ) : Nat :=
  quireLimit (a.base.map fun b => (readImage c a.q.fmt b).1.terms)

/-- Term limit of an accumulator to which an addition of this cycle is made in cycle `t`, when a spill before it has written
its base image (R85, R90, R154). -/
def mvLimit (c : Core) (t : Nat) (a : AccQ) : Nat := quireLimit (a.base.map (termsSoon c t))

/-- Accumulator `i`. -/
def mvAcc (c : Core) (i : Nat) : AccQ := vget c.mvp.accs i (AccQ.zero .p8)

/-- Adding terms into accumulator `i`, held from cycle c + 11 (R150–R153). -/
def mvAdd (now : Nat) (ts : List Term) (c : Core) (i : Nat) : Core :=
  let a := mvAcc c i
  let a1 := { a with q := a.q.addTerms ts ts.length (mvLimit c (now + 8) a), held := now + 11 }
  { c with mvp := { c.mvp with accs := vset c.mvp.accs i a1 } }

/-- Whether an addition of this cycle reaches an accumulator that a service operation still acts on (R154). -/
def mvReachEarly (now : Nat) (c : Core) (is : List Nat) : Bool := is.any fun i => decide (now + 8 < (mvAcc c i).svcAt)

/-- MV.DOT at a core (R149, R150, R152–R154). A pair of formats that does not fit is MV_PAIR on every core (R148, R245). -/
def mvDotCore (p : Reg4) (wf xf : Fmt) (acc : Reg4) (vn e : Reg6) (a : Csa) (x : CoreIn) (c : Core) : Core × List Raise :=
  if !mvPairOk wf xf c.mvp.fmt then (c, [(0x0128, 2, acc, 0)])
  else if !activeOn c p then (c, [])
  else
    let n := mvCount wf xf
    let ad := csaAddr c a
    let sz := n * fmtBits wf / 8
    if !csOk ad sz sz || decide (e.val % n ≠ 0) || decide (regElems xf < e.val + n) then (c, [(0x0129, 2, acc, ad)])
    else if mvReachEarly x.now c [acc] then (c, [(0x012B, 2, acc, 0)])
    else
      let w := elemsOf wf n (csRead c ad sz)
      let v := vRead c vn
      let ts := (List.range n).map fun i => prodTerm c.mvp.fmt xf wf 0 (elemAt (fmtBits xf) v (e.val + i)) (nth w i 0)
      (mvAdd x.now ts c acc, [])

/-- MV.COL at a core (R149, R151–R154). A pair of formats that does not fit is MV_PAIR on every core (R148, R245). -/
def mvColCore (p : Reg4) (wf xf : Fmt) (acc : Reg4) (vn k : Reg6) (a : Csa) (x : CoreIn) (c : Core) : Core × List Raise :=
  if !mvPairOk wf xf c.mvp.fmt then (c, [(0x0128, 2, acc, 0)])
  else if !activeOn c p then (c, [])
  else
    let n := mvCount wf xf
    let ad := csaAddr c a
    let sz := n * fmtBits wf / 8
    let is := (List.range n).map (acc.val + ·)
    if !csOk ad sz sz then (c, [(0x0129, 2, acc, ad)])
    else if mvReachEarly x.now c is then (c, [(0x012B, 2, acc, 0)])
    else
      let w := elemsOf wf n (csRead c ad sz)
      let xk := elemAt (fmtBits xf) (vRead c vn) k
      (is.foldl (fun c i => mvAdd x.now [prodTerm c.mvp.fmt xf wf 0 xk (nth w (i - acc.val) 0)] c i) c, [])

/-- Accumulators named by a mask, ascending (R285). -/
def maskList (m : BitVec 16) : List Nat := (List.range 16).filter fun i => m.getLsbD i

/-- Conditions of a service operation on accumulators `is` (R154). -/
def mvBad (now : Nat) (c : Core) (is : List Nat) : List Raise :=
  (if now < c.mvp.svcTo then [(0x012A, 2, is.headD 0, 0)] else []) ++
  (match is.find? (fun i => decide (now < (mvAcc c i).held)) with
   | some i => [(0x012B, 2, i, 0)]
   | none => [])

/-- A service operation of the MVP: occupancy on every core, effect on active ones (R154, R245). -/
def mvService (act : Bool) (is : List Nat) (cyc : Nat) (eff : Core → Core × List Raise) (x : CoreIn) (c : Core) :
    Core × List Raise :=
  let bad := mvBad x.now c is
  if bad.isEmpty then
    let c1 := { c with mvp := { c.mvp with svcTo := x.now + cyc } }
    if act then eff c1 else (c1, [])
  else (c, bad)

/-- Setting accumulator `i`. -/
def mvSet (c : Core) (i : Nat) (a : AccQ) : Core := { c with mvp := { c.mvp with accs := vset c.mvp.accs i a } }

/-- MV.OPEN at a core (R147, R285). -/
def mvOpenCore (f : Fmt) (x : CoreIn) (c : Core) : Core × List Raise :=
  mvService true (List.range 16) 1 (fun c =>
    ({ c with mvp := { c.mvp with fmt := f, accs := Vector.replicate 16 { AccQ.zero f with svcAt := x.now + 1 } } }, []))
    x c

/-- MV.ZERO at a core (R147). -/
def mvZeroCore (p : Reg4) (mask : BitVec 16) (x : CoreIn) (c : Core) : Core × List Raise :=
  let is := maskList mask
  mvService (activeOn c p) is 1 (fun c =>
    (is.foldl (fun c i => mvSet c i { AccQ.zero c.mvp.fmt with svcAt := x.now + 1 }) c, [])) x c

/-- Service cycles per accumulator of MV.SPILL and MV.FILL (R154). -/
def mvLong (f : Fmt) : Nat := if f = .p32 then 8 else 4

/-- MV.SPILL at a core (R90, R284). -/
def mvSpillCore (p : Reg4) (a : Csa) (att : Bool) (mask : BitVec 16) (x : CoreIn) (c : Core) : Core × List Raise :=
  let is := maskList mask
  let f := c.mvp.fmt
  let z := imgSize f
  let fin := x.now + is.length * mvLong f
  mvService (activeOn c p) is (is.length * mvLong f) (fun c =>
    let named := csaAddr c a
    let tgt := is.mapIdx fun k i => (k, i, spillBase (mvAcc c i).base att (named + k * z))
    match tgt.find? (fun t => t.2.2.isNone) with
    | some t => (c, [(0x015A, 2, t.2.1, 0)])
    | none =>
      match tgt.find? (fun t => !csOk (t.2.2.getD 0) 8 z || decide (named % 8 ≠ 0)) with
      | some t => (c, [(0x0129, 2, t.2.1, t.2.2.getD 0)])
      | none =>
        tgt.foldl (fun acc t =>
          let b := t.2.2.getD 0
          let q := mvAcc acc.1 t.2.1
          let r := spillImage acc.1 f q.base.isNone b q.q
          let w := csWrite acc.1 (x.now + (t.1 + 1) * mvLong f) b (imgBytes r.1) 2
          (mvSet w.1 t.2.1 { AccQ.zero f with base := some b, svcAt := fin },
            acc.2 ++ w.2 ++ (if r.2 then [] else [(0x0004, 2, t.2.1, 0)]))) (c, [])) x c

/-- MV.FILL at a core (R91, R284). -/
def mvFillCore (p : Reg4) (a : Csa) (mask : BitVec 16) (x : CoreIn) (c : Core) : Core × List Raise :=
  let is := maskList mask
  let f := c.mvp.fmt
  let z := imgSize f
  let fin := x.now + is.length * mvLong f
  mvService (activeOn c p) is (is.length * mvLong f) (fun c =>
    let b := csaAddr c a
    if !csOk b 8 (is.length * z) then (c, [(0x0129, 2, is.headD 0, b)])
    else
      let imgs := is.mapIdx fun k i => (i, b + k * z, readImage c f (b + k * z))
      match imgs.find? (fun y => decide (y.2.2.2 ≠ fmtCode f)) with
      | some y => (c, [(0x0104, 2, y.1, y.2.1)])
      | none =>
        (imgs.foldl (fun c y => mvSet c y.1 { AccQ.zero f with base := some y.2.1, svcAt := fin }) c,
          match imgs.find? (fun y => !y.2.2.1.resOk) with
          | some y => [(0x0004, 2, y.1, 0)]
          | none => [])) x c

/-- The exact value of an accumulator with its base, its saturated mark, and whether its residues hold (R86, R92, R96). -/
def accValue (c : Core) (a : AccQ) : Num × Bool × Bool :=
  match a.base with
  | none => (a.q.num, a.q.sat, a.q.resOk)
  | some b =>
    let img := (readImage c a.q.fmt b).1
    let r := longAdd img (a.q.toLong a.q.fmt)
    (r.num, r.sat, a.q.resOk && img.resOk)

/-- The bytes of n elements, an odd INT4 element keeping the other nibble of its byte (R61). -/
def packElems (f : Fmt) (es : List Nat) (old : List Byte) : List Byte :=
  if f = .i4 ∧ es.length % 2 = 1 then
    bytesOfElems f (es ++ [(nth old (es.length / 2) 0).toNat / 16])
  else bytesOfElems f es

/-- An 8-byte slot: value and index (R98). -/
def slotBytes (v i : Nat) : List Byte := leBytes 4 v ++ leBytes 4 i

/-- MV.CLOSE at a core (R155–R157). -/
def mvCloseCore (p : Reg4) (out : Nat) (exd n : Nat) (acc : Reg4) (x : CoreIn) (c : Core) : Core × List Raise :=
  let is := (List.range n).map (acc.val + ·)
  let long := is.any fun i => (mvAcc c i).base.isSome
  let op := c.mvp.exits
  let oa := 64 * out
  let r := mvService (activeOn c p) is (if long then 5 else 2) (fun c =>
    let db := csRead c (32 * exd) 32
    match parseExit db with
    | none => (c, [(0x012C, 2, acc, 32 * exd)])
    | some e =>
      let len := (n * fmtBits e.out + 7) / 8
      let span := if e.rowStat then 72 + imgSize e.out else len
      if e.zp || e.tokScale || (e.chScale && !csOk e.chTable 16 (16 * n)) || !csOk oa 64 span then
        (c, [(0x012C, 2, acc, 32 * exd)])
      else
        let ch := csRead c e.chTable (16 * n)
        let vals := is.map fun i => accValue c (mvAcc c i)
        let outs := vals.mapIdx fun j v =>
          exitElem e.out (pepperMode e.rnd x.seed e.stream x.issue.pstep.toNat (e.idxBase + j)) false v.2.1
            (exitValue v.1 (if e.chScale then some (chEntry ch j).1 else none) none 0)
        let es := outs.map (·.1)
        let ready := x.now + 9 + (if e.out = .p32 then 1 else 0) + (if long then 3 else 0)
        let w1 := csWrite c ready oa (packElems e.out es (csRead c oa len)) 2
        let w2 :=
          if e.rowStat then
            let mx := rowMax e.out e.colBase es 0 none
            let w := csWrite w1.1 ready (oa + 64) (slotBytes mx.1 mx.2) 2
            let w' := csWrite w.1 ready (oa + 72) (imgBytes ((rowSum e.out es).toLong e.out)) 2
            (w'.1, w.2 ++ w'.2)
          else (w1.1, [])
        ({ w2.1 with pend := w2.1.pend ++ exitFlags outs 2 op ready },
          w1.2 ++ w2.2 ++
            (match firstIdx (fun v => !v.2.2) vals 0 with
             | some j => [(0x0004, 2, acc.val + j, 0)]
             | none => []))) x c
  ({ r.1 with mvp := { r.1.mvp with exits := r.1.mvp.exits + 1 } }, r.2)

/-! ### Meanings -/

/-- MV.OPEN (R147). -/
def execMvOpen (d : Die) (f : Fmt) (s : State) : Host.Outcome State Fault Refusal :=
  if isPosit f then .next (slotOp s d 0x301 (mvOpenCore f)) else .refused .reserved

/-- MV.ZERO (R147). -/
def execMvZero (d : Die) (p : Reg4) (mask : BitVec 16) (s : State) : Host.Outcome State Fault Refusal :=
  if mask = 0 then .refused .reserved else .next (slotOp s d 0x302 (mvZeroCore p mask))

/-- MV.DOT (R150). -/
def execMvDot (d : Die) (p : Reg4) (wf xf : Fmt) (acc : Reg4) (vn e : Reg6) (a : Csa) (s : State) :
    Host.Outcome State Fault Refusal :=
  if isPosit wf && isPosit xf then .next (slotOp s d 0x303 (mvDotCore p wf xf acc vn e a)) else .refused .reserved

/-- Values of K and ACC that MV.COL admits (R285). -/
def mvColOk (wf xf : Fmt) (acc : Reg4) (k : Reg6) : Bool :=
  isPosit wf && isPosit xf && decide (k.val < regElems xf) &&
    (if mvCount wf xf = 4 then decide (acc.val % 4 = 0) else decide (acc.val = 0))

/-- MV.COL (R151). -/
def execMvCol (d : Die) (p : Reg4) (wf xf : Fmt) (acc : Reg4) (vn k : Reg6) (a : Csa) (s : State) :
    Host.Outcome State Fault Refusal :=
  if mvColOk wf xf acc k then .next (slotOp s d 0x304 (mvColCore p wf xf acc vn k a)) else .refused .reserved

/-- Values of OUT, EXD, N and ACC that MV.CLOSE admits (R285). -/
def mvCloseOk (out : BitVec 10) (exd : BitVec 11) (n : Fin 32) (acc : Reg4) : Bool :=
  decide (out.toNat < 768) && decide (exd.toNat < 1536) && decide (1 ≤ n.val) && decide (acc.val + n.val ≤ 16)

/-- MV.CLOSE (R155). -/
def execMvClose (d : Die) (p : Reg4) (out : BitVec 10) (exd : BitVec 11) (n : Fin 32) (acc : Reg4) (s : State) :
    Host.Outcome State Fault Refusal :=
  if mvCloseOk out exd n acc then .next (slotOp s d 0x305 (mvCloseCore p out.toNat exd.toNat n acc))
  else .refused .reserved

/-- MV.SPILL (R90). -/
def execMvSpill (d : Die) (p : Reg4) (a : Csa) (att : Bool) (mask : BitVec 16) (s : State) :
    Host.Outcome State Fault Refusal :=
  if mask = 0 then .refused .reserved else .next (slotOp s d 0x306 (mvSpillCore p a att mask))

/-- MV.FILL (R91): a fill has ATT = 0 (R284). -/
def execMvFill (d : Die) (p : Reg4) (a : Csa) (att : Bool) (mask : BitVec 16) (s : State) :
    Host.Outcome State Fault Refusal :=
  if mask = 0 ∨ att = true then .refused .reserved else .next (slotOp s d 0x307 (mvFillCore p a mask))

end Sys2Proof.Machine
end

