-- ==== Sys2Proof/Machine/Functions.lean ====
section
/-! DEFINITION. The element functions of Table 9-1: exact values where they are rational, and enclosures of growing
precision that decide the rounding otherwise (R192, R193, R196, log 17). -/
namespace Sys2Proof.Machine

/-! ### Balls: a centre and a radius in units of 2^−w -/

/-- A real number within `2` units of `1`, in units of 2^−w. -/
abbrev Ball := Int × Nat

def atanhLoop (w : Nat) (z2 : Int) : Nat → Nat → Int → Int → Int
  | 0, _, _, acc => acc
  | k + 1, n, pw, acc =>
    if pw = 0 then acc else atanhLoop w z2 k (n + 2) (pw * z2 / (2 ^ w : Nat)) (acc + pw / (n : Int))

/-- 2 artanh z for 0 ≤ z ≤ 1/3 given in units with an error of `e` units. -/
def atanh2 (w : Nat) (z : Int) (e : Nat) : Ball :=
  (2 * atanhLoop w (z * z / (2 ^ w : Nat)) (w + 8) 1 z 0, 6 * w + 64 + 3 * e)

/-- ln 2. -/
def ln2Ball (w : Nat) : Ball := atanh2 w ((2 ^ w : Nat) / 3) 1

def expLoop (w : Nat) (r : Int) : Nat → Nat → Int → Int → Int
  | 0, _, _, acc => acc
  | k + 1, n, t, acc =>
    let t' := t * r / (2 ^ w : Nat) / (n : Int)
    if t' = 0 ∨ t' = -1 then acc + t' else expLoop w r k (n + 1) t' (acc + t')

/-- e^r for |r| ≤ 1. -/
def expBall (w : Nat) (r : Ball) : Ball := (expLoop w r.1 (w + 8) 1 (2 ^ w : Nat) (2 ^ w : Nat), 3 * r.2 + 4 * w + 64)

/-- A ball in units of 2^−v as a ball in units of 2^−w after a scaling by 2^k. -/
def rescale (v w : Nat) (k : Int) (b : Ball) : Ball :=
  let s : Int := (v : Int) - w - k
  if 0 ≤ s then (b.1 / (2 ^ s.toNat : Nat), b.2 / 2 ^ s.toNat + 2)
  else (b.1 * (2 ^ (-s).toNat : Nat), b.2 * 2 ^ (-s).toNat)

/-- A rational in units of 2^−w, rounded down. -/
def fixOf (w : Nat) (x : Frac) : Int := x.num * (2 ^ w : Nat) / (x.den : Int)

/-- e^x for |x| ≤ 4096. -/
def expFrac (w : Nat) (x : Frac) : Ball :=
  let k0 := (x.mul ⟨3, 2⟩).floor
  let v := w + 64 + (if 0 < k0 then k0.toNat else 0)
  let l := ln2Ball v
  let xf := fixOf v x
  let k := xf / l.1
  rescale v w k (expBall v (xf - k * l.1, 2 + k.natAbs * l.2))

/-- 2^x for |x| ≤ 4096. -/
def exp2Frac (w : Nat) (x : Frac) : Ball :=
  let k := x.floor
  let v := w + 64 + (if 0 < k then k.toNat else 0)
  let l := ln2Ball v
  rescale v w k (expBall v (fixOf v ((x.sub (Frac.ofInt k)).mul (Frac.ofInt l.1)) / (2 ^ v : Nat), l.2 + 4))

/-- ln x for x > 0. -/
def lnFrac (w : Nat) (x : Frac) : Ball :=
  let k := x.log2
  let m := x.scale2 (-k)
  let z := fixOf w ((m.sub Frac.one).div (m.add Frac.one))
  let a := atanh2 w z 2
  let l := ln2Ball w
  (a.1 + k * l.1, a.2 + k.natAbs * l.2 + 2)

/-- ln(1 + t) for a ball t in [0, 1]. -/
def ln1pBall (w : Nat) (t : Ball) : Ball :=
  let z := t.1 * (2 ^ w : Nat) / (t.1 + (2 ^ (w + 1) : Nat))
  atanh2 w z (t.2 + 2)

/-- a / b for b ≥ 1 and |a| ≤ b. -/
def divBall (w : Nat) (a b : Ball) : Ball := (a.1 * (2 ^ w : Nat) / b.1, a.2 + b.2 + 4)

/-- A ball times a rational. -/
def mulFrac (b : Ball) (x : Frac) : Ball := (b.1 * x.num / (x.den : Int), b.2 * (x.num.natAbs / x.den + 1) + 2)

def atanInvLoop (q2 : Int) : Nat → Nat → Int → Int → Int
  | 0, _, _, acc => acc
  | k + 1, n, pw, acc =>
    if pw = 0 then acc else atanInvLoop q2 k (n + 2) (-(pw / q2)) (acc + pw / (n : Int))

/-- arctan(1/q). -/
def atanInv (w q : Nat) : Int := atanInvLoop ((q * q : Nat) : Int) (w + 8) 1 ((2 ^ w : Nat) / (q : Int)) 0

/-- π. -/
def piBall (w : Nat) : Ball := (16 * atanInv w 5 - 4 * atanInv w 239, 48 * w + 512)

def sinLoop (w : Nat) (r2 : Int) : Nat → Nat → Int → Int → Int
  | 0, _, _, acc => acc
  | k + 1, n, t, acc =>
    let t' := -(t * r2 / (2 ^ w : Nat) / ((n * (n + 1) : Nat) : Int))
    if t' = 0 ∨ t' = 1 then acc + t' else sinLoop w r2 k (n + 2) t' (acc + t')

/-- sin r and cos r for |r| ≤ 1. -/
def sinBall (w : Nat) (r : Ball) : Ball :=
  (sinLoop w (r.1 * r.1 / (2 ^ w : Nat)) (w + 8) 2 r.1 r.1, r.2 + 6 * w + 64)
def cosBall (w : Nat) (r : Ball) : Ball :=
  (sinLoop w (r.1 * r.1 / (2 ^ w : Nat)) (w + 8) 1 (2 ^ w : Nat) (2 ^ w : Nat), r.2 + 6 * w + 64)

/-- sin x, or cos x when `c`: the argument less the nearest multiple of π/2. -/
def trigBall (w : Nat) (c : Bool) (x : Frac) : Ball :=
  let v := w + 32 + (if x.isZero then 0 else (x.abs.log2).toNat)
  let p := piBall v
  let xf := fixOf v x
  let q := (2 * xf + p.1 / 2) / p.1
  let r : Ball := (xf - q * p.1 / 2, 4 + (q.natAbs + 1) * p.2)
  let k := (q + (if c then 1 else 0)) % 4
  let b := if k % 2 = 0 then sinBall v r else cosBall v r
  rescale v w 0 (if k < 2 then b else (-b.1, b.2))

def oddSeries (w : Nat) (u : Frac) : Nat → Nat → Int → Int → Int
  | 0, _, _, acc => acc
  | k + 1, n, t, acc =>
    let t' := t * u.num / (u.den : Int) / ((2 * n + 1 : Nat) : Int)
    if t' = 0 then acc else oddSeries w u k (n + 1) t' (acc + t')

/-- c · x · e^(−u/2) · Σ u^n/(2n+1)!! for x ≥ 0 and u ≤ 4096, where c is the root of `c2` / π: the error function. -/
def erfBall (w : Nat) (x u : Frac) (c2 : Nat) : Ball :=
  let b := u.floor.toNat + 1
  let v := w + 4 * b + 64
  let n := v + 8 * b
  let s := oddSeries v u n 1 (2 ^ v : Nat) (2 ^ v : Nat)
  let es := 8 * n
  let e := expFrac v (u.mul ⟨-1, 2⟩)
  let p := piBall v
  let root : Int := (isqrt (c2 * 2 ^ (3 * v) / p.1.toNat) : Nat)
  let er := p.2 + 8
  let m := s * e.1 / (2 ^ v : Nat)
  let em := es + (s.natAbs / 2 ^ v + 1) * e.2 + 2
  let g := m * root / (2 ^ v : Nat)
  let eg := 2 * em + (m.natAbs / 2 ^ v + 1) * er + 2
  rescale v w 0 (mulFrac (g, eg) x)

/-! ### Enclosures of magnitudes -/

/-- A sign and bounds of a magnitude. -/
abbrev Encl := Bool × Frac × Frac

/-- A ball away from 0 as an enclosure. -/
def enclOf (w : Nat) (b : Ball) : Option Encl :=
  if (b.2 : Int) < b.1 then some (false, ⟨b.1 - b.2, 2 ^ w⟩, ⟨b.1 + b.2, 2 ^ w⟩)
  else if b.1 < -(b.2 : Int) then some (true, ⟨-b.1 - b.2, 2 ^ w⟩, ⟨-b.1 + b.2, 2 ^ w⟩)
  else none

/-- A magnitude above every finite result, and one below every result and every product with an operand: their own bits
reach no result (log 17). -/
def hugeEncl (neg : Bool) : Option Encl := some (neg, Frac.pow2 1300, Frac.pow2 1300)
def tinyEncl (neg : Bool) : Option Encl := some (neg, Frac.pow2 (-1300), Frac.pow2 (-1300))

/-- Just above, and just below, a positive rational. -/
def aboveEncl (x : Frac) : Option Encl := some (false, x.add (Frac.pow2 (-1400)), x.add (Frac.pow2 (-1300)))
def belowEncl (neg : Bool) (x : Frac) : Option Encl :=
  some (neg, x.sub (Frac.pow2 (-400)), x.sub (Frac.pow2 (-1400)))

def fracInt (z : Int) : Frac := Frac.ofInt z

/-- 1/(1 + e^−x) in units of 2^−w, for |x| ≤ 1000. -/
def sigmoidBall (w : Nat) (x : Frac) : Ball :=
  let t := expFrac w x.abs.neg
  let one : Int := (2 ^ w : Nat)
  divBall w (if x.isNeg then t else (one, 0)) (one + t.1, t.2)

/-- An element function at a non-zero finite x inside its domain, where the value is not rational: an enclosure at
precision w. The exact values are taken first by `fnExact`. -/
def fnEncl (f : ElemFn) (w : Nat) (x : Frac) : Option Encl :=
  let one : Int := (2 ^ w : Nat)
  let big := (fracInt 1000).lt x
  let small := x.lt (fracInt (-1000))
  match f with
  | .exp => if big then hugeEncl false else if small then tinyEncl false else enclOf w (expFrac w x)
  | .exp2 => if (fracInt 2000).lt x then hugeEncl false else if x.lt (fracInt (-2000)) then tinyEncl false
    else enclOf w (exp2Frac w x)
  | .log => enclOf w (lnFrac w x)
  | .log2 =>
    let l := ln2Ball (w + 16)
    let n := lnFrac (w + 16) x
    enclOf w (rescale (w + 16) w 0 (n.1 * (2 ^ (w + 16) : Nat) / l.1, 2 * n.2 + (n.1.natAbs / 2 ^ (w + 15) + 2) * 4 * l.2 + 4))
  | .recip => some (x.isNeg, (Frac.one.div x).abs, (Frac.one.div x).abs)
  | .sqrt =>
    let s := isqrt (x.num.natAbs * 2 ^ (2 * w) / x.den)
    some (false, ⟨s, 2 ^ w⟩, ⟨s + 1, 2 ^ w⟩)
  | .rsqrt =>
    let s := isqrt (x.den * 2 ^ (2 * w) / x.num.natAbs)
    some (false, ⟨s, 2 ^ w⟩, ⟨s + 1, 2 ^ w⟩)
  | .tanh =>
    if (fracInt 500).lt x.abs then belowEncl x.isNeg Frac.one
    else
      let t := expFrac w (x.abs.mul (fracInt (-2)))
      (enclOf w (divBall w (one - t.1, t.2) (one + t.1, t.2))).map fun e => (x.isNeg, e.2.1, e.2.2)
  | .sigmoid => if big then belowEncl false Frac.one else if small then tinyEncl false else enclOf w (sigmoidBall w x)
  | .silu =>
    if big then belowEncl false x else if small then tinyEncl true
    else enclOf w (mulFrac (sigmoidBall w x) x)
  | .gelu =>
    if (fracInt 60).lt x then belowEncl false x
    else if x.lt (fracInt (-60)) then tinyEncl true
    else
      let e := erfBall w x.abs (x.mul x) 2
      enclOf w (mulFrac (if x.isNeg then (one - e.1, e.2) else (one + e.1, e.2)) (x.mul Frac.half))
  | .erf =>
    if (fracInt 30).lt x.abs then belowEncl x.isNeg Frac.one
    else (enclOf w (erfBall w x.abs ((x.mul x).mul (fracInt 2)) 4)).map fun e => (x.isNeg, e.2.1, e.2.2)
  | .sin => enclOf w (trigBall w false x)
  | .cos => enclOf w (trigBall w true x)
  | .softplus =>
    if big then aboveEncl x else if small then tinyEncl false
    else
      let l := ln1pBall w (expFrac w x.abs.neg)
      enclOf w (if x.isNeg then l else (l.1 + fixOf w x, l.2 + 2))

/-- Whether a positive rational is a power of two. -/
def isPow2 (x : Frac) : Bool := (Frac.pow2 x.log2).eqv x

/-- The root of a rational that has a rational root. -/
def exactRoot (x : Frac) : Option Frac :=
  let k := x.num.natAbs * x.den
  let s := isqrt k
  if s * s = k then some ⟨s, x.den⟩ else none

/-- The exact value of a function where it is rational; x is finite and inside the domain. -/
def fnExact (f : ElemFn) (x : Frac) : Option Frac :=
  match f with
  | .exp => if x.isZero then some Frac.one else none
  | .exp2 =>
    if x.isZero then some Frac.one
    else if x.fract.isZero && x.abs.le (fracInt 2000) then some (Frac.pow2 x.floor) else none
  | .log => if x.eqv Frac.one then some Frac.zero else none
  | .log2 => if isPow2 x then some (Frac.ofInt x.log2) else none
  | .recip => some (Frac.one.div x)
  | .sqrt => exactRoot x
  | .rsqrt => (exactRoot x).map fun r => Frac.one.div r
  | .sigmoid => if x.isZero then some Frac.half else none
  | .cos => if x.isZero then some Frac.one else none
  | .softplus => none
  | _ => if x.isZero then some Frac.zero else none

/-- ln 2, the value of SOFTPLUS at 0. -/
def fnZeroEncl (w : Nat) : Option Encl := enclOf w (ln2Ball w)

/-- Deciding a function of an enclosed magnitude: the precision doubles until both bounds give one answer. -/
def decideEncl {α : Type} [DecidableEq α] (enc : Nat → Option Encl) (g : Bool → Frac → α) (dflt : α) : Nat → Nat → α
  | 0, _ => dflt
  | k + 1, w =>
    match enc w with
    | none => decideEncl enc g dflt k (2 * w)
    | some (neg, lo, hi) => if g neg lo = g neg hi then g neg lo else decideEncl enc g dflt k (2 * w)

/-- Precisions tried: 160, 320, 640, …, 20,480 bits (log 17). -/
def fnFuel : Nat := 8
def fnStart : Nat := 160

/-- f(x) at a finite x inside the domain through `g` of sign and magnitude. -/
def fnApply {α : Type} [DecidableEq α] (f : ElemFn) (x : Frac) (g : Bool → Frac → α) : α :=
  match fnExact f x with
  | some v => g v.isNeg v.abs
  | none =>
    if x.isZero then decideEncl fnZeroEncl g (g false Frac.zero) fnFuel fnStart
    else decideEncl (fun w => fnEncl f w x) g (g false Frac.zero) fnFuel fnStart

/-- Whether x is in the domain-error set of Table 9-1. -/
def domainErr (f : ElemFn) (x : Frac) : Bool :=
  match f with
  | .log | .log2 | .rsqrt => x.isNeg || x.isZero
  | .recip => x.isZero
  | .sqrt => x.isNeg
  | _ => false

/-- VEC flags that element operations raise, by their bit of Table 8-7. -/
abbrev VFlag := Option Nat

/-- The rounding of function results in a format (R192, R193). -/
def fnRnd (f : Fmt) : Rnd := if f = .p32 ∨ f = .b32 then .guarded else .rne

/-- The flag of a rounding in an arithmetic or function result: a clamp, or an overflow to infinity (R169, R170, R185). -/
def roundFlag (f : Fmt) (c : Option Cond) : VFlag :=
  match c with
  | some .clamp => some 5
  | some .range => if isIeee f then some 2 else some 4
  | some .nar => some 3
  | none => none

/-- A signed zero of an IEEE format. -/
def zeroBits (f : Fmt) (neg : Bool) : Nat := if neg && isIeee f then 2 ^ (fmtBits f - 1) else 0

/-- A signed infinity of an IEEE format. -/
def infBits (f : Fmt) (neg : Bool) : Nat := (convertNum f .rne (.inf neg)).1

/-- Rounding a sign and magnitude; an exact zero takes the sign `zneg` in IEEE formats. -/
def roundMag (f : Fmt) (m : Rnd) (neg : Bool) (x : Frac) : Nat × VFlag :=
  let r := convertNum f m (.fin neg x)
  (r.1, roundFlag f r.2)

/-- What a function gives for a zero of sign `neg` in an IEEE format (Table 9-4); none: through its value. -/
def fnIeeeZero (f : ElemFn) (fmt : Fmt) (neg : Bool) : Option (Nat × VFlag) :=
  match f with
  | .log | .log2 => some (infBits fmt true, some 2)
  | .recip => some (infBits fmt neg, some 2)
  | .rsqrt => some (infBits fmt neg, some 2)
  | .sqrt | .tanh | .erf | .silu | .gelu | .sin => some (zeroBits fmt neg, none)
  | _ => none

/-- What a function gives for an infinity (Table 9-4). -/
def fnIeeeInf (f : ElemFn) (fmt : Fmt) (neg : Bool) : Nat × VFlag :=
  let one := (convertNum fmt .rne (.fin false Frac.one)).1
  let nan : Nat × VFlag := (nanBits fmt, some 1)
  match f with
  | .exp | .exp2 | .softplus => (if neg then 0 else infBits fmt false, none)
  | .log | .log2 | .sqrt => if neg then nan else (infBits fmt false, none)
  | .recip => (zeroBits fmt neg, none)
  | .rsqrt => if neg then nan else (0, none)
  | .tanh | .erf => (if neg then one + 2 ^ (fmtBits fmt - 1) else one, none)
  | .sigmoid => (if neg then 0 else one, none)
  | .silu | .gelu => (if neg then zeroBits fmt true else infBits fmt false, none)
  | .sin | .cos => nan

/-- V.FN of one element (R192–R199). -/
def fnElem (f : ElemFn) (fmt : Fmt) (b : Nat) : Nat × VFlag :=
  match decodeNum fmt b with
  | .nan => (nanBits fmt, none)
  | .inf neg => fnIeeeInf f fmt neg
  | .fin neg mag =>
    let x : Frac := if neg then mag.neg else mag
    match (if isIeee fmt && mag.isZero then fnIeeeZero f fmt neg else none) with
    | some r => r
    | none =>
      if domainErr f x then (nanBits fmt, some (if isIeee fmt then 1 else 0))
      else fnApply f x (fun n m => roundMag fmt (fnRnd fmt) n m)

/-- The activation of a fused gate function (R200). -/
def gateAct : GateFn → ElemFn
  | .gsilu => .silu
  | .ggelu => .gelu
  | .gsig => .sigmoid

/-- T40 of a magnitude, as 40-bit significand and scale (R196). -/
def t40 (x : Frac) : Nat × Int :=
  if x.isZero then (0, 0)
  else
    let s := x.log2 - 39
    ((x.scale2 (-s)).floor.toNat, s)

/-- The rational that a T40 pair stands for. -/
def t40Frac (t : Nat × Int) : Frac := Frac.scale2 (Frac.ofInt t.1) t.2

/-- T40(f(x)): sign and magnitude. -/
def fnT40 (f : ElemFn) (x : Frac) : Bool × Frac :=
  let r := fnApply f x (fun n m => (n, t40 m))
  (r.1, t40Frac r.2)

/-- The activation a of a fused gate as a `Num` (R200, R201). -/
def gateNum (g : GateFn) (b : Nat) (fmt : Fmt) : Num :=
  match decodeNum fmt b with
  | .nan => .nan
  | .inf neg => decodeNum fmt (fnIeeeInf (gateAct g) fmt neg).1
  | .fin neg mag =>
    if mag.isZero then (if g = .gsig then .fin false Frac.half else .fin (neg && isIeee fmt) Frac.zero)
    else
      let r := fnT40 (gateAct g) (if neg then mag.neg else mag)
      .fin r.1 r.2

end Sys2Proof.Machine
end

