-- ==== Sys2Proof/Machine/Arith.lean ====
section
/-! DEFINITION. Element arithmetic of the vector engine and its flags (R75–R78, R163, R169, R170, R200, R201). -/
namespace Sys2Proof.Machine

/-- The arithmetic operations of two or three operands. -/
inductive ArithOp where
  | add | sub | mul | fma
  deriving DecidableEq, Repr

/-- The exact sum of two finite or infinite values rounded once in an IEEE format (Table 8-2). -/
def ieeeSum (f : Fmt) (m : Rnd) (x y : Num) : Nat × VFlag :=
  match x, y with
  | .nan, _ => (nanBits f, none)
  | _, .nan => (nanBits f, none)
  | .inf a, .inf b => if a == b then (infBits f a, none) else (nanBits f, some 1)
  | .inf a, _ => (infBits f a, none)
  | _, .inf b => (infBits f b, none)
  | .fin a u, .fin b v =>
    let s := (if a then u.neg else u).add (if b then v.neg else v)
    if s.isZero then (zeroBits f (u.isZero && v.isZero && a && b), none)
    else roundMag f m s.isNeg s.abs

/-- A product as a value, none for 0 × ∞ (Table 8-2). -/
def numMul (x y : Num) : Option Num :=
  match x, y with
  | .nan, _ => some .nan
  | _, .nan => some .nan
  | .inf a, .inf b => some (.inf (Bool.xor a b))
  | .inf a, .fin b v => if v.isZero then none else some (.inf (Bool.xor a b))
  | .fin a u, .inf b => if u.isZero then none else some (.inf (Bool.xor a b))
  | .fin a u, .fin b v => some (.fin (Bool.xor a b) (u.mul v))

/-- The negative of a value. -/
def numNeg : Num → Num
  | .nan => .nan
  | .inf a => .inf (!a)
  | .fin a u => .fin (!a) u

/-- A product rounded once in an IEEE format (Table 8-2, R201). -/
def ieeeMul (f : Fmt) (m : Rnd) (x y : Num) : Nat × VFlag :=
  match numMul x y with
  | none => (nanBits f, some 1)
  | some .nan => (nanBits f, none)
  | some (.inf a) => (infBits f a, none)
  | some (.fin a u) => if u.isZero then (zeroBits f a, none) else roundMag f m a u

/-- V.ADD, V.SUB, V.MUL and V.FMA of one element: a ∘ b, or a × b + c (R169, R170). -/
def arithElem (op : ArithOp) (f : Fmt) (m : Rnd) (a b c : Nat) : Nat × VFlag :=
  let x := decodeNum f a
  let y := decodeNum f b
  let z := decodeNum f c
  if isIeee f then
    match op with
    | .add => ieeeSum f m x y
    | .sub => ieeeSum f m x (numNeg y)
    | .mul => ieeeMul f m x y
    | .fma =>
      if x.isNan || y.isNan || z.isNan then (nanBits f, none)
      else
        match numMul x y with
        | none => (nanBits f, some 1)
        | some p => ieeeSum f m p z
  else
    let nan := x.isNan || y.isNan || (decide (op = .fma) && z.isNan)
    if nan then (nanBits f, none)
    else
      let v : Frac := match op with
        | .add => x.val.add y.val
        | .sub => x.val.sub y.val
        | .mul => x.val.mul y.val
        | .fma => (x.val.mul y.val).add z.val
      roundMag f m v.isNeg v.abs

/-- A fused gate of one element: u × T40(f(g)), rounded once (R200, R201). -/
def gateElem (g : GateFn) (f : Fmt) (m : Rnd) (gb ub : Nat) : Nat × VFlag :=
  let a := gateNum g gb f
  let u := decodeNum f ub
  if isIeee f then ieeeMul f m u a
  else if a.isNan || u.isNan then (nanBits f, none)
  else
    let v := u.val.mul a.val
    roundMag f m v.isNeg v.abs

end Sys2Proof.Machine
end

