-- ==== Sys2Proof/Machine/Tensor.lean ====
section
/-! DEFINITION. Tensor descriptors, element addresses, range and overlap (R171–R174). -/
namespace Sys2Proof.Machine

/-- Reading a tensor descriptor at `a`; none where a reserved bit is set, FMT is reserved, or an address is misaligned
(Table 8-3, VEC_DESC). Unused dimensions have extent 1 and stride 0 (R172). -/
def parseTensor (a : Nat) (bs : List Byte) : Option TDesc :=
  let b2 := byteAt bs 2
  let b3 := byteAt bs 3
  match fmtOf (b2 % 16) with
  | none => none
  | some f =>
    let rank := b2 / 16 % 4 + 1
    let base := fieldAt bs 0 2
    if b2 / 64 = 0 ∧ b3 / 8 = 0 ∧ (f = .i4 ∨ base % (fmtBits f / 8) = 0) ∧
        (bitAt b3 0 = true → fieldAt bs 18 2 % 32 = 0) then
      some { addr := a, base := base, fmt := f, rank := rank, masked := bitAt b3 0, zmask := bitAt b3 1,
             rnd := bitAt b3 2,
             n := (List.range 4).map fun k => if k < rank then fieldAt bs (4 + 2 * k) 2 else 1,
             s := (List.range 3).map fun k => if k + 1 < rank then toSigned 16 (fieldAt bs (12 + 2 * k) 2) else 0,
             maskDesc := fieldAt bs 18 2, stream := fieldAt bs 20 4, idxBase := fieldAt bs 24 8 }
    else none

/-- The descriptor that a field of a word names (R286). -/
def readTensor (c : Core) (field : Nat) : Option TDesc := parseTensor (32 * field) (csRead c (32 * field) 32)

/-- Whether the descriptor at `a` holds a reserved format code (R51). -/
def badFmt (c : Core) (a : Nat) : Bool := (fmtOf (byteAt (csRead c a 32) 2 % 16)).isNone

/-- The cause of descriptors that cannot be read: FMT_CODE for a reserved format code of one of them or of its mask
(R51), else VEC_DESC (R470). -/
def descCause (c : Core) (fields : List Nat) : Nat :=
  let bad (f : Nat) : Bool :=
    let bs := csRead c (32 * f) 32
    badFmt c (32 * f) || (bitAt (byteAt bs 3) 0 && badFmt c (fieldAt bs 18 2))
  if fields.any bad then 0x0103 else 0x0131

/-- Extent and byte stride of dimension `k`. -/
def TDesc.ext (d : TDesc) (k : Nat) : Nat := nth d.n k 1
def TDesc.str (d : TDesc) (k : Nat) : Int := nth d.s (k - 1) 0

/-- Number of elements. -/
def TDesc.count (d : TDesc) : Nat := d.ext 0 * d.ext 1 * d.ext 2 * d.ext 3

/-- Rows: runs of dimension 0 (R172). -/
def TDesc.runs (d : TDesc) : Nat := d.ext 1 * d.ext 2 * d.ext 3

/-- Beats of R172. -/
def TDesc.beats (d : TDesc) : Nat := ceilDiv (d.ext 0) 16 * d.runs

/-- Index (i0, i1, i2, i3) of linear index `n` over extents `e` (R172). -/
def unlinear (e : List Nat) (n : Nat) : List Nat :=
  let n0 := nth e 0 1
  let n1 := nth e 1 1
  let n2 := nth e 2 1
  [n % n0, n / n0 % n1, n / (n0 * n1) % n2, n / (n0 * n1 * n2)]

/-- Address in nibbles of an index; an extent of 1 is held at index 0 (R172, R173). -/
def TDesc.nib (d : TDesc) (ix : List Nat) : Int :=
  let i (k : Nat) : Int := if d.ext k = 1 then 0 else (nth ix k 0 : Nat)
  2 * (d.base : Int) + i 0 * (fmtBits d.fmt / 4 : Nat) + 2 * (i 1 * d.str 1 + i 2 * d.str 2 + i 3 * d.str 3)

/-- Byte address of an index. -/
def TDesc.byte (d : TDesc) (ix : List Nat) : Nat := (d.nib ix / 2).toNat

/-- The raw element at an index. -/
def TDesc.read (c : Core) (d : TDesc) (ix : List Nat) : Nat :=
  let a := d.byte ix
  if d.fmt = .i4 then
    let b := (memGet c.cs a).toNat
    if d.nib ix % 2 = 0 then b % 16 else b / 16
  else leNat (csRead c a (fmtBits d.fmt / 8))

/-- The timed write of an element at an index. -/
def TDesc.write (d : TDesc) (ix : List Nat) (x : Nat) : List PWrite :=
  let a := d.byte ix
  if d.fmt = .i4 then [.csn a (decide (d.nib ix % 2 = 1)) x]
  else (leBytes (fmtBits d.fmt / 8) x).mapIdx fun k b => .cs (a + k) b

/-- Bounds of a tensor in nibbles: first, and one past the last (R174); none when it is empty. -/
def TDesc.span (d : TDesc) : Option (Int × Int) :=
  if d.count = 0 then none
  else
    let step (k : Nat) : Int := ((d.ext k : Int) - 1) * 2 * d.str k
    let lo := 2 * (d.base : Int) + min 0 (step 1) + min 0 (step 2) + min 0 (step 3)
    let hi := 2 * (d.base : Int) + ((d.ext 0 : Int) - 1) * (fmtBits d.fmt / 4 : Nat) + max 0 (step 1) + max 0 (step 2) +
      max 0 (step 3) + (fmtBits d.fmt / 4 : Nat)
    some (lo, hi)

/-- Whether every byte lies in core store (R174). -/
def TDesc.inStore (d : TDesc) : Bool :=
  match d.span with
  | none => true
  | some (lo, hi) => decide (0 ≤ lo) && decide (hi ≤ 2 * (csSize : Int))

/-- The bytes of every element. -/
def TDesc.bytes (d : TDesc) : List Nat :=
  ((List.range d.count).map fun n =>
    let a := d.byte (unlinear d.n n)
    (List.range (max 1 (fmtBits d.fmt / 8))).map (a + ·)).flatten

/-- Whether a byte range is touched by a tensor. -/
def TDesc.touches (d : TDesc) (a n : Nat) : Bool := d.bytes.any fun x => decide (a ≤ x) && decide (x < a + n)

/-- Identical BASE, FMT, extents and strides (R174). -/
def TDesc.same (d e : TDesc) : Bool :=
  decide (d.base = e.base) && decide (d.fmt = e.fmt) && decide (d.n = e.n) && decide (d.s = e.s)

/-- Whether two tensors share a byte: bounds first, then byte by byte. -/
def TDesc.shares (d e : TDesc) : Bool :=
  match d.span, e.span with
  | some (a, b), some (x, y) =>
    if a / 2 < (y + 1) / 2 ∧ x / 2 < (b + 1) / 2 then
      let es := e.bytes
      d.bytes.any fun k => es.contains k
    else false
  | _, _ => false

/-- A forbidden overlap of a destination with another tensor (R174). -/
def TDesc.overlap (d e : TDesc) : Bool := !(d.same e) && d.shares e

/-- Each extent of a source equals the destination's or is 1 (R173). -/
def TDesc.fits (src dst : TDesc) : Bool :=
  (List.range 4).all fun k => decide (src.ext k = dst.ext k) || decide (src.ext k = 1)

/-- The mask tensor of a descriptor: none when not MASKED; `some none` when it breaks R173. -/
def maskOf (c : Core) (d : TDesc) : Option (Option TDesc) :=
  if d.masked then
    match parseTensor d.maskDesc (csRead c d.maskDesc 32) with
    | some m => if m.fmt = .u8 ∧ m.masked = false ∧ m.n = d.n ∧ d.maskDesc + 32 ≤ csSize then some (some m) else some none
    | none => some none
  else none

/-- Whether the mask makes an index active (R173). -/
def maskOn (c : Core) (m : Option TDesc) (ix : List Nat) : Bool :=
  match m with
  | some d => !(decide (d.read c ix = 0))
  | none => true

end Sys2Proof.Machine
end

