-- ==== Sys2Proof/Machine/Vec.lean ====
section
/-! DEFINITION. The vector engine: element operations in register and descriptor form (chapter 8). -/
namespace Sys2Proof.Machine

/-- The element operations of Table 8-1 that write a vector, a tensor or a predicate. -/
inductive VOp where
  | vmov | band | bor | bxor | vsel | vneg | vabs | vmax | vmin
  | cmp (c : CmpCond)
  | arith (o : ArithOp)
  | cvt (t : Fmt)
  | fn (f : ElemFn)
  | gate (g : GateFn)
  deriving DecidableEq, Repr

/-- Formats an operation accepts in its source (Table 8-1, R168, R191). -/
def VOp.fmtOk (o : VOp) (f : Fmt) : Bool :=
  match o with
  | .vmov | .band | .bor | .bxor | .vsel => decide (fmtBits f ≠ 4)
  | .vneg | .vabs | .vmax | .vmin | .cmp _ | .arith _ => isPosit f || decide (f = .b32)
  | .cvt t => decide (f ≠ t)
  | .fn _ | .gate _ => isPosit f || isIeee f

/-- Cycles per beat and latency (Table 8-1). -/
def VOp.time (o : VOp) (f : Fmt) : Nat × Nat :=
  match o with
  | .vmov | .band | .bor | .bxor | .vsel => (1, 1)
  | .vneg | .vabs | .vmax | .vmin | .cmp _ => (1, 2)
  | .arith .fma => (1, 6)
  | .arith _ => (1, 4)
  | .cvt _ => (1, 3)
  | .fn _ | .gate _ => (if fmtBits f = 32 then 8 else 4, 12)

/-- Elements of a register-form operation (R160, R168). -/
def VOp.elems (o : VOp) (f : Fmt) : Nat :=
  match o with
  | .cvt t => 512 / max (fmtBits f) (fmtBits t)
  | _ => regElems f

/-- The format of the result. -/
def VOp.out (o : VOp) (f : Fmt) : Fmt :=
  match o with
  | .cvt t => t
  | _ => f

/-- One element: operands, rounding mode, the select bit; the result and its flag (Table 8-1). -/
def VOp.elem (o : VOp) (f : Fmt) (m : Rnd) (a b c : Nat) (sel : Bool) : Nat × VFlag :=
  match o with
  | .vmov => (a, none)
  | .band => (Nat.land a b, none)
  | .bor => (Nat.lor a b, none)
  | .bxor => (Nat.xor a b, none)
  | .vsel => (if sel then a else b, none)
  | .vneg => (negElem f a, none)
  | .vabs => (absElem f a, none)
  | .vmax => (maxElem f a b, none)
  | .vmin => (minElem f a b, none)
  | .cmp k => (b2n (compareElem f k a b), none)
  | .arith o => arithElem o f m a b c
  | .cvt t => let r := convertElem f t m a; (r.1, r.2.map condFlag)
  | .fn g => fnElem g f a
  | .gate g => gateElem g f m a b

/-- An element operation as a command spells it: operation, predicate, form, and Pd of V.CMP or Pq of V.SEL. -/
def vopOf (i : Instr) : Option (VOp × Reg4 × VForm × Nat) :=
  let reg (zm scal : Bool) (f : Fmt) (vd va vb : Reg6) : VForm := .reg ⟨zm, scal, false, f, vd, va, vb, 0, 0⟩
  match i with
  | .vMov _ p f => some (.vmov, p, f, 0)
  | .vAnd _ p f => some (.band, p, f, 0)
  | .vOr _ p f => some (.bor, p, f, 0)
  | .vXor _ p f => some (.bxor, p, f, 0)
  | .vSel _ p zm f vd va vb pq => some (.vsel, p, reg zm false f vd va vb, pq)
  | .vNeg _ p f => some (.vneg, p, f, 0)
  | .vAbs _ p f => some (.vabs, p, f, 0)
  | .vMax _ p f => some (.vmax, p, f, 0)
  | .vMin _ p f => some (.vmin, p, f, 0)
  | .vCmp _ p zm scal f pd va vb c => some (.cmp c, p, reg zm scal f 0 va vb, pd)
  | .vAdd _ p f => some (.arith .add, p, f, 0)
  | .vSub _ p f => some (.arith .sub, p, f, 0)
  | .vMul _ p f => some (.arith .mul, p, f, 0)
  | .vFma _ p f => some (.arith .fma, p, f, 0)
  | .vCvt _ p f t => some (.cvt t, p, f, 0)
  | .vFn _ p f g => some (.fn g, p, f, 0)
  | .vFnGate _ p f g => some (.gate g, p, f, 0)
  | _ => none

/-- Operands that an operation takes from vectors or tensors, and whether its second may be a scalar (Table 12-7). -/
def VOp.arity (o : VOp) : Nat :=
  match o with
  | .vmov | .vneg | .vabs | .cvt _ | .fn _ => 1
  | .arith .fma => 3
  | _ => 2

def VOp.scalOk (o : VOp) : Bool :=
  match o with
  | .vsel | .vneg | .vabs | .cvt _ | .fn _ => false
  | _ => true

/-- Operations that round in the mode RND (R194, R286). -/
def VOp.rounds (o : VOp) : Bool :=
  match o with
  | .arith _ | .cvt _ | .gate _ => true
  | _ => false

/-- Field values and forms that Tables 12-5 to 12-7 and R286 admit for an element operation. -/
def vFormOk (o : VOp) (f : VForm) : Bool :=
  match f with
  | .reg r =>
    (!r.scal || o.scalOk) && (!r.rnd || o.rounds) &&
    (decide (o.arity = 3) || decide (r.vc = 0)) &&
    (if decide (o.arity = 1) && !r.scal then decide (r.vb = 0) else true) &&
    (if decide (o = .vmov) && r.scal then decide (r.va = 0) else true) &&
    (if r.rnd then decide (r.sp.val % 2 = 0) else decide (r.sp = 0))
  | .desc r =>
    (!r.scal || o.scalOk) && decide (r.dd.toNat < 1536) && decide (r.sp = 0) &&
    (if decide (o = .vmov) && r.scal then decide (r.da = 0) else decide (r.da.toNat < 1536)) &&
    (if r.scal then decide (r.db.toNat < 64)
     else if o.arity = 1 then decide (r.db = 0) else decide (r.db.toNat < 1536))

/-- Cause of a format that an operation does not accept: FN_CODE for functions (Table 9-8), else VEC_FMT (log 20). -/
def fmtCause : VOp → Nat
  | .fn _ => 0x138
  | .gate _ => 0x138
  | _ => 0x130

/-- Whether an element function names stochastic rounding (R194). -/
def fnRounds (o : VOp) (d : TDesc) : Bool :=
  match o with
  | .fn _ => d.rnd
  | _ => false

/-! ### Starting an operation in the element pipe (R166, R186, R470) -/

/-- Scalars of the word at a core (R164, R247). -/
def wordS (x : CoreIn) (r : Nat) : DWord := vget x.issue.s r 0

/-- Counting a VEC operation; it takes the pipe for `occ` cycles unless the pipe is occupied (VEC_BUSY). -/
def pipeTake (x : CoreIn) (c : Core) (occ : Nat) (go : Nat → Core → Core × List Raise) : Core × List Raise :=
  let op := c.vecOps
  let c1 := { c with vecOps := c.vecOps + 1 }
  if x.now < c.vecTo then (c1, [(0x0134, 3, 0, 0)])
  else go op { c1 with vecTo := x.now + occ }

/-- A VEC slot operation whose occupancy must equal that of the die's lowest core (R470). -/
def vecSlot (s : State) (d : Die) (op : Nat) (occ : Core → Nat) (f : Nat → CoreIn → Core → Core × List Raise) : State :=
  let ref := match (s.die d).cores.head? with | some c => occ c | none => 0
  slotOp s d op (f ref)

/-- An empty job of an operation. -/
def newJob (i : Instr) (x : CoreIn) (op units nextAt : Nat) (act : DWord) : VecJob :=
  { instr := i, start := x.now, opIdx := op, act := act, sval := 0, s2 := 0, s3 := 0, pstep := x.issue.pstep,
    seed := x.seed, unit := 0, units := units, nextAt := nextAt, dst := none, src1 := none, src2 := none, mask := none,
    lanes := [], count := 0, best := none, rowFirst := 0, rowLast := 0, reads := [] }

/-- Timed VEC flags of a beat. -/
def flagPends (ready op : Nat) (fs : List (Nat × Nat)) : List Pend := fs.map fun f => ⟨ready, true, .vflag f.1 op f.2⟩

/-- The register writes of element `k` of format `f` in register `r` (R160; INT4 by nibble). -/
def elemWrite (f : Fmt) (r k x : Nat) : List PWrite :=
  if fmtBits f = 4 then [.vn (64 * r + k / 2) (decide (k % 2 = 1)) x]
  else vPends 0 (64 * r + k * (fmtBits f / 8)) (leBytes (fmtBits f / 8) x)

/-- The element `k` of a register as readable in this cycle. -/
def regElem (c : Core) (f : Fmt) (r k : Nat) : Nat := elemAt (fmtBits f) (vRead c r) k

/-- One beat of a register-form element operation at cycle `t` (R162–R167). -/
def regBeat (o : VOp) (r : RegForm) (extra : Nat) (j : VecJob) (c : Core) : Core × List Raise :=
  let e := o.elems r.fmt
  let g := o.out r.fmt
  let tm := o.time r.fmt
  let ready := j.start + (j.unit + 1) * tm.1 - 1 + tm.2
  let ks := (List.range 16).map (16 * j.unit + ·) |>.filter (fun k => decide (k < e))
  let sv := j.sval.toNat % 2 ^ fmtBits r.fmt
  let pq := predVal c (Fin.ofNat 16 extra)
  let res := ks.map fun k =>
    let on := j.act.getLsbD k
    let a := if r.scal && decide (o = .vmov) then sv else regElem c r.fmt r.va k
    let b := if r.scal then sv else if o.arity = 1 then 0 else regElem c r.fmt r.vb k
    let cc := if o.arity = 3 then regElem c r.fmt r.vc k else 0
    let m := pepperMode r.rnd j.seed (j.s2.toNat % 2 ^ 32) j.pstep.toNat (j.s3.toNat + k)
    (k, on, if on then o.elem r.fmt m a b cc (pq.getLsbD k) else (0, none))
  let flags := res.filterMap fun y => y.2.2.2.map fun f => (f, y.1)
  let last := decide (j.unit + 1 = j.units)
  let ws : List PWrite :=
    match o with
    | .cmp _ =>
      let put (q : DWord × DWord) (y : Nat × Bool × Nat × VFlag) : DWord × DWord :=
        if y.2.1 || r.zm then (q.1 ||| BitVec.ofNat 64 (2 ^ y.1), q.2 ||| BitVec.ofNat 64 (y.2.2.1 * 2 ^ y.1)) else q
      let q := res.foldl put (0, 0)
      let hi : DWord := if last then BitVec.ofNat 64 (2 ^ 64 - 2 ^ e) else 0
      [.p extra (q.1 ||| hi) q.2]
    | _ => (res.map fun y => if y.2.1 || r.zm then elemWrite g r.vd y.1 y.2.2.1 else []).flatten
  let w := regWrite c ready true ws
  ({ w.1 with pend := w.1.pend ++ flagPends ready j.opIdx flags }, w.2)

/-- One beat of a descriptor-form element operation (R172, R173, R185). -/
def descBeat (o : VOp) (r : DescForm) (j : VecJob) (c : Core) : Core × List Raise :=
  match j.dst with
  | none => (c, [])
  | some d =>
    let sf := match j.src1 with | some y => y.fmt | none => d.fmt
    let tm := o.time sf
    let ready := j.start + 2 + (j.unit + 1) * tm.1 - 1 + tm.2
    let per := ceilDiv (d.ext 0) 16
    let n0 := j.unit / per * d.ext 0 + 16 * (j.unit % per)
    let cnt := min 16 (d.ext 0 - 16 * (j.unit % per))
    let get (t : Option TDesc) (ix : List Nat) : Nat := match t with | some y => y.read c ix | none => 0
    let sv := j.sval.toNat % 2 ^ fmtBits sf
    let res := (List.range cnt).map fun l =>
      let n := n0 + l
      let ix := unlinear d.n n
      let on := maskOn c j.mask ix
      let a := if r.scal && decide (o = .vmov) then sv else get j.src1 ix
      let b := if r.scal then sv else get j.src2 ix
      let cc := if o.arity = 3 then d.read c ix else 0
      let m := pepperMode d.rnd j.seed d.stream j.pstep.toNat (d.idxBase + n)
      (n, ix, on, if on then o.elem sf m a b cc false else (0, none))
    let ws := (res.map fun y => if y.2.2.1 || d.zmask then d.write y.2.1 y.2.2.2.1 else []).flatten
    let flags := res.filterMap fun y => y.2.2.2.2.map fun f => (f, y.1 % 2 ^ 32)
    let hit := (ws.filterMap csTarget).any fun a => wawHit c ready a 1
    ({ c with pend := c.pend ++ ws.map (fun w => ⟨ready, true, w⟩) ++ flagPends ready j.opIdx flags },
      if hit then [(0x015B, 3, 0, 0)] else [])

/-- The descriptors of a descriptor-form element operation: destination, sources and mask, checked under R171–R173. -/
def descParts (o : VOp) (r : DescForm) (c : Core) : Option (TDesc × Option TDesc × Option TDesc × Option TDesc) :=
  let one (need : Bool) (field : Nat) : Option (Option TDesc) :=
    if need then (match readTensor c field with | some t => some (some t) | none => none) else some none
  match readTensor c r.dd.toNat, one (!(r.scal && decide (o = .vmov))) r.da.toNat,
      one (!r.scal && decide (o.arity ≠ 1)) r.db.toNat, (readTensor c r.dd.toNat).bind (maskOf c) with
  | some d, some a, some b, m =>
    let fits (t : Option TDesc) : Bool := match t with | some y => y.fits d | none => true
    if fits a && fits b then
      match m with
      | none => some (d, a, b, none)
      | some none => none
      | some (some k) => some (d, a, b, some k)
    else none
  | _, _, _, _ => none

/-- Pipe cycles of a descriptor-form element operation from its descriptors (R166, R470). -/
def descOcc (o : VOp) (r : DescForm) (c : Core) : Nat :=
  match descParts o r c with
  | some (d, a, _, _) => 2 + d.beats * (o.time (match a with | some y => y.fmt | none => d.fmt)).1
  | none => 0

/-- Formats of a descriptor-form operation (Table 8-1, R168). -/
def descFmtOk (o : VOp) (d : TDesc) (a b : Option TDesc) : Bool :=
  let sf := match a with | some y => y.fmt | none => d.fmt
  (match o with
   | .cvt _ => decide (sf ≠ d.fmt)
   | .vmov | .band | .bor | .bxor | .vsel =>
     decide (fmtBits sf ≠ 4) && decide (fmtBits sf = fmtBits d.fmt)
   | _ => o.fmtOk sf && decide (sf = d.fmt)) &&
  (match b with
   | some y => (match o with
     | .band | .bor | .bxor => decide (fmtBits y.fmt = fmtBits sf)
     | _ => decide (y.fmt = sf))
   | none => true)

/-- The operation of a descriptor form: V.CVT converts to the destination's format (Table 12-7). -/
def descOp (o : VOp) (d : TDesc) : VOp :=
  match o with
  | .cvt _ => .cvt d.fmt
  | _ => o

/-- Address and overlap causes of a destination, the sources and the mask (R174, R470): only a source may coincide with the
destination. -/
def rangeBad (d : Option TDesc) (rs : List (Option TDesc)) (m : Option TDesc) : List Raise :=
  let ts := rs.filterMap id
  let ms := m.toList
  let all := ts ++ ms ++ (match d with | some y => [y] | none => [])
  (if all.all TDesc.inStore then [] else [(0x0132, 3, 0, 0)]) ++
  (match d with
   | some y => if all.all TDesc.inStore && (ts.any (fun t => y.overlap t) || ms.any fun m => y.shares m)
     then [(0x0133, 3, 0, y.base)] else []
   | none => [])

/-- An element operation in register form at a core. -/
def vRegCore (i : Instr) (o : VOp) (p : Reg4) (r : RegForm) (extra : Nat) (x : CoreIn) (c : Core) : Core × List Raise :=
  let units := o.elems r.fmt / 16
  let tm := o.time r.fmt
  pipeTake x c (units * tm.1) fun op c =>
    if !o.fmtOk r.fmt then (c, [(fmtCause o, 3, 0, 0)])
    else
      let j := { newJob i x op units x.now (predVal c p) with
        sval := wordS x r.vb, s2 := wordS x r.sp, s3 := wordS x (r.sp.val + 1) }
      let b := regBeat o r extra j c
      let j1 := { j with unit := 1, nextAt := x.now + tm.1 }
      ({ b.1 with job := if units ≤ 1 then none else some j1,
                  vecDone := max b.1.vecDone (x.now + units * tm.1 - 1 + tm.2) }, b.2)

/-- An element operation in descriptor form at a core: the descriptors are read and checked on every core; beats follow
from cycle c + 2 (R166, R173, R470). -/
def vDescCore (i : Instr) (o : VOp) (p : Reg4) (r : DescForm) (ref : Nat) (x : CoreIn) (c : Core) : Core × List Raise :=
  pipeTake x c (max 2 (descOcc o r c)) fun op c =>
    match descParts o r c with
    | none =>
      let fs := [r.dd.toNat] ++ (if r.scal && decide (o = .vmov) then [] else [r.da.toNat]) ++
        (if !r.scal && decide (o.arity ≠ 1) then [r.db.toNat] else [])
      (c, [(descCause c fs, 3, 0, 32 * r.dd.toNat)])
    | some (d, a, b, m) =>
      let o := descOp o d
      let tm := o.time (match a with | some y => y.fmt | none => d.fmt)
      if descOcc o r c ≠ ref then (c, [(0x0131, 3, 0, 32 * r.dd.toNat)])
      else if !descFmtOk o d a b || fnRounds o d then (c, [(fmtCause o, 3, 0, 32 * r.dd.toNat)])
      else if !activeOn c p then (c, [])
      else
        let bad := rangeBad (some d) [a, b] m
        if !bad.isEmpty then (c, bad)
        else if d.beats = 0 then (c, [])
        else
          ({ c with job := some { newJob i x op d.beats (x.now + 2) (predVal c p) with
                      sval := wordS x (r.db.toNat % 64), dst := some d, src1 := a, src2 := b, mask := m },
                    vecDone := max c.vecDone (x.now + 2 + d.beats * tm.1 - 1 + tm.2) }, [])

/-- An element operation of either form (R162–R174). -/
def vElem (d : Die) (op : Nat) (i : Instr) (s : State) : Host.Outcome State Fault Refusal :=
  match vopOf i with
  | none => .refused .reserved
  | some (o, p, f, extra) =>
    if vFormOk o f then
      match f with
      | .reg r => .next (slotOp s d (0x400 + op) (vRegCore i o p r extra))
      | .desc r => .next (vecSlot s d (0x400 + op) (descOcc o r) (vDescCore i o p r))
    else .refused .reserved

/-- One beat of an element operation in the pipe. -/
def elemBeat (j : VecJob) (c : Core) : Core × List Raise :=
  match vopOf j.instr with
  | some (o, _, .reg r, extra) => regBeat o r extra j c
  | some (o, _, .desc r, _) =>
    match j.dst with
    | some d => descBeat (descOp o d) r j c
    | none => (c, [])
  | none => (c, [])

/-- Cycles from one beat to the next. -/
def elemStep (j : VecJob) : Nat :=
  match vopOf j.instr with
  | some (o, _, .reg r, _) => (o.time r.fmt).1
  | some (o, _, .desc _, _) => (o.time (match j.src1, j.dst with | some y, _ => y.fmt | none, some d => d.fmt | _, _ => .p8)).1
  | none => 1

/-! ### Meanings -/

/-- V.MOV (R166). -/
def execVMov (d : Die) (p : Reg4) (f : VForm) (s : State) : Host.Outcome State Fault Refusal := vElem d 0x01 (.vMov d p f) s
/-- V.AND (R166). -/
def execVAnd (d : Die) (p : Reg4) (f : VForm) (s : State) : Host.Outcome State Fault Refusal := vElem d 0x02 (.vAnd d p f) s
/-- V.OR (R166). -/
def execVOr (d : Die) (p : Reg4) (f : VForm) (s : State) : Host.Outcome State Fault Refusal := vElem d 0x03 (.vOr d p f) s
/-- V.XOR (R166). -/
def execVXor (d : Die) (p : Reg4) (f : VForm) (s : State) : Host.Outcome State Fault Refusal := vElem d 0x04 (.vXor d p f) s
/-- V.SEL (R166). -/
def execVSel (d : Die) (p : Reg4) (zm : Bool) (f : Fmt) (vd va vb : Reg6) (pq : Reg4) (s : State) :
    Host.Outcome State Fault Refusal := vElem d 0x05 (.vSel d p zm f vd va vb pq) s
/-- V.NEG (R169). -/
def execVNeg (d : Die) (p : Reg4) (f : VForm) (s : State) : Host.Outcome State Fault Refusal := vElem d 0x08 (.vNeg d p f) s
/-- V.ABS (R169). -/
def execVAbs (d : Die) (p : Reg4) (f : VForm) (s : State) : Host.Outcome State Fault Refusal := vElem d 0x09 (.vAbs d p f) s
/-- V.MAX (R76, R77). -/
def execVMax (d : Die) (p : Reg4) (f : VForm) (s : State) : Host.Outcome State Fault Refusal := vElem d 0x0A (.vMax d p f) s
/-- V.MIN (R76, R77). -/
def execVMin (d : Die) (p : Reg4) (f : VForm) (s : State) : Host.Outcome State Fault Refusal := vElem d 0x0B (.vMin d p f) s
/-- V.CMP (R75, R163). -/
def execVCmp (d : Die) (p : Reg4) (zm scal : Bool) (f : Fmt) (pd : Reg4) (va vb : Reg6) (cc : CmpCond) (s : State) :
    Host.Outcome State Fault Refusal := vElem d 0x0C (.vCmp d p zm scal f pd va vb cc) s
/-- V.ADD (R169, R170). -/
def execVAdd (d : Die) (p : Reg4) (f : VForm) (s : State) : Host.Outcome State Fault Refusal := vElem d 0x10 (.vAdd d p f) s
/-- V.SUB (R169, R170). -/
def execVSub (d : Die) (p : Reg4) (f : VForm) (s : State) : Host.Outcome State Fault Refusal := vElem d 0x11 (.vSub d p f) s
/-- V.MUL (R169, R170). -/
def execVMul (d : Die) (p : Reg4) (f : VForm) (s : State) : Host.Outcome State Fault Refusal := vElem d 0x12 (.vMul d p f) s
/-- V.FMA (R169, R170). -/
def execVFma (d : Die) (p : Reg4) (f : VForm) (s : State) : Host.Outcome State Fault Refusal := vElem d 0x13 (.vFma d p f) s
/-- V.CVT (R68–R74). -/
def execVCvt (d : Die) (p : Reg4) (f : VForm) (t : Fmt) (s : State) : Host.Outcome State Fault Refusal :=
  vElem d 0x14 (.vCvt d p f t) s
/-- V.FN, element functions (R192, R193). -/
def execVFn (d : Die) (p : Reg4) (f : VForm) (fn : ElemFn) (s : State) : Host.Outcome State Fault Refusal :=
  vElem d 0x18 (.vFn d p f fn) s
/-- V.FN, fused gates (R200). -/
def execVFnGate (d : Die) (p : Reg4) (f : VForm) (fn : GateFn) (s : State) : Host.Outcome State Fault Refusal :=
  vElem d 0x18 (.vFnGate d p f fn) s

/-- V.PLOG on predicate bits (Table 12-7). -/
def plogFn (o : PlogOp) (a b : DWord) : DWord :=
  match o with
  | .and => a &&& b
  | .or => a ||| b
  | .xor => a ^^^ b
  | .andNot => a &&& ~~~b

/-- One beat of V.PLOG: 16 bits of Pd (R163, R166). -/
def plogBeat (zm : Bool) (o : PlogOp) (pd pa pb : Reg4) (j : VecJob) (c : Core) : Core × List Raise :=
  let beat : DWord := BitVec.ofNat 64 (0xFFFF * 2 ^ (16 * j.unit))
  let mask : DWord := if zm then beat else j.act &&& beat
  regWrite c (j.start + j.unit + 1) true [.p pd mask (plogFn o (predVal c pa) (predVal c pb) &&& j.act)]

/-- V.PLOG at a core: 64 bits in 4 beats (R163, R166, R188). -/
def plogCore (i : Instr) (p : Reg4) (zm : Bool) (o : PlogOp) (pd pa pb : Reg4) (x : CoreIn) (c : Core) :
    Core × List Raise :=
  pipeTake x c 4 fun op c =>
    let j := newJob i x op 4 (x.now + 1) (predVal c p)
    let b := plogBeat zm o pd pa pb j c
    ({ b.1 with job := some { j with unit := 1 }, vecDone := max b.1.vecDone (x.now + 4) }, b.2)

/-- V.PLOG (R163). -/
def execVPlog (d : Die) (p : Reg4) (zm : Bool) (o : PlogOp) (pd pa pb : Reg4) (s : State) :
    Host.Outcome State Fault Refusal :=
  .next (slotOp s d 0x406 (plogCore (.vPlog d p zm o pd pa pb) p zm o pd pa pb))

end Sys2Proof.Machine
end

