-- ==== Sys2Proof/Machine/Reduce.lean ====
section
/-! DEFINITION. Lane quires and reductions of the vector engine (R175–R183). -/
namespace Sys2Proof.Machine

/-! ### Lane quires (R175–R177) -/

/-- Lane quire `l`. -/
def laneAcc (c : Core) (l : Nat) : AccQ := vget c.lq l (AccQ.zero .p8)

/-- Setting lane quire `l`. -/
def setLane (c : Core) (l : Nat) (a : AccQ) : Core := { c with lq := vset c.lq l a }

/-- The bits of a binary32 −0. -/
def isNegZero (x : Nat) : Bool := decide (x % 2 ^ 32 = 0x80000000)

/-- Adding a binary32 element to a binary32 quire (R176): shift λ + 240, marks PINF, NINF, NAN and NEGZ. -/
def addB32 (q : Quire) (x : Nat) : Quire :=
  let z := isNegZero x && (decide (q.terms = 0) || q.negz)
  let q1 := { q with negz := z }
  match decodeNum .b32 x with
  | .nan => { q1.addTerm (some (0, 0)) 1 (2 ^ 31 - 1) with nan := true }
  | .inf neg => { q1.addTerm (some (0, 0)) 1 (2 ^ 31 - 1) with pinf := q.pinf || !neg, ninf := q.ninf || neg }
  | .fin _ _ => q1.addTerm (positTerm .p32 .b32 x) 1 (2 ^ 31 - 1)

/-- Adding a term of a source element to its lane: x, or x × x for SUMSQ (R179). -/
def laneAdd (sq : Bool) (f : Fmt) (c : Core) (l x : Nat) : Core :=
  let a := laneAcc c l
  let q := if f = .b32 then addB32 a.q x
    else a.q.addTerm (if sq then prodTerm f f f 0 x x else positTerm f f x) 1 (accLimit c a)
  setLane c l { a with q := q }

/-- A lane quire with its base as a long quire of format `f` (R82, R92). -/
def laneLong (c : Core) (f : Fmt) (l : Nat) : Quire :=
  let a := laneAcc c l
  match a.base with
  | none => a.q.toLong f
  | some b => (longAdd (readImage c a.q.fmt b).1 (a.q.toLong a.q.fmt)).toLong f

/-- Whether the residues of a lane quire and its base hold (R96). -/
def laneResOk (c : Core) (l : Nat) : Bool :=
  let a := laneAcc c l
  a.q.resOk && (match a.base with | some b => (readImage c a.q.fmt b).1.resOk | none => true)

/-- The widest posit format of several lanes (R177). -/
def widestFmt (c : Core) (ls : List Nat) : Fmt :=
  ls.foldl (fun f l => let g := (laneAcc c l).q.fmt; if fmtBits f < fmtBits g then g else f) .p8

/-- The exact sum of binary32 lane quires, with their marks (R176). -/
def combineB32 (qs : List Quire) : Quire :=
  let live := qs.filter fun q => decide (q.terms ≠ 0)
  let q : Quire := { Quire.zero .b32 with
    val := (qs.map (·.val)).foldl (· + ·) 0, terms := (qs.map (·.terms)).foldl (· + ·) 0,
    res := (qs.map (·.res)).foldl (· + ·) 0 % resMod, sat := qs.any (·.sat), nar := qs.any (·.nar),
    pinf := qs.any (·.pinf), ninf := qs.any (·.ninf), nan := qs.any (·.nan),
    negz := !live.isEmpty && live.all (·.negz) }
  q

/-- The exact sum of the named lanes, which hold one kind of format (R177, R179). Its term limit is that of an image, 2^63 − 1
(DESIGN CHOICE, log 51). -/
def combineLanes (c : Core) (ls : List Nat) : Quire :=
  if ls.any fun l => decide ((laneAcc c l).q.fmt = .b32) then combineB32 (ls.map fun l => (laneAcc c l).q)
  else
    let f := widestFmt c ls
    (ls.map (laneLong c f)).foldl longAdd (imgZero f)

/-- Rounding a combined sum once, divided by `n`; at most one flag (R93, R176, R182; QSAT 7). -/
def roundLanes (out : Fmt) (m : Rnd) (n : Nat) (q : Quire) : Nat × VFlag :=
  if q.sat then (nanBits out, some 7)
  else if q.fmt = .b32 then
    if q.nan then ((convertNum out m .nan).1, if isIntFmt out then some 3 else none)
    else if q.pinf && q.ninf then (nanBits out, some 1)
    else if q.pinf || q.ninf then (let r := convertNum out m (.inf q.ninf); (r.1, r.2.map condFlag))
    else if q.val = 0 then (zeroBits out q.negz, none)
    else
      let r := convertNum out m (numOf ((Frac.scale2 (Frac.ofInt q.val) (-240)).mul ⟨1, n⟩))
      (r.1, r.2.map condFlag)
  else
    let x : Num := match q.num with | .fin s v => .fin s (v.mul ⟨1, n⟩) | y => y
    let r := convertNum out m x
    (r.1, r.2.map condFlag)

/-! ### Reductions (R178–R183) -/

/-- Kinds that accumulate in the lane quires. -/
def isSum : RedKind → Bool
  | .sum => true
  | .sumsq => true
  | .mean => true
  | _ => false

/-- Cycles per beat and latency of V.RED (Table 8-1). -/
def redTime (k : RedKind) : Nat × Nat := if k = .prod then (4, 17) else (1, 9)

/-- Formats of V.RED (R178, R179). -/
def redFmtOk (a : RedArgs) (f : Fmt) : Bool :=
  (isPosit f || decide (f = .b32)) && !(decide (f = .b32) && (decide (a.kind = .sumsq) || a.qout))

/-- Work of an output before its first beat: the lanes zeroed with START, PROD lanes at 1 (R179, R181). -/
def redStart (a : RedArgs) (f : Fmt) (j : VecJob) (c : Core) : VecJob × Core :=
  ({ j with count := 0, best := none,
            lanes := if a.kind = .prod then List.replicate 16 (oneBits f) ++ List.replicate 16 0 else [] },
    if isSum a.kind && a.start then { c with lq := Vector.replicate 16 (AccQ.zero f) } else c)

/-- Whether the lanes hold the source's quire format (R179); checked where START = 0. -/
def redLanesOk (a : RedArgs) (f : Fmt) (c : Core) : Bool :=
  !isSum a.kind || a.start || (List.range 16).all fun l => decide ((laneAcc c l).q.fmt = f)

/-- A running best (value, index): the greater under R76 or R77 (the lesser for minima), then the lower index (R78). -/
def redBest (isMin : Bool) (f : Fmt) (best : Option (Nat × Nat)) (x ix : Nat) : Option (Nat × Nat) :=
  if (decodeNum f x).isNan then best
  else
    match best with
    | none => some (x, ix)
    | some (v, i) =>
      let gt := if isMin then totalLt f x v else totalLt f v x
      let lt := if isMin then totalLt f v x else totalLt f x v
      if gt || (!lt && decide (ix < i)) then some (x, ix) else some (v, i)

/-- One active element `x` at beat position `l` with index `ix`. -/
def redElem (a : RedArgs) (f : Fmt) (jc : VecJob × Core) (y : Nat × Nat × Nat) : VecJob × Core :=
  let (l, x, ix) := y
  let j := { jc.1 with count := jc.1.count + 1 }
  match a.kind with
  | .sum => (j, laneAdd false f jc.2 l x)
  | .sumsq => (j, laneAdd true f jc.2 l x)
  | .mean => (j, laneAdd false f jc.2 l x)
  | .count => (j, jc.2)
  | .prod =>
    let r := arithElem .mul f .rne (nth j.lanes l 0) x 0
    let fl := match r.2 with | some k => if nth j.lanes (16 + l) 0 = 0 then k + 1 else nth j.lanes (16 + l) 0
                             | none => nth j.lanes (16 + l) 0
    ({ j with lanes := (j.lanes.set l r.1).set (16 + l) fl }, jc.2)
  | .max => ({ j with best := redBest false f j.best x ix }, jc.2)
  | .maxloc => ({ j with best := redBest false f j.best x ix }, jc.2)
  | .min => ({ j with best := redBest true f j.best x ix }, jc.2)
  | .minloc => ({ j with best := redBest true f j.best x ix }, jc.2)

/-- One multiplication of the product tree, keeping the first flag. -/
def prodStep (f : Fmt) (x y : Nat × VFlag) : Nat × VFlag :=
  let r := arithElem .mul f .rne x.1 y.1 0
  (r.1, match x.2 with | some k => some k | none => (match y.2 with | some k => some k | none => r.2))

/-- ((0·1)·(2·3))·((4·5)·(6·7)) over eight lanes (R181). -/
def prodEight (f : Fmt) (v : Nat → Nat × VFlag) : Nat × VFlag :=
  prodStep f (prodStep f (prodStep f (v 0) (v 1)) (prodStep f (v 2) (v 3)))
    (prodStep f (prodStep f (v 4) (v 5)) (prodStep f (v 6) (v 7)))

/-- The product of an output and its flag: the lanes' own first, in ascending lane (R181). -/
def redProd (f : Fmt) (lanes : List Nat) : Nat × VFlag :=
  let own := firstIdx (fun k => decide (k ≠ 0)) (lanes.drop 16) 0
  let r := prodStep f (prodEight f fun l => (nth lanes l 0, none)) (prodEight f fun l => (nth lanes (8 + l) 0, none))
  (r.1, match own with | some l => some (nth lanes (16 + l) 0 - 1) | none => r.2)

/-- A finished output: its size in nibbles, its value, its flag, and the lane whose residue fails (R178, R182, Table 8-5). -/
structure RedOut where
  nibs : Nat
  val : Nat
  flag : VFlag
  bad : Option Nat
  deriving DecidableEq, Repr

/-- The result of an output under rounding mode `m` and output format `out`. -/
def redFinish (a : RedArgs) (f out : Fmt) (m : Rnd) (j : VecJob) (c : Core) : RedOut :=
  let w := fmtBits f / 4
  let ext (loc : Bool) : RedOut :=
    let b := match j.best with | some b => b | none => (nanBits f, 0xFFFFFFFF)
    let fl : VFlag := if j.count = 0 then some 6 else none
    if loc then ⟨16, b.1 + 2 ^ 32 * (b.2 % 2 ^ 32), fl, none⟩ else ⟨w, b.1, fl, none⟩
  let sum (mean : Bool) : RedOut :=
    let q := combineLanes c (List.range 16)
    let bad := firstIdx (fun l => !laneResOk c l) (List.range 16) 0
    if a.qout then ⟨2 * imgSize q.fmt, leNat (imgBytes q), none, bad⟩
    else if mean && decide (q.terms = 0) then ⟨fmtBits out / 4, nanBits out, some 6, bad⟩
    else
      let r := roundLanes out m (if mean then q.terms else 1) q
      ⟨fmtBits out / 4, r.1, r.2, bad⟩
  match a.kind with
  | .sum => sum false
  | .sumsq => sum false
  | .mean => sum true
  | .prod => let r := redProd f j.lanes; ⟨w, r.1, r.2, none⟩
  | .count => ⟨8, j.count % 2 ^ 32, none, none⟩
  | .max => ext false
  | .min => ext false
  | .maxloc => ext true
  | .minloc => ext true

/-- The detected fault of a residue that fails in a lane (R96). -/
def laneResRaise (b : Option Nat) : List Raise :=
  match b with
  | some l => [(0x0004, 3, 16 + l, 0)]
  | none => []

/-- Output size z in nibbles from the formats alone (Table 8-4). -/
def redNibs (a : RedArgs) (f out : Fmt) : Nat :=
  match a.kind with
  | .count => 8
  | .maxloc => 16
  | .minloc => 16
  | .prod => fmtBits f / 4
  | .max => fmtBits f / 4
  | .min => fmtBits f / 4
  | _ => if a.qout then 2 * imgSize f else fmtBits out / 4

/-- Writing `n` nibbles of a value at nibble address `a` of core store. -/
def nibWrites (a n v : Nat) : List PWrite :=
  if n = 1 then [.csn (a / 2) (decide (a % 2 = 1)) v]
  else (leBytes (n / 2) v).mapIdx fun k b => .cs (a / 2 + k) b

/-- Writing `n` nibbles of a value to a register from element 0. -/
def nibRegs (r n v : Nat) : List PWrite :=
  if n = 1 then [.vn (64 * r) false v] else vPends 0 (64 * r) (leBytes (n / 2) v)

/-- Timed core store writes of the VEC slot, with the CS_WAW condition. -/
def vecStore (c : Core) (ready : Nat) (ws : List PWrite) : Core × List Raise :=
  let hit := (ws.filterMap csTarget).any fun a => wawHit c ready a 1
  ({ c with pend := c.pend ++ ws.map (fun w => ⟨ready, true, w⟩) }, if hit then [(0x015B, 3, 0, 0)] else [])

/-- Elements of a descriptor beat: linear index, index and position (R172). -/
def beatElems (d : TDesc) (unit : Nat) : List (Nat × Nat × List Nat) :=
  let per := ceilDiv (d.ext 0) 16
  let n0 := unit / per * d.ext 0 + 16 * (unit % per)
  (List.range (min 16 (d.ext 0 - 16 * (unit % per)))).map fun l => (l, n0 + l, unlinear d.n (n0 + l))

/-- Product of the first `k` extents. -/
def TDesc.inner (d : TDesc) (k : Nat) : Nat := (d.n.take k).foldl (· * ·) 1

/-- Number of outputs of a descriptor reduction of dimensions 0 to `k` − 1. -/
def TDesc.outer (d : TDesc) (k : Nat) : Nat := (d.n.drop k).foldl (· * ·) 1

/-- Output `j` of a descriptor reduction: its write, its flag, readable from `ready`. -/
def redEmit (a : RedArgs) (f : Fmt) (o j ready : Nat) (job : VecJob) (d : TDesc) (c : Core) : Core × List Raise :=
  if a.emit then
    let m := pepperMode d.rnd job.seed d.stream job.pstep.toNat (d.idxBase + j)
    let r := redFinish a f d.fmt m job c
    let w := vecStore c ready (nibWrites (2 * d.base + j * r.nibs) r.nibs r.val)
    ({ w.1 with pend := w.1.pend ++ flagPends ready o (match r.flag with | some k => [(k, j)] | none => []) },
      w.2 ++ laneResRaise r.bad)
  else (c, [])

/-- One beat of a descriptor reduction (R179–R183). The job comes back with its running result. -/
def redDescBeat (a : RedArgs) (j : VecJob) (c : Core) : VecJob × Core × List Raise :=
  match j.src1, j.dst with
  | some s, some d =>
    let k := a.rdims.val + 1
    let per := s.inner k
    let es := beatElems s j.unit
    let n0 := match es.head? with | some e => e.2.1 | none => 0
    let st := if n0 % per = 0 then redStart a s.fmt j c else (j, c)
    if n0 % per = 0 ∧ redLanesOk a s.fmt st.2 = false then
      ({ j with unit := j.units }, c, [(0x0136, 3, 16, 0)])
    else
      let act := es.filter fun e => maskOn c j.mask e.2.2
      let items := act.map fun e => (e.1, s.read c e.2.2, (s.idxBase + e.2.1 % per) % 2 ^ 32)
      let r := items.foldl (redElem a s.fmt) st
      let tm := redTime a.kind
      let last := n0 + es.length
      if last % per = 0 then
        let e := redEmit a s.fmt j.opIdx (last / per - 1) (j.start + 2 + (j.unit + 1) * tm.1 - 1 + tm.2) r.1 d r.2
        (r.1, e.1, e.2)
      else (r.1, r.2, [])
  | _, _ => (j, c, [])

/-- One beat of a register reduction (R178). -/
def redRegBeat (a : RedArgs) (r : RegForm) (j : VecJob) (c : Core) : VecJob × Core × List Raise :=
  let st := if j.unit = 0 then redStart a r.fmt j c else (j, c)
  if j.unit = 0 ∧ redLanesOk a r.fmt st.2 = false then ({ j with unit := j.units }, c, [(0x0136, 3, 16, 0)])
  else
    let ks := ((List.range 16).map (16 * j.unit + ·)).filter fun k => j.act.getLsbD k
    let items := ks.map fun k => (k % 16, regElem c r.fmt r.va k, k)
    let y := items.foldl (redElem a r.fmt) st
    if j.unit + 1 = j.units ∧ a.emit = true then
      let tm := redTime a.kind
      let ready := j.start + j.units * tm.1 - 1 + tm.2
      let m := pepperMode r.rnd j.seed (j.s2.toNat % 2 ^ 32) j.pstep.toNat j.s3.toNat
      let o := redFinish a r.fmt (if isSum a.kind then a.out else r.fmt) m y.1 y.2
      let w := regWrite y.2 ready true (nibRegs r.vd o.nibs o.val)
      let fl := flagPends ready j.opIdx (match o.flag with | some k => [(k, 0)] | none => [])
      (y.1, { w.1 with pend := w.1.pend ++ fl }, w.2 ++ laneResRaise o.bad)
    else (y.1, y.2, [])

/-- A reduction in register form at a core. -/
def redRegCore (i : Instr) (p : Reg4) (r : RegForm) (a : RedArgs) (x : CoreIn) (c : Core) : Core × List Raise :=
  let units := regElems r.fmt / 16
  let tm := redTime a.kind
  pipeTake x c (units * tm.1) fun op c =>
    if !redFmtOk a r.fmt then (c, [(0x0130, 3, 0, 0)])
    else
      let j := { newJob i x op units (x.now + tm.1) (predVal c p) with
        s2 := wordS x r.sp, s3 := wordS x (r.sp.val + 1) }
      let b := redRegBeat a r j c
      ({ b.2.1 with job := if units ≤ b.1.unit + 1 then none else some { b.1 with unit := 1 },
                    vecDone := max c.vecDone (x.now + units * tm.1 - 1 + tm.2) }, b.2.2)

/-- The descriptors of a reduction, checked under R171–R173 and R178: source, destination, mask of the source. -/
def redParts (a : RedArgs) (r : DescForm) (c : Core) : Option (TDesc × TDesc × Option TDesc) :=
  match readTensor c r.da.toNat, readTensor c r.dd.toNat with
  | some s, some d =>
    let k := a.rdims.val + 1
    let extOk := decide (k = s.rank) || decide (d.n = s.n.drop k ++ List.replicate k 1)
    if k ≤ s.rank ∧ extOk = true then
      match maskOf c s with
      | none => some (s, d, none)
      | some none => none
      | some (some m) => some (s, d, some m)
    else none
  | _, _ => none

/-- Pipe cycles of a descriptor reduction. -/
def redOcc (a : RedArgs) (r : DescForm) (c : Core) : Nat :=
  match redParts a r c with
  | some (s, _, _) => 2 + s.beats * (redTime a.kind).1
  | none => 0

/-- Whether `n` nibbles at nibble `a` of core store share a byte with a tensor. -/
def nibsTouch (a n : Nat) (t : TDesc) : Bool := decide (0 < n) && t.touches (a / 2) ((a + n + 1) / 2 - a / 2)

/-- Address and overlap causes of a reduction (R174): outputs lie at BASE + z × j; quire images lie at a multiple
of 8 (R89). -/
def redBad (a : RedArgs) (s d : TDesc) (m : Option TDesc) : List Raise :=
  let n := if a.emit then redNibs a s.fmt d.fmt * s.outer (a.rdims.val + 1) else 0
  let ms := m.toList
  if !(s :: ms).all TDesc.inStore || (decide (0 < n) && decide (2 * csSize < 2 * d.base + n)) || (a.emit && a.qout && decide (d.base % 8 ≠ 0)) then
    [(0x0132, 3, 0, d.base)]
  else if (([s].filter fun t => !(d.same t)) ++ ms).any (nibsTouch (2 * d.base) n) then [(0x0133, 3, 0, d.base)]
  else []

/-- Outputs that have no beat (R183), in order; two outputs of the operation may share a byte (R174). -/
def redNoBeat (a : RedArgs) (j : VecJob) (s d : TDesc) (c : Core) : Core × List Raise :=
  let tm := redTime a.kind
  let y := (List.range (s.outer (a.rdims.val + 1))).foldl (fun acc k =>
    let st := redStart a s.fmt j acc.1
    if redLanesOk a s.fmt st.2 then
      let e := redEmit a s.fmt j.opIdx k (j.start + 2 + tm.1 - 1 + tm.2) st.1 d st.2
      (e.1, acc.2 ++ e.2)
    else (acc.1, acc.2 ++ [(0x0136, 3, 16, 0)])) (c, [])
  let new := y.1.pend.drop c.pend.length
  (y.1, y.2.filter (fun r => decide (r.1 ≠ 0x015B)) ++
    (if new.any fun p => match csTarget p.w with | some b => wawHit c p.ready b 1 | none => false
      then [(0x015B, 3, 0, 0)] else []))

/-- A reduction in descriptor form at a core. -/
def redDescCore (i : Instr) (p : Reg4) (r : DescForm) (a : RedArgs) (ref : Nat) (x : CoreIn) (c : Core) :
    Core × List Raise :=
  pipeTake x c (max 2 (redOcc a r c)) fun op c =>
    match redParts a r c with
    | none => (c, [(descCause c [r.da.toNat, r.dd.toNat], 3, 0, 32 * r.da.toNat)])
    | some (s, d, m) =>
      let tm := redTime a.kind
      if redOcc a r c ≠ ref then (c, [(0x0131, 3, 0, 32 * r.da.toNat)])
      else if !redFmtOk a s.fmt then (c, [(0x0130, 3, 0, 32 * r.da.toNat)])
      else if !a.start && !a.emit && decide (s.outer (a.rdims.val + 1) ≠ 1) then (c, [(0x0136, 3, 16, 0)])
      else if !activeOn c p then (c, [])
      else
        let bad := redBad a s d m
        if !bad.isEmpty then (c, bad)
        else
          let j := { newJob i x op s.beats (x.now + 2) (predVal c p) with dst := some d, src1 := some s, mask := m }
          if s.beats = 0 then
            let e := redNoBeat a j s d c
            ({ e.1 with vecDone := max c.vecDone (x.now + 2 + tm.1 - 1 + tm.2) }, e.2)
          else
            ({ c with job := some j, vecDone := max c.vecDone (x.now + 2 + s.beats * tm.1 - 1 + tm.2) }, [])

/-- Field values that Tables 12-5 to 12-7, R286 and R287 admit for V.RED. -/
def redOk (f : VForm) (a : RedArgs) : Bool :=
  match f with
  | .reg r =>
    !r.scal && (isSum a.kind || (decide (a.out = .p8) && !r.rnd)) && !a.qout && decide (a.rdims.val = 0) &&
    decide (r.vb = 0) && decide (r.vc = 0) && (if r.rnd then decide (r.sp.val % 2 = 0) else decide (r.sp = 0))
  | .desc r =>
    !r.scal && decide (r.dd.toNat < 1536) && decide (r.da.toNat < 1536) && decide (r.db = 0) && decide (r.sp = 0) &&
    decide (a.out = .p8) && (!a.qout || decide (a.kind = .sum) || decide (a.kind = .sumsq))

/-- V.RED (R178–R183). -/
def execVRed (d : Die) (p : Reg4) (f : VForm) (a : RedArgs) (s : State) : Host.Outcome State Fault Refusal :=
  if redOk f a then
    match f with
    | .reg r => .next (slotOp s d 0x419 (redRegCore (.vRed d p f a) p r a))
    | .desc r => .next (vecSlot s d 0x419 (redOcc a r) (redDescCore (.vRed d p f a) p r a))
  else .refused .reserved

/-! ### Lane and queue operations (R175, R177, R184, R187) -/

/-- V.POP at a core (R143, R184): the oldest entry goes whatever the predicate. -/
def popCore (p : Reg4) (vd : Reg6) (lq : Reg4) (qsum : Bool) (x : CoreIn) (c : Core) : Core × List Raise :=
  pipeTake x c 1 fun _ c =>
    match c.tq with
    | [] => (c, [(0x011E, 3, 0, 0)])
    | e :: rest =>
      if x.now < e.enter then (c, [(0x011E, 3, 0, 0)])
      else
        let c1 := { c with tq := rest, vecDone := max c.vecDone (x.now + 2) }
        if !activeOn c p then (c1, [])
        else
          let body := bytesOfElems e.fmt e.elems
          let lanes := match e.stat with | some t => leBytes 4 t.1 ++ leBytes 4 t.2.1 | none => zeros 8
          let st := leBytes 4 e.status.toNat ++ lanes ++ zeros 52
          let w := regWrite c1 (x.now + 2) true
            (vPends 0 (64 * vd) (body ++ zeros (64 - body.length)) ++ vPends 0 (64 * (vd.val + 1)) st)
          match e.stat, qsum with
          | some t, true =>
            let a := laneAcc w.1 lq
            if a.q.fmt = .b32 ∨ fmtBits a.q.fmt < fmtBits t.2.2.fmt then (w.1, w.2 ++ [(0x0136, 3, 16 + lq.val, 0)])
            else (setLane w.1 lq { a with q := a.q.addQuire t.2.2 (accLimit w.1 a) }, w.2)
          | _, _ => w

/-- V.POP (R184). -/
def execVPop (d : Die) (p : Reg4) (vd : Reg6) (lq : Reg4) (qsum : Bool) (s : State) :
    Host.Outcome State Fault Refusal :=
  if vd.val < 63 then .next (slotOp s d 0x420 (popCore p vd lq qsum)) else .refused .reserved

/-- V.QZERO at a core (R175, R80). It detaches a long base, as START of V.RED does (DESIGN CHOICE, log 51). -/
def qzeroCore (p : Reg4) (f : Fmt) (mask : BitVec 16) (x : CoreIn) (c : Core) : Core × List Raise :=
  pipeTake x c 1 fun _ c =>
    if activeOn c p then ((maskList mask).foldl (fun c l => setLane c l (AccQ.zero f)) c, []) else (c, [])

/-- V.QZERO (R175, R288): posit or binary32 quires. -/
def execVQzero (d : Die) (p : Reg4) (f : Fmt) (mask : BitVec 16) (s : State) : Host.Outcome State Fault Refusal :=
  if mask ≠ 0 ∧ (isPosit f || decide (f = .b32)) = true then .next (slotOp s d 0x421 (qzeroCore p f mask))
  else .refused .reserved

/-- V.QRND at a core (R177, R93, R96). -/
def qrndCore (p : Reg4) (rnd : Bool) (f : Fmt) (vd : Reg6) (mask : BitVec 16) (sp : Reg6) (x : CoreIn) (c : Core) :
    Core × List Raise :=
  pipeTake x c 1 fun op c =>
    let ls := maskList mask
    let c1 := { c with vecDone := max c.vecDone (x.now + 9) }
    if !activeOn c p then (c1, [])
    else
      let bin (l : Nat) : Bool := decide ((laneAcc c l).q.fmt = .b32)
      if ls.any bin && !ls.all bin then (c, [(0x0136, 3, 16 + ls.headD 0, 0)])
      else
        let m := pepperMode rnd x.seed ((wordS x sp).toNat % 2 ^ 32) x.issue.pstep.toNat (wordS x (sp.val + 1)).toNat
        let r := roundLanes f m 1 (combineLanes c ls)
        let pos := if r.2 = some 7 then
            (ls.find? fun l => (laneLong c (widestFmt c ls) l).sat || (laneAcc c l).q.sat).getD 0 else 0
        let w := regWrite c1 (x.now + 9) true (nibRegs vd (fmtBits f / 4) r.1)
        ({ w.1 with pend := w.1.pend ++ flagPends (x.now + 9) op (match r.2 with | some k => [(k, pos)] | none => []) },
          w.2 ++ laneResRaise (ls.find? fun l => !laneResOk c l))

/-- V.QRND (R177, R276, R288). -/
def execVQrnd (d : Die) (p : Reg4) (rnd : Bool) (f : Fmt) (vd : Reg6) (mask : BitVec 16) (sp : Reg6) (s : State) :
    Host.Outcome State Fault Refusal :=
  if decide (mask ≠ 0) && (if rnd then decide (sp.val % 2 = 0) else decide (sp = 0)) then .next (slotOp s d 0x422 (qrndCore p rnd f vd mask sp)) else .refused .reserved

/-- Pipe cycles of a lane quire spill or fill: 4 each, 8 for P32 (Table 8-1). -/
def laneCyc (c : Core) (l : Nat) : Nat := if (laneAcc c l).q.fmt = .p32 then 8 else 4

/-- Total over the lanes before each, of a size. -/
def laneOffsets (size : Nat → Nat) : List Nat → Nat → List (Nat × Nat)
  | [], _ => []
  | l :: ls, a => (l, a) :: laneOffsets size ls (a + size l)

/-- V.QSPILL at a core (R90, R177, R284). -/
def qspillCore (p : Reg4) (att : Bool) (mask ad : BitVec 16) (x : CoreIn) (c : Core) : Core × List Raise :=
  let ls := maskList mask
  pipeTake x c ((ls.map (laneCyc c)).foldl (· + ·) 0) fun _ c =>
    if !activeOn c p then (c, [])
    else
      match ls.find? (fun l => decide ((laneAcc c l).q.fmt = .b32)) with
      | some l => (c, [(0x0136, 3, 16 + l, 0)])
      | none =>
        let sz (l : Nat) : Nat := imgSize (laneAcc c l).q.fmt
        let tgt := (laneOffsets sz ls ad.toNat).map fun y => (y.1, spillBase (laneAcc c y.1).base att y.2)
        match tgt.find? (fun t => t.2.isNone) with
        | some t => (c, [(0x015A, 3, 16 + t.1, 0)])
        | none =>
          match tgt.find? (fun t => !csOk (t.2.getD 0) 8 (sz t.1)) with
          | some t => (c, [(0x0132, 3, 16 + t.1, t.2.getD 0)])
          | none =>
            let ends := (laneOffsets (laneCyc c) ls x.now).map fun y => (y.1, y.2 + laneCyc c y.1)
            (tgt.zip ends).foldl (fun acc y =>
              let l := y.1.1
              let b := y.1.2.getD 0
              let q := laneAcc acc.1 l
              let r := spillImage acc.1 q.q.fmt q.base.isNone b q.q
              let w := csWrite acc.1 y.2.2 b (imgBytes r.1) 3
              ({ setLane w.1 l { AccQ.zero q.q.fmt with base := some b } with vecDone := max w.1.vecDone y.2.2 },
                acc.2 ++ w.2 ++ (if r.2 then [] else [(0x0004, 3, 16 + l, 0)]))) (c, [])

/-- V.QSPILL (R90, R288). -/
def execVQspill (d : Die) (p : Reg4) (att : Bool) (mask ad : BitVec 16) (s : State) :
    Host.Outcome State Fault Refusal :=
  if mask = 0 then .refused .reserved else .next (slotOp s d 0x423 (qspillCore p att mask ad))

/-- V.QFILL at a core (R91, R177, R284). -/
def qfillCore (p : Reg4) (mask ad : BitVec 16) (x : CoreIn) (c : Core) : Core × List Raise :=
  let ls := maskList mask
  pipeTake x c ((ls.map (laneCyc c)).foldl (· + ·) 0) fun _ c =>
    if !activeOn c p then (c, [])
    else
      match ls.find? (fun l => decide ((laneAcc c l).q.fmt = .b32)) with
      | some l => (c, [(0x0136, 3, 16 + l, 0)])
      | none =>
        let sz (l : Nat) : Nat := imgSize (laneAcc c l).q.fmt
        let at_ := laneOffsets sz ls ad.toNat
        match at_.find? (fun y => !csOk y.2 8 (sz y.1)) with
        | some y => (c, [(0x0132, 3, 16 + y.1, y.2)])
        | none =>
          let imgs := at_.map fun y => (y.1, y.2, readImage c (laneAcc c y.1).q.fmt y.2)
          match imgs.find? (fun y => decide (y.2.2.2 ≠ fmtCode (laneAcc c y.1).q.fmt)) with
          | some y => (c, [(0x0104, 3, 16 + y.1, y.2.1)])
          | none =>
            (imgs.foldl (fun c y => setLane c y.1 { AccQ.zero (laneAcc c y.1).q.fmt with base := some y.2.1 }) c,
              laneResRaise ((imgs.find? fun y => !y.2.2.1.resOk).map (·.1)))

/-- V.QFILL (R91, R284, R288). -/
def execVQfill (d : Die) (p : Reg4) (att : Bool) (mask ad : BitVec 16) (s : State) :
    Host.Outcome State Fault Refusal :=
  if mask = 0 ∨ att = true then .refused .reserved else .next (slotOp s d 0x424 (qfillCore p mask ad))

/-- Flags of a sticky record as a number. -/
def flagWord (k : Sticky) : Nat := (k.flag.mapIdx fun i b => b2n b * 2 ^ i).foldl (· + ·) 0

/-- V.RDFL at a core (R187). -/
def rdflCore (p : Reg4) (vd : Reg6) (x : CoreIn) (c : Core) : Core × List Raise :=
  pipeTake x c 1 fun _ c =>
    let c1 := { c with vecDone := max c.vecDone (x.now + 1) }
    if activeOn c p then
      regWrite c1 (x.now + 1) true (vPends 0 (64 * vd)
        (leBytes 4 (flagWord c.vecSticky) ++ leBytes 4 (flagWord c.mxa.sticky) ++ leBytes 4 (flagWord c.mxb.sticky) ++
          leBytes 4 (flagWord c.mvp.sticky) ++ zeros 48))
    else (c1, [])

/-- V.RDFL (R187). -/
def execVRdfl (d : Die) (p : Reg4) (vd : Reg6) (s : State) : Host.Outcome State Fault Refusal :=
  .next (slotOp s d 0x428 (rdflCore p vd))

end Sys2Proof.Machine
end

