-- ==== Sys2Proof/Machine/RowFns.lean ====
section
/-! DEFINITION. Row functions of the vector engine: the soft maximum and normalisation (R202–R214, R471). -/
namespace Sys2Proof.Machine

/-- The row functions (codes 0x30–0x35 of Table 9-1). -/
inductive RowKind where
  | softmax | smsum | smnorm | lnorm | rmsnorm | nstat
  deriving DecidableEq, Repr

/-- Whether a function normalises a row. -/
def isNorm (k : RowKind) : Bool := decide (k = .lnorm) || decide (k = .rmsnorm)

/-- Whether a function writes a destination tensor (R202). -/
def rowHasDst (k : RowKind) : Bool := !(decide (k = .smsum) || decide (k = .nstat))

/-- A row function as a command spells it. -/
structure RowCmd where
  kind : RowKind
  p : Reg4
  dd : BitVec 11
  da : BitVec 11
  db : BitVec 11
  sp : Reg6
  deriving DecidableEq, Repr

/-- The row function of a command. -/
def rowCmdOf (i : Instr) : Option RowCmd :=
  match i with
  | .softmax _ p dd da => some ⟨.softmax, p, dd, da, 0x7FF, 0⟩
  | .smsum _ p da sp => some ⟨.smsum, p, 0x7FF, da, 0x7FF, sp⟩
  | .smnorm _ p dd da sp => some ⟨.smnorm, p, dd, da, 0x7FF, sp⟩
  | .lnorm _ p dd da db sp => some ⟨.lnorm, p, dd, da, db, sp⟩
  | .rmsnorm _ p dd da db sp => some ⟨.rmsnorm, p, dd, da, db, sp⟩
  | .nstat _ p da sp => some ⟨.nstat, p, 0x7FF, da, 0x7FF, sp⟩
  | _ => none

/-- ε, A1 and A2 of the scalars of R203. -/
def rowEps (s2 : DWord) : Nat := s2.toNat % 2 ^ 32
def rowA1 (s3 : DWord) : Nat := s3.toNat % 2 ^ 16
def rowA2 (s3 : DWord) : Nat := s3.toNat / 2 ^ 16 % 2 ^ 16

/-- The descriptors of a row function: source, destination, second source, mask (R202, R206). -/
structure RowParts where
  src : TDesc
  dst : Option TDesc
  gb : Option TDesc
  mask : Option TDesc
  deriving DecidableEq, Repr

/-- Reading the descriptors and the mask; none is VEC_DESC (R470). -/
def rowParts (k : RowCmd) (c : Core) : Option RowParts :=
  let one (need : Bool) (f : BitVec 11) : Option (Option TDesc) :=
    if need then (match readTensor c f.toNat with | some t => some (some t) | none => none) else some none
  match readTensor c k.da.toNat, one (rowHasDst k.kind) k.dd, one (isNorm k.kind && decide (k.db ≠ 0x7FF)) k.db with
  | some s, some d, some g =>
    match maskOf c (match d with | some y => y | none => s) with
    | none => some ⟨s, d, g, none⟩
    | some none => none
    | some (some m) => some ⟨s, d, g, some m⟩
  | _, _, _ => none

/-- Cycles of one row (Table 9-5, R204). -/
def rowCycles (k : RowKind) (a2 : Nat) (q : RowParts) : Nat :=
  let b := ceilDiv (q.src.ext 0) 16
  let wide (t : TDesc) : Bool := decide (fmtBits t.fmt = 32)
  let m := if wide q.src || (match q.dst with | some d => wide d | none => false) then 8 else 4
  match k with
  | .softmax => b + 2 * m * b + 24
  | .smsum => 2 + m * b + 8
  | .smnorm => 6 + m * b
  | .nstat => b + 8
  | _ => if a2 = 0 then b + 32 + m * b else 40 + m * b

/-- Pipe cycles of a row function (R204). -/
def rowOcc (k : RowCmd) (s3 : DWord) (c : Core) : Nat :=
  match rowParts k c with
  | some q => 2 + q.src.runs * rowCycles k.kind (rowA2 s3) q
  | none => 0

/-- Formats (R202, check 0x46). -/
def rowFmtOk (k : RowKind) (a2 : Nat) (q : RowParts) : Bool :=
  (isPosit q.src.fmt || (decide (q.src.fmt = .b32) && !(decide (k = .nstat) || (isNorm k && decide (a2 ≠ 0))))) &&
  (match q.dst with | some d => isPosit d.fmt || isIeee d.fmt | none => true)

/-- Extents of the destination and of γ and β (R202, R212, check 0x47). -/
def rowExtOk (q : RowParts) : Bool :=
  (match q.dst with | some d => decide (d.n = q.src.n) | none => true) &&
  (match q.gb with | some g => decide (g.fmt = q.src.fmt) && decide (g.n = [q.src.ext 0, 2, 1, 1]) | none => true)

/-- Bytes of one entry at A2: a soft maximum sum image, or a normalisation block (R203). -/
def rowEntry (k : RowKind) (f : Fmt) : Nat :=
  match k with
  | .smsum => 88
  | .smnorm => 88
  | _ => 2 * imgSize f

/-- Whether a function uses the maximum slots at A1, and whether it uses A2 (Table 9-5). -/
def rowUses1 (k : RowKind) : Bool := decide (k = .smsum) || decide (k = .smnorm)
def rowUses2 (k : RowKind) (a2 : Nat) : Bool :=
  !(decide (k = .softmax)) && (!(isNorm k) || decide (a2 ≠ 0))

/-- Slots, images and blocks lie in core store at multiples of 8 (R203). -/
def rowAddrOk (k : RowKind) (a1 a2 : Nat) (q : RowParts) : Bool :=
  let n := q.src.runs
  (!(rowUses1 k) || csOk a1 8 (8 * n)) && (!(rowUses2 k a2) || csOk a2 8 (rowEntry k q.src.fmt * n))

/-! ### One row -/

/-- What a row writes: core store writes, flags with positions, and causes. -/
structure RowRes where
  ws : List PWrite
  flags : List (Nat × Nat)
  bad : List Raise
  deriving DecidableEq, Repr

/-- The row's elements: position, index, whether active, raw element. -/
structure RowElem where
  i : Nat
  ix : List Nat
  on : Bool
  x : Nat
  deriving DecidableEq, Repr

/-- The elements of row `j`; an inactive element is not read (R162). -/
def rowElems (c : Core) (s : TDesc) (m : Option TDesc) (j : Nat) : List RowElem :=
  (List.range (s.ext 0)).map fun i =>
    let ix := unlinear s.n (j * s.ext 0 + i)
    let on := maskOn c m ix
    ⟨i, ix, on, if on then s.read c ix else 0⟩

/-- Writing every position of a row (R206). -/
def rowAll (d : TDesc) (es : List RowElem) (x : Nat) : List PWrite := (es.map fun e => d.write e.ix x).flatten

/-- Writing active positions by a function, inactive ones under ZMASK (R163, R206), with the flags of R205. -/
def rowEach (d : TDesc) (es : List RowElem) (j n0 : Nat) (f : RowElem → Nat × VFlag) : RowRes :=
  let rs := es.map fun e => (e, if e.on then f e else (0, none))
  ⟨(rs.map fun r => if r.1.on || d.zmask then d.write r.1.ix r.2.1 else []).flatten,
    rs.filterMap fun r => r.2.2.map fun k => (k, (j * n0 + r.1.i) % 2 ^ 32), []⟩

/-- e_i in quire units of 2^−240 (R207). -/
def smTerm (m x : Num) : Int :=
  match m, x with
  | .inf false, .inf false => (2 ^ 240 : Nat)
  | .fin _ _, .fin _ _ =>
    let d := x.val.sub m.val
    if d.lt ⟨-128, 1⟩ then 0
    else
      let t := (fnT40 .exp d).2
      t.num * (2 ^ 240 : Nat) / (t.den : Int)
  | _, _ => 0

/-- Elements that contribute a term: active and not −∞ (R207). -/
def smLive (f : Fmt) (es : List RowElem) : List RowElem :=
  es.filter fun e => e.on && !(match decodeNum f e.x with | .inf true => true | _ => false)

/-- Output y = e / S rounded once (R207); S = 0 has no stated result (log 9). -/
def smOut (dst : Fmt) (m : Rnd) (j i : Nat) (e sum : Int) : Nat × VFlag :=
  if sum = 0 then (Config.rowCorner j i e sum % 2 ^ fmtBits dst, none)
  else
    let y := (Frac.ofInt e).div (Frac.ofInt sum)
    if isPosit dst && y.lt (minposVal (fmtBits dst)) then (0, none) else roundMag dst m y.isNeg y.abs

/-- Table 9-6 for a row: maximum `m`, sum `sum`, and its mark and count. -/
def smRow (src d : TDesc) (j : Nat) (es : List RowElem) (m : Num) (nar : Bool) (n : Nat) (sum : Int)
    (rnd : Nat → Rnd) : RowRes :=
  let f := src.fmt
  let n0 := src.ext 0
  if nar then ⟨rowAll d es (nanBits d.fmt), [], []⟩
  else if n = 0 then ⟨rowAll d es 0, [(6, j)], []⟩
  else
    let r := rowEach d es j n0 fun e => smOut d.fmt (rnd (j * n0 + e.i)) j e.i (smTerm m (decodeNum f e.x)) sum
    match m with
    | .inf false =>
      let r := rowEach d es j n0 fun e =>
        let t := smTerm m (decodeNum f e.x)
        if t = 0 then (0, none) else smOut d.fmt (rnd (j * n0 + e.i)) j e.i t sum
      let top := es.find? fun e => e.on && (match decodeNum f e.x with | .inf false => true | _ => false)
      { r with flags := match top with | some e => [(8, (j * n0 + e.i) % 2 ^ 32)] | none => [] }
    | _ => r

/-- Whether an element breaks the maximum of its slot: above it, or real with none (R209, SM_MAX). -/
def smAbove (f : Fmt) (m : Num) (e : RowElem) : Bool :=
  let x := decodeNum f e.x
  e.on && !x.isNan && (m.isNan || decide (0 < ieeeCmp x m))

/-- The soft maximum sum image of a row (R209). -/
def smImage (nar : Bool) (n : Nat) (sum : Int) : Quire :=
  let q : Quire := { Quire.zero .p32 with val := sum, terms := n, res := resOf sum }
  if nar then q.longNar else q

/-- Units of S1 and S2: 2^(16 − 8n) for posits, 2^−298 for binary32 (R210). -/
def normUnit (f : Fmt) : Int := if f = .b32 then -298 else 16 - 8 * (quireN f : Int)

/-- Statistics of a row: n, S1, S2 (R210). -/
def normStats (f : Fmt) (es : List RowElem) : Nat × Int × Int :=
  es.foldl (fun t e =>
    if e.on then
      let v := (decodeNum f e.x).val
      let k := normUnit f
      (t.1 + 1, t.2.1 + (v.scale2 (-k)).floor, t.2.2 + ((v.mul v).scale2 (-k)).floor)
    else t) (0, 0, 0)

/-- v rounded to 40 significant bits, nearest even (R211). -/
def round40 (v : Frac) : Frac :=
  if v.isZero then v
  else
    let s := v.abs.log2 - 39
    (Frac.ofInt (v.scale2 (-s)).rne).scale2 s

/-- T40(1 / √w), for w > 0 (R212). -/
def rsqrt40 (w : Frac) : Frac :=
  let z := Frac.one.div w
  let s : Int := z.log2 / 2
  Frac.scale2 (Frac.ofInt (isqrt (z.scale2 (2 * (39 - s))).floor.toNat)) (s - 39)

/-- a × γ + β with IEEE outcomes for infinities, rounded once (R212, R213). -/
def normAffine (dst : Fmt) (m : Rnd) (a : Frac) (g b : Num) : Nat × VFlag :=
  match g, b with
  | .nan, _ => (nanBits dst, none)
  | _, .nan => (nanBits dst, none)
  | .inf s, _ =>
    if a.isZero then (nanBits dst, some 1)
    else
      let t := Bool.xor s a.isNeg
      match b with
      | .inf u => if t == u then ((convertNum dst m (.inf t)).1, none) else (nanBits dst, some 1)
      | _ => ((convertNum dst m (.inf t)).1, none)
  | _, .inf u => ((convertNum dst m (.inf u)).1, none)
  | _, _ =>
    let v := (a.mul g.val).add b.val
    roundMag dst m v.isNeg v.abs

/-- A normalised row (R210–R213) from its statistics; `sat` and `nar` are the marks of a block. A block of no terms under active
elements has no stated result (log 9). -/
def normRow (rms : Bool) (src d : TDesc) (j : Nat) (es : List RowElem) (n : Nat) (s1 s2 : Int) (nar sat : Bool)
    (eps : Frac) (gam bet : Nat → Num) (rnd : Nat → Rnd) : RowRes :=
  let f := src.fmt
  let n0 := src.ext 0
  let inf := es.find? fun e => e.on && (match decodeNum f e.x with | .inf _ => true | _ => false)
  if es.all (!·.on) then ⟨rowAll d es 0, [(6, j)], []⟩
  else if (es.any fun e => e.on && (decodeNum f e.x).isNan) || (nar && !sat) then ⟨rowAll d es (nanBits d.fmt), [], []⟩
  else
    match inf with
    | some e => ⟨rowAll d es (nanBits d.fmt), [(1, (j * n0 + e.i) % 2 ^ 32)], []⟩
    | none =>
      if sat then ⟨rowAll d es (nanBits d.fmt), [(7, j)], []⟩
      else
        let k := normUnit f
        let u := (Frac.ofInt s1).scale2 k
        let q := (Frac.ofInt s2).scale2 k
        let v := if rms then q.mul ⟨1, n⟩ else (((Frac.ofInt n).mul q).sub (u.mul u)).mul ⟨1, n * n⟩
        let w := (round40 v).add eps
        let mu := if rms then Frac.zero else u.mul ⟨1, n⟩
        let r := if w.isZero || w.isNeg then Frac.zero else rsqrt40 w
        rowEach d es j n0 fun e =>
          if w.isNeg || decide (n = 0) then (Config.rowCorner j e.i s1 s2 % 2 ^ fmtBits d.fmt, none)
          else normAffine d.fmt (rnd (j * n0 + e.i)) (((decodeNum f e.x).val.sub mu).mul r) (gam e.i) (bet e.i)

/-- Statistics of a row as two quires of the source's format (R210, R214). -/
def statQuires (f : Fmt) (es : List RowElem) : Quire × Quire :=
  es.foldl (fun q e =>
    if e.on then (q.1.addTerm (positTerm f f e.x) 1 (2 ^ 31 - 1), q.2.addTerm (prodTerm f f f 0 e.x e.x) 1 (2 ^ 31 - 1))
    else q) (Quire.zero f, Quire.zero f)

/-- The nibble-free writes of bytes. -/
def byteWrites (a : Nat) (bs : List Byte) : List PWrite := bs.mapIdx fun k b => .cs (a + k) b

/-- Row `j` of a row function at a core (R207–R214). -/
def rowWork (k : RowCmd) (q : RowParts) (job : VecJob) (j : Nat) (c : Core) : RowRes :=
  let f := q.src.fmt
  let es := rowElems c q.src q.mask j
  let d := match q.dst with | some y => y | none => q.src
  let a1 := rowA1 job.s3 + 8 * j
  let a2 := rowA2 job.s3 + rowEntry k.kind f * j
  let rnd (n : Nat) : Rnd := pepperMode d.rnd job.seed d.stream job.pstep.toNat (d.idxBase + n)
  let nan := es.any fun e => e.on && (decodeNum f e.x).isNan
  let live := smLive f es
  let slot := decodeNum f (leNat (csRead c a1 (fmtBits f / 8)))
  let sumOf (m : Num) : Int := live.foldl (fun t e => t + smTerm m (decodeNum f e.x)) 0
  match k.kind with
  | .softmax =>
    let m := decodeNum f ((es.filter (·.on)).foldl (fun b e => maxElem f b e.x) (nanBits f))
    smRow q.src d j es m nan live.length (sumOf m) rnd
  | .smsum =>
    if es.any (smAbove f slot) then ⟨[], [], [(0x013C, 3, 0, a1)]⟩
    else ⟨byteWrites a2 (imgBytes (smImage nan live.length (sumOf slot))), [], []⟩
  | .smnorm =>
    let img := readImage c .p32 a2
    if img.2 ≠ fmtCode .p32 then ⟨[], [], [(0x013B, 3, 0, a2)]⟩
    else if es.any (smAbove f slot) then ⟨[], [], [(0x013C, 3, 0, a1)]⟩
    else
      let r := smRow q.src d j es slot (img.1.nar || nan) img.1.terms img.1.val rnd
      { r with bad := if img.1.resOk then [] else [(0x0004, 3, 0, a2)] }
  | .nstat =>
    let s := statQuires f es
    ⟨byteWrites a2 (imgBytes (s.1.toLong f) ++ imgBytes (s.2.toLong f)), [], []⟩
  | _ =>
    let rms := decide (k.kind = .rmsnorm)
    let eps := (decodeNum (if f = .b32 then .b32 else .p32) (rowEps job.s2)).val
    let one : Num := .fin false Frac.one
    let g (i : Nat) : Num := match q.gb with | some t => decodeNum f (t.read c [i, 0, 0, 0]) | none => one
    let b (i : Nat) : Num := match q.gb with | some t => decodeNum f (t.read c [i, 1, 0, 0]) | none => .fin false Frac.zero
    if rowA2 job.s3 = 0 then
      let s := normStats f es
      normRow rms q.src d j es s.1 s.2.1 s.2.2 false false eps g b rnd
    else
      let x := readImage c f a2
      let y := readImage c f (a2 + imgSize f)
      if x.2 ≠ fmtCode f ∨ y.2 ≠ fmtCode f ∨ x.1.terms ≠ y.1.terms ∨ x.1.resOk = false ∨ y.1.resOk = false then
        ⟨[], [], [(0x013B, 3, 0, a2)]⟩
      else
        normRow rms q.src d j es x.1.terms x.1.val y.1.val (x.1.nar || y.1.nar) (x.1.sat || y.1.sat) eps g b rnd

/-- Byte ranges that a row of a tensor occupies: whole when every element is read, else the active elements. -/
def rowRanges (t : TDesc) (j n0 : Nat) (es : List RowElem) : List (Nat × Nat) :=
  let w := fmtBits t.fmt
  if es.all (·.on) then
    let a := t.byte (unlinear t.n (j * n0))
    if n0 = 0 then [] else [(a, if t.ext 0 = 1 then max 1 (w / 8) else (n0 * w + 7) / 8)]
  else (es.filter (·.on)).map fun e => (t.byte e.ix, max 1 (w / 8))

/-- The byte ranges that row `j` reads (R471). -/
def rowReads (k : RowCmd) (q : RowParts) (job : VecJob) (j : Nat) (c : Core) : List (Nat × Nat) :=
  let f := q.src.fmt
  let n0 := q.src.ext 0
  let es := rowElems c q.src q.mask j
  let all := es.map fun e => { e with on := true }
  rowRanges q.src j n0 es ++
  (match q.mask with | some m => rowRanges m j n0 all | none => []) ++
  (match q.gb with | some g => [(g.base, n0 * fmtBits f / 8), (g.byte [0, 1, 0, 0], n0 * fmtBits f / 8)] | none => []) ++
  (if rowUses1 k.kind then [(rowA1 job.s3 + 8 * j, 8)] else []) ++
  (if (isNorm k.kind && decide (rowA2 job.s3 ≠ 0)) || decide (k.kind = .smnorm)
    then [(rowA2 job.s3 + rowEntry k.kind f * j, rowEntry k.kind f)] else [])

/-- Whether a write by another slot or port to [a, a + n) that is readable in cycle `t` meets a row in progress (R471). -/
def rowGuard (c : Core) (t a n : Nat) : Bool :=
  match c.job with
  | some j => decide (j.rowFirst < t) && decide (t ≤ j.rowLast) &&
      j.reads.any fun r => decide (a < r.1 + r.2) && decide (r.1 < a + n)
  | none => false

/-- The parts of a row function in progress, from its job. -/
def jobParts (j : VecJob) : Option RowParts := j.src1.map fun s => ⟨s, j.dst, j.src2, j.mask⟩

/-- One row in its first cycle (R471): outputs readable 12 cycles after the row's last cycle (R204). -/
def rowUnit (k : RowCmd) (j : VecJob) (c : Core) : VecJob × Core × List Raise :=
  match jobParts j with
  | none => (j, c, [])
  | some q =>
    let cyc := rowCycles k.kind (rowA2 j.s3) q
    let first := j.start + 2 + j.unit * cyc
    let r := rowWork k q j j.unit c
    let ready := first + cyc - 1 + 12
    let w := vecStore c ready r.ws
    ({ j with rowFirst := first, rowLast := first + cyc - 1, reads := rowReads k q j j.unit c },
      { w.1 with pend := w.1.pend ++ flagPends ready j.opIdx r.flags }, w.2 ++ r.bad)

/-- ε is finite and not negative (R212). -/
def epsOk (f : Fmt) (e : Nat) : Bool :=
  match decodeNum (if f = .b32 then .b32 else .p32) e with
  | .fin neg m => !neg || m.isZero
  | _ => false

/-- A row function at a core. -/
def rowCore (i : Instr) (k : RowCmd) (ref : Nat) (x : CoreIn) (c : Core) : Core × List Raise :=
  let s2 := wordS x k.sp
  let s3 := wordS x (k.sp.val + 1)
  pipeTake x c (max 2 (rowOcc k s3 c)) fun op c =>
    match rowParts k c with
    | none =>
      let fs := [k.da.toNat] ++ (if rowHasDst k.kind then [k.dd.toNat] else []) ++
        (if isNorm k.kind && decide (k.db ≠ 0x7FF) then [k.db.toNat] else [])
      (c, [(descCause c fs, 3, 0, 32 * k.da.toNat)])
    | some q =>
      if rowOcc k s3 c ≠ ref then (c, [(0x0131, 3, 0, 32 * k.da.toNat)])
      else if !rowFmtOk k.kind (rowA2 s3) q then (c, [(0x0138, 3, 0, 32 * k.da.toNat)])
      else if !rowExtOk q then (c, [(0x0139, 3, 0, 32 * k.da.toNat)])
      else if !activeOn c k.p then (c, [])
      else
        let bad := rangeBad q.dst [some q.src, q.gb] q.mask
        if !bad.isEmpty then (c, bad)
        else if !rowAddrOk k.kind (rowA1 s3) (rowA2 s3) q then (c, [(0x0139, 3, 0, 0)])
        else if isNorm k.kind && !epsOk q.src.fmt (rowEps s2) then (c, [(0x013A, 3, 0, 0)])
        else
          let n := q.src.runs
          let cyc := rowCycles k.kind (rowA2 s3) q
          if n = 0 then (c, [])
          else
            ({ c with job := some { newJob i x op n (x.now + 2) (predVal c k.p) with
                        s2 := s2, s3 := s3, dst := q.dst, src1 := some q.src, src2 := q.gb, mask := q.mask },
                      vecDone := max c.vecDone (x.now + 2 + n * cyc - 1 + 12) }, [])

/-- Field values that R203 and R286 admit for a row function. -/
def rowOk (k : RowCmd) : Bool :=
  decide (k.da.toNat < 1536) && (!(rowHasDst k.kind) || decide (k.dd.toNat < 1536)) &&
    (decide (k.db.toNat < 1536) || decide (k.db = 0x7FF)) && decide (k.sp.val % 2 = 0)

/-- The scalars that a row function's occupancy depends on, as its die's word holds them. -/
def dieS3 (s : State) (d : Die) (sp : Reg6) : DWord := vget (issueNow s d).s (sp.val + 1) 0

/-- A row function (R202–R206). -/
def rowOp (d : Die) (i : Instr) (s : State) : Host.Outcome State Fault Refusal :=
  match rowCmdOf i with
  | none => .refused .reserved
  | some k =>
    if rowOk k then .next (vecSlot s d 0x418 (rowOcc k (dieS3 s d k.sp)) (rowCore i k)) else .refused .reserved

/-! ### Meanings -/

/-- SOFTMAX (R207, R208). -/
def execSoftmax (d : Die) (p : Reg4) (dd da : BitVec 11) (s : State) : Host.Outcome State Fault Refusal :=
  rowOp d (.softmax d p dd da) s
/-- SMSUM (R209). -/
def execSmsum (d : Die) (p : Reg4) (da : BitVec 11) (sp : Reg6) (s : State) : Host.Outcome State Fault Refusal :=
  rowOp d (.smsum d p da sp) s
/-- SMNORM (R209). -/
def execSmnorm (d : Die) (p : Reg4) (dd da : BitVec 11) (sp : Reg6) (s : State) : Host.Outcome State Fault Refusal :=
  rowOp d (.smnorm d p dd da sp) s
/-- LNORM (R210–R213). -/
def execLnorm (d : Die) (p : Reg4) (dd da db : BitVec 11) (sp : Reg6) (s : State) : Host.Outcome State Fault Refusal :=
  rowOp d (.lnorm d p dd da db sp) s
/-- RMSNORM (R210–R213). -/
def execRmsnorm (d : Die) (p : Reg4) (dd da db : BitVec 11) (sp : Reg6) (s : State) :
    Host.Outcome State Fault Refusal :=
  rowOp d (.rmsnorm d p dd da db sp) s
/-- NSTAT (R214). -/
def execNstat (d : Die) (p : Reg4) (da : BitVec 11) (sp : Reg6) (s : State) : Host.Outcome State Fault Refusal :=
  rowOp d (.nstat d p da sp) s

end Sys2Proof.Machine
end

