-- ==== Sys2Proof/Machine/Network.lean ====
section
/-! DEFINITION. The NET slot and the arrival of its data (R291, R292, R304–R310). -/
namespace Sys2Proof.Machine

/-! ### Routes and link load (R308, R309) -/

/-- The next die of a dimension-ordered route: columns first (R309). -/
def nextDie (a b : Nat) : Nat :=
  if a % 4 < b % 4 then a + 1 else if b % 4 < a % 4 then a - 1 else if a / 4 < b / 4 then a + 4 else a - 4

/-- The links of a route, in order. -/
def route : Nat → Nat → Nat → List (Nat × Nat)
  | 0, _, _ => []
  | k + 1, a, b => if a = b then [] else (a, nextDie a b) :: route k (nextDie a b) b

/-- The number of the link between two adjacent dies (R373). -/
def linkNo (a b : Nat) : Nat :=
  let lo := min a b
  if a / 4 = b / 4 then 3 * (lo / 4) + lo % 4 else 12 + 4 * (lo / 4) + lo % 4

/-- Adding NET bytes to a link, direction and cycle: the new loads and the load before. -/
def addLoad (f t c n : Nat) : List (Nat × Nat × Nat × Nat) → List (Nat × Nat × Nat × Nat) × Nat
  | [] => ([(f, t, c, n)], 0)
  | y :: l =>
    if y.1 = f ∧ y.2.1 = t ∧ y.2.2.1 = c then ((f, t, c, y.2.2.2 + n) :: l, y.2.2.2)
    else let r := addLoad f t c n l; (y :: r.1, r.2)

/-- A datum of `n` bytes that leaves die `a` for die `b` in cycle `t` crosses the k-th link in cycle t + 12 + 24(k − 1);
above 1,344 bytes in one cycle, LINK_OVER (R309). -/
def crossLinks (s : State) (a b t n : Nat) : State :=
  ((route 6 a b).mapIdx fun k y => (k, y)).foldl (fun s y =>
    let r := addLoad y.2.1 y.2.2 (t + 12 + 24 * y.1) n s.fabric.crossings
    let s1 := { s with fabric := { s.fabric with crossings := r.1 } }
    if r.2 ≤ 1344 ∧ 1344 < r.2 + n then
      addFault s1 (mkRec s1 2 0x0162 (dieOf y.2.1) none 9 (linkNo y.2.1 y.2.2) 0 1)
    else s1) s

/-! ### NET.MESH (R291, R304, R306) -/

/-- Link number of a direction at a core. -/
def dirNo : Dir → Nat
  | .north => 0
  | .east => 1
  | .south => 2
  | .west => 3

/-- The logical neighbour in a direction as (die, local index), when it lies in the program's grid (R291). -/
def neighbour (n d i : Nat) (dir : Dir) : Option (Nat × Nat) :=
  let x : Int := logicalX n d i
  let y : Int := logicalY n d i
  let (x1, y1) : Int × Int := match dir with
    | .north => (x, y - 1)
    | .east => (x + 1, y)
    | .south => (x, y + 1)
    | .west => (x - 1, y)
  if 0 ≤ x1 ∧ x1 < 4 * n ∧ 0 ≤ y1 ∧ y1 < 4 * n then
    let u := x1.toNat
    let v := y1.toNat
    some (v / n * 4 + u / n, v % n * n + u % n)
  else none

/-- D of the lap as an absolute cycle, as a core operation sees it. -/
def coreD (x : CoreIn) : Nat := x.start + (x.len - 1025)

/-- Causes of a NET.MESH at a core. -/
def meshBad (p : Reg4) (dir : Dir) (dst : Nat) (a : Csa) (x : CoreIn) (c : Core) : List Raise :=
  let ad := csaAddr c a
  if x.now < vget c.mesh (dirNo dir) 0 then [(0x015F, 0xFF, 0, 0)]
  else if !activeOn c p then []
  else if !csOk ad 64 64 then [(0x015D, 0xFF, 0, ad)]
  else if !csOk dst 64 64 then [(0x015D, 0xFF, 0, dst)]
  else
    match neighbour x.n x.die x.idx dir with
    | none => [(0x015E, 0xFF, 0, 0)]
    | some q => if coreD x < x.now + 37 + 24 * hops x.die q.1 then [(0x0161, 0xFF, 0, dst)] else []

/-- The occupancy of a NET.MESH at a core: the link for two cycles (R304, R306). -/
def meshCore (p : Reg4) (dir : Dir) (dst : Nat) (a : Csa) (x : CoreIn) (c : Core) : Core × List Raise :=
  let bad := meshBad p dir dst a x c
  if bad.isEmpty then ({ c with mesh := vset c.mesh (dirNo dir) (x.now + 2) }, []) else (c, bad)

/-- The two halves that a core of die `d` sends. -/
def meshData (s : State) (d : Die) (p : Reg4) (dir : Dir) (dst : Nat) (a : Csa) (x : CoreIn) (c : Core) : List NetDatum :=
  if (meshBad p dir dst a x c).isEmpty then
    match neighbour x.n x.die x.idx dir with
    | none => []
    | some q =>
      let t := x.now + 36 + 24 * hops d q.1
      let e := dieOf q.1
      let bs := csRead c (csaAddr c a) 64
      let live := activeOn c p
      let half (k : Nat) (b : List Byte) : NetDatum :=
        ⟨d, e, q.2, dst + 32 * k, b, t + k, true, live, s.laps.moduleLap, (s.die d).epoch, epochOf s d e⟩
      [half 0 (bs.take 32), half 1 (bs.drop 32)]
  else []

/-- The cores of a die with their local indices. -/
def idxCores (s : State) (d : Die) : List (Nat × Core) := (s.die d).cores.mapIdx fun i c => (i, c)

/-- NET.MESH (R291, R304). -/
def execNetMesh (d : Die) (p : Reg4) (dir : Dir) (dst : BitVec 16) (a : Csa) (s : State) :
    Host.Outcome State Fault Refusal :=
  if (issueNow s d).prog then
    let data := ((idxCores s d).map fun y =>
      meshData s d p dir dst.toNat a (coreIn s d y.1) y.2).flatten
    let s1 := slotOp s d 0x601 (meshCore p dir dst.toNat a)
    let s2 := { s1 with fabric := { s1.fabric with data := s1.fabric.data ++ data } }
    .next (data.foldl (fun s y => crossLinks s d y.die (y.arrive - 36 - 24 * hops d y.die) 32) s2)
  else .next s

/-! ### NET.SEND (R292, R306, R307) -/

/-- Destination (die, local index) of the address registers A`ax` and A`ax + 1`: none outside the grid. -/
def sendTo (n : Nat) (c : Core) (ax : Nat) : Option (Nat × Nat) :=
  let u := (vget c.a ax 0).toNat % 1024
  let v := (vget c.a (ax + 1) 0).toNat % 1024
  if u < 4 * n ∧ v < 4 * n then some (v / n * 4 + u / n, v % n * n + u % n) else none

/-- Causes of a NET.SEND at a core: NET_BUSY, NET_ADDR, GRID_ADDR (R13), NET_LATE. Of several that one operation meets, the
first in this order is recorded: no precedence is stated (DESIGN CHOICE, log 51). -/
def sendBad (p : Reg4) (ax w dst : Nat) (a : Csa) (x : CoreIn) (c : Core) : List Raise :=
  let ad := csaAddr c a
  if x.now < c.injTo then [(0x015F, 0xFF, 0, 0)]
  else if !activeOn c p then []
  else if !csOk ad 4 (4 * w) then [(0x015D, 0xFF, 0, ad)]
  else if !csOk dst 4 (4 * w) then [(0x015D, 0xFF, 0, dst)]
  else if 1024 ≤ (vget c.a ax 0).toNat ∨ 1024 ≤ (vget c.a (ax + 1) 0).toNat then [(0x015D, 0xFF, 0, dst)]
  else
    match sendTo x.n c ax with
    | none => [(0x0102, 0xFF, 0, dst)]
    | some q => if coreD x < x.now + 35 + 24 * hops x.die q.1 + w then [(0x0161, 0xFF, 0, dst)] else []

/-- The occupancy of a NET.SEND at a core: the injection port for w cycles (R292, R306). -/
def sendCore (p : Reg4) (ax w dst : Nat) (a : Csa) (x : CoreIn) (c : Core) : Core × List Raise :=
  let bad := sendBad p ax w dst a x c
  if bad.isEmpty then ({ c with injTo := x.now + w }, []) else (c, bad)

/-- The send that a core starts; its words leave one per cycle (R292). -/
def sendJobs (p : Reg4) (ax w dst : Nat) (a : Csa) (d : Die) (x : CoreIn) (c : Core) : List SendJob :=
  if (sendBad p ax w dst a x c).isEmpty then
    match sendTo x.n c ax with
    | some q => [⟨d, x.idx, x.now, w, csaAddr c a, dieOf q.1, q.2, dst, activeOn c p⟩]
    | none => []
  else []

/-- Whether a datum crosses link `n` in this cycle (R309). -/
def crossesNow (s : State) (n : Nat) (y : NetDatum) : Bool :=
  let a := s.laps.now + 24 * hops y.src y.die + 36
  ((route 6 y.src y.die).mapIdx fun k z => (k, z)).any fun z =>
    decide (linkNo z.2.1 z.2.2 = n) && decide (y.arrive + 12 + 24 * z.1 = a)

/-- The data that cross a link whose CRC fails in this cycle are dropped (R373); a report names the link and no flit or
direction, so all of them (DESIGN CHOICE, log 51). -/
def dropCrossing (s : State) (n : Nat) : State :=
  { s with fabric := { s.fabric with data := s.fabric.data.filter fun y => !crossesNow s n y } }

/-- NET.SEND (R292); AX must be even. -/
def execNetSend (d : Die) (p : Reg4) (ax : Reg4) (w : BitVec 8) (dst : BitVec 16) (a : Csa) (s : State) :
    Host.Outcome State Fault Refusal :=
  if ax.val % 2 ≠ 0 then .refused .reserved
  else if (issueNow s d).prog then
    let n := w.toNat + 1
    let js := ((idxCores s d).map fun y => sendJobs p ax n dst.toNat a d (coreIn s d y.1) y.2).flatten
    let s1 := slotOp s d 0x602 (sendCore p ax n dst.toNat a)
    .next { s1 with fabric := { s1.fabric with sends := s1.fabric.sends ++ js } }
  else .next s

/-- The words that leave in this cycle (log 21): word i of a send of cycle c is read in cycle c + i and readable at its
destination from cycle c + 36 + 24h + i. -/
def sendTick (s : State) : State :=
  let t := s.laps.now
  let due := s.fabric.sends.filter fun j => decide (j.start ≤ t) && decide (t < j.start + j.words)
  let s1 := { s with fabric := { s.fabric with sends := s.fabric.sends.filter fun j => decide (t + 1 < j.start + j.words) } }
  due.foldl (fun s j =>
    let i := t - j.start
    let bs := match (s.die j.die).cores[j.core]? with | some c => csRead c (j.src + 4 * i) 4 | none => zeros 4
    let y : NetDatum := ⟨j.die, j.toDie, j.toCore, j.dst + 4 * i, bs, t + 36 + 24 * hops j.die j.toDie, false, j.live,
      s.laps.moduleLap, (s.die j.die).epoch, epochOf s j.die j.toDie⟩
    crossLinks { s with fabric := { s.fabric with data := s.fabric.data ++ [y] } } j.die j.toDie t 4) s1

/-! ### Arrival (R305, R307) -/

/-- Writing bytes that arrive at a core in this cycle, with CS_WAW (R279) and VEC_OVERLAP (R471). -/
def arriveBytes (t a : Nat) (bs : List Byte) (c : Core) : Core × List Raise :=
  let n := bs.length
  let waw := c.fresh.any fun x => decide (a ≤ x) && decide (x < a + n)
  let old := (List.range n).map fun k => (t, a + k, memGet c.cs (a + k))
  ({ c with cs := memWrite c.cs a bs, fresh := c.fresh ++ (List.range n).map (a + ·), hist := old ++ c.hist },
    (if waw then [(0x015B, 0xFF, 0, a)] else []) ++ (if rowGuard c t a n then [(0x0133, 0xFF, 0, a)] else []))

/-- Changing core `i` of a die by a core function, taking what it reports. -/
def onCore (s : State) (d : Die) (i : Nat) (f : Core → Core × List Raise) : State :=
  match (s.die d).cores[i]? with
  | some c =>
    let r := f c
    r.2.foldl (fun s x => raiseCore s d i x) (s.setCores d ((s.die d).cores.set i r.1))
  | none => s

/-- NET_ARRIVE: the data due at a core by this cycle. More than four halves or 16 words in a cycle is NET_RECV (R305);
data of an inactive operation are counted and write nothing (R306); a packet of an earlier epoch is dropped (R312). -/
def execNetArrive (d : Die) (core : Nat) (s : State) : Host.Outcome State Fault Refusal :=
  let t := s.laps.now
  let mine (y : NetDatum) : Bool := decide (y.die = d) && decide (y.core = core) && decide (y.arrive ≤ t)
  let due := s.fabric.data.filter mine
  let s1 := { s with fabric := { s.fabric with data := s.fabric.data.filter fun y => !mine y } }
  let halves := (due.filter fun y => y.mesh && decide (y.arrive = t)).length
  let words := (due.filter fun y => !y.mesh && decide (y.arrive = t)).length
  let s2 := if 4 < halves ∨ 16 < words then raiseCore s1 d core (0x0160, 0xFF, 0, 0) else s1
  let live := due.filter (·.live)
  let good := live.filter fun y => !staleEpochs s y.src d y.srcEpoch y.dstEpoch
  .next (good.foldl (fun s y => onCore s d core (arriveBytes t y.addr y.bytes))
    (dropPackets s2 d (live.length - good.length)))

end Sys2Proof.Machine
end

