-- ==== Sys2Proof/Machine/Memory.lean ====
section
/-! DEFINITION. Near and far memory: addresses, parity groups, the MEM slot, budgets, service of units, the atomic unit
(chapter 14, R41, R264, R293–R295). -/
namespace Sys2Proof.Machine

/-! ### Addresses and tiers (R317–R320) -/

/-- Tier, die and offset of a device address; none where it names no memory (R317, R318). -/
def devLocate (a : Nat) : Option (Bool × Nat × Nat) :=
  if a / 2 ^ 41 ≠ 0 then none
  else if bitAt a 40 then some (true, a / 2 ^ 36 % 16, a % 2 ^ 36)
  else if bitAt a 39 then none
  else some (false, a / 2 ^ 35 % 16, a % 2 ^ 35)

/-- Whether a byte range lies within one tier of one die (R318). -/
def devRange (a n : Nat) : Bool :=
  match devLocate a, devLocate (a + n - 1) with
  | some x, some y => decide (x.1 = y.1) && decide (x.2.1 = y.2.1)
  | _, _ => false

/-- One tier of a die. -/
def DieSt.tier (x : DieSt) (far : Bool) : Tier := if far then x.far else x.near

/-- The die with one tier replaced. -/
def DieSt.setTier (x : DieSt) (far : Bool) (t : Tier) : DieSt := if far then { x with far := t } else { x with near := t }

/-- The state with one tier replaced. -/
def State.setTier (s : State) (d : Die) (far : Bool) (t : Tier) : State := s.setDie d ((s.die d).setTier far t)

/-- Slots per cycle (R322) and tail T (Table 14-5). -/
def tierSlots (far : Bool) : Nat := if far then 4 else 5
def tierTail (far : Bool) : Nat := if far then 140 else 110

/-- The device address of an offset of a tier. -/
def devAddr (d : Nat) (far : Bool) (o : Nat) : Nat := if far then 2 ^ 40 + d * 2 ^ 36 + o else d * 2 ^ 35 + o

/-! ### Parity groups (R319, R320, Table 14-3)

A tier's 256-byte blocks are numbered through: block `b` is stripe b / 4 of parity group b mod 4. Its lines 0 to 3 are the
data lines, line 4 is the parity line. -/

/-- The package of line `k` of block `b` (R319). -/
def linePkg (b k : Nat) : Nat := if k = 4 then b / 4 % 5 else (b / 4 + 1 + k) % 5

/-- Where line `k` of block `b` lies: its channel, as 4 × package + channel, its channel row, and its rank (R319). -/
def linePlace (far : Bool) (b k : Nat) : Nat × Nat × Nat :=
  (4 * linePkg b k + b % 4, b / 4, if far then b / 4 / 2 ^ 25 % 2 else 0)

/-- Whether a channel's lines are reported: it has failed, or it is being reset (R334, R372). -/
def chanOut (t : Tier) (ch : Nat) : Bool := let c := vget t.chans ch Chan.init; c.failed || c.resetFrom.isSome

/-- The lines of a block that its channels report. -/
def reportedLines (t : Tier) (b : Nat) : List Nat := (List.range 5).filter fun k => chanOut t (linePlace false b k).1

/-- Bytewise XOR. -/
def xorBytes (x y : List Byte) : List Byte := List.zipWith (· ^^^ ·) x y

/-- Line `k` of a block as it is stored. -/
def lineBytes (t : Tier) (b k : Nat) : List Byte :=
  if k = 4 then memRead t.parity (64 * b) 64 else memRead t.mem (256 * b + 64 * k) 64

/-- The XOR of the lines of a block beside line `k`. -/
def xorOthers (t : Tier) (b k : Nat) : List Byte :=
  (((List.range 5).filter fun j => decide (j ≠ k)).map (lineBytes t b)).foldl xorBytes (zeros 64)

/-- Outcomes of a stripe read (Table 14-3). -/
inductive StripeRead where
  | clean | rebuilt | parity | multi
  deriving DecidableEq, Repr

/-- The outcome of reading a block (Table 14-3). -/
def stripeRead (t : Tier) (b : Nat) : StripeRead :=
  match reportedLines t b with
  | [] => if (xorOthers t b 5).all (· == 0) then .clean else .parity
  | [_] => .rebuilt
  | _ => .multi

/-- The data that reading a block returns, if any: a reported line is reconstructed (Table 14-3). -/
def stripeData (t : Tier) (b : Nat) : Option (List Byte) :=
  match stripeRead t b with
  | .clean => some (memRead t.mem (256 * b) 256)
  | .rebuilt => some ((List.range 4).flatMap fun k => if chanOut t (linePlace false b k).1 then xorOthers t b k else lineBytes t b k)
  | _ => none

/-- The blocks that a byte range touches. -/
def blocksOf (o n : Nat) : List Nat := if n = 0 then [] else (List.range ((o + n - 1) / 256 + 1 - o / 256)).map (o / 256 + ·)

/-- Bytes of a range of a tier as reads return them; a block that returns none reads 0, in a lap that its read aborts
(DESIGN CHOICE, log 51). -/
def tierRead (t : Tier) (o n : Nat) : List Byte :=
  (((blocksOf o n).flatMap fun b => (stripeData t b).getD (zeros 256)).drop (o % 256)).take n

/-- Bytes of a device address range. -/
def devRead (s : State) (a n : Nat) : List Byte :=
  match devLocate a with
  | some (far, d, o) => tierRead ((s.die (dieOf d)).tier far) o n
  | none => zeros n

/-- Bytes from a device address on over at most `k` near tiers. -/
def nearFrom : Nat → State → Nat → Nat → List Byte
  | 0, _, _, _ => []
  | k + 1, s, a, n =>
    let m := min n (2 ^ 35 - a % 2 ^ 35)
    if n = 0 then [] else devRead s a m ++ nearFrom k s (a + m) (n - m)

/-- Bytes of the near tiers from a device address on, from die to die. -/
def nearBytes (s : State) (a n : Nat) : List Byte := nearFrom 17 s a n

/-- A near-tier range as the parts that lie on one die each. -/
def nearParts (a n : Nat) : List (Nat × Nat) :=
  let m := 2 ^ 35 - a % 2 ^ 35
  if n ≤ m then [(a, n)] else [(a, m), (a + m, n - m)]

/-- Whether a byte range lies in the near tiers, of one die or more. -/
def nearSpan (a n : Nat) : Bool := decide (a + n ≤ 2 ^ 39)

/-- A detected fault of a block's read; its channel is that of the block's first data line (log 51). -/
def stripeFault (s : State) (d : Die) (far : Bool) (b cause action : Nat) : State :=
  addFault s (mkRec s 1 cause d none 10 (b2n far + 2 * (linePlace far b 0).1) (devAddr d far (256 * b)) action)

/-- What reading a block does beside returning data (Table 14-3). -/
def noteRead (s : State) (d : Die) (far : Bool) (b : Nat) : State :=
  let t := (s.die d).tier far
  match stripeRead t b with
  | .clean => s
  | .rebuilt => { s with faults := { s.faults with memRecon := satAdd32 s.faults.memRecon 1 } }
  | .parity => stripeFault s d far b 0x000B 1
  | .multi => stripeFault (s.setTier d far { t with degraded := true }) d far b 0x000C 0x41

/-- What reading a device address range does beside returning data. -/
def touchRange (s : State) (a n : Nat) : State :=
  (blocksOf a n).foldl (fun s b =>
    match devLocate (256 * b) with
    | some (far, d, o) => noteRead s (dieOf d) far (o / 256)
    | none => s) s

/-- A slot of a tier used in this cycle (R322). -/
def Tier.useSlot (t : Tier) (now : Nat) : Tier := { t with usedNow := (if t.usedAt = now then t.usedNow else 0) + 1, usedAt := now }

/-- The program image as a device address range (R264, R267). -/
def imageRange (s : State) : Option (Nat × Nat) :=
  s.run.program.map fun p => (p.image, 1024 + 64 * (p.streams.map (·.1)).foldl (· + ·) 0)

/-- Whether two byte ranges meet. -/
def rangesMeet (a n b m : Nat) : Bool := decide (a < b + m) && decide (b < a + n) && decide (0 < n) && decide (0 < m)

/-- The regions of the weight set whose own digest has begun: each die reads its regions in manifest order (R346); all of
them once the digest is done. -/
def wsetBegun (s : State) : List (Nat × Nat) :=
  if s.run.wsetBusy then
    (s.run.wsetRegions.mapIdx fun i r => (i, r)).filterMap fun y =>
      let home (r : Nat × Nat) : Nat := match devLocate r.1 with | some w => w.2.1 | none => 16
      let before := ((s.run.wsetRegions.take y.1).filter fun r => decide (home r = home y.2)).map (·.2 / 64)
      if before.foldl (· + ·) 0 < vget s.run.wsetRead (home y.2) 0 then some y.2 else none
  else s.run.wsetRegions

/-- What every write to a tier does beside the bytes: a byte of a weight set region whose digest has begun clears VALID
(R346), a byte of a verified split's image clears VERIFIED (R396). -/
def noteWrite (s : State) (a n : Nat) : State :=
  let hit := (wsetBegun s).any fun r => rangesMeet a n r.1 r.2
  let s1 := if hit then { s with run := { s.run with wsetValid := false, wsetDirty := true } } else s
  let side := match s.split.cfg with
    | some k =>
      (let h := if s.split.verifySide then k.hdrB else k.hdrA
       rangesMeet a n h 17408 || k.regions.any fun r => rangesMeet a n (if s.split.verifySide then r.2.1 else r.1) r.2.2)
    | none => false
  if s.split.verified && side then { s1 with split := { s1.split with verified := false } } else s1

/-- The parity line of a block after bytes `bs` are written at offset `o`: the XOR of its data lines as they then read. -/
def newParity (t : Tier) (o : Nat) (bs : List Byte) (b : Nat) : List Byte :=
  let old := (stripeData t b).getD (memRead t.mem (256 * b) 256)
  let new := old.mapIdx fun i x => if o ≤ 256 * b + i ∧ 256 * b + i < o + bs.length then nth bs (256 * b + i - o) x else x
  ((List.range 4).map fun k => (new.drop (64 * k)).take 64).foldl xorBytes (zeros 64)

/-- Writing bytes to a tier: every block that they touch keeps consistent parity (R320). -/
def tierWrite (s : State) (d : Die) (far : Bool) (o : Nat) (bs : List Byte) : State :=
  let t := (s.die d).tier far
  let par := (blocksOf o bs.length).foldl (fun m b => memWrite m (64 * b) (newParity t o bs b)) t.parity
  noteWrite (s.setTier d far { t with mem := memWrite t.mem o bs, parity := par }) (devAddr d far o) bs.length

/-- Writing the bytes of a range that lie in block `b`: a part of a block is read first, and what cannot be read is not
written (R320). -/
def blockWrite (d : Die) (far : Bool) (o : Nat) (bs : List Byte) (s : State) (b : Nat) : State :=
  let lo := max o (256 * b)
  let hi := min (o + bs.length) (256 * (b + 1))
  let part := (bs.drop (lo - o)).take (hi - lo)
  if hi - lo = 256 then tierWrite s d far lo part
  else if (stripeData ((s.die d).tier far) b).isSome then tierWrite (noteRead s d far b) d far lo part
  else noteRead s d far b

/-- Writing bytes at a device address. -/
def devWrite (s : State) (a : Nat) (bs : List Byte) : State :=
  match devLocate a with
  | some (far, d, o) => (blocksOf o bs.length).foldl (blockWrite (dieOf d) far o bs) s
  | none => s

/-- Writing bytes from a near-tier address on, over the end of a die's tier into the next die's. -/
def nearWrite (s : State) (a : Nat) (bs : List Byte) : State :=
  let m := 2 ^ 35 - a % 2 ^ 35
  if bs.length ≤ m then devWrite s a bs else devWrite (devWrite s a (bs.take m)) (a + m) (bs.drop m)

/-- Whether a write of a run would change the program image (R264). -/
def hitsImage (s : State) (a n : Nat) : Bool :=
  runActive s && (match imageRange s with | some r => rangesMeet a n r.1 r.2 | none => false)

/-! ### Units (R321, R324) -/

/-- Bytes of an element of an atomic (R329). -/
def atomSize : MemKind → Nat
  | .qadd f => imgSize f
  | .maxloc _ => 8
  | .radd f => fmtBits f / 8
  | _ => 64

/-- Whether two operations are atomics of one kind (R328). -/
def sameAtom : MemKind → MemKind → Bool
  | .qadd _, .qadd _ => true
  | .maxloc _, .maxloc _ => true
  | .radd _, .radd _ => true
  | _, _ => false

/-- Units of stripe `st` for a range of `n` bytes at offset `o` (R321). -/
def stripeUnits (k : MemKind) (o n st : Nat) : Nat :=
  match k with
  | .rd => 4
  | .wr => if o ≤ 256 * st ∧ 256 * (st + 1) ≤ o + n then 4 else 8
  | _ => 8

/-- The stripes of a range with their units, ascending (R321). -/
def rangeStripes (k : MemKind) (o n : Nat) : List (Nat × Nat) :=
  let a := o / 256
  (List.range ((o + n - 1) / 256 + 1 - a)).map fun i => (a + i, stripeUnits k o n (a + i))

/-- Units of a core's part (R321). -/
def rangeUnits (k : MemKind) (o n : Nat) : Nat := ((rangeStripes k o n).map (·.2)).foldl (· + ·) 0

/-- Unit `u` of a part: its stripe, the units of that stripe, and its number among them. -/
def unitAt : List (Nat × Nat) → Nat → Nat × Nat × Nat
  | [], _ => (0, 1, 0)
  | (st, n) :: l, u => if u < n then (st, n, u) else unitAt l (u - n)

/-! ### Budgets and asynchronous admission (R37, R41) -/

/-- Budget of a class for the current lap (R37). -/
def lapBudget (s : State) (c : Nat) : Nat := vget s.pacer.budget c 0 * 2 ^ s.laps.curK / 4096

/-- Setting bit `b` of PACER_EVENTS (Table 2-10). -/
def pacerEvent (s : State) (b : Nat) : State :=
  let e := BitVec.ofNat 6 (2 ^ b)
  { s with pacer := { s.pacer with events := s.pacer.events ||| e, setNow := s.pacer.setNow ||| e } }

/-- Distributing the first `n` units of a request over its parts in ascending local index: units for one target. -/
def grantTo (t : Die) : List (Die × Nat) → Nat → Nat
  | [], _ => 0
  | (e, u) :: l, n => (if e = t then min u n else 0) + grantTo t l (n - u)

/-- The parts of a request's sub-requests in ascending local index, with their target. -/
def grantOrder (rs : List MemReq) : List (Die × Nat) :=
  (sortBy (fun a b => decide (a.1 ≤ b.1)) (rs.map fun r => r.parts.map fun p => (p.core, r.target, p.units)).flatten).map
    fun y => (y.2.1, y.2.2)

/-- Whether the allowance for asynchronous energy of the lap still holds a charge (R41). -/
def asyncFits (s : State) (charge : Nat) : Bool :=
  match s.run.program with
  | some p => decide (s.pacer.asyncEnergy + charge ≤ p.asyncEnergy)
  | none => true

/-- Granting budget to one asynchronous request of a die and tier; false when it still waits (R41). -/
def grantOne (s : State) (d : Die) (far late : Bool) (id : Nat) : State × Bool :=
  let x := s.die d
  let mine (r : MemReq) : Bool := decide (r.id = id) && decide (r.far = far) && r.async
  let rs := x.memQ.filter mine
  let charge := ((rs.filter fun r => !r.paid).map (·.charge)).foldl (· + ·) 0
  if !asyncFits s charge then (pacerEvent s 0, false)
  else
    let t := x.tier far
    let total := (rs.map (·.total)).foldl (· + ·) 0
    let had := (rs.map (·.allowed)).foldl (· + ·) 0
    let got := min (lapBudget s (if far then 5 else 4) - t.asyncUsed) (total - had)
    let ord := grantOrder rs
    let upd (r : MemReq) : MemReq :=
      if mine r then
        let a := grantTo r.target ord (had + got)
        if late ∧ r.allowed < a then
          { r with allowed := a, paid := true, floorFrom := r.allowed, floorAt := lapStart s + 24 * hops d r.target }
        else { r with allowed := a, paid := true }
      else r
    let s1 := { s with pacer := { s.pacer with asyncEnergy := s.pacer.asyncEnergy + charge } }
    let s2 := s1.setDie d ({ x with memQ := x.memQ.map upd }.setTier far { t with asyncUsed := t.asyncUsed + got })
    if had + got < total then (pacerEvent s2 0, false) else (s2, true)

/-- The requests of a die and tier that wait for budget, in issue order. -/
def waitingIds (x : DieSt) (far : Bool) : List Nat :=
  ((x.memQ.filter fun r => r.async && decide (r.far = far) && (decide (r.allowed < r.total) || !r.paid)).map (·.id)).eraseDups

/-- Granting budget in issue order until one waits (R41). -/
def grantAll (s : State) (d : Die) (far late : Bool) : State :=
  ((waitingIds (s.die d) far).foldl (fun (y : State × Bool) id => if y.2 then grantOne y.1 d far late id else y)
    (s, true)).1

/-! ### The MEM slot (R293–R295, R323–R326) -/

/-- One core's view of a request: local index, active, device address, core store address. -/
structure MemIn where
  core : Nat
  active : Bool
  dev : Nat
  cs : Nat
  deriving DecidableEq, Repr

/-- The device and core store addresses of every core (R277, R293). -/
def memIns (s : State) (d : Die) (p : Reg4) (m : MemArgs) : List MemIn :=
  let base := (vget (issueNow s d).s m.sa 0).toNat
  (idxCores s d).map fun y =>
    let off := if m.au then (y.2.a[m.an]).toNat * 2 ^ m.sh.val else 0
    ⟨y.1, activeOn y.2 p, (base + off) % 2 ^ 48, csaAddr y.2 m.csa⟩

/-- Whether an active core's addresses break R293, R318 or R323. -/
def memInBad (d : Die) (async : Bool) (n align csAl : Nat) (y : MemIn) : Bool :=
  !csOk y.cs csAl n || decide (y.dev % align ≠ 0) || !devRange y.dev n ||
    (match devLocate y.dev with | some w => !async && decide (w.2.1 ≠ d.val) | none => true)

/-- Where an inactive core's units count (R324, log 22): where the first active core's address goes, else the tier of the
first address that names memory, else the near tier; a static request without an active core is one of its own die. -/
def memHome (d : Die) (async : Bool) (ins : List MemIn) : Bool × Nat :=
  match (ins.filter (·.active)).head?.bind (fun y => devLocate y.dev), ins.findSome? (fun y => devLocate y.dev) with
  | some w, _ => (w.1, w.2.1)
  | none, some w => (w.1, if async then w.2.1 else d.val)
  | none, none => (false, d)

/-- The tier and die that a core's part counts in. -/
def memWhere (home : Bool × Nat) (y : MemIn) : Bool × Nat :=
  if y.active then (match devLocate y.dev with | some w => (w.1, w.2.1) | none => home) else home

/-- The earliest service of a request (R325, R326). -/
def memEarliest (s : State) (d : Die) (async far : Bool) (t : Die) : Nat :=
  let now := s.laps.now
  if async then now + 20 + 24 * hops d t
  else
    match ((s.die d).memQ.filter fun r => !r.async && decide (r.far = far)).getLast? with
    | some r => max (now + 20) (r.earliest + ceilDiv r.total (tierSlots far))
    | none => now + 20

/-- The code of an operation in a memory packet (Table 14-7). -/
def memOpCode : MemKind → Nat
  | .rd => 1
  | .wr => 2
  | .qadd _ => 3
  | .maxloc _ => 4
  | .radd _ => 5

/-- The first payload word of a memory packet, for a first unit at device address `a` (Table 14-7). -/
def packetWord (epoch newEpoch : BitVec 4) (k : MemKind) (async : Bool) (a : Nat) : DWord :=
  BitVec.ofNat 64 (a % 2 ^ 48 + epoch.toNat * 2 ^ 48 + memOpCode k * 2 ^ 52 + b2n async * 2 ^ 55 + newEpoch.toNat * 2 ^ 56)

/-- The word of a request on a tier that is formed now: its first unit is the first line of the block of its first active
part, and the epoch is that of the line's channel (R333). -/
def requestWord (s : State) (t : Die) (far : Bool) (k : MemKind) (async : Bool) (parts : List MemPart) : DWord :=
  let b := match parts.find? (·.active) with | some p => p.off / 256 | none => 0
  packetWord (vget ((s.die t).tier far).chans (linePlace far b 0).1 Chan.init).epoch 0 k async (devAddr t far (256 * b))

/-- The request of one tier of one die. -/
def memReq (s : State) (d : Die) (m : MemArgs) (k : MemKind) (n charge : Nat) (w : Bool × Nat) (ys : List MemIn) : MemReq :=
  let parts : List MemPart := ys.map fun y =>
    let o := match devLocate y.dev with | some v => if y.active then v.2.2 else y.dev % 256 | none => y.dev % 256
    ⟨y.core, y.active, o, y.cs, n, rangeUnits k o n, 0, []⟩
  let total := (parts.map (·.units)).foldl (· + ·) 0
  let t := dieOf w.2
  { id := s.fabric.nextId, kind := k, die := d, target := t, far := w.1, async := m.async, effect := s.laps.now,
    earliest := memEarliest s d m.async w.1 t, parts := parts, served := 0, total := total,
    allowed := if m.async then 0 else total, floorFrom := 0, floorAt := 0, paid := !m.async, charge := charge,
    lastAt := 0, sig := if m.sig then some m.bar else none, word := requestWord s t w.1 k m.async parts }

/-- A MEM operation: addresses checked on active cores, the request queued, its units admitted (R41, R323, R325). -/
def memOp (s : State) (d : Die) (p : Reg4) (m : MemArgs) (op : Nat) (k : MemKind) (n align csAl : Nat) : State :=
  if (issueNow s d).prog then
    let s0 := if m.async then s else addEnergy s d op
    let ins := memIns s0 d p m
    let bad := ins.filter fun y => y.active && memInBad d m.async n align csAl y
    if !bad.isEmpty then bad.foldl (fun s y => raiseCore s d y.core (0x0168, 11, 0, y.dev)) s0
    else
      let home := memHome d m.async ins
      let keys := (ins.map (memWhere home)).eraseDups
      let reqs := keys.mapIdx fun i w =>
        memReq s0 d m k n (if m.async && decide (i = 0) then Config.charge op else 0) w
          (ins.filter fun y => decide (memWhere home y = w))
      let s1 := { s0 with fabric := { s0.fabric with nextId := s0.fabric.nextId + 1 } }
      let s2 := s1.setDie d { s1.die d with memQ := (s1.die d).memQ ++ reqs }
      if m.async then grantAll (grantAll s2 d false false) d true false else s2
  else s

/-- Lengths of MEM.RD and MEM.WR (Table 12-11). -/
def memLenOk (len : BitVec 10) : Bool := decide (1 ≤ len.toNat) && decide (len.toNat ≤ 768)

/-- MEM.RD (R293, R326). -/
def execMemRd (d : Die) (p : Reg4) (m : MemArgs) (len : BitVec 10) (s : State) : Host.Outcome State Fault Refusal :=
  if memLenOk len then .next (memOp s d p m 0x701 .rd (64 * len.toNat) 64 64) else .refused .reserved

/-- MEM.WR (R293, R326). -/
def execMemWr (d : Die) (p : Reg4) (m : MemArgs) (len : BitVec 10) (s : State) : Host.Outcome State Fault Refusal :=
  if memLenOk len then .next (memOp s d p m 0x702 .wr (64 * len.toNat) 64 64) else .refused .reserved

/-- MEM.QADD (R97, R329): posit formats. -/
def execMemQadd (d : Die) (p : Reg4) (m : MemArgs) (f : Fmt) (cnt : Fin 64) (s : State) :
    Host.Outcome State Fault Refusal :=
  if isPosit f then .next (memOp s d p m 0x703 (.qadd f) ((cnt.val + 1) * imgSize f) 8 8) else .refused .reserved

/-- MEM.MAXLOC (R98, R329): posit formats and binary32. -/
def execMemMaxloc (d : Die) (p : Reg4) (m : MemArgs) (f : Fmt) (cnt : Fin 64) (s : State) :
    Host.Outcome State Fault Refusal :=
  if isPosit f || decide (f = .b32) then .next (memOp s d p m 0x704 (.maxloc f) ((cnt.val + 1) * 8) 8 8)
  else .refused .reserved

/-- The mode word's STRICT for the program in force (R336). -/
def strictNow (s : State) : Bool := match s.run.run with | some r => r.strict | none => s.run.strictActive

/-- A timing-dependent choice of the lap (R339, R341). -/
def addTdc (s : State) (bit n : Nat) : State :=
  { s with run := { s.run with tdcNow := s.run.tdcNow + n, kindsNow := s.run.kindsNow ||| BitVec.ofNat 3 (2 ^ bit) } }

/-- MEM.RADD (R295, R329, R330): a program fault with STRICT set; otherwise a timing-dependent choice. -/
def execMemRadd (d : Die) (p : Reg4) (m : MemArgs) (f : Fmt) (cnt : Fin 64) (s : State) :
    Host.Outcome State Fault Refusal :=
  if isPosit f || isIeee f then
    if (issueNow s d).prog then
      if strictNow s then .next (raiseDie s d 0x0169 11 0)
      else .next (memOp (addTdc s 1 1) d p m 0x705 (.radd f) ((cnt.val + 1) * (fmtBits f / 8)) (fmtBits f / 8) 8)
    else .next s
  else .refused .reserved

/-! ### The atomic unit (R97, R98, R329, R330) -/

/-- A MAXLOC slot after an operand (R98). -/
def maxlocSlot (f : Fmt) (slot op : List Byte) : List Byte :=
  let w := fmtBits f / 8
  let a := leNat (slot.take w)
  let b := leNat (op.take w)
  let i := leNat ((slot.drop 4).take 4)
  let j := leNat ((op.drop 4).take 4)
  let put := (decodeNum f a).isNan || totalLt f a b || (!totalLt f b a && decide (j < i))
  if (decodeNum f b).isNan || !put then slot else slotBytes b j

/-- Target bytes after an element, and what it reports: a FMT mismatch leaves the target unchanged (R97), a residue that
fails is a detected fault and the add completes (R96). -/
def atomApply (k : MemKind) (tgt op : List Byte) (a : Nat) : List Byte × List Raise :=
  match k with
  | .qadd f =>
    let x := imgParse f tgt
    let y := imgParse f op
    if x.2 ≠ fmtCode f ∨ y.2 ≠ fmtCode f then (tgt, [(0x0104, 11, 0, a)])
    else (imgBytes (longAdd x.1 y.1), if x.1.resOk && y.1.resOk then [] else [(0x0004, 11, 0, a)])
  | .maxloc f => (maxlocSlot f tgt op, [])
  | .radd f => (leBytes (fmtBits f / 8) (arithElem .add f .rne (leNat tgt) (leNat op) 0).1, [])
  | _ => (tgt, [])

/-- Whether side B is the frozen side: side A is live (R381). -/
def frozenB (s : State) : Bool := !s.split.live

/-- Whether a write meets what R381 protects: the frozen side's header block and regions, or the module's bytes of the
step block. -/
def hitsFrozen (s : State) (a n : Nat) : Bool :=
  match (if runActive s then s.run.run.bind (·.split) else none) with
  | some k =>
    rangesMeet a n (if frozenB s then k.hdrB else k.hdrA) 17408 || rangesMeet a n (k.scb + 64) 64 ||
      k.regions.any fun r => rangesMeet a n (if frozenB s then r.2.1 else r.1) r.2.2
  | none => false

/-- Whether an asynchronous write meets the step block (R380). -/
def hitsStepBlock (s : State) (a n : Nat) : Bool :=
  match (if runActive s then s.run.run.bind (·.split) else none) with
  | some k => rangesMeet a n k.scb 1024
  | none => false

/-- What a write of a run meets: IMAGE_WRITE (R264), or SPLIT_WRITE (R380, R381). -/
def writeCause (s : State) (a n : Nat) (async : Bool) : Option Nat :=
  if hitsImage s a n then some 0x0151
  else if hitsFrozen s a n || (async && hitsStepBlock s a n) then some 0x0178
  else none

/-- One line of a core's write to a tier, `bs` at offset `o`, with the conditions of R264, R380 and R381. They are asked of
the write's whole range, so that one which meets a protected byte changes nothing in memory; its first line raises the
cause. -/
def runWrite (s : State) (q : MemReq) (p : MemPart) (o : Nat) (bs : List Byte) : State :=
  match writeCause s (devAddr q.target q.far p.off) p.len q.async with
  | some c => if o = p.off then raiseCore s q.die p.core (c, 11, 0, devAddr q.target q.far o) else s
  | none => tierWrite s q.target q.far o bs

/-- An element's target after its operation, and what the operation reports. -/
def atomResult (s : State) (t : Die) (far : Bool) (e : AtomElem) : List Byte × List Raise :=
  atomApply e.kind (tierRead ((s.die t).tier far) e.off (atomSize e.kind)) e.operand (devAddr t far e.off)

/-- Adding an element to those whose request is not complete. -/
def addAtom (s : State) (t : Die) (far : Bool) (e : AtomElem) : State :=
  let x := (s.die t).tier far
  s.setTier t far { x with atoms := x.atoms ++ [e] }

/-- Whether every block that an element's target touches can be read (Table 14-3). -/
def atomReadable (s : State) (t : Die) (far : Bool) (e : AtomElem) : Bool :=
  (blocksOf e.off (atomSize e.kind)).all fun b => (stripeData ((s.die t).tier far) b).isSome

/-- Applying one waiting element of a tier; a target that cannot be read keeps its bytes (R320). -/
def atomRun (s : State) (t : Die) (far : Bool) (e : AtomElem) : State :=
  if atomReadable s t far e then tierWrite s t far e.off (atomResult s t far e).1 else s

/-- The positions of the elements of a tier that wait. -/
def waitingAtoms (t : Tier) : List Nat :=
  (List.range t.atoms.length).filter fun i => match t.atoms[i]? with | some e => !e.done | none => false

/-- One waiting element, whichever the draw names, acts. -/
def atomTake (s : State) (t : Die) (far : Bool) : State :=
  let tier := (s.die t).tier far
  let idx := waitingAtoms tier
  let d := s.draw
  let i := nth idx (Config.atomicPick d.1 idx.length % idx.length) 0
  match tier.atoms[i]? with
  | some e =>
    if e.done then d.2
    else atomRun (d.2.setTier t far { tier with atoms := tier.atoms.set i { e with done := true } }) t far e
  | none => d.2

/-- Taking waiting elements of a tier in an order that the manual leaves open, until none of request `id` waits (R329). -/
def atomDrain : Nat → State → Die → Bool → Nat → State
  | 0, s, _, _, _ => s
  | n + 1, s, t, far, id =>
    if ((s.die t).tier far).atoms.any (fun e => decide (e.id = id) && !e.done) then atomDrain n (atomTake s t far) t far id else s

/-- As many of the waiting elements of a tier as a draw says act in this cycle, in an order that the manual leaves open
(R329). -/
def atomSome : Nat → State → Die → Bool → State
  | 0, s, _, _ => s
  | n + 1, s, t, far => if (waitingAtoms ((s.die t).tier far)).isEmpty then s else atomSome n (atomTake s t far) t far

/-- An element in the service cycle of its last unit (R329). A QADD or MAXLOC acts at once, since its result is the same in
every order (R99). RADD elements that wait, this one with them, act in this cycle or a later one up to the completion of
their request: a draw decides. -/
def atomServe (s : State) (t : Die) (far : Bool) (e : AtomElem) : State :=
  let z := atomSize e.kind
  let a := devAddr t far e.off
  match e.kind, writeCause s a z e.async with
  | _, some c => raiseCore (addAtom s t far { e with done := true }) e.die e.core (c, 11, 0, a)
  | .radd _, none =>
    let s1 := addAtom s t far e
    let d := s1.draw
    let n := (waitingAtoms ((s1.die t).tier far)).length
    atomSome (Config.atomicPick d.1 (n + 1) % (n + 1)) d.2 t far
  | _, none =>
    if !atomReadable s t far e then addAtom s t far { e with done := true }
    else
      let r := atomResult s t far e
      let s1 := r.2.foldl (fun s x => raiseCore s e.die e.core x) (addAtom s t far { e with done := true })
      if r.2.any (fun x => decide (x.1 = 0x0104)) then s1 else tierWrite s1 t far e.off r.1

/-- Applying every element that waits at a tier. -/
def settleTier (s : State) (t : Die) (far : Bool) : State :=
  let x := (s.die t).tier far
  (x.atoms.map (·.id)).eraseDups.foldl (fun s id => atomDrain x.atoms.length s t far id) s

/-- Applying every element that waits anywhere: its units were served (R329). -/
def settleAtoms (s : State) : State := forDies (fun s t => settleTier (settleTier s t false) t true) s

/-! ### Serving a unit (R320, R326–R329) -/

/-- Whether an operation is an atomic. -/
def isAtom (k : MemKind) : Bool := sameAtom k k

/-- Whether a stripe of a tier is one of an atomic request of another kind that is not complete: issued and still in a
queue, whatever part of it has been served (R328, log 51). -/
def stripeRaces (s : State) (q : MemReq) (st : Nat) : Bool :=
  (List.finRange 16).any fun d => (s.die d).memQ.any fun r =>
    decide (r.id ≠ q.id) && decide (r.target = q.target) && decide (r.far = q.far) && isAtom r.kind && !sameAtom q.kind r.kind &&
      r.parts.any fun p => p.active && (blocksOf p.off p.len).contains st

/-- The bytes of line `k` of stripe `st` within a range: offset and count. -/
def linePart (o n st k : Nat) : Nat × Nat :=
  let a := max o (256 * st + 64 * k)
  let b := min (o + n) (256 * st + 64 * (k + 1))
  (a, b - a)

/-- The core store bytes that a unit of a write carries, read 24h cycles before its service (R326). -/
def sourceBytes (s : State) (q : MemReq) (p : MemPart) (k n : Nat) : List Byte :=
  match (s.die q.die).cores[p.core]? with
  | some c => csReadAt c (s.laps.now - 24 * hops q.die q.target) (p.cs + k) n
  | none => zeros n

/-- The first unit of a stripe: the race of R328 and the outcome of Table 14-3. -/
def stripeStart (s : State) (q : MemReq) (p : MemPart) (st : Nat) (reads : Bool) : State :=
  let a := devAddr q.target q.far (256 * st)
  let s1 := if stripeRaces s q st then raiseCore s q.die p.core (0x016B, 11, 0, a) else s
  if reads then noteRead s1 q.target q.far st else s1

/-- The elements of a part whose last byte lies in stripe `st` (R329). -/
def stripeElems (q : MemReq) (p : MemPart) (st : Nat) : List Nat :=
  let z := atomSize q.kind
  (List.range (p.len / z)).filter fun i => decide ((p.off + i * z + z - 1) / 256 = st)

/-- The effect of the next unit of an active part; the part comes back with the data it has read. A stripe that cannot be
read returns no data, and a part of it is not written (R320). -/
def unitEffect (s : State) (q : MemReq) (p : MemPart) : State × MemPart :=
  let u := unitAt (rangeStripes q.kind p.off p.len) p.served
  let st := u.1
  let k := u.2.2
  let whole := decide (q.kind = .wr) && decide (u.2.1 = 4)
  let s1 := if k = 0 then stripeStart s q p st (!whole) else s
  let t := (s1.die q.target).tier q.far
  let sound := whole || (stripeData t st).isSome
  match q.kind with
  | .rd =>
    let l := linePart p.off p.len st k
    let p1 := if sound then { p with buf := p.buf ++ tierRead t l.1 l.2 } else p
    if p.served + 1 = p.units ∧ p1.buf.length = p.len then
      (onCore s1 q.die p.core fun c => csWrite c (s.laps.now + tierTail q.far + 24 * hops q.die q.target) p.cs p1.buf 4, p1)
    else (s1, p1)
  | .wr =>
    let line := if whole then k else k - 4
    if !whole && decide (k < 4) then (s1, p)
    else
      let l := linePart p.off p.len st line
      if l.2 = 0 ∨ !sound then (s1, p) else (runWrite s1 q p l.1 (sourceBytes s1 q p (l.1 - p.off) l.2), p)
  | _ =>
    if k + 1 = u.2.1 then
      let z := atomSize q.kind
      ((stripeElems q p st).foldl (fun s i => atomServe s q.target q.far
        ⟨q.id, q.kind, q.die, p.core, p.off + i * z, sourceBytes s1 q p (i * z) z, q.async, false⟩) s1, p)
    else (s1, p)

/-- The part of a request that its next unit belongs to, with its position. -/
def nextPart : List MemPart → Nat → Option (Nat × MemPart)
  | [], _ => none
  | p :: ps, i => if p.served < p.units then some (i, p) else nextPart ps (i + 1)

/-- Whether a request may be served a unit in this cycle (R325, R326, R41). -/
def reqReady (s : State) (r : MemReq) : Bool :=
  decide (r.earliest ≤ s.laps.now) && decide (r.served < r.allowed) &&
    (decide (r.served < r.floorFrom) || decide (r.floorAt ≤ s.laps.now))

/-- Serving the next unit of request number `j` of die `d` (R324, R327). -/
def serveUnit (s : State) (d : Die) (j : Nat) : State :=
  match (s.die d).memQ[j]? with
  | none => s
  | some q =>
    match nextPart q.parts 0 with
    | none => s
    | some (i, p) =>
      let r := if p.active then unitEffect s q p else (s, p)
      let p1 := { r.2 with served := p.served + 1 }
      let x := r.1.die d
      let q1 := { q with parts := q.parts.set i p1, served := q.served + 1, lastAt := s.laps.now }
      let s1 := r.1.setDie d { x with memQ := x.memQ.set j q1 }
      let t := (s1.die q.target).tier q.far
      let s2 := s1.setTier q.target q.far
        { t.useSlot s.laps.now with staticUsed := if q.async then t.staticUsed else t.staticUsed + 1 }
      let cap := match s.run.program with
        | some y => nth (if q.far then y.farStatic else y.nearStatic) q.target 0
        | none => t.staticUsed + 1
      if !q.async && decide (cap < t.staticUsed + 1) then raiseDie s2 d 0x016A 11 0 else s2

/-- Serving up to `n` units of one request. -/
def serveMany : Nat → State → Die → Nat → State
  | 0, s, _, _ => s
  | n + 1, s, d, j =>
    match (s.die d).memQ[j]? with
    | some r => if reqReady s r then serveMany n (serveUnit s d j) d j else s
    | none => s

/-- Slots that a tier has left in this cycle (R322). -/
def slotsLeft (s : State) (d : Die) (far : Bool) : Nat :=
  let t := (s.die d).tier far
  tierSlots far - (if t.usedAt = s.laps.now then t.usedNow else 0)

/-- Static service in this cycle: the die's first request with units left, once it has started (R322, R325). -/
def serveStatic (s : State) (d : Die) (far : Bool) : State :=
  let q := (s.die d).memQ
  match firstIdx (fun r => !r.async && decide (r.far = far) && decide (r.served < r.total)) q 0 with
  | some j => serveMany (slotsLeft s d far) s d j
  | none => s

/-- The asynchronous requests aimed at a tier, in the order of R322: effect, issuing die, issue. -/
def asyncOrder (s : State) (t : Die) (far : Bool) : List (Die × Nat) :=
  let all := ((List.finRange 16).map fun d => ((s.die d).memQ.mapIdx fun j r => (d, j, r))).flatten
  let mine := all.filter fun y : Die × Nat × MemReq =>
    y.2.2.async && decide (y.2.2.target = t) && decide (y.2.2.far = far) && decide (y.2.2.served < y.2.2.total)
  (sortBy (fun a b => decide (a.2.2.effect < b.2.2.effect) ||
    (decide (a.2.2.effect = b.2.2.effect) && (decide (a.1 < b.1) || (decide (a.1 = b.1) && decide (a.2.1 ≤ b.2.1)))))
    mine).map fun y => (y.1, y.2.1)

/-- Asynchronous service in this cycle, with the slots that other classes left. A lap that is aborted serves no more of the
asynchronous requests still queued (R30). -/
def serveAsync (s : State) (t : Die) (far : Bool) : State :=
  if s.laps.lapFault then s
  else (asyncOrder s t far).foldl (fun s y => serveMany (slotsLeft s t far) s y.1 y.2) s

/-- The word `w` of a die's stream read from the program image, through one near-tier slot (R263, R322). -/
def pageWord (s : State) (d : Die) (w : Nat) : State :=
  let a := match s.run.program.or s.run.loading with
    | some p => p.image + 1024 + 64 * (((p.streams.take d).map (·.1)).foldl (· + ·) 0 + w)
    | none => 0
  let s1 := if w % 4 = 0 then touchRange s a 64 else s
  s1.setTier d false ((s1.die d).near.useSlot s.laps.now)

/-- One resident word of a die that loads or reloads, in an idle or recovery lap, under its paging budget (R268, R271,
R391). -/
def serveDue (s : State) (d : Die) : State :=
  let x := s.die d
  if x.due = 0 ∨ !(s.laps.state == 0 || s.laps.state == 3) then s
  else if lapBudget s 6 ≤ x.seq.pageUsed then pacerEvent s 0
  else
    let n := match s.run.program.or s.run.loading with | some p => (nth p.streams d.val (0, 0, 0)).2.2 | none => 0
    pageWord (s.setDie d { x with due := x.due - 1, seq := { x.seq with pageUsed := x.seq.pageUsed + 1 } }) d (n - x.due)

/-- One paging word in this cycle, with near-tier slots left (R263, R322): the oldest loading page takes it under its
budget, from the cycle after issue; its first word waits for the energy allowance too (R41). With no page loading, a
resident word. -/
def servePage (s : State) (d : Die) : State :=
  let q := (s.die d).seq
  if slotsLeft s d false = 0 then s
  else
    match q.pageQ with
    | [] => serveDue s d
    | p :: rest =>
      match vget q.frames (p % 128) .none with
      | .loading pg taken last =>
        if pg ≠ p then s.setSeq d { q with pageQ := rest }
        else if pageWords s d p ≤ taken then s.setSeq d { q with pageQ := rest }
        else if s.laps.now ≤ last then s
        else
          let fee := if taken = 0 then Config.charge 0x20 else 0
          if lapBudget s 6 ≤ q.pageUsed ∨ !asyncFits s fee then pacerEvent s 0
          else
            let done := decide (taken + 1 = pageWords s d p)
            let s1 := s.setSeq d { q with frames := vset q.frames (p % 128) (.loading p (taken + 1) s.laps.now),
                                          pageUsed := q.pageUsed + 1, pageQ := if done then rest else q.pageQ }
            pageWord { s1 with pacer := { s1.pacer with asyncEnergy := s1.pacer.asyncEnergy + fee } } d (1024 * p + taken)
      | _ => s.setSeq d { q with pageQ := rest }

/-! ### Completion (R294, R326, R327) -/

/-- Whether request `id` of a die is complete in this cycle: every part served, and the tail past. -/
def reqDone (s : State) (d : Die) (id : Nat) : Bool :=
  ((s.die d).memQ.filter fun r => decide (r.id = id)).all fun r =>
    decide (r.served = r.total) && decide (r.lastAt + tierTail r.far + 24 * hops d r.target ≤ s.laps.now)

/-- Completing request `id`: its atomics are applied, its stripes are free, and its completion signal counts (R294). -/
def completeReq (s : State) (d : Die) (id : Nat) : State :=
  let rs := (s.die d).memQ.filter fun r => decide (r.id = id)
  let s1 := rs.foldl (fun s r =>
    let n := ((s.die r.target).tier r.far).atoms.length
    let s1 := atomDrain n s r.target r.far id
    let t := (s1.die r.target).tier r.far
    s1.setTier r.target r.far { t with atoms := t.atoms.filter fun e => decide (e.id ≠ id) }) s
  let s2 := s1.setDie d { s1.die d with memQ := (s1.die d).memQ.filter fun r => decide (r.id ≠ id) }
  match rs.findSome? (·.sig) with
  | some b => { s2 with fabric := { s2.fabric with signals := s2.fabric.signals ++ [⟨d, d, b, s.laps.now, none, (s.die d).epoch, (s.die d).epoch⟩] } }
  | none => s2

/-- MEM_COMPLETE: every request of die `d` that is complete in this cycle (R326). -/
def execMemComplete (d : Die) (s : State) : Host.Outcome State Fault Refusal :=
  .next (((((s.die d).memQ.map (·.id)).eraseDups).filter (reqDone s d)).foldl (fun s id => completeReq s d id) s)

end Sys2Proof.Machine
end

