-- ==== Sys2Proof/Machine/Quant.lean ====
section
/-! DEFINITION. V.QUANT (R218–R226). -/
namespace Sys2Proof.Machine

/-- The scalar fields of V.QUANT (Table 10-2). -/
structure QuantArgs where
  sfix : Nat
  clip : Nat
  tag : Nat
  mode : Nat
  recAt : Nat
  cnt : Nat
  zero : Bool
  deriving DecidableEq, Repr

/-- Reading Table 10-2; `zero` holds when the reserved bits are 0. -/
def quantArgs (s2 s3 : DWord) : QuantArgs :=
  let a := s2.toNat
  let b := s3.toNat
  { sfix := a % 2 ^ 32, clip := a / 2 ^ 32 % 2 ^ 16, tag := a / 2 ^ 48 % 2 ^ 8, mode := a / 2 ^ 56 % 4,
    recAt := b % 2 ^ 16, cnt := b / 2 ^ 16 % 2 ^ 16, zero := decide (a / 2 ^ 58 = 0) && decide (b / 2 ^ 32 = 0) }

/-- (qmin, qmax) of a destination (R220). -/
def quantBounds (f : Fmt) : Int × Int := if f = .i4 then (-8, 7) else (-128, 127)

/-- Rounding an exact quotient to an integer, sign kept (R65, R66, R220). -/
def rintSigned (m : Rnd) (x : Frac) : Int := if x.isNeg then -(roundInt m x.abs) else roundInt m x

/-- A quantised row: codes, scale bits, zero point, clip count, degenerate bit, flags by element. -/
structure QuantRow where
  codes : List Int
  scale : Nat
  zt : Int
  clips : Nat
  degen : Bool
  flags : List (Nat × Nat)
  deriving DecidableEq, Repr

/-- A scale rounded once to P32, its exact value, and CVT_CLAMP at the first element where it clamps (R220). -/
def quantScale (x : Frac) : Nat × Frac × List (Nat × Nat) :=
  let r := convertNum .p32 .rne (numOf x)
  (r.1, (decodeNum .p32 r.1).val, if r.2 = some .clamp then [(5, 0)] else [])

/-- The least and the greatest of some values, with 0. -/
def loHi (vs : List Frac) : Frac × Frac :=
  vs.foldl (fun b v => (if v.lt b.1 then v else b.1, if b.2.lt v then v else b.2)) (Frac.zero, Frac.zero)

/-- Codes of a row under scale `s` and zero point `zt` (R220, R221). -/
def quantCodes (b : Int × Int) (static : Bool) (s : Frac) (zt : Int) (rnd : Nat → Rnd) (vs : List Frac) :
    List Int × List (Nat × Nat) :=
  let cs := vs.mapIdx fun i v =>
    let q := rintSigned (rnd i) (v.div s) + zt
    let r := max b.1 (min b.2 q)
    (i, r, decide (r ≠ q))
  (cs.map (·.2.1), if static then (cs.filter (·.2.2)).map fun c => (4, c.1) else [])

/-- One row (R220–R223). -/
def quantRow (f out : Fmt) (a : QuantArgs) (rnd : Nat → Rnd) (xs : List Nat) : QuantRow :=
  let b := quantBounds out
  let ns := xs.map (decodeNum f)
  let special (n : Num) : Bool := match n with | .fin _ _ => false | _ => true
  match firstIdx special ns 0 with
  | some i => ⟨xs.map fun _ => 0, 0x80000000, 0, 0, false, [(3, i)]⟩
  | none =>
    let vs := ns.map Num.val
    if a.mode = 2 then
      let r := quantCodes b true (decodeNum .p32 a.sfix).val 0 rnd vs
      ⟨r.1, a.sfix, 0, r.2.length, false, r.2⟩
    else
      let c := vs.headD Frac.zero
      if vs.all (Frac.eqv c) then
        if c.isZero then ⟨xs.map fun _ => 0, 0x40000000, 0, 0, true, []⟩
        else
          let s := quantScale (c.abs.mul ⟨1, b.2.toNat⟩)
          ⟨xs.map fun _ => if c.isNeg then -b.2 else b.2, s.1, 0, 0, true, s.2.2⟩
      else
        let h := loHi vs
        if a.mode = 0 then
          let s := quantScale ((if h.1.abs.lt h.2 then h.2 else h.1.abs).mul ⟨1, b.2.toNat⟩)
          let r := quantCodes b false s.2.1 0 rnd vs
          ⟨r.1, s.1, 0, 0, false, s.2.2⟩
        else
          let s := quantScale ((h.2.sub h.1).mul ⟨1, (b.2 - b.1).toNat⟩)
          let zt := max b.1 (min b.2 (b.1 - rintSigned .rne (h.1.div s.2.1)))
          let r := quantCodes b false s.2.1 zt rnd vs
          ⟨r.1, s.1, zt, 0, false, s.2.2⟩

/-- The token record of a row (Table 6-5, R224). -/
def tokenRecord (q : QuantRow) (tag : Nat) : List Byte :=
  leBytes 4 q.scale ++ leBytes 4 (ofSigned 32 (q.codes.foldl (· + ·) 0)) ++ leBytes 2 (ofSigned 16 q.zt) ++
    [BitVec.ofNat 8 tag] ++ zeros 5

/-- The row word (Table 10-3). -/
def rowWord (q : QuantRow) : List Byte := leBytes 4 (q.clips % 2 ^ 31 + 2 ^ 31 * b2n q.degen)

/-- The block header (Table 10-3). -/
def blockHeader (tag : Nat) (f : Fmt) : List Byte := [BitVec.ofNat 8 tag, BitVec.ofNat 8 (fmtCode f)] ++ zeros 14

/-- Cycles of one row (R226). -/
def quantCycles (mode : Nat) (s : TDesc) : Nat :=
  let b := ceilDiv (s.ext 0) 16
  if mode = 2 then b + 4 else 2 * b + 20

/-- Source and destination descriptors. -/
def quantParts (dd da : BitVec 11) (c : Core) : Option (TDesc × TDesc) :=
  match readTensor c da.toNat, readTensor c dd.toNat with
  | some s, some d => some (s, d)
  | _, _ => none

/-- Pipe cycles of V.QUANT. -/
def quantOcc (dd da : BitVec 11) (mode : Nat) (c : Core) : Nat :=
  match quantParts dd da c with
  | some (s, _) => 2 + s.runs * quantCycles mode s
  | none => 0

/-- Formats and fields (R219, check 0x4A). -/
def quantFmtOk (a : QuantArgs) (s d : TDesc) : Bool :=
  (isPosit s.fmt || decide (s.fmt = .b32)) && (decide (d.fmt = .i8) || decide (d.fmt = .i4)) && !s.masked && !d.masked &&
    decide (a.mode ≠ 3) && a.zero

/-- Extents and alignment (R219, Table 10-2). -/
def quantDescOk (a : QuantArgs) (s d : TDesc) : Bool :=
  decide (d.n = s.n) && decide (d.base % 16 = 0) && decide (a.recAt % 16 = 0) && decide (a.cnt % 4 = 0)

/-- What V.QUANT writes lies in core store, clear of the source (R226). -/
def quantRangeOk (a : QuantArgs) (s d : TDesc) : Bool :=
  let n := s.runs
  let spans := [(d.base - 16, 16), (a.recAt, 16 * n)] ++ (if a.cnt = 0 then [] else [(a.cnt, 4 * n)])
  decide (16 ≤ d.base) && d.inStore && spans.all (fun y => decide (y.1 + y.2 ≤ csSize)) &&
    !(d.shares s) && !(spans.any fun y => s.touches y.1 y.2)

/-- The decision bit of R225. -/
def quantDecision (a : QuantArgs) (s : TDesc) (clips : Nat) : Bool :=
  decide (a.mode = 2) && decide (a.clip * s.count < clips * 65536)

/-- Writing Pd, and counting a decision of 1 (R225, R230). -/
def quantPd (a : QuantArgs) (s : TDesc) (pd : Reg4) (clips ready : Nat) (c : Core) : Core × List Raise :=
  let on := quantDecision a s clips
  let ones : DWord := BitVec.ofNat 64 (2 ^ 64 - 1)
  let w := regWrite c ready true [.p pd ones (if on then ones else 0)]
  ({ w.1 with fallback := w.1.fallback + b2n on }, w.2)

/-- One row in its first cycle (R471, R224, R226). -/
def quantUnit (pd : Reg4) (j : VecJob) (c : Core) : VecJob × Core × List Raise :=
  match j.src1, j.dst with
  | some s, some d =>
    let a := quantArgs j.s2 j.s3
    let cyc := quantCycles a.mode s
    let n0 := s.ext 0
    let first := j.start + 2 + j.unit * cyc
    let es := rowElems c s none j.unit
    let rnd (i : Nat) : Rnd := pepperMode d.rnd j.seed d.stream j.pstep.toNat (d.idxBase + j.unit * n0 + i)
    let q := quantRow s.fmt d.fmt a rnd (es.map (·.x))
    let ready := first + cyc - 1 + 12
    let codes := ((es.zip q.codes).map fun y => d.write y.1.ix (ofSigned (fmtBits d.fmt) y.2)).flatten
    let ws := codes ++ byteWrites (a.recAt + 16 * j.unit) (tokenRecord q a.tag) ++
      (if a.cnt = 0 then [] else byteWrites (a.cnt + 4 * j.unit) (rowWord q)) ++
      (if j.unit = 0 then byteWrites (d.base - 16) (blockHeader a.tag d.fmt) else [])
    let w := vecStore c ready ws
    let fl := flagPends ready j.opIdx (q.flags.map fun y => (y.1, (j.unit * n0 + y.2) % 2 ^ 32))
    let c1 := { w.1 with pend := w.1.pend ++ fl, degen := w.1.degen + b2n q.degen }
    let clips := j.count + q.clips
    let r := if j.unit + 1 = j.units then quantPd a s pd clips ready c1 else (c1, [])
    ({ j with count := clips, rowFirst := first, rowLast := first + cyc - 1,
              reads := rowRanges s j.unit n0 es }, r.1, w.2 ++ r.2)
  | _, _ => (j, c, [])

/-- V.QUANT at a core. -/
def quantCore (i : Instr) (p : Reg4) (dd da : BitVec 11) (sp : Reg6) (pd : Reg4) (ref : Nat) (x : CoreIn) (c : Core) :
    Core × List Raise :=
  let s2 := wordS x sp
  let s3 := wordS x (sp.val + 1)
  let a := quantArgs s2 s3
  pipeTake x c (max 2 (quantOcc dd da a.mode c)) fun op c =>
    match quantParts dd da c with
    | none => (c, [(descCause c [da.toNat, dd.toNat], 3, 0, 32 * da.toNat)])
    | some (s, d) =>
      if quantOcc dd da a.mode c ≠ ref then (c, [(0x0131, 3, 0, 32 * da.toNat)])
      else if !quantFmtOk a s d then (c, [(0x0140, 3, 0, 32 * da.toNat)])
      else if !quantDescOk a s d then (c, [(0x0141, 3, 0, 32 * dd.toNat)])
      else if !activeOn c p then (c, [])
      else if !s.inStore then (c, [(0x0132, 3, 0, s.base)])
      else if !quantRangeOk a s d then (c, [(0x0141, 3, 0, d.base)])
      else
        let sf := decodeNum .p32 a.sfix
        if a.mode = 2 ∧ (sf.isNan || !(Frac.zero.lt sf.val)) = true then (c, [(0x0142, 3, 0, 0)])
        else
          let n := s.runs
          let done := x.now + 2 + n * quantCycles a.mode s - 1 + 12
          let c1 := { c with vecDone := max c.vecDone done }
          if n = 0 then quantPd a s pd 0 done c1
          else
            ({ c1 with job := some { newJob i x op n (x.now + 2) (predVal c p) with
                s2 := s2, s3 := s3, dst := some d, src1 := some s } }, [])

/-- V.QUANT (R219–R226). -/
def execVQuant (d : Die) (p : Reg4) (dd da : BitVec 11) (sp : Reg6) (pd : Reg4) (s : State) :
    Host.Outcome State Fault Refusal :=
  if dd.toNat < 1536 ∧ da.toNat < 1536 ∧ sp.val % 2 = 0 then
    .next (vecSlot s d 0x41A (quantOcc dd da (quantArgs (vget (issueNow s d).s sp 0) 0).mode)
      (quantCore (.vQuant d p dd da sp pd) p dd da sp pd))
  else .refused .reserved

/-! ### The element pipe in a cycle -/

/-- One unit of work of the operation in the pipe: a beat, or a row. -/
def jobUnit (j : VecJob) (c : Core) : VecJob × Core × List Raise :=
  match j.instr with
  | .vRed _ _ (.desc _) a => redDescBeat a j c
  | .vRed _ _ (.reg r) a => redRegBeat a r j c
  | .vQuant _ _ _ _ _ pd => quantUnit pd j c
  | .vPlog _ _ zm o pd pa pb => let r := plogBeat zm o pd pa pb j c; (j, r.1, r.2)
  | i =>
    match rowCmdOf i with
    | some k => rowUnit k j c
    | none => let r := elemBeat j c; (j, r.1, r.2)

/-- Cycles from one unit of work to the next. -/
def jobStep (j : VecJob) : Nat :=
  match j.instr with
  | .vRed _ _ _ a => (redTime a.kind).1
  | .vQuant _ _ _ _ _ _ =>
    (match j.src1 with | some s => quantCycles (quantArgs j.s2 j.s3).mode s | none => 1)
  | i =>
    match rowCmdOf i, jobParts j with
    | some k, some q => rowCycles k.kind (rowA2 j.s3) q
    | _, _ => elemStep j

/-- The element pipe in cycle `t`: the unit of work due in it (R166, R204). A row stays in view until its last cycle. -/
def vecTick (t : Nat) (c : Core) : Core × List Raise :=
  match c.job with
  | none => (c, [])
  | some j =>
    if j.unit < j.units ∧ j.nextAt ≤ t then
      let r := jobUnit j c
      let j1 := { r.1 with unit := r.1.unit + 1, nextAt := j.nextAt + jobStep j }
      ({ r.2.1 with job := if j1.unit < j1.units ∨ t < j1.rowLast then some j1 else none }, r.2.2)
    else if j.units ≤ j.unit ∧ j.rowLast ≤ t then ({ c with job := none }, [])
    else (c, [])

end Sys2Proof.Machine
end

