-- ==== Sys2Proof/Machine/Fields.lean ====
section
/-! DEFINITION. The field values that a command may hold (R276, R280, R282, R285–R289, Table 12-11). -/
namespace Sys2Proof.Machine

/-- Whether an element operation holds values and a form that Tables 12-5 to 12-7 admit. -/
def elemFieldsOk (i : Instr) : Bool :=
  match vopOf i with
  | some (o, _, f, _) => vFormOk o f
  | none => false

/-- Whether a row function holds values that R203 and R286 admit. -/
def rowFieldsOk (i : Instr) : Bool :=
  match rowCmdOf i with
  | some k => rowOk k
  | none => false

/-- The command codes of Table 18-9; every other code is unknown. -/
def listedCommands : List Nat := [0x01, 0x02, 0x03, 0x04, 0x05, 0x06, 0x09, 0x0A]

/-- Whether every field of a command holds a value that its table lists; commands that hold no reserved value always do. -/
def fieldsOk (i : Instr) : Bool :=
  match i with
  | .ctlLinfo _ _ item => decide (item.val < 8)
  | .ctlSig _ _ mask => decide (mask ≠ 0)
  | .ctlWait _ _ n _ => decide (n ≠ 0)
  | .mxCfg _ _ f cap => arrayFmt f && capOk f cap
  | .mxLdw _ _ _ f rows _ _ => arrayFmt f && decide (1 ≤ rows.val) && decide (rows.val ≤ 16)
  | .mxOpen _ _ n _ f _ => accFmt f && decide (1 ≤ n.toNat) && decide (n.toNat ≤ 128)
  | .mxClose _ _ _ exd _ _ => decide (exd.toNat < 1536)
  | .mxFill _ _ _ _ att _ => !att
  | .mvOpen _ f => isPosit f
  | .mvZero _ _ mask => decide (mask ≠ 0)
  | .mvDot _ _ wf xf _ _ _ _ => isPosit wf && isPosit xf
  | .mvCol _ _ wf xf acc _ k _ => mvColOk wf xf acc k
  | .mvClose _ _ out exd n acc => mvCloseOk out exd n acc
  | .mvSpill _ _ _ _ mask => decide (mask ≠ 0)
  | .mvFill _ _ _ att mask => decide (mask ≠ 0) && !att
  | .vMov .. | .vAnd .. | .vOr .. | .vXor .. | .vSel .. | .vNeg .. | .vAbs .. | .vMax .. | .vMin .. | .vCmp .. | .vAdd ..
  | .vSub .. | .vMul .. | .vFma .. | .vCvt .. | .vFn .. | .vFnGate .. => elemFieldsOk i
  | .softmax .. | .smsum .. | .smnorm .. | .lnorm .. | .rmsnorm .. | .nstat .. => rowFieldsOk i
  | .vRed _ _ f a => redOk f a
  | .vQuant _ _ dd da sp _ => decide (dd.toNat < 1536) && decide (da.toNat < 1536) && decide (sp.val % 2 = 0)
  | .vPop _ _ vd _ _ => decide (vd.val < 63)
  | .vQzero _ _ f mask => decide (mask ≠ 0) && (isPosit f || decide (f = .b32))
  | .vQrnd _ _ rnd _ _ mask sp => decide (mask ≠ 0) && (if rnd then decide (sp.val % 2 = 0) else decide (sp = 0))
  | .vQspill _ _ _ mask _ => decide (mask ≠ 0)
  | .vQfill _ _ att mask _ => decide (mask ≠ 0) && !att
  | .movAidx _ _ _ what => decide (what.val < 6)
  | .netSend _ _ ax _ _ _ => decide (ax.val % 2 = 0)
  | .memRd _ _ _ len => memLenOk len
  | .memWr _ _ _ len => memLenOk len
  | .memQadd _ _ _ f _ => isPosit f
  | .memMaxloc _ _ _ f _ => isPosit f || decide (f = .b32)
  | .memRadd _ _ _ f _ => isPosit f || isIeee f
  | .unknownCommand _ code => !(listedCommands.contains code.toNat)
  | _ => true

end Sys2Proof.Machine
end

