-- ==== Sys2Proof/WellFormed.lean ====
section
/-! DEFINITION. Well-formed commands: every field holds a value that the manual lists for it (R243, R276, R280, R282,
R285–R289, Tables 12-1 to 12-12, 18-9). -/
namespace Sys2Proof

/-- Whether a command is well formed. -/
def Instr.wf (i : Instr) : Bool := Machine.fieldsOk i

end Sys2Proof
end

