-- ==== Sys2Proof/Decode.lean ====
section
/-! DEFINITION. The words of the table of operations and events: the table gives no row any bits, so no word spells a
command. The encodings of the issue word's slots (R243, Tables 12-1 to 12-12) are read by `Machine.slotInstr`, which LOAD
uses on a program image. -/
namespace Sys2Proof

/-- The command that a word spells by the table's bits: none, since no row has bits. -/
def decodeTableWord (_nbits _w : Nat) : Option Instr := none

end Sys2Proof
end

