-- ==== Sys2Proof/Machine/Health.lean ====
section
/-! DEFINITION. Degraded states of the module and its spare counts (R303, R375, Tables 16-6, 16-7). -/
namespace Sys2Proof.Machine

/-- Whether a die has exhausted its sparing (R301, R370). -/
def dieExhausted (s : State) (d : Die) : Bool := (s.die d).map.exhausted

/-- Whether a tier of a die is degraded (R372, Table 14-3). -/
def dieTierBad (s : State) (d : Die) : Bool := (s.die d).near.degraded || (s.die d).far.degraded

/-- The four conditions of R375, over all dies. -/
def sparingExhausted (s : State) : Bool := (List.finRange 16).any (dieExhausted s)
def tierDegraded (s : State) : Bool := (List.finRange 16).any (dieTierBad s)
def linkLoss (s : State) : Bool := !(s.fabric.linkFailed == 0)
def clockLoss (s : State) : Bool := s.faults.undecided || (s.faults.oscAFailed && s.faults.oscBFailed)

/-- Whether the module is degraded (R375). -/
def degraded (s : State) : Bool := sparingExhausted s || tierDegraded s || linkLoss s || clockLoss s

/-- Available physical cores of a die. -/
def availCount (x : DieSt) : Nat :=
  ((List.range 256).map fun pr => ((List.range 256).filter (coreAvail x pr)).length).foldl (· + ·) 0

/-- The spare count of R303: the available cores beyond those of a full map; of a die with exhausted sparing too, whose
map the count would else leave (DESIGN CHOICE, log 51). -/
def spareCount (s : State) (d : Die) : Nat := availCount (s.die d) - gridSide s * gridSide s

/-! ### The logical map (R300, R301) -/

/-- One row: whether `k` available columns follow one another by steps of at most 4. -/
def buildRow (x : DieSt) (n pr : Nat) : Bool :=
  let cols := (rowCols x pr).take n
  decide (cols.length = n) && ((cols.zip (cols.drop 1)).all fun y => decide (y.2 - y.1 ≤ 4))

/-- The rows of the map in order, the rows retired, and whether sparing is exhausted. -/
def buildRows (x : DieSt) (n : Nat) : List Nat → List Nat → List Nat → List Nat × List Nat × Bool
  | [], rows, ret => (rows, ret, decide (rows.length < n))
  | pr :: l, rows, ret =>
    if rows.length < n ∧ !ret.contains pr then
      if buildRow x n pr then
        match rows.getLast? with
        | some p => if 4 < pr - p then (rows, ret, true) else buildRows x n l (rows ++ [pr]) ret
        | none => buildRows x n l (rows ++ [pr]) ret
      else buildRows x n l rows (ret ++ [pr])
    else buildRows x n l rows ret

/-- The map of a die, rebuilt from fuses and its fence list (R300, R370). -/
def rebuildMap (s : State) (d : Die) : State :=
  let x := s.die d
  let x1 := { x with map := { x.map with bad := x.fences } }
  let r := buildRows x1 (gridSide s) (List.range 256) [] x.map.retired
  s.setDie d { x1 with map := ⟨r.1, x.fences, r.2.1, r.2.2⟩ }

/-- The map of a die at power-up: a full fence list exhausts its sparing again (R370, R375). -/
def bootMap (s : State) (d : Die) : State :=
  let s1 := rebuildMap s d
  let x := s1.die d
  s1.setDie d { x with map := { x.map with exhausted := x.map.exhausted || decide (1024 ≤ x.fences.length) } }

end Sys2Proof.Machine
end

