-- ==== Sys2Proof/Machine/Mladar.lean ====
section
/-! DEFINITION. Mladar records: slots, leaves, the Merkle tree, the lap seal, the attestation report, staged egress and its
digest reads (chapter 15, R416, R434, R435). -/
namespace Sys2Proof.Machine

/-! ### Slots (R347, R348) -/

/-- The prefix of a payload in a slot digest (R348). -/
def slotPrefix (index len : Nat) : List Byte := leBytes 4 index ++ leBytes 4 len

/-- The slots during a walk over payloads: open, ended, the number of the next opening, and the most ever open. -/
structure SlotWalk where
  slots : List Slot
  ended : List Slot
  next : Nat
  most : Nat
  deriving DecidableEq, Repr

/-- The open slot of an identifier, opened in lap `lap` if it is not open (R347). -/
def walkOpen (w : SlotWalk) (id lap : Nat) : SlotWalk :=
  if w.slots.any (fun x => decide (x.id = id)) then w
  else
    let l := w.slots ++ [⟨w.next, id, lap, 0, [], 0, [], none, false⟩]
    { w with slots := l, next := w.next + 1, most := max w.most l.length }

/-- Changing the open slot of an identifier. -/
def walkUpd (w : SlotWalk) (id : Nat) (f : Slot → Slot) : SlotWalk :=
  { w with slots := w.slots.map fun x => if x.id = id then f x else x }

/-- An ingress payload presented in lap `lap`. -/
def walkIn (lap : Nat) (w : SlotWalk) (x : Ingress) : SlotWalk :=
  walkUpd (walkOpen w x.slot lap) x.slot fun y =>
    { y with inCount := y.inCount + 1, inBytes := y.inBytes ++ slotPrefix y.inCount x.bytes.length ++ x.bytes }

/-- An egress payload staged in lap `lap`; the slot-end mark ends its slot. -/
def walkOut (lap : Nat) (w : SlotWalk) (x : Egress) : SlotWalk :=
  let w1 := walkUpd (walkOpen w x.slot lap) x.slot fun y => { y with outCount := y.outCount + 1 }
  if x.slotEnd then
    { w1 with slots := w1.slots.filter (fun y => decide (y.id ≠ x.slot))
              ended := w1.ended ++ (w1.slots.filter (fun y => decide (y.id = x.slot))).map
                fun y => { y with ended := some lap } }
  else w1

/-- The order of the records of a lap (R413): queue, then sequence number, acceptance, or sender and sequence number. -/
def presentedBefore (r : RunCfg) (a b : Ingress) : Bool :=
  let merged := match r.queues[a.queue]? with | some k => decide (k.peer = 0xFFFF) | none => false
  decide (a.queue < b.queue) || (decide (a.queue = b.queue) &&
    (if !merged then decide (a.seq ≤ b.seq)
     else if !r.strict then decide (a.order ≤ b.order)
     else decide (a.sender < b.sender) || (decide (a.sender = b.sender) && decide (a.seq ≤ b.seq))))

/-- The payloads presented in run lap `lap`, in the order of R413. -/
def presentedIn (s : State) (lap : Nat) : List Ingress :=
  let l := s.net.ingress.filter fun x => decide (x.lap = lap)
  match s.run.run with
  | some r => sortBy (presentedBefore r) l
  | none => l

/-- The payloads of the lap: those presented, then those staged (R348). -/
def slotWalk (s : State) (lap : Nat) (w : SlotWalk) : SlotWalk :=
  let ins := presentedIn s lap
  s.net.egress.foldl (walkOut lap) (ins.foldl (walkIn lap) w)

/-- The opening that an egress payload belongs to, given the walk as it stood before it. -/
def egressInsts (lap : Nat) : List Egress → SlotWalk → List Egress
  | [], _ => []
  | x :: xs, w =>
    let w1 := walkOpen w x.slot lap
    let i := match w1.slots.find? (fun y => decide (y.id = x.slot)) with | some y => y.inst | none => 0
    { x with inst := i } :: egressInsts lap xs (walkOut lap w x)

/-- The walk before the lap's payloads. -/
def walkStart (s : State) : SlotWalk := ⟨s.mladar.slots, [], s.mladar.nextInst, s.mladar.slots.length⟩

/-- The bytes of a slot's result digest: those held, then the payloads read in this lap (R348, R351). -/
def slotOut (s : State) (x : Slot) : List Byte :=
  let ps := s.mladar.toDigest.filter fun e => decide (e.inst = x.inst)
  let base := x.outCount - ps.length
  x.outBytes ++ (ps.mapIdx fun k e => slotPrefix (base + k) e.len ++ e.got).flatten

/-- Taking the payloads of a lap that commits into the slots: the digest reads of the lap before, the payloads presented,
the payloads staged, whose digest reads are now due (R350, R351). -/
def commitSlots (s : State) : State :=
  let lap := s.laps.runLap
  let recs := match s.run.run with | some r => r.records | none => false
  let held := s.mladar.slots.map fun x => { x with outBytes := slotOut s x }
  let w0 : SlotWalk := ⟨held, [], s.mladar.nextInst, held.length⟩
  let ins := presentedIn s lap
  let w1 := ins.foldl (walkIn lap) w0
  let out := egressInsts lap s.net.egress w1
  let w2 := out.foldl (walkOut lap) w1
  { s with mladar := { s.mladar with
      slots := w2.slots, ended := w2.ended, nextInst := w2.next,
      toDigest := if recs then out else [] } }

/-! ### Record bodies (R349, Tables 15-2, 15-3) -/

/-- The mode word of a run in 8 bytes (R336). -/
def modeBytes (r : RunCfg) : List Byte := leBytes 8 (modeWord r.strict r.records)

/-- The run header of a run whose lap 0 is module lap `start` (Table 15-2). -/
def runHeaderBytes (s : State) (r : RunCfg) (start : Nat) : List Byte :=
  let (g, k, dig) := match s.run.program with | some p => (p.grade, p.k, p.digest) | none => (0, 0, zeros 64)
  [1, 1, BitVec.ofNat 8 g, BitVec.ofNat 8 k] ++ zeros 4 ++ modeBytes r ++ leBytes 8 r.seed.toNat ++ leBytes 8 start ++
    s.sec.fwDigest ++ dig ++ s.run.wsetDigest ++ (s.pacer.budget.toList.flatMap fun b => leBytes 4 b) ++
    [BitVec.ofNat 8 s.pacer.envActive] ++ zeros 3

/-- The record of a slot (Table 15-3); TDC is that of the run as of the last committed lap. -/
def slotRecord (s : State) (r : RunCfg) (x : Slot) : List Byte :=
  [2, 1, BitVec.ofNat 8 s.run.tdcKinds.toNat, BitVec.ofNat 8 (b2n x.unterm)] ++ leBytes 4 x.id ++ modeBytes r ++
    leBytes 8 r.seed.toNat ++ leBytes 8 x.first ++ leBytes 8 (x.ended.getD 0) ++ leBytes 8 s.run.tdc ++
    leBytes 4 x.inCount ++ leBytes 4 x.outCount ++ zeros 8 ++ s.mladar.runDigest ++ sha512 x.inBytes ++
    sha512 (slotOut s x)

/-- The run whose records are formed: the run, or the last run in its closing laps (R352). -/
def recordRun (s : State) : Option RunCfg := match s.run.run with | some r => some r | none => s.run.last

/-- The slots whose records are due, by identifier, in order of their ends (R350). -/
def slotsDue (s : State) : List Slot := sortBy (fun a b => decide (a.id ≤ b.id)) s.mladar.ended

/-- The leaves of the lap (R350): the run header in run lap 0, then one record for each slot due; at most 1,024 in a
closing lap (R352). -/
def lapLeaves (s : State) : List (List Byte) :=
  match recordRun s with
  | some r =>
    if r.records then
      let recs := ((if s.mladar.closingLap then (slotsDue s).take 1024 else slotsDue s)).map (slotRecord s r)
      if !s.mladar.closingLap && decide (s.laps.runLap = 0) then s.mladar.runHeader :: recs else recs
    else []
  | none => []

/-! ### The Merkle tree (R353, R354) -/

/-- The leaf hash of a body. -/
def leafHash (b : List Byte) : List Byte := sha512 (0 :: b)

/-- The root over leaf bodies; the first argument bounds the depth. -/
def merkleRoot : Nat → List (List Byte) → List Byte
  | _, [] => zeros 64
  | _, [b] => leafHash b
  | 0, _ => zeros 64
  | n + 1, l =>
    let k := 2 ^ Nat.log2 (l.length - 1)
    sha512 (1 :: (merkleRoot n (l.take k) ++ merkleRoot n (l.drop k)))

/-- The inclusion path of leaf `i`, nearest first. -/
def merklePath : Nat → List (List Byte) → Nat → List (List Byte)
  | 0, _, _ => []
  | n + 1, l, i =>
    if l.length ≤ 1 then []
    else
      let k := 2 ^ Nat.log2 (l.length - 1)
      if i < k then merklePath n (l.take k) i ++ [merkleRoot n (l.drop k)]
      else merklePath n (l.drop k) (i - k) ++ [merkleRoot n (l.take k)]

/-- The record frame of leaf `i` (R354). -/
def recordFrame (l : List (List Byte)) (i : Nat) : List Byte :=
  let p := merklePath 11 l i
  nth l i [] ++ leBytes 2 i ++ leBytes 2 l.length ++ [BitVec.ofNat 8 p.length] ++ zeros 3 ++ p.flatten

/-! ### Signatures, the seal and the report (R355, R356, R434) -/

/-- An ECDSA signature over a digest with a private scalar and a fresh random nonce (R356, log 7). -/
def signWith (s : State) (key : Nat) (digest : List Byte) : (Nat × Nat) × State :=
  let d := s.drawN 66
  (ecdsaSign key (scalarOf (randomBytes d.1 66)) digest, d.2)

/-- The signature as its 132 bytes. -/
def signature (s : State) (key : Nat) (digest : List Byte) : List Byte × State :=
  let g := signWith s key digest
  (sigBytes g.1, g.2)

/-- Bytes 0–215 of the lap seal (Table 15-4). -/
def sealBody (s : State) (leaves : List (List Byte)) : List Byte :=
  let ev := if s.mladar.closingLap then 4 else s.mladar.events
  [3, 1, BitVec.ofNat 8 ev, 0] ++ leBytes 2 leaves.length ++ leBytes 2 s.mladar.restores ++ leBytes 8 s.laps.runLap ++
    leBytes 8 s.laps.moduleLap ++ merkleRoot 11 leaves ++ s.mladar.prev ++ sha512 s.sec.certSeal

/-- The lap seal, signed with the seal key (R355, R432). -/
def sealBytes (s : State) (leaves : List (List Byte)) : List Byte × State :=
  let b := sealBody s leaves
  let g := signature s s.sec.sealKey (sha512 b)
  (b ++ g.1, g.2)

/-- Bytes 0–471 of the attestation report (Table 19-5). -/
def reportBody (s : State) (nonce : List Byte) : List Byte :=
  let fl := b2n s.sec.locked + 2 * b2n (degraded s) + 4 * b2n s.run.program.isSome + 8 * b2n s.run.run.isSome
  [5, 1, 0xA0, BitVec.ofNat 8 fl] ++ leBytes 4 s.sec.secVerRun ++ leBytes 4 s.sec.rollback ++ zeros 4 ++ s.sec.part ++
    s.sec.serial ++ leBytes 8 s.laps.moduleLap ++ nonce ++ s.sec.fwDigest ++
    (List.range 64).map Config.romDigestByte ++ sha512 s.sec.certIdent ++ sha512 s.sec.certSeal ++
    (match s.run.program with | some p => p.digest | none => zeros 64) ++
    (if s.run.wsetValid then s.run.wsetDigest else zeros 64)

/-- The attestation report, signed with the identity key (R434). -/
def attestReport (s : State) (nonce : List Byte) : List Byte × State :=
  let b := reportBody s nonce
  let g := signature s s.sec.identKey (sha512 b)
  (b ++ g.1, g.2)

/-- A certificate payload (R435). -/
def certPayload (pos : Nat) (der : List Byte) : List Byte :=
  [4, BitVec.ofNat 8 pos] ++ leBytes 2 der.length ++ zeros 4 ++ der

/-- What precedes a lap's record frames in the first committed lap of a run and after a restore (R435). -/
def certFrames (s : State) : List (List Byte) × State :=
  let g := attestReport s (s.mladar.runDigest.take 32)
  ([certPayload 0 s.sec.certMfg, certPayload 1 s.sec.certIdent, certPayload 2 s.sec.certSeal, g.1], g.2)

/-! ### Staged egress (R416, R45) -/

/-- The queue table entry of a queue of the run. -/
def queueOf (s : State) (q : Nat) : Option QueueCfg := (s.run.run.map (·.queues)).bind (·[q]?)

/-- One egress descriptor of a die (Table 18-8); none is a program fault EGRESS_DESC. -/
def parseEgress (s : State) (d : Die) (b : List Byte) : Option Egress :=
  let q := leNat (b.take 2)
  let len := leNat ((b.drop 8).take 4)
  let a := leNat ((b.drop 16).take 8)
  match queueOf s q, devLocate a with
  | some c, some (false, e, o) =>
    if c.dir = 2 ∧ c.peer < 16 ∧ e = d.val ∧ o + len ≤ 2 ^ 35 then
      some ⟨q, bitAt (nth b 2 0).toNat 0, leNat ((b.drop 4).take 4), d, o, len, 0, []⟩
    else none
  | _, _ => none

/-- The descriptors of one die in the current lap, and whether they break R416. -/
def dieEgress (s : State) (d : Die) : List Egress × Bool :=
  match s.run.run.bind (fun r => r.areas[d.val]?) with
  | some a =>
    if a.egdBase = 0 ∧ a.egdHalf = 0 then ([], false)
    else
      let h := a.egdBase + s.laps.runLap % 2 * (64 + 32 * a.egdHalf)
      let n := leNat (devRead s h 8)
      if a.egdHalf < n then ([], true)
      else
        let l := (List.range n).map fun i => parseEgress s d (devRead s (h + 64 + 32 * i) 32)
        (l.filterMap id, l.any (·.isNone))
  | none => ([], false)

/-- Egress units of payloads (R416). -/
def egressUnits (l : List Egress) : Nat := (l.map fun e => ceilDiv e.len 64).foldl (· + ·) 0

/-- Reading the egress descriptors of a die (R416, Table 14-3). -/
def touchEgress (s : State) (d : Die) : State :=
  match s.run.run.bind (fun r => r.areas[d.val]?) with
  | some a =>
    if a.egdBase = 0 ∧ a.egdHalf = 0 then s
    else
      let h := a.egdBase + s.laps.runLap % 2 * (64 + 32 * a.egdHalf)
      touchRange s h (64 + 32 * min a.egdHalf (leNat (devRead s h 8)))
  | none => s

/-- Reading every die's descriptors: the staged egress, EGRESS_DESC on a die, and EGRESS_OVER above the budget (R45). -/
def stageEgress (s : State) : State :=
  let r := forDies (fun s d =>
    let y := dieEgress s d
    let s := touchEgress s d
    let s1 := { s with net := { s.net with egress := s.net.egress ++ y.1 } }
    if y.2 then raiseDie s1 d 0x017A 12 0 else s1) { s with net := { s.net with egress := [] } }
  let u := egressUnits r.net.egress
  let r1 := { r with pacer := { r.pacer with usedNow := vset r.pacer.usedNow 1 u } }
  if lapBudget r1 1 < u then raiseHub (pacerEvent r1 3) 0x0101 else r1

/-! ### Digest reads (R351, R322) -/

/-- One unit of a digest read: the next 64 bytes of the first payload still unread, when die `d` holds it. -/
def digestUnit (s : State) (d : Die) : Option State :=
  match firstIdx (fun e : Egress => decide (e.got.length < e.len)) s.mladar.toDigest 0 with
  | some i =>
    match s.mladar.toDigest[i]? with
    | some e =>
      if e.die = d.val then
        let k := e.got.length
        let x := tierRead (s.die d).near (e.off + k) (min 64 (e.len - k))
        let s0 := if k = 0 ∨ (e.off + k) % 256 = 0 then noteRead s d false ((e.off + k) / 256) else s
        let s1 := s0.setTier d false ((s0.die d).near.useSlot s.laps.now)
        some { s1 with mladar := { s.mladar with toDigest := s.mladar.toDigest.set i { e with got := e.got ++ x } } }
      else none
    | none => none
  | none => none

/-- Whether a lap makes the digest reads of the lap before: a lap of a run or a closing lap. A recovery lap leaves them to the
lap that later seals those records (R351, R352). -/
def digestLap (s : State) : Bool := s.laps.state == 1 || s.laps.state == 2

/-- Digest reads in this cycle with the near-tier slots left. -/
def serveDigest : Nat → State → Die → State
  | 0, s, _ => s
  | n + 1, s, d => match digestUnit s d with
    | some s1 => serveDigest n s1 d
    | none => s

/-! ### Between runs: the weight-set digest and the split check (R322, R346, R396) -/

/-- The 64-byte unit `u` of the ranges of a list that lie on die `d`: its device address; none past the last. -/
def unitOf (d : Die) : List (Nat × Nat) → Nat → Option Nat
  | [], _ => none
  | (a, n) :: l, u =>
    match devLocate a with
    | some w =>
      if w.2.1 ≠ d.val then unitOf d l u
      else if u < n / 64 then some (a + 64 * u)
      else unitOf d l (u - n / 64)
    | none => unitOf d l u

/-- The ranges that the split check of a side reads: die blocks, regions in manifest order (R387, R396). -/
def checkRanges (k : SplitCfg) (b : Bool) : List (Nat × Nat) :=
  nearParts ((if b then k.hdrB else k.hdrA) + 1024) 16384 ++ k.regions.map fun r => (if b then r.2.1 else r.1, r.2.2)

/-- Reading one such unit through a slot of the tier that holds it, if one is left and the unit lies in this tier. -/
def classFive (s : State) (d : Die) (far : Bool) (a : Option Nat) : Option State :=
  match a.bind devLocate with
  | some w =>
    if w.1 ≠ far ∨ slotsLeft s d far = 0 then none
    else
      let s1 := if w.2.2 % 256 = 0 then noteRead s d far (w.2.2 / 256) else s
      some (s1.setTier d far (((s1.die d).tier far).useSlot s.laps.now))
  | none => none

/-- The next unit of a die's own weight-set regions: 64 B per cycle (R346). -/
def serveWset (s : State) (d : Die) (far : Bool) : State :=
  let u := vget s.run.wsetRead d.val 0
  if s.run.run.isSome || !s.run.wsetBusy then s
  else match classFive s d far (unitOf d s.run.wsetRegions u) with
    | some t => { t with run := { t.run with wsetRead := vset t.run.wsetRead d.val (u + 1) } }
    | none => s

/-- The next unit of a die's part of the split check: 64 B per cycle (R396). -/
def serveVerify (s : State) (d : Die) (far : Bool) : State :=
  let u := vget s.split.verifyRead d.val 0
  match (if s.run.run.isSome || !s.split.verifyBusy then none else s.split.cfg) with
  | some k =>
    match classFive s d far (unitOf d (checkRanges k s.split.verifySide) u) with
    | some t => { t with split := { t.split with verifyRead := vset t.split.verifyRead d.val (u + 1) } }
    | none => s
  | none => s

/-- Whether every die has read all its units of some ranges. -/
def allRead (n : Vector Nat 16) (l : List (Nat × Nat)) : Bool := (List.finRange 16).all fun d => (unitOf d l (vget n d.val 0)).isNone

/-- MEM_UNIT_SERVICE: the slots of a tier in this cycle, in the class order of R322. -/
def execMemUnitService (d : Die) (far : Bool) (s : State) : Host.Outcome State Fault Refusal :=
  let s1 := serveStatic s d far
  let s2 := if far then s1 else servePage s1 d
  let s3 := if far || !digestLap s2 then s2 else serveDigest (slotsLeft s2 d false) s2 d
  .next (serveVerify (serveWset (serveAsync s3 d far) d far) d far)

/-! ### The close phase (Table 2-2) -/

/-- The first cycle of the close phase. -/
def closeStart (s : State) : Nat := s.laps.len - 1024

/-- Whether a lap of a run is open in which a program works (not a closing lap). -/
def runLapOpen (s : State) : Bool := runActive s && !s.mladar.closingLap

/-- CLOSE_PHASE_START: the hub reads the egress descriptors (R416); digest reads left are RECORD_STALL (R351). R416 has
EGRESS_OVER and EGRESS_DESC known before close-phase cycle 256, Table 2-2 checks egress from cycle 256 on: they are raised
here, in the first close-phase cycle (DESIGN CHOICE, log 51). -/
def execClosePhaseStart (s : State) : Host.Outcome State Fault Refusal :=
  if s.laps.closed || decide (s.laps.cyc ≠ closeStart s) then .next s
  else
    let s1 := { s with laps := { s.laps with closed := true } }
    let s2 := if digestLap s && s.mladar.toDigest.any (fun e => decide (e.got.length < e.len)) then raiseHub s1 0x017B else s1
    .next (if runLapOpen s then stageEgress s2 else s2)

/-- LAP_SEAL: the root over the lap's leaves is completed and the seal signed, when the verdict passes (R353, R355); a
lap whose frames do not fit the record buffer is RECORD_STALL (R418). -/
def execLapSeal (s : State) : Host.Outcome State Fault Refusal :=
  let due := s.laps.closed && !s.laps.sealed && decide (closeStart s + 768 ≤ s.laps.cyc) && decide (s.laps.cyc < s.laps.len)
  let recs := match recordRun s with | some r => r.records && (runActive s || s.mladar.closingLap) | none => false
  if !due then .next s
  else
    let s1 := { s with laps := { s.laps with sealed := true } }
    if !recs || s.laps.lapFault then .next s1
    else
      let l := s1.mladar.leaves
      let held : Nat := (s1.net.records.map fun r => r.payload.length).foldl (· + ·) 0
      let own : Nat := ((List.range l.length).map fun i => (recordFrame l i).length).foldl (· + ·) 348
      if 32 * 2 ^ 20 < held + own then .next (raiseHub s1 0x017B)
      else
        let g := sealBytes s1 l
        .next { g.2 with mladar := { g.2.mladar with sealNow := some g.1 } }

end Sys2Proof.Machine
end

