-- ==== Sys2Proof/Machine/Port.lean ====
section
/-! DEFINITION. Sending and receiving Niwick frames: peers, sequences, acknowledgements, flow control (R400–R409). -/
namespace Sys2Proof.Machine

/-! ### Peers and sequences (R404, R407) -/

/-- Peer-table entry p. -/
def peerAt (s : State) (p : Nat) : Peer := vget s.net.peers p Peer.empty

/-- The state with peer-table entry p replaced. -/
def State.setPeer (s : State) (p : Nat) (x : Peer) : State := { s with net := { s.net with peers := vset s.net.peers p x } }

/-- The sequence state of a class of a peer. -/
def seqOf (s : State) (p c : Nat) : SeqSt := vget (peerAt s p).classes c SeqSt.init

/-- The state with the sequence state of a class of a peer replaced. -/
def State.setSeqOf (s : State) (p c : Nat) (q : SeqSt) : State :=
  let x := peerAt s p
  s.setPeer p { x with classes := vset x.classes c q }

/-- Setting bit b of NET_EVENTS (Table 18-12). -/
def netEvent (s : State) (b : Nat) : State :=
  let e := BitVec.ofNat 8 (2 ^ b)
  { s with net := { s.net with events := s.net.events ||| e, setNow := s.net.setNow ||| e } }

/-- Counting a discarded frame in RX_DROPPED. -/
def rxDrop (s : State) : State := { s with net := { s.net with rxDropped := satAdd32 s.net.rxDropped 1 } }

/-- Counting `n` discarded data frames in EGRESS_LOST (R409, R417). -/
def egressLose (s : State) (n : Nat) : State :=
  if n = 0 then s else netEvent { s with net := { s.net with egressLost := satAdd32 s.net.egressLost n } } 1

/-- `SACK` of a sequence (Table 18-2). -/
def sackOf (q : SeqSt) : Nat :=
  ((List.range 64).map fun i => if q.rxHave.contains (q.rxNext + 1 + i) then 2 ^ i else 0).foldl (· + ·) 0

/-- Whether a class travels on the bulk priority (R402). -/
def isBulk (c : Nat) : Bool := decide (c = 1) || decide (c = 3)

/-- Whether the port may transmit a frame of a class to a peer (R400, R409, R427, R457). -/
def mayTransmit (s : State) (p c : Nat) : Bool :=
  (s.net.carries || s.sec.responder) && !(if isBulk c then s.net.bulkPaused else s.net.ctrlPaused) && !(peerAt s p).down

/-- Whether a new payload may be sent in a sequence (R407). -/
def maySend (s : State) (p c : Nat) : Bool := mayTransmit s p c && decide ((seqOf s p c).unacked.length < 256)

/-- Where a frame goes: the recovery responder's go to the source of the last frame that it accepted (R427). -/
def wire (s : State) (x : Sent) : Sent :=
  match x with
  | .niwick _ f => if s.sec.responder then .responder s.net.firstMac f else x
  | _ => x

/-- Putting a frame on the wire. -/
def emit (s : State) (x : Sent) : State := { s with net := { s.net with sent := s.net.sent ++ [wire s x] } }

/-- The headers before Niwick's of a frame of a class to a peer: data and drain frames on `PCP_BULK`, the others on `PCP_CTRL`;
to the gateway or, while none is set, to the source of the frame that bound peer 0 (R400, R402, R461). -/
def wireTo (s : State) (p c : Nat) : WireTo :=
  { mac := if s.net.cfg.gwMac = 0 then s.net.firstMac else s.net.cfg.gwMac
    vid := s.net.cfg.vid
    pcp := if isBulk c then s.net.cfg.pcpBulk else s.net.cfg.pcpCtrl
    addr := (peerAt s p).addr
    port := (peerAt s p).port }

/-- `MODULE_SENDER`: the low 32 bits of the MAC address (Table 18-2). -/
def moduleSender (s : State) : Word := s.net.mac.setWidth 32

/-- A frame of a class to a peer, with the next sequence number and the `ACK` and `SACK` of its class (R406, R407). -/
def txFrame (s : State) (p c type flags queue aux : Nat) (bs : List Byte) : TxFrame :=
  let q := seqOf s p c
  ⟨p, 1, moduleSender s, c, type, flags, q.txNext % 2 ^ 32, q.rxNext % 2 ^ 32, sackOf q, queue, aux, bs⟩

/-- Sending a frame of TYPE 0x01 or 0x02, which consumes no number (R407). -/
def sendPlain (s : State) (p c type aux : Nat) : State :=
  emit (s.setSeqOf p c { seqOf s p c with ackDue := none }) (.niwick (wireTo s p c) (txFrame s p c type 0 0 aux []))

/-- Sending a payload, which is kept until it is acknowledged (R408). -/
def sendPayload (s : State) (p c flags queue aux : Nat) (bs : List Byte) : State :=
  let q := seqOf s p c
  let f := txFrame s p c 0 flags queue aux bs
  emit (s.setSeqOf p c { q with txNext := q.txNext + 1, unacked := q.unacked ++ [⟨f, 0, s.laps.now⟩], ackDue := none })
    (.niwick (wireTo s p c) f)

/-- The largest Niwick payload (R401). -/
def maxPayload (s : State) : Nat := s.net.cfg.mtu - 80

/-! ### Acknowledgements (R407, R387, R418) -/

/-- Whether ACK and SACK acknowledge sequence number `n`; ACK lies ahead of every number it acknowledges by less than half of
the 32-bit circle. -/
def ackCovers (ack sack n : Nat) : Bool :=
  let back := (ack + 2 ^ 32 - n) % 2 ^ 32
  let fwd := (n + 2 ^ 32 - ack) % 2 ^ 32
  (decide (1 ≤ back) && decide (back < 2 ^ 31)) || (decide (1 ≤ fwd) && decide (fwd ≤ 64) && bitAt sack (fwd - 1))

/-- The record buffer without the frames that every receiver has acknowledged (R418). -/
def recordsPrune (l : List RecFrame) : List RecFrame := l.filter fun r => !(r.todo.isEmpty && r.wait.isEmpty)

/-- Completing the drain when every frame of it has been acknowledged (R387). -/
def drainCheck (s : State) : State :=
  if s.split.draining && s.split.hdrDone && decide (s.split.drainPos = s.split.drainTotal) &&
      (List.range 16).all (fun p => (seqOf s p 3).unacked.isEmpty) then
    { s with split := { s.split with draining := false, drainDone := true } }
  else s

/-- Taking the ACK and SACK of a frame of a class. -/
def takeAck (s : State) (p c ack sack : Nat) : State :=
  let q := seqOf s p c
  let gone := q.unacked.filter fun u => ackCovers ack sack u.frame.seq
  let s1 := s.setSeqOf p c { q with unacked := q.unacked.filter fun u => !ackCovers ack sack u.frame.seq }
  let bytes := (gone.map fun u => u.frame.payload.length).foldl (· + ·) 0
  let s2 := if c = 1 then { s1 with net := { s1.net with storeBytes := s1.net.storeBytes - bytes } } else s1
  let s3 := if c = 4 then
      { s2 with net := { s2.net with records := recordsPrune (s2.net.records.map fun r =>
          { r with wait := r.wait.filter fun w => !(decide (w.1 = p) && gone.any fun u => decide (u.frame.seq = w.2)) }) } }
    else s2
  if c = 3 then drainCheck s3 else s3

/-! ### Receiving (R401, R404–R407) -/

/-- What the sequencing rules say of a received number. -/
inductive SeqAct where
  | take (n : Nat)
  | again
  | discard
  deriving DecidableEq, Repr

/-- R407 for a received number; sequence states count without wrapping. -/
def seqAct (q : SeqSt) (seq : Nat) : SeqAct :=
  let fwd := (seq + 2 ^ 32 - q.rxNext % 2 ^ 32) % 2 ^ 32
  let back := (q.rxNext + 2 ^ 32 - seq) % 2 ^ 32
  if fwd < 256 then (if q.rxHave.contains (q.rxNext + fwd) then .again else .take (q.rxNext + fwd))
  else if 1 ≤ back ∧ back ≤ q.rxNext ∧ back < 2 ^ 31 then .again
  else .discard

/-- Moving ACK over the numbers received in order. -/
def seqAdvance : Nat → Nat → List Nat → Nat × List Nat
  | 0, n, l => (n, l)
  | k + 1, n, l => if l.contains n then seqAdvance k (n + 1) (l.filter (· ≠ n)) else (n, l)

/-- Taking a number; its acknowledgement is due 1,880 cycles later (R408). -/
def seqTake (s : State) (p c n : Nat) : State :=
  let q := seqOf s p c
  let r := seqAdvance 256 q.rxNext (n :: q.rxHave)
  s.setSeqOf p c { q with rxNext := r.1, rxHave := r.2, ackDue := some (q.ackDue.getD (s.laps.now + 1880)) }

/-- A number received again is acknowledged again. -/
def seqAgain (s : State) (p c : Nat) : State :=
  let q := seqOf s p c
  s.setSeqOf p c { q with ackDue := some (q.ackDue.getD (s.laps.now + 1880)) }

/-- A frame that R401 or R406 discards. -/
def frameBad (s : State) (f : Frame) : Bool :=
  let cls := f.cls.toNat
  let ty := f.type.toNat
  let dataPay := decide (cls = 2) && decide (ty = 0)
  decide (s.net.cfg.mtu < f.payload.length + 80) || !(f.ver == 1) || decide (cls < 1) || decide (5 < cls) ||
    !(decide (ty = 0) || decide (ty = 1) || (decide (ty = 3) && decide (cls = 2))) ||
    !(f.flags.toNat / 2 == 0) || (bitAt f.flags.toNat 0 && !dataPay) || (!(f.queue == 0) && !dataPay) ||
    (!(f.aux == 0) && !dataPay) || decide (f.len.toNat ≠ f.payload.length)

/-- Whether a peer may send a class and type (R404, Table 18-3). -/
def peerMay (x : Peer) (cls ty : Nat) : Bool :=
  match cls with
  | 1 => x.cmd
  | 2 => if ty = 1 then x.dataIn || x.dataOut else x.dataIn
  | 3 => x.mgmt
  | 4 => decide (ty = 1) && x.drainRx
  | _ => decide (ty = 1) && x.recordRx

/-- The peer that a frame comes from, which address, port and sender identifier fix together (R404). -/
def peerOf (s : State) (f : Frame) : Option (Fin 16) :=
  (List.finRange 16).find? fun p =>
    let x := s.net.peers[p]
    x.bound && decide (x.addr = f.srcAddr) && decide (x.port = f.srcPort) && decide (x.sender = f.sender)

/-- The entry that a command or management frame at the link-local address binds (R405): the lowest open entry. -/
def openPeer (s : State) (f : Frame) : Option (Fin 16) :=
  if f.toLinkLocal && (f.cls == 1 || f.cls == 3) then (List.finRange 16).find? fun p => s.net.peers[p].open_ else none

/-- Binding an open entry to a frame's source (R405, R461). -/
def bindPeer (s : State) (p : Fin 16) (f : Frame) : State :=
  let x := s.net.peers[p]
  let s1 := s.setPeer p { x with addr := f.srcAddr, port := f.srcPort, sender := f.sender, open_ := false, bound := true }
  if p = 0 then { s1 with net := { s1.net with firstMac := f.srcMac } } else s1

/-- The checks of R401, R404 and R406 on a received frame: the peer that it comes from, if it is not rejected. -/
def admitFrame (s : State) (f : Frame) : State × Option (Fin 16) :=
  if frameBad s f then (rxDrop s, none)
  else
    let r : State × Option (Fin 16) := match peerOf s f with
      | some p => (s, some p)
      | none => match openPeer s f with
        | some p => (bindPeer s p f, some p)
        | none => (s, none)
    match r.2 with
    | some p =>
      if peerMay r.1.net.peers[p] f.cls.toNat f.type.toNat then
        (takeAck r.1 p (f.cls.toNat - 1) f.ack.toNat f.sack.toNat, some p)
      else (netEvent s 3, none)
    | none => (netEvent s 3, none)

/-- The receive buffers of R402: a frame adds its bytes; how much has left the buffer by then is not stated and is a free
value (log 9), so that at most 2 MiB stay. Above 1 MiB the hub sends priority flow control. -/
def bufferFrame (s : State) (ctrl : Bool) (n : Nat) : State :=
  let d := s.draw
  let s1 := d.2
  let full := (if ctrl then s1.net.ctrlBuf else s1.net.bulkBuf) + n
  let level := Config.freeNat d.1 % (min full (2 ^ 21) + 1)
  let s2 := if ctrl then { s1 with net := { s1.net with ctrlBuf := level } }
    else { s1 with net := { s1.net with bulkBuf := level } }
  let sent := if ctrl then s2.net.ctrlPfc else s2.net.bulkPfc
  if (!sent) = true ∧ 2 ^ 20 < level then
    emit (if ctrl then { s2 with net := { s2.net with ctrlPfc := true } } else { s2 with net := { s2.net with bulkPfc := true } })
      (.pfc ctrl 0xFFFF)
  else s2

/-- Receiving a frame of a class and type that carries a sequence number: the checks, the sequence rule, then `take`,
which says whether the frame is taken (R407, R415). -/
def receive (s : State) (f : Frame) (cls ty : Nat) (take : State → Fin 16 → State × Bool) : State :=
  if !portOn s then s
  else
    let s0 := bufferFrame s (!isBulk (cls - 1)) (f.payload.length + 80)
    let r := admitFrame s0 f
    match r.2 with
    | none => r.1
    | some p =>
      if f.cls.toNat ≠ cls ∨ f.type.toNat ≠ ty then r.1
      else
        match seqAct (seqOf r.1 p (cls - 1)) f.seq.toNat with
        | .discard => r.1
        | .again => seqAgain r.1 p (cls - 1)
        | .take n =>
          let y := take r.1 p
          if y.2 then seqTake y.1 p (cls - 1) n else y.1

/-! ### Link, flow control and 1588 (R400–R403, R457, R461) -/

/-- ACK_FRAME: ACK and SACK of an acknowledgement-only frame (R407). -/
def execAckFrame (f : Frame) (s : State) : Host.Outcome State Fault Refusal :=
  if portOn s && f.type == 1 then
    .next (admitFrame (bufferFrame s (!isBulk (f.cls.toNat - 1)) (f.payload.length + 80)) f).1
  else .next s

/-- The module's link-local address (R461). -/
def linkLocal (mac : BitVec 48) : BitVec 128 :=
  let hi : BitVec 24 := mac.extractLsb' 24 24 ^^^ 0x020000
  let lo : BitVec 24 := mac.extractLsb' 0 24
  (0xFE80000000000000 : BitVec 64) ++ hi ++ (0xFFFE : BitVec 16) ++ lo

/-- NEIGHBOUR_SOLICITATION: answered for the module's addresses: to the soliciting address while no gateway is set, else
to the gateway (R400, R461). -/
def execNeighbourSolicitation (src target : BitVec 128) (srcMac : BitVec 48) (s : State) :
    Host.Outcome State Fault Refusal :=
  let mine := decide (target = linkLocal s.net.mac) || (decide (target = s.net.cfg.addr) && !(s.net.cfg.addr == 0))
  let to_ := if s.net.cfg.gwMac = 0 then srcMac else s.net.cfg.gwMac
  if portOn s && mine && s.net.carries then .next (emit s (.advert src target to_)) else .next s

/-- A Delay_Req of the end-to-end delay mechanism may follow a Sync, on the control priority (Table 18-1, R402); which ones
it follows is not stated and is a free value (log 51). -/
def delayRequest (s : State) : State :=
  let d := s.draw
  if s.net.carries && !s.net.ctrlPaused && decide (Config.freeNat d.1 % 2 = 1) then emit d.2 (.delayReq s.net.cfg.domain)
  else d.2

/-- PTP_SYNC: the offset of a Sync message (R403): 16 in a row within 100 ns lock, 4 in a row above 1 µs unlock. -/
def execPtpSync (offsetNs : Int) (s : State) : Host.Outcome State Fault Refusal :=
  if decide (s.power.phase = .off) || !s.net.cfg.ptpEn then .next s
  else
    let good := if offsetNs.natAbs ≤ 100 then s.net.ptpGood + 1 else 0
    let bad := if 1000 < offsetNs.natAbs then s.net.ptpBad + 1 else 0
    let locked := (s.net.ptpLocked && decide (bad < 4)) || decide (16 ≤ good)
    .next (delayRequest { s with net := { s.net with
      ptpOffset := offsetNs, ptpGood := good, ptpBad := bad, ptpLocked := locked, ptpLast := s.laps.now } })

/-- PTP_SYNC_LOSS: 3 s without a Sync lose the lock (R403). -/
def execPtpSyncLoss (s : State) : Host.Outcome State Fault Refusal :=
  if s.net.ptpLast + 3 * 940000000 ≤ s.laps.now then
    .next { s with net := { s.net with ptpLocked := false, ptpGood := 0, ptpBad := 0 } }
  else .next s

/-- PTP_DELAY_RESPONSE: a Delay_Resp sets the path delay, a Follow_Up corrects the offset (R403). -/
def execPtpDelayResponse (followUp : Bool) (delayNs : Int) (s : State) : Host.Outcome State Fault Refusal :=
  if decide (s.power.phase = .off) || !s.net.cfg.ptpEn then .next s
  else if followUp then .next { s with net := { s.net with ptpOffset := delayNs } }
  else .next { s with net := { s.net with ptpDelay := delayNs } }

/-- Sending the credit frame that waits for a peer (R411, Table 18-4). -/
def sendCredit (s : State) (p : Fin 16) : State :=
  let x := s.net.peers[p]
  match x.creditDue with
  | some lim => if mayTransmit s p 1 then sendPlain (s.setPeer p { x with creditDue := none }) p 1 2 lim else s
  | none => s

/-- Sending every credit frame that waits. -/
def sendCredits (s : State) : State := (List.finRange 16).foldl sendCredit s

/-- Pausing transmission on a priority until a cycle. -/
def pausePort (s : State) (ctrl : Bool) (until_ : Nat) : State :=
  if ctrl then { s with net := { s.net with ctrlPaused := true, ctrlUntil := until_ } }
  else { s with net := { s.net with bulkPaused := true, bulkUntil := until_ } }

/-- Resuming transmission on a priority; a credit frame that the pause held back is sent. -/
def resumePort (s : State) (ctrl : Bool) : State :=
  if ctrl then { s with net := { s.net with ctrlPaused := false } }
  else sendCredits { s with net := { s.net with bulkPaused := false } }

/-- Cycles of a pause time in quanta of 512 bit times at 1.6 Tb/s (IEEE 802.1Q, PRESUMED, log 51). -/
def pauseCycles (quanta : Nat) : Nat := ceilDiv (quanta * 3008) 10000

/-- PFC_RECEIVE: a pause time of 0 resumes, any other pauses for that time (R400). -/
def execPfcReceive (ctrl : Bool) (quanta : BitVec 16) (s : State) : Host.Outcome State Fault Refusal :=
  if decide (s.power.phase = .off) then .next s
  else if quanta = 0 then .next (resumePort s ctrl)
  else .next (pausePort s ctrl (s.laps.now + pauseCycles quanta.toNat))

/-- PAUSE_TIME_EXPIRY: transmission resumes once the pause time has run out (R400). -/
def execPauseTimeExpiry (ctrl : Bool) (s : State) : Host.Outcome State Fault Refusal :=
  if (if ctrl then s.net.ctrlPaused && decide (s.net.ctrlUntil ≤ s.laps.now)
      else s.net.bulkPaused && decide (s.net.bulkUntil ≤ s.laps.now)) then .next (resumePort s ctrl)
  else .next s

/-- PFC_RESUME_SEND: a buffer has fallen below 512 KiB; its level is a free value (R402, log 9). -/
def execPfcResumeSend (ctrl : Bool) (s : State) : Host.Outcome State Fault Refusal :=
  if !(if ctrl then s.net.ctrlPfc else s.net.bulkPfc) then .next s
  else
    let d := s.draw
    let level := Config.freeNat d.1 % 524288
    let n := d.2.net
    .next (emit { d.2 with net := if ctrl then { n with ctrlBuf := level, ctrlPfc := false }
                                  else { n with bulkBuf := level, bulkPfc := false } } (.pfc ctrl 0))

/-- PORT_LINK_CHANGE: the lanes locked; frames are carried from the first cut after all eight are (R457). -/
def execPortLinkChange (lanes : BitVec 8) (s : State) : Host.Outcome State Fault Refusal :=
  if decide (s.power.phase = .off) then .next s
  else .next { s with net := { s.net with lanes := lanes, carries := s.net.carries && lanes == 0xFF } }

/-- DISCARDED_FRAME: counted in RX_DROPPED under R400, R401 and R406; before the first idle lap, and for a bad frame check
sequence, nothing is counted (R22, R459). -/
def execDiscardedFrame (why : DropReason) (s : State) : Host.Outcome State Fault Refusal :=
  match why with
  | .fcs => .next s
  | .beforeFirstLap => .next s
  | .unsupported => .next (if portOn s then rxDrop s else s)
  | .tooLong => .next (if portOn s then rxDrop s else s)
  | .rejected => .next (if portOn s then rxDrop s else s)

/-! ### Timers and transmission (R408, R409, R417, R418) -/

/-- Marking a peer down: its data frames are discarded and counted (R409). -/
def markDown (s : State) (p : Nat) : State :=
  let x := peerAt s p
  let q := seqOf s p 1
  let bytes := (q.unacked.map fun u => u.frame.payload.length).foldl (· + ·) 0
  let mine := s.net.out.filter fun o => decide (o.peer = p)
  let s1 := s.setPeer p { x with down := true, creditDue := none, classes := vset x.classes 1 { q with unacked := [] } }
  let s2 := { s1 with net := { s1.net with out := s1.net.out.filter fun o => decide (o.peer ≠ p)
                                           storeBytes := s1.net.storeBytes - bytes } }
  egressLose (netEvent s2 0) (q.unacked.length + mine.length)

/-- Retransmission time in cycles (R408, R421). -/
def rtoCycles (s : State) : Nat := s.net.cfg.rtoUs * 940

/-- RETRANSMIT: the first frame of a sequence whose timer has expired is sent again with a fresh ACK and SACK; after 16
retransmissions the peer is marked down (R408, R409). The timer is seen to have expired in the cycle after its last, since an
acknowledgement in that one stops it (R49). -/
def execRetransmit (peer : Fin 16) (cls : Fin 5) (s : State) : Host.Outcome State Fault Refusal :=
  let q := seqOf s peer cls
  if !mayTransmit s peer cls then .next s
  else
    match firstIdx (fun u : Unacked => decide (u.last + rtoCycles s < s.laps.now)) q.unacked 0 with
    | none => .next s
    | some i =>
      match q.unacked[i]? with
      | none => .next s
      | some u =>
        if 16 ≤ u.sends then .next (markDown s peer)
        else
          let f := { u.frame with ack := q.rxNext % 2 ^ 32, sack := sackOf q }
          let s1 := s.setSeqOf peer cls { q with unacked := q.unacked.set i ⟨f, u.sends + 1, s.laps.now⟩, ackDue := none }
          .next (emit { s1 with net := { s1.net with retransmits := satAdd32 s1.net.retransmits 1 } }
            (.niwick (wireTo s peer cls) f))

/-- ACK_DELAY: an acknowledgement-only frame, unless an outgoing frame has carried the ACK (R408). -/
def execAckDelay (peer : Fin 16) (cls : Fin 5) (s : State) : Host.Outcome State Fault Refusal :=
  match (seqOf s peer cls).ackDue with
  | some t => if t ≤ s.laps.now ∧ mayTransmit s peer cls then .next (sendPlain s peer cls 1 0) else .next s
  | none => .next s

/-- The data frames of a released payload (R417): the largest payload that MTU allows, the mark on the last. -/
def outFrames (s : State) (lap peer : Nat) (e : Egress) : List OutFrame :=
  let m := maxPayload s
  let n := ceilDiv e.len m
  (List.range n).map fun i =>
    ⟨lap, e.queue, peer, e.slotEnd && decide (i + 1 = n), e.slot, e.die, e.off + i * m, min m (e.len - i * m)⟩

/-- Releasing the egress of a committed lap (R27, R417). -/
def releaseEgress (s : State) : State :=
  let fs := (s.net.egress.map fun e =>
    match queueOf s e.queue with | some c => outFrames s s.laps.moduleLap c.peer e | none => []).flatten
  { s with net := { s.net with out := s.net.out ++ fs } }

/-- The frames released at a cut for peers that are down once its register writes have taken effect are lost (R405,
R409). -/
def loseDown (s : State) : State :=
  let down (f : OutFrame) : Bool := (peerAt s f.peer).down
  egressLose { s with net := { s.net with out := s.net.out.filter fun f => !down f } } (s.net.out.filter down).length

/-- EGRESS_TRANSMIT: the first waiting data frame of a peer, when its permission, the window, the transmit store and flow
control allow (R407, R417). -/
def execEgressTransmit (peer : Fin 16) (s : State) : Host.Outcome State Fault Refusal :=
  match firstIdx (fun o : OutFrame => decide (o.peer = peer.val)) s.net.out 0 with
  | none => .next s
  | some i =>
    match s.net.out[i]? with
    | none => .next s
    | some o =>
      if maySend s peer 1 && (peerAt s peer).dataOut && decide (s.net.storeBytes + o.len ≤ 64 * 2 ^ 20) then
        let bs := tierRead (s.die (dieOf o.die)).near o.off o.len
        let s1 := { s with net := { s.net with out := s.net.out.eraseIdx i, storeBytes := s.net.storeBytes + o.len } }
        .next (sendPayload s1 peer 1 (b2n o.slotEnd) o.queue o.slot bs)
      else .next s

/-- EGRESS_DISCARD: at the cut that opens run lap n + 2, the frames of laps up to n not yet sent are discarded (R417). -/
def execEgressDiscard (s : State) : Host.Outcome State Fault Refusal :=
  let old (o : OutFrame) : Bool := decide (o.lap + 2 ≤ s.laps.moduleLap)
  if s.laps.cyc = 0 then
    .next (egressLose { s with net := { s.net with out := s.net.out.filter fun o => !old o } } (s.net.out.filter old).length)
  else .next s

/-- RECORD_TRANSMIT: the first frame of the record buffer that still goes to a peer that may take it (R418). -/
def execRecordTransmit (s : State) : Host.Outcome State Fault Refusal :=
  let ready (r : RecFrame) : Option Nat := r.todo.find? fun p => maySend s p 4
  match firstIdx (fun r => (ready r).isSome) s.net.records 0 with
  | none => .next s
  | some i =>
    match s.net.records[i]? with
    | none => .next s
    | some r =>
      match ready r with
      | none => .next s
      | some p =>
        let n := (seqOf s p 4).txNext % 2 ^ 32
        let r1 := { r with todo := r.todo.filter (· ≠ p), wait := r.wait ++ [(p, n)] }
        .next (sendPayload { s with net := { s.net with records := s.net.records.set i r1 } } p 4 0 0 0 r.payload)

/-- Queueing record-class payloads for every peer with RECORD_RX (R418). -/
def queueRecords (s : State) (l : List (List Byte)) : State :=
  let to_ := (List.range 16).filter fun p => (peerAt s p).recordRx
  { s with net := { s.net with records := s.net.records ++ recordsPrune (l.map fun b => ⟨b, to_, []⟩) } }

end Sys2Proof.Machine
end

