-- ==== Sys2Proof/Machine/Split.lean ====
section
/-! DEFINITION. Splits: the manifest, the step block, taking a split, its header, the drain, verification and restore
(chapter 17). -/
namespace Sys2Proof.Machine

/-! ### The manifest and the step block (R379, R380) -/

/-- Whether a byte range lies in the near tier of one die. -/
def nearRange (a n : Nat) : Bool := devRange a n && (match devLocate a with | some w => !w.1 | none => false)

/-- The die of a near-tier address. -/
def nearDie (a : Nat) : Nat := match devLocate a with | some w => w.2.1 | none => 16

/-- Whether ranges are pairwise apart. -/
def apart : List (Nat × Nat) → Bool
  | [] => true
  | x :: l => (l.all fun y => !rangesMeet x.1 x.2 y.1 y.2) && apart l

/-- The manifest at an address: header blocks and regions; none where it breaks R379. -/
def parseManifest (s : State) (a : Nat) : Option (Nat × Nat × List (Nat × Nat × Nat)) :=
  let h := nearBytes s a 64
  let n := leNat ((h.drop 16).take 2)
  let ha := leNat (h.take 8)
  let hb := leNat ((h.drop 8).take 8)
  if a % 64 ≠ 0 ∨ !nearSpan a 64 ∨ n < 1 ∨ 256 < n ∨ !nearSpan a (64 + 32 * n) then none
  else
    let es := (List.range n).map fun e =>
      let b := nearBytes s (a + 64 + 32 * e) 32
      (leNat (b.take 8), leNat ((b.drop 8).take 8), leNat ((b.drop 16).take 8), leNat ((b.drop 24).take 8))
    let okE := es.all fun y =>
      decide (y.1 % 256 = 0) && decide (y.2.1 % 256 = 0) && decide (y.2.2.1 % 256 = 0) && decide (0 < y.2.2.1) &&
        nearRange y.1 y.2.2.1 && nearRange y.2.1 y.2.2.1 && decide (nearDie y.1 = nearDie y.2.1) && decide (y.2.2.2 = 0)
    let okH := decide (ha % 256 = 0) && decide (hb % 256 = 0) && nearSpan ha 17408 && nearSpan hb 17408 &&
      (h.drop 18).all (· == 0)
    let rs := (ha, 17408) :: (hb, 17408) :: (es.flatMap fun y => [(y.1, y.2.2.1), (y.2.1, y.2.2.1)])
    if okE && okH && apart rs then some (ha, hb, es.map fun y => (y.1, y.2.1, y.2.2.1)) else none

/-- Whether the step block address is as R380 asks. -/
def scbOk (a : Nat) : Bool := decide (a % 1024 = 0) && nearRange a 1024

/-- The split settings of the registers, when R379 and R380 hold (R378). -/
def splitSettings (s : State) : Option SplitCfg :=
  match parseManifest s s.split.man with
  | some m => if scbOk s.split.scb then some ⟨m.1, m.2.1, m.2.2, s.split.scb, s.split.interval.toNat, s.split.autoResume⟩ else none
  | none => none

/-- Header block of a side. -/
def hdrOf (k : SplitCfg) (b : Bool) : Nat := if b then k.hdrB else k.hdrA

/-- `STEP` of the step block. -/
def stepOf (s : State) (k : SplitCfg) : Nat := leNat (devRead s k.scb 8)

/-! ### Capture (R384, Tables 17-3, 17-4) -/

/-- One loop level in 16 bytes. -/
def loopBytes (l : Loop) : List Byte := leBytes 4 l.left ++ leBytes 4 l.iter ++ leBytes 4 l.first ++ leBytes 4 l.last

/-- The die block of a sequencer (Table 17-4). -/
def dieBlock (q : Seq) : List Byte :=
  leBytes 4 (if q.final then 0xFFFFFFFF else q.pc) ++ leBytes 4 q.pstep.toNat ++ leBytes 4 q.loops.length ++ zeros 4 ++
    ((q.loops.take 8).flatMap loopBytes ++ zeros (128 - 16 * min q.loops.length 8)) ++
    (q.bar.toList.flatMap fun b => leBytes 2 b) ++ zeros 336 ++ (q.s.toList.flatMap fun x => leBytes 8 x.toNat)

/-- The split state captured at a cut that opens run lap `r`, module lap `m` (R384, R385). -/
def capture (s : State) (k : SplitCfg) (side : Bool) (j step r m : Nat) : SplitImage :=
  { side := side, index := j, step := step, streams := leNat (devRead s (k.scb + 8) 4),
    origin := leNat (devRead s (k.scb + 12) 4), stride := leNat (devRead s (k.scb + 16) 4),
    cursors := (List.range 64).map fun i => leNat (devRead s (k.scb + 128 + 8 * i) 8),
    resumeLap := r, moduleLap := m, tdc := s.run.tdc, tdcKinds := s.run.tdcKinds.toNat, restores := s.mladar.restores,
    prev := s.mladar.prev, dies := (List.finRange 16).map fun d => dieBlock (s.die d).seq }

/-- The split header (Table 17-3), without its digest. -/
def headerBytes (s : State) (g : SplitImage) : List Byte :=
  let (gr, kk, dig) := match s.run.program with | some p => (p.grade, p.k, p.digest) | none => (0, 0, zeros 64)
  let (mode, seed, recs) := match recordRun s with
    | some r => (modeBytes r, leBytes 8 r.seed.toNat, r.records) | none => (zeros 8, zeros 8, false)
  leBytes 4 0x544C5053 ++ [1, BitVec.ofNat 8 gr, BitVec.ofNat 8 kk, BitVec.ofNat 8 (b2n g.side)] ++ leBytes 4 g.index ++
    leBytes 4 g.streams ++ leBytes 8 g.step ++ leBytes 8 g.resumeLap ++ leBytes 8 g.moduleLap ++ mode ++ seed ++
    leBytes 8 g.tdc ++ [BitVec.ofNat 8 g.tdcKinds, 0] ++ leBytes 2 g.restores ++ leBytes 4 g.origin ++ leBytes 4 g.stride ++
    zeros 52 ++ (if recs then g.prev else zeros 64) ++ (if recs then s.mladar.runDigest else zeros 64) ++ dig ++ zeros 64 ++
    (g.cursors.flatMap fun c => leBytes 8 c) ++ zeros 128

/-- Writing `LIVE` and `SPLIT_INDEX` into the step block (R384). -/
def writeScb (s : State) (k : SplitCfg) : State :=
  devWrite (devWrite s (k.scb + 64) [BitVec.ofNat 8 (b2n s.split.live)]) (k.scb + 68) (leBytes 4 s.split.index)

/-- The bytes of the split image (R387). -/
def imageSize (k : SplitCfg) : Nat := 16384 + (k.regions.map fun r => r.2.2).foldl (· + ·) 0 + 1024

/-- Taking split `j` at the cut that opens run lap `r` (R384): the live side freezes; the header is written later. -/
def takeSplit (s : State) (k : SplitCfg) (r m : Nat) : State :=
  let j := s.split.index + 1
  let step := stepOf s k
  let g := capture s k s.split.live j step r m
  writeScb { s with split := { s.split with
      live := !s.split.live, index := j, step := step, lap := r, boundary := step, cursors := g.cursors, image := some g,
      hdrDone := false, draining := true, drainDone := false, drainPos := 0, drainTotal := imageSize k } } k

/-- Split 0, at the cut that opens run lap 0: side A freezes with STEP 0; its drain counts as complete (R385). -/
def takeSplit0 (s : State) (k : SplitCfg) (m : Nat) : State :=
  let g := { capture s k false 0 0 0 m with cursors := (List.range 64).map fun i => leNat (devRead s (k.scb + 128 + 8 * i) 8) }
  writeScb { s with split := { s.split with
      live := true, index := 0, step := 0, lap := 0, boundary := 0, cursors := g.cursors, image := some g, hdrDone := false,
      draining := false, drainDone := true, drainPos := 0, drainTotal := 0 } } k

/-- The settings of the run whose split is in question. -/
def splitCfgOf (s : State) : Option SplitCfg := (recordRun s).bind (·.split)

/-- Writing the captured state into the frozen side's header block; the drain starts (R384). -/
def writeHeader (s : State) : State :=
  match s.split.image, splitCfgOf s with
  | some g, some k =>
    if s.split.hdrDone then s
    else
      let s1 := nearWrite s (hdrOf k g.side) (headerBytes s g ++ g.dies.flatten)
      { s1 with split := { s1.split with hdrDone := true } }
  | _, _ => s

/-- SPLIT_HEADER_WRITTEN (R384). -/
def execSplitHeaderWritten (s : State) : Host.Outcome State Fault Refusal := .next (writeHeader s)

/-! ### Step boundaries (R382, R383) -/

/-- Judging the step boundary in the close phase: SCB_STEP for a step that goes back (R382). -/
def judgeStep (s : State) : State :=
  match (if runLapOpen s then splitCfgOf s else none) with
  | some k =>
    let n := stepOf s k
    if n < s.split.boundary then raiseHub s 0x0179
    else { s with split := { s.split with atBoundary := decide (s.split.boundary < n) } }
  | none => s

/-- The conditions of R383 beside the drain. -/
def splitQuiet (s : State) : Bool :=
  s.mladar.slots.isEmpty && s.mladar.ended.isEmpty &&
    (List.finRange 16).all fun d =>
      ((s.die d).memQ.all fun r => !r.async) && (s.die d).seq.frames.toList.all fun f =>
        match f with | .loading _ _ _ => false | _ => true

/-- At the cut after a committed lap: a due split is taken or deferred (R383). `r` and `m` index the lap that opens. -/
def splitAtCut (s : State) (r m : Nat) : State :=
  match splitCfgOf s with
  | some k =>
    if s.split.atBoundary then
      let n := stepOf s k
      let s1 := { s with split := { s.split with boundary := n } }
      if k.interval ≤ n - s.split.step then
        if s.split.drainDone && splitQuiet s then takeSplit s1 k r m
        else { s1 with split := { s1.split with stretched := true, setNow := s1.split.setNow ||| 0x20, stretchCount := satAdd32 s1.split.stretchCount 1 } }
      else s1
    else s
  | none => s

/-! ### The drain (R387, R388, R418) -/

/-- The pieces of the split image in order: die blocks, regions of the frozen side, split header. -/
def imagePieces (k : SplitCfg) (b : Bool) : List (Nat × Nat) :=
  (hdrOf k b + 1024, 16384) :: (k.regions.map fun r => (if b then r.2.1 else r.1, r.2.2)) ++ [(hdrOf k b, 1024)]

/-- Reading `n` bytes from image position `pos`. -/
def readPieces (s : State) : List (Nat × Nat) → Nat → Nat → List Byte
  | [], _, _ => []
  | (a, l) :: ps, pos, n =>
    if n = 0 then []
    else if l ≤ pos then readPieces s ps (pos - l) n
    else
      let m := min n (l - pos)
      nearBytes s (a + pos) m ++ readPieces s ps 0 (n - m)

/-- What reading image positions [pos, pos + n) does beside returning data (Table 14-3). -/
def touchPieces (s : State) (l : List (Nat × Nat)) (pos n : Nat) : State :=
  (l.foldl (fun (y : State × Nat) p =>
    let lo := max pos y.2
    let hi := min (pos + n) (y.2 + p.2)
    (if lo < hi then touchRange y.1 (p.1 + (lo - y.2)) (hi - lo) else y.1, y.2 + p.2)) (s, 0)).1

/-- SPLIT_DIGEST over the die blocks and the regions of a side (R387). -/
def splitDigest (s : State) (k : SplitCfg) (b : Bool) : List Byte :=
  sha512 (readPieces s (imagePieces k b) 0 (imageSize k - 1024))

/-- Writing the digest and `DIGEST_VALID` into the header (R387). -/
def writeDigest (s : State) (k : SplitCfg) (b : Bool) : State :=
  nearWrite (nearWrite s (hdrOf k b + 320) (splitDigest s k b)) (hdrOf k b + 65) [1]

/-- The receiver of the drain (R418). -/
def drainPeer (s : State) : Option Nat := (List.range 16).find? fun p => (peerAt s p).drainRx

/-- DRAIN_SEND: the next drain frame of whole 64 B units, under the drain budget of the lap (R41, R387, R388, R418). -/
def execDrainSend (s : State) : Host.Outcome State Fault Refusal :=
  match drainPeer s, splitCfgOf s with
  | some p, some k =>
    let left := s.split.drainTotal - s.split.drainPos
    if !s.split.draining || !s.split.hdrDone || left = 0 || !maySend s p 3 then .next s
    else
      let room := lapBudget s 2 - vget s.pacer.usedNow 2 0
      let n := min (min 8192 ((maxPayload s - 16) / 64 * 64)) (min left (64 * room))
      if n = 0 then .next (pacerEvent s 0)
      else
        let b := !s.split.live
        let s1 := if s.split.drainTotal - 1024 < s.split.drainPos + n then writeDigest s k b else s
        let bs := readPieces s1 (imagePieces k b) s.split.drainPos n
        let s1 := touchPieces s1 (imagePieces k b) s.split.drainPos n
        let s2 := { s1 with
          split := { s1.split with drainPos := s.split.drainPos + n }
          pacer := { s1.pacer with usedNow := vset s1.pacer.usedNow 2 (vget s1.pacer.usedNow 2 0 + ceilDiv n 64) } }
        .next (sendPayload s2 p 3 0 0 0 (leBytes 8 s.split.drainPos ++ leBytes 4 s.split.index ++ zeros 4 ++ bs))
  | _, _ => .next s

/-- Ending a pending drain (R388). -/
def cancelDrain (s : State) : State := { s with split := { s.split with draining := false } }

/-- CANCEL: a write of 1 ends a pending drain (R388). -/
def execCancel (_peer : Fin 16) (s : State) : Host.Outcome State Fault Refusal :=
  .next (atCut s cancelDrain)

/-! ### Verification (R396) -/

/-- A write of 1 to `VERIFY`: the check starts at the next cut; in a run or recovery laps it is ignored with error 5. -/
def verifyWrite (s : State) : State :=
  if s.run.run.isSome || s.laps.state ≠ 0 then { s with split := { s.split with errCode := 5 } }
  else { s with split := { s.split with verifyStart := true, verified := false, errCode := 0 } }

/-- VERIFY (R396). -/
def execVerify (_peer : Fin 16) (s : State) : Host.Outcome State Fault Refusal :=
  .next (atCut s verifyWrite)

/-- Whether a header block holds a split header: its magic number (R396). -/
def hdrValid (s : State) (a : Nat) : Bool := decide (leNat (nearBytes s a 4) = 0x544C5053)

/-- The side whose header has the magic number and the highest index (R396). -/
def bestSide (s : State) (k : SplitCfg) : Option Bool :=
  let va := hdrValid s k.hdrA
  let vb := hdrValid s k.hdrB
  if va && vb then some (decide (leNat (nearBytes s (k.hdrA + 8) 4) < leNat (nearBytes s (k.hdrB + 8) 4)))
  else if va then some false
  else if vb then some true
  else none

/-- The start of the check at a cut: the headers are read; the digest is recomputed until VERIFY_DONE (R396). -/
def verifyBegin (s : State) : State :=
  if !s.split.verifyStart then s
  else
    let s1 := { s with split := { s.split with verifyStart := false } }
    match parseManifest s s.split.man with
    | none => { s1 with split := { s1.split with errCode := 1 } }
    | some _ =>
      match splitSettings s with
      | none => { s1 with split := { s1.split with errCode := 2 } }
      | some k =>
        let s1 := touchRange (touchRange s1 k.hdrA 1024) k.hdrB 1024
        match bestSide s k with
        | none => { s1 with split := { s1.split with errCode := 3 } }
        | some b =>
          if bitAt (nth (nearBytes s (hdrOf k b + 65) 1) 0 0).toNat 0 then
            { s1 with split := { s1.split with verifyBusy := true, verifySide := b, cfg := some k,
                                                verifyRead := Vector.replicate 16 0 } }
          else { s1 with split := { s1.split with errCode := 3 } }

/-- VERIFY_DONE, once every unit has been read: `VERIFIED` when the digest matches, else error 4 (R396). -/
def execVerifyDone (s : State) : Host.Outcome State Fault Refusal :=
  match s.split.cfg with
  | some k =>
    if s.split.verifyBusy && allRead s.split.verifyRead (checkRanges k s.split.verifySide) then
      let ok := decide (splitDigest s k s.split.verifySide = nearBytes s (hdrOf k s.split.verifySide + 320) 64)
      .next { s with split := { s.split with verifyBusy := false, verified := ok,
                                             errCode := if ok then s.split.errCode else 4 } }
    else .next s
  | none => .next s

/-! ### Restore (R391 steps 5 to 7, R392, R397) -/

/-- A sequencer loaded from a die block, with PSTEP at `p` (R391, R392); a program counter of all ones keeps the die
finished (R259). Program store frames and counters are those given. -/
def seqFromBlock (q : Seq) (b : List Byte) (p : Nat) : Seq :=
  let pc := leNat (b.take 4)
  let depth := min (leNat ((b.drop 8).take 4)) 8
  let lv (i : Nat) : Loop :=
    let x := (b.drop (16 + 16 * i)).take 16
    ⟨leNat (x.take 4), leNat ((x.drop 4).take 4), leNat ((x.drop 8).take 4), leNat ((x.drop 12).take 4)⟩
  { Seq.init with
    s := Vector.ofFn fun i : Fin 64 => BitVec.ofNat 64 (leNat ((b.drop (512 + 8 * i.val)).take 8))
    bar := Vector.ofFn fun i : Fin 16 => leNat ((b.drop (144 + 2 * i.val)).take 2)
    pstep := BitVec.ofNat 32 p, pc := pc, loops := (List.range depth).map lv, ended := decide (pc = 0xFFFFFFFF),
    final := decide (pc = 0xFFFFFFFF), endCyc := if pc = 0xFFFFFFFF then some 13 else none, frames := q.frames }

/-- What a split header gives: resume lap, step, index, TDC, kinds, restores, PREV, run digest, PSTEP of every die. -/
structure SplitHead where
  resume : Nat
  step : Nat
  index : Nat
  tdc : Nat
  kinds : Nat
  restores : Nat
  prev : List Byte
  runDigest : List Byte
  mode : Nat
  seed : Nat
  pstep : Nat
  cursors : List Nat
  deriving DecidableEq, Repr

/-- Reading a split header (Table 17-3); PSTEP under R392. -/
def readHead (s : State) (a : Nat) : SplitHead :=
  let h := nearBytes s a 1024
  let at_ (o n : Nat) : Nat := leNat ((h.drop o).take n)
  { resume := at_ 24 8, step := at_ 16 8, index := at_ 8 4, tdc := at_ 56 8, kinds := at_ 64 1, restores := at_ 66 2,
    prev := (h.drop 128).take 64, runDigest := (h.drop 192).take 64, mode := at_ 40 8, seed := at_ 48 8,
    pstep := (at_ 68 4 + at_ 16 8 * at_ 72 4) % 2 ^ 32, cursors := (List.range 64).map fun i => at_ (384 + 8 * i) 8 }

/-- `STEP` and the cursors as the split header holds them, in the step block (R391 step 6, log 51). -/
def writeSteps (s : State) (k : SplitCfg) (h : SplitHead) : State :=
  devWrite (devWrite s k.scb (leBytes 8 h.step)) (k.scb + 128) (h.cursors.flatMap fun c => leBytes 8 c)

/-- Steps 5 to 7 of R391 from the header block at `a` of frozen side `b`: sequencers, PSTEP (SPLIT_SKEW where a stored
PSTEP differs), the Mladar chain state, the step block; ingress bound to the resume lap or later is released. The slots
of the run stand until it resumes: a stop before that ends them (R352, R395). -/
def restoreSplit (s : State) (k : SplitCfg) (a : Nat) (b : Bool) (restores : Nat) : State :=
  let h := readHead s a
  let blk (d : Die) : List Byte := nearBytes s (a + 1024 + 1024 * d.val) 1024
  let s := touchRange s a 17408
  let skew := (List.finRange 16).any fun d => decide (leNat (((blk d).drop 4).take 4) ≠ h.pstep)
  let s1 := forDies (fun x d => x.setSeq d (seqFromBlock (x.die d).seq (blk d) h.pstep)) s
  let s2 : State := { s1 with
    run := { s1.run with tdc := h.tdc, tdcKinds := BitVec.ofNat 3 h.kinds }
    mladar := { s1.mladar with prev := h.prev, restores := restores, events := if skew then 3 else 1,
                               runDigest := h.runDigest, certsDue := true }
    split := { s1.split with live := !b, index := h.index, step := h.step, lap := h.resume, boundary := h.step,
                             cursors := h.cursors, skew := s1.split.skew || skew
                             setNow := s1.split.setNow ||| (if skew then 0x40 else 0) }
    net := { s1.net with ingress := s1.net.ingress.filter fun x => decide (x.bound < h.resume) } }
  writeScb (writeSteps s2 k h) k

/-- Whether the run resumes of itself after its recovery step: `AUTO_RESUME` as its RUN latched it (R378, R394). -/
def autoResume (s : State) : Bool := match s.run.run.bind (·.split) with | some k => k.auto | none => s.split.autoResume

end Sys2Proof.Machine
end

