-- ==== Sys2Proof/Machine/Reset.lean ====
section
/-! DEFINITION. Module reset and the loss of power: what is lost and what is kept (R442, R446, R466, R467). -/
namespace Sys2Proof.Machine

/-- A die after a module reset: fuses and the fence list are kept, the map waits for its build; channel state, tiers and
core stores are lost (R311, R333, R370, R466). -/
def coldDie (x : DieSt) (n : Nat) (clear : Bool) (groups : Nat) : DieSt :=
  { DieSt.init n with defects := x.defects, fences := if clear then [] else x.fences, map := ⟨[], [], [], false⟩,
                      groupsOn := groups }

/-- The image area of the flash after a reset or a loss of power: programming that was under way leaves an image that fails
verification, here an erased area (R428, log 52). -/
def flashLeft (x : Sec) : Mem := if x.commit.isSome then memClear x.flash 0 0x1000000 else x.flash

/-- What fuses, flash, certificates and the one-time-programmable store hold is kept; the rest of the security state is that of
a reset: the seal key is lost (R425, R431, R432, R442). -/
def coldSec (x : Sec) : Sec :=
  { Sec.init with slotDigest := x.slotDigest, revoked := x.revoked, rollback := x.rollback, locked := x.locked,
                  part := x.part, serial := x.serial, trims := x.trims, identKey := x.identKey, flash := flashLeft x,
                  certMfg := x.certMfg, certIdent := x.certIdent,
                  certSeal := [], sealReady := false, tap := x.tap, extest := x.extest }

/-- Registers and state that every reset loses; what has left the port is history. -/
def coldState (s : State) (clear : Bool) (groups : Nat) : State :=
  { s with
    laps := { Laps.init with now := s.laps.now }, pacer := Pacer.init,
    dies := s.dies.map fun x => coldDie x (gridSide s) clear groups, fabric := Fabric.init, run := RunSt.init,
    mladar := Mladar.init, faults := Faults.init, split := Splits.init,
    net := { Net.init s.net.mac with sent := s.net.sent, lanes := 0, dark := true }, sec := coldSec s.sec }

/-- The hottest region of the last readings, and its place. -/
def topReading (p : Power) : Int × Nat :=
  let all := p.tj.toList ++ [p.hubTj]
  let m := all.foldl max p.hubTj
  (m, (firstIdx (fun x => decide (x = m)) all 0).getD 0)

/-- A module reset: every rail stays on, bring-up repeats from ROM verification (R466). The monitor goes on watching the
input, and the restarts of bring-up count on since power came (R458); the highest reading since reset starts from the readings that stand (R7, Table 20-12). -/
def moduleReset (s : State) (cause : Nat) : State :=
  let s1 := coldState s s.faults.clearPending 16
  { s1 with
    power := { s.power with phase := if s.power.goodDone then .boot else s.power.phase, verified := false
                            sealIssued := false, memTrained := false,
                            linkTrained := false, mapped := false, energyJ := 0, warn := false,
                            stopPending := false, memHot := false, events := 0, sensorFail := []
                            uv := false, peak := (topReading s.power).1, peakAt := (topReading s.power).2 }
    ident := { s.ident with scratch := 0, resetCause := cause, bootDegraded := false, restarts := 0, bootTime := 0,
                            resetCount := satAdd32 s.ident.resetCount 1 } }

/-- Every rail off: only fuses, flash, fence lists and certificates are kept (R441, R442, R446). -/
def railsDown (s : State) (latched : Bool) : State :=
  let s1 := coldState s false 0
  { s1 with
    sec := { s1.sec with tap := .bypass, extest := false }
    power := { Power.init with phase := .off, latched := latched, step := 0, goodDone := false, verified := false,
                               sealIssued := false, memTrained := false, linkTrained := false, mapped := false,
                               vinMv := s.power.vinMv }
    ident := { s.ident with scratch := 0, resetCause := 0, bootDegraded := false, restarts := 0, bootTime := 0,
                            resetCount := 0 } }

/-- The recovery responder comes up with a reason code (R427, R458): every compute die is held in reset, no laps turn. -/
def raiseResponder (s : State) (reason : Nat) : State :=
  { s with
    sec := { s.sec with responder := true, reason := reason, staging := [], commit := none }
    net := { s.net with dark := false, cfg := { NetCfg.init with pcpBulk := 6 }, peers := peersInit } }

end Sys2Proof.Machine
end

