-- ==== Sys2Proof/Machine/Faults.lean ====
section
/-! DEFINITION. Detected faults, the fault queue, die and channel resets, oscillators, and the recovery actions
(chapter 16, R311–R313, R333, R334, R391, R451, R472). -/
namespace Sys2Proof.Machine

/-! ### Resets of dies and channels (R311–R313, R333, R334, R371, R372) -/

/-- Die `d`'s new epoch, taken into every other die's copy (R311). -/
def bumpEpoch (s : State) (d : Die) : State :=
  let e := (s.die d).epoch + 1
  let s1 := s.setDie d { s.die d with epoch := e }
  forDies (fun x y => x.setDie y { x.die y with copies := vset (x.die y).copies d.val e }) s1

/-- The entry word of a die's program (R272). -/
def entryWord (s : State) (d : Die) : Nat := match s.run.program with | some p => (nth p.streams d.val (0, 0, 0)).2.1 | none => 0

/-- A sequencer in its run-start state: entry word and parameters of the run, if one is in force (R272). -/
def runStartSeq (s : State) (d : Die) : Seq :=
  if s.run.run.isSome then
    { Seq.init with s := Vector.ofFn (fun i : Fin 64 => nth (nth s.run.params d.val []) i.val 0), pc := entryWord s d }
  else Seq.init

/-- The first cycle of a die reset (R371): the epoch advances; sequencer, cores and queues take their run-start state, the
counts of the lap stay; no frame holds a page; packets held inside the die are discarded with a record each (R312). Those
on their way to it or from it are dropped on arrival, by their epochs. -/
def startDieReset (s : State) (d : Die) : State :=
  let s1 := bumpEpoch s d
  let x := s1.die d
  let s2 := s1.setDie d { x with
    cores := freshCores [] x.cores.length s.laps.now, rest := freshCores [] x.rest.length s.laps.now
    seq := { runStartSeq s d with words := x.seq.words, stalls := x.seq.stalls, energy := x.seq.energy }
    memQ := [], resetFrom := some s.laps.now }
  let inside (y : NetDatum) : Bool := decide (y.src = d) && decide (y.die = d)
  let mine (g : Signal) : Bool := decide (g.src = d) && decide (g.die = d)
  let held := (s.fabric.data.filter inside).length + (s.fabric.signals.filter mine).length +
    (s.fabric.sends.filter fun j => decide (j.die = d)).length
  dropPackets { s2 with fabric := { s2.fabric with
    data := s2.fabric.data.filter fun y => !inside y
    signals := s2.fabric.signals.filter fun g => !mine g
    sends := s2.fabric.sends.filter fun j => decide (j.die ≠ d) } } d held

/-- Other channels of a parity group that have failed (R372). -/
def groupFailed (t : Tier) (ch : Nat) : Bool :=
  (List.range 5).any fun k => decide (4 * k + ch % 4 ≠ ch) && (vget t.chans (4 * k + ch % 4) Chan.init).failed

/-- Marking a channel failed; a second one in a parity group leaves the tier degraded (R372). -/
def failChannel (s : State) (d : Die) (far : Bool) (ch : Nat) : State :=
  let t := (s.die d).tier far
  let c := vget t.chans ch Chan.init
  s.setTier d far { t with chans := vset t.chans ch { c with failed := true, resetFrom := none }
                           degraded := t.degraded || groupFailed t ch }

/-- ACTION bits of a channel that has just failed, given the tier afterwards. -/
def failBits (s : State) (d : Die) (far : Bool) : Nat := 0x10 + (if ((s.die d).tier far).degraded then 0x40 else 0)

/-- Resetting a channel (R334): its epoch advances; at its third reset it fails, and a failed channel is never reset
again (R372). The new state and the ACTION bits. -/
def startChanReset (s : State) (d : Die) (far : Bool) (ch : Nat) : State × Nat :=
  let t := (s.die d).tier far
  let c := vget t.chans ch Chan.init
  if c.failed then (s, 1)
  else
    let s1 := s.setTier d far
      { t with chans := vset t.chans ch { c with epoch := c.epoch + 1, resets := c.resets + 1, resetFrom := some s.laps.now } }
    if 3 ≤ c.resets + 1 then
      let s2 := failChannel s1 d far ch
      (s2, 9 ||| failBits s2 d far)
    else (s1, 9)

/-- DETAIL of a channel (Table 16-2). -/
def chanDetail (far : Bool) (ch : Nat) : Nat := b2n far + 2 * ch

/-- Recording a detected fault of a channel with a reset of it. The reset records CH_RESET (R372), beside the fault that
ordered it where that is another. -/
def chanFault (s : State) (cause : Nat) (d : Die) (far : Bool) (ch addr : Nat) : State :=
  let r := startChanReset s d far ch
  let e := (vget ((r.1.die d).tier far).chans ch Chan.init).epoch
  let y (cause : Nat) : FaultRec :=
    { mkRec r.1 1 cause d none (if cause = 13 then 11 else 10) (chanDetail far ch) addr r.2 with
      epoch := if bitAt r.2 3 then e.toNat else 0 }
  let s1 := addFault r.1 (y cause)
  if cause ≠ 14 ∧ bitAt r.2 3 then addFault s1 (y 14) else s1

/-! ### Detection (R361, R367, Table 16-1) -/

/-- Cause code of a detected fault (Table 16-3). -/
def detCode : DetCause → Nat
  | .csUe => 1 | .regUe => 2 | .queueUe => 3 | .accResidue => 4 | .vecResidue => 5 | .dupMismatch => 6
  | .seqLockstep => 7 | .wordEcc => 8 | .pstoreUe => 9 | .linkCrc => 10 | .memParity => 11 | .memMulti => 12
  | .memCtrlUe => 13 | .chReset => 14 | .epochDrop => 15 | .clockXchk => 16 | .hubLockstep => 17 | .fencedDone => 18

/-- A detected fault of one core: abort and fence (Table 16-1). A position that no core lies on records none (R369). -/
def coreFault (s : State) (d : Die) (i cause unit detail addr : Nat) : State :=
  if (physOf s d i).isNone then s
  else
    let s1 := if cause = 8 then s.setDie d { s.die d with regs := { (s.die d).regs with
      wordEccSeen := true, setNow := (s.die d).regs.setNow ||| 0x100 } } else s
    addFault s1 (mkRec s1 1 cause d (some i) unit detail addr 3)

/-- `MORE` and `CORE` of WORD_ECC reported for a whole die: every core of it detects (Table 16-1). -/
def allCores (s : State) (d : Die) (r : FaultRec) : FaultRec :=
  { r with core := coreAddr (sideN s) d 0, phys := physWord s d 0, more := min ((s.die d).cores.length - 1) 0xFFFF }

/-- A detected fault of a die: abort and die reset; PC is that of the word being issued for the sequencer and the program
store (Table 16-2). -/
def dieFault (s : State) (d : Die) (cause unit : Nat) : State :=
  let q := (s.die d).regs
  let s1 := s.setDie d { s.die d with regs := { q with lockstepSeen := q.lockstepSeen || decide (cause = 7)
                                                       wordEccSeen := q.wordEccSeen || decide (cause = 8)
                                                       setNow := q.setNow ||| (if cause = 7 then 0x80 else if cause = 8 then 0x100 else 0) } }
  let r := mkRec s1 1 cause d none unit 0 0 5
  let p := (s1.die d).seq
  addFault s1 (if cause = 7 ∨ cause = 9 then { r with pc := if p.issued || issuing s1 d then p.pc else 0xFFFFFFFF }
    else if cause = 8 then allCores s1 d r else r)

/-- A residual error on a link: what crosses it is dropped, it is retrained, and fails at its fourth (R373). -/
def linkFault (s0 : State) (n : Fin 28) : State :=
  let s := dropCrossing s0 n
  let e := s.fabric.linkErrors[n] + 1
  let bad := decide (4 ≤ e)
  let s1 : State := { s with
    fabric := { s.fabric with linkErrors := s.fabric.linkErrors.set n e
                              linkFailed := if bad then s.fabric.linkFailed ||| BitVec.ofNat 28 (2 ^ n.val) else s.fabric.linkFailed }
    faults := { s.faults with toRetrain := s.faults.toRetrain ||| BitVec.ofNat 28 (2 ^ n.val) } }
  addFault s1 { mkRec s1 1 10 0 none 9 n 0 (if bad then 0x61 else 1) with die := 0xFF, pc := 0xFFFFFFFF }

/-- A hub fault before the first idle lap restarts bring-up; the third restart raises the responder (R458). -/
def bringupRestart (s : State) : State :=
  if s.power.restarts < 2 then
    { s with power := { s.power with restarts := s.power.restarts + 1, verified := false, sealIssued := false,
                                     memTrained := false, linkTrained := false, mapped := false } }
  else raiseResponder s 7

/-- FAULT_DETECTED in laps (Table 16-1). -/
def detect (s : State) (det : Detection) : State :=
  match det with
  | .csCorrected => { s with faults := { s.faults with csCorrected := satAdd32 s.faults.csCorrected 1 } }
  | .wordCorrected d =>
    let q := (s.die d).regs
    s.setDie d { s.die d with regs := { q with wordCorrected := satAdd32 q.wordCorrected 1 } }
  | .memCorrected => { s with faults := { s.faults with memCorrected := satAdd32 s.faults.memCorrected 1 } }
  | .memRecon => { s with faults := { s.faults with memRecon := satAdd32 s.faults.memRecon 1 } }
  | .linkCorrected => { s with faults := { s.faults with linkCorrected := satAdd32 s.faults.linkCorrected 1 } }
  | .core c d i unit detail addr => coreFault s d i (detCode c) unit detail.toNat addr.toNat
  | .die c d unit => dieFault s d (detCode c) unit
  | .link n => linkFault s n
  | .channel c d far ch addr =>
    match c with
    | .memParity => addFault s (mkRec s 1 11 d none 10 (chanDetail far ch) addr.toNat 1)
    | .memMulti =>
      let t := (s.die d).tier far
      let s1 := s.setTier d far { t with degraded := true }
      addFault s1 (mkRec s1 1 12 d none 10 (chanDetail far ch) addr.toNat 0x41)
    | _ => chanFault s (detCode c) d far ch addr.toNat
  | .hub => addFault s { mkRec s 1 17 0 none 12 0 0 1 with die := 16, pc := 0xFFFFFFFF }

/-- FAULT_DETECTED (R361, R367, R458). -/
def execFaultDetected (det : Detection) (s : State) : Host.Outcome State Fault Refusal :=
  match s.power.phase with
  | .laps => .next (if s.sec.responder then s else detect s det)
  | .boot => .next (if s.sec.responder || s.sec.extest then s else match det with | .hub => bringupRestart s | _ => s)
  | .stagger =>
    .next (if s.sec.responder || decide (s.power.step = 0) then s else match det with | .hub => bringupRestart s | _ => s)
  | _ => .next s

/-! ### The fault queue (R365, R366) -/

/-- Place of a record's die in the order of a cycle: the hub last (R365), records without a die before it. -/
def dieRank (r : FaultRec) : Nat := if r.die = 16 then 256 else r.die

/-- Order of the records queued in one cycle (R365); links by number. -/
def recBefore (a b : FaultRec) : Bool :=
  decide (dieRank a < dieRank b) || (decide (dieRank a = dieRank b) && (decide (a.cause < b.cause) ||
    (decide (a.cause = b.cause) && (decide (a.core < b.core) || (decide (a.core = b.core) && decide (a.detail ≤ b.detail))))))

/-- Queueing one record: a full queue discards it (R366); a die reset starts in this cycle (R371). What came in this cycle
is remembered for a pop that falls into it. -/
def queueRec (s : State) (r : FaultRec) : State :=
  let reset := bitAt r.action 2 && decide (r.die < 16)
  let s1 := if reset then startDieReset s (dieOf r.die) else s
  let r1 := if reset then { r with epoch := (s1.die (dieOf r.die)).epoch.toNat } else r
  let f := s1.faults
  let same := decide (f.cameAt = s1.laps.now)
  let fresh := if same then f.fresh else 0
  let spill := if same then f.spill else []
  if f.queue.length < 256 then
    { s1 with faults := { f with queue := f.queue ++ [r1], total := satAdd32 f.total 1, cameAt := s1.laps.now,
                                 fresh := fresh + 1, spill := spill } }
  else { s1 with faults := { f with lost := satAdd32 f.lost 1, cameAt := s1.laps.now, fresh := fresh, spill := spill ++ [r1] } }

/-- FAULT_RECORD_QUEUE: the detected records are queued in order; from now on sequencers issue NOP words (R365, R367). -/
def execFaultRecordQueue (s : State) : Host.Outcome State Fault Refusal :=
  if s.faults.detected.isEmpty then .next s
  else
    let l := sortBy recBefore s.faults.detected
    let s1 : State := { s with
      faults := { s.faults with detected := [] }
      laps := { s.laps with stopIssue := s.laps.stopIssue || l.any fun r => decide (r.moduleLap = s.laps.moduleLap) } }
    .next (l.foldl queueRec s1)

/-- Removing the head record. A pop takes effect before the records of its cycle: it takes none of them, and the first of
them that found the queue full has its place (R366). -/
def popFault (s : State) : State :=
  let f := s.faults
  if f.cameAt ≠ s.laps.now then { s with faults := { f with queue := f.queue.drop 1 } }
  else if f.queue.length ≤ f.fresh then s
  else
    match f.spill with
    | [] => { s with faults := { f with queue := f.queue.drop 1 } }
    | r :: l => { s with faults := { f with queue := (f.queue.drop 1).take 255 ++ [r], lost := f.lost - 1, total := satAdd32 f.total 1,
                                            fresh := f.fresh + 1, spill := l } }

/-- FAULT_POP (R366). -/
def execFaultPop (_peer : Fin 16) (s : State) : Host.Outcome State Fault Refusal :=
  .next (atCut s popFault)

/-- FENCE_CLEAR: every fence list is emptied at the next module reset (R370). -/
def execFenceClear (_peer : Fin 16) (s : State) : Host.Outcome State Fault Refusal :=
  .next (atCut s fun s => { s with faults := { s.faults with clearPending := true } })

/-- The bytes of a record (Table 16-2). -/
def recBytes (r : FaultRec) : List Byte :=
  [1, BitVec.ofNat 8 r.cls] ++ leBytes 2 r.cause ++ leBytes 4 r.core ++ [BitVec.ofNat 8 r.die, BitVec.ofNat 8 r.unit] ++
    leBytes 2 r.detail ++ leBytes 4 r.phys ++ leBytes 8 r.runLap ++ leBytes 8 r.moduleLap ++ leBytes 4 r.cycle ++
    leBytes 4 r.pc ++ leBytes 8 r.address ++ [BitVec.ofNat 8 r.action, BitVec.ofNat 8 r.epoch] ++ leBytes 2 r.more ++ zeros 12

/-! ### Patrol, ends of resets, packets (R312, R313, R332–R334, R363) -/

/-- What a patrol read finds: nothing, a single-bit error that it counts and corrects, CS_UE. It acts on cores that the map
uses (R369). -/
def patrolFinds (s : State) (d : Die) (core a : Nat) (flips : Fin 3) : State :=
  if flips.val = 0 ∨ (physOf s d core).isNone then s
  else if flips.val = 1 then detect s .csCorrected
  else coreFault s d core 1 4 0 a

/-- A core whose patrol goes on to the next word, wrapping after the last (R363). -/
def stepPatrol (c : Core) : Core := { c with patrol := (c.patrol + 8) % csSize }

/-- PATROL_READ: the next word of a core's store, with the flipped bits that the read finds (R363); in a run of a smaller
program the cores at the positions that R12 leaves idle are numbered after those of its grid (R369). -/
def execPatrolRead (d : Die) (core : Nat) (flips : Fin 3) (s : State) : Host.Outcome State Fault Refusal :=
  let x := s.die d
  if !portOn s then .next s
  else
    match x.cores[core]?, x.rest[core - x.cores.length]? with
    | some c, _ => .next (patrolFinds (s.setCores d (x.cores.set core (stepPatrol c))) d core c.patrol flips)
    | none, some c =>
      .next (patrolFinds (s.setDie d { x with rest := x.rest.set (core - x.cores.length) (stepPatrol c) }) d core c.patrol flips)
    | none, none => .next s

/-- DIE_RESET_END: at the first cut at least 4,096 cycles after the reset began (R371). -/
def endDieReset (s : State) (d : Die) : State :=
  match (s.die d).resetFrom with
  | some t => if t + 4096 ≤ s.laps.now then s.setDie d { s.die d with resetFrom := none } else s
  | none => s

/-- DIE_RESET_END. -/
def execDieResetEnd (d : Die) (s : State) : Host.Outcome State Fault Refusal :=
  .next (if s.laps.cyc = 0 then endDieReset s d else s)

/-- The blocks of a request that are not served yet and whose lines channel `ch` holds one of: those of parity group
ch mod 4 (R319). -/
def pendingOn (r : MemReq) (ch : Nat) : Bool :=
  r.parts.any fun p => p.active &&
    ((rangeStripes r.kind p.off p.len).foldl (fun (y : Nat × Bool) b =>
      (y.1 + b.2, y.2 || (decide (b.1 % 4 = ch % 4) && decide (p.served < y.1 + b.2)))) (0, false)).2

/-- The channel of a tier whose reset answers a request: the request was issued before the reset and is pending to it
(R334). -/
def fencedChan (t : Tier) (r : MemReq) : Option Nat :=
  (List.range 20).find? fun k =>
    match (vget t.chans k Chan.init).resetFrom with
    | some b => decide (r.effect ≤ b) && pendingOn r k
    | none => false

/-- Whether a request waits on die `d` while it, or a channel that it is pending to, resets (R313, R334). -/
def fencedReq (s : State) (d : Die) (r : MemReq) : Bool :=
  decide (r.target = d) && (((s.die d).resetFrom.isSome && decide (r.die ≠ d)) ||
    (fencedChan ((s.die d).tier r.far) r).isSome)

/-- The fenced completion of a request: of the die with its new epoch, of a channel with the old and the new channel epoch
(R313, R334, Table 14-7). -/
def fencedDone (s : State) (d : Die) (r : MemReq) : FencedDone :=
  { to_ := r.die, toEpoch := (s.die r.die).epoch, die := d, dieEpoch := (s.die d).epoch
    word := (fencedChan ((s.die d).tier r.far) r).map fun k =>
      let e := (vget ((s.die d).tier r.far).chans k Chan.init).epoch
      packetWord (e - 1) e r.kind r.async (r.word.toNat % 2 ^ 48) }

/-- The hub's requests pending to a die in reset, its digest reads, end with no data (R313, R351). -/
def fenceHub (s : State) (d : Die) : State :=
  let hit (e : Egress) : Bool := decide (e.die = d.val) && decide (e.got.length < e.len)
  if (s.die d).resetFrom.isSome && digestLap s && s.mladar.toDigest.any hit then
    let s1 : State := { s with
      mladar := { s.mladar with toDigest := s.mladar.toDigest.map fun e => if hit e then { e with got := [] } else e }
      fabric := { s.fabric with fenced := s.fabric.fenced ++ [⟨16, 0, d, (s.die d).epoch, none⟩] } }
    addFault s1 { mkRec s1 1 18 0 none 11 0 0 1 with die := 16, pc := 0xFFFFFFFF }
  else s

/-- FENCED_COMPLETION: the pending requests end with no data, and the lap is aborted (R313, R334). -/
def execFencedCompletion (d : Die) (s : State) : Host.Outcome State Fault Refusal :=
  .next (fenceHub (forDies (fun x e =>
    let l := (x.die e).memQ.filter (fencedReq s d)
    if l.isEmpty then x
    else
      let x0 : State := { x with fabric := { x.fabric with fenced := x.fabric.fenced ++ l.map (fencedDone s d) } }
      let x1 := x0.setDie e { x.die e with memQ := (x.die e).memQ.filter fun r => !fencedReq s d r }
      addFault x1 (mkRec x1 1 18 e none 11 0 0 1)) s) d)

/-- The die whose memory a packet concerns, and the die that asked: a reply comes from the memory (R333). -/
def packetMemory (dst src : Fin 17) (c : ChanTag) : Fin 17 × Fin 17 := if c.reply then (src, dst) else (dst, src)

/-- Whether a packet is dropped (R312, R333): the epochs in force on arrival decide. The hub, 16, knows every epoch. -/
def packetStale (s : State) (dst src : Fin 17) (de se : BitVec 4) (chan : Option ChanTag) : Bool :=
  let own (n : Nat) : BitVec 4 := if n < 16 then (s.die (dieOf n)).epoch else 0
  let known : BitVec 4 := if dst.val < 16 then vget (s.die (dieOf dst.val)).copies src.val 0 else own src.val
  de != own dst.val || (se != (if src.val = dst.val then own src.val else known)) ||
    (match chan with
      | some c =>
        let m := (packetMemory dst src c).1
        decide (m.val < 16) && c.epoch != ((s.die (dieOf m.val)).tier c.far).chans[c.ch].epoch
      | none => false)

/-- Whether a request is one that a packet with this channel word belongs to. -/
def packetReq (dst src : Fin 17) (c : ChanTag) (r : MemReq) : Bool :=
  let m := packetMemory dst src c
  let a := r.word.toNat % 2 ^ 48
  decide (r.target.val = m.1.val) && decide (r.die.val = m.2.val) && decide (r.far = c.far) &&
    decide (r.word.toNat / 2 ^ 48 % 16 = c.epoch.toNat) &&
    (match devLocate a with | some w => decide ((linePlace w.1 (w.2.2 / 256) 0).1 = c.ch.val) | none => false)

/-- A dropped request or reply ends the oldest request that it belongs to (R333, log 51). -/
def dropRequest (s : State) (dst src : Fin 17) (c : ChanTag) : State :=
  let m := (packetMemory dst src c).2
  if m.val < 16 then
    let x := s.die (dieOf m.val)
    match x.memQ.find? (packetReq dst src c) with
    | some r => s.setDie (dieOf m.val) { x with memQ := x.memQ.filter fun y => decide (y.id ≠ r.id) }
    | none => s
  else s

/-- FABRIC_PACKET_ARRIVE (R312, R333). -/
def execFabricPacketArrive (dst src : Fin 17) (dstEpoch srcEpoch : BitVec 4) (chan : Option ChanTag)
    (s : State) : Host.Outcome State Fault Refusal :=
  if portOn s && packetStale s dst src dstEpoch srcEpoch chan then
    let s1 := match chan with | some c => dropRequest s dst src c | none => s
    let r := mkRec s1 1 15 (dieOf dst.val) none (if chan.isSome then 11 else 0xFF) 0 0 1
    .next (addFault s1 (if dst.val < 16 then r else { r with die := 16, pc := 0xFFFFFFFF }))
  else .next s

/-- Whether a read that waits on a channel is overdue: 512 cycles after the first cycle in which its data could be back
(R326, R334). A reply in that cycle is taken (R49). -/
def readOverdue (s : State) (d : Die) (far : Bool) (ch : Nat) : Bool :=
  (List.finRange 16).any fun e => (s.die e).memQ.any fun r =>
    decide (r.kind = .rd) && decide (r.target = d) && decide (r.far = far) && pendingOn r ch &&
      decide (r.served < r.allowed) &&
      decide (max r.earliest r.floorAt + tierTail far + 24 * hops e d + 512 < s.laps.now)

/-- MEM_RESPONSE_TIMEOUT: the channel is reset (R334). -/
def execMemResponseTimeout (d : Die) (far : Bool) (ch : Fin 20) (s : State) : Host.Outcome State Fault Refusal :=
  .next (if portOn s && readOverdue s d far ch then chanFault s 14 d far ch 0 else s)

/-- CHANNEL_RESET_END: at least 4,096 cycles after the reset began; a channel whose training fails is failed (R334, R372). -/
def execChannelResetEnd (d : Die) (far : Bool) (ch : Fin 20) (trained : Bool) (s : State) :
    Host.Outcome State Fault Refusal :=
  let t := (s.die d).tier far
  let c := t.chans[ch]
  match c.resetFrom with
  | some b =>
    if s.laps.now < b + 4096 then .next s
    else if trained then .next (s.setTier d far { t with chans := t.chans.set ch { c with resetFrom := none } })
    else
      let s1 := failChannel s d far ch
      .next (addFault s1 (mkRec s1 1 14 d none 10 (chanDetail far ch) 0 (1 ||| failBits s1 d far)))
  | none => .next s

/-- The refresh number q of a rank in a cycle of a quantum counted from the cut: cycle 64q + 32 + 16 × rank (R332). -/
def refreshNo (cyc rank : Nat) : Option Nat :=
  let c := cyc % 4096
  if 32 + 16 * rank ≤ c ∧ (c - 32 - 16 * rank) % 64 = 0 then some ((c - 32 - 16 * rank) / 64) else none

/-- REFRESH: bank q mod 16 of a channel and rank, in the cycles of R332; the near tier has one rank. -/
def execRefresh (d : Die) (far : Bool) (ch : Fin 20) (rank : Fin 2) (s : State) : Host.Outcome State Fault Refusal :=
  let t := (s.die d).tier far
  match refreshNo s.laps.cyc rank.val with
  | some q =>
    .next (if portOn s && (far || decide (rank.val = 0)) then
      s.setTier d far { t with banks := vset t.banks (2 * ch.val + rank.val) (some (q % 16)) } else s)
  | none => .next s

/-- MEM_HOT: a refresh need above the fourfold rate asks for a controlled stop; over range is a hard shutdown (R451). -/
def execMemHot (overRange overRate : Bool) (s : State) : Host.Outcome State Fault Refusal :=
  if decide (s.power.phase = .off) then .next s
  else if overRange then .next (railsDown s true)
  else if overRate then
    let s1 := askStop s
    .next { s1 with power := { s1.power with memHot := true }.setEvents 0x06 }
  else .next { s with power := { s.power with memHot := false } }

/-! ### Oscillators (R374) -/

/-- CLOCK_XCHK: the count of oscillator B in a quantum against 4,096, and which oscillators agree with the port clock.
Undecided, the module goes on with oscillator A (log 28). -/
def execClockXchk (countB : Nat) (aAgrees bAgrees : Bool) (s : State) : Host.Outcome State Fault Refusal :=
  if decide (s.power.phase ≠ .laps) || (decide (countB ≤ 4100) && decide (4092 ≤ countB)) then .next s
  else if aAgrees = bAgrees then
    let s1 := { s with faults := { s.faults with undecided := true, oscB := false, oscDue := false } }
    .next (addFault s1 { mkRec s1 1 16 0 none 13 2 0 0x41 with die := 16, pc := 0xFFFFFFFF })
  else
    let moves := decide (s.faults.oscB ≠ bAgrees)
    let s1 := if moves then { s with faults := { s.faults with oscDue := true } }
      else if bAgrees then { s with faults := { s.faults with oscAFailed := true } }
      else { s with faults := { s.faults with oscBFailed := true } }
    let both := if bAgrees then s.faults.oscBFailed else s.faults.oscAFailed
    .next (addFault s1 { mkRec s1 1 16 0 none 13 (if bAgrees then 0 else 1) 0
                           ((if moves then 0x81 else 1) + if both then 0x40 else 0) with
                         die := 16, pc := 0xFFFFFFFF })

/-- Moving the compute clock to the other oscillator; the one left is marked failed (R374). -/
def switchOsc (s : State) : State :=
  let f := s.faults
  if f.oscDue then
    { s with faults := { f with oscB := !f.oscB, oscDue := false, oscAFailed := f.oscAFailed || !f.oscB
                                oscBFailed := f.oscBFailed || f.oscB } }
  else s

/-- OSC_SWITCH, at a cut (R374). -/
def execOscSwitch (s : State) : Host.Outcome State Fault Refusal := .next (if s.laps.cyc = 0 then switchOsc s else s)

/-- DRIFT_CHECK: above 200 ppm sets DRIFT (R374). -/
def execDriftCheck (ppm : Nat) (s : State) : Host.Outcome State Fault Refusal :=
  .next (if 200 < ppm then { s with faults := { s.faults with drift := true, setNow := s.faults.setNow ||| 8 } } else s)

/-! ### Recovery actions (R368–R373, R391, R472) -/

/-- How a run in recovery ends (Table 17-5): the END_REASON, or none when it resumes. -/
def recOutcome (s : State) : Option Nat :=
  if s.faults.lapRecs.any (fun r => decide (r.cls = 2)) then some 1
  else if degraded s then some 2
  else if 8 ≤ s.faults.recSteps then some 3
  else match s.run.run.bind (·.split) with
    | some _ => none
    | none => some 5

/-- Adding a physical core to a die's fence list; a 1,025th entry exhausts the die's sparing (R370). -/
def fenceCore (s : State) (r : FaultRec) : State :=
  if bitAt r.action 1 && bitAt r.phys 16 && decide (r.die < 16) then
    let d := dieOf r.die
    let x := s.die d
    let e := (r.phys % 256, r.phys / 256 % 256)
    if x.fences.contains e then s
    else if 1024 ≤ x.fences.length then s.setDie d { x with map := { x.map with exhausted := true } }
    else s.setDie d { x with fences := x.fences ++ [e] }
  else s

/-- Rebuilding a map; a die whose fence list overflowed stays exhausted. -/
def remap (s : State) (d : Die) : State :=
  let was := (s.die d).map.exhausted
  let s1 := rebuildMap s d
  let x := s1.die d
  s1.setDie d { x with map := { x.map with exhausted := x.map.exhausted || was } }

/-- Step 2 of R391: fences, links retrained (those of `failed` fail), maps rebuilt. -/
def repairStep (s : State) (failed : BitVec 28) : State :=
  let s1 := s.faults.lapRecs.foldl fenceCore s
  let s2 : State := { s1 with
    fabric := { s1.fabric with linkFailed := s1.fabric.linkFailed ||| (s1.faults.toRetrain &&& failed) }
    faults := { s1.faults with toRetrain := 0 } }
  forDies remap s2

/-- Resident words of a die's program (R267). -/
def residentWords (s : State) (d : Die) : Nat :=
  match s.run.program with
  | some p => (nth p.streams d.val (0, 0, 0)).2.2
  | none => 0

/-- The first `n` words' pages held, every other frame with no page (R268). -/
def holdPages (s : State) (d : Die) (n : Nat) : State :=
  let q := (s.die d).seq
  s.setSeq d { q with frames := Vector.ofFn (fun i : Fin 128 => if i.val < n / 1024 then PFrame.held i.val else .none), pageQ := [] }

/-- Every resident page held, every other frame with no page (R271, R391). -/
def reloadPages (s : State) (d : Die) : State := holdPages s d (residentWords s d)

/-- Every core of the program's grid in its run-start state, core store zeroed (R297, R391). -/
def zeroCores (s : State) (d : Die) : State :=
  s.setCores d (freshCores (s.die d).cores (sideN s * sideN s) (s.laps.now + 1))

/-- The core store of every physical core that the map uses zeroed (R368). -/
def zeroStores (s : State) (d : Die) : State :=
  let x := s.die d
  s.setDie d { x with cores := x.cores.map fun c => { c with cs := [] }, rest := x.rest.map fun c => { c with cs := [] } }

/-- Whether the recovery reloads the resident pages: outside a run a loaded program's, in a run that will resume (R368,
R391, R472). -/
def reloads (s : State) : Bool :=
  s.run.program.isSome && (!s.faults.recOfRun || (recOutcome s).isNone)

/-- A die whose resident words are all to take, no frame holding a page (R271, R391). -/
def dueAll (s : State) (d : Die) : State :=
  let s1 := holdPages s d 0
  let x := s1.die d
  s1.setDie d { x with due := residentWords s d, regs := { x.regs with state := if s.run.run.isSome then 3 else 1 } }

/-- Whether a reset of a die or of a channel is still in progress. -/
def resetsBusy (s : State) : Bool :=
  (List.finRange 16).any fun d => let x := s.die d
    x.resetFrom.isSome || x.near.chans.toList.any (·.resetFrom.isSome) || x.far.chans.toList.any (·.resetFrom.isSome)

/-- Whether a die has resident words still to take. -/
def wordsDue (s : State) : Bool := (List.finRange 16).any fun d => decide ((s.die d).due ≠ 0)

/-- A die after the actions outside a run: its pages held, ready to run (R271). -/
def readyDie (s : State) (d : Die) : State :=
  let s1 := reloadPages s d
  s1.setDie d { s1.die d with regs := { (s1.die d).regs with state := 2 } }

/-- RECOVERY_DONE: the actions that the records call for are complete; `trainFailed` are the links whose retraining
failed (R368, R391, R472). While a reset is in progress, or a resident page is still to reload, they are not. -/
def execRecoveryDone (trainFailed : BitVec 28) (s : State) : Host.Outcome State Fault Refusal :=
  if !s.faults.recovering || s.faults.recDone || s.laps.state != 3 || resetsBusy s || (reloads s && wordsDue s) then .next s
  else
    let s1 := repairStep (writeHeader s) trainFailed
    let s2 := { s1 with faults := { s1.faults with recDone := true } }
    let loaded := s.run.program.isSome
    if !s.faults.recOfRun then
      let s3 := forDies zeroStores s2
      .next (if loaded then forDies readyDie s3 else s3)
    else
      match recOutcome s2, s2.run.run.bind (·.split) with
      | none, some k =>
        let s3 := forDies (fun x d => zeroCores (reloadPages x d) d) s2
        .next (restoreSplit s3 k (hdrOf k (!s3.split.live)) (!s3.split.live) (s3.mladar.restores + 1))
      | _, _ => .next s2

end Sys2Proof.Machine
end

