-- ==== Sys2Proof/Machine/Registers.lean ====
section
/-! DEFINITION. The control space: reading and writing every register, and the actions that writes start (R4–R6, R38, R39,
R47, R345, R405, R420, R421, R429, R430, R436–R438, R462–R464 and the register tables). -/
namespace Sys2Proof.Machine

/-! ### Reading -/

/-- Word `w` of bytes, least significant byte first. -/
def wordAt (bs : List Byte) (w : Nat) : Nat := leNat ((bs.drop (4 * w)).take 4)

/-- Low and high halves of a 64-bit value. -/
def lo32 (x : Nat) : Nat := x % 2 ^ 32
def hi32 (x : Nat) : Nat := x / 2 ^ 32 % 2 ^ 32

/-- A flag at a bit position. -/
def bitV (b : Bool) (i : Nat) : Nat := if b then 2 ^ i else 0

/-- The identity registers (Tables 21-4, 21-5). -/
def readIdent (s : State) (o : Nat) : Option Nat :=
  if o = 0 then some (0x01 + 0xA0 * 256 + b2n s.ident.grade * 65536)
  else if o = 4 then some (4 * gridSide s + gridSide s * 1024)
  else if o = 8 then some 1
  else if o = 0xC then some s.ident.scratch.toNat
  else if 0x10 ≤ o ∧ o < 0x20 then some (wordAt s.sec.part ((o - 0x10) / 4))
  else if 0x20 ≤ o ∧ o < 0x30 then some (wordAt s.sec.serial ((o - 0x20) / 4))
  else if o = 0x30 then some (s.ident.resetCause + bitV s.ident.bootDegraded 4 + s.ident.restarts * 32)
  else if o = 0x34 then some s.ident.bootTime.toNat
  else if o = 0x38 then some s.ident.resetCount
  else none

/-- `LAP_STATUS` (Table 2-7). -/
def lapStatus (s : State) : Nat :=
  s.laps.curK + s.laps.state.toNat * 32 + bitV s.laps.lastAborted 7 + bitV s.net.ptpLocked 8 + bitV s.laps.admitPending 9

/-- The lap and pacer registers (Tables 2-6 to 2-11). -/
def readLaps (s : State) (o : Nat) : Option Nat :=
  if o = 0 then some (lapStatus s)
  else if o = 4 then some s.laps.gridMode.toNat
  else if o = 8 then some (lo32 s.laps.moduleLap)
  else if o = 0xC then some (hi32 s.laps.moduleLap)
  else if o = 0x10 then some (lo32 s.laps.runLap)
  else if o = 0x14 then some (hi32 s.laps.runLap)
  else if o = 0x18 then some s.laps.earlyCount
  else if o = 0x1C then some s.laps.overrunCount
  else if o = 0x20 then some s.laps.abortCount
  else if o = 0x24 then some s.laps.padCycles
  else if o = 0x28 then some s.laps.gridPeriod.toNat
  else if o = 0x2C then some s.laps.gridPhase.toNat
  else if o = 0x40 then some (s.pacer.envStep + s.pacer.envActive * 256 + bitV s.pacer.envPending 12)
  else if o = 0x44 then some s.pacer.declared
  else if o = 0x48 then some s.pacer.counted
  else if o = 0x4C then some (s.pacer.events.toNat + s.pacer.admitCode.toNat * 256)
  else if 0x100 ≤ o ∧ o < 0x138 then
    some (if o % 8 = 0 then vget s.pacer.written ((o - 0x100) / 8) 0 else vget s.pacer.used ((o - 0x100) / 8) 0)
  else none

/-- Whether a run is in progress, its recovery laps included (R7, R39, R47). -/
def inRun (s : State) : Bool := s.run.run.isSome

/-- The mode and replay registers (Tables 15-6 to 15-10, 10-7, 10-8). -/
def readRun (s : State) (o : Nat) : Option Nat :=
  let r := s.run
  if o = 0 then
    some (b2n r.strict + bitV r.records 1 + bitV r.strictActive 8 + bitV r.recordsActive 9 +
      bitV (inRun s && (r.strict != r.strictActive || r.records != r.recordsActive)) 10)
  else if o = 8 then some (lo32 r.seed.toNat)
  else if o = 0xC then some (hi32 r.seed.toNat)
  else if o = 0x10 then some (lo32 r.tdc)
  else if o = 0x14 then some (hi32 r.tdc)
  else if o = 0x18 then some r.tdcKinds.toNat
  else if o = 0x1C then some (r.restores % 65536)
  else if o = 0x20 then some (lo32 r.wsetAddr)
  else if o = 0x24 then some (hi32 r.wsetAddr)
  else if o = 0x28 then some r.wsetCount
  else if o = 0x2C then some (b2n r.wsetBusy + bitV r.wsetValid 1 + bitV r.wsetErr 2 + r.wsetErrCode * 256)
  else if 0x80 ≤ o ∧ o < 0xC0 then some (wordAt r.wsetDigest ((o - 0x80) / 4))
  else if o = 0x100 then some r.degen
  else if o = 0x104 then some r.fallback
  else none

/-- Failed channels of a tier (Table 16-7). -/
def chanFails (t : Tier) : Nat :=
  ((List.range 20).map fun k => bitV (vget t.chans k Chan.init).failed k).foldl (· + ·) 0

/-- The fault and fence registers (Tables 16-5 to 16-8). -/
def readFaults (s : State) (o : Nat) : Option Nat :=
  let f := s.faults
  if o = 0 then
    some (f.queue.length + bitV (degraded s) 9 + bitV (sparingExhausted s) 10 + bitV (tierDegraded s) 11 +
      bitV (linkLoss s) 12 + bitV (clockLoss s) 13 +
      ((List.finRange 16).map fun d => bitV (dieExhausted s d || dieTierBad s d) (16 + d.val)).foldl (· + ·) 0)
  else if o = 4 then some 0
  else if o = 8 then some f.lost
  else if o = 0xC then some f.total
  else if o = 0x10 then some f.csCorrected
  else if o = 0x14 then some f.memCorrected
  else if o = 0x18 then some f.memRecon
  else if o = 0x1C then some f.linkCorrected
  else if o = 0x20 then some (b2n f.oscB + bitV f.oscAFailed 1 + bitV f.oscBFailed 2 + bitV f.drift 3)
  else if o = 0x24 then some s.fabric.linkFailed.toNat
  else if o = 0x28 then some (f.fenceDie + f.fenceIndex * 16)
  else if o = 0x2C then
    match (s.die (dieOf f.fenceDie)).fences[f.fenceIndex]? with
    | some e => some (e.1 + e.2 * 256 + 65536)
    | none => some 0
  else if o = 0x30 then some (bitV f.clearPending 1)
  else if 0x40 ≤ o ∧ o < 0x80 then
    some (match f.queue.head? with | some r => wordAt (recBytes r) ((o - 0x40) / 4) | none => 0)
  else if 0x100 ≤ o ∧ o < 0x140 then
    let d := dieOf ((o - 0x100) / 4)
    some (spareCount s d + (s.die d).fences.length * 8192 + bitV (dieExhausted s d) 24)
  else if 0x200 ≤ o ∧ o < 0x280 then
    let x := s.die (dieOf ((o - 0x200) / 8))
    some (chanFails (if o % 8 = 0 then x.near else x.far))
  else if 0x300 ≤ o ∧ o < 0x500 then
    let x := s.die (dieOf ((o - 0x300) / 32))
    let w := (o - 0x300) % 32 / 4
    some (((List.range 32).map fun i => bitV (x.map.retired.contains (32 * w + i)) i).foldl (· + ·) 0)
  else none

/-- Units of the drain left to send (Table 17-8). -/
def drainLeft (s : State) : Nat := ceilDiv (s.split.drainTotal - s.split.drainPos) 64

/-- The split registers (Tables 17-8 to 17-10). -/
def readSplit (s : State) (o : Nat) : Option Nat :=
  let x := s.split
  if o = 0x800 then some (b2n x.enable + bitV x.autoResume 1)
  else if o = 0x804 then some x.interval.toNat
  else if o = 0x808 then some (lo32 x.man)
  else if o = 0x80C then some (hi32 x.man)
  else if o = 0x810 then some (lo32 x.scb)
  else if o = 0x814 then some (hi32 x.scb)
  else if o = 0x818 then
    some (b2n x.live + bitV x.draining 1 + bitV x.drainDone 2 + bitV x.verified 3 + bitV x.verifyBusy 4 +
      bitV x.stretched 5 + bitV x.skew 6 + bitV x.giveup 7 + x.endReason * 256 + x.errCode * 65536)
  else if o = 0x81C then some x.index
  else if o = 0x820 then some (lo32 x.step)
  else if o = 0x824 then some (hi32 x.step)
  else if o = 0x828 then some (lo32 x.lap)
  else if o = 0x82C then some (hi32 x.lap)
  else if o = 0x830 then some (lo32 (drainLeft s))
  else if o = 0x834 then some (hi32 (drainLeft s))
  else if o = 0x838 then some x.stretchCount
  else if o = 0x83C then some s.faults.recCount
  else if 0x900 ≤ o ∧ o < 0xB00 then
    let w := (o - 0x900) / 4
    some (if w % 2 = 0 then lo32 (nth x.cursors (w / 2) 0) else hi32 (nth x.cursors (w / 2) 0))
  else none

/-- The configuration as last written (R4, R421). -/
def cfgWritten (s : State) : NetCfg := s.net.cfgNext.getD s.net.cfg

/-- A peer register as last written: a write that waits for the cut, else the value in force (R405). -/
def peerReg (s : State) (p o : Nat) (v : Nat) : Nat :=
  match (s.net.peerCfgNext.filter fun w => decide (w.1 = p) && decide (w.2.1 = o)).getLast? with
  | some w => w.2.2
  | none => v

/-- `PEER_CFG_p` (Table 18-12). -/
def peerCfgWord (x : Peer) : Nat :=
  x.port.toNat + bitV x.cmd 16 + bitV x.mgmt 17 + bitV x.dataIn 18 + bitV x.dataOut 19 + bitV x.drainRx 20 +
    bitV x.recordRx 21 + bitV x.open_ 22

/-- Word w of an IPv6 address: bits [127 − 32w : 96 − 32w]. -/
def addrWord (a : BitVec 128) (w : Nat) : Nat := a.toNat / 2 ^ (96 - 32 * w) % 2 ^ 32

/-- The network registers (Tables 18-11 to 18-13). -/
def readNet (s : State) (o : Nat) : Option Nat :=
  let n := s.net
  let c := cfgWritten s
  if o = 0 then some (b2n (n.lanes == 0xFF) + n.lanes.toNat * 2 + bitV n.bulkPaused 9 + bitV n.ctrlPaused 10)
  else if o = 4 then some (c.mtu + c.pcpBulk * 2 ^ 14 + c.pcpCtrl * 2 ^ 17 + c.vid * 2 ^ 20)
  else if o = 8 then some (c.udpPort + c.rtoUs * 65536)
  else if o = 0xC then some (c.domain + bitV c.ptpEn 8 + bitV n.ptpLocked 9)
  else if o = 0x10 then some (lo32 n.mac.toNat)
  else if o = 0x14 then some (hi32 n.mac.toNat)
  else if o = 0x18 then some (lo32 c.gwMac.toNat)
  else if o = 0x1C then some (hi32 c.gwMac.toNat)
  else if 0x20 ≤ o ∧ o < 0x30 then some (addrWord c.addr ((o - 0x20) / 4))
  else if o = 0x40 then some n.events.toNat
  else if o = 0x44 then some n.rxDropped
  else if o = 0x48 then some n.egressLost
  else if o = 0x4C then some n.retransmits
  else if 0x100 ≤ o ∧ o < 0x300 then
    let p := (o - 0x100) / 32
    let r := (o - 0x100) % 32
    let x := peerAt s p
    some (if r < 0x10 then peerReg s p r (addrWord x.addr (r / 4))
      else if r = 0x10 then peerReg s p r (peerCfgWord x)
      else if r = 0x14 then peerReg s p r x.sender.toNat
      else if r = 0x18 then peerReg s p r x.share.toNat
      else b2n x.down + bitV x.bound 1)
  else none

/-- Certificate c: 0 manufacturing CA, 1 identity, 2 seal. -/
def certOf (s : State) (c : Nat) : List Byte := if c = 0 then s.sec.certMfg else if c = 1 then s.sec.certIdent else s.sec.certSeal

/-- The security registers (Tables 19-6 to 19-8). -/
def readSec (s : State) (o : Nat) : Option Nat :=
  let x := s.sec
  if o = 0 then
    some (b2n x.locked + x.slot * 2 + bitV x.revoked[0] 2 + bitV x.revoked[1] 3 + bitV x.sealReady 4)
  else if o = 4 then some x.secVerRun
  else if o = 8 then some x.rollback
  else if o = 0xC then some 0
  else if o = 0x10 then some x.admin.toNat
  else if o = 0x14 then some (b2n x.denied + bitV x.advDone 1 + bitV x.advFail 2)
  else if 0x40 ≤ o ∧ o < 0x80 then some (wordAt x.fwDigest ((o - 0x40) / 4))
  else if 0x80 ≤ o ∧ o < 0xC0 then some (wordAt (sha512 x.certSeal) ((o - 0x80) / 4))
  else if 0xC0 ≤ o ∧ o < 0x100 then some (wordAt (sha512 x.certIdent) ((o - 0xC0) / 4))
  else if 0x100 ≤ o ∧ o < 0x10C then some (certOf s ((o - 0x100) / 4)).length
  else if 0x1000 ≤ o ∧ o < 0x2800 then some (wordAt (certOf s ((o - 0x1000) / 0x800)) ((o - 0x1000) % 0x800 / 4))
  else none

/-- The power and thermal registers (Tables 20-11, 20-12). -/
def readPower (s : State) (o : Nat) : Option Nat :=
  let x := s.power
  if o = 0 then some (x.step + bitV x.goodDone 9 + bitV x.uv 10)
  else if o = 4 then some (x.vinMv % 65536)
  else if o = 8 then some (x.iinDa % 65536)
  else if o = 0xC then some (x.pinW % 65536)
  else if o = 0x10 then some (lo32 x.energyJ)
  else if o = 0x14 then some (hi32 x.energyJ)
  else if o = 0x18 then some (b2n x.warn + bitV x.stopPending 1 + bitV x.memHot 2 + x.hottest * 8)
  else if o = 0x1C then some x.events.toNat
  else if o = 0x20 then some (ofSigned 16 x.inlet + ofSigned 16 x.outlet * 65536)
  else if o = 0x24 then some (ofSigned 16 x.hubTj)
  else if o = 0x28 then some (ofSigned 16 x.peak + x.peakAt * 65536)
  else if 0x100 ≤ o ∧ o < 0x140 then some (ofSigned 16 (vget x.tj ((o - 0x100) / 4) 0))
  else none

/-- Whether a die is loading a page (Table 11-10). -/
def pagePending (s : State) (d : Die) : Bool :=
  (s.die d).seq.frames.toList.any fun f => match f with | .loading _ _ _ => true | _ => false

/-- Summary flags from bit `i` on. -/
def flagBits (l : List Bool) (i n : Nat) : Nat := ((List.range n).map fun k => bitV (nth l (i + k) false) k).foldl (· + ·) 0

/-- The sequencer registers of a die (Tables 11-8 to 11-12). -/
def readDie (s : State) (d : Die) (o : Nat) : Option Nat :=
  let x := (s.die d).regs
  if o = 0 then
    some (x.state.toNat + x.loopDepth * 4 + bitV (pagePending s d) 6 + bitV x.lockstepSeen 7 + bitV x.wordEccSeen 8)
  else if o = 4 then some (x.loadCode.toNat + bitV x.loadDone 8)
  else if o = 8 then some x.endCycle.toNat
  else if o = 0xC then some x.stallCycles.toNat
  else if o = 0x10 then some x.wordCount.toNat
  else if o = 0x14 then some x.wordCorrected
  else if o = 0x18 then some (flagBits x.flags 0 9 + flagBits x.flags 9 6 * 65536)
  else if 0x100 ≤ o ∧ o < 0x1F0 ∧ o % 16 < 12 then
    let e := nth x.entries ((o - 0x100) / 16) ⟨0xFFFFF, 0xFFFF, 3, 0xFFFFFFFF⟩
    some (if o % 16 = 0 then e.core else if o % 16 = 4 then e.index + e.unit * 65536 else e.pos)
  else none

/-- A register read; none where the address maps no register (R420, R462). -/
def ctlRead (s : State) (a : Nat) : Option Nat :=
  let o := a % 65536
  let b := a / 65536
  if a % 4 ≠ 0 then none
  else if b = 0 then readIdent s o
  else if b = 1 then readLaps s o
  else if b = 2 then readRun s o
  else if b = 3 then (if o < 0x800 then readFaults s o else readSplit s o)
  else if b = 4 then readNet s o
  else if b = 5 then readSec s o
  else if b = 6 then readPower s o
  else if 16 ≤ b ∧ b < 32 then readDie s (dieOf (b - 16)) o
  else none

/-! ### Writes that start something -/

/-- The cap of a budget class beside the other classes' values (R38, Table 2-4). While a write waits for its cut, the value of
its class is the one written: R38 does not say whether that or the one in force counts (DESIGN CHOICE, log 51). -/
def budgetCap (s : State) (c : Nat) : Nat :=
  let w (i : Nat) : Nat := vget s.pacer.written i 0
  match c with
  | 0 => 12288
  | 1 => 12288 - w 2
  | 2 => 12288 - w 1
  | 3 => 4096
  | 4 => 20480 - w 6
  | 5 => 16384
  | _ => 20480 - w 4

/-- A budget write (R38): the value that waits for its cut (R39). -/
def budgetSet (s : State) (c v : Nat) : State :=
  { s with pacer := { s.pacer with written := vset s.pacer.written c (min v (budgetCap s c)) } }

/-- BUDGET_WRITE (R38, R39). -/
def execBudgetWrite (_peer : Fin 16) (cls : Fin 7) (value : Word) (s : State) : Host.Outcome State Fault Refusal :=
  .next (atCut s fun s => budgetSet s cls value.toNat)

/-- A write of `ENV_STEP`: 13–15 set 12; during a run it waits (R47). -/
def envelopeSet (s : State) (v : Nat) : State :=
  { s with pacer := { s.pacer with envStep := min (v % 16) 12, envPending := s.pacer.envPending || inRun s } }

/-- ENVELOPE_WRITE (R47). -/
def execEnvelopeWrite (_peer : Fin 16) (value : Word) (s : State) : Host.Outcome State Fault Refusal :=
  .next (atCut s fun s => envelopeSet s value.toNat)

/-- Whether a peer administers (R436). -/
def administers (s : State) (p : Fin 16) : Bool := s.sec.admin.getLsbD p

/-- An administered write, or `DENIED` (R436). -/
def ifAdmin (s : State) (p : Fin 16) (f : State → State) : State :=
  if administers s p then f s else { s with sec := { s.sec with denied := true, setNow := s.sec.setNow ||| 1 } }

/-- A write of a peer register waits for the next cut (R405). -/
def peerRegSet (s : State) (e o v : Nat) : State :=
  { s with net := { s.net with peerCfgNext := s.net.peerCfgNext ++ [(e, o, v)] } }

/-- PEER_CFG_WRITE (R405, R436). -/
def execPeerCfgWrite (peer entry : Fin 16) (value : Word) (s : State) : Host.Outcome State Fault Refusal :=
  .next (atCut s fun s => ifAdmin s peer fun s => peerRegSet s entry 0x10 (value.toNat % 2 ^ 23))

/-- A write of `PEER_ADMIN`, ignored where it would leave none (R436). -/
def peerAdminSet (s : State) (v : Nat) : State :=
  if v % 65536 = 0 then s else { s with sec := { s.sec with admin := BitVec.ofNat 16 v } }

/-- PEER_ADMIN_WRITE (R436). -/
def execPeerAdminWrite (peer : Fin 16) (value : Word) (s : State) : Host.Outcome State Fault Refusal :=
  .next (atCut s fun s => ifAdmin s peer fun s => peerAdminSet s value.toNat)

/-- Renumbering the unacknowledged frames of a sequence from 0: they are sent again (R405, R409). -/
def resetSeq (q : SeqSt) : SeqSt :=
  { SeqSt.init with txNext := q.unacked.length,
                    unacked := q.unacked.mapIdx fun i u => { u with frame := { u.frame with seq := i }, sends := 0, last := 0 } }

/-- The new number of a record frame's transmission after its sequence is renumbered. -/
def renumber (q : SeqSt) (n : Nat) : Nat := (firstIdx (fun u : Unacked => decide (u.frame.seq = n)) q.unacked 0).getD 0

/-- One peer register write taking effect at a cut; `PEER_CFG_p` clears DOWN and resets the entry's sequences (R405). -/
def peerApply (s : State) (w : Nat × Nat × Nat) : State :=
  let p := w.1
  let v := w.2.2
  let x := peerAt s p
  if w.2.1 < 0x10 then
    let sh := 96 - 32 * (w.2.1 / 4)
    let a := x.addr.toNat - addrWord x.addr (w.2.1 / 4) * 2 ^ sh + v % 2 ^ 32 * 2 ^ sh
    s.setPeer p { x with addr := BitVec.ofNat 128 a, bound := decide (a ≠ 0) }
  else if w.2.1 = 0x10 then
    let recs := s.net.records.map fun r =>
      { r with wait := r.wait.map fun y => if y.1 = p then (p, renumber (seqOf s p 4) y.2) else y }
    let s1 := s.setPeer p { x with
      port := BitVec.ofNat 16 v, cmd := bitAt v 16, mgmt := bitAt v 17, dataIn := bitAt v 18, dataOut := bitAt v 19,
      drainRx := bitAt v 20, recordRx := bitAt v 21, open_ := bitAt v 22, down := false, consumed := 0, limit := 0, creditDue := none,
      classes := x.classes.map resetSeq }
    { s1 with net := { s1.net with records := recs } }
  else if w.2.1 = 0x14 then s.setPeer p { x with sender := BitVec.ofNat 32 v }
  else s.setPeer p { x with share := BitVec.ofNat 32 v }

/-- The peer writes that take effect at this cut. -/
def peersApply (s : State) : State :=
  let s1 := s.net.peerCfgNext.foldl peerApply s
  { s1 with net := { s1.net with peerCfgNext := [] } }

/-! ### Fuse actions (R429, R430, R437) -/

/-- Whether a fuse action may act: idle laps, no run (R429). -/
def fuseReady (s : State) : Bool := s.laps.state == 0 && !inRun s

/-- The result of a fuse action. -/
def fuseDone (s : State) (ok : Bool) : State :=
  if ok then { s with sec := { s.sec with advDone := true, setNow := s.sec.setNow ||| 2 } }
  else { s with sec := { s.sec with advFail := true, setNow := s.sec.setNow ||| 4 } }

/-- `ADVANCE`: the counter reaches SEC_VER; where a bit does not read back, how many were blown is a free value (R429). -/
def advanceFuse (s : State) (readsBack : Bool) : State :=
  if !fuseReady s then fuseDone s false
  else if s.sec.secVerRun ≤ s.sec.rollback then fuseDone s true
  else if readsBack then fuseDone { s with sec := { s.sec with rollback := min s.sec.secVerRun 64 } } true
  else
    let d := s.draw
    let k := Config.freeNat d.1 % (s.sec.secVerRun - s.sec.rollback)
    fuseDone { d.2 with sec := { d.2.sec with rollback := min (s.sec.rollback + k) 64 } } false

/-- `REVOKE_0` and `REVOKE_1`: a write that names the running image's slot is ignored (R430). -/
def revokeFuse (s : State) (slot : Fin 2) (readsBack : Bool) : State :=
  if !fuseReady s || decide (s.sec.slot = slot.val) then fuseDone s false
  else if readsBack then fuseDone { s with sec := { s.sec with revoked := s.sec.revoked.set slot true } } true
  else fuseDone s false

/-- `LOCK_SERVICE` (R437). -/
def lockFuse (s : State) (readsBack : Bool) : State :=
  if !fuseReady s then fuseDone s false
  else if readsBack then fuseDone { s with sec := { s.sec with locked := true } } true
  else fuseDone s s.sec.locked

/-- ADVANCE (R429, R436). -/
def execAdvance (peer : Fin 16) (readsBack : Bool) (s : State) : Host.Outcome State Fault Refusal :=
  .next (atCut s fun s => ifAdmin s peer fun s => advanceFuse s readsBack)

/-- REVOKE_0 (R430, R436). -/
def execRevoke0 (peer : Fin 16) (readsBack : Bool) (s : State) : Host.Outcome State Fault Refusal :=
  .next (atCut s fun s => ifAdmin s peer fun s => revokeFuse s 0 readsBack)

/-- REVOKE_1 (R430, R436). -/
def execRevoke1 (peer : Fin 16) (readsBack : Bool) (s : State) : Host.Outcome State Fault Refusal :=
  .next (atCut s fun s => ifAdmin s peer fun s => revokeFuse s 1 readsBack)

/-- LOCK_SERVICE (R436, R437). -/
def execLockService (peer : Fin 16) (readsBack : Bool) (s : State) : Host.Outcome State Fault Refusal :=
  .next (atCut s fun s => ifAdmin s peer fun s => lockFuse s readsBack)

/-- A write of `SEC_CTL` at a cut; whether each fuse reads back as blown is a free value there (log 9). -/
def secCtl (s : State) (v : Nat) : State :=
  let go (b : Nat) (f : State → Bool → State) (s : State) : State :=
    if bitAt v b then (let d := s.draw; f d.2 (decide (Config.freeNat d.1 % 2 = 0))) else s
  go 3 lockFuse (go 2 (fun s r => revokeFuse s 1 r) (go 1 (fun s r => revokeFuse s 0 r) (go 0 advanceFuse s)))

/-! ### The weight set (R345, R346) -/

/-- A rejected `START`. -/
def wsetReject (s : State) (code : Nat) : State :=
  { s with run := { s.run with wsetErr := true, setNow := s.run.setNow ||| 4, wsetErrCode := code, wsetValid := false, wsetBusy := false } }

/-- A write of 1 to `START` (R345, Table 15-9): during a run, or with COUNT above 256, it is rejected. -/
def wsetStartWrite (s : State) : State :=
  if inRun s then wsetReject s 4
  else if 256 < s.run.wsetCount then wsetReject s 5
  else { s with run := { s.run with wsetStart := true, wsetValid := false } }

/-- WSET_START (R345). -/
def execWsetStart (_peer : Fin 16) (s : State) : Host.Outcome State Fault Refusal :=
  .next (atCut s wsetStartWrite)

/-- The manifest entries of the weight set: address and length. -/
def wsetManifest (s : State) : List (Nat × Nat) :=
  (List.range s.run.wsetCount).map fun i =>
    let b := nearBytes s (s.run.wsetAddr + 16 * i) 16
    (leNat (b.take 8), leNat ((b.drop 8).take 8))

/-- The start of a digest at a cut: the manifest is read and checked in the order of Table 15-9 (R345, R346). -/
def wsetBegin (s : State) : State :=
  if !s.run.wsetStart then s
  else
    let s1 := { s with run := { s.run with wsetStart := false } }
    let n := s.run.wsetCount
    if s.run.wsetAddr % 64 ≠ 0 ∨ !nearSpan s.run.wsetAddr (max (16 * n) 1) then wsetReject s1 1
    else
      let l := wsetManifest s
      let s1 := touchRange s1 s.run.wsetAddr (16 * n)
      if l.any (fun e => decide (e.1 % 64 ≠ 0) || decide (e.2 % 64 ≠ 0) || decide (e.2 = 0) || !devRange e.1 e.2) then
        wsetReject s1 2
      else if !apart l then wsetReject s1 3
      else { s1 with run := { s1.run with
          wsetBusy := true, wsetRegions := l, wsetDirty := false, wsetRead := Vector.replicate 16 0 } }

/-- WSET_DIGEST_DONE, once every region has been read: VALID is set if no write touched a region since its digest began
(R345, R346). -/
def execWsetDigestDone (s : State) : Host.Outcome State Fault Refusal :=
  if !s.run.wsetBusy || inRun s || !allRead s.run.wsetRead s.run.wsetRegions then .next s
  else
    let str := s.run.wsetRegions.flatMap fun e => leBytes 8 e.1 ++ leBytes 8 e.2 ++ sha512 (devRead s e.1 e.2)
    .next { s with run := { s.run with wsetBusy := false, wsetValid := !s.run.wsetDirty, wsetDigest := sha512 str } }

/-! ### Writing (R4–R6, R420) -/

/-- Replacing the low or the high word of a 64-bit value. -/
def setLo (x v : Nat) : Nat := x / 2 ^ 32 * 2 ^ 32 + v
def setHi (x v : Nat) : Nat := x % 2 ^ 32 + v * 2 ^ 32

/-- A write of the network configuration, which waits (R421). -/
def cfgSet (s : State) (f : NetCfg → NetCfg) : State := { s with net := { s.net with cfgNext := some (f (cfgWritten s)) } }

/-- `PORT_CFG` (Table 18-12): MTU clamped; an equal pair of priorities leaves PCP_CTRL. -/
def portCfg (c : NetCfg) (v : Nat) : NetCfg :=
  let bulk := v / 2 ^ 14 % 8
  let ctrl := v / 2 ^ 17 % 8
  { c with mtu := max 1280 (min 9216 (v % 2 ^ 14)), pcpBulk := if ctrl = bulk then c.pcpBulk else bulk,
           pcpCtrl := if ctrl = bulk then c.pcpCtrl else ctrl, vid := v / 2 ^ 20 }

/-- Writes to the lap, pacer, mode and replay registers. -/
def writeLaps (s : State) (o v : Nat) : State :=
  if o = 4 then { s with laps := { s.laps with gridMode := BitVec.ofNat 2 v } }
  else if o = 0x28 then { s with laps := { s.laps with gridPeriod := BitVec.ofNat 32 v } }
  else if o = 0x2C then { s with laps := { s.laps with gridPhase := BitVec.ofNat 32 v } }
  else if o = 0x40 then envelopeSet s v
  else if o = 0x4C then { s with pacer := { s.pacer with events := w1c s.pacer.events s.pacer.setNow v } }
  else if 0x100 ≤ o ∧ o < 0x138 ∧ o % 8 = 0 then budgetSet s ((o - 0x100) / 8) v
  else s

/-- Writes to the mode and replay registers. -/
def writeRun (s : State) (o v : Nat) : State :=
  let r := s.run
  if o = 0 then { s with run := { r with strict := bitAt v 0, records := bitAt v 1 } }
  else if o = 8 then { s with run := { r with seed := BitVec.ofNat 64 (setLo r.seed.toNat v) } }
  else if o = 0xC then { s with run := { r with seed := BitVec.ofNat 64 (setHi r.seed.toNat v) } }
  else if o = 0x20 then { s with run := { r with wsetAddr := setLo r.wsetAddr (v / 64 * 64) } }
  else if o = 0x24 then { s with run := { r with wsetAddr := setHi r.wsetAddr (v % 65536) } }
  else if o = 0x28 then
    let s1 := { s with run := { r with wsetCount := v % 512 } }
    if bitAt v 16 then wsetStartWrite s1 else s1
  else if o = 0x2C then { s with run := { r with wsetErr := w1cBit r.wsetErr r.setNow v 2 } }
  else s

/-- Writes to the fault and split registers. -/
def writeFaults (s : State) (o v : Nat) : State :=
  if o = 4 then (if bitAt v 0 then popFault s else s)
  else if o = 0x20 then { s with faults := { s.faults with drift := w1cBit s.faults.drift s.faults.setNow v 3 } }
  else if o = 0x28 then { s with faults := { s.faults with fenceDie := v % 16, fenceIndex := v / 16 % 1024 } }
  else if o = 0x30 then (if bitAt v 0 then { s with faults := { s.faults with clearPending := true } } else s)
  else if o = 0x800 then
    let s1 := { s with split := { s.split with enable := bitAt v 0, autoResume := bitAt v 1 } }
    let s2 := if bitAt v 2 then verifyWrite s1 else s1
    if bitAt v 3 then cancelDrain s2 else s2
  else if o = 0x804 then { s with split := { s.split with interval := BitVec.ofNat 32 v } }
  else if o = 0x808 then { s with split := { s.split with man := setLo s.split.man (v / 64 * 64) } }
  else if o = 0x80C then { s with split := { s.split with man := setHi s.split.man (v % 65536) } }
  else if o = 0x810 then { s with split := { s.split with scb := setLo s.split.scb (v / 1024 * 1024) } }
  else if o = 0x814 then { s with split := { s.split with scb := setHi s.split.scb (v % 65536) } }
  else if o = 0x818 then
    let x := s.split
    { s with split := { x with stretched := w1cBit x.stretched x.setNow v 5, skew := w1cBit x.skew x.setNow v 6
                               giveup := w1cBit x.giveup x.setNow v 7 } }
  else s

/-- Writes to the network registers. -/
def writeNet (s : State) (peer : Fin 16) (o v : Nat) : State :=
  if o = 4 then cfgSet s fun c => portCfg c v
  else if o = 8 then cfgSet s fun c => { c with udpPort := v % 65536, rtoUs := max 8 (v / 65536 % 1024) }
  else if o = 0xC then cfgSet s fun c => { c with domain := v % 256, ptpEn := bitAt v 8 }
  else if o = 0x18 then cfgSet s fun c => { c with gwMac := BitVec.ofNat 48 (setLo c.gwMac.toNat v) }
  else if o = 0x1C then cfgSet s fun c => { c with gwMac := BitVec.ofNat 48 (setHi c.gwMac.toNat (v % 65536)) }
  else if 0x20 ≤ o ∧ o < 0x30 then
    let sh := 96 - 32 * ((o - 0x20) / 4)
    let put (a : BitVec 128) : BitVec 128 :=
      BitVec.ofNat 128 (a.toNat - addrWord a ((o - 0x20) / 4) * 2 ^ sh + v * 2 ^ sh)
    cfgSet s fun c => { c with addr := put c.addr }
  else if o = 0x40 then { s with net := { s.net with events := w1c s.net.events s.net.setNow v } }
  else if 0x100 ≤ o ∧ o < 0x300 ∧ (o - 0x100) % 32 < 0x1C then
    let r := (o - 0x100) % 32
    ifAdmin s peer fun s => peerRegSet s ((o - 0x100) / 32) r (if r = 0x10 then v % 2 ^ 23 else v)
  else s

/-- Writes to the security registers, administered (R436). -/
def writeSec (s : State) (peer : Fin 16) (o v : Nat) : State :=
  ifAdmin s peer fun s =>
    if o = 0xC then secCtl s v
    else if o = 0x10 then peerAdminSet s v
    else if o = 0x14 then
      let x := s.sec
      { s with sec := { x with denied := w1cBit x.denied x.setNow v 0, advDone := w1cBit x.advDone x.setNow v 1
                               advFail := w1cBit x.advFail x.setNow v 2 } }
    else s

/-- Writes to the sequencer registers of a die. -/
def writeDie (s : State) (d : Die) (o v : Nat) : State :=
  let q := (s.die d).regs
  if o = 0 then
    s.setDie d { s.die d with regs := { q with lockstepSeen := w1cBit q.lockstepSeen q.setNow v 7
                                               wordEccSeen := w1cBit q.wordEccSeen q.setNow v 8 } }
  else s

/-- A register write from a peer; none where the address maps no register (R420). Read-only fields ignore it, reserved
bits are ignored, a 1 clears a W1C bit (R4, R5). -/
def ctlWrite (s : State) (peer : Fin 16) (a v : Nat) : Option State :=
  match ctlRead s a with
  | none => none
  | some _ =>
    let o := a % 65536
    let b := a / 65536
    some (if b = 0 then (if o = 0xC then { s with ident := { s.ident with scratch := BitVec.ofNat 32 v } } else s)
      else if b = 1 then writeLaps s o v
      else if b = 2 then writeRun s o v
      else if b = 3 then writeFaults s o v
      else if b = 4 then writeNet s peer o v
      else if b = 5 then writeSec s peer o v
      else if b = 6 then
        (if o = 0x1C then { s with power := { s.power with events := w1c s.power.events s.power.setNow v } } else s)
      else writeDie s (dieOf (b - 16)) o v)

/-- REGISTER_WRITE: a write to any register at a cut; one that maps no register is ignored (R420). -/
def execRegisterWrite (peer : Fin 16) (addr value : Word) (s : State) : Host.Outcome State Fault Refusal :=
  .next (atCut s fun s => (ctlWrite s peer addr.toNat value.toNat).getD s)

end Sys2Proof.Machine
end

