-- ==== Sys2Proof/Machine/Encoding.lean ====
section
/-! DEFINITION. The issue word and the encodings of its slots (R242–R246, chapter 12). -/
namespace Sys2Proof.Machine

/-! ### Slots and fields (Table 11-1, R243, R276) -/

/-- The slots of a word (Table 11-1). -/
inductive Slot8 where
  | ctl | mxa | mxb | mvp | vec | mov | net | mem
  deriving DecidableEq, Repr

/-- The slots in their order in the word. -/
def slots8 : List Slot8 := [.ctl, .mxa, .mxb, .mvp, .vec, .mov, .net, .mem]

/-- Opcode and predicate select of a slot (R243). -/
def slotOp8 (w : Nat) : Nat := bitsAt w 56 8
def slotPred (w : Nat) : Reg4 := Fin.ofNat 16 (bitsAt w 52 4)

/-- Register fields of 6 and 4 bits. -/
def fld6 (w lo : Nat) : Reg6 := Fin.ofNat 64 (bitsAt w lo 6)
def fld4 (w lo : Nat) : Reg4 := Fin.ofNat 16 (bitsAt w lo 4)

/-- A bit field of `n` bits. -/
def fldB (n w lo : Nat) : BitVec n := BitVec.ofNat n (bitsAt w lo n)

/-- A format field; a reserved code has none. -/
def fldF (w lo : Nat) : Option Fmt := fmtOf (bitsAt w lo 4)

/-- A core store operand at bit `lo` (R277). -/
def fldCsa (w lo : Nat) : Csa := ⟨bitAt w (lo + 20), fld4 w (lo + 16), fldB 16 w lo⟩

/-- The tile row operand of MX.STRM and MX.CLOSE (Table 12-3). -/
def fldTile (w : Nat) : TileSel := ⟨bitAt w 14, fld4 w 10, Fin.ofNat 128 (bitsAt w 3 7)⟩

/-- Group of an array operation. -/
def fldGroup (w : Nat) : Fin 8 := Fin.ofNat 8 w

/-- Bits [lo + n − 1 : lo] as a mask. -/
def fieldMask (l : List (Nat × Nat)) : Nat := l.foldl (fun m x => m ||| ((2 ^ x.2 - 1) * 2 ^ x.1)) 0

/-- Whether every set bit of the operand field lies in a listed range (R276). -/
def onlyIn (l : List (Nat × Nat)) (w : Nat) : Bool := decide ((w % 2 ^ 52) ||| fieldMask l = fieldMask l)

/-! ### Operand fields of each opcode (Tables 12-1, 12-3, 12-4, 12-8 to 12-12) -/

/-- CTL fields (Table 12-1). -/
def ctlFields (op : Nat) : Option (List (Nat × Nat)) :=
  match op with
  | 0x01 => some [(51, 1), (32, 6), (0, 32)]
  | 0x02 => some [(44, 4), (38, 6), (32, 6), (26, 6), (16, 1), (0, 16)]
  | 0x03 => some [(38, 6), (32, 6), (26, 6)]
  | 0x04 => some [(38, 6), (0, 3)]
  | 0x05 => some [(38, 6), (0, 4)]
  | 0x06 => some [(38, 6), (32, 6), (8, 3), (0, 4)]
  | 0x07 => some [(32, 6)]
  | 0x10 => some [(48, 3), (32, 6), (26, 6), (0, 20)]
  | 0x11 => some [(0, 20)]
  | 0x12 => some [(51, 1), (32, 6), (16, 16), (0, 16)]
  | 0x18 => some [(16, 4), (0, 16)]
  | 0x19 => some [(48, 4), (32, 16), (0, 32)]
  | 0x20 => some [(51, 1), (32, 6), (0, 14)]
  | 0x3F => some [(0, 1)]
  | _ => none

/-- MXA and MXB fields (Table 12-3). -/
def mxFields (op : Nat) : Option (List (Nat × Nat)) :=
  match op with
  | 0x01 => some [(4, 5), (0, 4)]
  | 0x02 => some [(48, 4), (43, 5), (27, 16), (0, 21)]
  | 0x03 => some []
  | 0x04 => some [(14, 1), (10, 4), (3, 7), (0, 3)]
  | 0x08 => some [(14, 8), (7, 7), (3, 4), (0, 3)]
  | 0x09 => some [(0, 3)]
  | 0x0A => some [(15, 11), (14, 1), (10, 4), (3, 7), (0, 3)]
  | 0x0B => some [(4, 21), (3, 1), (0, 3)]
  | 0x0C => some [(4, 21), (3, 1), (0, 3)]
  | 0x0D => some [(0, 3)]
  | _ => none

/-- MVP fields (Table 12-4). -/
def mvFields (op : Nat) : Option (List (Nat × Nat)) :=
  match op with
  | 0x01 => some [(0, 4)]
  | 0x02 => some [(0, 16)]
  | 0x03 => some [(48, 4), (44, 4), (40, 4), (34, 6), (28, 6), (0, 21)]
  | 0x04 => some [(48, 4), (44, 4), (40, 4), (34, 6), (28, 6), (0, 21)]
  | 0x05 => some [(20, 10), (9, 11), (4, 5), (0, 4)]
  | 0x06 => some [(17, 21), (16, 1), (0, 16)]
  | 0x07 => some [(17, 21), (16, 1), (0, 16)]
  | _ => none

/-- MOV fields (Table 12-9). -/
def movFields (op : Nat) : Option (List (Nat × Nat)) :=
  match op with
  | 0x01 => some [(51, 1), (0, 21)]
  | 0x02 => some [(51, 1), (0, 21)]
  | 0x03 => some [(38, 6), (0, 21)]
  | 0x04 => some [(32, 6), (0, 21)]
  | 0x05 => some [(38, 4), (0, 21)]
  | 0x06 => some [(32, 4), (0, 21)]
  | 0x07 => some [(21, 21), (0, 21)]
  | 0x08 => some [(51, 1), (44, 4), (32, 6), (0, 16)]
  | 0x09 => some [(44, 4), (40, 4), (0, 16)]
  | 0x0A => some [(44, 4), (0, 3)]
  | _ => none

/-- NET fields (Table 12-10). -/
def netFields (op : Nat) : Option (List (Nat × Nat)) :=
  match op with
  | 0x01 => some [(50, 2), (21, 16), (0, 21)]
  | 0x02 => some [(48, 4), (40, 8), (21, 16), (0, 21)]
  | _ => none

/-- Lane and queue operations of the VEC slot (Table 12-8). -/
def isLane (op : Nat) : Bool := [0x20, 0x21, 0x22, 0x23, 0x24, 0x28].contains op

/-- Fields of the VEC slot in the layouts that its operations share (Tables 12-5, 12-6, 12-8). -/
def vecFields (op : Nat) : Option (List (Nat × Nat)) :=
  if isLane op then some [(50, 2), (48, 1), (44, 4), (38, 6), (16, 16), (0, 16)]
  else if [1, 2, 3, 4, 5, 6, 8, 9, 0xA, 0xB, 0xC, 0x10, 0x11, 0x12, 0x13, 0x14, 0x18, 0x19, 0x1A].contains op then some [(0, 52)]
  else none

/-- Listed operand ranges of an opcode in its slot; none where the opcode is undefined there. -/
def slotFields (k : Slot8) (op : Nat) : Option (List (Nat × Nat)) :=
  match k with
  | .ctl => ctlFields op
  | .mxa => mxFields op
  | .mxb => mxFields op
  | .mvp => mvFields op
  | .vec => vecFields op
  | .mov => movFields op
  | .net => netFields op
  | .mem => if 1 ≤ op ∧ op ≤ 5 then some [(0, 52)] else none

/-- Structural operations (R246). -/
def structural (k : Slot8) (op : Nat) : Bool :=
  match k with
  | .mxa => [1, 3, 8, 0xD].contains op
  | .mxb => [1, 3, 8, 0xD].contains op
  | .mvp => decide (op = 1)
  | .mov => decide (op = 2)
  | _ => false

/-! ### The operation that a slot holds -/

/-- CTL.ALU functions by `FN` (Table 12-2). -/
def aluFns : List AluFn := [.add, .sub, .and, .or, .xor, .shl, .shr, .sar, .min, .max, .minu, .maxu, .slt, .sltu]

/-- The CTL operation of a slot (Table 12-1). -/
def ctlInstr (d : Die) (w : Nat) : Option Instr :=
  let sd := fld6 w 38
  let sa := fld6 w 32
  let sb := fld6 w 26
  match slotOp8 w with
  | 0x01 => some (.ctlLi d (bitAt w 51) sa (fldB 32 w 0))
  | 0x02 => (aluFns[bitsAt w 44 4]?).map fun f => .ctlAlu d f sd sa sb (bitAt w 16) (fldB 16 w 0)
  | 0x03 => some (.ctlMul d sd sa sb)
  | 0x04 => some (.ctlLidx d sd (Fin.ofNat 8 w))
  | 0x05 => some (.ctlLinfo d sd (fld4 w 0))
  | 0x06 => (([.or, .and, .max, .min, .sum] : List Comb)[bitsAt w 8 3]?).map fun c => .ctlColl d sd sa c (fld4 w 0)
  | 0x07 => some (.ctlPstep d sa)
  | 0x10 => (([.eq, .ne, .lt, .le, .ltu, .leu] : List BrCond)[bitsAt w 48 3]?).map fun c => .ctlBr d c sa sb (fldB 20 w 0)
  | 0x11 => some (.ctlJmp d (fldB 20 w 0))
  | 0x12 => some (.ctlLoop d (bitAt w 51) sa (fldB 16 w 16) (fldB 16 w 0))
  | 0x18 => some (.ctlSig d (fld4 w 16) (fldB 16 w 0))
  | 0x19 => some (.ctlWait d (fld4 w 48) (fldB 16 w 32) (fldB 32 w 0))
  | 0x20 => some (.ctlPage d (bitAt w 51) sa (fldB 14 w 0))
  | 0x3F => some (.lapEnd d (bitAt w 0))
  | _ => none

/-- The array operation of a slot (Table 12-3). -/
def mxInstr (d : Die) (k : Arr) (w : Nat) : Option Instr :=
  let p := slotPred w
  let g := fldGroup w
  match slotOp8 w with
  | 0x01 => (fldF w 0).map fun f => .mxCfg d k f (Fin.ofNat 32 (bitsAt w 4 5))
  | 0x02 => (fldF w 48).map fun f => .mxLdw d k p f (Fin.ofNat 32 (bitsAt w 43 5)) (fldB 16 w 27) (fldCsa w 0)
  | 0x03 => some (.mxSwap d k)
  | 0x04 => some (.mxStrm d k p (fldTile w) g)
  | 0x08 => (fldF w 3).map fun f => .mxOpen d k (fldB 8 w 14) (Fin.ofNat 128 (bitsAt w 7 7)) f g
  | 0x09 => some (.mxZero d k p g)
  | 0x0A => some (.mxClose d k p (fldB 11 w 15) (fldTile w) g)
  | 0x0B => some (.mxSpill d k p (fldCsa w 4) (bitAt w 3) g)
  | 0x0C => some (.mxFill d k p (fldCsa w 4) (bitAt w 3) g)
  | 0x0D => some (.mxFree d k g)
  | _ => none

/-- The matrix-vector operation of a slot (Table 12-4). -/
def mvInstr (d : Die) (w : Nat) : Option Instr :=
  let p := slotPred w
  match slotOp8 w with
  | 0x01 => (fldF w 0).map fun f => .mvOpen d f
  | 0x02 => some (.mvZero d p (fldB 16 w 0))
  | 0x03 =>
    match fldF w 48, fldF w 44 with
    | some f, some g => some (.mvDot d p f g (fld4 w 40) (fld6 w 34) (fld6 w 28) (fldCsa w 0))
    | _, _ => none
  | 0x04 =>
    match fldF w 48, fldF w 44 with
    | some f, some g => some (.mvCol d p f g (fld4 w 40) (fld6 w 34) (fld6 w 28) (fldCsa w 0))
    | _, _ => none
  | 0x05 => some (.mvClose d p (fldB 10 w 20) (fldB 11 w 9) (Fin.ofNat 32 (bitsAt w 4 5)) (fld4 w 0))
  | 0x06 => some (.mvSpill d p (fldCsa w 17) (bitAt w 16) (fldB 16 w 0))
  | 0x07 => some (.mvFill d p (fldCsa w 17) (bitAt w 16) (fldB 16 w 0))
  | _ => none

/-- Element functions 0x00–0x0E (Table 9-1). -/
def elemFns : List ElemFn :=
  [.exp, .exp2, .log, .log2, .recip, .sqrt, .rsqrt, .tanh, .sigmoid, .silu, .gelu, .erf, .sin, .cos, .softplus]

/-- Reduction kinds by `AUX` (Table 12-7). -/
def redKinds : List RedKind := [.sum, .sumsq, .mean, .prod, .count, .max, .min, .maxloc, .minloc]

/-- `AUX` of a VEC slot in its form. -/
def vecAux (w : Nat) : Nat := if bitAt w 51 then bitsAt w 11 6 else bitsAt w 14 6

/-- The form fields of a VEC slot (Tables 12-5, 12-6). -/
def vecForm (w : Nat) : Option VForm :=
  if bitAt w 51 then some (.desc ⟨bitAt w 50, fldB 11 w 39, fldB 11 w 28, fldB 11 w 17, fld6 w 5⟩)
  else (fldF w 44).map fun f =>
    .reg ⟨bitAt w 50, bitAt w 49, bitAt w 48, f, fld6 w 38, fld6 w 32, fld6 w 26, fld6 w 20, fld6 w 8⟩

/-- V.FN by its code (Tables 9-1, 12-7). -/
def fnInstr (d : Die) (p : Reg4) (f : VForm) (w : Nat) : Option Instr :=
  let c := vecAux w
  match elemFns[c]?, f with
  | some g, _ => some (.vFn d p f g)
  | none, .reg _ => (([.gsilu, .ggelu, .gsig] : List GateFn)[c - 0x20]?).bind fun g =>
      if 0x20 ≤ c then some (.vFnGate d p f g) else none
  | none, .desc r =>
    match c with
    | 0x20 => some (.vFnGate d p f .gsilu)
    | 0x21 => some (.vFnGate d p f .ggelu)
    | 0x22 => some (.vFnGate d p f .gsig)
    | 0x30 => some (.softmax d p r.dd r.da)
    | 0x31 => some (.smsum d p r.da r.sp)
    | 0x32 => some (.smnorm d p r.dd r.da r.sp)
    | 0x33 => some (.lnorm d p r.dd r.da r.db r.sp)
    | 0x34 => some (.rmsnorm d p r.dd r.da r.db r.sp)
    | 0x35 => some (.nstat d p r.da r.sp)
    | _ => none

/-- Operands of V.RED in either form (Tables 12-5 to 12-7); an output format that is reserved has none. -/
def redInstr (d : Die) (p : Reg4) (f : VForm) (w : Nat) : Option Instr :=
  match redKinds[vecAux w]?, f with
  | some k, .reg _ => (fldF w 0).map fun o => .vRed d p f ⟨k, o, 0, bitAt w 4, bitAt w 5, false⟩
  | some k, .desc _ => some (.vRed d p f ⟨k, .p8, Fin.ofNat 4 w, bitAt w 2, bitAt w 3, bitAt w 4⟩)
  | none, _ => none

/-- The lane operation of a VEC slot (Table 12-8). -/
def laneInstr (d : Die) (w : Nat) : Option Instr :=
  let p := slotPred w
  match slotOp8 w with
  | 0x20 => some (.vPop d p (fld6 w 38) (fld4 w 4) (bitAt w 0))
  | 0x21 => (fldF w 44).map fun f => .vQzero d p f (fldB 16 w 16)
  | 0x22 => (fldF w 44).map fun f => .vQrnd d p (bitAt w 48) f (fld6 w 38) (fldB 16 w 16) (fld6 w 8)
  | 0x23 => some (.vQspill d p (bitAt w 50) (fldB 16 w 16) (fldB 16 w 0))
  | 0x24 => some (.vQfill d p (bitAt w 50) (fldB 16 w 16) (fldB 16 w 0))
  | 0x28 => some (.vRdfl d p (fld6 w 38))
  | _ => none

/-- V.SEL, V.PLOG and V.CMP, which have the register form alone. -/
def vecRegInstr (d : Die) (w : Nat) : Option Instr :=
  let p := slotPred w
  match slotOp8 w with
  | 0x05 => (fldF w 44).map fun f => .vSel d p (bitAt w 50) f (fld6 w 38) (fld6 w 32) (fld6 w 26) (fld4 w 20)
  | 0x06 => (([.and, .or, .xor, .andNot] : List PlogOp)[vecAux w]?).map fun o =>
      .vPlog d p (bitAt w 50) o (fld4 w 38) (fld4 w 32) (fld4 w 26)
  | 0x0C =>
    match fldF w 44, (([.eq, .ne, .lt, .le, .gt, .ge] : List CmpCond)[vecAux w]?) with
    | some f, some c => some (.vCmp d p (bitAt w 50) (bitAt w 49) f (fld4 w 38) (fld6 w 32) (fld6 w 26) c)
    | _, _ => none
  | _ => none

/-- The VEC operation of a slot (Tables 12-5 to 12-8). -/
def vecInstr (d : Die) (w : Nat) : Option Instr :=
  let p := slotPred w
  let op := slotOp8 w
  if isLane op then laneInstr d w
  else if [5, 6, 0xC].contains op then vecRegInstr d w
  else
    match vecForm w with
    | none => none
    | some f =>
      match op with
      | 0x01 => some (.vMov d p f)
      | 0x02 => some (.vAnd d p f)
      | 0x03 => some (.vOr d p f)
      | 0x04 => some (.vXor d p f)
      | 0x08 => some (.vNeg d p f)
      | 0x09 => some (.vAbs d p f)
      | 0x0A => some (.vMax d p f)
      | 0x0B => some (.vMin d p f)
      | 0x10 => some (.vAdd d p f)
      | 0x11 => some (.vSub d p f)
      | 0x12 => some (.vMul d p f)
      | 0x13 => some (.vFma d p f)
      | 0x14 =>
        match f with
        | .reg _ => (fldF w 14).map fun t => .vCvt d p f t
        | .desc _ => some (.vCvt d p f .p8)
      | 0x18 => fnInstr d p f w
      | 0x19 => redInstr d p f w
      | 0x1A => some (.vQuant d p (fldB 11 w 39) (fldB 11 w 28) (fld6 w 5) (fld4 w 0))
      | _ => none

/-- The MOV operation of a slot (Table 12-9). -/
def movInstr (d : Die) (w : Nat) : Option Instr :=
  let p := slotPred w
  let arr : Arr := if bitAt w 51 then .mxb else .mxa
  match slotOp8 w with
  | 0x01 => some (.movFeed d p arr (fldCsa w 0))
  | 0x02 => some (.movTag d arr (fldCsa w 0))
  | 0x03 => some (.movLdv d p (fld6 w 38) (fldCsa w 0))
  | 0x04 => some (.movStv d p (fld6 w 32) (fldCsa w 0))
  | 0x05 => some (.movLdp d p (fld4 w 38) (fldCsa w 0))
  | 0x06 => some (.movStp d p (fld4 w 32) (fldCsa w 0))
  | 0x07 => some (.movCpy d p (fldCsa w 21) (fldCsa w 0))
  | 0x08 => some (.movAset d p (bitAt w 51) (fld4 w 44) (fld6 w 32) (fldB 16 w 0))
  | 0x09 => some (.movAadd d p (fld4 w 44) (fld4 w 40) (fldB 16 w 0))
  | 0x0A => some (.movAidx d p (fld4 w 44) (Fin.ofNat 8 w))
  | _ => none

/-- The NET operation of a slot (Table 12-10). -/
def netInstr (d : Die) (w : Nat) : Option Instr :=
  let p := slotPred w
  match slotOp8 w with
  | 0x01 => (([.north, .east, .south, .west] : List Dir)[bitsAt w 50 2]?).map fun dir =>
      .netMesh d p dir (fldB 16 w 21) (fldCsa w 0)
  | 0x02 => some (.netSend d p (fld4 w 48) (fldB 8 w 40) (fldB 16 w 21) (fldCsa w 0))
  | _ => none

/-- The shared fields of the MEM slot (Table 12-11). -/
def memArgsOf (w : Nat) : MemArgs :=
  ⟨bitAt w 51, fld6 w 45, fld4 w 41, fld4 w 37, fld4 w 33, bitAt w 32, bitAt w 31, fldCsa w 10⟩

/-- The MEM operation of a slot (Tables 12-11, 12-12). -/
def memInstr (d : Die) (w : Nat) : Option Instr :=
  let p := slotPred w
  let m := memArgsOf w
  let cnt := fld6 w 0
  match slotOp8 w with
  | 0x01 => some (.memRd d p m (fldB 10 w 0))
  | 0x02 => some (.memWr d p m (fldB 10 w 0))
  | 0x03 => (fldF w 6).map fun f => .memQadd d p m f cnt
  | 0x04 => (fldF w 6).map fun f => .memMaxloc d p m f cnt
  | 0x05 => (fldF w 6).map fun f => .memRadd d p m f cnt
  | _ => none

/-- The command that a slot of a word of die `d` stands for; a NOP slot is NOP (R241, R243). -/
def slotInstr (d : Die) (k : Slot8) (w : Nat) : Option Instr :=
  if slotOp8 w = 0 then (if w = 0 then some (.nop d) else none)
  else
    match k with
    | .ctl => ctlInstr d w
    | .mxa => mxInstr d .mxa w
    | .mxb => mxInstr d .mxb w
    | .mvp => mvInstr d w
    | .vec => vecInstr d w
    | .mov => movInstr d w
    | .net => netInstr d w
    | .mem => memInstr d w

end Sys2Proof.Machine
end

