-- ==== Sys2Proof/Machine/Schedule.lean ====
section
/-! DEFINITION. The units of a core in a cycle, and the load checks that the schedule of a stream decides: those of
Tables 5-7 to 14-8 on occupancy, order, timing and on values that the image fixes (R121, R146, R159, R189, R215, R239, R270,
R296, R314, R335). A die's words are played in issue order on one core that knows no data, along every path that the image
leaves open; what a run-time address, format, value, count or path decides is left to the run-time cause of the same check
(log 11). -/
namespace Sys2Proof.Machine

/-! ### The units of a core in a cycle (R117, R144, R166, R204) -/

/-- Whether the vector engine still works. -/
def vecLeft (t : Nat) (c : Core) : Bool :=
  decide (t < c.vecTo) || decide (t < c.vecDone) || (c.pend.any (·.vec)) ||
    c.lq.toList.any fun a => decide (t < a.held) || decide (t < a.svcAt)

/-- Loaders, element pipe, and TQ_FULL at the end of a cycle in which the queue holds more than 16 entries (R144). -/
def coreTick (t : Nat) (c : Core) : Core × List Raise :=
  let c1 := { c with mxa := loaderTick t c.cs c.mxa, mxb := loaderTick t c.cs c.mxb }
  let r := vecTick t c1
  (r.1, r.2 ++ if 16 < (r.1.tq.filter fun e => decide (e.enter ≤ t)).length
    then [(0x011F, 3, 0, 0)] else [])

/-! ### Playing an operation without data -/

/-- A core operation. -/
abbrev CoreOp := CoreIn → Core → Core × List Raise

/-- A core store operand: a run-time address stands at 0. -/
def playCsa (a : Csa) : Csa := if a.au then ⟨false, 0, 0⟩ else a

/-- A predicate that is false on the core played. -/
def offPred : Reg4 := 1

/-- MX.FILL without data: the images that it attaches are taken to fit (R91, R130). -/
def playFill (k : Arr) (p : Reg4) (b : Nat) (gi : Fin 8) (x : CoreIn) (c : Core) : Core × List Raise :=
  serviceCore k (activeOn c p) gi (fun g => g.rows.length * portLong g.fmt)
    (fun fin g c => ((some { clearRows g fin false with base := some b }, c),
      if csOk b 8 (16 * g.rows.length * imgSize (imgFmt g.fmt)) then [] else [(0x0158, 0, 0, b)])) x c

/-- MV.FILL without data (R91, R154). -/
def playMvFill (p : Reg4) (b : Nat) (mask : BitVec 16) (x : CoreIn) (c : Core) : Core × List Raise :=
  let is := maskList mask
  mvService (activeOn c p) is (is.length * mvLong c.mvp.fmt) (fun c =>
    (is.foldl (fun c i => mvSet c i { AccQ.zero c.mvp.fmt with base := some b, svcAt := x.now + is.length * mvLong c.mvp.fmt }) c,
      if csOk b 8 (is.length * imgSize c.mvp.fmt) then [] else [(0x0129, 2, 0, b)])) x c

/-- V.QFILL without data (R91, R177). -/
def playLaneFill (p : Reg4) (mask ad : BitVec 16) (x : CoreIn) (c : Core) : Core × List Raise :=
  let ls := maskList mask
  pipeTake x c ((ls.map (laneCyc c)).foldl (· + ·) 0) fun _ c =>
    if activeOn c p then
      (ls.foldl (fun c l => setLane c l { AccQ.zero (laneAcc c l).q.fmt with base := some ad.toNat }) c,
        if csOk ad.toNat 8 ((ls.map fun l => imgSize (laneAcc c l).q.fmt).foldl (· + ·) 0) then [] else [(0x0132, 3, 0, ad.toNat)])
    else (c, [])

/-- A spill or fill at an address that the walk does not know: its core store writes are left out, and with `ATT` = 0 so is
whether its address is the attached one. -/
def noWrites (att : Bool) (f : CoreOp) : CoreOp := fun x c =>
  let r := f x c
  ({ r.1 with pend := c.pend, fresh := c.fresh },
    r.2.filter fun y => decide (y.1 ≠ 0x015B) && (att || decide (y.1 ≠ 0x015A)))

/-- An operation on a tile row of a run-time number: as an inactive one, which no row holds back or delays (R245). -/
def anyRow (k : Arr) (f : CoreOp) : CoreOp := fun x c =>
  let r := f x c
  (r.1.setArr k { r.1.arr k with groups := (c.arr k).groups }, r.2.filter fun y => decide (y.1 ≠ 0x0115))

/-- An operation in descriptor form: its tensors are in core store, so that it occupies the pipe for two cycles at least
(R166, R204, R226). -/
def playDesc : CoreOp := fun x c => pipeTake x c 2 fun _ c => (c, [])

/-- V.QZERO on a core where a run-time predicate decides it: the formats stand that make later operations shorter. -/
def playLaneZero (f : Fmt) (mask : BitVec 16) (x : CoreIn) (c : Core) : Core × List Raise :=
  qzeroCore (if f = .p32 then offPred else 0) f mask x c

/-- V.RED in descriptor form with `START`: lanes 0 to 15 take the format of a descriptor in core store (R178). -/
def playRedStart (x : CoreIn) (c : Core) : Core × List Raise :=
  let r := playDesc x c
  ({ r.1 with lq := Vector.replicate 16 (AccQ.zero .p8) }, r.2)

/-- MV.CLOSE without data: its format, and so the bytes that it writes, are those of a descriptor in core store. -/
def playMvClose (p : Reg4) (n : Nat) (acc : Reg4) (x : CoreIn) (c : Core) : Core × List Raise :=
  let r := mvCloseCore p 0 0 n acc x c
  ({ r.1 with pend := c.pend }, r.2)

/-! ### What a run-time value leaves unknown

Keys: the base of a group, of the MVP's accumulators (unit 2) or of the lanes (unit 3); whether a group is attached at all,
which moves its exits; the format of a bank; the formats of the lanes. -/

def baseKey (u g : Nat) : Nat := 0x10000 + 16 * u + g
def timeKey (u g : Nat) : Nat := 0x20000 + 16 * u + g
def bankKey (u b : Nat) : Nat := 0x30000 + 16 * u + b
def laneKey : Nat := 0x40000

/-- What a run-time value hides where a condition holds. -/
def hideIf (b : Bool) (l : List Nat) : List Nat := if b then l else []

/-- The key of the base that an operation acts on. -/
def baseOf (i : Instr) : Nat :=
  match i with
  | .mxSpill _ k _ _ _ g => baseKey (arrUnit k) g
  | .mxFill _ k _ _ _ g => baseKey (arrUnit k) g
  | .mvSpill .. => baseKey 2 0
  | .mvFill .. => baseKey 2 0
  | _ => baseKey 3 0

/-- Whether a run-time value decides a cause of an operation. -/
def causeHidden (h : List Nat) (c : Core) (i : Instr) (cause : Nat) : Bool :=
  match i, cause with
  | .mxStrm _ k _ _ _, 0x0110 => h.contains (bankKey (arrUnit k) (b2n (c.arr k).active1))
  | _, 0x011F => h.any fun y => decide (y / 0x10000 = 2)
  | _, 0x0136 => h.contains laneKey
  | _, 0x015A => h.contains (baseOf i)
  | _, _ => false

/-- How an operation plays: on a core where its predicate, if a run-time one, is false; what it leaves unknown and what it
makes known; and the operation under P0, of whose causes the range of a fixed address and a missing base count all the same
(R277, R284). -/
structure Play where
  op : CoreOp
  hide : List Nat
  shown : List Nat
  full : Option CoreOp

/-- How an operation that depends on no run-time value plays. -/
def Play.plain (f : CoreOp) : Play := ⟨f, [], [], none⟩

/-- How a spill or fill that attaches group or accumulators `key` plays; `late` are the exits that an attachment delays. -/
def Play.attach (p : Reg4) (au att : Bool) (key : Nat) (late : List Nat) (f : Reg4 → CoreOp) : Play :=
  let dark := decide (p ≠ 0)
  let g (q : Reg4) : CoreOp := if au then noWrites att (f q) else f q
  ⟨g p, hideIf (dark || au) [key] ++ hideIf dark late, hideIf (!dark && !au) [key], if dark then some (g 0) else none⟩

/-- How an operation plays; none for one that bears on no check of the schedule, or that a check of its own word refuses. -/
def playOf (i : Instr) : Option Play :=
  if !fieldsOk i then none
  else
    let dark (p : Reg4) : Bool := decide (p ≠ 0)
    match i with
    | .mxCfg _ k f cap => some (.plain (cfgCore k f cap))
    | .mxLdw _ k p f rows st a =>
      let bs := [bankKey (arrUnit k) 0, bankKey (arrUnit k) 1]
      some ⟨ldwCore k p f rows st.toNat (playCsa a), hideIf (dark p) bs, hideIf (!dark p) bs, none⟩
    | .mxSwap _ k => some (.plain (swapCore k))
    | .mxStrm _ k _ t g =>
      some (.plain (if t.au then anyRow k (strmCore k offPred t g) else strmCore k offPred t g))
    | .mxOpen _ k n first f g => some ⟨openCore k n.toNat first f g, [], [baseKey (arrUnit k) g], none⟩
    | .mxZero _ k p g => some (.plain (zeroCore k p g))
    | .mxClose _ k _ exd t g =>
      some (.plain (if t.au then anyRow k (closeCore k offPred exd.toNat t g) else closeCore k offPred exd.toNat t g))
    | .mxSpill _ k p a att g =>
      some (.attach p a.au att (baseKey (arrUnit k) g) [timeKey (arrUnit k) g] fun q => spillCore k q (playCsa a) att g)
    | .mxFill _ k p a _ g =>
      some (.attach p a.au true (baseKey (arrUnit k) g) [timeKey (arrUnit k) g] fun q => playFill k q (playCsa a).off.toNat g)
    | .mxFree _ k g => some ⟨freeCore k g, [], [baseKey (arrUnit k) g], none⟩
    | .mvOpen _ f => some ⟨mvOpenCore f, [], [baseKey 2 0], none⟩
    | .mvZero _ p mask =>
      some ⟨mvZeroCore 0 mask, hideIf (dark p) [baseKey 2 0], hideIf (!dark p && decide (mask = 0xFFFF)) [baseKey 2 0], none⟩
    | .mvDot _ p wf xf acc vn e a => some (.plain (mvDotCore p wf xf acc vn e (playCsa a)))
    | .mvCol _ p wf xf acc vn k a => some (.plain (mvColCore p wf xf acc vn k (playCsa a)))
    | .mvClose _ p _ _ n acc => some (.plain (playMvClose p n acc))
    | .mvSpill _ p a att mask =>
      let r := Play.attach p a.au att (baseKey 2 0) [] fun q => mvSpillCore q (playCsa a) att mask
      some { r with shown := [] }
    | .mvFill _ p a _ mask =>
      let r := Play.attach p a.au true (baseKey 2 0) [] fun q => playMvFill q (playCsa a).off.toNat mask
      some { r with shown := hideIf (decide (mask = 0xFFFF)) r.shown }
    | .vRed _ p (.reg r) a => some (.plain (redRegCore i p r a))
    | .vRed _ p (.desc _) a =>
      some ⟨if a.start then playRedStart else playDesc,
        hideIf a.start [laneKey] ++ hideIf (a.start && dark p) [baseKey 3 0], [], none⟩
    | .vPlog _ p zm o pd pa pb => some (.plain (plogCore i p zm o pd pa pb))
    | .vPop _ p vd lq q => some (.plain (popCore p vd lq q))
    | .vQzero _ p f mask =>
      let all := !dark p && decide (mask = 0xFFFF)
      some ⟨if dark p then playLaneZero f mask else qzeroCore p f mask, hideIf (dark p) [laneKey, baseKey 3 0],
        hideIf all [laneKey, baseKey 3 0], none⟩
    | .vQrnd _ p rnd f vd mask sp => some (.plain (qrndCore p rnd f vd mask sp))
    | .vQspill _ p att mask ad =>
      let r := Play.attach p false true (baseKey 3 0) [] fun q => qspillCore q att mask ad
      some { r with shown := [] }
    | .vQfill _ p _ mask ad =>
      let r := Play.attach p false true (baseKey 3 0) [] fun q => playLaneFill q mask ad
      some { r with shown := hideIf (decide (mask = 0xFFFF)) r.shown }
    | .vRdfl _ p vd => some (.plain (rdflCore p vd))
    | .vQuant .. => some (.plain playDesc)
    | .movFeed _ p k a =>
      some ⟨feedCore p k (playCsa a), [], [], if dark p && !a.au then some (feedCore 0 k a) else none⟩
    | .movLdv _ p vd a => some (.plain (ldvCore p vd (playCsa a)))
    | .movLdp _ p pd a => some (.plain (ldpCore p pd (playCsa a)))
    | .movStv _ p va a => if a.au then none else some (.plain (stvCore p va a))
    | .movStp _ p pa a => if a.au then none else some (.plain (stpCore p pa a))
    | .movCpy _ p dst src => if dst.au then none else some (.plain (cpyCore p dst (playCsa src)))
    | .netMesh _ _ dir dst a => some (.plain (meshCore offPred dir dst.toNat a))
    | .netSend _ _ ax w dst a => some (.plain (sendCore offPred ax (w.toNat + 1) dst.toNat a))
    | _ =>
      match rowCmdOf i, vopOf i with
      | some _, _ => some (.plain playDesc)
      | none, some (o, p, .reg r, extra) => some (.plain (vRegCore i o p r extra))
      | none, some (_, _, .desc _, _) => some (.plain playDesc)
      | none, none => none

/-- The load check that covers a cause of operation `i` (Tables 5-7 to 8-10, 12-15, 13-6): an addition that meets a
service operation is R132's, check 0x3A. -/
def causeCheck (i : Instr) (cause : Nat) : Option Nat :=
  match cause with
  | 0x0110 => some 0x30
  | 0x0111 => some 0x32
  | 0x0112 | 0x0113 => some 0x33
  | 0x0114 => some 0x34
  | 0x0115 => (match i with | .mxStrm .. => some 0x3A | _ => some 0x35)
  | 0x0118 | 0x0119 | 0x011A => some 0x36
  | 0x011B => some 0x37
  | 0x011D => some 0x39
  | 0x011E | 0x011F | 0x0120 => some 0x3B
  | 0x0128 => some 0x3C
  | 0x0129 => (match i with | .mvSpill .. | .mvFill .. => some 0x50 | _ => none)
  | 0x012A | 0x012B => some 0x3E
  | 0x0132 => (match i with | .vQspill .. | .vQfill .. => some 0x50 | _ => none)
  | 0x0134 => some 0x42
  | 0x0135 => some 0x43
  | 0x0136 => some 0x44
  | 0x0137 => some 0x45
  | 0x0158 => (match i with | .mxSpill .. | .mxFill .. => some 0x50 | _ => none)
  | 0x0159 => some 0x51
  | 0x015C => (match i with | .movFeed .. => some 0x50 | _ => none)
  | 0x015A => some 0x52
  | 0x015B => some 0x53
  | 0x015F => (match i with | .netMesh .. => some 0x55 | _ => some 0x53)
  | _ => none

/-! ### The walk -/

/-- What a walk judges: the die, log2 L, the grid side, the entry word, the words and the resident words of the stream, the
static units that a lap may serve (near, far), and the slots of each word. -/
structure Stream where
  die : Die
  k : Nat
  n : Nat
  entry : Nat
  len : Nat
  resident : Nat
  near : Nat
  far : Nat
  word : Nat → List (Slot8 × Nat)

/-- L. -/
def Stream.lap (m : Stream) : Nat := 2 ^ m.k

/-- A scalar write of the walk: the value where the image fixes it. -/
structure KnownPend where
  ready : Nat
  issued : Nat
  reg : Reg6
  val : Option DWord
  deriving DecidableEq, Repr

/-- An atomic static request whose addresses the image fixes: tier, kind, offset, bytes, cycle of completion. -/
structure WalkAtom where
  far : Bool
  kind : MemKind
  off : Nat
  len : Nat
  done : Nat
  deriving DecidableEq, Repr

/-- The static requests of a lap whose addresses the image fixes (R325 to R328): where each queue is free, its units, the
last completion, and atomics. -/
structure WalkMem where
  nearFree : Nat
  farFree : Nat
  nearUsed : Nat
  farUsed : Nat
  done : Nat
  atoms : List WalkAtom
  deriving DecidableEq, Repr

/-- Where a walk stands: the core played, the word, the loop levels (`left` = 0 where the count is a run-time one), the
scalars known and their writes, what is unknown, the static requests, and the page last issued from. -/
structure Spot where
  core : Core
  pc : Nat
  loops : List Loop
  known : Vector (Option DWord) 64
  pend : List KnownPend
  hidden : List Nat
  mem : WalkMem
  page : Nat
  deriving DecidableEq, Repr

/-- A walk: where it stands, the cycle in which its word takes effect, its lap cycle of issue, the checks found to fail and
the word of each, whether it met a wait of unknown length, the words last played in any and in the VEC slot, and the spots
met at lap starts, and at open paths of this lap; whether it has come back to such a lap start. -/
structure Walk where
  at_ : Spot
  now : Nat
  cyc : Nat
  found : List (Nat × Nat)
  waited : Bool
  played : Nat
  vecPc : Nat
  laps : List Spot
  forks : List Spot
  back : Bool

/-- Adding a failed check at a word. -/
def Walk.fail (w : Walk) (code pc : Nat) : Walk :=
  if w.found.contains (code, pc) then w else { w with found := (code, pc) :: w.found }

/-- What causes add to what was found. -/
def Walk.note (w : Walk) (i : Instr) (pc : Nat) (rs : List Raise) : Walk :=
  rs.foldl (fun w r =>
    match (if causeHidden w.at_.hidden w.at_.core i r.1 then none else causeCheck i r.1) with
    | some c => w.fail c pc
    | none => w) w

/-- The walk with another core. -/
def Walk.setCore (w : Walk) (c : Core) : Walk := { w with at_ := { w.at_ with core := c } }

/-- The core with the data that the walk does not know. -/
def noData (c : Core) : Core :=
  { c with cs := [], v := [], hist := [], p := Vector.replicate 16 0, a := Vector.replicate 16 0 }

/-- What an operation sees in the walk; no operation of the walk takes data from a scalar. -/
def Walk.input (w : Walk) (m : Stream) : CoreIn :=
  { die := m.die, n := m.n, idx := 0, now := w.now, start := w.now - 12 - w.cyc, len := m.lap,
    issue := ⟨true, Vector.replicate 64 0, 0, w.at_.pc⟩, strict := false, seed := 0, runLap := 0 }

/-! ### Checks on fixed values -/

/-- The checks on the scalars of row functions and of V.QUANT that known values fail (R203, R212, R219, Tables 9-8, 10-9). -/
def scalarFails (known : Vector (Option DWord) 64) (i : Instr) : List Nat :=
  let has (r : Nat) (f : DWord → Bool) : Bool := match vget known r none with | some v => f v | none => false
  let if_ (b : Bool) (c : Nat) : List Nat := if b then [c] else []
  match rowCmdOf i, i with
  | some k, _ =>
    if_ (has (k.sp.val + 1) fun s => (rowUses1 k.kind && !csOk (rowA1 s) 8 0) ||
        (rowUses2 k.kind (rowA2 s) && !csOk (rowA2 s) 8 0)) 0x47 ++
      if_ (isNorm k.kind && has k.sp fun s => !epsOk .p32 (rowEps s) && !epsOk .b32 (rowEps s)) 0x48
  | none, .vQuant _ _ _ _ sp _ =>
    if_ ((has sp fun s => decide ((quantArgs s 0).mode = 3) || !(quantArgs s 0).zero) ||
        has (sp.val + 1) fun s => !(quantArgs 0 s).zero) 0x4A ++
      if_ (has (sp.val + 1) fun s => !csOk (quantArgs 0 s).recAt 16 16 || !csOk (quantArgs 0 s).cnt 4 0) 0x4B ++
      if_ (has sp fun s => decide ((quantArgs s 0).mode = 2) && !(match decodeNum .p32 (quantArgs s 0).sfix with
        | .fin neg x => !neg && !x.isZero | _ => false)) 0x4C
  | none, _ => []

/-- The die in a direction of NET.MESH. -/
def dieToward (d : Die) (dir : Dir) : Option Nat :=
  match dir with
  | .north => if 4 ≤ d.val then some (d.val - 4) else none
  | .east => if d.val % 4 < 3 then some (d.val + 1) else none
  | .south => if d.val < 12 then some (d.val + 4) else none
  | .west => if 1 ≤ d.val % 4 then some (d.val - 1) else none

/-- The checks that a NET.MESH fails at a cycle of its lap: under P0 an edge core has no neighbour (R291), a half comes after
cycle D (R307); toward another die every core of the die's edge counts 32 B in one cycle, active or not, which is above
1,344 B for either grid side (R306, R309; log 11). -/
def meshFails (m : Stream) (eff : Nat) (p : Reg4) (dir : Dir) : List Nat :=
  let next := dieToward m.die dir
  (if p = 0 ∧ next = none then [0x50] else []) ++
    (if p = 0 ∧ m.lap - 1025 < eff + 37 + (if next = none then 0 else 24) then [0x57] else []) ++
    (if next.isSome ∧ 1344 < 32 * m.n then [0x58] else [])

/-- A MEM operation: predicate, fields, kind, bytes, alignment. -/
def memOf (i : Instr) : Option (Reg4 × MemArgs × MemKind × Nat × Nat) :=
  match i with
  | .memRd _ p m len => some (p, m, .rd, 64 * len.toNat, 64)
  | .memWr _ p m len => some (p, m, .wr, 64 * len.toNat, 64)
  | .memQadd _ p m f cnt => some (p, m, .qadd f, (cnt.val + 1) * imgSize f, 8)
  | .memMaxloc _ p m f cnt => some (p, m, .maxloc f, (cnt.val + 1) * 8, 8)
  | .memRadd _ p m f cnt => some (p, m, .radd f, (cnt.val + 1) * (fmtBits f / 8), fmtBits f / 8)
  | _ => none

/-- Units of a core's part before the first stripe that it shares with another range (R321). -/
def unitsBefore (k : MemKind) (o n o2 n2 : Nat) : Option Nat :=
  let l := rangeStripes k o n
  let shared (y : Nat × Nat) : Bool := (rangeStripes .rd o2 n2).any fun z => decide (z.1 = y.1)
  if l.any shared then some (((l.takeWhile fun y => !shared y).map (·.2)).foldl (· + ·) 0) else none

/-- A static request at a fixed address of the die's own tier: its units count for every position, its service and completion
follow R325 and R326, and under P0 a stripe of an atomic of another kind that is not complete by then races (R328). -/
def Walk.static (w : Walk) (m : Stream) (p : Reg4) (k : MemKind) (far : Bool) (o n : Nat) : Walk :=
  let y := w.at_.mem
  let u := m.n * m.n * rangeUnits k o n
  let start := max (w.now + 20) (if far then y.farFree else y.nearFree)
  let done := start + (u - 1) / tierSlots far + tierTail far
  let used := (if far then y.farUsed else y.nearUsed) + u
  let free := start + ceilDiv u (tierSlots far)
  let race := decide (p = 0) && y.atoms.any fun a => decide (a.far = far) && !sameAtom a.kind k &&
    (match unitsBefore k o n a.off a.len with
     | some b => decide (start + b / tierSlots far < a.done)
     | none => false)
  let live := y.atoms.filter fun a => decide (w.now < a.done)
  let atoms := if p = 0 ∧ k ≠ .rd ∧ k ≠ .wr then ⟨far, k, o, n, done⟩ :: live else live
  let y1 : WalkMem := { y with done := max y.done done, atoms := atoms }
  let y2 : WalkMem := if far then { y1 with farFree := free, farUsed := used } else { y1 with nearFree := free, nearUsed := used }
  let w1 := { w with at_ := { w.at_ with mem := y2 } }
  let w2 := if (if far then m.far else m.near) < used then w1.fail 0x5A w.at_.pc else w1
  if race then w2.fail 0x5B w.at_.pc else w2

/-- A MEM operation in the walk: its device address is fixed where `AU` = 0 and the scalar is known (R293, R318, R323). A
static request of unknown address may hold the queue up, so that no race behind it is certain. -/
def Walk.mem (w : Walk) (m : Stream) (i : Instr) : Walk :=
  match memOf i with
  | none => w
  | some (p, a, k, n, align) =>
    match (if a.au then none else (vget w.at_.known a.sa none).map fun v => v.toNat % 2 ^ 48) with
    | none => if a.async then w else { w with at_ := { w.at_ with mem := { w.at_.mem with atoms := [] } } }
    | some ad =>
      if memInBad m.die a.async n align 1 ⟨0, true, ad, 0⟩ then w.fail 0x59 w.at_.pc
      else
        match a.async, devLocate ad with
        | false, some v => w.static m p k v.1 v.2.2 n
        | _, _ => w

/-! ### Playing a word -/

/-- Playing one operation. -/
def Walk.op (w : Walk) (m : Stream) (i : Instr) : Walk :=
  let pc := w.at_.pc
  let w0 := (scalarFails w.at_.known i).foldl (fun w c => w.fail c pc) (w.mem m i)
  let w1 := match i with
    | .netMesh _ p dir _ _ => (meshFails m (w.cyc + 12) p dir).foldl (fun w c => w.fail c pc) w0
    | _ => w0
  match playOf i with
  | none => w1
  | some y =>
    let x := w1.input m
    let w2 := match y.full with
      | some f => w1.note i pc ((f x w1.at_.core).2.filter fun r => [0x0158, 0x0129, 0x0132, 0x015A, 0x015C].contains r.1)
      | none => w1
    let r := y.op x w2.at_.core
    let w3 := (w2.note i pc r.2).setCore (noData r.1)
    { w3 with at_ := { w3.at_ with hidden := (y.hide ++ w3.at_.hidden.filter fun h => !y.shown.contains h).eraseDups } }

/-- The known scalars after the writes that are readable by `t` (R248). -/
def commitKnown (t : Nat) (y : Spot) : Spot :=
  let due := sortBy (fun a b => decide (a.ready < b.ready) || (decide (a.ready = b.ready) && decide (a.issued ≤ b.issued)))
    (y.pend.filter fun p => decide (p.ready ≤ t))
  { y with known := due.foldl (fun v p => v.set p.reg p.val) y.known, pend := y.pend.filter fun p => decide (t < p.ready) }

/-- `n` cycles in which no word takes effect; a cause of such a cycle stands at the word last played, or at the VEC
operation's. -/
def Walk.idle (m : Stream) : Nat → Walk → Walk
  | 0, w => w
  | n + 1, w =>
    let r := coreTick w.now w.at_.core
    let w1 := r.2.foldl (fun w y => w.note (.nop m.die) (if y.1 = 0x011F then w.played else w.vecPc) [y]) w
    let y := commitKnown (w.now + 1) { w1.at_ with core := noData (commitPend (w.now + 1) r.1) }
    Walk.idle m n { w1 with at_ := y, now := w.now + 1 }

/-- A stretch that outlasts every operation: 1,024 cycles, and a long lap. -/
def Walk.long (m : Stream) (w : Walk) : Walk :=
  let w1 := Walk.idle m 1024 w
  { w1 with now := w1.now + 2 ^ 25 }

/-- The scalar write of a CTL operation of the walk: register, latency, value where the image fixes it (Tables 11-3, 11-4,
12-1). -/
def ctlWrites (m : Stream) (y : Spot) (i : Instr) : Option (Reg6 × Nat × Option DWord) :=
  let g (r : Reg6) : Option DWord := y.known[r]
  let two (f : DWord → DWord → DWord) (a b : Option DWord) : Option DWord :=
    match a, b with
    | some u, some v => some (f u v)
    | _, _ => none
  match i with
  | .ctlLi _ hi sd imm => some (sd, 1, if hi then (g sd).map fun v => liValue true v imm else some (liValue false 0 imm))
  | .ctlAlu _ fn sd sa sb immf imm => some (sd, 1, two (aluFn fn) (g sa) (if immf then some (imm.signExtend 64) else g sb))
  | .ctlMul _ sd sa sb => some (sd, 3, two (· * ·) (g sa) (g sb))
  | .ctlLidx _ sd q => some (sd, 1, match y.loops[q.val]? with
      | some l => if l.left = 0 then none else some (BitVec.ofNat 64 l.iter)
      | none => none)
  | .ctlLinfo _ sd item => some (sd, 2, match item.val with
      | 2 => some (BitVec.ofNat 64 m.die.val)
      | 3 => some (BitVec.ofNat 64 m.k)
      | 4 => some (BitVec.ofNat 64 m.n)
      | _ => none)
  | .ctlColl _ sd _ _ _ => some (sd, 36, none)
  | _ => none

/-- The word's scalar write under way. -/
def Walk.scalar (w : Walk) (m : Stream) (i : Instr) : Walk :=
  match ctlWrites m w.at_ i with
  | some (r, lat, v) => { w with at_ := { w.at_ with pend := w.at_.pend ++ [⟨w.now + lat, w.now, r, v⟩] } }
  | none => w

/-- The places after the word at `w`: a level whose count is unknown may iterate or end (R252, R253). -/
def nexts : List Loop → Nat → List (List Loop × Nat)
  | [], w => [([], w + 1)]
  | l :: ls, w =>
    if w = l.last then
      if l.left = 0 then (l :: ls, l.first) :: nexts ls w
      else if 1 < l.left then [({ l with left := l.left - 1, iter := l.iter + 1 } :: ls, l.first)]
      else nexts ls w
    else [(l :: ls, w + 1)]

/-- The walk `n` cycles on, at a place. -/
def Walk.to (w : Walk) (m : Stream) (n : Nat) (go : List Loop × Nat) : Walk :=
  let w1 := Walk.idle m n w
  { w1 with cyc := w.cyc + n, at_ := { w1.at_ with pc := go.2, loops := go.1 } }

/-! ### Comparing spots -/

/-- A cycle before `now` counts as any other, a later one by its distance. -/
def relTime (now t : Nat) : Nat := t + 1 - now

/-- An array with its times taken from `now` and without data. -/
def relArr (now : Nat) (m : MArray) : MArray :=
  let r := relTime now
  { m with cfgAt := r m.cfgAt, feed := m.feed.map fun e => { e with ready := r e.ready, elems := [], tag := 0 },
           freeing := (m.freeing.filter fun y => decide (now < y)).map r, tagReg := 0,
           bank0 := { m.bank0 with w := [], res := [] }, bank1 := { m.bank1 with w := [], res := [] },
           busyTo := r m.busyTo, winOpen := r m.winOpen, loadEnd := r m.loadEnd,
           ldw := m.ldw.map fun j => { j with start := j.start + 64 - now },
           groups := m.groups.map fun o => o.map fun g =>
             { g with sat := false, limit := 0, rows := g.rows.map fun y => { zeroRow g.fmt (r y.svcAt) with doneAt := r y.doneAt } },
           portTo := r m.portTo, sticky := Sticky.clear 6 0xFFFF 0xF, exits := 0 }

/-- An accumulator with its times taken from `now` and without data. -/
def relAcc (now : Nat) (a : AccQ) : AccQ :=
  { a with q := Quire.zero a.q.fmt, held := relTime now a.held, svcAt := relTime now a.svcAt }

/-- A core with its times taken from `now` and without data. -/
def relCore (now : Nat) (c : Core) : Core :=
  let r := relTime now
  { noData c with
    pend := c.pend.map fun p => { p with ready := r p.ready }
    fresh := []
    mxa := relArr now c.mxa
    mxb := relArr now c.mxb
    mvp := { c.mvp with accs := c.mvp.accs.map (relAcc now), svcTo := r c.mvp.svcTo, sticky := Sticky.clear 6 0xFFFF 0xF, exits := 0 }
    tq := c.tq.map fun e => { e with enter := r e.enter }
    lq := c.lq.map (relAcc now)
    job := c.job.map fun j => { j with start := j.start + 4096 - now, nextAt := r j.nextAt, opIdx := 0 }
    vecTo := r c.vecTo
    vecDone := r c.vecDone
    vecSticky := Sticky.clear 9 0xFFFF 0xFFFFFFFF
    vecOps := 0
    mesh := c.mesh.map r
    injTo := r c.injTo }

/-- A spot with its times taken from `now`: equal ones have the same future. -/
def Spot.rel (now : Nat) (y : Spot) : Spot :=
  let r := relTime now
  { y with core := relCore now y.core, pend := y.pend.map fun p => { p with ready := r p.ready, issued := p.issued + 64 - now },
           mem := { y.mem with nearFree := r y.mem.nearFree, farFree := r y.mem.farFree, done := r y.mem.done,
                               atoms := y.mem.atoms.map fun a => { a with done := r a.done } } }

/-- The spot at the start of the next lap: every unit rests (R257 to R260). What a group's base leaves unknown of its exits goes
on for as long as the base is unknown. -/
def Spot.rest (now : Nat) (y : Spot) : Spot :=
  let z := (commitKnown (now + 2 ^ 25) y).rel (now + 2 ^ 25)
  { z with core := { z.core with tq := [], pend := [], job := none }, mem := ⟨0, 0, 0, 0, 0, []⟩
           hidden := y.hidden.filter fun h => decide (h / 0x10000 ≠ 2) || y.hidden.contains (h - 0x10000) }

/-! ### Paths -/

/-- The checks of LAP.END that are load checks: TQ_LEFT, VEC_LEFT, static requests left (R144, R189, R327). -/
def Walk.lapEnd (w : Walk) (m : Stream) : Walk :=
  let w1 := w.note (.nop m.die) w.at_.pc ((if w.at_.core.tq.isEmpty then [] else [(0x0120, 3, 0, 0)]) ++
    (if vecLeft w.now w.at_.core then [(0x0137, 3, 0, 0)] else []))
  if w.now < w.at_.mem.done then w1.fail 0x5A w.at_.pc else w1

/-- The next lap; a walk that has begun a lap so before ends. -/
def Walk.nextLap (w : Walk) (m : Stream) (go : List Loop × Nat) : Walk :=
  let w1 := Walk.idle m 1024 w
  let y := { w1.at_.rest w1.now with pc := go.2, loops := go.1, page := 2 ^ 24 }
  { w1 with at_ := y, now := 13, cyc := 1, laps := y :: w.laps, forks := [], back := w.laps.contains y }

/-- One word: its operations play, and the walk goes on along every path that the image leaves open (R251, R252, R257, R258,
R262). `stall` makes every CTL.WAIT and every first word of a page that LOAD leaves out wait long; else they wait for
nothing. -/
def Walk.word (w0 : Walk) (m : Stream) (stall : Bool) : Walk × List Walk :=
  let pc := w0.at_.pc
  let cold := decide (pc / 1024 ≠ w0.at_.page) && decide (m.resident ≤ pc / 1024 * 1024)
  let wp := if cold && stall then w0.long m else w0
  let w := { wp with waited := wp.waited || cold, played := pc, at_ := { wp.at_ with page := pc / 1024 } }
  let slots := m.word pc
  let ops := slots.filterMap fun x => slotInstr m.die x.1 x.2
  let wv := if slots.any fun x => decide (x.1 = .vec) && decide (slotOp8 x.2 ≠ 0) then { w with vecPc := pc } else w
  let w1 := ops.foldl (fun w i => w.op m i) wv
  let ls := w.at_.loops
  let on (n : Nat) (l : List (List Loop × Nat)) : List Walk := l.map fun g => w1.to m n g
  match ops.head? with
  | some (.ctlBr _ c sa sb ofs) =>
    let yes := (ls, brTarget pc ofs)
    (match (w.at_.known[sa] : Option DWord), (w.at_.known[sb] : Option DWord) with
     | some u, some v => (w1, on 3 (if brTaken c u v then [yes] else nexts ls pc))
     | _, _ => (w1, on 3 (yes :: nexts ls pc)))
  | some (.ctlJmp _ ofs) => (w1, on 3 [(ls, brTarget pc ofs)])
  | some (.ctlLoop _ src sa n b) =>
    let last := pc + b.toNat + 1
    let count : Option Nat := if src then (w.at_.known[sa] : Option DWord).map fun v => (v.setWidth 32 : Word).toNat else some n.toNat
    (match count with
     | some 0 => (w1, on 3 (nexts ls last))
     | some c => (w1, on 1 [(⟨c, 0, pc + 1, last⟩ :: ls, pc + 1)])
     | none => (w1, on 1 [(⟨0, 0, pc + 1, last⟩ :: ls, pc + 1)] ++ on 3 (nexts ls last)))
  | some (.ctlWait ..) =>
    let w2 := { w1 with waited := true }
    (w2, (nexts ls pc).map fun g => if stall then ((w2.to m 1 g).long m) else w2.to m 1 g)
  | some (.lapEnd _ final) =>
    let w2 := w1.lapEnd m
    (w2, if final then [] else (nexts ls pc).map fun g => (w2.to m 1 g).nextLap m g)
  | some i => let w2 := w1.scalar m i; (w2, (nexts ls pc).map fun g => w2.to m 1 g)
  | none => (w1, on 1 (nexts ls pc))

/-- At most `fuel` words, to where the path ends or more than one goes on: past the end of the stream, or past cycle D of a
lap (R18, R241). -/
def Walk.from (m : Stream) (stall : Bool) : Nat → Walk → Walk × List Walk
  | 0, w => (w, [])
  | n + 1, w =>
    if w.back = true ∨ m.len ≤ w.at_.pc ∨ m.lap - 1025 < w.cyc then (w, [])
    else
      match w.word m stall with
      | (_, [x]) => Walk.from m stall n x
      | r => r

/-- Words that a path takes at most between two places where it divides, and how often it divides at most (log 11). -/
def walkFuel : Nat := 2 ^ 40
def walkForks : Nat := 16

/-- What fails on two paths: a path that only comes back within its lap to where it has been decides nothing. -/
def bothFail (a b : List (Nat × Nat) × Bool) : List (Nat × Nat) × Bool :=
  if a.2 && !b.2 then b
  else if b.2 && !a.2 then a
  else (a.1.filter fun y => b.1.contains y, a.2)

/-- What fails on every path from a walk on, and whether every one of them only comes back to where it has been. Where a path
divides too often, what has failed so far stands. -/
def Walk.fails (m : Stream) (stall : Bool) : Nat → Walk → List (Nat × Nat) × Bool
  | 0, w => ((Walk.from m stall walkFuel w).1.found, false)
  | n + 1, w =>
    match Walk.from m stall walkFuel w with
    | (x, []) => (x.found, false)
    | (x, y :: ys) =>
      let key := x.at_.rel x.now
      if x.forks.contains key then (x.found, true)
      else
        let go (z : Walk) : List (Nat × Nat) × Bool := Walk.fails m stall n { z with forks := if z.cyc = 1 then [] else key :: x.forks }
        ys.foldl (fun r z => bothFail r (go z)) (go y)

/-- The start of a run: the first word issues in cycle 1; the scalars hold run parameters (R19, R272). -/
def Walk.start (m : Stream) : Walk :=
  { at_ := { core := Core.init 1, pc := m.entry, loops := [], known := Vector.replicate 64 none, pend := [], hidden := []
             mem := ⟨0, 0, 0, 0, 0, []⟩, page := 2 ^ 24 }
    now := 13, cyc := 1, found := [], waited := false, played := m.entry, vecPc := m.entry, laps := [], forks := [], back := false }

/-- The checks of the schedule that a stream fails. How long a CTL.WAIT or the load of a page takes is not decided by the
image: what fails counts where it fails both when every such wait is met at once and when every one is long. -/
def scheduleCodes (m : Stream) : List Nat :=
  if m.k < 12 ∨ 24 < m.k then []
  else
    let a := (Walk.fails m false walkForks (Walk.start m)).1
    if a.isEmpty then []
    else
      let b := (Walk.fails m true walkForks (Walk.start m)).1
      ((a.filter fun y => b.contains y).map (·.1)).eraseDups

end Sys2Proof.Machine
end

