-- ==== Sys2Proof/Machine/Loading.lean ====
section
/-! DEFINITION. The program image, its load checks, and loading (R267, R268, R270, R271, R296). What the image does not
decide is left to the run-time causes (log 11). -/
namespace Sys2Proof.Machine

/-! ### The image (Table 11-6) -/

/-- The number in bytes [o, o + n). -/
def numAt (b : List Byte) (o n : Nat) : Nat := leNat ((b.drop o).take n)

/-- Stream entries of a header: length, entry word, resident words. -/
def streamEntries (h : List Byte) : List (Nat × Nat × Nat) :=
  (List.range 16).map fun d => (numAt h (320 + 16 * d) 8, numAt h (328 + 16 * d) 4, numAt h (332 + 16 * d) 4)

/-- Words of every stream. -/
def totalWords (l : List (Nat × Nat × Nat)) : Nat := (l.map (·.1)).foldl (· + ·) 0

/-- The program that an image at `a` holds (R267, R344). -/
def parseProgram (s : State) (a : Nat) : Program :=
  let h := nearBytes s a 1024
  let st := streamEntries h
  { image := a, grade := numAt h 5 1, k := numAt h 6 1, asyncEnergy := numAt h 8 4, egressMax := numAt h 12 4,
    energy := (List.range 32).map fun i => numAt h (64 + 4 * i) 4,
    nearStatic := (List.range 16).map fun i => numAt h (192 + 4 * i) 4,
    farStatic := (List.range 16).map fun i => numAt h (256 + 4 * i) 4, streams := st,
    digest := sha512 (nearBytes s a (1024 + 64 * totalWords st)) }

/-- Check 0x20 of the header at `a` (R267). -/
def headerOk (s : State) (a : Nat) : Bool :=
  let h := nearBytes s a 1024
  let st := streamEntries h
  let zero (o n : Nat) : Bool := ((h.drop o).take n).all (· == 0)
  decide (a + 1024 ≤ 2 ^ 39) && decide (numAt h 0 4 = 0x4C505658) && decide (numAt h 4 1 = 1) &&
    decide (numAt h 5 1 ≤ 1) && zero 7 1 && zero 16 48 && zero 576 448 &&
    (st.all fun e => decide (e.1 ≤ 2 ^ 24) && decide (e.2.2 % 1024 = 0) && decide (e.2.2 ≤ 131072) &&
      decide (e.2.2 ≤ ceilDiv e.1 1024 * 1024) && decide (e.2.1 < e.1) && decide (e.2.1 < e.2.2)) &&
    decide (a + 1024 + 64 * totalWords st ≤ 2 ^ 39)

/-- Stream words of a die of a program. -/
def progLen (p : Program) (d : Nat) : Nat := (nth p.streams d (0, 0, 0)).1

/-- Slot `k` of word `w` of die `d` (R242, R267). -/
def imageSlot (s : State) (p : Program) (d w k : Nat) : Nat :=
  leNat (nearBytes s (p.image + 1024 + 64 * (totalWords (p.streams.take d) + w) + 8 * k) 8)

/-- The slots of a word. -/
def imageWord (s : State) (p : Program) (d w : Nat) : List (Slot8 × Nat) :=
  slots8.mapIdx fun k x => (x, imageSlot s p d w k)

/-- The CTL slot of a word. -/
def imageCtl (s : State) (p : Program) (d w : Nat) : Nat := imageSlot s p d w 0

/-! ### Check 0x23 to 0x27 (Table 11-7) -/

/-- Check 0x23 on one slot: opcode, unlisted bits, predicate select (R243 to R246, R276). -/
def slotListed (k : Slot8) (w : Nat) : Bool :=
  if slotOp8 w = 0 then decide (w = 0)
  else
    match slotFields k (slotOp8 w) with
    | none => false
    | some l => onlyIn l w && (decide (slotPred w = 0) || !(decide (k = .ctl) || structural k (slotOp8 w)))

/-- Check 0x24: a LAP.END word carries NOP elsewhere (R258). -/
def lapEndAlone (l : List (Slot8 × Nat)) : Bool :=
  l.all fun x => decide (x.1 ≠ .ctl) || decide (slotOp8 x.2 ≠ 0x3F) || l.all fun y => decide (y.1 = .ctl) || decide (y.2 = 0)

/-- The loop bodies of a stream: first and last word (R252). -/
def loopBodies (s : State) (p : Program) (d : Nat) : List (Nat × Nat) :=
  (List.range (progLen p d)).filterMap fun w =>
    let c := imageCtl s p d w
    if slotOp8 c = 0x12 then some (w + 1, w + 1 + bitsAt c 0 16) else none

/-- The bodies that hold a word. -/
def bodiesAt (bs : List (Nat × Nat)) (w : Nat) : List (Nat × Nat) := bs.filter fun b => decide (b.1 ≤ w) && decide (w ≤ b.2)

/-- Bodies nest, at most eight deep (R253). -/
def loopsNest (bs : List (Nat × Nat)) : Bool :=
  bs.all fun b =>
    ((bodiesAt bs (b.1 - 1)).all fun o => decide (b.2 ≤ o.2)) && decide ((bodiesAt bs b.1).length ≤ 8)

/-- Check 0x25 on a branch: its target lies in the stream and in the same innermost body (R251, R253). -/
def branchOk (bs : List (Nat × Nat)) (len w c : Nat) : Bool :=
  if slotOp8 c = 0x10 ∨ slotOp8 c = 0x11 then
    let t := brTarget w (fldB 20 c 0)
    decide (t < len) && decide (bodiesAt bs w = bodiesAt bs t)
  else true

/-- Check 0x26: LINFO items, COLL combiners, SIG masks (R249, R250, R255). -/
def ctlNamesOk (c : Nat) : Bool :=
  match slotOp8 c with
  | 0x05 => decide (bitsAt c 0 4 ≤ 7)
  | 0x06 => decide (bitsAt c 8 3 ≤ 4)
  | 0x18 => decide (bitsAt c 0 16 ≠ 0)
  | _ => true

/-- Check 0x27: immediate pages (R263). -/
def pageOk (len w c : Nat) : Bool :=
  if slotOp8 c = 0x20 ∧ !bitAt c 51 then
    decide (bitsAt c 0 14 * 1024 < len) && decide (bitsAt c 0 14 ≠ w / 1024)
  else true

/-! ### Checks on single operations (Tables 5-7 to 10-9) -/

/-- Check 0x31: caps (R55). -/
def capListed (i : Instr) : Bool := match i with | .mxCfg _ _ f cap => capOk f cap | _ => true

/-- Check 0x36: the row range within the format's tile rows (R124, Table 6-1). -/
def rowsListed (i : Instr) : Bool :=
  match i with
  | .mxOpen _ _ n first f _ => decide (first.val + n.toNat ≤ tileRows f)
  | _ => true

/-- Check 0x38 where the descriptor address is fixed (R133). -/
def exitListed (i : Instr) : Bool := match i with | .mxClose _ _ _ exd _ _ => decide (exd.toNat < 1536) | _ => true

/-- Check 0x3C: formats that no accumulator takes (R148). -/
def mvFormats (i : Instr) : Bool :=
  match i with
  | .mvOpen _ f => isPosit f
  | .mvDot _ _ wf xf _ _ _ _ => isPosit wf && isPosit xf
  | .mvCol _ _ wf xf _ _ _ _ => isPosit wf && isPosit xf
  | _ => true

/-- A fixed core store operand aligned and in range. -/
def fixedOk (a : Csa) (align n : Nat) : Bool := a.au || csOk a.off.toNat align n

/-- Check 0x3D: weight blocks, register offsets, accumulators (R149 to R151, R155). -/
def mvAddrs (i : Instr) : Bool :=
  match i with
  | .mvDot _ _ wf xf _ _ e a =>
    let n := mvCount wf xf
    fixedOk a (n * fmtBits wf / 8) (n * fmtBits wf / 8) && decide (e.val % n = 0) && decide (e.val + n ≤ regElems xf)
  | .mvCol _ _ wf xf acc _ k a =>
    fixedOk a (mvCount wf xf * fmtBits wf / 8) (mvCount wf xf * fmtBits wf / 8) && mvColOk wf xf acc k
  | .mvClose _ _ _ _ n acc => decide (acc.val + n.val ≤ 16)
  | _ => true

/-- Check 0x3F where addresses are fixed (R155). -/
def mvExitListed (i : Instr) : Bool :=
  match i with
  | .mvClose _ _ out exd _ _ => decide (out.toNat < 768) && decide (exd.toNat < 1536)
  | _ => true

/-- Checks 0x40 (operations of Table 8-1, reductions) and 0x46 (functions) on formats that the word fixes. -/
def vecFormats (i : Instr) : Bool :=
  match vopOf i, i with
  | some (.fn _, _, _, _), _ => true
  | some (.gate _, _, _, _), _ => true
  | some (o, _, .reg r, _), _ => o.fmtOk r.fmt
  | none, .vRed _ _ (.reg r) a => redFmtOk a r.fmt
  | _, _ => true

def fnFormats (i : Instr) : Bool :=
  match vopOf i with
  | some (.fn g, _, .reg r, _) => (VOp.fn g).fmtOk r.fmt
  | some (.gate g, _, .reg r, _) => (VOp.gate g).fmtOk r.fmt
  | _ => true

/-- Check 0x46: function codes (R190); an element function in register form rounds to nearest (R194). -/
def fnCodeOk (w : Nat) : Bool :=
  if slotOp8 w ≠ 0x18 then true
  else
    let c := vecAux w
    (decide (c ≤ 0xE) && (bitAt w 51 || !bitAt w 48)) || (decide (0x20 ≤ c) && decide (c ≤ 0x22)) ||
      (decide (0x30 ≤ c) && decide (c ≤ 0x35))

/-- Check 0x52 on one word: a fill has `ATT` = 0 (R284). -/
def attListed (i : Instr) : Bool :=
  match i with
  | .mxFill _ _ _ _ att _ => !att
  | .mvFill _ _ _ att _ => !att
  | .vQfill _ _ att _ _ => !att
  | _ => true

/-- Check 0x4D (R227). -/
def tagAddr (i : Instr) : Bool := match i with | .movTag _ _ a => fixedOk a 16 16 | _ => true

/-! ### Checks 0x4E and 0x4F on the VEC slot (R276, R286 to R288) -/

/-- Whether `SP` is used in register form: the operation rounds stochastically. -/
def spUsed (w : Nat) : List (Nat × Nat) := if bitAt w 48 then [(8, 6)] else []

/-- Operand ranges that an operation uses, beside `FORM`, `SCAL`, `RND` and `X`. -/
def vecUsed (w : Nat) : List (Nat × Nat) :=
  let op := slotOp8 w
  let scal := if bitAt w 51 then bitAt w 50 else bitAt w 49
  match op with
  | 0x20 => [(38, 6), (4, 4), (0, 1)]
  | 0x21 => [(44, 4), (16, 16)]
  | 0x22 => [(48, 1), (44, 4), (38, 6), (16, 16)] ++ spUsed w
  | 0x23 => [(50, 1), (16, 16), (0, 16)]
  | 0x24 => [(50, 1), (16, 16), (0, 16)]
  | 0x28 => [(38, 6)]
  | _ =>
    if bitAt w 51 then
      let db : List (Nat × Nat) := if scal then [(17, 6)] else [(17, 11)]
      match op with
      | 0x01 => (39, 11) :: (if scal then [(17, 6)] else [(28, 11)])
      | 0x08 | 0x09 | 0x14 => [(39, 11), (28, 11)]
      | 0x19 => [(39, 11), (28, 11), (11, 6)]
      | 0x1A => [(39, 11), (28, 11), (5, 6)]
      | 0x18 =>
        (match vecAux w with
         | 0x20 | 0x21 | 0x22 => [(39, 11), (28, 11)] ++ db
         | 0x31 | 0x32 | 0x35 => [(39, 11), (28, 11), (5, 6)]
         | 0x33 | 0x34 => [(39, 11), (28, 11), (17, 11), (5, 6)]
         | _ => [(39, 11), (28, 11)]) ++ [(11, 6)]
      | _ => [(39, 11), (28, 11)] ++ db
    else
      let base : List (Nat × Nat) := [(50, 1), (44, 4), (38, 6), (32, 6)]
      match op with
      | 0x01 => [(50, 1), (44, 4), (38, 6)] ++ (if scal then [(26, 6)] else [(32, 6)])
      | 0x05 => base ++ [(26, 6), (20, 4)]
      | 0x06 => [(50, 1), (38, 4), (32, 4), (26, 4), (14, 6)]
      | 0x08 | 0x09 => base
      | 0x0C => [(50, 1), (44, 4), (38, 4), (32, 6), (26, 6), (14, 6)]
      | 0x13 => base ++ [(26, 6), (20, 6)] ++ spUsed w
      | 0x14 => base ++ [(14, 4)] ++ spUsed w
      | 0x18 => base ++ [(14, 6)] ++ (if 0x20 ≤ vecAux w then (26, 6) :: spUsed w else [])
      | 0x19 => base ++ [(14, 6)] ++ spUsed w
      | _ => base ++ [(26, 6)] ++ spUsed w

/-- The bits of `FORM`, `SCAL`, `RND` and `X`, which check 0x4F judges. -/
def vecFormBits (w : Nat) : List (Nat × Nat) :=
  if isLane (slotOp8 w) then [(51, 1)]
  else if bitAt w 51 then [(51, 1), (50, 1), (0, 5)] else [(51, 1), (49, 1), (48, 1), (0, 8)]

/-- Descriptor fields hold 0–1,535, or 0x7FF, which check 0x4F judges (R286). -/
def descListed (w : Nat) : Bool :=
  [39, 28, 17].all fun lo => decide (bitsAt w lo 11 < 1536) || decide (bitsAt w lo 11 = 0x7FF)

/-- `AUX` values of the operations that take one (Table 12-7); function codes are check 0x46's. -/
def auxListed (w : Nat) : Bool :=
  match slotOp8 w with
  | 0x06 => decide (vecAux w ≤ 3)
  | 0x0C => decide (vecAux w ≤ 5)
  | 0x19 => decide (vecAux w ≤ 8) && (bitAt w 51 || (fldF w 0).isSome)
  | 0x14 => bitAt w 51 || (fldF w 14).isSome
  | _ => true

/-- Check 0x4E on a VEC slot. -/
def vecListed (w : Nat) : Bool :=
  let op := slotOp8 w
  if op = 0 then true
  else if isLane op then
    onlyIn (vecUsed w ++ vecFormBits w) w &&
      (match op with
       | 0x20 => decide (bitsAt w 38 6 < 63)
       | 0x21 => (match fldF w 44 with | some f => isPosit f || decide (f = .b32) | none => false) && decide (bitsAt w 16 16 ≠ 0)
       | 0x22 => (fldF w 44).isSome && decide (bitsAt w 16 16 ≠ 0) && decide (bitsAt w 8 6 % 2 = 0)
       | 0x28 => true
       | _ => decide (bitsAt w 16 16 ≠ 0))
  else
    let sp := if bitAt w 51 then bitsAt w 5 6 else bitsAt w 8 6
    let raw := [1, 2, 3, 4, 5].contains op
    onlyIn (vecUsed w ++ vecFormBits w) w && auxListed w && decide (sp % 2 = 0) &&
      (if bitAt w 51 then descListed w
       else decide (op = 6) || (match fldF w 44 with | some f => !raw || decide (fmtBits f ≠ 4) | none => false))

/-- Check 0x4F on a VEC slot: form, `SCAL`, `RND`, `X`, 0x7FF (R286, R287, Table 12-7). -/
def vecFormOk (w : Nat) : Bool :=
  let op := slotOp8 w
  let c := vecAux w
  let desc := bitAt w 51
  let gate := decide (op = 0x18) && decide (0x20 ≤ c) && decide (c ≤ 0x22)
  let scalOk := [1, 2, 3, 4, 0xA, 0xB, 0xC, 0x10, 0x11, 0x12, 0x13].contains op || gate
  let rndOk := [0x10, 0x11, 0x12, 0x13, 0x14].contains op || gate || (decide (op = 0x19) && decide (c ≤ 2))
  if op = 0 then true
  else if isLane op then !desc
  else if desc then
    let dd := bitsAt w 39 11
    let stat := decide (op = 0x18) && (decide (c = 0x31) || decide (c = 0x35))
    let norm := decide (op = 0x18) && (decide (c = 0x33) || decide (c = 0x34))
    !([5, 6, 0xC].contains op) && (!bitAt w 50 || scalOk) &&
      (if op = 0x19 then !bitAt w 4 || decide (c ≤ 1)
       else decide (op = 0x1A) && decide (bitsAt w 4 1 = 0) || decide (bitsAt w 0 5 = 0)) &&
      (if stat then decide (dd = 0x7FF) else decide (dd ≠ 0x7FF)) && decide (bitsAt w 28 11 ≠ 0x7FF) &&
      (norm || decide (bitsAt w 17 11 ≠ 0x7FF))
  else
    decide (op ≠ 0x1A) && !(decide (op = 0x18) && decide (0x30 ≤ c)) && (!bitAt w 49 || scalOk) && (!bitAt w 48 || rndOk) &&
      (if op = 0x19 then decide (bitsAt w 6 2 = 0) && (decide (c ≤ 2) || decide (bitsAt w 0 4 = 0))
       else decide (bitsAt w 0 8 = 0))

/-- The operation with the fields that checks 0x50 and 0x52 judge at values that they admit (R284, R292). -/
def laterFields (i : Instr) : Instr :=
  match i with
  | .mxFill d k p a _ g => .mxFill d k p a false g
  | .mvFill d p a _ m => .mvFill d p a false m
  | .vQfill d p _ m a => .vQfill d p false m a
  | .netSend d p _ w dst a => .netSend d p 0 w dst a
  | _ => i

/-- Check 0x4E on any slot: values listed, and non-zero where required; MEM is check 0x54's. -/
def valuesListed (d : Die) (lv : Nat) (k : Slot8) (w : Nat) : Bool :=
  match k with
  | .vec => vecListed w
  | .mem => true
  | _ =>
    match slotInstr d k w with
    | some i => fieldsOk (laterFields i) && (match i with | .ctlLidx _ _ q => decide (q.val < lv) | _ => true)
    | none => false

/-! ### Checks 0x50 and 0x54 -/

/-- Check 0x50: fixed core store operands (R277, R282, R284, R290 to R292). -/
def fixedAddrs (i : Instr) : Bool :=
  match i with
  | .mxLdw _ _ _ f rows st a =>
    decide (st.toNat % rowBytes f = 0) && fixedOk a (rowBytes f) ((rows.val - 1) * st.toNat + rowBytes f)
  | .mxSpill _ _ _ a _ _ => fixedOk a 8 8
  | .mxFill _ _ _ a _ _ => fixedOk a 8 8
  | .mvSpill _ _ a _ _ => fixedOk a 8 8
  | .mvFill _ _ a _ _ => fixedOk a 8 8
  | .vQspill _ _ _ _ a => csOk a.toNat 8 8
  | .vQfill _ _ _ _ a => csOk a.toNat 8 8
  | .movFeed _ _ _ a => fixedOk a 8 8
  | .movLdv _ _ _ a => fixedOk a 64 64
  | .movStv _ _ _ a => fixedOk a 64 64
  | .movLdp _ _ _ a => fixedOk a 8 8
  | .movStp _ _ _ a => fixedOk a 8 8
  | .movCpy _ _ a b => fixedOk a 64 64 && fixedOk b 64 64
  | .netMesh _ _ _ dst a => fixedOk a 64 64 && csOk dst.toNat 64 64
  | .netSend _ _ ax w dst a => decide (ax.val % 2 = 0) && fixedOk a 4 (4 * (w.toNat + 1)) && csOk dst.toNat 4 (4 * (w.toNat + 1))
  | _ => true

/-- Check 0x54: MEM lengths, counts and formats (Table 12-11, R293). -/
def memListed (d : Die) (w : Nat) : Bool :=
  match slotInstr d .mem w with
  | none => false
  | some i => fieldsOk i &&
    (match i with
     | .memRd _ _ m len => fixedOk m.csa 64 (64 * len.toNat)
     | .memWr _ _ m len => fixedOk m.csa 64 (64 * len.toNat)
     | .memQadd _ _ m f cnt => fixedOk m.csa 8 ((cnt.val + 1) * imgSize f)
     | .memMaxloc _ _ m _ cnt => fixedOk m.csa 8 ((cnt.val + 1) * 8)
     | .memRadd _ _ m f cnt => fixedOk m.csa 8 ((cnt.val + 1) * (fmtBits f / 8))
     | _ => true)

/-! ### The load checks in order (R268) -/

/-- The checks of Table 11-7, in their order. -/
def pathOrder : List Nat := [0x20, 0x21, 0x23, 0x24, 0x25, 0x26, 0x27]

/-- The checks of the tables after it that the image decides, in the order of R268. -/
def unitOrder : List Nat :=
  [0x30, 0x31, 0x32, 0x33, 0x34, 0x35, 0x36, 0x37, 0x38, 0x39, 0x3A, 0x3B, 0x3C, 0x3D, 0x3E, 0x3F, 0x40, 0x42, 0x43, 0x44,
    0x45, 0x46, 0x47, 0x48, 0x4A, 0x4B, 0x4C, 0x4D, 0x4E, 0x4F, 0x50, 0x51, 0x52, 0x53, 0x54, 0x55, 0x57, 0x58, 0x59, 0x5A,
    0x5B]

/-- Whether word `w` of die `d` passes a check; `bs` are the loop bodies of the stream. -/
def wordPasses (s : State) (p : Program) (d : Die) (bs : List (Nat × Nat)) (code w : Nat) : Bool :=
  let l := imageWord s p d w
  let c := imageCtl s p d w
  let ops (f : Instr → Bool) : Bool := l.all fun x => match slotInstr d x.1 x.2 with | some i => f i | none => true
  match code with
  | 0x23 => l.all fun x => slotListed x.1 x.2
  | 0x24 => lapEndAlone l
  | 0x25 => branchOk bs (progLen p d) w c
  | 0x26 => ctlNamesOk c
  | 0x27 => pageOk (progLen p d) w c
  | 0x31 => ops capListed
  | 0x36 => ops rowsListed
  | 0x38 => ops exitListed
  | 0x3C => ops mvFormats
  | 0x3D => ops mvAddrs
  | 0x3F => ops mvExitListed
  | 0x40 => ops vecFormats
  | 0x46 => ops fnFormats && l.all fun x => decide (x.1 ≠ .vec) || fnCodeOk x.2
  | 0x4D => ops tagAddr
  | 0x4E => l.all fun x => valuesListed d (bodiesAt bs w).length x.1 x.2
  | 0x4F => l.all fun x => decide (x.1 ≠ .vec) || vecFormOk x.2
  | 0x50 => ops fixedAddrs
  | 0x52 => ops attListed
  | 0x54 => l.all fun x => decide (x.1 ≠ .mem) || memListed d x.2
  | _ => true

/-- Whether die `d` passes a check. -/
def diePasses (s : State) (p : Program) (d : Die) (code : Nat) : Bool :=
  match code with
  | 0x20 => headerOk s p.image
  | 0x21 => !(decide (p.grade = 0) && s.ident.grade)
  | _ =>
    let bs := loopBodies s p d
    (decide (code ≠ 0x25) || loopsNest bs) && (List.range (progLen p d)).all (wordPasses s p d bs code)

/-- The checks that the schedule of die `d` fails, from its entry word on. -/
def dieSchedule (s : State) (p : Program) (d : Die) : List Nat :=
  let e := nth p.streams d (0, 0, 0)
  scheduleCodes { die := d, k := p.k, n := if p.grade = 0 then 250 else 245, entry := e.2.1, len := e.1, resident := e.2.2,
                  near := nth p.nearStatic d 0, far := nth p.farStatic d 0, word := imageWord s p d }

/-- The first load check that die `d` fails, in the order of R268; 0 if none. The schedule of a stream that fails a check
of Table 11-7 is not walked. -/
def dieLoadCode (s : State) (p : Program) (d : Die) : Byte :=
  match pathOrder.find? fun c => !diePasses s p d c with
  | some c => BitVec.ofNat 8 c
  | none =>
    let l := dieSchedule s p d
    match unitOrder.find? fun c => l.contains c || !diePasses s p d c with
    | some c => BitVec.ofNat 8 c
    | none => 0

/-- `LOAD_CODE` of each die (Table 11-11). -/
def loadCodes (s : State) (p : Program) : List Byte := (List.finRange 16).map (dieLoadCode s p)

/-! ### Loading (R268, R271) -/

/-- The `STATE` field of every die. -/
def setStates (s : State) (v : BitVec 2) : State :=
  forDies (fun x d => x.setDie d { x.die d with regs := { (x.die d).regs with state := v } }) s

/-- The start of a load: the image is read at this cut and checked; the previous program is replaced (R268). -/
def startLoad (s : State) (a : Nat) : State :=
  let p := parseProgram s a
  let cs := loadCodes s p
  let s := touchRange s a (1024 + 64 * totalWords p.streams)
  let s1 : State := { s with run := { s.run with program := none, loadCodes := cs,
                                                 loading := if cs.all (· == 0) then some p else none } }
  forDies (fun x d =>
    let y := x.die d
    let n := if cs.all (· == 0) then (nth p.streams d.val (0, 0, 0)).2.2 else 0
    holdPages (x.setDie d { y with due := n, regs := { y.regs with state := 1, loadDone := false, loadCode := 0 } }) d 0) s1

/-- LOAD_DONE: the load has finished on a die, whose resident words are all taken: its code is reported; its resident pages
are held if every check passed.
With the last die the program is loaded, or every `STATE` reads that there is none (R268, Table 11-10). -/
def execLoadDone (d : Die) (s : State) : Host.Outcome State Fault Refusal :=
  match s.run.loadCodes[d.val]? with
  | none => .next s
  | some c =>
    if (s.die d).regs.loadDone || decide ((s.die d).due ≠ 0) then .next s
    else
      let ok := s.run.loading.isSome
      let x := s.die d
      let s1 := s.setDie d { x with regs := { x.regs with loadDone := true, loadCode := c, state := if ok then 2 else 0 } }
      let s2 := match s.run.loading with
        | some p => holdPages s1 d (nth p.streams d.val (0, 0, 0)).2.2
        | none => s1
      if (List.finRange 16).all fun e => (s2.die e).regs.loadDone then
        .next { s2 with run := { s2.run with program := s.run.loading, loading := none, loadCodes := [] } }
      else .next s2

/-- RESIDENT_RELOAD_DONE: outside a run a die that has taken its resident words holds their pages again (R271). -/
def execResidentReloadDone (d : Die) (s : State) : Host.Outcome State Fault Refusal :=
  if (s.die d).regs.state == 1 && s.run.program.isSome && s.run.loadCodes.isEmpty && s.laps.state == 0 && !inRun s &&
      decide ((s.die d).due = 0) then
    let s1 := reloadPages s d
    .next (s1.setDie d { s1.die d with regs := { (s1.die d).regs with state := 2 } })
  else .next s

end Sys2Proof.Machine
end

