-- ==== Sys2Proof/Machine/Commands.lean ====
section
/-! DEFINITION. Controller commands, admission of a run, replies, and the recovery responder (R12, R32, R36, R40, R46–R48,
R269, R272, R337, R358, R376, R378, R395, R397, R398, R419, R426–R428, R434, R435, R450, R466). -/
namespace Sys2Proof.Machine

/-! ### Replies (Table 18-10) -/

/-- The 64 bytes of a reply; `r` is the reason code of the recovery responder. -/
def replyBytes (code status check token lap lapSt r : Nat) : List Byte :=
  [BitVec.ofNat 8 code, BitVec.ofNat 8 status] ++ leBytes 2 check ++ leBytes 4 token ++ leBytes 8 lap ++ leBytes 4 lapSt ++
    [BitVec.ofNat 8 r] ++ zeros 43

/-- A reply of class `c` queued for the cut that ends this lap (R31, R419). -/
def queueReply (s : State) (p : Fin 16) (c : Nat) (bs : List Byte) : State :=
  { s with net := { s.net with replies := s.net.replies ++ [(p.val, c, bs)] } }

/-- A reply of class `c` that keeps its place in the order of execution: `n` replies stand before it. -/
def replyAt (s : State) (n : Nat) (p : Fin 16) (c : Nat) (bs : List Byte) : State :=
  { s with net := { s.net with replies := s.net.replies.take n ++ (p.val, c, bs) :: s.net.replies.drop n } }

/-- Queueing the reply of a command executed at this cut. -/
def answer (s : State) (req : CmdReq) (code status : Nat) : State :=
  queueReply s req.peer 0 (replyBytes code status 0 req.token.toNat s.laps.moduleLap (lapStatus s) 0)

/-- A reply of the recovery responder: bytes 8–19 are 0 (Table 19-4). -/
def respondReply (s : State) (req : CmdReq) (code status reason : Nat) : State :=
  sendPayload s 0 0 0 0 0 (replyBytes code status 0 req.token.toNat 0 0 reason)

/-! ### Admission (R40, R269, Tables 2-5, 15-6a, 17-7) -/

/-- Bytes [a, a + n) lie in the near tier (R419). -/
def inNear (a n : Nat) : Bool := decide (a + n ≤ 2 ^ 39)

/-- The queues of a queue table (Table 18-5). -/
def parseQueues (s : State) (a : Nat) : List QueueCfg :=
  (List.range (min (leNat (nearBytes s a 2)) 64)).map fun q =>
    let b := nearBytes s (a + 576 + 32 * q) 32
    ⟨numAt b 0 1, numAt b 1 1, numAt b 2 2, numAt b 8 8, numAt b 16 4⟩

/-- The record and descriptor areas of a queue table (Table 18-5). -/
def parseAreas (s : State) (a : Nat) : List DieAreas :=
  (List.range 16).map fun d =>
    let b := nearBytes s (a + 64 + 32 * d) 32
    ⟨numAt b 0 8, numAt b 8 4, numAt b 16 8, numAt b 24 4⟩

/-- `GRID_MODE` as it acts: 0b11, and a period of 0, act as off (Table 2-8, R36). -/
def gridActs (s : State) : BitVec 2 :=
  if s.laps.gridMode == 3 || s.laps.gridPeriod == 0 then 0 else s.laps.gridMode

/-- The header block of the verified side. -/
def verifiedHdr (s : State) : Option Nat := s.split.cfg.map fun k => hdrOf k s.split.verifySide

/-- The configuration that RUN latches (R272, R337, R378, R397). -/
def runCfgOf (s : State) (queues : Nat) (restore : Bool) : RunCfg :=
  let grade := match s.run.program with | some p => p.grade | none => 0
  let h := (if restore then verifiedHdr s else none).map (readHead s)
  { strict := (match h with | some x => bitAt x.mode 0 | none => s.run.strict)
    records := (match h with | some x => bitAt x.mode 1 | none => s.run.records)
    seed := (match h with | some x => BitVec.ofNat 64 x.seed | none => s.run.seed)
    n := if grade = 1 then 245 else 250
    gridMode := s.laps.gridMode
    queues := parseQueues s queues
    areas := parseAreas s queues
    split := if s.split.enable then splitSettings s else none
    restore := restore
    startLap := 0 }

/-- Envelope in watts (R47). -/
def envelopeW (s : State) : Nat := 6000 + 500 * s.pacer.envStep

/-- Declared energy of run lap `i` of a program (R46). -/
def declaredEnergy (p : Program) (i : Nat) : Nat :=
  2000 * 2 ^ p.k / 940 + nth p.energy (min i 31) 0 + p.asyncEnergy

/-- The split header of a restore matches the loaded program (check 0x07). -/
def restoreOk (s : State) (p : Program) : Bool :=
  match verifiedHdr s with
  | some a =>
    let h := nearBytes s a 1024
    s.split.enable && s.split.verified && decide (numAt h 4 1 = 1) && decide (numAt h 5 1 = p.grade) &&
      decide (numAt h 6 1 = p.k) && decide ((h.drop 256).take 64 = p.digest)
  | none => false

/-- Checks 0x10 to 0x16 (Table 2-5), against the budgets and envelope that will be in force for the run. The ramp of 0x16 is
taken from run lap 0 on, in a run restored to a later lap too: no rule names its first lap there (DESIGN CHOICE, log 51). -/
def pacerChecks (s : State) (p : Program) (records : Bool) : List (Nat × Bool) :=
  let L := 2 ^ p.k
  let b (c : Nat) : Nat := vget s.pacer.written c 0 * L / 4096
  let e := (List.range 33).map (declaredEnergy p)
  let env := envelopeW s
  [(0x10, decide (12 ≤ p.k) && decide (p.k ≤ 24)),
   (0x11, !(gridActs s == 2) || decide (L * 10638 ≤ s.laps.gridPeriod.toNat * 10000)),
   (0x12, decide (p.egressMax ≤ b 1)),
   (0x13, (List.range 16).all fun d =>
      decide (nth p.nearStatic d 0 + b 4 + b 6 + (if records then p.egressMax else 0) ≤ 20480 * L / 4096)),
   (0x14, (List.range 16).all fun d => decide (nth p.farStatic d 0 + b 5 ≤ 16384 * L / 4096)),
   (0x15, e.all fun x => decide (x ≤ env * L / 940)),
   (0x16, decide (7520 * nth e 0 0 ≤ 16000 * L + env * L) &&
      (e.zip (e.drop 1)).all fun x => decide (7520 * x.2 ≤ 7520 * x.1 + env * L))]

/-- The admission checks in order, each with whether it passes (R269). -/
def runChecks (s : State) (k : RunCfg) : List (Nat × Bool) :=
  match s.run.program with
  | none => [(0x01, false)]
  | some p =>
    [(0x01, (List.finRange 16).all fun d => (s.die d).regs.state == 2),
     (0x02, !k.records || decide (15 ≤ p.k)),
     (0x03, s.run.wsetValid),
     (0x04, !degraded s),
     (0x05, !s.split.enable || (decide (1 ≤ s.split.interval.toNat) && (splitSettings s).isSome)),
     (0x06, !s.split.draining),
     (0x07, !k.restore || restoreOk s p),
     (0x08, (!s.split.enable || (drainPeer s).isSome) &&
        (!k.records || (List.range 16).any fun q => (peerAt s q).recordRx)),
     (0x09, !s.power.stopPending)] ++ pacerChecks s p k.records

/-- The code of the first check that fails, 0 when none does. -/
def runCode (s : State) (k : RunCfg) : Nat :=
  match (runChecks s k).find? fun c => !c.2 with
  | some c => c.1
  | none => 0

/-! ### Commands outside the recovery responder (Table 18-9) -/

/-- Idle laps: no run, no admission (R31, R32). -/
def idleLaps (s : State) : Bool := s.laps.state == 0 && !inRun s && s.run.admission.isNone

/-- PING. -/
def doPing (s : State) (req : CmdReq) : State := answer s req 0x01 0x00

/-- LOAD (R268, R419); after a RUN of the same cut it is not taken. -/
def doLoad (s : State) (req : CmdReq) (image : Nat) : State :=
  if !idleLaps s || s.run.ranCut then answer s req 0x02 0x01
  else if image % 64 ≠ 0 ∨ 2 ^ 39 ≤ image then answer s req 0x02 0x03
  else
    let s1 := startLoad s image
    answer s1 req 0x02 0x00

/-- RUN (R32, R269, R272, R419): the admission checks; the reply belongs to the end of the admission lap. Only the first RUN
of a cut is taken, whatever its outcome. -/
def doRun (s0 : State) (req : CmdReq) (params queues : Nat) (restore : Bool) : State :=
  let s := { s0 with run := { s0.run with ranCut := true } }
  if !idleLaps s || s0.run.ranCut then answer s req 0x03 0x01
  else if params % 64 ≠ 0 ∨ queues % 64 ≠ 0 ∨ !inNear params 8192 ∨ !inNear queues 2624 then answer s req 0x03 0x03
  else
    let k := runCfgOf s queues restore
    let c := runCode s k
    let s := touchRange (touchRange s params 8192) queues 2624
    let ps := (List.range 16).map fun d =>
      let b := nearBytes s (params + 512 * d) 512
      (List.range 64).map fun i => (BitVec.ofNat 64 (numAt b (8 * i) 8) : DWord)
    let s1 := { s with laps := { s.laps with admitPending := true } }
    let a : Admission := ⟨k, ps, req, BitVec.ofNat 8 c, s.laps.moduleLap, lapStatus s1, s.net.replies.length⟩
    { s1 with run := { s1.run with admission := some a } }

/-- Whether the run in recovery laps will resume: it has splits and Table 17-5 does not end it. -/
def willResume (s : State) : Bool :=
  s.laps.state == 3 && s.faults.recOfRun && inRun s && (recOutcome s).isNone

/-- RESUME (R394). A RESUME executed at the very cut that resumes the run finds it resumed: the request is still noted. -/
def doResume (s : State) (req : CmdReq) : State :=
  if s.laps.state != 3 && s.split.resumeReq then
    answer { s with split := { s.split with resumeReq := false } } req 0x04 0x00
  else if willResume s && !autoResume s then
    answer { s with split := { s.split with resumeReq := true } } req 0x04 0x00
  else answer s req 0x04 0x01

/-- STOP (R395). -/
def doStop (s : State) (req : CmdReq) : State :=
  if (s.laps.state == 1 && inRun s) || willResume s then
    answer { s with split := { s.split with stop := true } } req 0x05 0x00
  else answer s req 0x05 0x01

/-- ATTEST: the reply is followed by the report (R434, R435). -/
def doAttest (s : State) (req : CmdReq) (nonce : BitVec 256) : State :=
  let g := attestReport s (leBytes 32 nonce.toNat)
  queueReply g.2 req.peer 0
    (replyBytes 0x09 0x00 0 req.token.toNat s.laps.moduleLap (lapStatus s) 0 ++ g.1)

/-- RECOVER_COMMIT outside the responder; an unknown code (Table 18-9). -/
def doCommit (s : State) (req : CmdReq) : State := answer s req 0x0A 0x01
def doUnknown (s : State) (req : CmdReq) (code : Nat) : State := answer s req code 0x02

/-! ### The firmware image (R423–R426) -/

/-- What a verified image gives. -/
structure ImageOk where
  slot : Nat
  ver : Nat
  digest : List Byte
  deriving DecidableEq, Repr

/-- The checks of Table 19-3 in order on an image held in `m`: the reason code, or what it gives. The digest is over the
bytes that R424 names. -/
def verifyImage (x : Sec) (m : Mem) (reads : Bool) : Nat ⊕ ImageOk :=
  let h := memRead m 0 1024
  let zero (o n : Nat) : Bool := ((h.drop o).take n).all (· == 0)
  let len := numAt h 16 8
  let slot := numAt h 5 1
  let key := (h.drop 64).take 133
  let ver := numAt h 8 4
  if !reads then .inl 6
  else if numAt h 0 4 ≠ 0x57465658 ∨ numAt h 4 1 ≠ 1 ∨ len % 64 ≠ 0 ∨ len < 64 ∨ 16776192 < len ∨
      !(zero 6 2 && zero 12 4 && zero 24 40 && zero 197 59 && zero 320 64 && zero 516 508) then .inl 1
  else if 2 ≤ slot ∨ vget x.revoked slot true ∨ sha512 key ≠ vget x.slotDigest slot [] then .inl 2
  else if sha512 (memRead m 1024 len) ≠ (h.drop 256).take 64 then .inl 3
  else if !ecdsaVerify (parsePoint key) (sha512 (h.take 384)) (beNat ((h.drop 384).take 66)) (beNat ((h.drop 450).take 66)) then
    .inl 4
  else if ver < x.rollback then .inl 5
  else .inr ⟨slot, ver, sha512 (memRead m 0 (1023 + len))⟩

/-- A certificate area of the flash: a 4-byte length, then the DER; erased bytes read 0 (log 5). -/
def certArea (der : List Byte) (o : Nat) : Byte := nth (leBytes 4 der.length ++ der) o 0

/-- A byte of the serial NOR flash, 32 MiB as Table 19-1 lays them out; none past its end (R422). Each area has one home in
State: the image in `Sec.flash`, the fence lists with their dies, each in 4 KiB of the fence area (log 52), the certificates in
`Sec`. -/
def flashByte (s : State) (a : Nat) : Option Byte :=
  if a < 0x01000000 then some (memGet s.sec.flash a)
  else if a < 0x01010000 then
    let o := a - 0x01000000
    match (s.die (dieOf (o / 4096))).fences[o % 4096 / 2]? with
    | some e => some (BitVec.ofNat 8 (if o % 2 = 0 then e.1 else e.2))
    | none => some 0
  else if a < 0x01011000 then
    let o := a - 0x01010000
    some (if o < 2048 then certArea s.sec.certMfg o else certArea s.sec.certIdent (o - 2048))
  else if a < 0x02000000 then some 0
  else none

/-! ### The recovery responder (R427, R428) -/

/-- RECOVER_COMMIT in the responder: the staged image is checked; programming starts if every check passes (R428). -/
def responderCommit (s : State) (req : CmdReq) (length : Nat) : State :=
  match verifyImage s.sec s.sec.staging true with
  | .inl r => respondReply s req 0x0A 0x05 r
  | .inr _ => { s with sec := { s.sec with commit := some (req, length) } }

/-- FLASH_PROGRAM_DONE: the image area is erased and programmed, read back and checked; status 0x00 and a module reset,
or status 0x05 (R428, R467). -/
def execFlashProgramDone (s : State) : Host.Outcome State Fault Refusal :=
  match (if s.sec.responder then s.sec.commit else none) with
  | none => .next s
  | some (req, n) =>
    let img := memRead s.sec.staging 0 (min n 0x1000000)
    let flash := memWrite (memClear s.sec.flash 0 0x1000000) 0 img
    let s1 := { s with sec := { s.sec with flash := flash, commit := none } }
    match verifyImage s1.sec flash true with
    | .inl r => .next (respondReply s1 req 0x0A 0x05 r)
    | .inr _ => .next (moduleReset (respondReply s1 req 0x0A 0x00 s.sec.reason) 4)

/-- A data-class direct write to the responder's staging buffer (Table 19-4). -/
def stageImage (s : State) (bs : List Byte) : State :=
  let o := leNat (bs.take 8)
  let d := bs.drop 8
  if o % 64 ≠ 0 ∨ d.length % 64 ≠ 0 ∨ 16777216 < o + d.length then s
  else { s with sec := { s.sec with staging := memWrite s.sec.staging o d } }

/-! ### Meanings of the commands -/

/-- A command of the module: at a cut as `f` (R32, R419), in the recovery responder as `g`; a module that is off or booting
takes none (R427, R459). -/
def command (s : State) (f g : State → State) : State :=
  if s.sec.responder then g s else atCut s f

/-- While an image is programmed, the responder discards every frame but PING (R428). -/
def unlessCommit (g : State → State) (s : State) : State := if s.sec.commit.isSome then s else g s

/-- PING (Tables 18-9, 19-4). -/
def execPing (req : CmdReq) (s : State) : Host.Outcome State Fault Refusal :=
  .next (command s (doPing · req) fun s => respondReply s req 0x01 0x00 s.sec.reason)

/-- LOAD. -/
def execLoad (req : CmdReq) (image : DWord) (s : State) : Host.Outcome State Fault Refusal :=
  .next (command s (doLoad · req image.toNat) id)

/-- RUN. -/
def execRun (req : CmdReq) (params queues : DWord) (restore : Bool) (s : State) : Host.Outcome State Fault Refusal :=
  .next (command s (doRun · req params.toNat queues.toNat restore) id)

/-- RESUME. -/
def execResume (req : CmdReq) (s : State) : Host.Outcome State Fault Refusal := .next (command s (doResume · req) id)

/-- STOP. -/
def execStop (req : CmdReq) (s : State) : Host.Outcome State Fault Refusal := .next (command s (doStop · req) id)

/-- RESET: a module reset, with no reply (R466, R467). -/
def execReset (_req : CmdReq) (s : State) : Host.Outcome State Fault Refusal :=
  .next (command s (moduleReset · 2) (unlessCommit (moduleReset · 2)))

/-- ATTEST. -/
def execAttest (req : CmdReq) (nonce : BitVec 256) (s : State) : Host.Outcome State Fault Refusal :=
  .next (command s (doAttest · req nonce) id)

/-- RECOVER_COMMIT. -/
def execRecoverCommit (req : CmdReq) (length : DWord) (s : State) : Host.Outcome State Fault Refusal :=
  .next (command s (doCommit · req) (unlessCommit fun s => responderCommit s req length.toNat))

/-- UNKNOWN_COMMAND: status 0x02; the codes of Table 18-9 are not unknown. -/
def execUnknownCommand (req : CmdReq) (code : Byte) (s : State) : Host.Outcome State Fault Refusal :=
  if listedCommands.contains code.toNat then .refused .reserved
  else .next (command s (doUnknown · req code.toNat) id)

end Sys2Proof.Machine
end

