-- ==== Sys2Proof/Machine/Transport.lean ====
section
/-! DEFINITION. Data, direct-write, command and management frames: taking them, and executing what they hold at a cut
(R21, R43, R44, R410–R415, R419, R420, R427, R462–R465). -/
namespace Sys2Proof.Machine

/-! ### Data frames (R410, R412, R415) -/

/-- A frame that is taken and then discarded, with its event bit (R415). -/
def takeDrop (s : State) (b : Nat) : State × Bool := (rxDrop (netEvent s b), true)

/-- A frame over the ingress budget (R43). -/
def overBudget (s : State) : State × Bool := (pacerEvent s 1, false)

/-- Charging ingress units. -/
def chargeIngress (s : State) (p : Fin 16) (n : Nat) : State :=
  let x := s.net.peers[p]
  let s1 := s.setPeer p { x with consumed := x.consumed + n }
  { s1 with pacer := { s1.pacer with usedNow := vset s1.pacer.usedNow 0 (vget s1.pacer.usedNow 0 0 + n) } }

/-- Whether units fit the ingress budget left in the lap. -/
def ingressFits (s : State) (n : Nat) : Bool := decide (vget s.pacer.usedNow 0 0 + n ≤ lapBudget s 0)

/-- Bytes that a payload takes in a staging half (R412). -/
def stageLen (n : Nat) : Nat := ceilDiv n 64 * 64

/-- Whether a payload of `n` bytes fits staging half and record half of its queue for the lap that presents it. -/
def stageFits (s : State) (r : RunCfg) (k : QueueCfg) (q lap n : Nat) : Bool :=
  let mine := s.net.ingress.filter fun x => decide (x.lap = lap) && decide (x.queue = q)
  let used := (mine.map fun x => stageLen x.bytes.length).foldl (· + ·) 0
  let die (x : Ingress) : Nat := match r.queues[x.queue]? with | some y => y.die | none => 16
  let recs := (s.net.ingress.filter fun x => decide (x.lap = lap) && decide (die x = k.die)).length
  let half := match r.areas[k.die]? with | some a => a.recHalf | none => 0
  decide (used + stageLen n ≤ k.half) && decide (recs + 1 ≤ half)

/-- The sequence number of a frame, counted without wrapping. -/
def seqNo (s : State) (p c : Nat) (f : Frame) : Nat :=
  match seqAct (seqOf s p c) f.seq.toNat with
  | .take n => n
  | _ => f.seq.toNat

/-- Taking a data payload: the run's queues, space, budget (R43, R410–R412, R415). -/
def takeData (f : Frame) (s : State) (p : Fin 16) : State × Bool :=
  let q := f.queue.toNat
  let units := ceilDiv f.payload.length 64
  if s.laps.state = 3 then overBudget s
  else
    match (if runLapOpen s then s.run.run else none) with
    | none => takeDrop s 4
    | some r =>
      match r.queues[q]? with
      | none => takeDrop s 4
      | some k =>
        if k.dir ≠ 1 ∨ (k.peer ≠ 0xFFFF ∧ k.peer ≠ p.val) then takeDrop s 4
        else
          let b := s.laps.runLap + 1
          let lap := if k.peer = 0xFFFF ∧ r.strict then b + 1 else b
          if !stageFits s r k q lap f.payload.length then (netEvent s 2, false)
          else if !ingressFits s units then overBudget s
          else
            let x : Ingress :=
              ⟨b, lap, q, bitAt f.flags.toNat 0, f.sender.toNat, seqNo s p 1 f, s.net.order, f.aux.toNat, f.payload⟩
            let s1 := chargeIngress s p units
            ({ s1 with net := { s1.net with ingress := s1.net.ingress ++ [x], order := s1.net.order + 1 } }, true)

/-- DATA_FRAME (R412). -/
def execDataFrame (f : Frame) (s : State) : Host.Outcome State Fault Refusal := .next (receive s f 2 0 (takeData f))

/-! ### Direct writes (R271, R414, R415) -/

/-- Unloading the program after a direct write into its image (R271). -/
def unloadIf (s : State) (a n : Nat) : State :=
  match imageRange s with
  | some r => if rangesMeet a n r.1 r.2 then setStates { s with run := { s.run with program := none } } 0 else s
  | none => s

/-- The bytes of a direct write. R264 and R381 apply to it: what a run protects is not written (R414). -/
def directWrite (s : State) (a : Nat) (bs : List Byte) : State :=
  match writeCause s a bs.length false with
  | some c => raiseHub s c
  | none => devWrite s a bs

/-- Taking a direct write (R43, R414, R415); in a recovery lap the grants are of no units (R390). -/
def takeDirect (f : Frame) (s : State) (p : Fin 16) : State × Bool :=
  let a := leNat (f.payload.take 8)
  let bs := f.payload.drop 8
  let n := bs.length
  if inRun s then takeDrop s 5
  else if s.laps.state = 3 then overBudget s
  else if f.payload.length < 8 ∨ a % 64 ≠ 0 ∨ n % 64 ≠ 0 ∨ 9088 < n ∨ !devRange a (max n 1) then takeDrop s 6
  else if !ingressFits s (n / 64) then overBudget s
  else (directWrite (unloadIf (chargeIngress s p (n / 64)) a n) a bs, true)

/-- DIRECT_WRITE (R414). -/
def execDirectWrite (f : Frame) (s : State) : Host.Outcome State Fault Refusal := .next (receive s f 2 3 (takeDirect f))

/-! ### The recovery responder's frames (R427) -/

/-- The responder's own checks and sequencing: the state, and whether the frame is accepted. -/
def respAccept (s : State) (f : Frame) (c : Nat) : State × Bool :=
  if !(f.ver == 1) || decide (f.len.toNat ≠ f.payload.length) || !f.toLinkLocal || decide (9136 < f.payload.length) then (s, false)
  else
    let s1 := if (peerAt s 0).open_ then bindPeer s 0 f else s
    let x := peerAt s1 0
    if !(decide (x.addr = f.srcAddr) && decide (x.port = f.srcPort) && decide (x.sender = f.sender)) then (s, false)
    else
      match seqAct (seqOf s1 0 c) f.seq.toNat with
      | .take n =>
        let s2 := takeAck (seqTake s1 0 c n) 0 c f.ack.toNat f.sack.toNat
        ({ s2 with net := { s2.net with firstMac := f.srcMac } }, true)
      | .again => (seqAgain s1 0 c, false)
      | .discard => (s, false)

/-- RECOVERY_DIRECT_WRITE (Table 19-4). -/
def execRecoveryDirectWrite (f : Frame) (s : State) : Host.Outcome State Fault Refusal :=
  if !s.sec.responder || !(f.cls == 2) || !(f.type == 3) || s.sec.commit.isSome then .next s
  else
    let r := respAccept s f 1
    .next (if r.2 then stageImage r.1 f.payload else r.1)

/-- A command frame in the responder: PING, RECOVER_COMMIT and RESET, executed when accepted (R427, R428). -/
def respCommand (s : State) (f : Frame) : State :=
  let code := (nth f.payload 0 0).toNat
  let busy := s.sec.commit.isSome
  if f.payload.length ≠ 64 ∨ !(f.type == 0) ∨ !([0x01, 0x06, 0x0A].contains code) ∨ (busy ∧ code ≠ 1) then s
  else
    let r := respAccept s f 0
    let req : CmdReq := ⟨0, BitVec.ofNat 32 (numAt f.payload 4 4)⟩
    if !r.2 then r.1
    else if code = 1 then respondReply r.1 req 0x01 0x00 r.1.sec.reason
    else if code = 6 then moduleReset r.1 2
    else responderCommit r.1 req (numAt f.payload 8 8)

/-! ### Command frames (R415, R419) -/

/-- Taking a command payload: it waits for the cut. -/
def takeCommand (f : Frame) (s : State) (p : Fin 16) : State × Bool :=
  if f.payload.length ≠ 64 then takeDrop s 7
  else
    let b : BoundCmd := ⟨f.sender.toNat, seqNo s p 0 f, p, f.payload⟩
    ({ s with net := { s.net with cmds := s.net.cmds ++ [b] } }, true)

/-- COMMAND_FRAME (R419, R427). -/
def execCommandFrame (f : Frame) (s : State) : Host.Outcome State Fault Refusal :=
  if s.sec.responder then .next (if f.cls == 1 then respCommand s f else s) else .next (receive s f 1 0 (takeCommand f))

/-- The commands of a cut in the order of R419. -/
def cmdOrder (l : List BoundCmd) : List BoundCmd :=
  sortBy (fun a b => decide (a.sender < b.sender) || (decide (a.sender = b.sender) && decide (a.seq ≤ b.seq))) l

/-- One command of a cut. -/
def doCommand (s : State) (b : BoundCmd) : State :=
  let req : CmdReq := ⟨b.peer, BitVec.ofNat 32 (numAt b.payload 4 4)⟩
  let n := numAt b.payload
  match n 0 1 with
  | 0x01 => doPing s req
  | 0x02 => doLoad s req (n 8 8)
  | 0x03 => doRun s req (n 8 8) (n 16 8) (bitAt (n 24 1) 0)
  | 0x04 => doResume s req
  | 0x05 => doStop s req
  | 0x09 => doAttest s req (BitVec.ofNat 256 (n 8 32))
  | 0x0A => doCommit s req
  | c => doUnknown s req c

/-- The commands of a cut up to a RESET: the state, and whether a RESET was executed (R466). -/
def doCommands : List BoundCmd → State → State × Bool
  | [], s => (s, false)
  | b :: l, s => if numAt b.payload 0 1 = 6 then (s, true) else doCommands l (doCommand s b)

/-! ### Management frames (R44, R415, R420, R462–R465) -/

/-- The operations of a payload: address and value. -/
def mgmtOps (bs : List Byte) : List (Nat × Nat) :=
  (List.range (bs.length / 8)).map fun i => (numAt bs (8 * i) 4, numAt bs (8 * i + 4) 4)

/-- Taking a management payload: it waits for the cut. -/
def takeMgmt (f : Frame) (s : State) (p : Fin 16) : State × Bool :=
  let n := f.payload.length
  if n = 0 ∨ n % 8 ≠ 0 ∨ 1024 < n then takeDrop s 7
  else
    let b : BoundMgmt := ⟨s.laps.moduleLap + 1, p, mgmtOps f.payload, []⟩
    ({ s with net := { s.net with mgmt := s.net.mgmt ++ [b] } }, true)

/-- MANAGEMENT_FRAME (R420). -/
def execManagementFrame (f : Frame) (s : State) : Host.Outcome State Fault Refusal := .next (receive s f 3 0 (takeMgmt f))

/-- The echo of an operation: bit 1 marks an address that maps no register (R420). -/
def mgmtEcho (a v : Nat) (mapped : Bool) : List Byte := leBytes 4 (if mapped then a else a ||| 2) ++ leBytes 4 v

/-- One operation: the state and its echo; none for a read that finds no budget left (R44, R420). -/
def mgmtOp (s : State) (p : Fin 16) (o : Nat × Nat) : Option (State × List Byte) :=
  let a := o.1
  let ra := a / 4 * 4
  if bitAt a 0 then
    match (if bitAt a 1 then none else ctlWrite s p ra o.2) with
    | some s1 => some (s1, mgmtEcho a o.2 true)
    | none => some (s, mgmtEcho a o.2 false)
  else
    let used := vget s.pacer.usedNow 3 0
    if lapBudget s 3 ≤ used then none
    else
      let s1 := { s with pacer := { s.pacer with usedNow := vset s.pacer.usedNow 3 (used + 1) } }
      match (if bitAt a 1 then none else ctlRead s ra) with
      | some v => some (s1, mgmtEcho a v true)
      | none => some (s1, mgmtEcho a 0 false)

/-- The operations of one frame until one is deferred: the state, the operations left, the reply so far. -/
def mgmtRun (p : Fin 16) : List (Nat × Nat) → List Byte → State → State × List (Nat × Nat) × List Byte
  | [], r, s => (s, [], r)
  | o :: l, r, s =>
    match mgmtOp s p o with
    | some x => mgmtRun p l (r ++ x.2) x.1
    | none => (pacerEvent s 2, o :: l, r)

/-- The frames of a cut in the order in which they were accepted; one deferred holds back every later one. -/
def mgmtFrames : List BoundMgmt → State → State × List BoundMgmt
  | [], s => (s, [])
  | b :: l, s =>
    if s.laps.moduleLap < b.lap then (s, b :: l)
    else
      let r := mgmtRun b.peer b.todo b.done s
      if r.2.1.isEmpty then mgmtFrames l (queueReply r.1 b.peer 2 r.2.2) else (r.1, ⟨b.lap, b.peer, r.2.1, r.2.2⟩ :: l)

/-- The management frames that are bound to this lap or were deferred from an earlier one. -/
def doMgmt (s : State) : State :=
  let r := mgmtFrames s.net.mgmt s
  { r.1 with net := { r.1.net with mgmt := r.2 } }

/-- MGMT_READ_DEFERRED: reads deferred from an earlier cut are answered at a cut whose budget allows it (R44). -/
def execMgmtReadDeferred (s : State) : Host.Outcome State Fault Refusal :=
  .next (if portOn s && decide (s.laps.cyc = 0) then doMgmt s else s)

end Sys2Proof.Machine
end

