-- ==== Sys2Proof/Machine/Laps.lean ====
section
/-! DEFINITION. The close of a lap and the cut: overrun, early close, verdict, commit, the end and the start of runs,
recovery laps, staging and credits (chapter 2, R33, R271–R273, R340, R341, R352, R357, R362, R367, R368, R390–R397, R411,
R413, R449). -/
namespace Sys2Proof.Machine

/-! ### Overrun and early close (R24, R26) -/

/-- Whether a die has executed LAP.END by the last cycle of the body (R23, R259). -/
def endedInTime (s : State) (d : Die) : Bool :=
  match (s.die d).seq.endCyc with
  | some e => decide (e ≤ lapD s)
  | none => false

/-- OVERRUN on every die that has not executed LAP.END (R24, R365). -/
def overrunDies (s : State) : State :=
  forDies (fun x d => if endedInTime s d then x else raiseDie x d 0x0100 6 0) s

/-- LAP_OVERRUN, in cycle D + 1 (R24). Sequencers that a record has already stopped do not overrun (log 24). -/
def execLapOverrun (s : State) : Host.Outcome State Fault Refusal :=
  if runLapOpen s && decide (s.laps.cyc = lapD s + 1) && !s.laps.stopIssue &&
      !((List.finRange 16).all (endedInTime s)) then
    let s1 := overrunDies s
    .next { s1 with laps := { s1.laps with overrunCount := satAdd32 s1.laps.overrunCount 1, stopIssue := true } }
  else .next s

/-- The latest cycle in which a die executed LAP.END, when every die has (R26). -/
def lastEnd (s : State) : Option Nat :=
  (List.finRange 16).foldl (fun a d =>
    match a, (s.die d).seq.endCyc with
    | some x, some e => some (max x e)
    | _, _ => none) (some 0)

/-- Declared energy of the current lap in µJ (R46): of an idle, recovery or closing lap, the base charge. -/
def declaredNow (s : State) : Nat :=
  match s.run.program with
  | some p => if runLapOpen s then declaredEnergy p s.laps.runLap else 2000 * 2 ^ s.laps.curK / 940
  | none => 2000 * 2 ^ s.laps.curK / 940

/-- t_E of R26, with the envelope in force. -/
def energyCycle (s : State) : Nat := ceilDiv (declaredNow s * 940) (6000 + 500 * s.pacer.envActive)

/-- First cycle of the close phase of a lap that would close early, given the latest LAP.END (R26). -/
def earlyStart (s : State) (r : RunCfg) (e : Nat) : Nat :=
  max (max (e + 1) (energyCycle s - 1024)) (if r.records then 31744 else 0)

/-- EARLY_CLOSE: the close phase starts in this cycle, and the lap ends 1,024 cycles later (R26). -/
def execEarlyClose (s : State) : Host.Outcome State Fault Refusal :=
  match (if runLapOpen s then s.run.run else none), lastEnd s with
  | some r, some e =>
    let c := earlyStart s r e
    if !r.strict && !s.laps.closed && !s.laps.early && decide (s.laps.cyc = c) &&
        decide (c + 1024 < 2 ^ s.laps.curK) then
      let s1 := addTdc s 0 1
      .next { s1 with laps := { s1.laps with len := c + 1024, early := true
                                             earlyCount := satAdd32 s1.laps.earlyCount 1 } }
    else .next s
  | _, _ => .next s

/-! ### The verdict (R27, R347, R350, R362, R382) -/

/-- The accumulators of an array that the scrub of this lap checks (R362): tile rows of one parity; a saturated integer
group is exempt (R129). -/
def scrubArray (par : Nat) (m : MArray) (u : Nat) : List Raise :=
  (List.finRange 8).flatMap fun g =>
    match m.groups[g] with
    | some x =>
      if x.fmt = .i8 ∧ x.sat then []
      else
        (x.rows.mapIdx fun i r =>
          if (x.first + i) % 2 = par then
            (r.accs.mapIdx fun j q =>
              if q.resOk then [] else [(0x0004, u, mxDetail g (x.first + i) + 1024 * j, 0)]).flatten
          else []).flatten
    | none => []

/-- What the scrub of R362 finds on a core. -/
def scrubCore (par : Nat) (c : Core) : List Raise :=
  ((List.finRange 16).filterMap fun i => if (c.lq[i]).q.resOk then none else some (0x0004, 3, i.val + 16, 0)) ++
    ((List.finRange 16).filterMap fun i => if (c.mvp.accs[i]).q.resOk then none else some (0x0004, 2, i.val, 0)) ++
    scrubArray par c.mxa 0 ++ scrubArray par c.mxb 1

/-- The scrub over every core of the module. -/
def scrub (s : State) : State :=
  forDies (fun x d => ((x.die d).cores.mapIdx fun i c => (i, c)).foldl (fun x y =>
    (scrubCore (s.laps.moduleLap % 2) y.2).foldl (fun x r => coreFault x d y.1 r.1 r.2.1 r.2.2.1 r.2.2.2) x) x) s

/-- SLOT_OVER: more than 4,096 open slots (R347). -/
def judgeSlots (s : State) : State :=
  if runLapOpen s && decide (4096 < (slotWalk s s.laps.runLap (walkStart s)).most) then raiseHub s 0x0170 else s

/-- The leaves of the lap; more than 1,024 in a lap of a run is RECORD_OVER (R350). -/
def judgeLeaves (s : State) : State :=
  let l := if runLapOpen s || s.mladar.closingLap then lapLeaves s else []
  let s1 := { s with mladar := { s.mladar with leaves := l } }
  if runLapOpen s && decide (1024 < l.length) then raiseHub s1 0x0171 else s1

/-- LAP_VERDICT, in close-phase cycles 256–767 (Table 2-2). -/
def execLapVerdict (s : State) : Host.Outcome State Fault Refusal :=
  if s.laps.closed && s.laps.verdict.isNone && decide (closeStart s + 256 ≤ s.laps.cyc) &&
      decide (s.laps.cyc < closeStart s + 768) then
    let s1 := judgeLeaves (judgeSlots (judgeStep (scrub s)))
    .next { s1 with laps := { s1.laps with verdict := some (!s1.laps.lapFault) } }
  else .next s

/-! ### Commit and abort (R27, R30, R238, R341) -/

/-- Counts of the lap of every core of the module. -/
def sumCores (s : State) (f : Core → Nat) : Nat :=
  ((List.finRange 16).map fun d => ((s.die d).cores.map f).foldl (· + ·) 0).foldl (· + ·) 0

/-- What the timing-dependent choices and quantisation counters of a committed lap add (R238, R341). -/
def commitCounts (s : State) : State :=
  { s with run := { s.run with
      tdc := s.run.tdc + s.run.tdcNow, tdcKinds := s.run.tdcKinds ||| s.run.kindsNow,
      degen := satAdd32 s.run.degen (sumCores s (·.degen))
      fallback := satAdd32 s.run.fallback (sumCores s (·.fallback)) } }

/-- Releasing the records and the seal of a committed lap; after a run start or a restore, certificates and report come
first (R354, R355, R357, R435). -/
def releaseRecords (s : State) : State :=
  match s.mladar.sealNow with
  | none => s
  | some b =>
    let l := s.mladar.leaves
    let c := if s.mladar.certsDue then certFrames s else ([], s)
    let s1 := queueRecords c.2 (c.1 ++ (List.range l.length).map (recordFrame l) ++ [b])
    { s1 with
      mladar := { s1.mladar with prev := sha512 b, events := 0, certsDue := false, sealNow := none }
      run := { s1.run with restores := s1.mladar.restores } }

/-- The slots left for further closing laps after one commits (R352). -/
def closeSlots (s : State) : State :=
  { s with mladar := { s.mladar with
      ended := ((slotsDue s).drop 1024).map fun x => { x with outBytes := slotOut s x }
      toDigest := [], closingAborts := 0 } }

/-- A lap that commits: its egress, records and seal are released, its counts taken, the ingress that it presented
dropped (R27, R341, R350). -/
def passLap (s : State) : State :=
  let s1 := commitCounts s
  let s2 := if runLapOpen s then releaseEgress s1 else s1
  let s3 := releaseRecords s2
  let s4 := if runLapOpen s then commitSlots s3 else if s.mladar.closingLap then closeSlots s3 else s3
  { s4 with net := { s4.net with egress := [], ingress := s4.net.ingress.filter fun x => !runLapOpen s || decide (s.laps.runLap < x.lap) } }

/-- A frame that was loading its page holds none after an abort (R263). -/
def dropLoading : PFrame → PFrame
  | .loading _ _ _ => .none
  | f => f

/-- What an abort discards on a die: requests, page loads and work in flight (R30, R263). -/
def abortDie (s : State) (d : Die) : State :=
  let x := s.die d
  s.setDie d { x with
    memQ := [], near := { x.near with atoms := [] }, far := { x.far with atoms := [] },
    seq := { x.seq with frames := x.seq.frames.map dropLoading, pageQ := [] } }

/-- A lap that is aborted: egress, records, seal and queued requests are discarded; staged ingress is kept (R30, R145,
R351). -/
def abortLap (s : State) : State :=
  let s1 := forDies abortDie (settleAtoms s)
  { s1 with
    laps := { s1.laps with abortCount := satAdd32 s1.laps.abortCount 1 }
    fabric := { s1.fabric with data := [], sends := [], signals := [] }
    net := { s1.net with egress := [] }
    split := { s1.split with atBoundary := false }
    mladar := { s1.mladar with
      sealNow := none, leaves := [], toDigest := s1.mladar.toDigest.map fun e => { e with got := [] }
      closingAborts := if s1.mladar.closingLap then s1.mladar.closingAborts + 1 else s1.mladar.closingAborts } }

/-! ### Registers of the last completed lap (R46, R50, R273, R275) -/

/-- The first flag of a core's sticky records for summary flag `f`: unit, index, position (R273). -/
def coreFlag (c : Core) (f : Nat) : Option (Nat × Nat × Nat) :=
  let look (k : Sticky) (u i : Nat) : Option (Nat × Nat × Nat) :=
    if nth k.flag i false then some (u, k.index i, nth k.pos i 0) else none
  if f < 9 then look c.vecSticky 3 f
  else (look c.mxa.sticky 0 (f - 9)).or ((look c.mxb.sticky 1 (f - 9)).or (look c.mvp.sticky 2 (f - 9)))

/-- The first core of a die, in ascending logical address, that raised a summary flag. -/
def firstFlagCore (f : Nat) : List Core → Nat → Option (Nat × Nat × Nat × Nat)
  | [], _ => none
  | c :: l, i => match coreFlag c f with
    | some x => some (i, x)
    | none => firstFlagCore f l (i + 1)

/-- The summary of a die: flags and entries (R273, Table 11-12). -/
def dieSummary (s : State) (d : Die) : List Bool × List FlagEntry :=
  let r := (List.range 15).map fun f => firstFlagCore f (s.die d).cores 0
  (r.map (·.isSome), r.map fun x => match x with
    | some y => ⟨coreAddr (sideN s) d y.1, y.2.2.1, y.2.1, y.2.2.2⟩
    | none => FlagEntry.none_)

/-- The entry of summary flag `f` of the module in the last completed lap: the die entry with the lowest logical core address
(R274). A die on which no core raised the flag has none. -/
def moduleEntry (s : State) (f : Nat) : FlagEntry :=
  ((List.finRange 16).map fun d => nth (s.die d).regs.entries f FlagEntry.none_).foldl
    (fun a e => if e.core < a.core then e else a) FlagEntry.none_

/-- The module summary of the last completed lap: each flag is the OR over the 16 dies, with its entry (R274). -/
def moduleSummary (s : State) : List Bool × List FlagEntry :=
  ((List.range 15).map fun f => (List.finRange 16).any fun d => nth (s.die d).regs.flags f false,
   (List.range 15).map (moduleEntry s))

/-- A die's registers of the last completed lap (Tables 11-8 to 11-12): the summary of every lap (R273), and the
sequencer's counts of a lap in which it ran (log 33). -/
def lapDieRegs (s : State) (d : Die) : State :=
  let x := s.die d
  let y := dieSummary s d
  let r : DieRegs := { x.regs with flags := y.1, entries := y.2 }
  let n : DieRegs := { r with
    endCycle := if endedInTime s d then BitVec.ofNat 32 (x.seq.endCyc.getD 0) else 0xFFFFFFFF
    stallCycles := BitVec.ofNat 32 x.seq.stalls, wordCount := BitVec.ofNat 32 x.seq.words }
  s.setDie d { x with regs := if runLapOpen s then n else r }

/-- The largest count of a die. -/
def maxDies (s : State) (f : DieSt → Nat) : Nat := ((List.finRange 16).map fun d => f (s.die d)).foldl max 0

/-- Counted energy of the lap that ends (R46): a lap that closed early takes the base charge of the cycles it lasted. -/
def countedNow (s : State) : Nat :=
  2000 * s.laps.len / 940 + ((List.finRange 16).map fun d => (s.die d).seq.energy).foldl (· + ·) 0 + s.pacer.asyncEnergy

/-- The pacer's registers of the last completed lap (Tables 2-7, 2-11). -/
def lapRegs (s : State) : State :=
  let s1 := forDies lapDieRegs s
  let u (c : Nat) : Nat := vget s.pacer.usedNow c 0
  { s1 with
    laps := { s1.laps with lastAborted := s.laps.lapFault }
    pacer := { s1.pacer with
      declared := declaredNow s, counted := countedNow s
      used := #v[u 0, u 1, u 2, u 3, maxDies s (·.near.asyncUsed), maxDies s (·.far.asyncUsed), maxDies s (·.seq.pageUsed)] } }

/-- What the end of a lap does, once: its registers, then commit or abort. -/
def commitLap (s : State) : State :=
  if s.laps.committed then s
  else
    let s0 := lapRegs s
    let s1 := if s.laps.lapFault then abortLap s0 else passLap s0
    { s1 with laps := { s1.laps with committed := true } }

/-! ### The end of a run (R33, R271, R352, R395) -/

/-- Whether a stop falls due: a condition that the cut cycle itself detects acts from the following cut (R395, R449). -/
def stopDue (s : State) : Bool := (s.split.stop || s.power.stopPending) && decide (s.power.stopAt < s.laps.now)

/-- Whether every die has executed its final LAP.END (R259). -/
def allFinal (s : State) : Bool := (List.finRange 16).all fun d => (s.die d).seq.ended && (s.die d).seq.final

/-- Whether the run ends at the close of this lap (R33). -/
def runEnds (s : State) : Bool :=
  allFinal s && ((List.finRange 16).all fun d => (s.die d).memQ.isEmpty && (s.die d).seq.pageQ.isEmpty) &&
    (match s.run.run with | some r => !r.records || s.mladar.toDigest.isEmpty | none => true)

/-- `n` rows of a grid of side `m`: each from the program's part of it and from the positions that R12 leaves idle. -/
def joinRows (n m : Nat) : Nat → List Core → List Core → List Core
  | 0, _, rest => rest
  | k + 1, cs, rest => cs.take n ++ rest.take (m - n) ++ joinRows n m k (cs.drop n) (rest.drop (m - n))

/-- The positions that a program of side `n` leaves idle on a die of side `m`, of a grid of cores by rows (R12). -/
def idleCores (n m : Nat) (cs : List Core) : List Core :=
  ((List.range (m * m)).zip cs).filterMap fun y => if n ≤ y.1 % m ∨ n ≤ y.1 / m then some y.2 else none

/-- The cores of a die's whole grid, by rows: after a run of a smaller program too (R12, R369). -/
def wholeGrid (n m : Nat) (x : DieSt) : DieSt :=
  if n < m then { x with cores := joinRows n m n x.cores x.rest, rest := [] } else x

/-- A die after a run: it reloads its resident pages; nothing of the run is left in its queues (R271). -/
def idleDie (s : State) (d : Die) : State :=
  let x := wholeGrid (sideN s) (gridSide s) (s.die d)
  s.setDie d { x with
    seq := Seq.init, memQ := [], near := { x.near with atoms := [] }, far := { x.far with atoms := [] },
    due := residentWords s d, regs := { x.regs with state := if s.run.program.isSome then 1 else 0 } }

/-- The end of a run whose last committed lap is `c`: open slots are ended by the module (R352); staged ingress is
released; slot records still due wait for closing laps. -/
def endRun (s : State) (reason c : Nat) : State :=
  match s.run.run with
  | none => s
  | some r =>
    let s1 := forDies idleDie (settleAtoms s)
    let open_ := s.mladar.slots.map fun x => { x with ended := some c, unterm := true }
    { s1 with
      run := { s1.run with run := none, last := some r }
      split := { s1.split with endReason := reason, giveup := s1.split.giveup || decide (reason = 3)
                               setNow := s1.split.setNow ||| (if reason = 3 then 0x80 else 0), stop := false
                               resumeReq := false, atBoundary := false }
      fabric := { s1.fabric with data := [], sends := [], signals := [] }
      net := { s1.net with ingress := [], egress := [], presented := List.replicate 16 0 }
      mladar := { s1.mladar with slots := [], ended := if r.records then s1.mladar.ended ++ open_ else []
                                 toDigest := if r.records then s1.mladar.toDigest else [], closingAborts := 0 } }

/-- A stop after a lap that passed: a split where that lap is a step boundary, then the end of the run (R395, R449). -/
def stopRun (s : State) : State :=
  let s1 := match splitCfgOf s with
    | some k => if s.split.atBoundary then takeSplit s k (s.laps.runLap + 1) (s.laps.moduleLap + 1) else s
    | none => s
  endRun s1 4 s.laps.runLap

/-- CONTROLLED_STOP, at the end of a lap of a run that passed (R395, R449). -/
def execControlledStop (s : State) : Host.Outcome State Fault Refusal :=
  if decide (s.laps.len ≤ s.laps.cyc) && runLapOpen s && stopDue s && !s.laps.lapFault then
    let s1 := commitLap s
    .next (if runEnds s1 then s else stopRun s1)
  else .next s

/-! ### Run start and resume (R272, R385, R394, R397) -/

/-- A die's run-start state: cores, sequencer with its parameters and entry word (R272, R297). -/
def startDie (n : Nat) (params : List (List DWord)) (s : State) (d : Die) : State :=
  let x := s.die d
  let e := match s.run.program with | some p => (nth p.streams d.val (0, 0, 0)).2.1 | none => 0
  let m := gridSide s
  let rest := if n < m then idleCores n m x.cores else []
  s.setDie d { x with
    cores := freshCores x.cores (n * n) (s.laps.now + 1), rest := freshCores rest rest.length (s.laps.now + 1)
    seq := { Seq.init with s := Vector.ofFn (fun i : Fin 64 => nth (nth params d.val []) i.val 0), pc := e, frames := x.seq.frames }
    regs := { x.regs with state := 3 } }

/-- Restoring from the verified split, whose header VERIFY checked, with the restore option of RUN: steps 4 to 7 of R391;
that split's drain counts as complete (log 25). -/
def restoreOnRun (s : State) (k : SplitCfg) : State :=
  let b := s.split.verifySide
  let a := hdrOf (s.split.cfg.getD k) b
  let h := readHead s a
  let s1 := restoreSplit s k a b (h.restores + 1)
  { s1 with laps := { s1.laps with runLap := h.resume }
            split := { s1.split with draining := false, drainDone := true, image := none, hdrDone := true } }

/-- Budgets and envelope that take effect at this cut: the program's only outside a run (R39, R47). -/
def openBudgets (s : State) (idle : Bool) : State :=
  let w (c : Nat) : Nat := vget s.pacer.written c 0
  let b (c : Nat) : Nat := if idle then w c else vget s.pacer.budget c 0
  let p := { s.pacer with budget := #v[w 0, b 1, w 2, w 3, b 4, b 5, b 6] }
  { s with pacer := if idle then { p with envActive := p.envStep, envPending := false } else p }

/-- The start of an admitted run at the cut that ends the admission lap (R272, R341, R349, R385, R397). -/
def runStart (s : State) (a : Admission) : State :=
  let m := s.laps.moduleLap + 1
  let k := { a.cfg with startLap := m }
  let s1 := forDies (startDie k.n a.params) s
  let hdr := runHeaderBytes (openBudgets s1 true) k m
  let s2 : State := { s1 with
    run := { s1.run with run := some k, params := a.params, strictActive := k.strict, recordsActive := k.records, tdc := 0, tdcKinds := 0 }
    laps := { s1.laps with runLap := 0, state := 1 }
    fabric := { s1.fabric with data := [], sends := [], crossings := [], signals := [] }
    net := { s1.net with ingress := [], egress := [], presented := List.replicate 16 0 }
    faults := { s1.faults with recSteps := 0 }
    split := { s1.split with endReason := 0, stop := false, resumeReq := false, atBoundary := false, boundary := 0 }
    mladar := { s1.mladar with
      slots := [], ended := [], toDigest := [], runHeader := hdr, runDigest := if k.records then sha512 hdr else zeros 64
      prev := zeros 64, restores := 0, events := 0, certsDue := k.records, closingLap := false, closingAborts := 0 } }
  match k.split with
  | none => s2
  | some x => if k.restore then restoreOnRun s2 x else takeSplit0 s2 x m

/-- The end of recovery: the records of its laps have acted. -/
def recoveryOver (s : State) : State :=
  { s with faults := { s.faults with recovering := false, recDone := false, lapRecs := [] } }

/-- A resumed run opens its resume lap (R394); slots that the split does not hold are no slots of the run any more. -/
def resumeRun (s : State) : State :=
  let s1 := recoveryOver s
  { s1 with
    mladar := { s1.mladar with slots := [], ended := [], toDigest := [] }
    faults := { s1.faults with recSteps := s1.faults.recSteps + 1 }
    laps := { s1.laps with runLap := s1.split.lap, state := if allFinal s1 then 2 else 1 } }

/-! ### Which lap opens (R33, R352, R367, R368, R390, R394, R472) -/

/-- After a run: a closing lap, of run lap index `i`, while slot records are due, else idle laps; an eighth abort gives up
its records (R352). -/
def afterRun (s : State) (i : Nat) : State :=
  if s.mladar.ended.isEmpty || decide (8 ≤ s.mladar.closingAborts) then
    { s with laps := { s.laps with state := 0 }
             mladar := { s.mladar with ended := [], toDigest := [], closingLap := false, closingAborts := 0 } }
  else
    { s with laps := { s.laps with state := 2, runLap := i }
             mladar := { s.mladar with closingLap := true } }

/-- The first recovery lap after an aborted lap, or the actions again after a fault in one (R367, R368, R393). Recovery
steps of a run and actions outside a run are counted; a run that Table 17-5 ends at once takes no step (Table 17-8). -/
def beginRecovery (s : State) : State :=
  let again := s.laps.state == 3 || s.run.run.isSome && (recOutcome s).isSome
  { s with
    laps := { s.laps with state := 3 }
    faults := { s.faults with
      recovering := true, recDone := false, recOfRun := s.run.run.isSome
      recCount := if again then s.faults.recCount else satAdd32 s.faults.recCount 1 }
    mladar := { s.mladar with closingLap := false } }

/-- The recovery laps with what they reload: each die takes the words of its resident pages again (R368, R391). -/
def openRecovery (s : State) : State :=
  let t := beginRecovery s
  if reloads t then forDies dueAll t else t

/-- The lap after a lap of a run that passed (R33, R383, R395). -/
def afterRunLap (s : State) : State :=
  let s0 := { s with faults := { s.faults with recSteps := 0 } }
  if runEnds s0 then afterRun (endRun s0 0 s.laps.runLap) (s.laps.runLap + 1)
  else if stopDue s0 then afterRun (stopRun s0) (s.laps.runLap + 1)
  else
    let s1 := splitAtCut s0 (s.laps.runLap + 1) (s.laps.moduleLap + 1)
    { s1 with laps := { s1.laps with runLap := s.laps.runLap + 1, state := if allFinal s1 then 2 else 1 } }

/-- Whether a RESUME command is bound to the lap that opens (R394). -/
def resumeBound (s : State) : Bool := s.net.cmds.any fun b => decide (numAt b.payload 0 1 = 4)

/-- The lap after a recovery lap without a fault (R391, R394, R449, R472). -/
def afterRecovery (s : State) : State :=
  if !s.faults.recOfRun then if s.faults.recDone then afterRun (recoveryOver s) s.laps.runLap else s
  else
    match recOutcome s with
    | some r => if s.faults.recDone then afterRun (recoveryOver (endRun s r (s.laps.runLap - 1))) s.laps.runLap else s
    | none =>
      if stopDue s then
        let s1 := endRun s 4 (s.laps.runLap - 1)
        if s.faults.recDone then afterRun (recoveryOver s1) s.laps.runLap
        else { s1 with faults := { s1.faults with recOfRun := false } }
      else if !s.faults.recDone then s
      else if autoResume s || s.split.resumeReq then
        resumeRun { s with split := { s.split with resumeReq := false } }
      else if resumeBound s then resumeRun { s with split := { s.split with resumeReq := true } }
      else s

/-- The kind of lap that opens at this cut, and the run it belongs to. -/
def nextLap (s : State) : State :=
  if s.laps.lapFault then openRecovery s
  else if s.laps.state == 3 then afterRecovery s
  else if s.laps.state == 0 then
    match s.run.admission with
    | some a => if a.code = 0 then runStart s a else s
    | none => s
  else if s.run.run.isSome then afterRunLap s
  else afterRun s (s.laps.runLap + 1)

/-! ### Opening a lap (R20, R39, R41, R47, R374, R421) -/

/-- k of the lap that opens (R18, R31, R352, R390). -/
def openK (s : State) : Nat :=
  if s.laps.state == 1 || s.laps.state == 2 then (match s.run.program with | some p => p.k | none => 12) else 12

/-- A core at the cut: sticky records and the lap's counts are cleared (R142, R157, R186, R238). -/
def lapCore (c : Core) : Core :=
  let k := Sticky.clear 6 0xFFFF 0xF
  { c with
    mxa := { c.mxa with sticky := k, exits := 0 }, mxb := { c.mxb with sticky := k, exits := 0 }
    mvp := { c.mvp with sticky := k, exits := 0 }, vecSticky := Sticky.clear 9 0xFFFF 0xFFFFFFFF, vecOps := 0
    degen := 0, fallback := 0 }

/-- A sequencer at the cut: the next body begins at the word after LAP.END; a finished die stays finished (R258, R259). -/
def lapSeq (q : Seq) : Seq :=
  let fin := q.ended && q.final
  { q with
    jump := none, issued := false, nops := 0, wait := none, ended := fin, final := fin, endCyc := if fin then some 13 else none
    pipe := List.replicate 12 Issue.nop, pageUsed := 0, energy := 0, words := 0, stalls := 0 }

/-- A die at the cut. -/
def lapDie (s : State) (d : Die) : State :=
  let x := s.die d
  s.setDie d { x with
    cores := x.cores.map lapCore, seq := lapSeq x.seq
    near := { x.near with staticUsed := 0, asyncUsed := 0 }, far := { x.far with staticUsed := 0, asyncUsed := 0 } }

/-- The network configuration that takes effect at this cut (R405, R421). -/
def openNet (s : State) (idle : Bool) : State :=
  let s1 := peersApply s
  if idle then { s1 with net := { s1.net with cfg := cfgWritten s1, cfgNext := none } } else s1

/-- The new lap's counters and marks; every budget is full again (R20, R37). -/
def freshLap (s : State) : State :=
  let k := openK s
  { s with
    fabric := { s.fabric with fenced := [] }
    laps := { s.laps with
      padCycles := s.laps.cyc - s.laps.len, cyc := 0, curK := k, len := 2 ^ k, moduleLap := s.laps.moduleLap + 1
      gridTarget := none, lapFault := false, progFault := false, closed := false, verdict := none, sealed := false
      early := false, committed := false, stopIssue := false }
    pacer := { s.pacer with usedNow := Vector.replicate 7 0, asyncEnergy := 0 }
    run := { s.run with tdcNow := 0, kindsNow := 0, ranCut := false }
    mladar := { s.mladar with leaves := [] }
    net := { s.net with carries := s.net.lanes == 0xFF } }

/-- Asynchronous units deferred from the lap before continue under the new budgets (R41). At a cut dies 0 to 15 in this
order, near before far tier, draw on the one energy allowance, and a request draws its whole charge with its first grant,
whatever its budget then moves: how they share it is left open (DESIGN CHOICE, log 51). -/
def resumeAsync (s : State) : State :=
  if runLapOpen s then forDies (fun x d => grantAll (grantAll x d false true) d true true) s else s

/-- Opening the lap that `nextLap` chose; `idle` says that no run holds the program's budgets. -/
def openLap (s : State) (idle : Bool) : State :=
  let s1 := switchOsc (openNet (openBudgets s idle) idle)
  let s2 := forDies lapDie (forDies endDieReset (freshLap s1))
  let s3 := if s2.run.run.isNone then wsetBegin (verifyBegin s2) else s2
  resumeAsync s3

/-! ### Staging ingress (R412, R413, R340) -/

/-- A staging write: IMAGE_WRITE and SPLIT_WRITE change nothing (R264, R381). -/
def stageWrite (s : State) (a : Nat) (bs : List Byte) : State :=
  if hitsImage s a bs.length then raiseHub s 0x0151
  else if hitsFrozen s a bs.length then raiseHub s 0x0178
  else devWrite s a bs

/-- The 32-byte ingress record (Table 18-6). -/
def ingressRecord (x : Ingress) (a : Nat) : List Byte :=
  leBytes 2 x.queue ++ [BitVec.ofNat 8 (b2n x.slotEnd), 0] ++ leBytes 4 x.sender ++ leBytes 4 (x.seq % 2 ^ 32) ++
    leBytes 4 x.slot ++ leBytes 4 x.bytes.length ++ zeros 4 ++ leBytes 8 a

/-- Staging one payload: at the next multiple of 64 of its queue's half, padded with 0; its record into its die's half.
`offs` holds the bytes placed per queue, `cnts` the records per die. -/
def stageOne (r : RunCfg) (y : State × List Nat × List Nat) (x : Ingress) : State × List Nat × List Nat :=
  match r.queues[x.queue]? with
  | none => y
  | some k =>
    match r.areas[k.die]? with
    | none => y
    | some a =>
      let h := x.lap % 2
      let off := nth y.2.1 x.queue 0
      let cnt := nth y.2.2 k.die 0
      let adr := k.base + h * k.half + off
      let n := stageLen x.bytes.length
      let s1 := stageWrite y.1 adr (x.bytes ++ zeros (n - x.bytes.length))
      let s2 := stageWrite s1 (a.recBase + 32 * (h * a.recHalf + cnt)) (ingressRecord x adr)
      (s2, y.2.1.set x.queue (off + n), y.2.2.set k.die (cnt + 1))

/-- Merged queues that received payloads from two or more senders (Table 15-1). -/
def mergedChoices (r : RunCfg) (l : List Ingress) : Nat :=
  ((List.range 64).filter fun q =>
    (match r.queues[q]? with | some k => decide (k.peer = 0xFFFF) | none => false) &&
      decide (2 ≤ (((l.filter fun x => decide (x.queue = q)).map (·.sender)).eraseDups).length)).length

/-- Staging the payloads that the next run lap presents, complete before the cut that opens it: a fault of these writes is
one of the lap that ends (R412, R413; log 23). -/
def stageIngress (s : State) : State :=
  match (if runLapOpen s then s.run.run else none) with
  | none => s
  | some r =>
    ((presentedIn s (s.laps.runLap + 1)).foldl (stageOne r) (s, List.replicate 64 0, List.replicate 16 0)).1

/-- The counts of the payloads that the run lap that opens presents, and its timing-dependent choices (R250, R340, R413). -/
def presentIngress (s : State) : State :=
  match (if runLapOpen s then s.run.run else none) with
  | none => s
  | some r =>
    let l := presentedIn s s.laps.runLap
    let die (x : Ingress) : Nat := match r.queues[x.queue]? with | some k => k.die | none => 16
    let s1 := { s with net := { s.net with presented := (List.range 16).map fun d => (l.filter fun x => decide (die x = d)).length } }
    let n := if r.strict then 0 else mergedChoices r l
    if n = 0 then s1 else addTdc s1 2 n

/-! ### Credits (R411) -/

/-- The grant of one peer, given the budget not yet granted; an entry that holds no address names no peer (R404). Its credit
frame leaves now or, where its priority is paused, when that ends. -/
def grantPeer (y : State × Nat) (p : Fin 16) : State × Nat :=
  let x := y.1.net.peers[p]
  if x.dataIn && x.bound then
    let g := min (x.share.toNat * 2 ^ y.1.laps.curK / 4096) y.2
    let lim := (x.consumed + g) % 2 ^ 32
    (sendCredit (y.1.setPeer p { x with limit := lim, creditDue := if x.down then none else some lim }) p, y.2 - g)
  else y

/-- The credits of a lap, in ascending peer order; in a recovery lap every grant is of no units, so that the frames of the
cut let the unused credits lapse (R43, R390, R411, Table 18-4; log 40). -/
def grantCredits (s : State) : State :=
  ((List.finRange 16).foldl grantPeer (s, if s.laps.state == 3 then 0 else lapBudget s 0)).1

/-! ### Replies (R31, R32, R368, R419) -/

/-- The end of an admission lap: its reply joins the egress of that lap; a refusal is noted (R32, R269, R368). -/
def finishAdmission (s : State) (aborted : Bool) : State :=
  match s.run.admission with
  | none => s
  | some a =>
    let code := if a.code ≠ 0 then a.code.toNat else if aborted then 0x0A else 0
    let s1 := replyAt s a.place a.req.peer 0
      (replyBytes 0x03 (if code = 0 then 0 else 4) code a.req.token.toNat a.lap a.status 0)
    let s2 : State := { s1 with run := { s1.run with admission := none }, laps := { s1.laps with admitPending := false } }
    if code = 0 then s2
    else
      let s3 := pacerEvent s2 4
      { s3 with pacer := { s3.pacer with admitCode := BitVec.ofNat 8 code } }

/-- Releasing the replies of the lap before, in order; one that cannot be sent yet waits (R31, R419). -/
def releaseReplies (s : State) : State :=
  let l := s.net.replies
  l.foldl (fun x r =>
    if maySend x r.1 r.2.1 then sendPayload x r.1 r.2.1 0 0 0 r.2.2
    else { x with net := { x.net with replies := x.net.replies ++ [r] } })
    { s with net := { s.net with replies := [] } }

/-! ### The cut (R20, R34–R36) -/

/-- The grid mode that a cut follows, from the run's latched mode (R34, R36, Table 2-8). -/
def cutMode (r : RunCfg) (s : State) : Nat :=
  if s.laps.gridPeriod == 0 || r.gridMode == 3 then 0 else r.gridMode.toNat

/-- The grid mode in question at the cut that opens the lap `t`, after the lap of `s`: mode 1 delays only the cut that
starts or resumes a run (R34, R394). -/
def gridAsked (s t : State) : Bool :=
  match (if runLapOpen t then t.run.run else none) with
  | some r => decide (cutMode r s = 2) || (decide (cutMode r s = 1) && !runLapOpen s)
  | none => false

/-- The first grid point at or after a timestamp (R34). -/
def gridPoint (s : State) (t : Nat) : Nat :=
  let T := s.laps.gridPeriod.toNat
  t + (s.laps.gridPhase.toNat % T + T - t % T) % T

/-- The cut itself: registers of the completed lap, the lap that opens, replies, credits, management, commands. A
RESET leaves nothing sent at its cut (R466). -/
def cutNow (s t : State) (unlocked : Bool) : State :=
  let idle := s.run.run.isNone || t.run.run.isNone
  let s1 := finishAdmission (openLap t idle) s.laps.lapFault
  let s2 := if unlocked then pacerEvent s1 5 else s1
  let s3 := presentIngress (grantCredits (releaseReplies s2))
  let s4 := doMgmt s3
  let r := doCommands (cmdOrder s4.net.cmds) { s4 with net := { s4.net with cmds := [] } }
  if r.2 then moduleReset { r.1 with net := { r.1.net with sent := s.net.sent } } 2 else loseDown r.1

/-- LAP_CUT, at the end of a lap, with the 1588 timestamp of the cycle (R20, R34–R36). The lap takes effect as ended at this
cut: a fault that padding detects is counted to the lap before it and withholds that lap's egress, since R35 gives padding
to no lap and R28 says nothing of it (DESIGN CHOICE, log 51). -/
def execLapCut (ptpNs : Nat) (s0 : State) : Host.Outcome State Fault Refusal :=
  if portOn s0 && decide (s0.laps.len ≤ s0.laps.cyc) then
    let s := stageIngress s0
    let t := nextLap (commitLap s)
    let asked := gridAsked s t
    let target := s.laps.gridTarget.getD (gridPoint s ptpNs)
    if asked && s.net.ptpLocked && decide (ptpNs < target) then
      .next { s0 with laps := { s0.laps with gridTarget := some target } }
    else .next (cutNow s t (asked && !s.net.ptpLocked))
  else .next s0

end Sys2Proof.Machine
end

