-- ==== Sys2Proof/Machine/Power.lean ====
section
/-! DEFINITION. The supply monitor, the stagger, thermal samples, bring-up and the service connector (R316, R426, R432,
R437, R441–R445, R448–R450, R457, R458, R467). A duration that the manual only bounds is the sender's (log 18). -/
namespace Sys2Proof.Machine

/-! ### The input and the rails (R441, R442, R450) -/

/-- Whether any rail is on. -/
def powered (s : State) : Bool := decide (s.power.phase ≠ .off)

/-- INPUT_RISE: through 39.5 V; a latch clears only after the input has fallen below 38.0 V (R442, R444). -/
def execInputRise (s : State) : Host.Outcome State Fault Refusal :=
  if !powered s && (!s.power.latched || s.power.fell) then
    .next { s with
      power := { s.power with
        phase := .softStart, latched := false, fell := false, riseAt := s.laps.now, uv := false, below40 := true, uvSince := none }
      ident := { s.ident with resetCause := if s.power.latched then 5 else 1 } }
  else .next s

/-- STAGGER_STEP: the next of the 257 steps completes: the hub, then row group g of die d (R444). -/
def staggerNext (s : State) : State :=
  let k := s.power.step
  let s1 := { s with power := { s.power with phase := .stagger, step := k + 1 } }
  if k = 0 then s1
  else
    let d := dieOf ((k - 1) / 16)
    s1.setDie d { s1.die d with groupsOn := (k - 1) % 16 + 1 }

/-- The cycle in which stagger step `k` ends: 5.0 ms of soft start, then 250 µs a step (Table 20-6). -/
def stepEnd (p : Power) (k : Nat) : Nat := p.riseAt + 4700000 + 235000 * (k + 1)

/-- STAGGER_STEP, when the step's time has passed (R444). -/
def execStaggerStep (s : State) : Host.Outcome State Fault Refusal :=
  .next (if (decide (s.power.phase = .softStart) || decide (s.power.phase = .stagger)) && decide (s.power.step < 257) &&
      decide (stepEnd s.power s.power.step ≤ s.laps.now) then staggerNext s else s)

/-- POWER_GOOD_CHECK: 2.75 ms after the last step; a failure turns every rail off and latches (R444, R445). -/
def execPowerGoodCheck (good : Bool) (s : State) : Host.Outcome State Fault Refusal :=
  if decide (s.power.phase = .stagger) && decide (s.power.step = 257) &&
      decide (stepEnd s.power 256 + 2585000 ≤ s.laps.now) then
    .next (if good then { s with power := { s.power with phase := .boot, goodDone := true } } else railsDown s true)
  else .next s

/-- RAILS_OFF: the input falls below 38.0 V (Table 20-5, R442). -/
def execRailsOff (s : State) : Host.Outcome State Fault Refusal :=
  .next (if powered s then railsDown s false else { s with power := { s.power with fell := true } })

/-- OVERVOLTAGE_SHUTDOWN: latched (Table 20-5). -/
def execOvervoltageShutdown (s : State) : Host.Outcome State Fault Refusal :=
  .next (if powered s then railsDown s true else s)

/-- OVERCURRENT_SHUTDOWN: latched (Table 20-5). -/
def execOvercurrentShutdown (s : State) : Host.Outcome State Fault Refusal :=
  .next (if powered s then railsDown s true else s)

/-- Whether every region reads below 95 °C (R450). -/
def allCool (p : Power) : Bool := (p.tj.toList.all fun x => decide (x < 950)) && decide (p.hubTj < 950)

/-- Clearing STOP_PENDING: every region below 95 °C and the input at or above 40.0 V (R450). -/
def stopClears (p : Power) : Power := if allCool p && !p.below40 then { p with stopPending := false } else p

/-- The supply monitor at a crossing of the input: `UV` while it is below 39.0 V, which the 1 ms of R441 counts from;
STOP_PENDING can clear once it is at 40.0 V again (R441, R450, Table 20-12). -/
def vinCrosses (c : VinCross) (now : Nat) (p : Power) : Power :=
  match c with
  | .falls40 => { p with below40 := true }
  | .falls39 => { p with below40 := true, uv := true, uvSince := some (p.uvSince.getD now) }
  | .rises39 => { p with uv := false, uvSince := none }
  | .rises40 => stopClears { p with below40 := false, uv := false, uvSince := none }

/-- UV_CHANGE: the input crosses 39.0 V or 40.0 V (R441, R450). -/
def execUvChange (c : VinCross) (s : State) : Host.Outcome State Fault Refusal :=
  .next (if powered s then { s with power := vinCrosses c s.laps.now s.power } else s)

/-- UV_STOP: 1 ms below 39.0 V (R441, R449). -/
def execUvStop (s : State) : Host.Outcome State Fault Refusal :=
  match s.power.uvSince with
  | some t =>
    if powered s && decide (t + 940000 ≤ s.laps.now) then
      let s1 := askStop s
      .next { s1 with power := s1.power.setEvents 0x08 }
    else .next s
  | none => .next s

/-! ### Thermal samples (R448, Table 20-7) -/

/-- The regions of one die or of the hub, from region number `base`: the reading of each pair, and the regions that fail.
A pair that differs by more than 5 K, now or before, reads 105 °C until module reset (R448). -/
def readPairs (failed : List Nat) (base : Nat) : List (Int × Int) → List Int × List Nat
  | [] => ([], [])
  | p :: l =>
    let r := readPairs failed (base + 1) l
    let bad := decide (50 < (p.1 - p.2).natAbs)
    if bad || failed.contains base then (1050 :: r.1, if bad then base :: r.2 else r.2) else (max p.1 p.2 :: r.1, r.2)

/-- The hottest of readings, or the value before where there is none. -/
def hottestOf (old : Int) : List Int → Int
  | [] => old
  | x :: l => l.foldl max x

/-- The readings of a sample: per die, hub, and the regions that have failed. -/
def sampleAll (p : Power) (t : Thermal) : List Int × Int × List Nat :=
  let ds := (List.range 16).map fun d => readPairs p.sensorFail (8 * d) (vget t.dies d (Vector.replicate 8 (0, 0))).toList
  let h := readPairs p.sensorFail 128 t.hub.toList
  (ds.mapIdx fun d r => hottestOf (vget p.tj d 0) r.1, hottestOf p.hubTj h.1, (ds.map (·.2)).flatten ++ h.2)

/-- The first place of the largest reading: die 0–15, or 16 for the hub. -/
def hottestAt (l : List Int) : Nat :=
  let m := l.foldl max (nth l 0 0)
  (firstIdx (fun x => decide (x = m)) l 0).getD 0

/-- The telemetry after a sample, below the shutdown limit (Tables 20-7, 20-12). -/
def sampled (p : Power) (t : Thermal) : Power :=
  let r := sampleAll p t
  let all := r.1 ++ [r.2.1]
  let top := all.foldl max (nth all 0 0)
  let warn := decide (950 ≤ top)
  let stop := decide (1050 ≤ top)
  let cool := decide (t.inlet < 150) || decide (400 < t.inlet) || decide (200 < t.outlet - t.inlet)
  let ev := (if warn then 0x01 else 0) ||| (if stop then 0x02 else 0) ||| (if r.2.2.isEmpty then 0 else 0x10) |||
    (if cool then 0x20 else 0)
  let p1 := { p with
    tj := Vector.ofFn fun i : Fin 16 => nth r.1 i.val 0
    hubTj := r.2.1, inlet := t.inlet, outlet := t.outlet, hottest := hottestAt all, warn := warn
    peak := max p.peak top, peakAt := if p.peak < top then hottestAt all else p.peakAt
    sensorFail := p.sensorFail ++ r.2.2 }
  stopClears (p1.setEvents ev)

/-- Whether the sensors are sampled in this cycle: every 16,384 cycles (R448). -/
def sampleDue (s : State) : Bool :=
  powered s && (match s.power.sampledAt with | some t => decide (t + 16384 ≤ s.laps.now) | none => true)

/-- THERMAL_SAMPLE: at 115 °C a hard shutdown, latched, which takes precedence; at 105 °C a controlled stop (R448, R449,
Table 20-7). -/
def execThermalSample (t : Thermal) (s : State) : Host.Outcome State Fault Refusal :=
  if !sampleDue s then .next s
  else
    let r := sampleAll s.power t
    if (r.1 ++ [r.2.1]).any (fun x => decide (1150 ≤ x)) then .next (railsDown s true)
    else
      let s1 := if (r.1 ++ [r.2.1]).any (fun x => decide (1050 ≤ x)) then askStop s else s
      .next { s1 with power := { sampled s1.power t with sampledAt := some s.laps.now } }

/-! ### Bring-up (R457, R458, Table 21-1) -/

/-- Whether bring-up runs: powered, not yet in laps, no responder, not held by EXTEST. -/
def bringingUp (s : State) : Bool :=
  (decide (s.power.phase = .stagger) || decide (s.power.phase = .boot)) && !s.sec.responder && !s.sec.extest

/-- ROM_VERIFY_DONE: from the end of stagger step 0; the firmware starts, or the responder comes up (R424, R426, R427,
R445). -/
def execRomVerifyDone (flashReads : Bool) (s : State) : Host.Outcome State Fault Refusal :=
  if bringingUp s && decide (1 ≤ s.power.step) && !s.power.verified then
    match verifyImage s.sec s.sec.flash flashReads with
    | .inl r => .next (raiseResponder s r)
    | .inr v => .next { s with
        power := { s.power with verified := true }
        net := { s.net with dark := false }
        sec := { s.sec with slot := v.slot, secVerRun := v.ver, fwDigest := v.digest } }
  else .next s

/-- A fresh seal key, and its certificate signed with the identity key (R432): the key, the number and the nonce come from the
random number generator (log 7). -/
def issueSeal (s : State) : State :=
  let d := s.drawN 82
  let key := scalarOf (randomBytes d.1 66)
  let body := sealBodyOf (certNumber (randomBytes (d.1 + 66) 16)) s.sec.serial key
  let g := signWith d.2 s.sec.identKey (sha512 body)
  { g.2 with
    sec := { s.sec with sealKey := key, certSeal := certOfBody body g.1, sealReady := true }
    power := { s.power with sealIssued := true } }

/-- SEAL_KEY_ISSUE, after the firmware starts and before the first idle lap (R432). -/
def execSealKeyIssue (s : State) : Host.Outcome State Fault Refusal :=
  .next (if bringingUp s && s.power.verified && !s.power.sealIssued then issueSeal s else s)

/-- Whether the trainings may end: power good, firmware running (Table 21-1, R445). -/
def training (s : State) : Bool := bringingUp s && s.power.goodDone && s.power.verified

/-- MEM_TRAINING_DONE: a channel whose training fails is failed (R316, R372, R458). -/
def execMemTrainingDone (failed : List (Die × Bool × Fin 20)) (s : State) : Host.Outcome State Fault Refusal :=
  if training s && !s.power.memTrained then
    let s1 := failed.foldl (fun s y => failChannel s y.1 y.2.1 y.2.2) s
    .next { s1 with power := { s1.power with memTrained := true } }
  else .next s

/-- LINK_TRAINING_DONE: a link whose training fails is failed (R373, R458). -/
def execLinkTrainingDone (failed : BitVec 28) (s : State) : Host.Outcome State Fault Refusal :=
  if training s && !s.power.linkTrained then
    .next { s with power := { s.power with linkTrained := true }
                   fabric := { s.fabric with linkFailed := s.fabric.linkFailed ||| failed } }
  else .next s

/-- MAP_BUILD: after both trainings, from fuses and fence lists (R300, R370, R457). -/
def execMapBuild (s : State) : Host.Outcome State Fault Refusal :=
  if training s && s.power.memTrained && s.power.linkTrained && !s.power.mapped then
    let s1 := forDies bootMap s
    .next { s1 with power := { s1.power with mapped := true } }
  else .next s

/-- What the power block's registers read when the first idle lap opens: its sticky and state bits hold their Reset values,
whatever was seen in bring-up (R7, Table 20-12). -/
def firstTelemetry (p : Power) : Power :=
  { p with uv := false, warn := false, stopPending := false, memHot := false, events := 0, energyJ := 0 }

/-- FIRST_IDLE_LAP: every phase is complete (R7, R31, R457, R458, Table 21-5). -/
def execFirstIdleLap (bootUs : Word) (s : State) : Host.Outcome State Fault Refusal :=
  if training s && s.power.mapped && s.power.sealIssued then
    .next { s with
      power := { firstTelemetry s.power with phase := .laps }
      laps := { Laps.init with now := s.laps.now }
      net := { s.net with carries := s.net.lanes == 0xFF }
      ident := { s.ident with bootDegraded := degraded s, bootTime := bootUs, restarts := s.power.restarts } }
  else .next s

/-! ### The service connector (R437, R453, R467) -/

/-- Loading EXTEST: a module reset, held until another instruction is loaded. -/
def holdExtest (s : State) : State :=
  let s1 := moduleReset s 3
  { s1 with sec := { s1.sec with tap := .extest, extest := true } }

/-- EXTEST_LOAD (R437). -/
def execExtestLoad (s : State) : Host.Outcome State Fault Refusal :=
  .next (if powered s && !s.sec.extest then holdExtest s else s)

/-- Loading another instruction after EXTEST: bring-up starts (R467). -/
def loadTap (s : State) (i : TapInstr) : State := { s with sec := { s.sec with tap := i, extest := false } }

/-- EXTEST_RELEASE: which of the other instructions is loaded is a free value (log 26). -/
def execExtestRelease (s : State) : Host.Outcome State Fault Refusal :=
  if s.sec.extest then
    let d := s.draw
    let k := Config.freeNat d.1 % (if s.sec.locked then 3 else 4)
    .next (loadTap d.2 (if k = 0 then .bypass else if k = 1 then .sample else if k = 2 then .preload else .factory))
  else .next s

/-- TAP_INSTRUCTION: only while the module is powered; a factory instruction only before the lock (R437, R453). -/
def execTapInstruction (i : TapInstr) (s : State) : Host.Outcome State Fault Refusal :=
  if !powered s then .next s
  else
    match i with
    | .extest => .next (if s.sec.extest then s else holdExtest s)
    | .factory => .next (if s.sec.locked then s else loadTap s .factory)
    | j => .next (loadTap s j)

end Sys2Proof.Machine
end

