-- ==== Sys2Proof/Machine/Dispatch.lean ====
section
/-! DEFINITION. One arm per command: its meaning. -/
namespace Sys2Proof.Machine

/-- The effect of a command on everything but the queue. -/
def exec (i : Instr) (s : State) : Host.Outcome State Fault Refusal :=
  match i with
  | .nop d => Sys2Proof.Machine.execNop d s
  | .ctlLi d hi sd imm => Sys2Proof.Machine.execCtlLi d hi sd imm s
  | .ctlAlu d fn sd sa sb immf imm => Sys2Proof.Machine.execCtlAlu d fn sd sa sb immf imm s
  | .ctlMul d sd sa sb => Sys2Proof.Machine.execCtlMul d sd sa sb s
  | .ctlLidx d sd q => Sys2Proof.Machine.execCtlLidx d sd q s
  | .ctlLinfo d sd item => Sys2Proof.Machine.execCtlLinfo d sd item s
  | .ctlColl d sd vn comb pq => Sys2Proof.Machine.execCtlColl d sd vn comb pq s
  | .ctlPstep d sa => Sys2Proof.Machine.execCtlPstep d sa s
  | .ctlBr d cond sa sb ofs => Sys2Proof.Machine.execCtlBr d cond sa sb ofs s
  | .ctlJmp d ofs => Sys2Proof.Machine.execCtlJmp d ofs s
  | .ctlLoop d src sa count body => Sys2Proof.Machine.execCtlLoop d src sa count body s
  | .ctlSig d bar mask => Sys2Proof.Machine.execCtlSig d bar mask s
  | .ctlWait d bar n limit => Sys2Proof.Machine.execCtlWait d bar n limit s
  | .ctlPage d src sa page => Sys2Proof.Machine.execCtlPage d src sa page s
  | .lapEnd d final => Sys2Proof.Machine.execLapEnd d final s
  | .mxCfg d arr fmt cap => Sys2Proof.Machine.execMxCfg d arr fmt cap s
  | .mxLdw d arr p fmt rows stride csa => Sys2Proof.Machine.execMxLdw d arr p fmt rows stride csa s
  | .mxSwap d arr => Sys2Proof.Machine.execMxSwap d arr s
  | .mxStrm d arr p tile group => Sys2Proof.Machine.execMxStrm d arr p tile group s
  | .mxOpen d arr count first afmt group => Sys2Proof.Machine.execMxOpen d arr count first afmt group s
  | .mxZero d arr p group => Sys2Proof.Machine.execMxZero d arr p group s
  | .mxClose d arr p exd tile group => Sys2Proof.Machine.execMxClose d arr p exd tile group s
  | .mxSpill d arr p csa att group => Sys2Proof.Machine.execMxSpill d arr p csa att group s
  | .mxFill d arr p csa att group => Sys2Proof.Machine.execMxFill d arr p csa att group s
  | .mxFree d arr group => Sys2Proof.Machine.execMxFree d arr group s
  | .mvOpen d afmt => Sys2Proof.Machine.execMvOpen d afmt s
  | .mvZero d p mask => Sys2Proof.Machine.execMvZero d p mask s
  | .mvDot d p wf xf acc vn e csa => Sys2Proof.Machine.execMvDot d p wf xf acc vn e csa s
  | .mvCol d p wf xf acc vn k csa => Sys2Proof.Machine.execMvCol d p wf xf acc vn k csa s
  | .mvClose d p out exd n acc => Sys2Proof.Machine.execMvClose d p out exd n acc s
  | .mvSpill d p csa att mask => Sys2Proof.Machine.execMvSpill d p csa att mask s
  | .mvFill d p csa att mask => Sys2Proof.Machine.execMvFill d p csa att mask s
  | .vMov d p form => Sys2Proof.Machine.execVMov d p form s
  | .vAnd d p form => Sys2Proof.Machine.execVAnd d p form s
  | .vOr d p form => Sys2Proof.Machine.execVOr d p form s
  | .vXor d p form => Sys2Proof.Machine.execVXor d p form s
  | .vSel d p zm fmt vd va vb pq => Sys2Proof.Machine.execVSel d p zm fmt vd va vb pq s
  | .vPlog d p zm op pd pa pb => Sys2Proof.Machine.execVPlog d p zm op pd pa pb s
  | .vNeg d p form => Sys2Proof.Machine.execVNeg d p form s
  | .vAbs d p form => Sys2Proof.Machine.execVAbs d p form s
  | .vMax d p form => Sys2Proof.Machine.execVMax d p form s
  | .vMin d p form => Sys2Proof.Machine.execVMin d p form s
  | .vCmp d p zm scal fmt pd va vb cond => Sys2Proof.Machine.execVCmp d p zm scal fmt pd va vb cond s
  | .vAdd d p form => Sys2Proof.Machine.execVAdd d p form s
  | .vSub d p form => Sys2Proof.Machine.execVSub d p form s
  | .vMul d p form => Sys2Proof.Machine.execVMul d p form s
  | .vFma d p form => Sys2Proof.Machine.execVFma d p form s
  | .vCvt d p form target => Sys2Proof.Machine.execVCvt d p form target s
  | .vFn d p form fn => Sys2Proof.Machine.execVFn d p form fn s
  | .vFnGate d p form fn => Sys2Proof.Machine.execVFnGate d p form fn s
  | .softmax d p dd da => Sys2Proof.Machine.execSoftmax d p dd da s
  | .smsum d p da sp => Sys2Proof.Machine.execSmsum d p da sp s
  | .smnorm d p dd da sp => Sys2Proof.Machine.execSmnorm d p dd da sp s
  | .lnorm d p dd da db sp => Sys2Proof.Machine.execLnorm d p dd da db sp s
  | .rmsnorm d p dd da db sp => Sys2Proof.Machine.execRmsnorm d p dd da db sp s
  | .nstat d p da sp => Sys2Proof.Machine.execNstat d p da sp s
  | .vRed d p form args => Sys2Proof.Machine.execVRed d p form args s
  | .vQuant d p dd da sp pd => Sys2Proof.Machine.execVQuant d p dd da sp pd s
  | .vPop d p vd lq qsum => Sys2Proof.Machine.execVPop d p vd lq qsum s
  | .vQzero d p fmt lmask => Sys2Proof.Machine.execVQzero d p fmt lmask s
  | .vQrnd d p rnd fmt vd lmask sp => Sys2Proof.Machine.execVQrnd d p rnd fmt vd lmask sp s
  | .vQspill d p att lmask addr => Sys2Proof.Machine.execVQspill d p att lmask addr s
  | .vQfill d p att lmask addr => Sys2Proof.Machine.execVQfill d p att lmask addr s
  | .vRdfl d p vd => Sys2Proof.Machine.execVRdfl d p vd s
  | .movFeed d p arr csa => Sys2Proof.Machine.execMovFeed d p arr csa s
  | .movTag d arr csa => Sys2Proof.Machine.execMovTag d arr csa s
  | .movLdv d p vd csa => Sys2Proof.Machine.execMovLdv d p vd csa s
  | .movStv d p va csa => Sys2Proof.Machine.execMovStv d p va csa s
  | .movLdp d p pd csa => Sys2Proof.Machine.execMovLdp d p pd csa s
  | .movStp d p pa csa => Sys2Proof.Machine.execMovStp d p pa csa s
  | .movCpy d p dst src => Sys2Proof.Machine.execMovCpy d p dst src s
  | .movAset d p src ad sa imm => Sys2Proof.Machine.execMovAset d p src ad sa imm s
  | .movAadd d p ad as_ imm => Sys2Proof.Machine.execMovAadd d p ad as_ imm s
  | .movAidx d p ad what => Sys2Proof.Machine.execMovAidx d p ad what s
  | .netMesh d p dir dst csa => Sys2Proof.Machine.execNetMesh d p dir dst csa s
  | .netSend d p ax w dst csa => Sys2Proof.Machine.execNetSend d p ax w dst csa s
  | .memRd d p m len => Sys2Proof.Machine.execMemRd d p m len s
  | .memWr d p m len => Sys2Proof.Machine.execMemWr d p m len s
  | .memQadd d p m fmt cnt => Sys2Proof.Machine.execMemQadd d p m fmt cnt s
  | .memMaxloc d p m fmt cnt => Sys2Proof.Machine.execMemMaxloc d p m fmt cnt s
  | .memRadd d p m fmt cnt => Sys2Proof.Machine.execMemRadd d p m fmt cnt s
  | .memUnitService d far => Sys2Proof.Machine.execMemUnitService d far s
  | .memComplete d => Sys2Proof.Machine.execMemComplete d s
  | .signalArrive d bar => Sys2Proof.Machine.execSignalArrive d bar s
  | .waitMet d => Sys2Proof.Machine.execWaitMet d s
  | .waitLimit d => Sys2Proof.Machine.execWaitLimit d s
  | .pageLoadDone d frame => Sys2Proof.Machine.execPageLoadDone d frame s
  | .residentReloadDone d => Sys2Proof.Machine.execResidentReloadDone d s
  | .netArrive d core => Sys2Proof.Machine.execNetArrive d core s
  | .lapCut ptpNs => Sys2Proof.Machine.execLapCut ptpNs s
  | .splitHeaderWritten => Sys2Proof.Machine.execSplitHeaderWritten s
  | .closePhaseStart => Sys2Proof.Machine.execClosePhaseStart s
  | .lapOverrun => Sys2Proof.Machine.execLapOverrun s
  | .earlyClose => Sys2Proof.Machine.execEarlyClose s
  | .lapVerdict => Sys2Proof.Machine.execLapVerdict s
  | .lapSeal => Sys2Proof.Machine.execLapSeal s
  | .dataFrame f => Sys2Proof.Machine.execDataFrame f s
  | .directWrite f => Sys2Proof.Machine.execDirectWrite f s
  | .ackFrame f => Sys2Proof.Machine.execAckFrame f s
  | .commandFrame f => Sys2Proof.Machine.execCommandFrame f s
  | .managementFrame f => Sys2Proof.Machine.execManagementFrame f s
  | .mgmtReadDeferred => Sys2Proof.Machine.execMgmtReadDeferred s
  | .neighbourSolicitation src target srcMac => Sys2Proof.Machine.execNeighbourSolicitation src target srcMac s
  | .ptpSync offsetNs => Sys2Proof.Machine.execPtpSync offsetNs s
  | .ptpSyncLoss => Sys2Proof.Machine.execPtpSyncLoss s
  | .pfcReceive ctrl quanta => Sys2Proof.Machine.execPfcReceive ctrl quanta s
  | .pfcResumeSend ctrl => Sys2Proof.Machine.execPfcResumeSend ctrl s
  | .portLinkChange lanes => Sys2Proof.Machine.execPortLinkChange lanes s
  | .egressTransmit peer => Sys2Proof.Machine.execEgressTransmit peer s
  | .egressDiscard => Sys2Proof.Machine.execEgressDiscard s
  | .retransmit peer cls => Sys2Proof.Machine.execRetransmit peer cls s
  | .ackDelay peer cls => Sys2Proof.Machine.execAckDelay peer cls s
  | .recordTransmit => Sys2Proof.Machine.execRecordTransmit s
  | .drainSend => Sys2Proof.Machine.execDrainSend s
  | .ping req => Sys2Proof.Machine.execPing req s
  | .load req image => Sys2Proof.Machine.execLoad req image s
  | .loadDone d => Sys2Proof.Machine.execLoadDone d s
  | .run req params queues restore => Sys2Proof.Machine.execRun req params queues restore s
  | .resume req => Sys2Proof.Machine.execResume req s
  | .stop req => Sys2Proof.Machine.execStop req s
  | .controlledStop => Sys2Proof.Machine.execControlledStop s
  | .reset req => Sys2Proof.Machine.execReset req s
  | .attest req nonce => Sys2Proof.Machine.execAttest req nonce s
  | .recoverCommit req length => Sys2Proof.Machine.execRecoverCommit req length s
  | .unknownCommand req code => Sys2Proof.Machine.execUnknownCommand req code s
  | .recoveryDirectWrite f => Sys2Proof.Machine.execRecoveryDirectWrite f s
  | .flashProgramDone => Sys2Proof.Machine.execFlashProgramDone s
  | .wsetStart peer => Sys2Proof.Machine.execWsetStart peer s
  | .wsetDigestDone => Sys2Proof.Machine.execWsetDigestDone s
  | .verify peer => Sys2Proof.Machine.execVerify peer s
  | .verifyDone => Sys2Proof.Machine.execVerifyDone s
  | .cancel peer => Sys2Proof.Machine.execCancel peer s
  | .faultPop peer => Sys2Proof.Machine.execFaultPop peer s
  | .fenceClear peer => Sys2Proof.Machine.execFenceClear peer s
  | .advance peer readsBack => Sys2Proof.Machine.execAdvance peer readsBack s
  | .revoke0 peer readsBack => Sys2Proof.Machine.execRevoke0 peer readsBack s
  | .revoke1 peer readsBack => Sys2Proof.Machine.execRevoke1 peer readsBack s
  | .lockService peer readsBack => Sys2Proof.Machine.execLockService peer readsBack s
  | .budgetWrite peer cls value => Sys2Proof.Machine.execBudgetWrite peer cls value s
  | .envelopeWrite peer value => Sys2Proof.Machine.execEnvelopeWrite peer value s
  | .peerCfgWrite peer entry value => Sys2Proof.Machine.execPeerCfgWrite peer entry value s
  | .peerAdminWrite peer value => Sys2Proof.Machine.execPeerAdminWrite peer value s
  | .registerWrite peer addr value => Sys2Proof.Machine.execRegisterWrite peer addr value s
  | .faultDetected det => Sys2Proof.Machine.execFaultDetected det s
  | .faultRecordQueue => Sys2Proof.Machine.execFaultRecordQueue s
  | .patrolRead d core flips => Sys2Proof.Machine.execPatrolRead d core flips s
  | .dieResetEnd d => Sys2Proof.Machine.execDieResetEnd d s
  | .fencedCompletion d => Sys2Proof.Machine.execFencedCompletion d s
  | .fabricPacketArrive dst src dstEpoch srcEpoch chan => Sys2Proof.Machine.execFabricPacketArrive dst src dstEpoch srcEpoch chan s
  | .memResponseTimeout d far ch => Sys2Proof.Machine.execMemResponseTimeout d far ch s
  | .channelResetEnd d far ch trained => Sys2Proof.Machine.execChannelResetEnd d far ch trained s
  | .refresh d far ch rank => Sys2Proof.Machine.execRefresh d far ch rank s
  | .memHot overRange overRate => Sys2Proof.Machine.execMemHot overRange overRate s
  | .clockXchk countB aAgrees bAgrees => Sys2Proof.Machine.execClockXchk countB aAgrees bAgrees s
  | .oscSwitch => Sys2Proof.Machine.execOscSwitch s
  | .driftCheck ppm => Sys2Proof.Machine.execDriftCheck ppm s
  | .recoveryDone trainFailed => Sys2Proof.Machine.execRecoveryDone trainFailed s
  | .inputRise => Sys2Proof.Machine.execInputRise s
  | .staggerStep => Sys2Proof.Machine.execStaggerStep s
  | .powerGoodCheck good => Sys2Proof.Machine.execPowerGoodCheck good s
  | .uvStop => Sys2Proof.Machine.execUvStop s
  | .railsOff => Sys2Proof.Machine.execRailsOff s
  | .overvoltageShutdown => Sys2Proof.Machine.execOvervoltageShutdown s
  | .overcurrentShutdown => Sys2Proof.Machine.execOvercurrentShutdown s
  | .thermalSample t => Sys2Proof.Machine.execThermalSample t s
  | .romVerifyDone flashReads => Sys2Proof.Machine.execRomVerifyDone flashReads s
  | .sealKeyIssue => Sys2Proof.Machine.execSealKeyIssue s
  | .memTrainingDone failed => Sys2Proof.Machine.execMemTrainingDone failed s
  | .linkTrainingDone failed => Sys2Proof.Machine.execLinkTrainingDone failed s
  | .mapBuild => Sys2Proof.Machine.execMapBuild s
  | .firstIdleLap bootUs => Sys2Proof.Machine.execFirstIdleLap bootUs s
  | .extestLoad => Sys2Proof.Machine.execExtestLoad s
  | .extestRelease => Sys2Proof.Machine.execExtestRelease s
  | .tapInstruction ti => Sys2Proof.Machine.execTapInstruction ti s
  | .discardedFrame why => Sys2Proof.Machine.execDiscardedFrame why s
  | .ptpDelayResponse followUp delayNs => Sys2Proof.Machine.execPtpDelayResponse followUp delayNs s
  | .pauseTimeExpiry ctrl => Sys2Proof.Machine.execPauseTimeExpiry ctrl s
  | .uvChange cross => Sys2Proof.Machine.execUvChange cross s

end Sys2Proof.Machine
end

