-- ==== Sys2Proof/Machine/Tick.lean ====
section
/-! DEFINITION. The end of a clock cycle: checks at LAP.END, the units of the cores, sends, issue and program counters,
and the writes that become readable (chapter 11, R117, R144, R166, R204, R240, R241, R248, R249, R258–R263, R279, R471).
The step takes it on an empty queue (log 2). -/
namespace Sys2Proof.Machine

/-! ### LAP.END executed in this cycle (R144, R189, R258, R260, R261) -/

/-- Core store ranges of the asynchronous requests of a die that a core's data go to (R260). -/
def asyncRanges (x : DieSt) (i : Nat) : List (Nat × Nat) :=
  ((x.memQ.filter (·.async)).flatMap fun r => r.parts.filter fun p => decide (p.core = i)).map fun p => (p.cs, p.len)

/-- Whether a timed write belongs to an asynchronous request. -/
def pendAsync (l : List (Nat × Nat)) (p : Pend) : Bool :=
  match csTarget p.w with
  | some a => l.any fun r => decide (r.1 ≤ a) && decide (a < r.1 + r.2)
  | none => false

/-- Whether a matrix array still works in cycle `t`. -/
def arrayLeft (t : Nat) (m : MArray) : Bool :=
  decide (t < m.busyTo) || decide (t < m.portTo) || decide (t < m.loadEnd) || m.ldw.isSome ||
    (m.feed.any fun e => decide (t < e.ready)) ||
    m.groups.toList.any fun g =>
      match g with
      | some x => x.rows.any fun r => decide (t < r.doneAt) || decide (t < r.svcAt)
      | none => false

/-- Whether the matrix-vector unit still works. -/
def mvpLeft (t : Nat) (m : Mvp) : Bool :=
  decide (t < m.svcTo) || m.accs.toList.any fun a => decide (t < a.held) || decide (t < a.svcAt)

/-- The causes of a core at LAP.END in cycle `t`: TQ_LEFT, VEC_LEFT, UNIT_LEFT (R144, R189, R260). -/
def coreLeft (t : Nat) (l : List (Nat × Nat)) (c : Core) : List Raise :=
  let unit : Option Nat :=
    if arrayLeft t c.mxa then some 0
    else if arrayLeft t c.mxb then some 1
    else if mvpLeft t c.mvp then some 2
    else if c.pend.any (fun p => !p.vec && !pendAsync l p) || decide (t < c.injTo) || c.mesh.toList.any (fun x => decide (t < x))
    then some 4 else none
  (if c.tq.isEmpty then [] else [(0x0120, 3, 0, 0)]) ++ (if vecLeft t c then [(0x0137, 3, 0, 0)] else []) ++
    (match unit with | some u => [(0x014B, u, 0, 0)] | none => [])

/-- The entry of `ENERGY_PROFILE` for the lap (R261, Table 11-6). -/
def energyEntry (s : State) : Nat :=
  match s.run.program with
  | some p => nth p.energy (min s.laps.runLap 31) 0
  | none => 0

/-- The checks of a die in the cycle in which it executes LAP.END. -/
def lapEndCheck (s : State) (d : Die) : State :=
  let x := s.die d
  if runLapOpen s && decide (x.seq.endCyc = some s.laps.cyc) && decide (s.laps.cyc ≤ lapD s) then
    let t := s.laps.now
    let s1 := s.setDie d { x with regs := { x.regs with loopDepth := x.seq.loops.length } }
    let s2 := (x.cores.mapIdx fun i c => (i, c)).foldl (fun s y =>
      (coreLeft t (asyncRanges x y.1) y.2).foldl (fun s r => raiseCore s d y.1 r) s) s1
    let s3 := if x.memQ.any (fun r => !r.async) then raiseDie s2 d 0x014B 11 0
      else if !x.seq.spend.isEmpty || !x.seq.colls.isEmpty || s.fabric.sends.any (fun j => decide (j.die = d)) ||
          s.fabric.data.any (fun y => decide (y.src = d) && y.live && decide (t < y.arrive)) then
        raiseDie s2 d 0x014B 6 0
      else s2
    if energyEntry s < 16 * x.seq.energy then raiseDie s3 d 0x014C 6 0 else s3
  else s

/-! ### The sequencer in a cycle (R240, R241, R251, R252, R257, R262, R263) -/

/-- Whether a program fault of this cause has already been recorded on a die in this lap. -/
def faultNoted (s : State) (d : Die) (cause : Nat) : Bool :=
  s.faults.lapRecs.any fun r => decide (r.cause = cause) && decide (r.die = d.val) && decide (r.moduleLap = s.laps.moduleLap)

/-- A program fault of the sequencer, recorded once in a lap. -/
def seqRaise (s : State) (d : Die) (cause : Nat) : State := if faultNoted s d cause then s else raiseDie s d cause 6 0

/-- A cycle in which the sequencer wants a word that it cannot issue: PC_RANGE, a stall on a loading frame, PAGE_MISS. -/
def seqBlocked (s : State) (d : Die) : State :=
  let q := (s.die d).seq
  if streamLen s d ≤ q.pc then seqRaise s d 0x014D
  else if pageLoading q q.pc then s.setSeq d { q with stalls := q.stalls + 1 }
  else seqRaise s d 0x014E

/-- Whether a wait issued in an earlier cycle is still in progress. -/
def waiting (q : Seq) (t : Nat) : Bool :=
  match q.wait with
  | some w => decide (w.issued < t)
  | none => false

/-- The sequencer after a cycle in which it issued a program word or not, and a NOP word of a wait (`held`) or not:
counters, program counter, the pipe to the cores, PSTEP. -/
def seqNext (q : Seq) (prog held : Bool) : Seq :=
  let nxt : List Loop × Nat := match q.jump with
    | some a => (q.loops, a)
    | none => advance q.loops q.pc
  let w : Issue := ⟨prog, q.s, q.pstep, if prog then q.pc else 0xFFFFFFFF⟩
  { q with
    words := if prog then q.words + 1 else q.words
    loops := if prog then nxt.1 else q.loops
    pc := if prog then nxt.2 else q.pc
    nops := if prog then q.nops else q.nops - 1
    stalls := if held then q.stalls + 1 else q.stalls
    pipe := w :: q.pipe.dropLast
    pstep := q.pstepNext.getD q.pstep, pstepNext := none, issued := false, jump := none }

/-- The sequencer of a die in this cycle; the NOP words of a lap that is aborted are no words of a wait (R281, R367). -/
def seqTick (s : State) (d : Die) : State :=
  let prog := (s.die d).seq.issued || issuing s d
  let s1 := if !prog && wantsWord s d then seqBlocked s d else s
  s1.setSeq d (seqNext (s1.die d).seq prog (bodyOpen s d && waiting (s1.die d).seq s.laps.now))

/-! ### The next cycle (R166, R248, R249, R279, R471) -/

/-- VEC_OVERLAP of R471: a write of another unit that becomes readable in cycle `t` in what a row in progress reads. -/
def guardPend (t : Nat) (c : Core) : List Raise :=
  if c.pend.any fun p => decide (p.ready ≤ t) && !p.vec &&
      (match csTarget p.w with | some a => rowGuard c t a 1 | none => false) then [(0x0133, 3, 0, 0)] else []

/-- A core when cycle `t` begins. -/
def coreBegin (t : Nat) (c : Core) : Core × List Raise := (commitPend t c, guardPend t c)

/-- The signed value of lane 0 of a vector register (R249). -/
def laneZero (c : Core) (r : Nat) : Int := toSigned 32 (leNat ((vRead c r).take 4))

/-- The combination of CTL.COLL, sign-extended (R249). -/
def collValue (k : Comb) (l : List Int) : DWord :=
  match k with
  | .or => l.foldl (fun a x => a ||| BitVec.ofInt 64 x) 0
  | .and => l.foldl (fun a x => a &&& BitVec.ofInt 64 x) 0xFFFFFFFFFFFFFFFF
  | .max => BitVec.ofInt 64 (l.foldl max (-2147483648))
  | .min => BitVec.ofInt 64 (l.foldl min 2147483647)
  | .sum => BitVec.ofInt 64 (l.foldl (· + ·) 0)

/-- The CTL.COLLs that read the cores in this cycle; their results are readable 36 cycles after issue (R249). -/
def collRead (s : State) (d : Die) : State :=
  let x := s.die d
  let due := x.seq.colls.filter fun k => decide (k.readAt ≤ s.laps.now)
  if due.isEmpty then s
  else
    let res (k : Coll) : SPend :=
      ⟨k.issued + 36, k.issued, k.sd, collValue k.comb ((x.cores.filter (activeOn · k.pq)).map (laneZero · k.vn.val))⟩
    s.setSeq d { x.seq with colls := x.seq.colls.filter (fun k => decide (s.laps.now < k.readAt))
                            spend := x.seq.spend ++ due.map res }

/-- A die when cycle `now` begins. -/
def dieBegin (s : State) (d : Die) : State :=
  let s1 := onCores s d fun x c => coreBegin x.now c
  let x := s1.die d
  collRead (s1.setDie d { x with seq := commitScalars s.laps.now x.seq, regs := { x.regs with setNow := 0 } }) d

/-- No bit is set in the new cycle yet (R6). -/
def clearSet (s : State) : State :=
  { s with pacer := { s.pacer with setNow := 0 }, run := { s.run with setNow := 0, ranCut := false }
           faults := { s.faults with setNow := 0 }, split := { s.split with setNow := 0 }
           net := { s.net with setNow := 0 }, sec := { s.sec with setNow := 0 }, power := { s.power with setNow := 0 } }

/-- One more cycle of the clock. -/
def nextCycle (s : State) : State :=
  { clearSet s with laps := { s.laps with now := s.laps.now + 1, cyc := s.laps.cyc + 1 } }

/-- At the end of each quantum of 4,096 cycles the input's readings are those of its sensors over it, and the energy count has
grown by what the input took: free values (R7, R456, log 14). -/
def readInput (s : State) : State :=
  if s.laps.cyc % 4096 = 0 then
    let d := s.drawN 4
    let f (i : Nat) : Nat := Config.freeNat (d.1 + i)
    { d.2 with power := { s.power with
      vinMv := f 0 % 65536, iinDa := f 1 % 65536, pinW := f 2 % 65536, energyJ := s.power.energyJ + f 3 } }
  else s

/-- The end of a cycle while laps turn. -/
def lapTick (s : State) : State :=
  let s1 := forDies lapEndCheck s
  let s2 := forDies (fun x d => onCores x d fun y c => coreTick y.now c) s1
  let s3 := forDies seqTick (sendTick s2)
  let s4 := forDies dieBegin (readInput (nextCycle s3))
  { s4 with fabric := { s4.fabric with crossings := s4.fabric.crossings.filter fun y => decide (s4.laps.now ≤ y.2.2.1) } }

/-- The end of a cycle: in a module that is off nothing runs; before laps turn, and under the responder, time passes. -/
def tick (s : State) : State :=
  if decide (s.power.phase = .off) then s
  else if portOn s then lapTick s
  else { clearSet s with laps := { s.laps with now := s.laps.now + 1 } }

end Sys2Proof.Machine
end

