-- ==== Sys2Proof/Safety.lean ====
section
/-! DEFINITION. What the statements speak of: the canonical form of every memory, and other facts of a safe state. -/
namespace Sys2Proof.Machine

/-- What a core holds that timed writes change: core store, vector registers, predicate and address registers. -/
def Core.stores (c : Core) : Mem × Mem × Vector DWord 16 × Vector (BitVec 16) 16 := (c.cs, c.v, c.p, c.a)

/-- Every byte memory of a core is in canonical form. -/
def Core.memWf (c : Core) : Prop := Memory.wf c.cs = true ∧ Memory.wf c.v = true

/-- The data lines and the parity lines of a tier are in canonical form. -/
def Tier.memWf (t : Tier) : Prop := Memory.wf t.mem = true ∧ Memory.wf t.parity = true

/-- Every byte memory of the module is in canonical form: tiers, core stores, vector registers, flash, staging buffer. -/
def MemCanonical (s : State) : Prop :=
  (∀ d : Die, (s.die d).near.memWf ∧ (s.die d).far.memWf ∧ ∀ c ∈ (s.die d).cores ++ (s.die d).rest, c.memWf) ∧
  Memory.wf s.sec.flash = true ∧ Memory.wf s.sec.staging = true

/-- From one state of the fuses to a later one, fuses are only blown (R429, R430): the rollback counter, of 64
fuses, does not fall; no revocation and no service lock is undone; the programmed digests, part and serial numbers, trims and
identity key stay (R8, R425, R431). -/
def FusesOnlyBlown (x y : Sec) : Prop :=
  (x.rollback ≤ 64 → x.rollback ≤ y.rollback ∧ y.rollback ≤ 64) ∧
  (∀ i : Fin 2, x.revoked[i] = true → y.revoked[i] = true) ∧ (x.locked = true → y.locked = true) ∧
  y.slotDigest = x.slotDigest ∧ y.part = x.part ∧ y.serial = x.serial ∧ y.trims = x.trims ∧ y.identKey = x.identKey

/-- The fault queue holds at most 256 records (R366). -/
def FaultQueueBounded (s : State) : Prop := s.faults.queue.length ≤ 256

/-- Every barrier counter holds at most 0xFFFF (R255). -/
def BarriersBounded (s : State) : Prop := ∀ (d : Die) (i : Fin 16), (s.die d).seq.bar[i] ≤ 0xFFFF

/-- The die whose cores a command of the core slots acts on, when it acts on nothing else: MXA, MXB, MVP, VEC and MOV
rows (chapter 12). -/
def coreDie : Instr → Option Die
  | .mxCfg d .. | .mxLdw d .. | .mxSwap d .. | .mxStrm d .. | .mxOpen d .. | .mxZero d .. | .mxClose d .. | .mxSpill d ..
  | .mxFill d .. | .mxFree d .. => some d
  | .mvOpen d .. | .mvZero d .. | .mvDot d .. | .mvCol d .. | .mvClose d .. | .mvSpill d .. | .mvFill d .. => some d
  | .vMov d .. | .vAnd d .. | .vOr d .. | .vXor d .. | .vSel d .. | .vPlog d .. | .vNeg d .. | .vAbs d .. | .vMax d ..
  | .vMin d .. | .vCmp d .. | .vAdd d .. | .vSub d .. | .vMul d .. | .vFma d .. | .vCvt d .. | .vFn d .. | .vFnGate d ..
  | .softmax d .. | .smsum d .. | .smnorm d .. | .lnorm d .. | .rmsnorm d .. | .nstat d .. | .vRed d .. | .vQuant d ..
  | .vPop d .. | .vQzero d .. | .vQrnd d .. | .vQspill d .. | .vQfill d .. | .vRdfl d .. => some d
  | .movFeed d .. | .movTag d .. | .movLdv d .. | .movStv d .. | .movLdp d .. | .movStp d .. | .movCpy d .. | .movAset d ..
  | .movAadd d .. | .movAidx d .. => some d
  | _ => none

/-- In this cycle the cores of a die take a program word (R240, R241). -/
def Acts (s : State) (d : Die) : Prop := (issueNow s d).prog = true

/-- Where the cores of the die take a program word and core `k` is `c`, the command completes and leaves it `c'`. -/
def CoreBecomes (i : Instr) (s : State) (d : Die) (k : Nat) (c c' : Core) : Prop :=
  Acts s d → (s.die d).cores[k]? = some c → ∃ t, exec i s = .next t ∧ (t.die d).cores[k]? = some c'

/-- What a command of a core slot may change: the cores of its die (never what timed writes change), the energy that the
die counts, and, where cores report program faults, the lap's fault marks and the records found in it. -/
structure SlotFrame (d : Die) (s t : State) : Prop where
  pacer : t.pacer = s.pacer
  fabric : t.fabric = s.fabric
  run : t.run = s.run
  mladar : t.mladar = s.mladar
  split : t.split = s.split
  net : t.net = s.net
  sec : t.sec = s.sec
  power : t.power = s.power
  ident : t.ident = s.ident
  freeIdx : t.freeIdx = s.freeIdx
  pending : t.pending = s.pending
  laps : ({ t.laps with lapFault := s.laps.lapFault, progFault := s.laps.progFault } : Laps) = s.laps
  faults : ({ t.faults with detected := s.faults.detected, lapRecs := s.faults.lapRecs } : Faults) = s.faults
  others : ∀ e, e ≠ d → t.die e = s.die e
  die : ({ t.die d with cores := (s.die d).cores, seq := { (t.die d).seq with energy := (s.die d).seq.energy } } : DieSt) =
    s.die d
  stores : (t.die d).cores.map Core.stores = (s.die d).cores.map Core.stores

/-- The die that a command of the MEM slot acts on. -/
def memDie : Instr → Option Die
  | .memRd d .. | .memWr d .. | .memQadd d .. | .memMaxloc d .. | .memRadd d .. => some d
  | _ => none

/-- The die that a command of the CTL slot acts on. -/
def ctlDie : Instr → Option Die
  | .nop d | .ctlLi d .. | .ctlAlu d .. | .ctlMul d .. | .ctlLidx d .. | .ctlLinfo d .. | .ctlColl d .. | .ctlPstep d ..
  | .ctlBr d .. | .ctlJmp d .. | .ctlLoop d .. | .ctlSig d .. | .ctlWait d .. | .ctlPage d .. | .lapEnd d .. => some d
  | _ => none

/-- The conditions of R251 on the integers that two scalars stand for. -/
def brHolds (c : BrCond) (a b : DWord) : Bool :=
  match c with
  | .eq => decide (a = b)
  | .ne => decide (a ≠ b)
  | .lt => decide (a.toInt < b.toInt)
  | .le => decide (a.toInt ≤ b.toInt)
  | .ltu => decide (a.toNat < b.toNat)
  | .leu => decide (a.toNat ≤ b.toNat)

/-- Registers from address `a`, one word apart, that all read `v` after reset. -/
def resetWords (a n v : Nat) : List (Nat × Nat) := (List.range n).map fun i => (a + 4 * i, v)

/-- Reset values of the lap and pacer registers (Tables 2-4, 2-7 to 2-11). -/
def resetLapTable : List (Nat × Nat) :=
  [(0x10000, 0x0C), (0x10004, 0)] ++ resetWords 0x10008 8 0 ++ [(0x10028, 0), (0x1002C, 0), (0x10040, 0xC0C)] ++
    resetWords 0x10044 3 0 ++
    [(0x10100, 12288), (0x10108, 8192), (0x10110, 4096), (0x10118, 256), (0x10120, 4096), (0x10128, 4096), (0x10130, 1024)] ++
    (List.range 7).map fun i => (0x10104 + 8 * i, 0)

/-- Reset values of the mode and replay registers (Tables 10-8, 15-7 to 15-10). -/
def resetRunTable : List (Nat × Nat) :=
  [(0x20000, 0x303)] ++ resetWords 0x20008 10 0 ++ resetWords 0x20080 16 0 ++ [(0x20100, 0), (0x20104, 0)]

/-- Reset values of the fault and split registers (Tables 16-6 to 16-8, 17-9, 17-10). -/
def resetFaultTable : List (Nat × Nat) :=
  resetWords 0x30004 12 0 ++ resetWords 0x30040 16 0 ++ resetWords 0x30200 32 0 ++ [(0x30800, 2), (0x30804, 1)] ++
    resetWords 0x30808 14 0

/-- Reset values of the network, security, power and identity registers (Tables 18-12, 18-13, 19-7, 20-12, 21-5). -/
def resetNetTable : List (Nat × Nat) :=
  [(0x40000, 0), (0x40004, 0x1CE400), (0x40008, 0x28B7A3), (0x4000C, 0x100)] ++ resetWords 0x40018 6 0 ++
    resetWords 0x40040 4 0 ++ resetWords 0x40100 4 0 ++ [(0x40110, 0x430000)] ++ resetWords 0x40114 3 0 ++
    resetWords 0x40120 8 0 ++ [(0x402F0, 0), (0x402FC, 0)] ++
    [(0x5000C, 0), (0x50010, 1), (0x50014, 0), (0x60000, 0x301), (0x60010, 0), (0x60014, 0), (0x6001C, 0), (8, 1), (0xC, 0)]

/-- Reset values of the sequencer registers of the die with base `b` (Tables 11-10 to 11-12). -/
def resetDieTable (b : Nat) : List (Nat × Nat) :=
  [(b, 0), (b + 4, 0), (b + 8, 0xFFFFFFFF)] ++ resetWords (b + 0xC) 4 0 ++
    ((List.range 15).map fun f => [(b + 0x100 + 16 * f, 0xFFFFF), (b + 0x104 + 16 * f, 0x3FFFF), (b + 0x108 + 16 * f, 0xFFFFFFFF)]).flatten

/-- Every register whose reset value the register tables state, with that value. -/
def resetTable : List (Nat × Nat) :=
  resetLapTable ++ resetRunTable ++ resetFaultTable ++ resetNetTable ++
    ((List.range 16).map fun d => resetDieTable (0x100000 + 0x10000 * d)).flatten

/-- The invariant of every step. -/
def Inv (s : State) : Prop := MemCanonical s ∧ FaultQueueBounded s ∧ BarriersBounded s

end Sys2Proof.Machine
end

