-- ==== Sys2Proof/Certificates/Slice0/Obligations.lean ====
section
/-! DEFINITION. The statements for the provers. -/
open Sys2Proof Sys2Proof.Machine

/-! ### The block: its queue, its clock, its reset, its frame -/

/-- Every command at the front of the queue is executed, alone, on the state with the queue's rest. -/
def Obligations.StepRunsFrontCommand : Prop :=
  ∀ (c : Instr) (rest : List Instr) (s : State), step { s with pending := c :: rest } = exec c { s with pending := rest }

/-- On an empty queue one cycle passes (log 2, the model's choice): the clock of a powered module counts one cycle (R3); while
laps turn the lap cycle does too (R19), and the lap, its length and its close stay. A module that is off stays as it is. -/
def Obligations.EmptyQueueStepIsOneCycle : Prop :=
  ∀ s : State, s.pending = [] → ∃ t, step s = .next t ∧ t.pending = [] ∧
    (s.power.phase = .off → t = s) ∧
    (s.power.phase ≠ .off → t.laps.now = s.laps.now + 1 ∧ t.net = { s.net with setNow := 0 } ∧
      t.run = { s.run with setNow := 0, ranCut := false } ∧ t.sec = { s.sec with setNow := 0 } ∧
      t.split = { s.split with setNow := 0 } ∧ t.pacer = { s.pacer with setNow := 0 } ∧
      t.power = { s.power with setNow := 0, vinMv := t.power.vinMv, iinDa := t.power.iinDa, pinW := t.power.pinW
                               energyJ := t.power.energyJ }) ∧
    (portOn s = true → t.laps.cyc = s.laps.cyc + 1) ∧
    (portOn s = false → t.laps.cyc = s.laps.cyc) ∧
    t.laps.moduleLap = s.laps.moduleLap ∧ t.laps.len = s.laps.len ∧ t.laps.runLap = s.laps.runLap ∧
    t.laps.state = s.laps.state ∧ t.laps.closed = s.laps.closed ∧ t.mladar = s.mladar ∧
    t.faults.queue = s.faults.queue ∧ s.power.energyJ ≤ t.power.energyJ

/-- The invariant holds at reset. -/
def Obligations.ResetMeetsInvariant : Prop := Inv State.reset

/-- R338: after reset STRICT and RECORDS are 1 and the seed is 0; a lap that opens in the idle state lasts 4,096 cycles,
whatever the mode word holds. -/
def Obligations.ResetModeAndIdleLapLength : Prop :=
  State.reset.run.strict = true ∧ State.reset.run.records = true ∧ State.reset.run.seed = 0 ∧
    ctlRead State.reset 0x20000 = some 0x303 ∧ ctlRead State.reset 0x20008 = some 0 ∧ ctlRead State.reset 0x2000C = some 0 ∧
    ∀ s : State, s.laps.state = 0 → (freshLap s).laps.len = 4096

/-- The reset values that the register tables state (Tables 2-7 to 2-11, 11-10 to 11-12, 15-7 to 15-10, 16-6 to 16-8, 17-9,
17-10, 18-12, 19-7, 19-8): each register with the value that it reads after reset. -/
def Obligations.ResetRegisterValues : Prop :=
  ∀ x ∈ resetTable, ctlRead State.reset x.1 = some x.2

/-- Every step keeps every memory of the module in canonical form, the fault queue within 256 records (R366) and every
barrier counter within 16 bits (R247, R255). -/
def Obligations.StepKeepsInvariant : Prop :=
  ∀ s t : State, Inv s → step s = .next t → Inv t

/-- No step undoes a blown fuse, lowers the rollback counter or changes a programmed digest, part or serial number. -/
def Obligations.StepOnlyBlowsFuses : Prop :=
  ∀ s t : State, step s = .next t → FusesOnlyBlown s.sec t.sec

/-- The effect of a command never touches the queue, the clock never runs back, and no draw of a free value is used twice. -/
def Obligations.ExecKeepsQueueAndClock : Prop :=
  ∀ (c : Instr) (s t : State), exec c s = .next t →
    t.pending = s.pending ∧ s.laps.now ≤ t.laps.now ∧ s.freeIdx ≤ t.freeIdx

/-- No command stops the machine: an ill-formed one is refused as reserved (R243, R276), and a well-formed one completes,
but for CTL.LIDX of a level that is not open, which admission refuses (R280). -/
def Obligations.WellFormedCommandsComplete : Prop :=
  ∀ (c : Instr) (s : State),
    (c.wf = false → exec c s = .refused .reserved) ∧
    (c.wf = true → (∃ t, exec c s = .next t) ∨
      ∃ d sd q, c = .ctlLidx d sd q ∧ issuing s d = true ∧ (s.die d).seq.loops.length ≤ q.val ∧ exec c s = .refused .reserved)

/-- A NOP word changes no state in any unit (R241): while the word that takes effect is no program word, an operation of a
core slot changes nothing, and while the sequencer issues none, neither does one of the CTL slot. -/
def Obligations.NopWordChangesNothing : Prop :=
  ∀ (c : Instr) (s : State) (d : Die), c.wf = true →
    (coreDie c = some d → ¬ Acts s d → exec c s = .next s) ∧
    (memDie c = some d → ¬ Acts s d → exec c s = .next s) ∧
    (ctlDie c = some d → issuing s d = false → exec c s = .next s)

/-- The frame of the 58 commands of the MXA, MXB, MVP, VEC and MOV slots. -/
def Obligations.CoreSlotFrame : Prop :=
  ∀ (c : Instr) (s t : State) (d : Die), coreDie c = some d → exec c s = .next t → SlotFrame d s t

/-! ### CTL slot -/

/-- CTL.LI, ALU, MUL, LIDX and LINFO (Tables 11-3, 11-4, 12-1): the value written and the cycle from which it is readable;
nothing else changes but the energy count. -/
def Obligations.ScalarOperationsWrite : Prop :=
  ∀ (s : State) (d : Die) (sd sa sb : Reg6), issuing s d = true →
    let q := (s.die d).seq
    let wr (op lat : Nat) (v : DWord) : State :=
      s.setSeq d { q with energy := q.energy + Config.charge op, issued := true
                          spend := q.spend ++ [⟨s.laps.now + lat, s.laps.now, sd, v⟩] }
    (∀ imm, exec (.ctlLi d false sd imm) s = .next (wr 0x01 1 (imm.signExtend 64))) ∧
    (∀ imm, exec (.ctlLi d true sd imm) s = .next (wr 0x01 1 (imm ++ (q.s[sd]).extractLsb' 0 32))) ∧
    (∀ fn imm, exec (.ctlAlu d fn sd sa sb false imm) s = .next (wr 0x02 1 (aluFn fn q.s[sa] q.s[sb]))) ∧
    (∀ fn imm, exec (.ctlAlu d fn sd sa sb true imm) s = .next (wr 0x02 1 (aluFn fn q.s[sa] (imm.signExtend 64)))) ∧
    exec (.ctlMul d sd sa sb) s = .next (wr 0x03 3 (BitVec.ofNat 64 (q.s[sa].toNat * q.s[sb].toNat))) ∧
    (∀ (k : Fin 8) l, q.loops[k.val]? = some l → exec (.ctlLidx d sd k) s = .next (wr 0x04 1 (BitVec.ofNat 64 l.iter))) ∧
    (∀ r, s.run.run = some r → ∀ (k : Fin 16) v,
      [s.laps.runLap, s.laps.moduleLap, d.val, s.laps.curK, r.n, b2n r.strict + 2 * b2n r.records, r.seed.toNat,
        nth s.net.presented d 0][k.val]? = some v →
      exec (.ctlLinfo d sd k) s = .next (wr 0x05 2 (BitVec.ofNat 64 v)))

/-- The functions of Table 12-2, in terms of the integers that the operands stand for. -/
def Obligations.AluFunctionValues : Prop :=
  ∀ a b : DWord,
    (aluFn .add a b).toNat = (a.toNat + b.toNat) % 2 ^ 64 ∧
    (aluFn .sub a b).toInt = (a.toInt - b.toInt).bmod (2 ^ 64) ∧
    (∀ i : Nat, (aluFn .and a b).getLsbD i = (a.getLsbD i && b.getLsbD i) ∧
      (aluFn .or a b).getLsbD i = (a.getLsbD i || b.getLsbD i) ∧
      (aluFn .xor a b).getLsbD i = (a.getLsbD i != b.getLsbD i)) ∧
    (aluFn .shl a b).toNat = a.toNat * 2 ^ (b.toNat % 64) % 2 ^ 64 ∧
    (aluFn .shr a b).toNat = a.toNat / 2 ^ (b.toNat % 64) ∧
    (aluFn .sar a b).toInt = a.toInt / 2 ^ (b.toNat % 64) ∧
    (aluFn .min a b).toInt = min a.toInt b.toInt ∧ (aluFn .max a b).toInt = max a.toInt b.toInt ∧
    (aluFn .minu a b).toNat = min a.toNat b.toNat ∧ (aluFn .maxu a b).toNat = max a.toNat b.toNat ∧
    aluFn .slt a b = (if a.toInt < b.toInt then 1 else 0) ∧ aluFn .sltu a b = (if a.toNat < b.toNat then 1 else 0)

/-- R248: what a scalar register holds once the writes that become readable by cycle `t` are taken: the value of the one
that becomes readable last, among several of one cycle that of the operation issued last; with none, its previous value. -/
def Obligations.ScalarWritesBecomeReadable : Prop :=
  ∀ (q : Seq) (t : Nat),
    (∀ p ∈ q.spend, p.ready ≤ t →
      (∀ y ∈ q.spend, y.ready ≤ t → y.reg = p.reg → y ≠ p → y.ready < p.ready ∨ (y.ready = p.ready ∧ y.issued < p.issued)) →
      (commitScalars t q).s[p.reg] = p.val) ∧
    (∀ r : Reg6, (∀ p ∈ q.spend, p.ready ≤ t → p.reg ≠ r) → (commitScalars t q).s[r] = q.s[r]) ∧
    (commitScalars t q).spend = q.spend.filter (fun p => decide (t < p.ready))

/-- CTL.BR, CTL.JMP (R251) and CTL.LOOP (R252): the target, and the two NOP words that follow; the level pushed, or, with a
count of 0, the word after the body with two NOP words. -/
def Obligations.BranchesAndLoopsRedirect : Prop :=
  ∀ (s : State) (d : Die) (sa sb : Reg6) (ofs : BitVec 20), issuing s d = true →
    0 ≤ ((s.die d).seq.pc : Int) + ofs.toInt →
    let q := (s.die d).seq
    let tgt := (((s.die d).seq.pc : Int) + ofs.toInt).toNat
    let hold (op : Nat) : Seq := { q with energy := q.energy + Config.charge op, issued := true }
    let br (op : Nat) (t : Option Nat) : State := s.setSeq d { hold op with jump := t, nops := 2 }
    (∀ c : BrCond, exec (.ctlBr d c sa sb ofs) s = .next (br 0x10 (if brHolds c q.s[sa] q.s[sb] then some tgt else none))) ∧
    exec (.ctlJmp d ofs) s = .next (br 0x11 (some tgt)) ∧
    (∀ (src : Bool) (count body : BitVec 16),
      let n := if src then q.s[sa].toNat % 2 ^ 32 else count.toNat
      exec (.ctlLoop d src sa count body) s = .next
        (if n = 0 then
          let r := advance q.loops (q.pc + (body.toNat + 1))
          s.setSeq d { hold 0x12 with loops := r.1, jump := some r.2, nops := 2 }
        else s.setSeq d { hold 0x12 with loops := ⟨n, 0, q.pc + 1, q.pc + (body.toNat + 1)⟩ :: q.loops }))

/-- A loop whose body of `b` words, the words `w + 1` to `w + b`, holds no inner loop and no branch: after `c · b` words
its level is gone and the word that follows is the one that follows its last word for the enclosing levels (R252, R253); and
in the k-th word of an iteration `i` the index that CTL.LIDX reads is `i`. -/
def Obligations.LoopRunsItsCount : Prop :=
  ∀ (ls : List Loop) (c b w : Nat), 1 ≤ c → 1 ≤ b →
    let go : List Loop × Nat → List Loop × Nat := fun x => advance x.1 x.2
    go^[c * b] (⟨c, 0, w + 1, w + b⟩ :: ls, w + 1) = advance ls (w + b) ∧
    ∀ i k, i < c → k < b → go^[i * b + k] (⟨c, 0, w + 1, w + b⟩ :: ls, w + 1) = (⟨c - i, i, w + 1, w + b⟩ :: ls, w + 1 + k)

/-- CTL.SIG (R255): one signal to each die of the mask, due 8 + 24 h cycles later, with the epochs that R311 gives its header.
SIGNAL_ARRIVE: every signal due at the counter counts, but those whose epochs are not in force (R312); above 0xFFFF, or
late, the lap has a program fault. Both complete in every state. CTL.SIG in a program word (R243) adds its signals after those
under way; a word that is none changes nothing (R241). SIGNAL_ARRIVE leaves the counter at its value plus the due signals
that are not dropped, at most 0xFFFF, and no due signal under way; of other dies and other counters nothing changes. -/
def Obligations.SignalsReachCounters : Prop :=
  ∀ (s : State) (d : Die) (bar : Reg4),
    (∀ mask : BitVec 16, mask ≠ 0 → issuing s d = true → ∃ t, exec (.ctlSig d bar mask) s = .next t ∧
      t = { s.setSeq d { (s.die d).seq with energy := (s.die d).seq.energy + Config.charge 0x18, issued := true } with
            fabric := t.fabric } ∧
      t.fabric = { s.fabric with signals := t.fabric.signals } ∧
      ∀ g : Signal, t.fabric.signals.count g = s.fabric.signals.count g +
        (if mask.getLsbD g.die ∧ g.src = d ∧ g.bar = bar ∧ g.arrive = s.laps.now + 8 + 24 * hops d g.die ∧
          g.sentLap = some s.laps.moduleLap ∧ g.srcEpoch = (s.die d).epoch ∧ g.dstEpoch = epochOf s d g.die then 1 else 0)) ∧
    (let mine (g : Signal) : Bool := decide (g.die = d) && decide (g.bar = bar) && decide (g.arrive ≤ s.laps.now)
     let n := (s.fabric.signals.filter mine).length
     1 ≤ s.laps.cyc → s.laps.cyc ≤ lapD s → n + (s.die d).seq.bar[bar] ≤ 0xFFFF →
     (∀ g ∈ s.fabric.signals, mine g = true → staleEpochs s g.src d g.srcEpoch g.dstEpoch = false ∧
       (g.sentLap = none ∨ (g.sentLap = some s.laps.moduleLap ∧ g.arrive ≤ absD s))) →
     exec (.signalArrive d bar) s = .next
       { s.setSeq d { (s.die d).seq with bar := (s.die d).seq.bar.set bar ((s.die d).seq.bar[bar] + n) } with
         fabric := { s.fabric with signals := s.fabric.signals.filter (fun g => !mine g) } }) ∧
    (∀ g ∈ s.fabric.signals, g.die = d → g.bar = bar → g.arrive ≤ s.laps.now → g.sentLap ≠ none →
      staleEpochs s g.src d g.srcEpoch g.dstEpoch = false →
      (g.sentLap ≠ some s.laps.moduleLap ∨ absD s < g.arrive) →
      ∃ t, exec (.signalArrive d bar) s = .next t ∧ t.laps.lapFault = true ∧ t.laps.progFault = true) ∧
    (∀ mask : BitVec 16, mask ≠ 0 →
      exec (.ctlSig d bar mask) s = .next
        (if issuing s d then
          { s.setSeq d { (s.die d).seq with energy := (s.die d).seq.energy + Config.charge 0x18, issued := true } with
            fabric := { s.fabric with signals := s.fabric.signals ++
              ((List.finRange 16).filter (fun e : Die => mask.getLsbD e)).map fun e =>
                { src := d, die := e, bar := bar, arrive := s.laps.now + 8 + 24 * hops d e
                  sentLap := some s.laps.moduleLap, srcEpoch := (s.die d).epoch, dstEpoch := epochOf s d e } } }
        else s)) ∧
    (∃ t, exec (.signalArrive d bar) s = .next t ∧
      (let mine (g : Signal) : Bool := decide (g.die = d) && decide (g.bar = bar) && decide (g.arrive ≤ s.laps.now) &&
         (g.sentLap.isSome || (decide (1 ≤ s.laps.cyc) && decide (s.laps.cyc ≤ lapD s)))
       let due := (s.fabric.signals.filter mine).filter fun g => !staleEpochs s g.src d g.srcEpoch g.dstEpoch
       t.fabric = { s.fabric with signals := s.fabric.signals.filter fun g => !mine g } ∧
       t.dies = (s.setSeq d { (s.die d).seq with
         bar := (s.die d).seq.bar.set bar (min ((s.die d).seq.bar[bar] + due.length) 0xFFFF) }).dies))

/-- CTL.WAIT, WAIT_MET and WAIT_LIMIT (R257). -/
def Obligations.WaitsEndOrFault : Prop :=
  ∀ (s : State) (d : Die),
    (∀ (bar : Reg4) (n : BitVec 16) (lim : Word), n ≠ 0 → issuing s d = true →
      exec (.ctlWait d bar n lim) s = .next (s.setSeq d { (s.die d).seq with
        energy := (s.die d).seq.energy + Config.charge 0x19, issued := true
        wait := some ⟨bar, n.toNat, lim.toNat, s.laps.now⟩ })) ∧
    (∀ w : Wait, (s.die d).seq.wait = some w →
      let b := (s.die d).seq.bar[w.bar]
      (w.n ≤ b → w.limit = 0 ∨ s.laps.now ≤ w.issued + w.limit → exec (.waitMet d) s = .next (s.setSeq d { (s.die d).seq with
        bar := (s.die d).seq.bar.set w.bar (b - w.n), wait := none
        nops := if w.issued < s.laps.now then 1 else 0
        stalls := if w.issued < s.laps.now then (s.die d).seq.stalls + 1 else (s.die d).seq.stalls })) ∧
      (b < w.n ∨ (w.limit ≠ 0 ∧ w.issued + w.limit < s.laps.now) → exec (.waitMet d) s = .next s) ∧
      (w.limit ≠ 0 → s.laps.now = w.issued + w.limit + 1 →
        ∃ t, exec (.waitLimit d) s = .next t ∧ t.laps.progFault = true ∧ t.laps.lapFault = true ∧ t.dies = s.dies ∧
          ∃ r ∈ t.faults.detected, r.cause = 0x14A ∧ r.die = d ∧ r.at_ = s.laps.now) ∧
      (w.limit = 0 ∨ s.laps.now ≠ w.issued + w.limit + 1 → exec (.waitLimit d) s = .next s))

/-- CTL.PAGE (R263) starts to load a page of the stream into a frame that neither holds the page being issued nor loads;
PAGE_LOAD_DONE: the frame holds it 176 cycles after its last word. RESIDENT_RELOAD_DONE (R271). -/
def Obligations.PagesLoadAndAreHeld : Prop :=
  ∀ (s : State) (d : Die),
    (∀ (src : Bool) (sa : Reg6) (page : BitVec 14), issuing s d = true →
      let q := (s.die d).seq
      let p := if src then q.s[sa].toNat else page.toNat
      let f : Fin 128 := Fin.ofNat 128 p
      (p * 1024 < streamLen s d → (∀ a b c, q.frames[f] ≠ .loading a b c) → q.frames[f] ≠ .held (q.pc / 1024) →
        exec (.ctlPage d src sa page) s = .next (s.setSeq d { q with
          issued := true
          frames := q.frames.set f (.loading p 0 s.laps.now), pageQ := q.pageQ ++ [p] })) ∧
      (streamLen s d ≤ p * 1024 → ∃ t, exec (.ctlPage d src sa page) s = .next t ∧ t.laps.progFault = true ∧
        (t.die d).seq.frames = q.frames ∧ ∃ r ∈ t.faults.detected, r.cause = 0x150)) ∧
    (∀ (f : Fin 128) (p last : Nat), (s.die d).seq.frames[f] = .loading p (pageWords s d p) last →
      (last + 176 ≤ s.laps.now → exec (.pageLoadDone d f) s =
        .next (s.setSeq d { (s.die d).seq with frames := (s.die d).seq.frames.set f (.held p) })) ∧
      (s.laps.now < last + 176 → exec (.pageLoadDone d f) s = .next s)) ∧
    ((s.die d).regs.state = 1 → (s.die d).due = 0 → s.run.program.isSome = true → s.run.loadCodes = [] → s.laps.state = 0 → s.run.run = none →
      ∃ t, exec (.residentReloadDone d) s = .next t ∧ (t.die d).regs.state = 2 ∧ ∀ e, e ≠ d → t.die e = s.die e)

/-- NOP, CTL.COLL (R249), CTL.PSTEP (R236) and LAP.END (R258, R259): LAP.END is executed 12 cycles after its issue, CTL.COLL
reads the cores 12 cycles after it, PSTEP acts from the next word. -/
def Obligations.CollPstepLapEndAct : Prop :=
  ∀ (s : State) (d : Die), exec (.nop d) s = .next s ∧ (issuing s d = true →
    let q := (s.die d).seq
    let hold (op : Nat) : Seq := { q with energy := q.energy + Config.charge op, issued := true }
    (∀ sd vn comb pq, exec (.ctlColl d sd vn comb pq) s = .next
      (s.setSeq d { hold 0x06 with colls := q.colls ++ [⟨s.laps.now + 12, s.laps.now, sd, vn, comb, pq⟩] })) ∧
    (∀ sa : Reg6, exec (.ctlPstep d sa) s = .next
      (s.setSeq d { hold 0x07 with pstepNext := some (BitVec.ofNat 32 q.s[sa].toNat) })) ∧
    (∀ fin : Bool, exec (.lapEnd d fin) s = .next
      (s.setSeq d { hold 0x3F with ended := true, endCyc := some (s.laps.cyc + 12), final := fin })))

/-! ### MXA, MXB and MVP slots -/

/-- MX.CFG (R106), MX.LDW (R117) and MX.SWAP (R118, R119) at a core: format and cap; the load of rows that begins two cycles
later into the shadow bank, which it owns; the exchange of the banks, and the cycle from which the shadow window is open. -/
def Obligations.ArraysAreConfiguredLoadedSwapped : Prop :=
  ∀ (s : State) (d : Die) (i : Nat) (c : Core) (k : Arr),
    let m := c.arr k
    let now := s.laps.now
    (∀ (f : Fmt) (cap : Fin 32), arrayFmt f = true → capOk f cap = true → m.feed = [] →
      CoreBecomes (.mxCfg d k f cap) s d i c (c.setArr k { m with fmt := f, cap := cap, cfgAt := now })) ∧
    (∀ (p : Reg4) (f : Fmt) (rows : Fin 32) (stride : BitVec 16) (a : Csa), arrayFmt f = true → 1 ≤ rows.val → rows.val ≤ 16 →
      m.loadEnd < now → m.winOpen ≤ now + 2 →
      (activeOn c p = false →
        CoreBecomes (.mxLdw d k p f rows stride a) s d i c (c.setArr k { m with loadEnd := now + 17 })) ∧
      (activeOn c p = true → csaAddr c a % rowBytes f = 0 → stride.toNat % rowBytes f = 0 →
        csaAddr c a + (rows.val - 1) * stride.toNat + rowBytes f ≤ 0xC000 →
        CoreBecomes (.mxLdw d k p f rows stride a) s d i c (c.setArr k
          { m with loadEnd := now + 17, ldw := some ⟨now, csaAddr c a, stride.toNat, rows, f⟩
                   bank0 := if m.active1 then ⟨f, List.replicate 256 0, List.replicate 256 0⟩ else m.bank0
                   bank1 := if m.active1 then m.bank1 else ⟨f, List.replicate 256 0, List.replicate 256 0⟩ }))) ∧
    (m.loadEnd < now → CoreBecomes (.mxSwap d k) s d i c (c.setArr k
      { m with active1 := !m.active1, maxTp := 0, winOpen := now + 15 + max m.maxTp (timePer m.fmt m.cap) }))

/-- R113, R117: in cycles a + 2 to a + 17 of a load of cycle a, the loader writes every row of the shadow bank and its cells'
residue registers, the first `rows` from core store and the others with zeros; the active bank stays. -/
def Obligations.LoaderWritesEveryRow : Prop :=
  ∀ (cs : Mem) (m : MArray) (j : LoadJob), m.ldw = some j → 1 ≤ j.rows → j.rows ≤ 16 →
    (if m.active1 then m.bank0 else m.bank1) = ⟨j.fmt, List.replicate 256 0, List.replicate 256 0⟩ →
    let el (n : Nat) : Nat := elemAt (fmtBits j.fmt) (memRead cs (j.addr + n / 16 * j.stride) (rowBytes j.fmt)) (n % 16)
    let r := (List.range 16).foldl (fun m i => loaderTick (j.start + 2 + i) cs m) m
    r.ldw = none ∧ r.active1 = m.active1 ∧ r.bank = m.bank ∧
    (if m.active1 then r.bank0 else r.bank1) =
      ⟨j.fmt, (List.range 256).map fun n => if n / 16 < j.rows then el n else 0,
        (List.range 256).map fun n => if n / 16 < j.rows then cellRes j.fmt (el n) else 0⟩

/-- MX.OPEN (R124), MX.ZERO (R80) and MX.FREE (R125) at a core, with the port cycles of R131. -/
def Obligations.GroupsOpenClearAndFree : Prop :=
  ∀ (s : State) (d : Die) (i : Nat) (c : Core) (k : Arr) (gi : Fin 8),
    let m := c.arr k
    let now := s.laps.now
    m.portTo ≤ now →
    (∀ (n : BitVec 8) (first : Fin 128) (f : Fmt), accFmt f = true → 1 ≤ n.toNat → n.toNat ≤ 128 →
      first.val + n.toNat ≤ tileRows f → overlaps m gi (groupRange f first n.toNat) = false → m.groups[gi] = none →
      CoreBecomes (.mxOpen d k n first f gi) s d i c (c.setArr k
        { m with groups := m.groups.set gi (some ⟨f, first, List.replicate n.toNat
                   ⟨List.replicate 16 (Quire.zero f), 0, none, false, 0, now + n.toNat * portShort f⟩, false, none, 0⟩)
                 portTo := now + n.toNat * portShort f })) ∧
    (∀ g, m.groups[gi] = some g → (∀ r ∈ g.rows, r.doneAt ≤ now) →
      let fin := now + g.rows.length * portShort g.fmt
      (∀ p, activeOn c p = true → CoreBecomes (.mxZero d k p gi) s d i c (c.setArr k
        { m with groups := m.groups.set gi (some { g with
                   rows := g.rows.map fun r => ⟨List.replicate 16 (Quire.zero g.fmt), 0, none, false, r.doneAt, fin⟩
                   sat := false }), portTo := fin })) ∧
      (∀ p, activeOn c p = false → CoreBecomes (.mxZero d k p gi) s d i c (c.setArr k
        { m with groups := m.groups.set gi (some { g with rows := g.rows.map fun r => { r with svcAt := fin } })
                 portTo := fin })) ∧
      CoreBecomes (.mxFree d k gi) s d i c (c.setArr k { m with groups := m.groups.set gi none, portTo := now + 1 }))

/-- MX.STRM (R85, R104, R112, R127, R128, R132, R245) at a core: it takes the oldest entry, occupies the array for the time per
product, and, where active, adds the 16 products of each column to that column's accumulator of the tile row; a posit group
above its term limit turns to NaR whole. -/
def Obligations.StreamedVectorsEnterTheArray : Prop :=
  ∀ (s : State) (d : Die) (i : Nat) (c : Core) (k : Arr) (p : Reg4) (ts : TileSel) (gi : Fin 8) (e : FeedEntry)
    (rest : List FeedEntry) (g : Group),
    let m := c.arr k
    let now := s.laps.now
    let tp := timePer e.fmt m.cap
    let n := tileOf c ts - g.first
    let r := nth g.rows n (zeroRow g.fmt 0)
    let took (g' : Group) : Core := c.setArr k
      { m with feed := rest, freeing := m.freeing.filter (fun y => decide (now < y)) ++ [now + tp - 1]
               busyTo := now + tp, maxTp := max m.maxTp tp, groups := m.groups.set gi (some g') }
    m.busyTo ≤ now → m.feed = e :: rest → e.ready ≤ now → m.groups[gi] = some g →
    g.first ≤ tileOf c ts → tileOf c ts < g.first + g.rows.length → r.svcAt ≤ now + tp + 4 →
    pairOk e.fmt m.bank.fmt g.fmt = true →
    (activeOn c p = false → CoreBecomes (.mxStrm d k p ts gi) s d i c
      (took { g with rows := g.rows.set n { r with doneAt := max r.doneAt (now + 22 + tp) } })) ∧
    (activeOn c p = true →
      let r' : TileRow := ⟨r.accs.mapIdx fun j q => q.addTerms (columnTerms g.fmt e m.cap m.bank j) 16 (2 ^ 63), r.vecs + 1,
        some (r.tag.getD e.tag), r.skew || (match r.tag with | some y => decide (y ≠ e.tag) | none => false),
        max r.doneAt (now + 22 + tp), r.svcAt⟩
      let lim := intLimit e.fmt m.bank.fmt
      let g1 := { g with rows := g.rows.set n r', limit := lim }
      let nar (q : Quire) : Quire := { q with nar := true, val := -(2 ^ (accBits q.fmt - 1) : Nat), res := 32767, sat := true }
      ∃ sat : Bool, CoreBecomes (.mxStrm d k p ts gi) s d i c
          (took (if sat = true ∧ g.fmt ≠ .i8 then
            { g1 with sat := true, rows := g1.rows.map fun y => { y with accs := y.accs.map nar } } else { g1 with sat := sat })) ∧
        (g.base = none → sat = (g.sat || decide ((if g.fmt = .i8 then lim else 2 ^ 31 - 1) < g1.count))))

/-- R83–R85, R94, R112: terms add exactly. No NaR among them and the count within the limit, the register holds the sum at its
width, the count and the residue shadow rise by theirs; a NaR term makes NaR; a count above the limit saturates; the
order of the terms does not matter. -/
def Obligations.TermsAddExactly : Prop :=
  ∀ (q : Quire) (ts : List Term) (k limit : Nat), limit < 2 ^ 63 →
    (∀ vs : List (Int × Nat), ts = vs.map some → q.nar = false → q.terms + k ≤ limit →
      q.addTerms ts k limit = { q with val := wrapInt (accBits q.fmt) (q.val + (vs.map (·.1)).sum), terms := q.terms + k
                                       res := (q.res + (vs.map (·.2)).sum) % 65535 }) ∧
    (q.terms + k ≤ limit → (q.nar = true ∨ none ∈ ts) → (q.addTerms ts k limit).nar = true ∧
      (q.addTerms ts k limit).terms = q.terms + k ∧ (q.addTerms ts k limit).sat = q.sat) ∧
    (limit < q.terms + k → (q.addTerms ts k limit).nar = true ∧ (q.addTerms ts k limit).sat = true) ∧
    ∀ ts', ts.Perm ts' → q.nar = false → q.addTerms ts' k limit = q.addTerms ts k limit

/-- R81, R94, R113: the residue that a term carries is that of the integer it adds, in an array cell too, whose register holds
the residue of the stationary element; the term of a posit operand is that operand's exact
value at the quire's weight of its format. -/
def Obligations.TermsAreExactValues : Prop :=
  (∀ (f fa fb : Fmt) (cap a b : Nat) (v : Int) (r : Nat), prodTerm f fa fb cap a b = some (v, r) → r = resOf v) ∧
  (∀ (f fa fb : Fmt) (cap a b : Nat), cellTerm f fa fb cap a b (cellRes fb b) = prodTerm f fa fb cap a b ∧
    cellInt fa fb a b (cellRes fb b) = intTerm fa fb a b) ∧
  (∀ (f fa : Fmt) (a : Nat) (v : Int) (r : Nat), isPosit f = true → isPosit fa = true → fmtBits fa ≤ fmtBits f →
    positTerm f fa a = some (v, r) → r = resOf v ∧ ∀ neg mag, decodeNum fa a = .fin neg mag →
      v * (mag.den : Int) = ((if neg then -1 else 1 : Int)) * mag.num * 2 ^ (8 * quireN f - 16))

/-- MX.CLOSE (R137, R139, R143, R245) at a core: the tile queue takes one entry, in the cycle that R137 fixes: where active with
a legal descriptor, the 16 elements of Table 6-7 in the output format; else an entry that is a placeholder. -/
def Obligations.ClosesEnterTheTileQueue : Prop :=
  ∀ (s : State) (d : Die) (i : Nat) (c : Core) (k : Arr) (p : Reg4) (exd : BitVec 11) (ts : TileSel) (gi : Fin 8) (g : Group),
    let m := c.arr k
    let now := s.laps.now
    let long := g.base.isSome
    let n := tileOf c ts - g.first
    let r := nth g.rows n (zeroRow g.fmt 0)
    let enter := now + (if g.fmt = .p32 then (if long then 19 else 13) else if long then 14 else 11)
    let m' : MArray := { m with exits := m.exits + 1, portTo := now + (if long then portCloseLong g.fmt else portShort g.fmt) }
    exd.toNat < 1536 → m.groups[gi] = some g → m.portTo ≤ now →
    (activeOn c p = false → ∃ e : TileEntry, e.enter = enter ∧ e.elems = List.replicate 16 0 ∧
      CoreBecomes (.mxClose d k p exd ts gi) s d i c { c.setArr k m' with tq := tqInsert e c.tq }) ∧
    (∀ x : ExitDesc, activeOn c p = true → g.first ≤ tileOf c ts → tileOf c ts < g.first + g.rows.length → r.doneAt ≤ now →
      parseExit (csRead c (32 * exd.toNat) 32) = some x → (x.zp = true → g.fmt = .i8) →
      (x.zp = true ∨ x.chScale = true → csOk x.chTable 16 256 = true) →
      (x.zp = true ∨ x.tokScale = true → csOk (x.tokTable + 16 * n) 16 16 = true) →
      let tok := csRead c (x.tokTable + 16 * n) 16
      let ch (j : Nat) := chEntry (csRead c x.chTable 256) j
      let zt := toSigned 16 (fieldAt tok 8 2)
      let corr (j : Nat) : Int :=
        if x.zp then -(zt * (ch j).2.1) - (ch j).2.2 * toSigned 32 (fieldAt tok 4 4) + (x.k : Int) * zt * (ch j).2.2 else 0
      let skew := r.skew || ((x.zp || x.tokScale) && (match r.tag with | some y => decide (y ≠ nth tok 10 0) | none => false))
      let out (j : Nat) (q : Quire) : ElemOut :=
        exitElem x.out (pepperMode x.rnd (coreIn s d i).seed x.stream (issueNow s d).pstep.toNat (x.idxBase + n * x.idxRow + j))
          skew (g.sat || baseSat c g || groupOver c now g) (exitValue (exitAcc c g n j q).1 (if x.chScale then some (ch j).1 else none)
            (if x.tokScale then some (fieldAt tok 0 4) else none) (corr j))
      let outs := r.accs.mapIdx out
      let es := outs.map (·.1)
      let mx := rowMax x.out x.colBase es 0 none
      let e : TileEntry := ⟨enter, x.out, es, BitVec.ofNat 32 (statusWord k gi (tileOf c ts) long outs),
        if x.rowStat then some (mx.1, mx.2, rowSum x.out es) else none⟩
      CoreBecomes (.mxClose d k p exd ts gi) s d i c
        { c.setArr k m' with tq := tqInsert e c.tq
                             pend := c.pend ++ exitFlags outs (arrUnit k) m.exits enter })

/-- MX.SPILL and MX.FILL (R90, R91, R131, R284) at a core: the images, at the attached base or the named address, become the
long base of the zeroed group; a spill writes base + group into them, tile row by tile row as the port ends each. -/
def Obligations.GroupsSpillAndFill : Prop :=
  ∀ (s : State) (d : Die) (i : Nat) (c : Core) (k : Arr) (p : Reg4) (a : Csa) (gi : Fin 8) (g : Group),
    let m := c.arr k
    let now := s.laps.now
    let f := imgFmt g.fmt
    let fin := now + g.rows.length * portLong g.fmt
    let becomes (h : Group) : MArray := { m with groups := m.groups.set gi (some h), portTo := fin }
    let cleared (b : Nat) : Group := { g with
      sat := false, base := some b
      rows := g.rows.map fun r => ⟨List.replicate 16 (Quire.zero g.fmt), 0, none, r.skew, r.doneAt, fin⟩ }
    let inside (b : Nat) : Prop := b % 8 = 0 ∧ b + 16 * g.rows.length * imgSize f ≤ 0xC000
    m.groups[gi] = some g → m.portTo ≤ now → (∀ r ∈ g.rows, r.doneAt ≤ now) →
    (∀ att, activeOn c p = true → (g.base = none → att = false) →
      (∀ b, g.base = some b → att = true ∨ b = csaAddr c a) →
      let b := g.base.getD (csaAddr c a)
      let old (n j : Nat) : Quire := if g.base = none then Quire.zero f else (readImage c f (groupImage g.fmt b n j)).1
      let row (n : Nat) (r : TileRow) : List Pend :=
        csPends (now + (n + 1) * portLong g.fmt) false (groupImage g.fmt b n 0)
          (r.accs.mapIdx fun j q => imgBytes (longAdd (old n j) ((spillQuire g q).toLong f))).flatten
      csaAddr c a % 8 = 0 → inside b → CoreBecomes (.mxSpill d k p a att gi) s d i c
        { c.setArr k (becomes (cleared b)) with pend := c.pend ++ (g.rows.mapIdx row).flatten }) ∧
    (activeOn c p = true → inside (csaAddr c a) →
      (∀ x ∈ groupImages g (csaAddr c a), (readImage c f x).2 = fmtCode f) →
      CoreBecomes (.mxFill d k p a false gi) s d i c (c.setArr k (becomes (cleared (csaAddr c a))))) ∧
    (activeOn c p = false → ∀ att,
      let held : Group := { g with rows := g.rows.map fun r => { r with svcAt := fin } }
      CoreBecomes (.mxSpill d k p a att gi) s d i c (c.setArr k (becomes held)) ∧
      CoreBecomes (.mxFill d k p a false gi) s d i c (c.setArr k (becomes held)))

/-- MV.OPEN, MV.ZERO (R147), MV.DOT (R150) and MV.COL (R151) at a core; additions are held from cycle c + 11 (R153); a core
whose predicate is false adds and counts nothing (R152). -/
def Obligations.MvpZeroesAndAccumulates : Prop :=
  ∀ (s : State) (d : Die) (i : Nat) (c : Core),
    let m := c.mvp
    let now := s.laps.now
    (∀ f, isPosit f = true → m.svcTo ≤ now → (∀ n : Fin 16, (m.accs[n]).held ≤ now) → CoreBecomes (.mvOpen d f) s d i c
      { c with mvp := { m with fmt := f, accs := Vector.replicate 16 ⟨Quire.zero f, none, 0, now + 1⟩, svcTo := now + 1 } }) ∧
    (∀ (p : Reg4) (mask : BitVec 16), mask ≠ 0 → m.svcTo ≤ now → activeOn c p = true →
      (∀ n : Fin 16, mask.getLsbD n = true → (m.accs[n]).held ≤ now) →
      CoreBecomes (.mvZero d p mask) s d i c { c with mvp := { m with
        svcTo := now + 1
        accs := m.accs.mapIdx fun n q => if mask.getLsbD n then ⟨Quire.zero m.fmt, none, 0, now + 1⟩ else q } }) ∧
    (∀ (p : Reg4) (wf xf : Fmt) (vn e : Reg6) (a : Csa), isPosit wf = true → isPosit xf = true →
      (∀ acc, activeOn c p = false → CoreBecomes (.mvDot d p wf xf acc vn e a) s d i c c) ∧
      (activeOn c p = true → fmtBits wf ≤ fmtBits m.fmt → fmtBits xf ≤ fmtBits m.fmt →
        let n := mvCount wf xf
        let ad := csaAddr c a
        let sz := n * fmtBits wf / 8
        ad % sz = 0 → ad + sz ≤ 0xC000 →
        let w := elemsOf wf n (csRead c ad sz)
        let added (q : AccQ) (ts : List Term) : AccQ :=
          { q with q := q.q.addTerms ts ts.length (mvLimit c (now + 8) q), held := now + 11 }
        (∀ acc : Reg4, e.val % n = 0 → e.val + n ≤ regElems xf → (m.accs[acc]).svcAt ≤ now + 8 →
          CoreBecomes (.mvDot d p wf xf acc vn e a) s d i c { c with mvp := { m with accs := m.accs.set acc (added m.accs[acc]
            ((List.range n).map fun h => prodTerm m.fmt xf wf 0 (elemAt (fmtBits xf) (vRead c vn) (e.val + h)) (nth w h 0))) } }) ∧
        (∀ acc : Reg4, mvColOk wf xf acc e = true → (∀ h : Fin 16, acc.val ≤ h.val → h.val < acc.val + n → (m.accs[h]).svcAt ≤ now + 8) →
          let one (h : Nat) (q : AccQ) : AccQ := if acc.val ≤ h ∧ h < acc.val + n then
            added q [prodTerm m.fmt xf wf 0 (elemAt (fmtBits xf) (vRead c vn) e) (nth w (h - acc.val) 0)] else q
          CoreBecomes (.mvCol d p wf xf acc vn e a) s d i c { c with mvp := { m with accs := m.accs.mapIdx one } })))

/-- MV.CLOSE (R154–R157), MV.SPILL and MV.FILL (R90, R91, R154) at a core: the stage's cycles; the results, and with ROWSTAT
the statistics, written from the output address; the images attached and the accumulators zeroed. -/
def Obligations.MvpClosesSpillsFills : Prop :=
  ∀ (s : State) (d : Die) (i : Nat) (c : Core) (p : Reg4),
    let m := c.mvp
    let now := s.laps.now
    m.svcTo ≤ now →
    (∀ (out : BitVec 10) (exd : BitVec 11) (n : Fin 32) (acc : Reg4), mvCloseOk out exd n acc = true →
      let qs := (List.range n.val).map fun j => vget m.accs (acc.val + j) (AccQ.zero .p8)
      (∀ q ∈ qs, q.held ≤ now) →
      let long := qs.any fun q => q.base.isSome
      let m' : Mvp := { m with svcTo := now + (if long then 5 else 2), exits := m.exits + 1 }
      (activeOn c p = false → CoreBecomes (.mvClose d p out exd n acc) s d i c { c with mvp := m' }) ∧
      (∀ x : ExitDesc, activeOn c p = true → parseExit (csRead c (32 * exd.toNat) 32) = some x → x.zp = false → x.tokScale = false →
        (x.chScale = true → csOk x.chTable 16 (16 * n.val) = true) →
        let len := (n.val * fmtBits x.out + 7) / 8
        let oa := 64 * out.toNat
        oa + (if x.rowStat then 72 + imgSize x.out else len) ≤ 0xC000 →
        let res (j : Nat) (q : AccQ) : ElemOut :=
          exitElem x.out (pepperMode x.rnd (coreIn s d i).seed x.stream (issueNow s d).pstep.toNat (x.idxBase + j)) false
            (accValue c q).2.1 (exitValue (accValue c q).1
              (if x.chScale then some (chEntry (csRead c x.chTable (16 * n.val)) j).1 else none) none 0)
        let outs := qs.mapIdx res
        let es := outs.map (·.1)
        let mx := rowMax x.out x.colBase es 0 none
        let ready := now + 9 + (if x.out = .p32 then 1 else 0) + (if long then 3 else 0)
        CoreBecomes (.mvClose d p out exd n acc) s d i c
          { c with mvp := m'
                   pend := c.pend ++ csPends ready false oa (packElems x.out es (csRead c oa len)) ++
                     (if x.rowStat then csPends ready false (oa + 64) (slotBytes mx.1 mx.2) ++
                       csPends ready false (oa + 72) (imgBytes ((rowSum x.out es).toLong x.out)) else []) ++
                     exitFlags outs 2 m.exits ready })) ∧
    (∀ (a : Csa) (mask : BitVec 16), mask ≠ 0 → (∀ n : Fin 16, mask.getLsbD n = true → (m.accs[n]).held ≤ now) →
      let is := maskList mask
      let z := imgSize m.fmt
      let named (n : Nat) : Nat := csaAddr c a + is.idxOf n * z
      let fin := now + is.length * mvLong m.fmt
      let inside (b : Nat) : Prop := b % 8 = 0 ∧ b + z ≤ 0xC000
      let attach (b : Nat → AccQ → Nat) : Mvp := { m with
        svcTo := fin
        accs := m.accs.mapIdx fun n q => if mask.getLsbD n then ⟨Quire.zero m.fmt, some (b n q), 0, fin⟩ else q }
      (activeOn c p = false → ∀ att, CoreBecomes (.mvSpill d p a att mask) s d i c { c with mvp := { m with svcTo := fin } } ∧
        CoreBecomes (.mvFill d p a false mask) s d i c { c with mvp := { m with svcTo := fin } }) ∧
      (∀ att, activeOn c p = true → csaAddr c a % 8 = 0 →
        let b (n : Nat) (q : AccQ) : Nat := q.base.getD (named n)
        (∀ n : Fin 16, mask.getLsbD n = true → inside (b n m.accs[n]) ∧ ((m.accs[n]).base = none → att = false) ∧
          (∀ y, (m.accs[n]).base = some y → att = true ∨ y = named n)) →
        let write (n : Nat) : List Pend :=
          let q := vget m.accs n (AccQ.zero .p8)
          csPends (now + (is.idxOf n + 1) * mvLong m.fmt) false (b n q) (imgBytes (longAdd
            (if q.base.isNone then Quire.zero m.fmt else (readImage c m.fmt (b n q)).1) (q.q.toLong m.fmt)))
        CoreBecomes (.mvSpill d p a att mask) s d i c
          { c with mvp := attach b, pend := c.pend ++ (is.map write).flatten }) ∧
      (activeOn c p = true → csaAddr c a % 8 = 0 → csaAddr c a + is.length * z ≤ 0xC000 →
        (∀ n ∈ is, (readImage c m.fmt (named n)).2 = fmtCode m.fmt) →
        CoreBecomes (.mvFill d p a false mask) s d i c { c with mvp := attach fun n _ => named n }))

/-- R90, R97, R98, R329: a spill loses nothing: the exact value of the new image is that of the old one plus that of the
accumulator, its count the sum of theirs, when neither is NaR or marked and the sum lies within the long quire. Whatever
the order in which the atomic unit takes two operands of one target, QADD and MAXLOC leave the same bytes. -/
def Obligations.SpillsAndAtomicsSumExactly : Prop :=
  (∀ (f : Fmt) (base q : Quire), isPosit f = true → base.fmt = f → q.fmt = f → base.nar = false → q.nar = false →
    base.sat = false → q.sat = false → base.terms + q.terms < 2 ^ 63 →
    -(2 ^ (longBits f - 1) : Int) ≤ base.val + q.val → base.val + q.val < 2 ^ (longBits f - 1) →
    let r := spillInto base q
    r.val = base.val + q.val ∧ r.terms = base.terms + q.terms ∧ r.nar = false ∧ r.fmt = f ∧
    (base.resOk = true → q.resOk = true → r.resOk = true)) ∧
  (∀ q a b : Quire, longAdd (longAdd q a) b = longAdd (longAdd q b) a) ∧
  (∀ (f : Fmt) (v i a x b y : Nat), isPosit f = true → v < 2 ^ fmtBits f → a < 2 ^ fmtBits f → b < 2 ^ fmtBits f →
    i < 2 ^ 32 → x < 2 ^ 32 → y < 2 ^ 32 →
    maxlocSlot f (maxlocSlot f (slotBytes v i) (slotBytes a x)) (slotBytes b y) =
      maxlocSlot f (maxlocSlot f (slotBytes v i) (slotBytes b y)) (slotBytes a x))

/-- R365, R367: what a core reports as a program fault becomes a detected record of that cause, die and cycle, marks the lap,
and leaves the core's arrays: MX.CFG on a loaded feeder, MX.SWAP before a load ends, MX.STRM with nothing to take. -/
def Obligations.CoreFaultsMarkTheLap : Prop :=
  ∀ (s : State) (d : Die) (i : Nat) (c : Core) (k : Arr) (cmd : Instr) (cause : Nat), Acts s d →
    (s.die d).cores[i]? = some c →
    ((∃ (f : Fmt) (cap : Fin 32), cmd = .mxCfg d k f cap ∧ arrayFmt f = true ∧ capOk f cap = true ∧ (c.arr k).feed ≠ [] ∧ cause = 0x159) ∨
      (cmd = .mxSwap d k ∧ s.laps.now ≤ (c.arr k).loadEnd ∧ cause = 0x114) ∨
      (∃ p ts g, cmd = .mxStrm d k p ts g ∧ (c.arr k).busyTo ≤ s.laps.now ∧ (c.arr k).feed = [] ∧ cause = 0x112)) →
    ∃ t, exec cmd s = .next t ∧ t.laps.lapFault = true ∧ t.laps.progFault = true ∧ (t.die d).cores[i]? = some c ∧
      ∃ r ∈ t.faults.detected, r.cause = cause ∧ r.die = d ∧ r.at_ = s.laps.now

/-! ### VEC slot -/

/-- The 17 element operations of Tables 12-5 to 12-7 (V.MOV, V.AND, V.OR, V.XOR, V.SEL, V.NEG, V.ABS, V.MAX, V.MIN, V.CMP,
V.ADD, V.SUB, V.MUL, V.FMA, V.CVT, V.FN and the fused gates) at a core whose pipe is free: the pipe is taken for the
operation's beats; a register form makes its first beat at once and the others follow; a descriptor form, its tensors
read and legal on every core, begins two cycles later (R166, R186, R470). -/
def Obligations.ElementOperationsTakeThePipe : Prop :=
  ∀ (cmd : Instr) (o : VOp) (p : Reg4) (extra : Nat) (s : State) (d : Die) (i : Nat) (c : Core),
    coreDie cmd = some d → c.vecTo ≤ s.laps.now →
    let x := coreIn s d i
    let now := s.laps.now
    let took (n : Nat) : Core := { c with vecOps := c.vecOps + 1, vecTo := now + n }
    (∀ r : RegForm, vopOf cmd = some (o, p, .reg r, extra) → vFormOk o (.reg r) = true → o.fmtOk r.fmt = true →
      let n := o.elems r.fmt / 16
      let t := o.time r.fmt
      let j : VecJob := { newJob cmd x (c.vecOps) n now (predVal c p) with
        sval := wordS x r.vb, s2 := wordS x r.sp, s3 := wordS x (r.sp.val + 1) }
      CoreBecomes cmd s d i c { (regBeat o r extra j (took (n * t.1))).1 with
        job := if n ≤ 1 then none else some { j with unit := 1, nextAt := now + t.1 }
        vecDone := max c.vecDone (now + n * t.1 - 1 + t.2) }) ∧
    (∀ (r : DescForm) (td : TDesc) (a b m : Option TDesc), vopOf cmd = some (o, p, .desc r, extra) → vFormOk o (.desc r) = true →
      descParts o r c = some (td, a, b, m) → descFmtOk (descOp o td) td a b = true → fnRounds (descOp o td) td = false →
      ((s.die d).cores.head?).map (descOcc o r) = some (descOcc o r c) →
      let t := (descOp o td).time (match a with | some y => y.fmt | none => td.fmt)
      (activeOn c p = false → CoreBecomes cmd s d i c (took (2 + td.beats * (o.time (match a with | some y => y.fmt | none => td.fmt)).1))) ∧
      (activeOn c p = true → rangeBad (some td) [a, b] m = [] → td.beats ≠ 0 →
        CoreBecomes cmd s d i c { took (2 + td.beats * (o.time (match a with | some y => y.fmt | none => td.fmt)).1) with
          job := some { newJob cmd x (c.vecOps) td.beats (now + 2) (predVal c p) with
            sval := wordS x (r.db.toNat % 64), dst := some td, src1 := a, src2 := b, mask := m }
          vecDone := max c.vecDone (now + 2 + td.beats * t.1 - 1 + t.2) }))

/-- R162, R163: one beat of a register form: each of its 16 positions that is active takes its operation's result, an inactive
one is kept, or with ZM written with zeros; V.CMP does so in the bits of Pd, and its last beat clears the bits above the
operation's elements. -/
def Obligations.RegisterBeatsWriteElements : Prop :=
  ∀ (o : VOp) (r : RegForm) (extra : Nat) (j : VecJob) (c : Core), extra < 16 →
    let n := o.elems r.fmt
    let ready := j.start + (j.unit + 1) * (o.time r.fmt).1 - 1 + (o.time r.fmt).2
    let sv := j.sval.toNat % 2 ^ fmtBits r.fmt
    let res (k : Nat) : Nat × VFlag :=
      o.elem r.fmt (pepperMode r.rnd j.seed (j.s2.toNat % 2 ^ 32) j.pstep.toNat (j.s3.toNat + k))
        (if r.scal = true ∧ o = .vmov then sv else regElem c r.fmt r.va k)
        (if r.scal then sv else if o.arity = 1 then 0 else regElem c r.fmt r.vb k)
        (if o.arity = 3 then regElem c r.fmt r.vc k else 0) ((predVal c (Fin.ofNat 16 extra)).getLsbD k)
    let ks := ((List.range 16).map (16 * j.unit + ·)).filter fun k => decide (k < n)
    let flags := (ks.filter fun k => j.act.getLsbD k).filterMap fun k => (res k).2.map fun f => (f, k)
    let c' := (regBeat o r extra j c).1
    let put (k : Nat) : List PWrite := if j.act.getLsbD k then elemWrite (o.out r.fmt) r.vd k (res k).1
      else if r.zm then elemWrite (o.out r.fmt) r.vd k 0 else []
    let own (ws : List PWrite) : Core :=
      { c with pend := c.pend ++ ws.map (fun w => ⟨ready, true, w⟩) ++ flagPends ready j.opIdx flags }
    ((∀ k, o ≠ .cmp k) → c' = own (ks.map put).flatten) ∧
    (∀ cc, o = .cmp cc → extra ≠ 0 → n ≤ 64 → ∃ mask val, c' = own [.p extra mask val] ∧
      ∀ (old : Core) (b : Nat), b < 64 → (vget (applyPWrite old (.p extra mask val)).p extra 0).getLsbD b =
        if b ∈ ks then (if j.act.getLsbD b then decide ((res b).1 = 1) else if r.zm then false else (vget old.p extra 0).getLsbD b)
        else if j.unit + 1 = j.units ∧ n ≤ b then false else (vget old.p extra 0).getLsbD b)

/-- V.PLOG (R163): 64 bits in 4 beats, the first at once; V.RDFL (R187); V.POP (R143, R184): the oldest entry leaves whatever the
predicate, its elements and status go to Vd and Vd + 1, its row sum to the lane quire. -/
def Obligations.PredicatesFlagsAndEntriesMove : Prop :=
  ∀ (s : State) (d : Die) (i : Nat) (c : Core) (p : Reg4), c.vecTo ≤ s.laps.now →
    let now := s.laps.now
    let took (n done : Nat) : Core := { c with vecOps := c.vecOps + 1, vecTo := now + n, vecDone := max c.vecDone done }
    (∀ (zm : Bool) (o : PlogOp) (pd pa pb : Reg4),
      let cmd : Instr := .vPlog d p zm o pd pa pb
      let act := predVal c p
      CoreBecomes cmd s d i c { took 4 (now + 4) with
        job := some { newJob cmd (coreIn s d i) (c.vecOps) 4 (now + 1) act with unit := 1 }
        pend := c.pend ++ [⟨now + 1, true, .p pd (if zm then 0xFFFF else act &&& 0xFFFF)
          (plogFn o (predVal c pa) (predVal c pb) &&& act)⟩] }) ∧
    (∀ vd : Reg6,
      let words := leBytes 4 (flagWord c.vecSticky) ++ leBytes 4 (flagWord c.mxa.sticky) ++ leBytes 4 (flagWord c.mxb.sticky) ++
        leBytes 4 (flagWord c.mvp.sticky) ++ zeros 48
      CoreBecomes (.vRdfl d p vd) s d i c { took 1 (now + 1) with
        pend := if activeOn c p then c.pend ++ (vPends 0 (64 * vd) words).map (fun w => ⟨now + 1, true, w⟩) else c.pend }) ∧
    (∀ (vd : Reg6) (lq : Reg4) (qsum : Bool) (e : TileEntry) (rest : List TileEntry), vd.val < 63 → c.tq = e :: rest → e.enter ≤ now →
      (activeOn c p = false → CoreBecomes (.vPop d p vd lq qsum) s d i c { took 1 (now + 2) with tq := rest }) ∧
      (activeOn c p = true →
        let body := bytesOfElems e.fmt e.elems
        let st := leBytes 4 e.status.toNat ++ (match e.stat with | some t => leBytes 4 t.1 ++ leBytes 4 t.2.1 | none => zeros 8) ++ zeros 52
        let ws := vPends 0 (64 * vd) (body ++ zeros (64 - body.length)) ++ vPends 0 (64 * (vd.val + 1)) st
        let c1 : Core := { took 1 (now + 2) with tq := rest, pend := c.pend ++ ws.map fun w => ⟨now + 2, true, w⟩ }
        (qsum = false ∨ e.stat = none → CoreBecomes (.vPop d p vd lq qsum) s d i c c1) ∧
        (∀ t, qsum = true → e.stat = some t → (c.lq[lq]).q.fmt ≠ .b32 → fmtBits t.2.2.fmt ≤ fmtBits (c.lq[lq]).q.fmt →
          CoreBecomes (.vPop d p vd lq qsum) s d i c { c1 with
            lq := c.lq.set lq { c.lq[lq] with q := (c.lq[lq]).q.addQuire t.2.2 (accLimit c c.lq[lq]) } })))

/-- V.QZERO (R175), V.QRND (R177), V.QSPILL and V.QFILL (R90, R91, R177) at a core whose pipe is free: the lanes named zeroed;
their exact sum rounded once into element 0 of Vd; their images written, or taken, as long bases. -/
def Obligations.LaneQuiresZeroRoundSpillFill : Prop :=
  ∀ (s : State) (d : Die) (i : Nat) (c : Core) (p : Reg4) (mask : BitVec 16), c.vecTo ≤ s.laps.now → mask ≠ 0 →
    let now := s.laps.now
    let ls := maskList mask
    let took (n : Nat) : Core := { c with vecOps := c.vecOps + 1, vecTo := now + n }
    let cyc := (ls.map (laneCyc c)).sum
    (∀ f, (isPosit f = true ∨ f = .b32) → CoreBecomes (.vQzero d p f mask) s d i c { took 1 with
      lq := if activeOn c p then c.lq.mapIdx fun l q => if mask.getLsbD l then AccQ.zero f else q else c.lq }) ∧
    (∀ (rnd : Bool) (f : Fmt) (vd sp : Reg6), (if rnd then sp.val % 2 = 0 else sp = 0) →
      (ls.all (fun l => decide ((laneAcc c l).q.fmt = .b32)) = true ∨ ls.all (fun l => decide ((laneAcc c l).q.fmt ≠ .b32)) = true) →
      (activeOn c p = false → CoreBecomes (.vQrnd d p rnd f vd mask sp) s d i c { took 1 with vecDone := max c.vecDone (now + 9) }) ∧
      (activeOn c p = true →
        let x := coreIn s d i
        let m := pepperMode rnd x.seed ((wordS x sp).toNat % 2 ^ 32) x.issue.pstep.toNat (wordS x (sp.val + 1)).toNat
        let r := roundLanes f m 1 (combineLanes c ls)
        ∃ pos, CoreBecomes (.vQrnd d p rnd f vd mask sp) s d i c { took 1 with
          vecDone := max c.vecDone (now + 9)
          pend := c.pend ++ (nibRegs vd (fmtBits f / 4) r.1).map (fun w => ⟨now + 9, true, w⟩) ++
            flagPends (now + 9) (c.vecOps) (match r.2 with | some k => [(k, pos)] | none => []) })) ∧
    (∀ (att : Bool) (ad : BitVec 16), activeOn c p = false → CoreBecomes (.vQspill d p att mask ad) s d i c (took cyc) ∧
      CoreBecomes (.vQfill d p false mask ad) s d i c (took cyc)) ∧
    (∀ ad : BitVec 16, activeOn c p = true → (∀ l ∈ ls, (laneAcc c l).q.fmt ≠ .b32) →
      let size (l : Nat) : Nat := imgSize (laneAcc c l).q.fmt
      let before (f : Nat → Nat) (l : Nat) : Nat := ((ls.takeWhile fun k => decide (k < l)).map f).sum
      let named (l : Nat) : Nat := ad.toNat + before size l
      let fin (l : Nat) : Nat := now + before (laneCyc c) l + laneCyc c l
      (∀ att, (∀ l ∈ ls, ((laneAcc c l).base = none → att = false) ∧
          (∀ b, (laneAcc c l).base = some b → att = true ∨ b = named l) ∧
          csOk ((laneAcc c l).base.getD (named l)) 8 (size l) = true) →
        let write (l : Nat) : List Pend :=
          let q := laneAcc c l
          let b := q.base.getD (named l)
          csPends (fin l) true b (imgBytes (longAdd
            (if q.base.isNone then Quire.zero q.q.fmt else (readImage c q.q.fmt b).1) (q.q.toLong q.q.fmt)))
        CoreBecomes (.vQspill d p att mask ad) s d i c { took cyc with
          lq := c.lq.mapIdx fun l q => if mask.getLsbD l then { AccQ.zero q.q.fmt with base := some (q.base.getD (named l)) } else q
          pend := c.pend ++ (ls.map write).flatten
          vecDone := (ls.map fin).foldl max c.vecDone }) ∧
      ((∀ l ∈ ls, csOk (named l) 8 (size l) = true ∧
          (readImage c (laneAcc c l).q.fmt (named l)).2 = fmtCode (laneAcc c l).q.fmt) →
        CoreBecomes (.vQfill d p false mask ad) s d i c { took cyc with
          lq := c.lq.mapIdx fun l q => if mask.getLsbD l then { AccQ.zero q.q.fmt with base := some (named l) } else q }))

/-- V.RED in register form; V.RED in descriptor form, the six row functions and V.QUANT at a core whose pipe is free and whose
descriptors are legal and like those of the die's lowest core (R166, R183, R204, R226, R470): the operation's cycles, and
the job whose beats or rows follow from the cycle c + 2. -/
def Obligations.ReductionsRowsAndQuantStart : Prop :=
  ∀ (s : State) (d : Die) (i : Nat) (c : Core) (p : Reg4), c.vecTo ≤ s.laps.now →
    let now := s.laps.now
    let x := coreIn s d i
    let took (n : Nat) : Core := { c with vecOps := c.vecOps + 1, vecTo := now + n }
    let job (cmd : Instr) (n : Nat) : VecJob := newJob cmd x (c.vecOps) n (now + 2) (predVal c p)
    let like (f : Core → Nat) : Prop := ((s.die d).cores.head?).map f = some (f c)
    (∀ (a : RedArgs) (r : RegForm), redOk (.reg r) a = true → redFmtOk a r.fmt = true →
      let n := regElems r.fmt / 16
      let t := redTime a.kind
      let j : VecJob := { newJob (.vRed d p (.reg r) a) x (c.vecOps) n (now + t.1) (predVal c p) with
        s2 := wordS x r.sp, s3 := wordS x (r.sp.val + 1) }
      let b := redRegBeat a r j (took (n * t.1))
      CoreBecomes (.vRed d p (.reg r) a) s d i c { b.2.1 with
        job := if n ≤ b.1.unit + 1 then none else some { b.1 with unit := 1 }
        vecDone := max c.vecDone (now + n * t.1 - 1 + t.2) }) ∧
    (∀ (a : RedArgs) (r : DescForm) (src dst : TDesc) (m : Option TDesc), redOk (.desc r) a = true →
      redParts a r c = some (src, dst, m) → redFmtOk a src.fmt = true → (a.start = true ∨ a.emit = true ∨ src.outer (a.rdims.val + 1) = 1) →
      like (redOcc a r) →
      let n := src.beats
      let t := redTime a.kind
      (activeOn c p = false → CoreBecomes (.vRed d p (.desc r) a) s d i c (took (2 + n * t.1))) ∧
      (activeOn c p = true → redBad a src dst m = [] → n ≠ 0 → CoreBecomes (.vRed d p (.desc r) a) s d i c { took (2 + n * t.1) with
        job := some { job (.vRed d p (.desc r) a) n with dst := some dst, src1 := some src, mask := m }
        vecDone := max c.vecDone (now + 2 + n * t.1 - 1 + t.2) })) ∧
    (∀ (cmd : Instr) (k : RowCmd) (q : RowParts), coreDie cmd = some d → rowCmdOf cmd = some k → k.p = p → rowOk k = true →
      let s2 := wordS x k.sp
      let s3 := wordS x (k.sp.val + 1)
      rowParts k c = some q → like (rowOcc k s3) → rowFmtOk k.kind (rowA2 s3) q = true → rowExtOk q = true →
      let n := q.src.runs
      let cyc := rowCycles k.kind (rowA2 s3) q
      (activeOn c p = false → CoreBecomes cmd s d i c (took (2 + n * cyc))) ∧
      (activeOn c p = true → rangeBad q.dst [some q.src, q.gb] q.mask = [] → rowAddrOk k.kind (rowA1 s3) (rowA2 s3) q = true →
        (isNorm k.kind = true → epsOk q.src.fmt (rowEps s2) = true) → n ≠ 0 → CoreBecomes cmd s d i c { took (2 + n * cyc) with
        job := some { job cmd n with s2 := s2, s3 := s3, dst := q.dst, src1 := some q.src, src2 := q.gb, mask := q.mask }
        vecDone := max c.vecDone (now + 2 + n * cyc - 1 + 12) })) ∧
    (∀ (dd da : BitVec 11) (sp : Reg6) (pd : Reg4) (src dst : TDesc), dd.toNat < 1536 → da.toNat < 1536 → sp.val % 2 = 0 →
      let cmd : Instr := .vQuant d p dd da sp pd
      let s2 := wordS x sp
      let s3 := wordS x (sp.val + 1)
      let a := quantArgs s2 s3
      quantParts dd da c = some (src, dst) → like (quantOcc dd da a.mode) → quantFmtOk a src dst = true → quantDescOk a src dst = true →
      let n := src.runs
      let cyc := quantCycles a.mode src
      (activeOn c p = false → CoreBecomes cmd s d i c (took (2 + n * cyc))) ∧
      (activeOn c p = true → src.inStore = true → quantRangeOk a src dst = true → n ≠ 0 →
        (a.mode = 2 → ∃ mag, decodeNum .p32 a.sfix = .fin false mag ∧ Frac.zero.lt mag = true) →
        CoreBecomes cmd s d i c { took (2 + n * cyc) with
          job := some { job cmd n with s2 := s2, s3 := s3, dst := some dst, src1 := some src }
          vecDone := max c.vecDone (now + 2 + n * cyc - 1 + 12) }))

/-- R207: with a NaR among its active elements, every position of a soft maximum row is NaR; with none active, zero and EMPTY.
R220: every code of a quantised row lies within the destination's bounds, of a row with an element that is no number
all are 0 and the scale is NaR; R221: a fixed scale counts its clips. -/
def Obligations.RowsAndCodes : Prop :=
  (∀ (src d : TDesc) (j : Nat) (es : List RowElem) (m : Machine.Num) (n : Nat) (sum : Int) (rnd : Nat → Rnd),
    (smRow src d j es m true n sum rnd = ⟨(es.map fun e => d.write e.ix (nanBits d.fmt)).flatten, [], []⟩) ∧
    (smRow src d j es m false 0 sum rnd = ⟨(es.map fun e => d.write e.ix 0).flatten, [(6, j)], []⟩)) ∧
  (∀ (f out : Fmt) (a : QuantArgs) (rnd : Nat → Rnd) (xs : List Nat), (out = .i8 ∨ out = .i4) →
    let q := quantRow f out a rnd xs
    let hi : Int := if out = .i4 then 7 else 127
    q.codes.length = xs.length ∧ (∀ z ∈ q.codes, -hi - 1 ≤ z ∧ z ≤ hi) ∧ -hi - 1 ≤ q.zt ∧ q.zt ≤ hi ∧
    ((∃ e ∈ xs, ∀ s m, decodeNum f e ≠ .fin s m) → (∀ z ∈ q.codes, z = 0) ∧ q.scale = 0x80000000 ∧ q.zt = 0) ∧
    (a.mode = 2 → (∀ e ∈ xs, ∃ s m, decodeNum f e = .fin s m) → q.scale = a.sfix ∧ q.zt = 0 ∧ q.clips ≤ xs.length) ∧
    (a.mode = 0 → q.zt = 0))

/-! ### MOV, NET and MEM slots -/

/-- MOV.FEED (R103, R227), MOV.TAG, MOV.LDV, STV, LDP, STP, CPY (R290), MOV.ASET, AADD (R278) and AIDX (R289) at a core: what
is written, and the cycle from which it is readable; inactive, MOV.FEED takes an entry of zeros and the others do nothing. -/
def Obligations.CoresMoveData : Prop :=
  ∀ (s : State) (d : Die) (i : Nat) (c : Core) (p : Reg4) (a : Csa),
    let now := s.laps.now
    let ad := csaAddr c a
    let wrote (t : Nat) (ws : List PWrite) : Core := { c with pend := c.pend ++ ws.map fun w => ⟨now + t, false, w⟩ }
    let stored (t x : Nat) (bs : List Byte) : Core := { c with pend := c.pend ++ csPends (now + t) false x bs }
    (∀ k : Arr, (c.arr k).cfgAt ≠ now → feedUsed (c.arr k) now < 8 →
      let m := c.arr k
      let put (es : List Nat) : Core := c.setArr k { m with feed := m.feed ++ [⟨now + 3, m.fmt, es, m.tagReg⟩] }
      (activeOn c p = false → CoreBecomes (.movFeed d p k a) s d i c (put (List.replicate 16 0))) ∧
      (activeOn c p = true → csOk ad (feedBytes m.fmt) (feedBytes m.fmt) = true →
        CoreBecomes (.movFeed d p k a) s d i c (put (elemsOf m.fmt 16 (csRead c ad (feedBytes m.fmt)))))) ∧
    (∀ k : Arr, csOk ad 16 16 = true →
      CoreBecomes (.movTag d k a) s d i c (c.setArr k { c.arr k with tagReg := memGet c.cs ad })) ∧
    (activeOn c p = true → csOk ad 64 64 = true →
      (∀ vd : Reg6, CoreBecomes (.movLdv d p vd a) s d i c (wrote 3 (vPends 0 (64 * vd) (csRead c ad 64)))) ∧
      (∀ va : Reg6, CoreBecomes (.movStv d p va a) s d i c (stored 2 ad (vRead c va))) ∧
      (∀ dst : Csa, csOk (csaAddr c dst) 64 64 = true →
        CoreBecomes (.movCpy d p dst a) s d i c (stored 3 (csaAddr c dst) (csRead c ad 64)))) ∧
    (activeOn c p = true → csOk ad 8 8 = true →
      (∀ pd : Reg4, CoreBecomes (.movLdp d p pd a) s d i c
        (wrote 3 [.p pd 0xFFFFFFFFFFFFFFFF (BitVec.ofNat 64 (leNat (csRead c ad 8)))])) ∧
      (∀ pa : Reg4, CoreBecomes (.movStp d p pa a) s d i c (stored 2 ad (leBytes 8 (predVal c pa).toNat)))) ∧
    (activeOn c p = true → ∀ (r q : Reg4) (sa : Reg6) (imm : BitVec 16),
      CoreBecomes (.movAset d p false r sa imm) s d i c (wrote 1 [.a r imm]) ∧
      CoreBecomes (.movAset d p true r sa imm) s d i c (wrote 1 [.a r (((issueNow s d).s[sa]).setWidth 16)]) ∧
      CoreBecomes (.movAadd d p r q imm) s d i c (wrote 1 [.a r (c.a[q] + imm)]) ∧
      ∀ (what : Fin 8) (v : Nat), [i % sideN s, i / sideN s, d % 4 * sideN s + i % sideN s, d / 4 * sideN s + i / sideN s, i,
          d.val][what.val]? = some v → CoreBecomes (.movAidx d p r what) s d i c (wrote 1 [.a r (BitVec.ofNat 16 v)])) ∧
    (activeOn c p = false → ∀ cmd : Instr, ((∃ r, cmd = .movLdv d p r a ∨ cmd = .movStv d p r a) ∨
        (∃ r, cmd = .movLdp d p r a ∨ cmd = .movStp d p r a) ∨ (∃ b, cmd = .movCpy d p b a) ∨
        (∃ src r sa imm, cmd = .movAset d p src r sa imm) ∨ (∃ r q imm, cmd = .movAadd d p r q imm) ∨
        (∃ r what, cmd = .movAidx d p r what ∧ what.val < 6)) → CoreBecomes cmd s d i c c)

/-- NET.MESH (R291, R304), NET.SEND (R292) and NET_ARRIVE (R305, R306). A core's 64 bytes go as two halves to its neighbour, its
words to the named core one per cycle; link and port are occupied, by an inactive operation too. Data due at a core are
written, those of an inactive operation and those of an earlier epoch of either die (R312) are not. -/
def Obligations.NetDataTravelAndArrive : Prop :=
  ∀ (s : State) (d : Die),
    let now := s.laps.now
    (∀ (p : Reg4) (dir : Dir) (dst : BitVec 16) (a : Csa), Acts s d → ∃ t, exec (.netMesh d p dir dst a) s = .next t ∧
      (∀ e, e ≠ d → t.die e = s.die e) ∧ (t.die d).cores.map Core.stores = (s.die d).cores.map Core.stores ∧
      t.fabric.sends = s.fabric.sends ∧ t.fabric.signals = s.fabric.signals ∧ s.fabric.data <+: t.fabric.data ∧
      ∀ (i : Nat) (c : Core), (s.die d).cores[i]? = some c → meshBad p dir dst.toNat a (coreIn s d i) c = [] →
        (t.die d).cores[i]? = some { c with mesh := c.mesh.setIfInBounds (dirNo dir) (now + 2) } ∧
        (∀ q, neighbour (sideN s) d i dir = some q →
          let bs := csRead c (csaAddr c a) 64
          let r := now + 36 + 24 * hops d q.1
          let e := dieOf q.1
          ⟨d, e, q.2, dst.toNat, bs.take 32, r, true, activeOn c p, s.laps.moduleLap, (s.die d).epoch,
            epochOf s d e⟩ ∈ t.fabric.data ∧
          ⟨d, e, q.2, dst.toNat + 32, bs.drop 32, r + 1, true, activeOn c p, s.laps.moduleLap, (s.die d).epoch,
            epochOf s d e⟩ ∈ t.fabric.data)) ∧
    (∀ (p ax : Reg4) (w : BitVec 8) (dst : BitVec 16) (a : Csa), ax.val % 2 = 0 → Acts s d →
      ∃ t, exec (.netSend d p ax w dst a) s = .next t ∧ SlotFrame d s { t with fabric := s.fabric } ∧
      t.fabric = { s.fabric with sends := t.fabric.sends } ∧ s.fabric.sends <+: t.fabric.sends ∧
      ∀ (i : Nat) (c : Core), (s.die d).cores[i]? = some c →
        sendBad p ax (w.toNat + 1) dst.toNat a (coreIn s d i) c = [] →
        (t.die d).cores[i]? = some { c with injTo := now + (w.toNat + 1) } ∧
        (∀ q, sendTo (sideN s) c ax = some q →
          ⟨d, i, now, w.toNat + 1, csaAddr c a, dieOf q.1, q.2, dst.toNat, activeOn c p⟩ ∈ t.fabric.sends)) ∧
    (∀ (i : Nat) (c : Core), (s.die d).cores[i]? = some c →
      let mine (y : NetDatum) : Bool := decide (y.die = d) && decide (y.core = i) && decide (y.arrive ≤ now)
      let due := s.fabric.data.filter mine
      ∃ t c', exec (.netArrive d i) s = .next t ∧ (∀ e, e ≠ d → t.die e = s.die e) ∧
        t.fabric = { s.fabric with data := s.fabric.data.filter fun y => !mine y } ∧
        (t.die d).cores[i]? = some c' ∧ (∀ k, k ≠ i → (t.die d).cores[k]? = (s.die d).cores[k]?) ∧
        c'.cs = ((due.filter (·.live)).filter fun y => !staleEpochs s y.src d y.srcEpoch y.dstEpoch).foldl
          (fun m y => memWrite m y.addr y.bytes) c.cs ∧ c'.v = c.v ∧ c'.p = c.p ∧ c'.a = c.a ∧
        (4 < (due.filter fun y => y.mesh && decide (y.arrive = now)).length → t.laps.progFault = true))

/-- R295: a MEM.RADD that takes effect while STRICT is set is a program fault with cause MEM_STRICT and changes nothing in memory. -/
def Obligations.StrictRaddIsAFault : Prop :=
  ∀ (s : State) (d : Die) (p : Reg4) (m : MemArgs) (f : Fmt) (cnt : Fin 64), isPosit f = true ∨ isIeee f = true →
    Acts s d → strictNow s = true → ∃ t, exec (.memRadd d p m f cnt) s = .next t ∧ t.dies = s.dies ∧ t.fabric = s.fabric ∧
      t.laps.progFault = true ∧ t.laps.lapFault = true ∧ ∃ r ∈ t.faults.detected, r.cause = 0x169 ∧ r.die = d

/-- MEM.RD, WR, QADD, MAXLOC and, with STRICT clear, RADD (R293, R321, R323–R326): one request per tier and die that the cores of
the die name, with the range and the units of every core, queued behind the die's earlier ones; a RADD counts one
timing-dependent choice (R341). Nothing in a memory changes yet. -/
def Obligations.MemoryOperationsQueueRequests : Prop :=
  ∀ (s : State) (d : Die) (p : Reg4) (m : MemArgs) (cmd : Instr) (k : MemKind) (op n align csAl tdc : Nat), Acts s d →
    ((∃ len : BitVec 10, memLenOk len = true ∧ n = 64 * len.toNat ∧ align = 64 ∧ csAl = 64 ∧ tdc = 0 ∧
        ((cmd = .memRd d p m len ∧ k = .rd ∧ op = 0x701) ∨ (cmd = .memWr d p m len ∧ k = .wr ∧ op = 0x702))) ∨
      (∃ (f : Fmt) (cnt : Fin 64), isPosit f = true ∧ cmd = .memQadd d p m f cnt ∧ k = .qadd f ∧ op = 0x703 ∧
        n = (cnt.val + 1) * imgSize f ∧ align = 8 ∧ csAl = 8 ∧ tdc = 0) ∨
      (∃ (f : Fmt) (cnt : Fin 64), (isPosit f = true ∨ f = .b32) ∧ cmd = .memMaxloc d p m f cnt ∧ k = .maxloc f ∧ op = 0x704 ∧
        n = (cnt.val + 1) * 8 ∧ align = 8 ∧ csAl = 8 ∧ tdc = 0) ∨
      (∃ (f : Fmt) (cnt : Fin 64), (isPosit f = true ∨ isIeee f = true) ∧ strictNow s = false ∧ cmd = .memRadd d p m f cnt ∧
        k = .radd f ∧ op = 0x705 ∧ n = (cnt.val + 1) * (fmtBits f / 8) ∧ align = fmtBits f / 8 ∧ csAl = 8 ∧ tdc = 1)) →
    (∀ y ∈ memIns s d p m, y.active = true → memInBad d m.async n align csAl y = false) →
    ∃ t new, exec cmd s = .next t ∧ t.run.tdcNow = s.run.tdcNow + tdc ∧
      t.fabric = { s.fabric with nextId := s.fabric.nextId + 1 } ∧ (∀ e, e ≠ d → t.die e = s.die e) ∧
      (t.die d).cores = (s.die d).cores ∧ (t.die d).near.mem = (s.die d).near.mem ∧ (t.die d).far.mem = (s.die d).far.mem ∧
      (t.die d).memQ.map (fun r => (r.id, r.kind, r.parts, r.total)) =
        (s.die d).memQ.map (fun r => (r.id, r.kind, r.parts, r.total)) ++ new ∧
      (∀ r ∈ new, r.1 = s.fabric.nextId ∧ r.2.1 = k ∧ r.2.2.2 = (r.2.2.1.map (·.units)).sum) ∧
      (m.async = false → ∀ r ∈ (t.die d).memQ.drop (s.die d).memQ.length, r.allowed = r.total ∧
        r.earliest = match ((s.die d).memQ.filter fun q => !q.async && decide (q.far = r.far)).getLast? with
          | some q => max (s.laps.now + 20) (q.earliest + ceilDiv q.total (tierSlots r.far))
          | none => s.laps.now + 20) ∧
      ∀ y ∈ memIns s d p m, y.active = true → ∀ w, devLocate y.dev = some w →
        ∃ r ∈ (t.die d).memQ, r.id = s.fabric.nextId ∧ r.far = w.1 ∧ r.target = dieOf w.2.1 ∧ r.effect = s.laps.now ∧
          r.sig = (if m.sig then some m.bar else none) ∧
          ⟨y.core, true, w.2.2, y.cs, n, rangeUnits k w.2.2 n, 0, []⟩ ∈ r.parts

/-- MEM_UNIT_SERVICE and MEM_COMPLETE (R294, R322, R325–R327). The four units of a read of one stripe by one core, the first of
its die's static queue and started: they are served in one cycle, and the bytes become readable the tail later. A whole
stripe written so takes the core's bytes. Nothing waiting: nothing happens. A complete request leaves its queue and counts its signal. -/
def Obligations.UnitsAreServedAndComplete : Prop :=
  ∀ (s : State) (d : Die) (far : Bool),
    let now := s.laps.now
    (∀ (r : MemReq) (q : MemPart) (c : Core), (s.die d).memQ = [r] → r.async = false → r.far = far → r.die = d → r.target = d →
      r.parts = [q] → q.active = true → q.served = 0 → q.units = 4 → q.buf = [] → r.served = 0 → r.total = 4 → r.allowed = 4 →
      r.earliest ≤ now → r.floorAt ≤ now → 0 < q.len → q.off % 256 + q.len ≤ 256 → (s.die d).cores[q.core]? = some c →
      let t0 := (s.die d).tier far
      (far = false → (s.die d).seq.pageQ = [] ∧ (s.die d).due = 0 ∧ s.mladar.toDigest = []) →
      (s.run.run = none → s.run.wsetBusy = false ∧ s.split.verifyBusy = false) → (∀ e, e ≠ d → (s.die e).memQ = []) →
      t0.usedAt < now → t0.atoms = [] → stripeRead t0 (q.off / 256) = .clean →
      (∀ y, s.run.program = some y → t0.staticUsed + 4 ≤ nth (if far then y.farStatic else y.nearStatic) d 0) →
      (r.kind = .rd → ∃ t, exec (.memUnitService d far) s = .next t ∧
        (t.die d).cores[q.core]? = some { c with
          pend := c.pend ++ csPends (now + tierTail far) false q.cs (memRead t0.mem q.off q.len) } ∧
        (t.die d).memQ = [{ r with served := 4, lastAt := now, parts := [{ q with served := 4, buf := memRead t0.mem q.off q.len }] }] ∧
        ((t.die d).tier far).mem = t0.mem) ∧
      (r.kind = .wr → q.len = 256 → s.run.run = none → s.run.wsetRegions = [] → s.split.verified = false →
        ∃ t, exec (.memUnitService d far) s = .next t ∧
        (t.die d).memQ = [{ r with served := 4, lastAt := now, parts := [{ q with served := 4 }] }] ∧
        ((t.die d).tier far).mem = memWrite t0.mem q.off (csReadAt c now q.cs 256))) ∧
    ((∀ e : Die, (s.die e).memQ = []) → (s.die d).seq.pageQ = [] → (s.die d).due = 0 → s.mladar.toDigest = [] →
      s.run.wsetBusy = false → s.split.verifyBusy = false →
      exec (.memUnitService d far) s = .next s) ∧
    ∃ t, exec (.memComplete d) s = .next t ∧ (t.die d).memQ = (s.die d).memQ.filter (fun r => !reqDone s d r.id) ∧
      ((∀ e b, ((s.die e).tier b).atoms = []) →
        (∀ e b, ((t.die e).tier b).mem = ((s.die e).tier b).mem) ∧
        ((s.die d).memQ.Pairwise (fun x y => x.id ≠ y.id) → t.fabric.signals = s.fabric.signals ++
          ((s.die d).memQ.filter fun r => reqDone s d r.id).filterMap fun r => r.sig.map fun b =>
            ⟨d, d, b, now, none, (s.die d).epoch, (s.die d).epoch⟩))
/-! ### Laps and splits -/

/-- LAP_CUT (R20, R27, R30, R31, R33, R34, R272, R273, R368, R390, R394), at a cut with no command or management frame bound to
the lap that opens. Before the lap's last cycle nothing happens. After an aborted lap a recovery lap opens and what the lap
had in flight is gone; an idle lap follows an idle lap; a run goes on where its sequencers stand; an admitted run starts with
its parameters and entry words; a recovered run resumes; a cut under the grid waits for the grid point. The payloads that the
next run lap presents are staged before the cut (R412): what a fault of these writes finds counts for the lap that ends. -/
def Obligations.LapCutOpensTheNextLap : Prop :=
  ∀ (s : State) (ns : Nat), portOn s = true →
    (s.laps.cyc < s.laps.len → exec (.lapCut ns) s = .next s) ∧
    (s.laps.len ≤ s.laps.cyc → s.laps.committed = false → s.net.cmds = [] → s.net.mgmt = [] →
      let opens (t : State) (st : BitVec 2) (len lap : Nat) : Prop :=
        exec (.lapCut ns) s = .next t ∧ t.laps.state = st ∧ t.laps.len = len ∧ t.laps.runLap = lap ∧ t.laps.cyc = 0 ∧
          t.laps.moduleLap = s.laps.moduleLap + 1 ∧ t.laps.padCycles = s.laps.cyc - s.laps.len ∧
          t.laps.lastAborted = s.laps.lapFault ∧ t.laps.closed = false ∧ t.laps.verdict = none ∧ t.laps.now = s.laps.now ∧
          t.run.admission = none
      let g := stageIngress s
      (s.laps.lapFault = true → ∃ t, opens t 3 4096 s.laps.runLap ∧ t.run.run = s.run.run ∧
        t.laps.abortCount = satAdd32 s.laps.abortCount 1 ∧ t.faults.recovering = true ∧
        t.faults.recCount = (if s.laps.state = 3 ∨ (s.run.run ≠ none ∧ recOutcome g ≠ none) then s.faults.recCount
          else satAdd32 s.faults.recCount 1) ∧
        (∀ d, (t.die d).memQ = []) ∧ t.fabric.data = [] ∧ t.fabric.sends = [] ∧ t.fabric.signals = [] ∧
        t.net.egress = [] ∧ t.net.ingress = s.net.ingress) ∧
      (s.laps.lapFault = false → s.laps.state = 0 → (∀ a, s.run.admission = some a → a.code ≠ 0) →
        ∃ t, opens t 0 4096 s.laps.runLap ∧ t.run.run = s.run.run ∧ t.laps.abortCount = s.laps.abortCount) ∧
      (s.laps.lapFault = false → g.laps.lapFault = true → ∃ t, exec (.lapCut ns) s = .next t ∧ t.laps.state = 3 ∧
        t.laps.lastAborted = true ∧ t.laps.abortCount = satAdd32 s.laps.abortCount 1) ∧
      (g.laps.lapFault = false → s.laps.lapFault = false → s.laps.state = 1 ∨ s.laps.state = 2 →
        s.mladar.closingLap = false → stopDue s = false →
        ∀ (r : RunCfg) (p : Program), s.run.run = some r → s.run.program = some p → cutMode r s ≠ 2 →
        (∃ d, ((s.die d).seq.ended && (s.die d).seq.final) = false) →
        ∃ t, opens t 1 (2 ^ p.k) (s.laps.runLap + 1) ∧ t.run.run = some r ∧ t.run.tdc = s.run.tdc + s.run.tdcNow ∧
          t.laps.abortCount = s.laps.abortCount ∧
          ∀ d, (t.die d).seq.pc = (s.die d).seq.pc ∧ (t.die d).seq.s = (s.die d).seq.s ∧
            (t.die d).seq.bar = (s.die d).seq.bar ∧ (t.die d).seq.loops = (s.die d).seq.loops ∧
            (t.die d).seq.ended = ((s.die d).seq.ended && (s.die d).seq.final)) ∧
      (s.laps.lapFault = false → s.laps.state = 0 → s.run.run = none →
        ∀ (a : Admission) (p : Program), s.run.admission = some a → a.code = 0 → a.cfg.split = none → s.run.program = some p →
        (cutMode a.cfg s = 0 → ∃ t, opens t 1 (2 ^ p.k) 0 ∧
          t.run.run = some { a.cfg with startLap := s.laps.moduleLap + 1 } ∧ t.run.strictActive = a.cfg.strict ∧
          t.run.recordsActive = a.cfg.records ∧ t.run.tdc = 0 ∧
          ∀ d, (t.die d).seq.s = Vector.ofFn (fun i : Fin 64 => nth (nth a.params d.val []) i.val 0) ∧
            (t.die d).seq.pc = (nth p.streams d.val (0, 0, 0)).2.1 ∧ (t.die d).seq.bar = Vector.replicate 16 0 ∧
            (t.die d).seq.loops = [] ∧ (t.die d).regs.state = 3 ∧
            (t.die d).cores = (List.range (a.cfg.n * a.cfg.n)).map fun i => { Core.init (s.laps.now + 1) with
              patrol := match (s.die d).cores[i]? with | some c => c.patrol | none => 0 }) ∧
        (cutMode a.cfg s ≠ 0 → s.net.ptpLocked = true →
          (s.laps.gridTarget = none → ∀ g, ns < g → g < ns + s.laps.gridPeriod.toNat →
            g % s.laps.gridPeriod.toNat = s.laps.gridPhase.toNat % s.laps.gridPeriod.toNat →
            exec (.lapCut ns) s = .next { s with laps := { s.laps with gridTarget := some g } }) ∧
          (∀ g, s.laps.gridTarget = some g → ns < g → exec (.lapCut ns) s = .next s))) ∧
      (s.laps.lapFault = false → s.laps.state = 3 → s.faults.recOfRun = true → s.faults.recDone = true →
        recOutcome s = none → stopDue s = false → ∀ (r : RunCfg) (p : Program), s.run.run = some r → s.run.program = some p →
        (autoResume s = true → cutMode r s = 0 → (∃ d, ((s.die d).seq.ended && (s.die d).seq.final) = false) →
          ∃ t, opens t 1 (2 ^ p.k) s.split.lap ∧ t.run.run = some r ∧ t.faults.recovering = false) ∧
        (autoResume s = false → s.split.resumeReq = false →
          ∃ t, opens t 3 4096 s.laps.runLap ∧ t.run.run = some r ∧ t.faults.recovering = s.faults.recovering)))

/-- LAP_OVERRUN (R24): in cycle D + 1 every die that has not executed LAP.END by D reports OVERRUN. EARLY_CLOSE (R26): with
STRICT clear, and every die done, the close phase starts at the cycle of R26, a timing-dependent choice. -/
def Obligations.LapsOverrunAndCloseEarly : Prop :=
  ∀ s : State, runLapOpen s = true →
    let late (d : Die) : Prop := ∀ e, (s.die d).seq.endCyc = some e → lapD s < e
    ((∃ d, late d) → s.laps.cyc = lapD s + 1 → s.laps.stopIssue = false → ∃ t, exec .lapOverrun s = .next t ∧
      t.laps.overrunCount = satAdd32 s.laps.overrunCount 1 ∧ t.laps.stopIssue = true ∧ t.laps.lapFault = true ∧
      t.laps.progFault = true ∧ t.dies = s.dies ∧
      ∀ d, late d → ∃ r ∈ t.faults.detected, r.cause = 0x100 ∧ r.die = d ∧ r.at_ = s.laps.now) ∧
    ((∀ d, ¬ late d) → exec .lapOverrun s = .next s) ∧
    (∀ (r : RunCfg) (e : Nat), s.run.run = some r → (∀ d, ∃ x ≤ e, (s.die d).seq.endCyc = some x) →
      (∃ d, (s.die d).seq.endCyc = some e) → s.laps.closed = false → s.laps.early = false →
      let c := max (max (e + 1) (energyCycle s - 1024)) (if r.records then 31744 else 0)
      (r.strict = false → s.laps.cyc = c → c + 1024 < 2 ^ s.laps.curK → exec .earlyClose s = .next { s with
        run := { s.run with tdcNow := s.run.tdcNow + 1, kindsNow := s.run.kindsNow ||| 1 }
        laps := { s.laps with len := c + 1024, early := true, earlyCount := satAdd32 s.laps.earlyCount 1 } }) ∧
      (r.strict = true ∨ s.laps.cyc ≠ c ∨ 2 ^ s.laps.curK ≤ c + 1024 → exec .earlyClose s = .next s))

/-- CLOSE_PHASE_START (R416, R351): the egress of every die is staged; digest reads left are a fault in a lap that makes them. LAP_VERDICT (R27): the lap
passes when no fault was found. LAP_SEAL (R353, R355): the seal over the lap's leaves, where it fits the record buffer. -/
def Obligations.ClosePhaseJudgesTheLap : Prop :=
  ∀ s : State,
    (s.laps.closed = false → s.laps.cyc = s.laps.len - 1024 → ∃ t, exec .closePhaseStart s = .next t ∧
      t.laps.closed = true ∧ (∀ d, (t.die d).cores = (s.die d).cores ∧ (t.die d).near.mem = (s.die d).near.mem ∧
        (t.die d).far.mem = (s.die d).far.mem ∧ (t.die d).seq = (s.die d).seq ∧ (t.die d).memQ = (s.die d).memQ) ∧
      t.net.ingress = s.net.ingress ∧
      (runLapOpen s = true → t.net.egress = (List.finRange 16).flatMap fun d => (dieEgress s d).1) ∧
      (digestLap s = true → (∃ e ∈ s.mladar.toDigest, e.got.length < e.len) → t.laps.lapFault = true) ∧
      (runLapOpen s = false → digestLap s = false ∨ (∀ e ∈ s.mladar.toDigest, e.len ≤ e.got.length) →
        t.laps.lapFault = s.laps.lapFault)) ∧
    (s.laps.closed = true → s.laps.verdict = none → closeStart s + 256 ≤ s.laps.cyc → s.laps.cyc < closeStart s + 768 →
      ∃ t, exec .lapVerdict s = .next t ∧ t.laps.verdict = some (!t.laps.lapFault) ∧
        (s.laps.lapFault = true → t.laps.verdict = some false) ∧
        (∀ k, runLapOpen s = true → splitCfgOf s = some k → stepOf s k < s.split.boundary → t.laps.verdict = some false) ∧
        t.net = s.net ∧ t.sec = s.sec ∧ t.pacer = s.pacer ∧ t.fabric = s.fabric ∧ ∀ d, (t.die d).cores = (s.die d).cores) ∧
    (s.laps.closed = true → s.laps.sealed = false → closeStart s + 768 ≤ s.laps.cyc → s.laps.cyc < s.laps.len →
      (s.laps.lapFault = true → exec .lapSeal s = .next { s with laps := { s.laps with sealed := true } }) ∧
      (∀ r, s.laps.lapFault = false → recordRun s = some r → r.records = true → runActive s = true →
        ((s.net.records.map fun x => x.payload.length).foldl (· + ·) 0 +
            ((List.range s.mladar.leaves.length).map fun i => (recordFrame s.mladar.leaves i).length).foldl (· + ·) 348 ≤
            32 * 2 ^ 20 →
          ∃ t, exec .lapSeal s = .next t ∧ t.laps = { s.laps with sealed := true } ∧ t.net = s.net ∧ t.dies = s.dies ∧
            ∃ sig : List Byte, sig.length = 132 ∧ t.mladar = { s.mladar with
              sealNow := some ([3, 1, BitVec.ofNat 8 (if s.mladar.closingLap then 4 else s.mladar.events), 0] ++
                leBytes 2 s.mladar.leaves.length ++ leBytes 2 s.mladar.restores ++ leBytes 8 s.laps.runLap ++
                leBytes 8 s.laps.moduleLap ++ merkleRoot 11 s.mladar.leaves ++ s.mladar.prev ++ sha512 s.sec.certSeal ++ sig) }) ∧
        (32 * 2 ^ 20 < (s.net.records.map fun x => x.payload.length).foldl (· + ·) 0 +
            ((List.range s.mladar.leaves.length).map fun i => (recordFrame s.mladar.leaves i).length).foldl (· + ·) 348 →
          ∃ t, exec .lapSeal s = .next t ∧ t.laps.lapFault = true ∧ t.mladar = s.mladar ∧
            ∃ x ∈ t.faults.detected, x.cause = 0x17B)))

/-- SPLIT_HEADER_WRITTEN (R384): the captured header and die blocks stand in the frozen side's header block.
CONTROLLED_STOP (R395, R449): after a lap that passed the run ends with reason 4; its open slots are ended by the module
(R352), nothing of it is left in the queues (R271). -/
def Obligations.SplitHeadersAndStops : Prop :=
  ∀ s : State,
    (∀ (g : SplitImage) (k : SplitCfg), MemCanonical s → s.split.image = some g → splitCfgOf s = some k →
      let h := hdrOf k g.side
      let b := headerBytes s g ++ g.dies.flatten
      h % 256 = 0 → h + 17408 ≤ 2 ^ 39 → b.length = 17408 →
      (s.split.hdrDone = false → ∃ t, exec .splitHeaderWritten s = .next t ∧
        (∀ (e : Die) (o : Nat), o < 2 ^ 35 → let a := e.val * 2 ^ 35 + o
          memGet (t.die e).near.mem o = if h ≤ a ∧ a < h + 17408 then nth b (a - h) 0 else memGet (s.die e).near.mem o) ∧
        t.split.hdrDone = true ∧ t.laps = s.laps ∧ t.net = s.net ∧ ∀ e, (t.die e).far = (s.die e).far ∧
          (t.die e).cores = (s.die e).cores ∧ (t.die e).seq = (s.die e).seq) ∧
      (s.split.hdrDone = true → exec .splitHeaderWritten s = .next s)) ∧
    (∀ r : RunCfg, s.laps.len ≤ s.laps.cyc → runLapOpen s = true → stopDue s = true → s.laps.lapFault = false →
      s.run.run = some r → s.laps.committed = false → (∃ d, ((s.die d).seq.ended && (s.die d).seq.final) = false) →
      ∃ t, exec .controlledStop s = .next t ∧ t.run.run = none ∧ t.run.last = some r ∧ t.split.endReason = 4 ∧
        t.split.stop = false ∧ t.mladar.slots = [] ∧ t.net.ingress = [] ∧ t.fabric.data = [] ∧ t.fabric.sends = [] ∧
        t.fabric.signals = [] ∧ t.laps.committed = true ∧ t.laps.moduleLap = s.laps.moduleLap ∧
        (∀ d, (t.die d).memQ = [] ∧ (t.die d).seq = Seq.init) ∧
        (r.records = true → ∀ x ∈ t.mladar.ended, x.ended ≠ none))

/-! ### The network port and the Niwick transport -/

/-- DATA_FRAME (R21, R412), DIRECT_WRITE (R414), COMMAND_FRAME (R419), MANAGEMENT_FRAME (R420) and ACK_FRAME (R407): a frame that
R401, R404 and R406 admit, whose number is new (R407) and that its class takes, is acknowledged, and its payload waits for
the lap that presents it, is written, or waits for the cut; a number received before, or far from ACK, changes none of that. -/
def Obligations.FramesAreTaken : Prop :=
  ∀ (s : State) (f : Frame) (p : Fin 16), portOn s = true → frameBad s f = false → peerOf s f = some p →
    peerMay s.net.peers[p] f.cls.toNat f.type.toNat = true →
    let c := f.cls.toNat - 1
    let q := seqOf s p c
    let taken (t : State) (n : Nat) : Prop :=
      t.laps = s.laps ∧ t.fabric = s.fabric ∧ t.power = s.power ∧ t.sec = s.sec ∧ t.mladar = s.mladar ∧
        (seqOf t p c).ackDue = some (q.ackDue.getD (s.laps.now + 1880)) ∧
        (n < (seqOf t p c).rxNext ∨ n ∈ (seqOf t p c).rxHave)
    (f.type = 1 → ∃ t, exec (.ackFrame f) s = .next t ∧ t.dies = s.dies ∧ t.laps = s.laps ∧
      (seqOf t p c).unacked = q.unacked.filter (fun u => !ackCovers f.ack.toNat f.sack.toNat u.frame.seq) ∧
      (seqOf t p c).rxNext = q.rxNext ∧ (seqOf t p c).txNext = q.txNext) ∧
    (∀ n, seqAct q f.seq.toNat = .take n →
      (f.cls = 1 → f.type = 0 → f.payload.length = 64 → ∃ t, exec (.commandFrame f) s = .next t ∧ taken t n ∧
        t.dies = s.dies ∧ t.net.cmds = s.net.cmds ++ [⟨f.sender.toNat, n, p, f.payload⟩]) ∧
      (f.cls = 3 → f.type = 0 → 1 ≤ f.payload.length → f.payload.length % 8 = 0 → f.payload.length ≤ 1024 →
        ∃ t, exec (.managementFrame f) s = .next t ∧ taken t n ∧ t.dies = s.dies ∧ t.net.mgmt = s.net.mgmt ++
          [⟨s.laps.moduleLap + 1, p, (List.range (f.payload.length / 8)).map fun i =>
            (numAt f.payload (8 * i) 4, numAt f.payload (8 * i + 4) 4), []⟩]) ∧
      (f.cls = 2 → f.type = 0 → runLapOpen s = true → ∀ (r : RunCfg) (k : QueueCfg), s.run.run = some r →
        r.queues[f.queue.toNat]? = some k → k.dir = 1 → k.peer = 0xFFFF ∨ k.peer = p.val →
        let lap := s.laps.runLap + (if k.peer = 0xFFFF ∧ r.strict = true then 2 else 1)
        let units := ceilDiv f.payload.length 64
        stageFits s r k f.queue.toNat lap f.payload.length = true →
        (vget s.pacer.usedNow 0 0 + units ≤ lapBudget s 0 → ∃ t, exec (.dataFrame f) s = .next t ∧ taken t n ∧ t.dies = s.dies ∧
          t.net.ingress = s.net.ingress ++ [⟨s.laps.runLap + 1, lap, f.queue.toNat, bitAt f.flags.toNat 0, f.sender.toNat, n,
            s.net.order, f.aux.toNat, f.payload⟩] ∧
          (peerAt t p).consumed = (peerAt s p).consumed + units ∧
          vget t.pacer.usedNow 0 0 = vget s.pacer.usedNow 0 0 + units) ∧
        (lapBudget s 0 < vget s.pacer.usedNow 0 0 + units → ∃ t, exec (.dataFrame f) s = .next t ∧
          t.net.ingress = s.net.ingress ∧ (seqOf t p c).rxNext = q.rxNext ∧ (seqOf t p c).rxHave = q.rxHave ∧
          t.pacer.events = s.pacer.events ||| 2)) ∧
      (f.cls = 2 → f.type = 0 → s.run.run = none → s.laps.state ≠ 3 → ∃ t, exec (.dataFrame f) s = .next t ∧ taken t n ∧
        t.net.ingress = s.net.ingress ∧ t.dies = s.dies ∧ t.net.rxDropped = satAdd32 s.net.rxDropped 1 ∧
        t.net.events = s.net.events ||| 0x10) ∧
      (f.cls = 2 → f.type = 3 → s.run.run = none → 8 ≤ f.payload.length → (f.payload.drop 8).length % 64 = 0 →
        (f.payload.drop 8).length ≤ 9088 →
        vget s.pacer.usedNow 0 0 + (f.payload.drop 8).length / 64 ≤ lapBudget s 0 → MemCanonical s →
        ∀ (far : Bool) (d : Die) (o : Nat), leNat (f.payload.take 8) % 64 = 0 →
          devLocate (leNat (f.payload.take 8)) = some (far, d.val, o) →
          o + max (f.payload.drop 8).length 1 ≤ (if far then 2 ^ 36 else 2 ^ 35) →
          (s.laps.state = 3 → ∃ t, exec (.directWrite f) s = .next t ∧ t.dies = s.dies ∧ (seqOf t p c).rxNext = q.rxNext ∧
            (seqOf t p c).rxHave = q.rxHave ∧ t.pacer.events = s.pacer.events ||| 2) ∧
          (s.laps.state ≠ 3 → (∀ b ∈ blocksOf o (f.payload.drop 8).length, (stripeData ((s.die d).tier far) b).isSome) → ∃ t, exec (.directWrite f) s = .next t ∧ taken t n ∧
            (∀ i b, (f.payload.drop 8)[i]? = some b → memGet ((t.die d).tier far).mem (o + i) = b) ∧
            (∀ a, a < o ∨ o + (f.payload.drop 8).length ≤ a →
              memGet ((t.die d).tier far).mem a = memGet ((s.die d).tier far).mem a) ∧
            (∀ e x, e ≠ d ∨ x ≠ far → ((t.die e).tier x).mem = ((s.die e).tier x).mem)))) ∧
    (seqAct q f.seq.toNat = .again ∨ seqAct q f.seq.toNat = .discard →
      ∀ cmd ∈ [Instr.dataFrame f, .directWrite f, .commandFrame f, .managementFrame f], ∃ t, exec cmd s = .next t ∧
        t.net.cmds = s.net.cmds ∧ t.net.mgmt = s.net.mgmt ∧ t.net.ingress = s.net.ingress ∧ t.dies = s.dies)

/-- NEIGHBOUR_SOLICITATION (R400), PTP_SYNC, PTP_SYNC_LOSS and PTP_DELAY_RESPONSE (R403), PFC_RECEIVE and PAUSE_TIME_EXPIRY
(R400, R411: a pause holds for its time, and a credit frame that it held back leaves at its end; the length of a quantum is
taken from IEEE 802.1Q, log 51), PFC_RESUME_SEND (R402), PORT_LINK_CHANGE (R457) and DISCARDED_FRAME (R400, R401, R406). -/
def Obligations.PortEventsAct : Prop :=
  ∀ s : State,
    let resumed (t : State) : Prop := t.net.bulkPaused = false ∧ t.net.ctrlPaused = s.net.ctrlPaused ∧ t.laps = s.laps ∧
      t.dies = s.dies ∧ s.net.sent <+: t.net.sent ∧ ∀ (p : Fin 16) (lim : Nat), s.net.peers[p].creditDue = some lim →
        s.net.carries = true → s.sec.responder = false → s.net.peers[p].down = false →
        t.net.peers[p].creditDue = none ∧ ∃ f : TxFrame, .niwick (wireTo s p 1) f ∈ t.net.sent ∧ f.peer = p.val ∧ f.cls = 1 ∧ f.type = 2 ∧
          f.aux = lim ∧ f.payload = []
    (portOn s = true → s.net.carries = true → ∀ (src target : BitVec 128) (mac : BitVec 48),
      (target = linkLocal s.net.mac ∨ (target = s.net.cfg.addr ∧ s.net.cfg.addr ≠ 0) →
        exec (.neighbourSolicitation src target mac) s = .next { s with net := { s.net with
          sent := s.net.sent ++ [.advert src target (if s.net.cfg.gwMac = 0 then mac else s.net.cfg.gwMac)] } }) ∧
      (target ≠ linkLocal s.net.mac → target ≠ s.net.cfg.addr → exec (.neighbourSolicitation src target mac) s = .next s)) ∧
    (s.power.phase ≠ .off → s.net.cfg.ptpEn = true → ∀ o : Int,
      (∃ t, exec (.ptpSync o) s = .next t ∧ t.net.ptpOffset = o ∧ t.net.ptpLast = s.laps.now ∧ t.laps = s.laps ∧
        t.dies = s.dies ∧ (o.natAbs ≤ 100 → 15 ≤ s.net.ptpGood → t.net.ptpLocked = true) ∧
        (1000 < o.natAbs → 3 ≤ s.net.ptpBad → t.net.ptpLocked = false) ∧
        (o.natAbs ≤ 1000 → s.net.ptpLocked = true → t.net.ptpLocked = true) ∧
        (100 < o.natAbs → s.net.ptpLocked = false → t.net.ptpLocked = false) ∧
        (t.net.ptpGood = if o.natAbs ≤ 100 then s.net.ptpGood + 1 else 0) ∧
        (t.net.ptpBad = if 1000 < o.natAbs then s.net.ptpBad + 1 else 0)) ∧
      exec (.ptpDelayResponse true o) s = .next { s with net := { s.net with ptpOffset := o } } ∧
      exec (.ptpDelayResponse false o) s = .next { s with net := { s.net with ptpDelay := o } }) ∧
    (s.net.ptpLast + 2820000000 ≤ s.laps.now → exec .ptpSyncLoss s =
      .next { s with net := { s.net with ptpLocked := false, ptpGood := 0, ptpBad := 0 } }) ∧
    (s.laps.now < s.net.ptpLast + 2820000000 → exec .ptpSyncLoss s = .next s) ∧
    (∀ quanta : BitVec 16, s.power.phase ≠ .off →
      let until_ := s.laps.now + (quanta.toNat * 3008 + 9999) / 10000
      (quanta ≠ 0 →
        exec (.pfcReceive true quanta) s = .next { s with net := { s.net with ctrlPaused := true, ctrlUntil := until_ } } ∧
        exec (.pfcReceive false quanta) s = .next { s with net := { s.net with bulkPaused := true, bulkUntil := until_ } }) ∧
      (quanta = 0 → exec (.pfcReceive true quanta) s = .next { s with net := { s.net with ctrlPaused := false } } ∧
        ∃ t, exec (.pfcReceive false quanta) s = .next t ∧ resumed t)) ∧
    (s.net.ctrlPaused = true → s.net.ctrlUntil ≤ s.laps.now →
      exec (.pauseTimeExpiry true) s = .next { s with net := { s.net with ctrlPaused := false } }) ∧
    (s.net.bulkPaused = true → s.net.bulkUntil ≤ s.laps.now → ∃ t, exec (.pauseTimeExpiry false) s = .next t ∧ resumed t) ∧
    (s.laps.now < s.net.ctrlUntil → exec (.pauseTimeExpiry true) s = .next s) ∧
    (s.laps.now < s.net.bulkUntil → exec (.pauseTimeExpiry false) s = .next s) ∧
    (s.net.ctrlPfc = true → ∃ t, exec (.pfcResumeSend true) s = .next t ∧ t.net.ctrlBuf < 524288 ∧ t.net.ctrlPfc = false ∧
      t.net.sent = s.net.sent ++ [.pfc true 0] ∧ t.net.bulkBuf = s.net.bulkBuf) ∧
    (s.net.bulkPfc = true → ∃ t, exec (.pfcResumeSend false) s = .next t ∧ t.net.bulkBuf < 524288 ∧ t.net.bulkPfc = false ∧
      t.net.sent = s.net.sent ++ [.pfc false 0] ∧ t.net.ctrlBuf = s.net.ctrlBuf) ∧
    (∀ lanes : BitVec 8, s.power.phase ≠ .off → exec (.portLinkChange lanes) s =
      .next { s with net := { s.net with lanes := lanes, carries := s.net.carries && decide (lanes = 0xFF) } }) ∧
    (portOn s = true → ∀ why : DropReason, exec (.discardedFrame why) s = .next { s with net := { s.net with
      rxDropped := if why = .fcs ∨ why = .beforeFirstLap then s.net.rxDropped else satAdd32 s.net.rxDropped 1 } })

/-- EGRESS_TRANSMIT and EGRESS_DISCARD (R417), RETRANSMIT (R408, R409), ACK_DELAY (R408): which frame leaves, what it carries,
and what is kept until it is acknowledged; a peer that does not answer 16 retransmissions is marked down. -/
def Obligations.FramesLeaveAndAreKept : Prop :=
  ∀ (s : State) (p : Fin 16),
    (∀ (pre post : List OutFrame) (o : OutFrame) (d : Die), s.net.out = pre ++ o :: post → (∀ x ∈ pre, x.peer ≠ p.val) →
      o.peer = p.val → o.die = d.val →
      let q := seqOf s p 1
      let f : TxFrame := ⟨p, 1, s.net.mac.setWidth 32, 1, 0, b2n o.slotEnd, q.txNext % 2 ^ 32, q.rxNext % 2 ^ 32, sackOf q,
        o.queue, o.slot, tierRead (s.die d).near o.off o.len⟩
      (mayTransmit s p 1 = true → q.unacked.length < 256 → (peerAt s p).dataOut = true →
        s.net.storeBytes + o.len ≤ 64 * 2 ^ 20 → ∃ t, exec (.egressTransmit p) s = .next t ∧ t.net.out = pre ++ post ∧
        t.net.storeBytes = s.net.storeBytes + o.len ∧ t.net.sent = s.net.sent ++ [wire s (.niwick (wireTo s p 1) f)] ∧
        (seqOf t p 1).txNext = q.txNext + 1 ∧ (seqOf t p 1).unacked = q.unacked ++ [⟨f, 0, s.laps.now⟩] ∧
        (seqOf t p 1).ackDue = none ∧ t.dies = s.dies ∧ t.laps = s.laps) ∧
      (256 ≤ q.unacked.length ∨ (peerAt s p).dataOut = false ∨ 64 * 2 ^ 20 < s.net.storeBytes + o.len →
        exec (.egressTransmit p) s = .next s)) ∧
    (s.laps.cyc = 0 → ∃ t, exec .egressDiscard s = .next t ∧
      t.net.out = s.net.out.filter (fun o => decide (s.laps.moduleLap < o.lap + 2)) ∧
      ((∃ o ∈ s.net.out, o.lap + 2 ≤ s.laps.moduleLap) → t.net.events = s.net.events ||| 2 ∧
        t.net.egressLost = satAdd32 s.net.egressLost (s.net.out.filter fun o => decide (o.lap + 2 ≤ s.laps.moduleLap)).length)) ∧
    (∀ (c : Fin 5) (pre post : List Unacked) (u : Unacked), mayTransmit s p c = true → (seqOf s p c).unacked = pre ++ u :: post →
      (∀ x ∈ pre, s.laps.now ≤ x.last + rtoCycles s) → u.last + rtoCycles s < s.laps.now →
      let q := seqOf s p c
      let f : TxFrame := { u.frame with ack := q.rxNext % 2 ^ 32, sack := sackOf q }
      (u.sends < 16 → ∃ t, exec (.retransmit p c) s = .next t ∧ t.net.sent = s.net.sent ++ [wire s (.niwick (wireTo s p c) f)] ∧
        (seqOf t p c).unacked = pre ++ ⟨f, u.sends + 1, s.laps.now⟩ :: post ∧ (seqOf t p c).txNext = q.txNext ∧
        t.net.retransmits = satAdd32 s.net.retransmits 1 ∧ t.dies = s.dies) ∧
      (16 ≤ u.sends → ∃ t, exec (.retransmit p c) s = .next t ∧ (peerAt t p).down = true ∧ t.net.sent = s.net.sent ∧
        (seqOf t p 1).unacked = [] ∧ t.net.out = s.net.out.filter (fun o => decide (o.peer ≠ p.val)) ∧
        (t.net.events.getLsbD 0) = true)) ∧
    (∀ (c : Fin 5) (at_ : Nat), (seqOf s p c).ackDue = some at_ → mayTransmit s p c = true →
      let q := seqOf s p c
      (at_ ≤ s.laps.now → ∃ t, exec (.ackDelay p c) s = .next t ∧ (seqOf t p c).ackDue = none ∧
        t.net.sent = s.net.sent ++ [wire s (.niwick (wireTo s p c) ⟨p, 1, s.net.mac.setWidth 32, c, 1, 0, q.txNext % 2 ^ 32,
          q.rxNext % 2 ^ 32, sackOf q, 0, 0, []⟩)] ∧
        (seqOf t p c).unacked = q.unacked ∧ (seqOf t p c).txNext = q.txNext) ∧
      (s.laps.now < at_ → exec (.ackDelay p c) s = .next s))

/-- RECORD_TRANSMIT (R418), DRAIN_SEND (R387, R388) and MGMT_READ_DEFERRED (R44, R420): the first record frame goes to the first
peer that may take it; the next bytes of the split image go to the drain receiver, under the drain budget; a deferred read
is answered at a cut whose budget allows it. -/
def Obligations.RecordsDrainAndReadsLeave : Prop :=
  ∀ (s : State) (p : Fin 16),
    (∀ (pre post : List RecFrame) (r : RecFrame) (rest : List Nat), s.net.records = pre ++ r :: post → r.todo = p.val :: rest →
      (∀ x ∈ pre, ∀ y ∈ x.todo, maySend s y 4 = false) → maySend s p 4 = true →
      let q := seqOf s p 4
      let f : TxFrame := ⟨p, 1, s.net.mac.setWidth 32, 4, 0, 0, q.txNext % 2 ^ 32, q.rxNext % 2 ^ 32, sackOf q, 0, 0, r.payload⟩
      ∃ t, exec .recordTransmit s = .next t ∧ t.net.sent = s.net.sent ++ [wire s (.niwick (wireTo s p 4) f)] ∧
        t.net.records = pre ++ { r with todo := rest.filter (· ≠ p.val), wait := r.wait ++ [(p.val, q.txNext % 2 ^ 32)] } :: post ∧
        (seqOf t p 4).unacked = q.unacked ++ [⟨f, 0, s.laps.now⟩] ∧ (seqOf t p 4).txNext = q.txNext + 1) ∧
    (∀ k : SplitCfg, drainPeer s = some p.val → splitCfgOf s = some k → s.split.draining = true → s.split.hdrDone = true →
      s.split.drainPos < s.split.drainTotal → maySend s p 3 = true →
      let room := lapBudget s 2 - vget s.pacer.usedNow 2 0
      let n := min (min 8192 ((maxPayload s - 16) / 64 * 64)) (min (s.split.drainTotal - s.split.drainPos) (64 * room))
      let l := imagePieces k (!s.split.live)
      (n = 0 → exec .drainSend s = .next { s with pacer := { s.pacer with
        events := s.pacer.events ||| 1, setNow := s.pacer.setNow ||| 1 } }) ∧
      (0 < n → ∃ t, exec .drainSend s = .next t ∧ t.split.drainPos = s.split.drainPos + n ∧
        vget t.pacer.usedNow 2 0 = vget s.pacer.usedNow 2 0 + ceilDiv n 64 ∧ t.laps.cyc = s.laps.cyc ∧
        ∃ f : TxFrame, t.net.sent = s.net.sent ++ [wire s (.niwick (wireTo s p 3) f)] ∧ f.peer = p.val ∧ f.cls = 3 ∧ f.type = 0 ∧
          (s.split.drainPos + n ≤ s.split.drainTotal - 1024 → f.payload = leBytes 8 s.split.drainPos ++
            leBytes 4 s.split.index ++ zeros 4 ++ readPieces s l s.split.drainPos n) ∧
          (s.split.drainPos + n ≤ s.split.drainTotal - 1024 → touchPieces s l s.split.drainPos n = s →
            t.dies = s.dies ∧ t.laps = s.laps))) ∧
    (∀ (b : BoundMgmt) (a v x : Nat), portOn s = true → s.laps.cyc = 0 → s.net.mgmt = [b] → b.lap ≤ s.laps.moduleLap →
      b.todo = [(a, v)] → a % 4 = 0 → ctlRead s a = some x →
      (vget s.pacer.usedNow 3 0 < lapBudget s 3 → ∃ t, exec .mgmtReadDeferred s = .next t ∧ t.net.mgmt = [] ∧
        t.net.replies = s.net.replies ++ [(b.peer.val, 2, b.done ++ (leBytes 4 a ++ leBytes 4 x))] ∧
        vget t.pacer.usedNow 3 0 = vget s.pacer.usedNow 3 0 + 1) ∧
      (lapBudget s 3 ≤ vget s.pacer.usedNow 3 0 → ∃ t, exec .mgmtReadDeferred s = .next t ∧ t.net.mgmt = [b] ∧
        t.net.replies = s.net.replies ∧ t.pacer.events = s.pacer.events ||| 4))

/-! ### Controller commands, the recovery responder and the registers -/

/-- Commands at a cut of a module in laps (Tables 18-9, 18-10; R12, R31, R32, R268, R269, R394, R395, R419, R434): the status of
each reply, and what PING, LOAD, RUN, RESUME, STOP, ATTEST, RECOVER_COMMIT and an unknown code do beside it; nothing else
changes but what the reads of an image and of the tables report (Table 14-3). In any other cycle nothing happens. -/
def Obligations.CommandsAnswer : Prop :=
  ∀ (s : State) (req : CmdReq), portOn s = true →
    (s.laps.cyc ≠ 0 → ∀ (a b c : DWord) (restore : Bool) (nonce : BitVec 256) (code : Byte),
      code ∉ [1, 2, 3, 4, 5, 6, 9, 10] → ∀ cmd ∈ [Instr.ping req, .load req a, .run req b c restore, .resume req, .stop req,
        .reset req, .attest req nonce, .recoverCommit req a, .unknownCommand req code], exec cmd s = .next s) ∧
    (s.laps.cyc = 0 →
    let bytes (u : State) (code status : Nat) : List Byte :=
      [BitVec.ofNat 8 code, BitVec.ofNat 8 status] ++ leBytes 2 0 ++ leBytes 4 req.token.toNat ++ leBytes 8 s.laps.moduleLap ++
        leBytes 4 (lapStatus u) ++ zeros 44
    let tells (u : State) (code status : Nat) : State :=
      { u with net := { u.net with replies := u.net.replies ++ [(req.peer.val, 0, bytes u code status)] } }
    let idle := s.laps.state = 0 ∧ s.run.run = none ∧ s.run.admission = none ∧ s.run.ranCut = false
    let ran : State := { s with run := { s.run with ranCut := true } }
    exec (.ping req) s = .next (tells s 1 0) ∧
    (∀ len, exec (.recoverCommit req len) s = .next (tells s 0x0A 1)) ∧
    (∀ code : Byte, code ∉ [1, 2, 3, 4, 5, 6, 9, 10] → exec (.unknownCommand req code) s = .next (tells s code.toNat 2)) ∧
    (∀ image : DWord,
      (¬ idle → exec (.load req image) s = .next (tells s 2 1)) ∧
      (idle → image.toNat % 64 ≠ 0 ∨ 2 ^ 39 ≤ image.toNat → exec (.load req image) s = .next (tells s 2 3)) ∧
      (idle → image.toNat % 64 = 0 → image.toNat < 2 ^ 39 → ∃ u, exec (.load req image) s = .next (tells u 2 0) ∧
        u.run.program = none ∧ u.laps = { s.laps with lapFault := u.laps.lapFault } ∧ u.net = s.net ∧
        (u.run.loading = if u.run.loadCodes.all (· == 0) then some (parseProgram s image.toNat) else none) ∧
        ∀ d, (u.die d).regs.state = 1 ∧ (u.die d).regs.loadDone = false ∧ (u.die d).cores = (s.die d).cores ∧
          (∀ p, u.run.loading = some p → (u.die d).due = (nth p.streams d.val (0, 0, 0)).2.2) ∧
          ∀ f : Fin 128, (u.die d).seq.frames[f] = .none)) ∧
    (∀ (params queues : DWord) (restore : Bool),
      (¬ idle → exec (.run req params queues restore) s = .next (tells ran 3 1)) ∧
      (idle → params.toNat % 64 ≠ 0 ∨ queues.toNat % 64 ≠ 0 ∨ 2 ^ 39 < params.toNat + 8192 ∨ 2 ^ 39 < queues.toNat + 2624 →
        exec (.run req params queues restore) s = .next (tells ran 3 3)) ∧
      (idle → params.toNat % 64 = 0 → queues.toNat % 64 = 0 → params.toNat + 8192 ≤ 2 ^ 39 → queues.toNat + 2624 ≤ 2 ^ 39 →
        ∃ a : Admission, let u := touchRange (touchRange ran params.toNat 8192) queues.toNat 2624
          exec (.run req params queues restore) s = .next { u with
            laps := { u.laps with admitPending := true }, run := { u.run with admission := some a } } ∧
          a.req = req ∧ a.lap = s.laps.moduleLap ∧ a.place = s.net.replies.length ∧ a.cfg.restore = restore ∧
          a.code = BitVec.ofNat 8 (runCode ran a.cfg) ∧ (s.run.program = none → a.code = 1) ∧
          (restore = false → a.cfg.strict = s.run.strict ∧ a.cfg.records = s.run.records ∧ a.cfg.seed = s.run.seed) ∧
          ∀ d i, d < 16 → i < 64 → nth (nth a.params d []) i 0 =
            BitVec.ofNat 64 (numAt (nearBytes s (params.toNat + 512 * d) 512) (8 * i) 8))) ∧
    (s.laps.state = 3 ∨ s.split.resumeReq = false → (willResume s && !(autoResume s)) = false →
      exec (.resume req) s = .next (tells s 4 1)) ∧
    (s.laps.state = 3 → willResume s = true → autoResume s = false →
      exec (.resume req) s = .next (tells { s with split := { s.split with resumeReq := true } } 4 0)) ∧
    (s.laps.state ≠ 3 → s.split.resumeReq = true →
      exec (.resume req) s = .next (tells { s with split := { s.split with resumeReq := false } } 4 0)) ∧
    ((s.laps.state = 1 ∧ s.run.run ≠ none) ∨ willResume s = true →
      exec (.stop req) s = .next (tells { s with split := { s.split with stop := true } } 5 0)) ∧
    (s.laps.state ≠ 1 ∨ s.run.run = none → willResume s = false → exec (.stop req) s = .next (tells s 5 1)) ∧
    (∀ nonce, ∃ (t : State) (sig : List Byte), exec (.attest req nonce) s = .next t ∧ sig.length = 132 ∧
      t.net = { s.net with replies := s.net.replies ++
        [(req.peer.val, 0, bytes s 9 0 ++ (reportBody s (leBytes 32 nonce.toNat) ++ sig))] } ∧
      t.laps = s.laps ∧ t.dies = s.dies ∧ t.run = s.run ∧ t.sec = s.sec))

/-- LOAD_DONE (R268, Table 11-10): a die that has taken its resident words reports its code; with every check passed it holds
its resident pages, and with the last die the program is loaded. -/
def Obligations.LoadsFinishPerDie : Prop :=
  ∀ (s : State) (d : Die) (c : Byte), s.run.loadCodes[d.val]? = some c → (s.die d).regs.loadDone = false →
    ((s.die d).due ≠ 0 → exec (.loadDone d) s = .next s) ∧ ((s.die d).due = 0 →
    ∃ t, exec (.loadDone d) s = .next t ∧ (t.die d).regs.loadDone = true ∧ (t.die d).regs.loadCode = c ∧
      (t.die d).regs.state = (if s.run.loading.isSome then 2 else 0) ∧
      (∀ p, s.run.loading = some p → ∀ f : Fin 128, (t.die d).seq.frames[f] =
        if f.val < (nth p.streams d.val (0, 0, 0)).2.2 / 1024 then .held f.val else .none) ∧
      (∀ e, e ≠ d → t.die e = s.die e) ∧ (t.die d).cores = (s.die d).cores ∧ t.laps = s.laps ∧ t.net = s.net ∧
      ((∀ e, e ≠ d → (s.die e).regs.loadDone = true) → t.run.program = s.run.loading ∧ t.run.loading = none ∧
        t.run.loadCodes = []) ∧
      ((∃ e, e ≠ d ∧ (s.die e).regs.loadDone = false) → t.run = s.run))

/-- RESET (R466), the recovery responder's RECOVERY_DIRECT_WRITE, PING and RECOVER_COMMIT (R427, R428), FLASH_PROGRAM_DONE
(R428): a module reset keeps fuses, fence lists and the clock and repeats bring-up; the responder stages an image, checks it,
programs it and checks it again. -/
def Obligations.ResetAndRecoveryAct : Prop :=
  ∀ (s : State) (req : CmdReq),
    let fresh (t : State) (cause : Nat) : Prop :=
      t.laps = { Laps.init with now := s.laps.now } ∧ t.run = RunSt.init ∧ t.faults = Faults.init ∧ t.split = Splits.init ∧
        t.pacer = Pacer.init ∧ t.fabric = Fabric.init ∧ t.sec.rollback = s.sec.rollback ∧ t.sec.revoked = s.sec.revoked ∧
        t.sec.locked = s.sec.locked ∧ t.sec.responder = false ∧ t.net.carries = false ∧ t.net.peers = peersInit ∧
        t.sec.identKey = s.sec.identKey ∧ t.sec.sealReady = false ∧ t.power.uv = false ∧ t.power.events = 0 ∧
        t.ident.resetCause = cause ∧ t.ident.resetCount = satAdd32 s.ident.resetCount 1 ∧ t.power.verified = false ∧
        (s.power.goodDone = true → t.power.phase = .boot) ∧ t.pending = s.pending ∧ t.freeIdx ≥ s.freeIdx ∧
        ∀ d, (t.die d).near.mem = [] ∧ (t.die d).far.mem = [] ∧ (t.die d).defects = (s.die d).defects ∧
          (t.die d).fences = if s.faults.clearPending then [] else (s.die d).fences
    let respond (code status reason : Nat) (t : State) : Prop :=
      let q := seqOf s 0 0
      t.net.sent = s.net.sent ++ [.responder s.net.firstMac ⟨0, 1, s.net.mac.setWidth 32, 0, 0, 0, q.txNext % 2 ^ 32,
        q.rxNext % 2 ^ 32, sackOf q, 0, 0, [BitVec.ofNat 8 code, BitVec.ofNat 8 status] ++ leBytes 2 0 ++ leBytes 4 req.token.toNat ++ leBytes 8 0 ++
          leBytes 4 0 ++ [BitVec.ofNat 8 reason] ++ zeros 43⟩]
    (portOn s = true → s.laps.cyc = 0 → ∃ t, exec (.reset req) s = .next t ∧ fresh t 2 ∧
      t.net.sent = s.net.sent ∧ (s.sec.commit = none → t.sec.flash = s.sec.flash)) ∧
    (s.sec.responder = true →
      (s.sec.commit = none → ∃ t, exec (.reset req) s = .next t ∧ fresh t 2) ∧
      (s.sec.commit ≠ none → exec (.reset req) s = .next s) ∧
      (∃ t, exec (.ping req) s = .next t ∧ respond 1 0 s.sec.reason t ∧ t.dies = s.dies ∧ t.sec = s.sec) ∧
      (s.sec.commit = none → ∀ len : DWord, ∃ t, exec (.recoverCommit req len) s = .next t ∧ t.sec.flash = s.sec.flash ∧
        ((∃ r, verifyImage s.sec s.sec.staging true = .inl r ∧ respond 0x0A 5 r t ∧ t.sec = s.sec) ∨
         (∃ v, verifyImage s.sec s.sec.staging true = .inr v ∧
            t = { s with sec := { s.sec with commit := some (req, len.toNat) } }))) ∧
      (∀ (f : Frame) (n : Nat), s.sec.commit = none → f.cls = 2 → f.type = 3 → f.ver = 1 → f.len.toNat = f.payload.length →
        f.toLinkLocal = true → f.payload.length ≤ 9136 → (peerAt s 0).open_ = false → (peerAt s 0).addr = f.srcAddr →
        (peerAt s 0).port = f.srcPort → (peerAt s 0).sender = f.sender → seqAct (seqOf s 0 1) f.seq.toNat = .take n →
        let o := leNat (f.payload.take 8)
        let b := f.payload.drop 8
        o % 64 = 0 → b.length % 64 = 0 → o + b.length ≤ 16777216 → ∃ t, exec (.recoveryDirectWrite f) s = .next t ∧
          t.sec = { s.sec with staging := memWrite s.sec.staging o b } ∧ t.net.firstMac = f.srcMac ∧ t.dies = s.dies ∧
          (seqOf t 0 1).ackDue = some ((seqOf s 0 1).ackDue.getD (s.laps.now + 1880))) ∧
      (∀ len : Nat, s.sec.commit = some (req, len) →
        let flash := memWrite (memClear s.sec.flash 0 0x1000000) 0 (memRead s.sec.staging 0 (min len 0x1000000))
        ∃ t, exec .flashProgramDone s = .next t ∧ t.sec.flash = flash ∧ t.sec.commit = none ∧
          ((∃ r, verifyImage { s.sec with flash := flash, commit := none } flash true = .inl r ∧ respond 0x0A 5 r t ∧
              t.sec.responder = true) ∨
           (∃ v, verifyImage { s.sec with flash := flash, commit := none } flash true = .inr v ∧
              respond 0x0A 0 s.sec.reason t ∧ fresh t 4))))

/-- WSET_START and WSET_DIGEST_DONE (R345, R346), VERIFY, VERIFY_DONE and CANCEL (R388, R396), FAULT_POP (R366), FENCE_CLEAR
(R370), BUDGET_WRITE (R38, R39, Table 2-4), ENVELOPE_WRITE (R47) and REGISTER_WRITE (R4 to R6, R420). A write acts at a cut
only; a 1 clears no bit that the module sets in the same cycle; a pop takes no record that came in its own cycle. -/
def Obligations.ControlWritesAct : Prop :=
  ∀ (s : State) (p : Fin 16), portOn s = true →
    (s.laps.cyc ≠ 0 → ∀ (c : Fin 7) (a v : Word), ∀ cmd ∈ [Instr.wsetStart p, .verify p, .cancel p, .faultPop p, .fenceClear p,
      .budgetWrite p c v, .envelopeWrite p v, .registerWrite p a v], exec cmd s = .next s) ∧
    (s.laps.cyc = 0 →
    (s.run.run = none → s.run.wsetCount ≤ 256 → exec (.wsetStart p) s =
      .next { s with run := { s.run with wsetStart := true, wsetValid := false } }) ∧
    (s.run.run ≠ none ∨ 256 < s.run.wsetCount → exec (.wsetStart p) s = .next { s with run := { s.run with
      wsetErr := true, setNow := s.run.setNow ||| 4, wsetErrCode := if s.run.run ≠ none then 4 else 5
      wsetValid := false, wsetBusy := false } }) ∧
    (s.run.wsetBusy = true → s.run.run = none → allRead s.run.wsetRead s.run.wsetRegions = true → exec .wsetDigestDone s = .next { s with run := { s.run with
      wsetBusy := false, wsetValid := !s.run.wsetDirty
      wsetDigest := sha512 (s.run.wsetRegions.flatMap fun e => leBytes 8 e.1 ++ leBytes 8 e.2 ++ sha512 (devRead s e.1 e.2)) } }) ∧
    (s.run.run = none → s.laps.state = 0 → exec (.verify p) s =
      .next { s with split := { s.split with verifyStart := true, verified := false, errCode := 0 } }) ∧
    (s.run.run ≠ none ∨ s.laps.state ≠ 0 → exec (.verify p) s = .next { s with split := { s.split with errCode := 5 } }) ∧
    (∀ k, s.split.cfg = some k → s.split.verifyBusy = true →
      allRead s.split.verifyRead (checkRanges k s.split.verifySide) = true →
      let ok := decide (splitDigest s k s.split.verifySide = nearBytes s (hdrOf k s.split.verifySide + 320) 64)
      exec .verifyDone s = .next { s with split := { s.split with
        verifyBusy := false, verified := ok, errCode := if ok then s.split.errCode else 4 } }) ∧
    exec (.cancel p) s = .next { s with split := { s.split with draining := false } } ∧
    (∀ r l, s.faults.queue = r :: l →
      let popped : State := { s with faults := { s.faults with queue := l } }
      (s.faults.cameAt ≠ s.laps.now → exec (.faultPop p) s = .next popped) ∧
      (s.faults.cameAt = s.laps.now →
        (s.faults.queue.length ≤ s.faults.fresh → exec (.faultPop p) s = .next s) ∧
        (s.faults.fresh < s.faults.queue.length → s.faults.spill = [] → exec (.faultPop p) s = .next popped) ∧
        (∀ y m, s.faults.fresh < s.faults.queue.length → s.faults.queue.length ≤ 256 → s.faults.spill = y :: m → ∃ t,
          exec (.faultPop p) s = .next t ∧ t.faults.queue = l ++ [y] ∧ t.faults.spill = m ∧
          t.faults.lost = s.faults.lost - 1))) ∧
    (s.faults.queue = [] → exec (.faultPop p) s = .next s) ∧
    exec (.fenceClear p) s = .next { s with faults := { s.faults with clearPending := true } } ∧
    (∀ (c : Fin 7) (v : Word),
      let w := s.pacer.written
      let cap : Vector Nat 7 := #v[12288, 12288 - w[2], 12288 - w[1], 4096, 20480 - w[6], 16384, 20480 - w[4]]
      exec (.budgetWrite p c v) s =
        .next { s with pacer := { s.pacer with written := s.pacer.written.set c (min v.toNat cap[c]) } }) ∧
    (∀ v : Word, exec (.envelopeWrite p v) s = .next { s with pacer := { s.pacer with
      envStep := min (v.toNat % 16) 12, envPending := s.pacer.envPending || s.run.run.isSome } }) ∧
    (∀ a v : Word, ctlRead s a.toNat = none → exec (.registerWrite p a v) s = .next s) ∧
    (∀ a ∈ [0x1000C, 0x10014, 0x30008, 0x3000C, 0x40044, 0x60000], ∀ v : Word,
      exec (.registerWrite p (BitVec.ofNat 32 a) v) s = .next s) ∧
    (∀ a ∈ [0xC, 0x10028, 0x1002C, 0x20008, 0x2000C, 0x30804], ∀ v : Word, ∃ t,
      exec (.registerWrite p (BitVec.ofNat 32 a) v) s = .next t ∧ ctlRead t a = some v.toNat) ∧
    (∀ v : Word, exec (.registerWrite p 0x40040 v) s = .next { s with net := { s.net with
        events := s.net.events &&& (~~~(v.setWidth 8) ||| s.net.setNow) } } ∧
      exec (.registerWrite p 0x1004C v) s = .next { s with pacer := { s.pacer with
        events := s.pacer.events &&& (~~~(v.setWidth 6) ||| s.pacer.setNow) } } ∧
      exec (.registerWrite p 0x6001C v) s = .next { s with power := { s.power with
        events := s.power.events &&& (~~~(v.setWidth 6) ||| s.power.setNow) } }))

/-- ADVANCE, REVOKE_0, REVOKE_1 and LOCK_SERVICE (R429, R430, R437), PEER_CFG_WRITE and PEER_ADMIN_WRITE (R405, R436): a write
from a peer without the administrator bit is denied and changes nothing else; a fuse action acts in idle laps only; none of
them acts in another cycle than a cut. -/
def Obligations.AdministratorsBlowFuses : Prop :=
  ∀ (s : State) (p : Fin 16), portOn s = true →
    let failed : Sec := { s.sec with advFail := true, setNow := s.sec.setNow ||| 4 }
    let fails : State := { s with sec := failed }
    let done : Sec := { s.sec with advDone := true, setNow := s.sec.setNow ||| 2 }
    let idle := s.laps.state = 0 ∧ s.run.run = none
    let all := ([Instr.advance p true, .advance p false, .revoke0 p true, .revoke0 p false,
        .revoke1 p true, .revoke1 p false, .lockService p true, .lockService p false] : List Instr) ++
        (List.finRange 16).map (fun e => .peerCfgWrite p e 0) ++ [.peerAdminWrite p 1]
    (s.laps.cyc ≠ 0 → ∀ cmd ∈ all, exec cmd s = .next s) ∧ (s.laps.cyc = 0 →
    (s.sec.admin.getLsbD p = false → ∀ cmd ∈ all,
      exec cmd s = .next { s with sec := { s.sec with denied := true, setNow := s.sec.setNow ||| 1 } }) ∧
    (s.sec.admin.getLsbD p = true →
      (¬ idle → ∀ b : Bool, exec (.advance p b) s = .next fails ∧ exec (.revoke0 p b) s = .next fails ∧
        exec (.revoke1 p b) s = .next fails ∧ exec (.lockService p b) s = .next fails) ∧
      (idle →
        (s.sec.secVerRun ≤ s.sec.rollback → ∀ b, exec (.advance p b) s = .next { s with sec := done }) ∧
        (s.sec.rollback < s.sec.secVerRun →
          exec (.advance p true) s =
            .next { s with sec := { done with rollback := min s.sec.secVerRun 64 } } ∧
          (s.sec.rollback ≤ 64 → ∃ t, exec (.advance p false) s = .next t ∧ t.sec.advFail = true ∧
            s.sec.rollback ≤ t.sec.rollback ∧ t.sec.rollback < s.sec.secVerRun)) ∧
        (s.sec.slot ≠ 0 → exec (.revoke0 p true) s =
          .next { s with sec := { done with revoked := s.sec.revoked.set 0 true } }) ∧
        (s.sec.slot = 0 → exec (.revoke0 p true) s = .next fails) ∧
        (s.sec.slot ≠ 1 → exec (.revoke1 p true) s =
          .next { s with sec := { done with revoked := s.sec.revoked.set 1 true } }) ∧
        (s.sec.slot = 1 → exec (.revoke1 p true) s = .next fails) ∧
        exec (.revoke0 p false) s = .next fails ∧ exec (.revoke1 p false) s = .next fails ∧
        exec (.lockService p true) s = .next { s with sec := { done with locked := true } } ∧
        (s.sec.locked = false → exec (.lockService p false) s = .next fails)) ∧
      (∀ (e : Fin 16) (v : Word), exec (.peerCfgWrite p e v) s =
        .next { s with net := { s.net with peerCfgNext := s.net.peerCfgNext ++ [(e.val, 0x10, v.toNat % 2 ^ 23)] } }) ∧
      (∀ v : Word, v.toNat % 2 ^ 16 ≠ 0 → exec (.peerAdminWrite p v) s =
        .next { s with sec := { s.sec with admin := v.setWidth 16 } }) ∧
      (∀ v : Word, v.toNat % 2 ^ 16 = 0 → exec (.peerAdminWrite p v) s = .next s)))

/-! ### Faults, recovery, power and bring-up -/

/-- FAULT_DETECTED (R361, R364, R367, R371, R373, R458, Tables 16-1 to 16-3), FAULT_RECORD_QUEUE (R365, R366, R371) and
PATROL_READ (R363, R369): what each detection counts, marks or resets, which record it leaves, and how records are queued. -/
def Obligations.DetectionsLeaveRecords : Prop :=
  ∀ s : State,
    let found (t : State) (cause die act : Nat) : Prop := t.laps.lapFault = true ∧
      ∃ r ∈ t.faults.detected, r.cause = cause ∧ r.die = die ∧ r.at_ = s.laps.now ∧ r.action &&& act = act
    (s.power.phase = .laps → s.sec.responder = false →
      exec (.faultDetected .csCorrected) s =
        .next { s with faults := { s.faults with csCorrected := satAdd32 s.faults.csCorrected 1 } } ∧
      exec (.faultDetected .memCorrected) s =
        .next { s with faults := { s.faults with memCorrected := satAdd32 s.faults.memCorrected 1 } } ∧
      exec (.faultDetected .memRecon) s =
        .next { s with faults := { s.faults with memRecon := satAdd32 s.faults.memRecon 1 } } ∧
      exec (.faultDetected .linkCorrected) s =
        .next { s with faults := { s.faults with linkCorrected := satAdd32 s.faults.linkCorrected 1 } } ∧
      (∀ d, ∃ t, exec (.faultDetected (.wordCorrected d)) s = .next t ∧ t.laps = s.laps ∧
        (t.die d).regs.wordCorrected = satAdd32 (s.die d).regs.wordCorrected 1) ∧
      (∀ (c : DetCause) (d : Die) (i unit : Nat) (detail : BitVec 16) (addr : BitVec 48),
        (physOf s d i = none → exec (.faultDetected (.core c d i unit detail addr)) s = .next s) ∧
        (physOf s d i ≠ none → ∃ t, exec (.faultDetected (.core c d i unit detail addr)) s = .next t ∧
          found t (detCode c) d (if c = .wordEcc then 1 else 3) ∧ (∀ e, (t.die e).cores = (s.die e).cores) ∧
          (∀ x : FaultRec, s.faults.detected = [x] → c = .wordEcc → x.cause = 8 → x.cls = 1 → x.die = d → x.at_ = s.laps.now →
            i < sideN s * sideN s → x.core ≠ coreAddr (sideN s) d i → ∃ r, t.faults.detected = [r] ∧ r.action = 5) ∧
          (s.faults.detected = [] → ∃ r, t.faults.detected = [r] ∧ r.cls = 1 ∧
            r.core = (if i < sideN s * sideN s then coreAddr (sideN s) d i else 0xFFFFF) ∧
            r.unit = unit ∧ r.detail = detail.toNat ∧ r.address = addr.toNat ∧ r.moduleLap = s.laps.moduleLap ∧
            r.action = 3 ∧ r.more = 0))) ∧
      (∀ (c : DetCause) (d : Die) (unit : Nat), ∃ t, exec (.faultDetected (.die c d unit)) s = .next t ∧
        found t (detCode c) d 5 ∧ (c = .seqLockstep → (t.die d).regs.lockstepSeen = true) ∧
        (c = .wordEcc → (t.die d).regs.wordEccSeen = true)) ∧
      (∀ n : Fin 28, ∃ t, exec (.faultDetected (.link n)) s = .next t ∧ found t 10 0xFF 1 ∧ t.dies = s.dies ∧
        t.fabric.data = s.fabric.data.filter (fun y => !crossesNow s n y) ∧
        t.fabric.linkErrors[n] = s.fabric.linkErrors[n] + 1 ∧ t.faults.toRetrain.getLsbD n = true ∧
        (3 ≤ s.fabric.linkErrors[n] → t.fabric.linkFailed.getLsbD n = true) ∧
        (s.fabric.linkErrors[n] < 3 → t.fabric.linkFailed = s.fabric.linkFailed)) ∧
      (∀ (d : Die) (far : Bool) (ch : Fin 20) (addr : BitVec 48),
        (∃ t, exec (.faultDetected (.channel .memParity d far ch addr)) s = .next t ∧ found t 11 d 1 ∧ t.dies = s.dies) ∧
        (∃ t, exec (.faultDetected (.channel .memMulti d far ch addr)) s = .next t ∧ found t 12 d 0x41 ∧
          ((t.die d).tier far).degraded = true) ∧
        (∃ t, exec (.faultDetected (.channel .memCtrlUe d far ch addr)) s = .next t ∧ found t 13 d 1 ∧
          (((s.die d).tier far).chans[ch].failed = false → found t 14 d 9 ∧ ((t.die d).tier far).chans[ch].epoch =
            ((s.die d).tier far).chans[ch].epoch + 1))) ∧
      (∃ t, exec (.faultDetected .hub) s = .next t ∧ found t 17 16 1 ∧ t.dies = s.dies)) ∧
    (s.power.phase = .boot → s.sec.responder = false → s.sec.extest = true → exec (.faultDetected .hub) s = .next s) ∧
    (s.power.phase = .boot → s.sec.responder = false → s.sec.extest = false →
      (s.power.restarts < 2 → ∃ t, exec (.faultDetected .hub) s = .next t ∧ t.power.restarts = s.power.restarts + 1 ∧
        t.power.verified = false ∧ t.power.mapped = false ∧ t.sec = s.sec) ∧
      (2 ≤ s.power.restarts → ∃ t, exec (.faultDetected .hub) s = .next t ∧ t.sec.responder = true ∧ t.sec.reason = 7)) ∧
    (s.faults.detected = [] → exec .faultRecordQueue s = .next s) ∧
    (∀ r : FaultRec, s.faults.detected = [r] → bitAt r.action 2 = false →
      let stop := s.laps.stopIssue || decide (r.moduleLap = s.laps.moduleLap)
      let same := decide (s.faults.cameAt = s.laps.now)
      let fresh := if same then s.faults.fresh else 0
      let spill := if same then s.faults.spill else []
      (s.faults.queue.length < 256 → exec .faultRecordQueue s = .next { s with
        laps := { s.laps with stopIssue := stop }
        faults := { s.faults with detected := [], queue := s.faults.queue ++ [r], total := satAdd32 s.faults.total 1
                                  cameAt := s.laps.now, fresh := fresh + 1, spill := spill } }) ∧
      (256 ≤ s.faults.queue.length → exec .faultRecordQueue s = .next { s with
        laps := { s.laps with stopIssue := stop }
        faults := { s.faults with detected := [], lost := satAdd32 s.faults.lost 1
                                  cameAt := s.laps.now, fresh := fresh, spill := spill ++ [r] } })) ∧
    (∀ a b : FaultRec, s.faults.detected = [b, a] → a.die ≠ 16 → a.die < 256 → (a.die < b.die ∨ b.die = 16) → bitAt a.action 2 = false → bitAt b.action 2 = false →
      s.faults.queue.length < 255 → ∃ t, exec .faultRecordQueue s = .next t ∧ t.faults.queue = s.faults.queue ++ [a, b]) ∧
    (∀ (r : FaultRec) (d : Die), s.faults.detected = [r] → bitAt r.action 2 = true → r.die = d.val →
      s.faults.queue.length < 256 → ∃ t, exec .faultRecordQueue s = .next t ∧
        (t.die d).epoch = (s.die d).epoch + 1 ∧ (∀ e, vget (t.die e).copies d.val 0 = (s.die d).epoch + 1) ∧
        (t.die d).resetFrom = some s.laps.now ∧ (t.die d).memQ = [] ∧
        (let q := (s.die d).seq
         let first : Seq := if s.run.run.isSome then { Seq.init with
           s := Vector.ofFn (fun i : Fin 64 => nth (nth s.run.params d.val []) i.val 0), pc := entryWord s d } else Seq.init
         (t.die d).seq = { first with words := q.words, stalls := q.stalls, energy := q.energy }) ∧
        (t.die d).cores = List.replicate (s.die d).cores.length (Core.init s.laps.now) ∧
        (t.die d).near.mem = (s.die d).near.mem ∧ (t.die d).far.mem = (s.die d).far.mem ∧
        t.faults.queue = s.faults.queue ++ [{ r with epoch := ((s.die d).epoch + 1).toNat }] ∧
        (∀ x ∈ t.fabric.data, x.src = d → x.die ≠ d) ∧ (∀ x ∈ t.fabric.signals, x.src = d → x.die ≠ d) ∧
        (∀ e, e ≠ d → (t.die e).cores = (s.die e).cores)) ∧
    (portOn s = true → ∀ (d : Die) (j : Nat) (c : Core), (s.die d).rest[j]? = some c →
      exec (.patrolRead d ((s.die d).cores.length + j) 0) s = .next (s.setDie d { s.die d with
        rest := (s.die d).rest.set j { c with patrol := (c.patrol + 8) % 0xC000 } })) ∧
    (portOn s = true → ∀ (d : Die) (i : Nat) (c : Core), (s.die d).cores[i]? = some c →
      let moved := s.setCores d ((s.die d).cores.set i { c with patrol := (c.patrol + 8) % 0xC000 })
      exec (.patrolRead d i 0) s = .next moved ∧
      (physOf s d i = none → ∀ flips, exec (.patrolRead d i flips) s = .next moved) ∧
      (physOf s d i ≠ none → exec (.patrolRead d i 1) s =
        .next { moved with faults := { s.faults with csCorrected := satAdd32 s.faults.csCorrected 1 } }) ∧
      (physOf s d i ≠ none → ∃ t, exec (.patrolRead d i 2) s = .next t ∧ found t 1 d 3 ∧ t.dies = moved.dies))

/-- DIE_RESET_END (R371), FENCED_COMPLETION (R313, R334), FABRIC_PACKET_ARRIVE (R312, R333), MEM_RESPONSE_TIMEOUT and
CHANNEL_RESET_END (R334, R372) and REFRESH (R332). -/
def Obligations.ResetsFenceAndEnd : Prop :=
  ∀ (s : State) (d : Die),
    let found (t : State) (cause die : Nat) : Prop := t.laps.lapFault = true ∧
      ∃ r ∈ t.faults.detected, r.cause = cause ∧ r.die = die ∧ r.at_ = s.laps.now
    (∀ b, (s.die d).resetFrom = some b →
      (s.laps.cyc = 0 → b + 4096 ≤ s.laps.now →
        exec (.dieResetEnd d) s = .next (s.setDie d { s.die d with resetFrom := none })) ∧
      (s.laps.cyc ≠ 0 ∨ s.laps.now < b + 4096 → exec (.dieResetEnd d) s = .next s)) ∧
    (∃ t, exec (.fencedCompletion d) s = .next t ∧ t.fabric = { s.fabric with fenced := t.fabric.fenced } ∧
      ((s.die d).resetFrom ≠ none → digestLap s = true →
        (∃ y ∈ s.mladar.toDigest, y.die = d.val ∧ y.got.length < y.len) → found t 18 16 ∧
        ∀ y ∈ t.mladar.toDigest, y.die = d.val → y.got.length < y.len → y.got = []) ∧
      ∀ e, (∀ r ∈ (s.die e).memQ, fencedReq s d r = true → ∃ y ∈ t.fabric.fenced, y.to_ = r.die ∧ y.die = d ∧
          y.toEpoch = (s.die r.die).epoch ∧ y.dieEpoch = (s.die d).epoch) ∧
        (t.die e).memQ = (s.die e).memQ.filter (fun r => !fencedReq s d r) ∧
        (t.die e).cores = (s.die e).cores ∧ ((∃ r ∈ (s.die e).memQ, fencedReq s d r = true) → found t 18 e)) ∧
    ((s.die d).resetFrom = none → (∀ e, ∀ r ∈ (s.die e).memQ, r.target = d →
        ∀ c ∈ ((s.die d).tier r.far).chans.toList, c.resetFrom = none) → exec (.fencedCompletion d) s = .next s) ∧
    (portOn s = true → ∀ (dst src : Fin 17) (de se : BitVec 4), dst.val = d.val → src ≠ dst →
      let drops (c : Option ChanTag) : Prop := ∃ t, exec (.fabricPacketArrive dst src de se c) s = .next t ∧ found t 15 d ∧
        t.fabric = s.fabric ∧ (c = none → t.dies = s.dies) ∧ ∀ x, (t.die x).cores = (s.die x).cores ∧
          (t.die x).near = (s.die x).near ∧ (t.die x).far = (s.die x).far ∧ (t.die x).memQ.Sublist (s.die x).memQ ∧
          ∀ y, c = some y → x.val = (if y.reply then dst.val else src.val) →
            ∀ r, (s.die x).memQ.find? (packetReq dst src y) = some r → ∀ z ∈ (t.die x).memQ, z.id ≠ r.id
      (de = (s.die d).epoch → se = (s.die d).copies[src] → exec (.fabricPacketArrive dst src de se none) s = .next s ∧
        ∀ (c : ChanTag) (m : Die), m.val = (if c.reply then src.val else dst.val) →
          (c.epoch = ((s.die m).tier c.far).chans[c.ch].epoch →
            exec (.fabricPacketArrive dst src de se (some c)) s = .next s) ∧
          (c.epoch ≠ ((s.die m).tier c.far).chans[c.ch].epoch → drops (some c))) ∧
      (de ≠ (s.die d).epoch ∨ se ≠ (s.die d).copies[src] → ∀ chan, drops chan)) ∧
    (∀ (far : Bool) (ch : Fin 20),
      let c := ((s.die d).tier far).chans[ch]
      let chan (t : State) : Chan := ((t.die d).tier far).chans[ch]
      (portOn s = false ∨ readOverdue s d far ch = false → exec (.memResponseTimeout d far ch) s = .next s) ∧
      (portOn s = true → readOverdue s d far ch = true → ∃ t, exec (.memResponseTimeout d far ch) s = .next t ∧ found t 14 d ∧
        ((t.die d).tier far).mem = ((s.die d).tier far).mem ∧ (t.die d).tier (!far) = (s.die d).tier (!far) ∧
        (∀ e, e ≠ d → t.die e = s.die e) ∧ (c.failed = true → chan t = c) ∧
        (c.failed = false → c.resets < 2 → chan t = ⟨c.epoch + 1, c.resets + 1, some s.laps.now, false⟩) ∧
        (c.failed = false → 2 ≤ c.resets → chan t = ⟨c.epoch + 1, c.resets + 1, none, true⟩)) ∧
      (∀ b, c.resetFrom = some b →
        (∀ ok, s.laps.now < b + 4096 → exec (.channelResetEnd d far ch ok) s = .next s) ∧
        (b + 4096 ≤ s.laps.now → (∃ t, exec (.channelResetEnd d far ch true) s = .next t ∧
            chan t = { c with resetFrom := none } ∧ t.laps = s.laps ∧ t.faults = s.faults) ∧
          (∃ t, exec (.channelResetEnd d far ch false) s = .next t ∧ chan t = { c with resetFrom := none, failed := true } ∧
            found t 14 d))) ∧
      (portOn s = true → ∀ rank : Fin 2,
        (s.laps.cyc % 64 = 32 + 16 * rank.val → far = true ∨ rank = 0 → exec (.refresh d far ch rank) s =
          .next (s.setTier d far { (s.die d).tier far with
            banks := vset ((s.die d).tier far).banks (2 * ch.val + rank.val) (some (s.laps.cyc / 64 % 16)) })) ∧
        (s.laps.cyc % 64 ≠ 32 + 16 * rank.val → exec (.refresh d far ch rank) s = .next s)))

/-- MEM_HOT (R451), CLOCK_XCHK, OSC_SWITCH and DRIFT_CHECK (R374), RECOVERY_DONE (R368 to R373, R391, R472), UV_CHANGE and UV_STOP
(R441, R449, R450) and THERMAL_SAMPLE (R448, R449). -/
def Obligations.MonitorsStopAndRecover : Prop :=
  ∀ s : State,
    let found (t : State) (cause : Nat) : Prop := t.laps.lapFault = true ∧
      ∃ r ∈ t.faults.detected, r.cause = cause ∧ r.die = 16 ∧ r.at_ = s.laps.now
    let stops : Splits := { s.split with stop := s.split.stop || s.run.run.isSome }
    let asked : Nat := if s.split.stop = true ∨ s.power.stopPending = true then s.power.stopAt else s.laps.now
    let down (t : State) : Prop := t.power.phase = .off ∧ t.power.latched = true ∧ t.run = RunSt.init ∧
      (s.sec.commit = none → t.sec.flash = s.sec.flash) ∧ t.sec.rollback = s.sec.rollback ∧ ∀ d, (t.die d).near.mem = [] ∧ (t.die d).groupsOn = 0
    (s.power.phase ≠ .off →
      (∀ rate, ∃ t, exec (.memHot true rate) s = .next t ∧ down t) ∧
      exec (.memHot false true) s = .next { s with split := stops, power := { s.power with
        memHot := true, stopPending := true, stopAt := asked, events := s.power.events ||| 6, setNow := s.power.setNow ||| 6 } } ∧
      exec (.memHot false false) s = .next { s with power := { s.power with memHot := false } } ∧
      exec (.uvChange .falls40) s = .next { s with power := { s.power with below40 := true } } ∧
      exec (.uvChange .falls39) s = .next { s with power := { s.power with
        below40 := true, uv := true, uvSince := some (s.power.uvSince.getD s.laps.now) } } ∧
      exec (.uvChange .rises39) s = .next { s with power := { s.power with uv := false, uvSince := none } } ∧
      (∃ t, exec (.uvChange .rises40) s = .next t ∧ t.power.below40 = false ∧ t.power.uv = false ∧ t.power.uvSince = none ∧
        t.laps = s.laps ∧ ((∀ d : Die, s.power.tj[d] < 950) → s.power.hubTj < 950 → t.power.stopPending = false) ∧
        ((∃ d : Die, 950 ≤ s.power.tj[d]) → t.power.stopPending = s.power.stopPending)) ∧
      (∀ b, s.power.uvSince = some b →
        (b + 940000 ≤ s.laps.now → exec .uvStop s = .next { s with split := stops, power := { s.power with
          stopPending := true, stopAt := asked, events := s.power.events ||| 8, setNow := s.power.setNow ||| 8 } }) ∧
        (s.laps.now < b + 940000 → exec .uvStop s = .next s)) ∧
      (∀ b, s.power.sampledAt = some b → s.laps.now < b + 16384 → ∀ sample, exec (.thermalSample sample) s = .next s) ∧
      (s.power.sensorFail = [] → (∀ b, s.power.sampledAt = some b → b + 16384 ≤ s.laps.now) → ∀ x y inlet outlet : Int,
        let top := max x y
        let even : Vector (Vector (Int × Int) 8) 16 := Vector.replicate 16 (Vector.replicate 8 (x, x))
        let sample : Thermal := ⟨even, Vector.replicate 2 (y, y), inlet, outlet⟩
        (1150 ≤ top → ∃ t, exec (.thermalSample sample) s = .next t ∧ down t) ∧
        (top < 1150 → ∃ t, exec (.thermalSample sample) s = .next t ∧ t.laps = s.laps ∧ t.dies = s.dies ∧
          (∀ d : Die, t.power.tj[d] = x) ∧ t.power.hubTj = y ∧ t.power.inlet = inlet ∧ t.power.outlet = outlet ∧
          t.power.warn = decide (950 ≤ top) ∧ t.power.peak = max s.power.peak top ∧
          t.power.sampledAt = some s.laps.now ∧ (1050 ≤ top → t.power.stopPending = true ∧ t.power.stopAt = asked ∧ t.split = stops) ∧
          (top < 950 → s.power.below40 = false → t.power.stopPending = false) ∧
          (950 ≤ top → top < 1050 → t.power.stopPending = s.power.stopPending)) ∧
        (∀ z : Int, 50 < (x - z).natAbs → x ≤ 1050 → y < 1150 → ∃ t,
          exec (.thermalSample ⟨even.set 0 ((Vector.replicate 8 (x, x)).set 0 (x, z)), Vector.replicate 2 (y, y),
            inlet, outlet⟩) s = .next t ∧
          t.power.tj[0] = 1050 ∧ t.power.sensorFail = [0] ∧ t.power.stopPending = true))) ∧
    (s.power.phase = .laps → ∀ (n : Nat) (a b : Bool),
      (4092 ≤ n → n ≤ 4100 → exec (.clockXchk n a b) s = .next s) ∧
      (n < 4092 ∨ 4100 < n → ∃ t, exec (.clockXchk n a b) s = .next t ∧ found t 16 ∧ t.dies = s.dies ∧
        (a = b → t.faults.undecided = true ∧ t.faults.oscB = false) ∧
        (a ≠ b → s.faults.oscB ≠ b → t.faults.oscDue = true ∧ t.faults.undecided = s.faults.undecided) ∧
        (a ≠ b → s.faults.oscB = b → t.faults.oscDue = s.faults.oscDue ∧
          (if b then t.faults.oscAFailed else t.faults.oscBFailed) = true))) ∧
    (s.laps.cyc = 0 → s.faults.oscDue = true → exec .oscSwitch s = .next { s with faults := { s.faults with
      oscB := !s.faults.oscB, oscDue := false, oscAFailed := s.faults.oscAFailed || !s.faults.oscB
      oscBFailed := s.faults.oscBFailed || s.faults.oscB } }) ∧
    (s.laps.cyc ≠ 0 ∨ s.faults.oscDue = false → exec .oscSwitch s = .next s) ∧
    (∀ ppm, (200 < ppm → exec (.driftCheck ppm) s = .next { s with faults := { s.faults with
        drift := true, setNow := s.faults.setNow ||| 8 } }) ∧
      (ppm ≤ 200 → exec (.driftCheck ppm) s = .next s)) ∧
    (s.faults.recovering = true → s.faults.recDone = false → s.laps.state = 3 → resetsBusy s = false →
      (reloads s = true → wordsDue s = false) →
      ∀ failed : BitVec 28, let fixed := repairStep (writeHeader s) failed
      ∃ t, exec (.recoveryDone failed) s = .next t ∧ t.faults.recDone = true ∧
        t.faults.toRetrain = 0 ∧ t.fabric.linkFailed = s.fabric.linkFailed ||| (s.faults.toRetrain &&& failed) ∧
        t.laps = { s.laps with lapFault := t.laps.lapFault } ∧ t.run.run = s.run.run ∧
        (∀ (r : FaultRec) (d : Die), s.faults.lapRecs = [r] → bitAt r.action 1 = true → bitAt r.phys 16 = true →
          r.die = d.val → (r.phys % 256, r.phys / 256 % 256) ∉ (s.die d).fences → (s.die d).fences.length < 1024 →
          (t.die d).fences = (s.die d).fences ++ [(r.phys % 256, r.phys / 256 % 256)]) ∧
        (s.faults.recOfRun = false → ∀ d, (t.die d).cores = (s.die d).cores.map fun c => { c with cs := [] }) ∧
        (∀ (r : RunCfg) (k : SplitCfg), s.faults.recOfRun = true → s.run.run = some r → r.split = some k →
          recOutcome fixed = none → t.mladar.restores = s.mladar.restores + 1 ∧ t.mladar.slots = s.mladar.slots ∧
            t.split.live = s.split.live ∧ ∀ d, (t.die d).cores = (List.range (r.n * r.n)).map fun i =>
              { Core.init (s.laps.now + 1) with patrol := match (s.die d).cores[i]? with | some c => c.patrol | none => 0 }) ∧
        (s.faults.recOfRun = true → recOutcome fixed ≠ none → t.mladar = s.mladar ∧ ∀ d, (t.die d).cores = (s.die d).cores)) ∧
    (resetsBusy s = true ∨ (reloads s = true ∧ wordsDue s = true) → ∀ failed, exec (.recoveryDone failed) s = .next s)

/-- INPUT_RISE, STAGGER_STEP, POWER_GOOD_CHECK, RAILS_OFF, OVERVOLTAGE_SHUTDOWN and OVERCURRENT_SHUTDOWN (R441 to R445),
ROM_VERIFY_DONE (R424 to R427), SEAL_KEY_ISSUE (R432), MEM_TRAINING_DONE, LINK_TRAINING_DONE, MAP_BUILD (R300, R301, R370),
FIRST_IDLE_LAP (R457), EXTEST_LOAD, EXTEST_RELEASE and TAP_INSTRUCTION (R437, R453, R467). -/
def Obligations.PowerAndBringUpProceed : Prop :=
  ∀ s : State,
    let down (t : State) (latched : Bool) : Prop := t.power.phase = .off ∧ t.power.latched = latched ∧ t.power.step = 0 ∧
      t.run = RunSt.init ∧ t.laps = { Laps.init with now := s.laps.now } ∧
      t.sec.flash = (if s.sec.commit.isSome then memClear s.sec.flash 0 0x1000000 else s.sec.flash) ∧ t.sec.rollback = s.sec.rollback ∧ t.sec.revoked = s.sec.revoked ∧
      ∀ d, (t.die d).near.mem = [] ∧ (t.die d).groupsOn = 0 ∧ (t.die d).fences = (s.die d).fences
    let trains := (s.power.phase = .stagger ∨ s.power.phase = .boot) ∧ s.sec.responder = false ∧ s.sec.extest = false
    (s.power.phase = .off → (s.power.latched = false ∨ s.power.fell = true → ∃ t, exec .inputRise s = .next t ∧
        t.power.phase = .softStart ∧ t.power.latched = false ∧ t.power.riseAt = s.laps.now ∧ t.ident.resetCause = (if s.power.latched then 5 else 1)) ∧
      (s.power.latched = true → s.power.fell = false → exec .inputRise s = .next s) ∧
      exec .railsOff s = .next { s with power := { s.power with fell := true } }) ∧
    (s.laps.now < s.power.riseAt + 4700000 + 235000 * (s.power.step + 1) → exec .staggerStep s = .next s) ∧
    (s.power.phase = .softStart ∨ s.power.phase = .stagger → s.power.step < 257 →
      s.power.riseAt + 4700000 + 235000 * (s.power.step + 1) ≤ s.laps.now → ∃ t, exec .staggerStep s = .next t ∧
      t.power.phase = .stagger ∧ t.power.step = s.power.step + 1 ∧
      ∀ d : Die, (1 ≤ s.power.step → d.val = (s.power.step - 1) / 16 → (t.die d).groupsOn = (s.power.step - 1) % 16 + 1) ∧
        (s.power.step = 0 ∨ d.val ≠ (s.power.step - 1) / 16 → t.die d = s.die d)) ∧
    (s.laps.now < s.power.riseAt + 67680000 → ∀ good, exec (.powerGoodCheck good) s = .next s) ∧
    (s.power.phase = .stagger → s.power.step = 257 → s.power.riseAt + 67680000 ≤ s.laps.now → exec (.powerGoodCheck true) s =
        .next { s with power := { s.power with phase := .boot, goodDone := true } } ∧
      ∃ t, exec (.powerGoodCheck false) s = .next t ∧ down t true) ∧
    (s.power.phase ≠ .off → (∃ t, exec .railsOff s = .next t ∧ down t false) ∧
      (∃ t, exec .overvoltageShutdown s = .next t ∧ down t true) ∧
      (∃ t, exec .overcurrentShutdown s = .next t ∧ down t true)) ∧
    (trains → 1 ≤ s.power.step → s.power.verified = false → ∀ reads, ∃ t, exec (.romVerifyDone reads) s = .next t ∧
      (reads = false → t.sec.responder = true ∧ t.sec.reason = 6) ∧
      ((∃ r, verifyImage s.sec s.sec.flash reads = .inl r ∧ t.sec.responder = true ∧ t.sec.reason = r ∧
          t.power.verified = false) ∨
        (∃ v, verifyImage s.sec s.sec.flash reads = .inr v ∧ t.sec.responder = false ∧ t.power.verified = true ∧
          t.sec.slot = v.slot ∧ t.sec.secVerRun = v.ver ∧ t.sec.fwDigest = v.digest))) ∧
    (trains → s.power.verified = true → s.power.sealIssued = false → ∃ t, exec .sealKeyIssue s = .next t ∧
      t.power.sealIssued = true ∧ t.sec.sealReady = true ∧ t.sec.certSeal.length ≤ 2044 ∧ s.freeIdx < t.freeIdx ∧
      (∃ number g, t.sec.certSeal = certOfBody (sealBodyOf number s.sec.serial t.sec.sealKey) g) ∧
      t.sec.rollback = s.sec.rollback ∧ t.dies = s.dies) ∧
    (trains → s.power.verified = true → s.power.goodDone = true →
      (s.power.memTrained = false → ∀ l : List (Die × Bool × Fin 20), ∃ t, exec (.memTrainingDone l) s = .next t ∧
        t.power.memTrained = true ∧ ∀ (d : Die) (far : Bool) (ch : Fin 20),
          ((d, far, ch) ∈ l → ((t.die d).tier far).chans[ch].failed = true) ∧
          ((d, far, ch) ∉ l → ((t.die d).tier far).chans[ch] = ((s.die d).tier far).chans[ch]) ∧
          ((t.die d).tier far).mem = ((s.die d).tier far).mem) ∧
      (s.power.linkTrained = false → ∀ failed : BitVec 28, exec (.linkTrainingDone failed) s = .next { s with
        power := { s.power with linkTrained := true }
        fabric := { s.fabric with linkFailed := s.fabric.linkFailed ||| failed } }) ∧
      (s.power.memTrained = true → s.power.linkTrained = true → s.power.mapped = false → ∃ t, exec .mapBuild s = .next t ∧
        t.power.mapped = true ∧ ∀ d, (t.die d).fences = (s.die d).fences ∧ (t.die d).map.bad = (s.die d).fences ∧
          (t.die d).map.rows.Pairwise (· < ·) ∧ (t.die d).map.rows.length ≤ gridSide s ∧
          ((t.die d).map.exhausted = false → (t.die d).map.rows.length = gridSide s) ∧
          ∀ pr ∈ (t.die d).map.rows, pr < 256 ∧ pr ∉ (s.die d).map.retired ∧ buildRow (t.die d) (gridSide s) pr = true) ∧
      (s.power.mapped = true → s.power.sealIssued = true → ∀ us : Word, ∃ t, exec (.firstIdleLap us) s = .next t ∧
        t.power.phase = .laps ∧ t.laps = { Laps.init with now := s.laps.now } ∧ t.ident.bootTime = us ∧
        t.power.uv = false ∧ t.power.warn = false ∧ t.power.events = 0 ∧ t.ident.bootDegraded = degraded s ∧ t.net.carries = decide (s.net.lanes = 0xFF) ∧ t.dies = s.dies)) ∧
    (s.power.phase ≠ .off →
      (s.sec.extest = false → ∃ t, exec .extestLoad s = .next t ∧ exec (.tapInstruction .extest) s = .next t ∧
        t.sec.tap = .extest ∧ t.sec.extest = true ∧ t.run = RunSt.init ∧ t.ident.resetCause = 3 ∧
        t.sec.rollback = s.sec.rollback) ∧
      (∀ i ∈ [TapInstr.bypass, .sample, .preload], exec (.tapInstruction i) s =
        .next { s with sec := { s.sec with tap := i, extest := false } }) ∧
      (s.sec.locked = true → exec (.tapInstruction .factory) s = .next s) ∧
      (s.sec.locked = false → exec (.tapInstruction .factory) s =
        .next { s with sec := { s.sec with tap := .factory, extest := false } })) ∧
    (s.sec.extest = true → ∃ t, exec .extestRelease s = .next t ∧ t.sec.extest = false ∧ t.sec.tap ≠ .extest ∧
      (s.sec.locked = true → t.sec.tap ≠ .factory) ∧ t.dies = s.dies ∧ t.laps = s.laps)
end

