-- ==== Sys2Proof/Laws/Memory.lean ====
section
/-! SUPPORT. The byte memories: every operation keeps the canonical form; a read after a write gives the value written and
leaves every other address alone. -/
namespace Sys2Proof.Machine

/-- A canonical memory from `hi` on is canonical from any lower bound on. -/
theorem memWfFrom_mono {lo hi : Nat} (h : lo ≤ hi) {m : Mem} (w : memWfFrom hi m = true) : memWfFrom lo m = true := by
  cases m with
  | nil => rfl
  | cons x m => obtain ⟨k, b⟩ := x; simp [memWfFrom] at w ⊢; exact ⟨⟨by omega, w.1.2⟩, w.2⟩

/-- An address below the lower bound is unlisted. -/
theorem memGet_below {lo : Nat} {m : Mem} (w : memWfFrom lo m = true) {a : Nat} (h : a < lo) : memGet m a = 0 := by
  cases m with
  | nil => rfl
  | cons x m =>
    obtain ⟨k, b⟩ := x
    simp [memWfFrom] at w
    have h1 : k ≠ a := by omega
    have h2 : a < k := by omega
    simp [memGet, h1, h2]

/-- Writing a byte keeps the canonical form from a bound that the address respects. -/
theorem memWfFrom_set {lo : Nat} {m : Mem} (w : memWfFrom lo m = true) {a : Nat} (h : lo ≤ a) (b : Byte) :
    memWfFrom lo (memSet m a b) = true := by
  induction m generalizing lo with
  | nil =>
    unfold memSet
    split
    · rfl
    · rename_i hb; simpa [memWfFrom, h] using hb
  | cons x m ih =>
    obtain ⟨k, y⟩ := x
    simp [memWfFrom] at w
    obtain ⟨⟨w1, w2⟩, w3⟩ := w
    unfold memSet
    split
    · split
      · simp [memWfFrom, w1, w2, w3]
      · rename_i h1 hb
        simp [memWfFrom, h, w2, w3]
        exact ⟨hb, by omega⟩
    · split
      · rename_i h1 h2
        subst h2
        split
        · exact memWfFrom_mono (by omega) w3
        · rename_i hb; simpa [memWfFrom, h, w3] using hb
      · simp [memWfFrom, w1, w2]
        exact ih w3 (by omega)

/-- Writing a byte keeps the canonical form. -/
theorem memSet_wf {m : Mem} (w : Memory.wf m = true) (a : Nat) (b : Byte) : Memory.wf (memSet m a b) = true :=
  memWfFrom_set w (Nat.zero_le a) b

/-- Writing bytes keeps the canonical form. -/
theorem memWrite_wf {m : Mem} (w : Memory.wf m = true) (a : Nat) (bs : List Byte) : Memory.wf (memWrite m a bs) = true := by
  induction bs generalizing m a with
  | nil => exact w
  | cons b bs ih => exact ih (memSet_wf w a b) (a + 1)

theorem memWfFrom_filter {lo : Nat} {m : Mem} (w : memWfFrom lo m = true) (p : Host.Cell → Bool) :
    memWfFrom lo (m.filter p) = true := by
  induction m generalizing lo with
  | nil => rfl
  | cons x m ih =>
    obtain ⟨k, y⟩ := x
    simp [memWfFrom] at w
    by_cases hp : p (k, y) = true
    · simp [hp, memWfFrom, w.1.1, w.1.2, ih w.2]
    · simp [hp]; exact memWfFrom_mono (by omega) (ih w.2)

/-- Dropping the bytes that a test names keeps the canonical form. -/
theorem memFilter_wf {m : Mem} (w : Memory.wf m = true) (p : Host.Cell → Bool) : Memory.wf (m.filter p) = true :=
  memWfFrom_filter w p

/-- Clearing a range keeps the canonical form. -/
theorem memClear_wf {m : Mem} (w : Memory.wf m = true) (a n : Nat) : Memory.wf (memClear m a n) = true :=
  memFilter_wf w _

/-- The empty memory is canonical. -/
theorem mem_nil_wf : Memory.wf [] = true := rfl

/-- A byte written reads back, and every other byte reads as before. -/
theorem memGet_set {lo : Nat} {m : Mem} (w : memWfFrom lo m = true) (a x : Nat) (b : Byte) :
    memGet (memSet m a b) x = if x = a then b else memGet m x := by
  induction m generalizing lo with
  | nil =>
    unfold memSet
    split
    · rename_i hb; simp [hb, memGet]
    · by_cases hx : x = a
      · simp [memGet, hx]
      · have h6 : a ≠ x := fun q => hx q.symm
        simp [memGet, hx, h6]
  | cons y m ih =>
    obtain ⟨k, z⟩ := y
    simp [memWfFrom] at w
    obtain ⟨⟨w1, w2⟩, w3⟩ := w
    have low : ∀ q, q < k + 1 → memGet m q = 0 := fun q hq => memGet_below w3 hq
    unfold memSet
    split
    · rename_i h1
      split
      · rename_i hb
        subst hb
        by_cases hx : x = a
        · subst hx
          have : k ≠ x := by omega
          simp [memGet, this, h1]
        · simp [hx]
      · by_cases hx : x = a
        · simp [memGet, hx]
        · have : a ≠ x := fun q => hx q.symm
          simp only [memGet, this, hx, if_false]
          by_cases h3 : x < a
          · have h4 : k ≠ x := by omega
            have h5 : x < k := by omega
            simp [h3, h4, h5]
          · simp [h3]
    · rename_i h1
      split
      · rename_i h2
        subst h2
        split
        · rename_i hb
          subst hb
          by_cases hx : x = a
          · subst hx; simp [low x (by omega)]
          · have h6 : a ≠ x := fun q => hx q.symm
            simp only [memGet, h6, hx, if_false]
            split
            · exact low x (by omega)
            · rfl
        · by_cases hx : x = a
          · simp [memGet, hx]
          · have h6 : a ≠ x := fun q => hx q.symm
            simp [memGet, h6, hx]
      · rename_i h2
        by_cases hx : x = a
        · subst hx
          have h6 : k ≠ x := fun q => h2 q.symm
          have h7 := ih w3
          simp [memGet, h6, h1] at h7 ⊢
          exact h7
        · have h7 := ih w3
          simp only [hx, if_false] at h7 ⊢
          simp [memGet, h7]

/-- After a write of bytes, the written range reads as written and every other byte as before. -/
theorem memGet_write {m : Mem} (w : Memory.wf m = true) (a x : Nat) (bs : List Byte) :
    memGet (memWrite m a bs) x = if a ≤ x ∧ x < a + bs.length then nth bs (x - a) 0 else memGet m x := by
  induction bs generalizing m a with
  | nil => simp only [memWrite, List.length_nil]; rw [if_neg (by omega)]
  | cons b bs ih =>
    simp only [memWrite]
    rw [ih (memSet_wf w a b) (a + 1), memGet_set w]
    by_cases h1 : x = a
    · subst h1
      simp [nth]
    · by_cases h2 : a + 1 ≤ x ∧ x < a + 1 + bs.length
      · have h3 : a ≤ x ∧ x < a + (b :: bs).length := by simp; omega
        have h4 : x - a = (x - (a + 1)) + 1 := by omega
        rw [if_pos h2, if_pos h3, h4]
        simp [nth]
      · have h3 : ¬ (a ≤ x ∧ x < a + (b :: bs).length) := by simp; omega
        rw [if_neg h2, if_neg h3, if_neg h1]

end Sys2Proof.Machine
end

