-- ==== Sys2Proof/Laws/Cores.lean ====
section
/-! SUPPORT. An operation of a core slot changes no core store byte, vector register, predicate register or address
register in its own cycle: its writes are timed (R166, R279). One lemma per core function. -/
namespace Sys2Proof.Machine
set_option Elab.async false

/-- Updating any other field of a core keeps its stores. -/
@[simp] theorem stores_mk (c : Core) (pend fresh hist mxa mxb mvp tq lq job vecTo vecDone sticky ops mesh inj degen fb patrol) :
    (Core.mk c.cs c.v c.p c.a pend fresh hist mxa mxb mvp tq lq job vecTo vecDone sticky ops mesh inj degen fb patrol).stores
      = c.stores := rfl

@[simp] theorem setArr_stores (c : Core) (k : Arr) (m : MArray) : (c.setArr k m).stores = c.stores := by cases k <;> rfl

@[simp] theorem csWrite_stores (c : Core) (r a : Nat) (bs : List Byte) (u : Nat) : (csWrite c r a bs u).1.stores = c.stores :=
  rfl

@[simp] theorem regWrite_stores (c : Core) (r : Nat) (b : Bool) (ws : List PWrite) : (regWrite c r b ws).1.stores = c.stores :=
  rfl

@[simp] theorem vecStore_stores (c : Core) (r : Nat) (ws : List PWrite) : (vecStore c r ws).1.stores = c.stores := rfl

/-- A fold of steps that keep the stores keeps them. -/
theorem foldl_stores {α : Type} (f : Core → α → Core) (h : ∀ c x, (f c x).stores = c.stores) (l : List α) (c : Core) :
    (l.foldl f c).stores = c.stores := by
  induction l generalizing c with
  | nil => rfl
  | cons x l ih => simp [ih, h]

/-- The same for steps that carry something beside the core. -/
theorem foldl_stores₁ {α β : Type} (f : Core × β → α → Core × β) (h : ∀ c x, (f c x).1.stores = c.1.stores) (l : List α)
    (c : Core × β) : (l.foldl f c).1.stores = c.1.stores := by
  induction l generalizing c with
  | nil => rfl
  | cons x l ih => simp [ih, h]

/-- The same for steps that carry something before the core. -/
theorem foldl_stores₂ {α β : Type} (f : β × Core → α → β × Core) (h : ∀ c x, (f c x).2.stores = c.2.stores) (l : List α)
    (c : β × Core) : (l.foldl f c).2.stores = c.2.stores := by
  induction l generalizing c with
  | nil => rfl
  | cons x l ih => simp [ih, h]

/-! ### Matrix arrays -/

@[simp] theorem strmCore_stores (k p ts gi x c) : (strmCore k p ts gi x c).1.stores = c.stores := by
  unfold strmCore; dsimp only; repeat' split
  all_goals simp

@[simp] theorem cfgCore_stores (k f cap x c) : (cfgCore k f cap x c).1.stores = c.stores := by
  unfold cfgCore; dsimp only; repeat' split
  all_goals simp

@[simp] theorem ldwCore_stores (k p f r st a x c) : (ldwCore k p f r st a x c).1.stores = c.stores := by
  unfold ldwCore; dsimp only; repeat' split
  all_goals simp only [setArr_stores]

@[simp] theorem swapCore_stores (k x c) : (swapCore k x c).1.stores = c.stores := by
  unfold swapCore; dsimp only; repeat' split
  all_goals simp

@[simp] theorem openCore_stores (k n first f gi x c) : (openCore k n first f gi x c).1.stores = c.stores := by
  unfold openCore; dsimp only; generalize (_ ++ _ : List Raise) = bad; split
  all_goals simp only [setArr_stores]

/-- A service operation keeps the stores when its effect does. -/
theorem serviceCore_stores (k act gi cyc x c) (eff : Nat → Group → Core → (Option Group × Core) × List Raise)
    (h : ∀ f g, (eff f g c).1.2.stores = c.stores) : (serviceCore k act gi cyc eff x c).1.stores = c.stores := by
  unfold serviceCore; dsimp only; repeat' split
  all_goals simp [h]

@[simp] theorem zeroCore_stores (k p gi x c) : (zeroCore k p gi x c).1.stores = c.stores := by
  unfold zeroCore; exact serviceCore_stores _ _ _ _ _ _ _ fun _ _ => rfl

@[simp] theorem freeCore_stores (k gi x c) : (freeCore k gi x c).1.stores = c.stores := by
  unfold freeCore; dsimp only; repeat' split
  · exact serviceCore_stores _ _ _ _ _ _ _ fun _ _ => rfl
  all_goals simp

@[simp] theorem spillCore_stores (k p a att gi x c) : (spillCore k p a att gi x c).1.stores = c.stores := by
  unfold spillCore; dsimp only
  refine serviceCore_stores _ _ _ _ _ _ _ fun f g => ?_
  split
  · rfl
  · split
    · rfl
    · dsimp only
      refine foldl_stores₁ _ ?_ _ _; intros; rfl

@[simp] theorem fillCore_stores (k p a gi x c) : (fillCore k p a gi x c).1.stores = c.stores := by
  unfold fillCore; dsimp only
  refine serviceCore_stores _ _ _ _ _ _ _ fun f g => ?_
  split
  · rfl
  · split <;> rfl

@[simp] theorem closeCore_stores (k p exd ts gi x c) : (closeCore k p exd ts gi x c).1.stores = c.stores := by
  unfold closeCore; dsimp only; repeat' split
  all_goals simp

/-! ### Matrix-vector path -/

@[simp] theorem mvAdd_stores (now ts c i) : (mvAdd now ts c i).stores = c.stores := rfl
@[simp] theorem mvSet_stores (c i a) : (mvSet c i a).stores = c.stores := rfl

@[simp] theorem mvDotCore_stores (p wf xf acc vn e a x c) : (mvDotCore p wf xf acc vn e a x c).1.stores = c.stores := by
  unfold mvDotCore; dsimp only; repeat' split
  all_goals simp

@[simp] theorem mvColCore_stores (p wf xf acc vn k a x c) : (mvColCore p wf xf acc vn k a x c).1.stores = c.stores := by
  unfold mvColCore; dsimp only; repeat' split
  all_goals first | rfl | (dsimp only; refine foldl_stores _ ?_ _ _; intros; rfl)

/-- A service operation of the MVP keeps the stores when its effect does. -/
theorem mvService_stores (act is cyc x c) (eff : Core → Core × List Raise) (h : ∀ c, (eff c).1.stores = c.stores) :
    (mvService act is cyc eff x c).1.stores = c.stores := by
  unfold mvService; dsimp only; repeat' split
  all_goals simp [h]

@[simp] theorem mvOpenCore_stores (f x c) : (mvOpenCore f x c).1.stores = c.stores := by
  unfold mvOpenCore; exact mvService_stores _ _ _ _ _ _ fun _ => rfl

@[simp] theorem mvZeroCore_stores (p m x c) : (mvZeroCore p m x c).1.stores = c.stores := by
  unfold mvZeroCore; refine mvService_stores _ _ _ _ _ _ fun _ => ?_; dsimp only; refine foldl_stores _ ?_ _ _; intros; rfl

@[simp] theorem mvSpillCore_stores (p a att m x c) : (mvSpillCore p a att m x c).1.stores = c.stores := by
  unfold mvSpillCore; dsimp only
  refine mvService_stores _ _ _ _ _ _ fun c => ?_
  repeat' split
  all_goals first | rfl | (refine foldl_stores₁ _ ?_ _ _; intros; rfl)

@[simp] theorem mvFillCore_stores (p a m x c) : (mvFillCore p a m x c).1.stores = c.stores := by
  unfold mvFillCore; dsimp only
  refine mvService_stores _ _ _ _ _ _ fun c => ?_
  repeat' split
  all_goals first | rfl | (dsimp only; refine foldl_stores _ ?_ _ _; intros; rfl)

@[simp] theorem mvCloseCore_stores (p out exd n acc x c) : (mvCloseCore p out exd n acc x c).1.stores = c.stores := by
  unfold mvCloseCore; dsimp only
  rw [stores_mk]
  refine mvService_stores _ _ _ _ _ _ fun c => ?_
  repeat' split
  all_goals rfl

/-! ### Vector engine -/

/-- An operation that takes the pipe keeps the stores when its work does. -/
theorem pipeTake_stores (x c occ) (go : Nat → Core → Core × List Raise) (h : ∀ o c, (go o c).1.stores = c.stores) :
    (pipeTake x c occ go).1.stores = c.stores := by
  unfold pipeTake; dsimp only; split
  all_goals simp [h]

@[simp] theorem regBeat_stores (o r e j c) : (regBeat o r e j c).1.stores = c.stores := rfl

@[simp] theorem descBeat_stores (o r j c) : (descBeat o r j c).1.stores = c.stores := by
  unfold descBeat; split <;> rfl

@[simp] theorem plogBeat_stores (zm o pd pa pb j c) : (plogBeat zm o pd pa pb j c).1.stores = c.stores := rfl

@[simp] theorem vRegCore_stores (i o p r e x c) : (vRegCore i o p r e x c).1.stores = c.stores := by
  unfold vRegCore; dsimp only
  refine pipeTake_stores _ _ _ _ fun op c => ?_
  split <;> simp

@[simp] theorem vDescCore_stores (i o p r ref x c) : (vDescCore i o p r ref x c).1.stores = c.stores := by
  unfold vDescCore
  refine pipeTake_stores _ _ _ _ fun op c => ?_
  dsimp only; repeat' split
  all_goals simp

@[simp] theorem plogCore_stores (i p zm o pd pa pb x c) : (plogCore i p zm o pd pa pb x c).1.stores = c.stores := by
  unfold plogCore
  exact pipeTake_stores _ _ _ _ fun op c => rfl

@[simp] theorem elemBeat_stores (j c) : (elemBeat j c).1.stores = c.stores := by
  unfold elemBeat; repeat' split
  all_goals simp

@[simp] theorem setLane_stores (c l a) : (setLane c l a).stores = c.stores := rfl
@[simp] theorem laneAdd_stores (sq f c l x) : (laneAdd sq f c l x).stores = c.stores := rfl

@[simp] theorem redStart_stores (a f j c) : (redStart a f j c).2.stores = c.stores := by
  unfold redStart; dsimp only; split <;> rfl

@[simp] theorem redElem_stores (a f) (jc : VecJob × Core) (y) : (redElem a f jc y).2.stores = jc.2.stores := by
  unfold redElem; dsimp only; repeat' split
  all_goals simp

@[simp] theorem redEmit_stores (a f o j r job d c) : (redEmit a f o j r job d c).1.stores = c.stores := by
  unfold redEmit; split <;> rfl

@[simp] theorem redDescBeat_stores (a j c) : (redDescBeat a j c).2.1.stores = c.stores := by
  unfold redDescBeat; dsimp only; repeat' split
  all_goals first | rfl | simp [foldl_stores₂ (redElem a _) (fun c x => redElem_stores a _ c x)]

@[simp] theorem redRegBeat_stores (a r j c) : (redRegBeat a r j c).2.1.stores = c.stores := by
  unfold redRegBeat; dsimp only; repeat' split
  all_goals first | rfl | simp [foldl_stores₂ (redElem a _) (fun c x => redElem_stores a _ c x)]

@[simp] theorem redRegCore_stores (i p r a x c) : (redRegCore i p r a x c).1.stores = c.stores := by
  unfold redRegCore; dsimp only
  refine pipeTake_stores _ _ _ _ fun op c => ?_
  split <;> simp

@[simp] theorem redNoBeat_stores (a j s d c) : (redNoBeat a j s d c).1.stores = c.stores := by
  unfold redNoBeat; dsimp only
  refine foldl_stores₁ _ (fun c x => ?_) _ _
  split <;> simp

@[simp] theorem redDescCore_stores (i p r a ref x c) : (redDescCore i p r a ref x c).1.stores = c.stores := by
  unfold redDescCore
  refine pipeTake_stores _ _ _ _ fun op c => ?_
  dsimp only; repeat' split
  all_goals simp

@[simp] theorem popCore_stores (p vd lq q x c) : (popCore p vd lq q x c).1.stores = c.stores := by
  unfold popCore
  refine pipeTake_stores _ _ _ _ fun op c => ?_
  dsimp only; repeat' split
  all_goals simp

@[simp] theorem qzeroCore_stores (p f m x c) : (qzeroCore p f m x c).1.stores = c.stores := by
  unfold qzeroCore
  refine pipeTake_stores _ _ _ _ fun op c => ?_
  split
  · dsimp only
    refine foldl_stores _ ?_ _ _; intros; rfl
  · rfl

@[simp] theorem qrndCore_stores (p r f vd m sp x c) : (qrndCore p r f vd m sp x c).1.stores = c.stores := by
  unfold qrndCore
  refine pipeTake_stores _ _ _ _ fun op c => ?_
  dsimp only; repeat' split
  all_goals simp

@[simp] theorem qspillCore_stores (p att m ad x c) : (qspillCore p att m ad x c).1.stores = c.stores := by
  unfold qspillCore; dsimp only
  refine pipeTake_stores _ _ _ _ fun op c => ?_
  repeat' split
  all_goals first | rfl | (refine foldl_stores₁ _ ?_ _ _; intros; rfl)

@[simp] theorem qfillCore_stores (p m ad x c) : (qfillCore p m ad x c).1.stores = c.stores := by
  unfold qfillCore; dsimp only
  refine pipeTake_stores _ _ _ _ fun op c => ?_
  repeat' split
  all_goals first | rfl | (dsimp only; refine foldl_stores _ ?_ _ _; intros; rfl)

@[simp] theorem rdflCore_stores (p vd x c) : (rdflCore p vd x c).1.stores = c.stores := by
  unfold rdflCore
  refine pipeTake_stores _ _ _ _ fun op c => ?_
  dsimp only; split <;> rfl

@[simp] theorem rowCore_stores (i k ref x c) : (rowCore i k ref x c).1.stores = c.stores := by
  unfold rowCore; dsimp only
  refine pipeTake_stores _ _ _ _ fun op c => ?_
  repeat' split
  all_goals simp

@[simp] theorem rowUnit_stores (k j c) : (rowUnit k j c).2.1.stores = c.stores := by
  unfold rowUnit; dsimp only; split <;> rfl

@[simp] theorem quantPd_stores (a s pd cl r c) : (quantPd a s pd cl r c).1.stores = c.stores := rfl

@[simp] theorem quantUnit_stores (pd j c) : (quantUnit pd j c).2.1.stores = c.stores := by
  unfold quantUnit; dsimp only; repeat' split
  all_goals rfl

@[simp] theorem quantCore_stores (i p dd da sp pd ref x c) : (quantCore i p dd da sp pd ref x c).1.stores = c.stores := by
  unfold quantCore; dsimp only
  refine pipeTake_stores _ _ _ _ fun op c => ?_
  repeat' split
  all_goals simp

@[simp] theorem jobUnit_stores (j c) : (jobUnit j c).2.1.stores = c.stores := by
  unfold jobUnit; repeat' split
  all_goals simp

@[simp] theorem vecTick_stores (t c) : (vecTick t c).1.stores = c.stores := by
  unfold vecTick; repeat' split
  all_goals simp

/-! ### Moves and the network slot -/

@[simp] theorem feedCore_stores (p k a x c) : (feedCore p k a x c).1.stores = c.stores := by
  unfold feedCore; dsimp only; repeat' split
  all_goals simp

@[simp] theorem tagCore_stores (k a x c) : (tagCore k a x c).1.stores = c.stores := by
  unfold tagCore; dsimp only; split <;> simp

/-- A move on core store keeps the stores when its work does. -/
theorem movCs_stores (p a n x c) (f : CoreIn → Nat → Core → Core × List Raise) (h : ∀ ad, (f x ad c).1.stores = c.stores) :
    (movCs p a n f x c).1.stores = c.stores := by
  unfold movCs; dsimp only; repeat' split
  all_goals simp [h]

@[simp] theorem ldvCore_stores (p vd a x c) : (ldvCore p vd a x c).1.stores = c.stores := movCs_stores _ _ _ _ _ _ fun _ => rfl
@[simp] theorem stvCore_stores (p va a x c) : (stvCore p va a x c).1.stores = c.stores := movCs_stores _ _ _ _ _ _ fun _ => rfl
@[simp] theorem ldpCore_stores (p pd a x c) : (ldpCore p pd a x c).1.stores = c.stores := movCs_stores _ _ _ _ _ _ fun _ => rfl
@[simp] theorem stpCore_stores (p pa a x c) : (stpCore p pa a x c).1.stores = c.stores := movCs_stores _ _ _ _ _ _ fun _ => rfl

@[simp] theorem cpyCore_stores (p dst src x c) : (cpyCore p dst src x c).1.stores = c.stores := by
  refine movCs_stores _ _ _ _ _ _ fun ad => ?_
  dsimp only; split <;> rfl

@[simp] theorem aWrite_stores (p ad f x c) : (aWrite p ad f x c).1.stores = c.stores := by
  unfold aWrite; split <;> rfl

@[simp] theorem meshCore_stores (p dir dst a x c) : (meshCore p dir dst a x c).1.stores = c.stores := by
  unfold meshCore; dsimp only; split <;> rfl

@[simp] theorem sendCore_stores (p ax w dst a x c) : (sendCore p ax w dst a x c).1.stores = c.stores := by
  unfold sendCore; dsimp only; split <;> rfl

end Sys2Proof.Machine
end

