-- ==== Sys2Proof/Laws/State.lean ====
section
/-! SUPPORT. One lemma per field per named update of the state, true by definition; a proof cites these and unfolds no
record update. -/
namespace Sys2Proof.Machine
set_option Elab.async false

/-! ### One die replaced -/

@[simp] theorem State.setDie_laps (s : State) (d : Die) (x : DieSt) : (s.setDie d x).laps = s.laps := rfl
@[simp] theorem State.setDie_pacer (s : State) (d : Die) (x : DieSt) : (s.setDie d x).pacer = s.pacer := rfl
@[simp] theorem State.setDie_fabric (s : State) (d : Die) (x : DieSt) : (s.setDie d x).fabric = s.fabric := rfl
@[simp] theorem State.setDie_run (s : State) (d : Die) (x : DieSt) : (s.setDie d x).run = s.run := rfl
@[simp] theorem State.setDie_mladar (s : State) (d : Die) (x : DieSt) : (s.setDie d x).mladar = s.mladar := rfl
@[simp] theorem State.setDie_faults (s : State) (d : Die) (x : DieSt) : (s.setDie d x).faults = s.faults := rfl
@[simp] theorem State.setDie_split (s : State) (d : Die) (x : DieSt) : (s.setDie d x).split = s.split := rfl
@[simp] theorem State.setDie_net (s : State) (d : Die) (x : DieSt) : (s.setDie d x).net = s.net := rfl
@[simp] theorem State.setDie_sec (s : State) (d : Die) (x : DieSt) : (s.setDie d x).sec = s.sec := rfl
@[simp] theorem State.setDie_power (s : State) (d : Die) (x : DieSt) : (s.setDie d x).power = s.power := rfl
@[simp] theorem State.setDie_ident (s : State) (d : Die) (x : DieSt) : (s.setDie d x).ident = s.ident := rfl
@[simp] theorem State.setDie_freeIdx (s : State) (d : Die) (x : DieSt) : (s.setDie d x).freeIdx = s.freeIdx := rfl
@[simp] theorem State.setDie_pending (s : State) (d : Die) (x : DieSt) : (s.setDie d x).pending = s.pending := rfl

@[simp] theorem State.setDie_die_self (s : State) (d : Die) (x : DieSt) : (s.setDie d x).die d = x := by
  simp [State.setDie, State.die]

theorem State.setDie_die (s : State) (d e : Die) (x : DieSt) :
    (s.setDie d x).die e = if e = d then x else s.die e := by
  by_cases h : e = d
  · subst h; simp
  · have h2 : (d : Nat) ≠ (e : Nat) := fun q => h (Fin.ext q.symm)
    simp [State.setDie, State.die, h, h2]

@[simp] theorem State.setDie_die_other (s : State) {d e : Die} (x : DieSt) (h : e ≠ d) :
    (s.setDie d x).die e = s.die e := by simp [State.setDie_die, h]

/-- A state is determined by its fields; replacing a die by itself changes nothing. -/
@[simp] theorem State.setDie_self (s : State) (d : Die) : s.setDie d (s.die d) = s := by
  simp [State.setDie, State.die]

/-! ### One sequencer replaced -/

@[simp] theorem State.setSeq_laps (s : State) (d : Die) (q : Seq) : (s.setSeq d q).laps = s.laps := rfl
@[simp] theorem State.setSeq_pacer (s : State) (d : Die) (q : Seq) : (s.setSeq d q).pacer = s.pacer := rfl
@[simp] theorem State.setSeq_fabric (s : State) (d : Die) (q : Seq) : (s.setSeq d q).fabric = s.fabric := rfl
@[simp] theorem State.setSeq_run (s : State) (d : Die) (q : Seq) : (s.setSeq d q).run = s.run := rfl
@[simp] theorem State.setSeq_mladar (s : State) (d : Die) (q : Seq) : (s.setSeq d q).mladar = s.mladar := rfl
@[simp] theorem State.setSeq_faults (s : State) (d : Die) (q : Seq) : (s.setSeq d q).faults = s.faults := rfl
@[simp] theorem State.setSeq_split (s : State) (d : Die) (q : Seq) : (s.setSeq d q).split = s.split := rfl
@[simp] theorem State.setSeq_net (s : State) (d : Die) (q : Seq) : (s.setSeq d q).net = s.net := rfl
@[simp] theorem State.setSeq_sec (s : State) (d : Die) (q : Seq) : (s.setSeq d q).sec = s.sec := rfl
@[simp] theorem State.setSeq_power (s : State) (d : Die) (q : Seq) : (s.setSeq d q).power = s.power := rfl
@[simp] theorem State.setSeq_ident (s : State) (d : Die) (q : Seq) : (s.setSeq d q).ident = s.ident := rfl
@[simp] theorem State.setSeq_freeIdx (s : State) (d : Die) (q : Seq) : (s.setSeq d q).freeIdx = s.freeIdx := rfl
@[simp] theorem State.setSeq_pending (s : State) (d : Die) (q : Seq) : (s.setSeq d q).pending = s.pending := rfl

/-! ### One die's cores replaced -/

@[simp] theorem State.setCores_laps (s : State) (d : Die) (l : List Core) : (s.setCores d l).laps = s.laps := rfl
@[simp] theorem State.setCores_pacer (s : State) (d : Die) (l : List Core) : (s.setCores d l).pacer = s.pacer := rfl
@[simp] theorem State.setCores_fabric (s : State) (d : Die) (l : List Core) : (s.setCores d l).fabric = s.fabric := rfl
@[simp] theorem State.setCores_run (s : State) (d : Die) (l : List Core) : (s.setCores d l).run = s.run := rfl
@[simp] theorem State.setCores_mladar (s : State) (d : Die) (l : List Core) : (s.setCores d l).mladar = s.mladar := rfl
@[simp] theorem State.setCores_faults (s : State) (d : Die) (l : List Core) : (s.setCores d l).faults = s.faults := rfl
@[simp] theorem State.setCores_split (s : State) (d : Die) (l : List Core) : (s.setCores d l).split = s.split := rfl
@[simp] theorem State.setCores_net (s : State) (d : Die) (l : List Core) : (s.setCores d l).net = s.net := rfl
@[simp] theorem State.setCores_sec (s : State) (d : Die) (l : List Core) : (s.setCores d l).sec = s.sec := rfl
@[simp] theorem State.setCores_power (s : State) (d : Die) (l : List Core) : (s.setCores d l).power = s.power := rfl
@[simp] theorem State.setCores_ident (s : State) (d : Die) (l : List Core) : (s.setCores d l).ident = s.ident := rfl
@[simp] theorem State.setCores_freeIdx (s : State) (d : Die) (l : List Core) : (s.setCores d l).freeIdx = s.freeIdx := rfl
@[simp] theorem State.setCores_pending (s : State) (d : Die) (l : List Core) : (s.setCores d l).pending = s.pending := rfl

/-! ### One tier replaced -/

@[simp] theorem State.setTier_laps (s : State) (d : Die) (far : Bool) (t : Tier) : (s.setTier d far t).laps = s.laps := rfl
@[simp] theorem State.setTier_pacer (s : State) (d : Die) (far : Bool) (t : Tier) : (s.setTier d far t).pacer = s.pacer := rfl
@[simp] theorem State.setTier_fabric (s : State) (d : Die) (far : Bool) (t : Tier) : (s.setTier d far t).fabric = s.fabric := rfl
@[simp] theorem State.setTier_run (s : State) (d : Die) (far : Bool) (t : Tier) : (s.setTier d far t).run = s.run := rfl
@[simp] theorem State.setTier_mladar (s : State) (d : Die) (far : Bool) (t : Tier) : (s.setTier d far t).mladar = s.mladar := rfl
@[simp] theorem State.setTier_faults (s : State) (d : Die) (far : Bool) (t : Tier) : (s.setTier d far t).faults = s.faults := rfl
@[simp] theorem State.setTier_split (s : State) (d : Die) (far : Bool) (t : Tier) : (s.setTier d far t).split = s.split := rfl
@[simp] theorem State.setTier_net (s : State) (d : Die) (far : Bool) (t : Tier) : (s.setTier d far t).net = s.net := rfl
@[simp] theorem State.setTier_sec (s : State) (d : Die) (far : Bool) (t : Tier) : (s.setTier d far t).sec = s.sec := rfl
@[simp] theorem State.setTier_power (s : State) (d : Die) (far : Bool) (t : Tier) : (s.setTier d far t).power = s.power := rfl
@[simp] theorem State.setTier_ident (s : State) (d : Die) (far : Bool) (t : Tier) : (s.setTier d far t).ident = s.ident := rfl
@[simp] theorem State.setTier_freeIdx (s : State) (d : Die) (far : Bool) (t : Tier) : (s.setTier d far t).freeIdx = s.freeIdx := rfl
@[simp] theorem State.setTier_pending (s : State) (d : Die) (far : Bool) (t : Tier) : (s.setTier d far t).pending = s.pending := rfl

/-! ### One peer entry replaced -/

@[simp] theorem State.setPeer_laps (s : State) (p : Nat) (x : Peer) : (s.setPeer p x).laps = s.laps := rfl
@[simp] theorem State.setPeer_pacer (s : State) (p : Nat) (x : Peer) : (s.setPeer p x).pacer = s.pacer := rfl
@[simp] theorem State.setPeer_dies (s : State) (p : Nat) (x : Peer) : (s.setPeer p x).dies = s.dies := rfl
@[simp] theorem State.setPeer_fabric (s : State) (p : Nat) (x : Peer) : (s.setPeer p x).fabric = s.fabric := rfl
@[simp] theorem State.setPeer_run (s : State) (p : Nat) (x : Peer) : (s.setPeer p x).run = s.run := rfl
@[simp] theorem State.setPeer_mladar (s : State) (p : Nat) (x : Peer) : (s.setPeer p x).mladar = s.mladar := rfl
@[simp] theorem State.setPeer_faults (s : State) (p : Nat) (x : Peer) : (s.setPeer p x).faults = s.faults := rfl
@[simp] theorem State.setPeer_split (s : State) (p : Nat) (x : Peer) : (s.setPeer p x).split = s.split := rfl
@[simp] theorem State.setPeer_sec (s : State) (p : Nat) (x : Peer) : (s.setPeer p x).sec = s.sec := rfl
@[simp] theorem State.setPeer_power (s : State) (p : Nat) (x : Peer) : (s.setPeer p x).power = s.power := rfl
@[simp] theorem State.setPeer_ident (s : State) (p : Nat) (x : Peer) : (s.setPeer p x).ident = s.ident := rfl
@[simp] theorem State.setPeer_freeIdx (s : State) (p : Nat) (x : Peer) : (s.setPeer p x).freeIdx = s.freeIdx := rfl
@[simp] theorem State.setPeer_pending (s : State) (p : Nat) (x : Peer) : (s.setPeer p x).pending = s.pending := rfl

/-! ### One sequence replaced -/

@[simp] theorem State.setSeqOf_laps (s : State) (p c : Nat) (q : SeqSt) : (s.setSeqOf p c q).laps = s.laps := rfl
@[simp] theorem State.setSeqOf_pacer (s : State) (p c : Nat) (q : SeqSt) : (s.setSeqOf p c q).pacer = s.pacer := rfl
@[simp] theorem State.setSeqOf_dies (s : State) (p c : Nat) (q : SeqSt) : (s.setSeqOf p c q).dies = s.dies := rfl
@[simp] theorem State.setSeqOf_fabric (s : State) (p c : Nat) (q : SeqSt) : (s.setSeqOf p c q).fabric = s.fabric := rfl
@[simp] theorem State.setSeqOf_run (s : State) (p c : Nat) (q : SeqSt) : (s.setSeqOf p c q).run = s.run := rfl
@[simp] theorem State.setSeqOf_mladar (s : State) (p c : Nat) (q : SeqSt) : (s.setSeqOf p c q).mladar = s.mladar := rfl
@[simp] theorem State.setSeqOf_faults (s : State) (p c : Nat) (q : SeqSt) : (s.setSeqOf p c q).faults = s.faults := rfl
@[simp] theorem State.setSeqOf_split (s : State) (p c : Nat) (q : SeqSt) : (s.setSeqOf p c q).split = s.split := rfl
@[simp] theorem State.setSeqOf_sec (s : State) (p c : Nat) (q : SeqSt) : (s.setSeqOf p c q).sec = s.sec := rfl
@[simp] theorem State.setSeqOf_power (s : State) (p c : Nat) (q : SeqSt) : (s.setSeqOf p c q).power = s.power := rfl
@[simp] theorem State.setSeqOf_ident (s : State) (p c : Nat) (q : SeqSt) : (s.setSeqOf p c q).ident = s.ident := rfl
@[simp] theorem State.setSeqOf_freeIdx (s : State) (p c : Nat) (q : SeqSt) : (s.setSeqOf p c q).freeIdx = s.freeIdx := rfl
@[simp] theorem State.setSeqOf_pending (s : State) (p c : Nat) (q : SeqSt) : (s.setSeqOf p c q).pending = s.pending := rfl

/-! ### Drawing a free value -/

@[simp] theorem State.draw_laps (s : State)  : (s.draw.2).laps = s.laps := rfl
@[simp] theorem State.draw_pacer (s : State)  : (s.draw.2).pacer = s.pacer := rfl
@[simp] theorem State.draw_dies (s : State)  : (s.draw.2).dies = s.dies := rfl
@[simp] theorem State.draw_fabric (s : State)  : (s.draw.2).fabric = s.fabric := rfl
@[simp] theorem State.draw_run (s : State)  : (s.draw.2).run = s.run := rfl
@[simp] theorem State.draw_mladar (s : State)  : (s.draw.2).mladar = s.mladar := rfl
@[simp] theorem State.draw_faults (s : State)  : (s.draw.2).faults = s.faults := rfl
@[simp] theorem State.draw_split (s : State)  : (s.draw.2).split = s.split := rfl
@[simp] theorem State.draw_net (s : State)  : (s.draw.2).net = s.net := rfl
@[simp] theorem State.draw_sec (s : State)  : (s.draw.2).sec = s.sec := rfl
@[simp] theorem State.draw_power (s : State)  : (s.draw.2).power = s.power := rfl
@[simp] theorem State.draw_ident (s : State)  : (s.draw.2).ident = s.ident := rfl
@[simp] theorem State.draw_pending (s : State)  : (s.draw.2).pending = s.pending := rfl

/-! ### Drawing several free values -/

@[simp] theorem State.drawN_laps (s : State) (n : Nat) : ((s.drawN n).2).laps = s.laps := rfl
@[simp] theorem State.drawN_pacer (s : State) (n : Nat) : ((s.drawN n).2).pacer = s.pacer := rfl
@[simp] theorem State.drawN_dies (s : State) (n : Nat) : ((s.drawN n).2).dies = s.dies := rfl
@[simp] theorem State.drawN_fabric (s : State) (n : Nat) : ((s.drawN n).2).fabric = s.fabric := rfl
@[simp] theorem State.drawN_run (s : State) (n : Nat) : ((s.drawN n).2).run = s.run := rfl
@[simp] theorem State.drawN_mladar (s : State) (n : Nat) : ((s.drawN n).2).mladar = s.mladar := rfl
@[simp] theorem State.drawN_faults (s : State) (n : Nat) : ((s.drawN n).2).faults = s.faults := rfl
@[simp] theorem State.drawN_split (s : State) (n : Nat) : ((s.drawN n).2).split = s.split := rfl
@[simp] theorem State.drawN_net (s : State) (n : Nat) : ((s.drawN n).2).net = s.net := rfl
@[simp] theorem State.drawN_sec (s : State) (n : Nat) : ((s.drawN n).2).sec = s.sec := rfl
@[simp] theorem State.drawN_power (s : State) (n : Nat) : ((s.drawN n).2).power = s.power := rfl
@[simp] theorem State.drawN_ident (s : State) (n : Nat) : ((s.drawN n).2).ident = s.ident := rfl
@[simp] theorem State.drawN_pending (s : State) (n : Nat) : ((s.drawN n).2).pending = s.pending := rfl

/-! ### Recording a fault -/

@[simp] theorem addFault_pacer (s : State) (r : FaultRec) : (addFault s r).pacer = s.pacer := rfl
@[simp] theorem addFault_dies (s : State) (r : FaultRec) : (addFault s r).dies = s.dies := rfl
@[simp] theorem addFault_fabric (s : State) (r : FaultRec) : (addFault s r).fabric = s.fabric := rfl
@[simp] theorem addFault_run (s : State) (r : FaultRec) : (addFault s r).run = s.run := rfl
@[simp] theorem addFault_mladar (s : State) (r : FaultRec) : (addFault s r).mladar = s.mladar := rfl
@[simp] theorem addFault_split (s : State) (r : FaultRec) : (addFault s r).split = s.split := rfl
@[simp] theorem addFault_net (s : State) (r : FaultRec) : (addFault s r).net = s.net := rfl
@[simp] theorem addFault_sec (s : State) (r : FaultRec) : (addFault s r).sec = s.sec := rfl
@[simp] theorem addFault_power (s : State) (r : FaultRec) : (addFault s r).power = s.power := rfl
@[simp] theorem addFault_ident (s : State) (r : FaultRec) : (addFault s r).ident = s.ident := rfl
@[simp] theorem addFault_freeIdx (s : State) (r : FaultRec) : (addFault s r).freeIdx = s.freeIdx := rfl
@[simp] theorem addFault_pending (s : State) (r : FaultRec) : (addFault s r).pending = s.pending := rfl

/-! ### A transport event -/

@[simp] theorem netEvent_laps (s : State) (b : Nat) : (netEvent s b).laps = s.laps := rfl
@[simp] theorem netEvent_pacer (s : State) (b : Nat) : (netEvent s b).pacer = s.pacer := rfl
@[simp] theorem netEvent_dies (s : State) (b : Nat) : (netEvent s b).dies = s.dies := rfl
@[simp] theorem netEvent_fabric (s : State) (b : Nat) : (netEvent s b).fabric = s.fabric := rfl
@[simp] theorem netEvent_run (s : State) (b : Nat) : (netEvent s b).run = s.run := rfl
@[simp] theorem netEvent_mladar (s : State) (b : Nat) : (netEvent s b).mladar = s.mladar := rfl
@[simp] theorem netEvent_faults (s : State) (b : Nat) : (netEvent s b).faults = s.faults := rfl
@[simp] theorem netEvent_split (s : State) (b : Nat) : (netEvent s b).split = s.split := rfl
@[simp] theorem netEvent_sec (s : State) (b : Nat) : (netEvent s b).sec = s.sec := rfl
@[simp] theorem netEvent_power (s : State) (b : Nat) : (netEvent s b).power = s.power := rfl
@[simp] theorem netEvent_ident (s : State) (b : Nat) : (netEvent s b).ident = s.ident := rfl
@[simp] theorem netEvent_freeIdx (s : State) (b : Nat) : (netEvent s b).freeIdx = s.freeIdx := rfl
@[simp] theorem netEvent_pending (s : State) (b : Nat) : (netEvent s b).pending = s.pending := rfl

/-! ### A pacer event -/

@[simp] theorem pacerEvent_laps (s : State) (b : Nat) : (pacerEvent s b).laps = s.laps := rfl
@[simp] theorem pacerEvent_dies (s : State) (b : Nat) : (pacerEvent s b).dies = s.dies := rfl
@[simp] theorem pacerEvent_fabric (s : State) (b : Nat) : (pacerEvent s b).fabric = s.fabric := rfl
@[simp] theorem pacerEvent_run (s : State) (b : Nat) : (pacerEvent s b).run = s.run := rfl
@[simp] theorem pacerEvent_mladar (s : State) (b : Nat) : (pacerEvent s b).mladar = s.mladar := rfl
@[simp] theorem pacerEvent_faults (s : State) (b : Nat) : (pacerEvent s b).faults = s.faults := rfl
@[simp] theorem pacerEvent_split (s : State) (b : Nat) : (pacerEvent s b).split = s.split := rfl
@[simp] theorem pacerEvent_net (s : State) (b : Nat) : (pacerEvent s b).net = s.net := rfl
@[simp] theorem pacerEvent_sec (s : State) (b : Nat) : (pacerEvent s b).sec = s.sec := rfl
@[simp] theorem pacerEvent_power (s : State) (b : Nat) : (pacerEvent s b).power = s.power := rfl
@[simp] theorem pacerEvent_ident (s : State) (b : Nat) : (pacerEvent s b).ident = s.ident := rfl
@[simp] theorem pacerEvent_freeIdx (s : State) (b : Nat) : (pacerEvent s b).freeIdx = s.freeIdx := rfl
@[simp] theorem pacerEvent_pending (s : State) (b : Nat) : (pacerEvent s b).pending = s.pending := rfl

/-! ### A frame on the wire -/

@[simp] theorem emit_laps (s : State) (x : Sent) : (emit s x).laps = s.laps := rfl
@[simp] theorem emit_pacer (s : State) (x : Sent) : (emit s x).pacer = s.pacer := rfl
@[simp] theorem emit_dies (s : State) (x : Sent) : (emit s x).dies = s.dies := rfl
@[simp] theorem emit_fabric (s : State) (x : Sent) : (emit s x).fabric = s.fabric := rfl
@[simp] theorem emit_run (s : State) (x : Sent) : (emit s x).run = s.run := rfl
@[simp] theorem emit_mladar (s : State) (x : Sent) : (emit s x).mladar = s.mladar := rfl
@[simp] theorem emit_faults (s : State) (x : Sent) : (emit s x).faults = s.faults := rfl
@[simp] theorem emit_split (s : State) (x : Sent) : (emit s x).split = s.split := rfl
@[simp] theorem emit_sec (s : State) (x : Sent) : (emit s x).sec = s.sec := rfl
@[simp] theorem emit_power (s : State) (x : Sent) : (emit s x).power = s.power := rfl
@[simp] theorem emit_ident (s : State) (x : Sent) : (emit s x).ident = s.ident := rfl
@[simp] theorem emit_freeIdx (s : State) (x : Sent) : (emit s x).freeIdx = s.freeIdx := rfl
@[simp] theorem emit_pending (s : State) (x : Sent) : (emit s x).pending = s.pending := rfl

/-! ### Parts of one die -/

@[simp] theorem State.setSeq_seq (s : State) (d : Die) (q : Seq) : ((s.setSeq d q).die d).seq = q := by
  simp [State.setSeq]

@[simp] theorem State.setSeq_die_other (s : State) {d e : Die} (q : Seq) (h : e ≠ d) :
    (s.setSeq d q).die e = s.die e := by simp [State.setSeq, h]

@[simp] theorem State.setSeq_die_self (s : State) (d : Die) (q : Seq) :
    (s.setSeq d q).die d = { s.die d with seq := q } := by simp [State.setSeq]

@[simp] theorem State.setCores_die_self (s : State) (d : Die) (l : List Core) :
    (s.setCores d l).die d = { s.die d with cores := l } := by simp [State.setCores]

@[simp] theorem State.setCores_die_other (s : State) {d e : Die} (l : List Core) (h : e ≠ d) :
    (s.setCores d l).die e = s.die e := by simp [State.setCores, h]

@[simp] theorem DieSt.setTier_tier (x : DieSt) (far : Bool) (t : Tier) : (x.setTier far t).tier far = t := by
  cases far <;> rfl

@[simp] theorem DieSt.setTier_other (x : DieSt) (far : Bool) (t : Tier) : (x.setTier far t).tier (!far) = x.tier (!far) := by
  cases far <;> rfl

@[simp] theorem DieSt.setTier_cores (x : DieSt) (far : Bool) (t : Tier) : (x.setTier far t).cores = x.cores := by
  cases far <;> rfl
@[simp] theorem DieSt.setTier_seq (x : DieSt) (far : Bool) (t : Tier) : (x.setTier far t).seq = x.seq := by
  cases far <;> rfl
@[simp] theorem DieSt.setTier_regs (x : DieSt) (far : Bool) (t : Tier) : (x.setTier far t).regs = x.regs := by
  cases far <;> rfl
@[simp] theorem DieSt.setTier_memQ (x : DieSt) (far : Bool) (t : Tier) : (x.setTier far t).memQ = x.memQ := by
  cases far <;> rfl
@[simp] theorem DieSt.setTier_epoch (x : DieSt) (far : Bool) (t : Tier) : (x.setTier far t).epoch = x.epoch := by
  cases far <;> rfl
@[simp] theorem DieSt.setTier_copies (x : DieSt) (far : Bool) (t : Tier) : (x.setTier far t).copies = x.copies := by
  cases far <;> rfl
@[simp] theorem DieSt.setTier_resetFrom (x : DieSt) (far : Bool) (t : Tier) : (x.setTier far t).resetFrom = x.resetFrom := by
  cases far <;> rfl
@[simp] theorem DieSt.setTier_defects (x : DieSt) (far : Bool) (t : Tier) : (x.setTier far t).defects = x.defects := by
  cases far <;> rfl
@[simp] theorem DieSt.setTier_fences (x : DieSt) (far : Bool) (t : Tier) : (x.setTier far t).fences = x.fences := by
  cases far <;> rfl
@[simp] theorem DieSt.setTier_map (x : DieSt) (far : Bool) (t : Tier) : (x.setTier far t).map = x.map := by
  cases far <;> rfl
@[simp] theorem DieSt.setTier_groupsOn (x : DieSt) (far : Bool) (t : Tier) : (x.setTier far t).groupsOn = x.groupsOn := by
  cases far <;> rfl

@[simp] theorem State.setTier_die_self (s : State) (d : Die) (far : Bool) (t : Tier) :
    (s.setTier d far t).die d = (s.die d).setTier far t := by simp [State.setTier]

@[simp] theorem State.setTier_die_other (s : State) {d e : Die} (far : Bool) (t : Tier) (h : e ≠ d) :
    (s.setTier d far t).die e = s.die e := by simp [State.setTier, h]

@[simp] theorem addFault_die (s : State) (r : FaultRec) (d : Die) : (addFault s r).die d = s.die d := rfl
@[simp] theorem addFault_queue (s : State) (r : FaultRec) : (addFault s r).faults.queue = s.faults.queue := rfl
@[simp] theorem addFault_now (s : State) (r : FaultRec) : (addFault s r).laps.now = s.laps.now := rfl
@[simp] theorem addFault_cyc (s : State) (r : FaultRec) : (addFault s r).laps.cyc = s.laps.cyc := rfl
@[simp] theorem addFault_len (s : State) (r : FaultRec) : (addFault s r).laps.len = s.laps.len := rfl
@[simp] theorem addFault_lapFault (s : State) (r : FaultRec) : (addFault s r).laps.lapFault = true := rfl

end Sys2Proof.Machine
end

