-- ==== Sys2Proof/Laws/Health.lean ====
section
/-! SUPPORT. The map of a die without defects, fences or retired rows is full (R300, R301). -/
namespace Sys2Proof.Machine
set_option Elab.async false

/-- The later of two stores of a die stays. -/
theorem State.setDie_twice (s : State) (d : Die) (x y : DieSt) : (s.setDie d x).setDie d y = s.setDie d y := by simp [State.setDie]

/-- Nothing of a die is defective, fenced or retired. -/
def DieSt.clean (x : DieSt) : Prop := x.defects = [] ∧ x.fences = [] ∧ x.map.retired = [] ∧ x.map.exhausted = false

/-- Every row of such a die can be built. -/
theorem buildRow_clean (x : DieSt) (n pr : Nat) (hd : x.defects = []) (hb : x.map.bad = []) (hn : n = 250 ∨ n = 245) :
    buildRow x n pr = true := by
  have h : rowCols x pr = List.range 256 := by simp [rowCols, coreAvail, hd, hb]
  rw [buildRow, h]
  rcases hn with rfl | rfl <;> decide +kernel

/-- Rows that can all be built are taken in order until the map is full. -/
theorem buildRows_full (x : DieSt) (n : Nat) (h : ∀ pr, buildRow x n pr = true) :
    ∀ (m k : Nat), k ≤ n → n ≤ k + m → buildRows x n (List.range' k m) (List.range k) [] = (List.range n, [], false)
  | 0, k, h1, h2 => by
    obtain rfl : k = n := by omega
    simp [buildRows]
  | m + 1, k, h1, h2 => by
    rw [List.range'_succ]
    by_cases hk : k < n
    · have ih := buildRows_full x n h m (k + 1) (by omega) (by omega)
      rw [List.range_succ] at ih
      cases k with
      | zero => simpa [buildRows, hk, h] using ih
      | succ j => simpa [buildRows, hk, h, List.range_succ] using ih
    · obtain rfl : k = n := by omega
      have : ∀ (l : List Nat), buildRows x k l (List.range k) [] = (List.range k, [], false) := by
        intro l; induction l with
        | nil => simp [buildRows]
        | cons a l ih => simpa [buildRows] using ih
      rw [this]

/-- The map of a clean die is full: no sparing is exhausted, no row retired. -/
theorem buildRows_clean (x : DieSt) (n : Nat) (hd : x.defects = []) (hb : x.map.bad = []) (hn : n = 250 ∨ n = 245) :
    buildRows x n (List.range 256) [] [] = (List.range n, [], false) := by
  have := buildRows_full x n (fun pr => buildRow_clean x n pr hd hb hn) 256 0 (by omega) (by omega)
  rwa [List.range_eq_range']

/-- Rebuilding the map of a clean die changes its map only, and leaves it clean. -/
theorem remap_clean (s : State) (d : Die) (h : (s.die d).clean) :
    remap s d = s.setDie d { s.die d with map := ⟨List.range (gridSide s), [], [], false⟩ } := by
  obtain ⟨h1, h2, h3, h4⟩ := h
  have hn : gridSide s = 250 ∨ gridSide s = 245 := by unfold gridSide; split <;> simp
  have hb := buildRows_clean { s.die d with map := { (s.die d).map with bad := (s.die d).fences } } (gridSide s) h1 h2 hn
  simp only [h2, h3, h4] at hb
  simp [remap, rebuildMap, h2, h3, h4, hb, State.setDie_twice]

/-- What decides a recovery's outcome is the same after the maps of clean dies have been rebuilt (R375, R391). -/
theorem recOutcome_remap_clean (s : State) (h : ∀ d, (s.die d).clean) : recOutcome (forDies remap s) = recOutcome s := by
  have key : ∀ (l : List Die) (t : State), (∀ d, (t.die d).clean) → recOutcome (l.foldl remap t) = recOutcome t := by
    intro l
    induction l with
    | nil => intro t _; rfl
    | cons d l ih =>
      intro t ht
      have hc : ∀ e, (((remap t d).die e)).clean ∧ dieExhausted (remap t d) e = dieExhausted t e ∧
          dieTierBad (remap t d) e = dieTierBad t e := by
        intro e
        rw [remap_clean t d (ht d)]
        by_cases he : e = d
        · subst he; simp [DieSt.clean, dieExhausted, dieTierBad, (ht e).1, (ht e).2.1, (ht e).2.2.2]
        · simp [he, ht e, dieExhausted, dieTierBad]
      rw [List.foldl_cons, ih _ fun e => (hc e).1]
      have h1 : dieExhausted (remap t d) = dieExhausted t := funext fun e => (hc e).2.1
      have h2 : dieTierBad (remap t d) = dieTierBad t := funext fun e => (hc e).2.2
      have h3 : (remap t d).faults = t.faults ∧ (remap t d).run = t.run ∧ (remap t d).fabric = t.fabric := by
        rw [remap_clean t d (ht d)]; exact ⟨rfl, rfl, rfl⟩
      simp [recOutcome, degraded, sparingExhausted, tierDegraded, linkLoss, clockLoss, h1, h2, h3]
  exact key _ s h

end Sys2Proof.Machine
end

