-- ==== Sys2Proof/Laws/Keeps.lean ====
section
/-! SUPPORT. What every operation keeps, proved once per operation by composition: the queue of commands, the clock, the
draw counter, the fuses, the bounds of the fault queue and the barriers, the canonical form of every memory. -/
namespace Sys2Proof.Machine
set_option Elab.async false

/-- A tier's memory and its parity stay canonical. -/
def TierKeeps (x y : Tier) : Prop := x.memWf → y.memWf

/-- The memories of a list of cores stay canonical. -/
def CoresKeep (x y : List Core) : Prop := (∀ c ∈ x, c.memWf) → ∀ c ∈ y, c.memWf

/-- Barrier counters stay within 16 bits. -/
def SeqKeeps (x y : Seq) : Prop := (∀ i : Fin 16, x.bar[i] ≤ 0xFFFF) → ∀ i : Fin 16, y.bar[i] ≤ 0xFFFF

/-- What a change of one die keeps. -/
structure DieKeeps (x y : DieSt) : Prop where
  near : TierKeeps x.near y.near
  far : TierKeeps x.far y.far
  cores : CoresKeep (x.cores ++ x.rest) (y.cores ++ y.rest)
  seq : SeqKeeps x.seq y.seq

/-- What a change of the security state keeps. -/
structure SecKeeps (x y : Sec) : Prop where
  fuses : FusesOnlyBlown x y
  flash : Memory.wf x.flash = true → Memory.wf y.flash = true
  staging : Memory.wf x.staging = true → Memory.wf y.staging = true

/-- What an operation keeps from a state to a later one. -/
structure Keeps (s t : State) : Prop where
  pending : t.pending = s.pending
  now : s.laps.now ≤ t.laps.now
  freeIdx : s.freeIdx ≤ t.freeIdx
  queue : s.faults.queue.length ≤ 256 → t.faults.queue.length ≤ 256
  sec : SecKeeps s.sec t.sec
  dies : ∀ d, DieKeeps (s.die d) (t.die d)

@[simp] theorem TierKeeps.rfl' (x : Tier) : TierKeeps x x := id
@[simp] theorem CoresKeep.rfl' (x : List Core) : CoresKeep x x := id
@[simp] theorem SeqKeeps.rfl' (x : Seq) : SeqKeeps x x := id
@[simp] theorem DieKeeps.rfl' (x : DieSt) : DieKeeps x x := ⟨id, id, id, id⟩
@[simp] theorem FusesOnlyBlown.rfl' (x : Sec) : FusesOnlyBlown x x :=
  ⟨fun h => ⟨le_rfl, h⟩, fun _ h => h, fun h => h, rfl, rfl, rfl, rfl, rfl⟩
@[simp] theorem SecKeeps.rfl' (x : Sec) : SecKeeps x x := ⟨.rfl' x, id, id⟩
@[simp] theorem Keeps.rfl' (s : State) : Keeps s s := ⟨rfl, le_rfl, le_rfl, id, .rfl' _, fun _ => .rfl' _⟩

theorem DieKeeps.trans {x y z : DieSt} (h : DieKeeps x y) (g : DieKeeps y z) : DieKeeps x z :=
  ⟨g.near ∘ h.near, g.far ∘ h.far, g.cores ∘ h.cores, g.seq ∘ h.seq⟩

theorem FusesOnlyBlown.trans {x y z : Sec} (h : FusesOnlyBlown x y) (g : FusesOnlyBlown y z) : FusesOnlyBlown x z :=
  ⟨fun q => ⟨(h.1 q).1.trans (g.1 (h.1 q).2).1, (g.1 (h.1 q).2).2⟩, fun i q => g.2.1 i (h.2.1 i q),
    fun q => g.2.2.1 (h.2.2.1 q), g.2.2.2.1.trans h.2.2.2.1, g.2.2.2.2.1.trans h.2.2.2.2.1,
    g.2.2.2.2.2.1.trans h.2.2.2.2.2.1, g.2.2.2.2.2.2.1.trans h.2.2.2.2.2.2.1, g.2.2.2.2.2.2.2.trans h.2.2.2.2.2.2.2⟩

theorem SecKeeps.trans {x y z : Sec} (h : SecKeeps x y) (g : SecKeeps y z) : SecKeeps x z :=
  ⟨h.fuses.trans g.fuses, g.flash ∘ h.flash, g.staging ∘ h.staging⟩

theorem Keeps.trans {s t u : State} (h : Keeps s t) (g : Keeps t u) : Keeps s u :=
  ⟨g.pending.trans h.pending, h.now.trans g.now, h.freeIdx.trans g.freeIdx, g.queue ∘ h.queue, h.sec.trans g.sec,
    fun d => (h.dies d).trans (g.dies d)⟩

/-- The invariant from what is kept. -/
theorem Keeps.inv {s t : State} (h : Keeps s t) (i : Inv s) : Inv t :=
  ⟨⟨fun d => ⟨(h.dies d).near (i.1.1 d).1, (h.dies d).far (i.1.1 d).2.1, (h.dies d).cores (i.1.1 d).2.2⟩,
    h.sec.flash i.1.2.1, h.sec.staging i.1.2.2⟩, h.queue i.2.1, fun d => (h.dies d).seq (i.2.2 d)⟩

/-! ### Updates of named parts -/

variable {s₀ s t : State}

/-- An update that leaves dies, security state, queue of commands and fault queue. -/
theorem Keeps.of (h : Keeps s₀ s) (hp : t.pending = s.pending := by rfl) (hd : t.dies = s.dies := by rfl)
    (hs : t.sec = s.sec := by rfl) (hq : t.faults.queue = s.faults.queue := by rfl)
    (hn : s.laps.now ≤ t.laps.now := by exact Nat.le_refl _) (hf : s.freeIdx ≤ t.freeIdx := by exact Nat.le_refl _) :
    Keeps s₀ t :=
  h.trans ⟨hp, hn, hf, by rw [hq]; exact id, by rw [hs]; exact .rfl' _, fun d => by
    unfold State.die; rw [hd]; exact .rfl' _⟩

/-- The same, read from a record update. -/
theorem Keeps.up {laps pacer fabric run mladar faults split net power ident freeIdx} (h : Keeps s₀ s)
    (hq : faults.queue = s.faults.queue := by rfl) (hn : s.laps.now ≤ laps.now := by exact Nat.le_refl _)
    (hf : s.freeIdx ≤ freeIdx := by exact Nat.le_refl _) :
    Keeps s₀ (State.mk laps pacer s.dies fabric run mladar faults split net s.sec power ident freeIdx s.pending) :=
  h.of rfl rfl rfl hq hn hf

/-- An update of the security state too. -/
theorem Keeps.ofSec (h : Keeps s₀ s) (hs : SecKeeps s.sec t.sec) (hp : t.pending = s.pending := by rfl)
    (hd : t.dies = s.dies := by rfl) (hq : t.faults.queue = s.faults.queue := by rfl)
    (hn : s.laps.now ≤ t.laps.now := by exact Nat.le_refl _) (hf : s.freeIdx ≤ t.freeIdx := by exact Nat.le_refl _) :
    Keeps s₀ t :=
  h.trans ⟨hp, hn, hf, by rw [hq]; exact id, hs, fun d => by unfold State.die; rw [hd]; exact .rfl' _⟩

/-- Updates of the security state beside fuses and memories. -/
theorem SecKeeps.of {x y : Sec} (h1 : y.rollback = x.rollback := by rfl) (h2 : y.revoked = x.revoked := by rfl)
    (h3 : y.locked = x.locked := by rfl) (h4 : y.slotDigest = x.slotDigest := by rfl) (h5 : y.part = x.part := by rfl)
    (h6 : y.serial = x.serial := by rfl) (h9 : y.trims = x.trims := by rfl) (h10 : y.identKey = x.identKey := by rfl)
    (h7 : Memory.wf x.flash = true → Memory.wf y.flash = true := by exact fun w => w)
    (h8 : Memory.wf x.staging = true → Memory.wf y.staging = true := by exact fun w => w) : SecKeeps x y :=
  ⟨⟨by rw [h1]; exact fun h => ⟨le_rfl, h⟩, by rw [h2]; exact fun _ h => h, by rw [h3]; exact fun h => h, h4, h5, h6, h9, h10⟩,
    h7, h8⟩

/-- One die replaced. -/
@[simp] theorem Keeps.setDie (h : Keeps s₀ s) (d : Die) (x : DieSt) (hx : DieKeeps (s.die d) x) : Keeps s₀ (s.setDie d x) :=
  h.trans ⟨rfl, le_rfl, le_rfl, id, .rfl' _, fun e => by
    rw [State.setDie_die]; split
    · rename_i q; subst q; exact hx
    · exact .rfl' _⟩

/-- One sequencer replaced. -/
@[simp] theorem Keeps.setSeq (h : Keeps s₀ s) (d : Die) (q : Seq) (hq : SeqKeeps (s.die d).seq q) : Keeps s₀ (s.setSeq d q) :=
  h.setDie d _ ⟨id, id, id, hq⟩

/-- A sequencer whose barriers are unchanged. -/
theorem SeqKeeps.of {x y : Seq} (h : y.bar = x.bar := by rfl) : SeqKeeps x y := fun g i => by rw [h]; exact g i

/-- A die whose memories, cores and barriers are unchanged. -/
theorem DieKeeps.of {x y : DieSt} (h1 : y.near.mem = x.near.mem := by rfl) (h2 : y.far.mem = x.far.mem := by rfl)
    (h3 : y.cores = x.cores := by rfl) (h4 : y.seq.bar = x.seq.bar := by rfl) (h5 : y.rest = x.rest := by rfl)
    (h6 : y.near.parity = x.near.parity := by rfl) (h7 : y.far.parity = x.far.parity := by rfl) : DieKeeps x y :=
  ⟨fun w => ⟨by rw [h1]; exact w.1, by rw [h6]; exact w.2⟩, fun w => ⟨by rw [h2]; exact w.1, by rw [h7]; exact w.2⟩,
    by rw [h3, h5]; exact fun w => w, fun w i => by rw [h4]; exact w i⟩

/-- Cores of which one part changes. -/
theorem CoresKeep.left {x y : List Core} (h : CoresKeep x y) (z : List Core) : CoresKeep (x ++ z) (y ++ z) := fun w c hc => by
  rcases List.mem_append.mp hc with q | q
  · exact h (fun c hc => w c (List.mem_append_left _ hc)) c q
  · exact w c (List.mem_append_right _ q)

theorem CoresKeep.right {x y : List Core} (h : CoresKeep x y) (z : List Core) : CoresKeep (z ++ x) (z ++ y) := fun w c hc => by
  rcases List.mem_append.mp hc with q | q
  · exact w c (List.mem_append_left _ q)
  · exact h (fun c hc => w c (List.mem_append_right _ hc)) c q

/-- One die's cores replaced. -/
@[simp] theorem Keeps.setCores (h : Keeps s₀ s) (d : Die) (cs : List Core) (hc : CoresKeep (s.die d).cores cs) :
    Keeps s₀ (s.setCores d cs) :=
  h.setDie d _ ⟨id, id, hc.left _, id⟩

/-- One tier replaced. -/
@[simp] theorem Keeps.setTier (h : Keeps s₀ s) (d : Die) (far : Bool) (x : Tier) (hx : TierKeeps ((s.die d).tier far) x) :
    Keeps s₀ (s.setTier d far x) := by
  cases far
  · exact h.setDie d _ ⟨hx, id, id, id⟩
  · exact h.setDie d _ ⟨id, hx, id, id⟩

/-- A tier whose memory is unchanged. -/
theorem TierKeeps.of {x y : Tier} (h : y.mem = x.mem := by rfl) (h2 : y.parity = x.parity := by rfl) : TierKeeps x y :=
  fun g => ⟨by rw [h]; exact g.1, by rw [h2]; exact g.2⟩

/-! ### Cores -/

/-- A core with the same stores has canonical memories. -/
theorem Core.memWf_of {c c' : Core} (h : c'.stores = c.stores) (w : c.memWf) : c'.memWf := by
  simp only [Core.stores, Prod.mk.injEq] at h
  exact ⟨by rw [h.1]; exact w.1, by rw [h.2.1]; exact w.2⟩

theorem mapCores_mem {f : Nat → Core → Core × List Raise} {i : Nat} {l : List Core} {c' : Core}
    (h : c' ∈ (mapCores f i l).1) : ∃ j, ∃ c ∈ l, c' = (f j c).1 := by
  induction l generalizing i with
  | nil => simp [mapCores] at h
  | cons c l ih =>
    simp only [mapCores, List.mem_cons] at h
    rcases h with h | h
    · exact ⟨i, c, by simp, h⟩
    · obtain ⟨j, c1, h1, h2⟩ := ih h
      exact ⟨j, c1, by simp [h1], h2⟩

theorem CoresKeep.mapCores {f : Nat → Core → Core × List Raise} (h : ∀ i c, c.memWf → (f i c).1.memWf) (i : Nat)
    (l : List Core) : CoresKeep l (mapCores f i l).1 := by
  intro w c hc
  obtain ⟨j, c1, h1, rfl⟩ := mapCores_mem hc
  exact h j c1 (w c1 h1)

theorem CoresKeep.map {f : Core → Core} (h : ∀ c, c.memWf → (f c).memWf) (l : List Core) : CoresKeep l (l.map f) := by
  intro w c hc
  obtain ⟨c1, h1, rfl⟩ := List.mem_map.mp hc
  exact h c1 (w c1 h1)

theorem CoresKeep.set {l : List Core} {i : Nat} {c c' : Core} (hi : l[i]? = some c) (h : c.memWf → c'.memWf) :
    CoresKeep l (l.set i c') := by
  intro w x hx
  rcases List.mem_or_eq_of_mem_set hx with h1 | h1
  · exact w x h1
  · subst h1; exact h (w c (List.mem_of_getElem? hi))

/-! ### Choices -/

theorem Keeps.ite {c : Prop} [Decidable c] {a b : State} (ha : Keeps s₀ a) (hb : Keeps s₀ b) :
    Keeps s₀ (if c then a else b) := by split <;> assumption

theorem Keeps.ite₁ {β : Type} {c : Prop} [Decidable c] {a b : State × β} (ha : Keeps s₀ a.1) (hb : Keeps s₀ b.1) :
    Keeps s₀ (if c then a else b).1 := by split <;> assumption

/-! ### Folds -/

theorem Keeps.foldl {α : Type} {f : State → α → State} (h : ∀ s x, Keeps s (f s x)) (l : List α) (g : Keeps s₀ s) :
    Keeps s₀ (l.foldl f s) := by
  induction l generalizing s with
  | nil => exact g
  | cons x l ih => exact ih (g.trans (h s x))

/-- The same for a fold that carries something beside the state. -/
theorem Keeps.foldl₁ {α β : Type} {f : State × β → α → State × β} (h : ∀ y x, Keeps y.1 (f y x).1) (l : List α)
    {y : State × β} (g : Keeps s₀ y.1) : Keeps s₀ (l.foldl f y).1 := by
  induction l generalizing y with
  | nil => exact g
  | cons x l ih => exact ih (g.trans (h y x))

@[simp] theorem Keeps.forDies {f : State → Die → State} (h : ∀ s d, Keeps s (f s d)) (g : Keeps s₀ s) :
    Keeps s₀ (forDies f s) := g.foldl h _

/-! ### Faults and core operations -/

@[simp] theorem Keeps.addFault (h : Keeps s₀ s) (r : FaultRec) : Keeps s₀ (addFault s r) := h.of
@[simp] theorem Keeps.raiseCore (h : Keeps s₀ s) (d i r) : Keeps s₀ (raiseCore s d i r) := h.addFault _
@[simp] theorem Keeps.raiseDie (h : Keeps s₀ s) (d c u a) : Keeps s₀ (raiseDie s d c u a) := h.addFault _
@[simp] theorem Keeps.dropPackets (h : Keeps s₀ s) (d n) : Keeps s₀ (dropPackets s d n) :=
  h.foldl (fun s _ => (Keeps.rfl' s).addFault _) _
@[simp] theorem Keeps.raiseHub (h : Keeps s₀ s) (c) : Keeps s₀ (raiseHub s c) := h.addFault _

/-- Taking what cores report keeps everything. -/
@[simp] theorem Keeps.raises (h : Keeps s₀ s) (d : Die) (l : List (Nat × Raise)) :
    Keeps s₀ (l.foldl (fun s x => Sys2Proof.Machine.raiseCore s d x.1 x.2) s) :=
  h.foldl (fun s x => (Keeps.rfl' s).raiseCore d x.1 x.2) l

@[simp] theorem Keeps.raisesAt (h : Keeps s₀ s) (d : Die) (i : Nat) (l : List Raise) :
    Keeps s₀ (l.foldl (fun s x => Sys2Proof.Machine.raiseCore s d i x) s) :=
  h.foldl (fun s x => (Keeps.rfl' s).raiseCore d i x) l

theorem Keeps.onCores (h : Keeps s₀ s) (d : Die) {f : CoreIn → Core → Core × List Raise}
    (hf : ∀ x c, c.memWf → (f x c).1.memWf) : Keeps s₀ (onCores s d f) :=
  (h.setCores d _ (.mapCores (fun i c w => hf (coreIn s d i) c w) 0 _)).raises d _

@[simp] theorem Keeps.addEnergy (h : Keeps s₀ s) (d op) : Keeps s₀ (addEnergy s d op) := h.setSeq d _ .of

/-- A slot operation keeps everything when its core function keeps the stores. -/
@[simp] theorem Keeps.slotOp (h : Keeps s₀ s) (d op) {f : CoreIn → Core → Core × List Raise}
    (hf : ∀ x c, (f x c).1.stores = c.stores) : Keeps s₀ (slotOp s d op f) := by
  unfold Sys2Proof.Machine.slotOp
  split
  · exact (h.addEnergy d op).onCores d fun x c w => Core.memWf_of (hf x c) w
  · exact h

@[simp] theorem Keeps.vecSlot (h : Keeps s₀ s) (d op occ) {f : Nat → CoreIn → Core → Core × List Raise}
    (hf : ∀ r x c, (f r x c).1.stores = c.stores) : Keeps s₀ (vecSlot s d op occ f) := h.slotOp d op (hf _)

@[simp] theorem Keeps.draw (h : Keeps s₀ s) : Keeps s₀ s.draw.2 := h.of (hf := Nat.le_succ _)
@[simp] theorem Keeps.drawN (h : Keeps s₀ s) (n) : Keeps s₀ (s.drawN n).2 := h.of (hf := Nat.le_add_right _ _)

theorem Keeps.onCore (h : Keeps s₀ s) (d i) {f : Core → Core × List Raise} (hf : ∀ c, c.memWf → (f c).1.memWf) :
    Keeps s₀ (onCore s d i f) := by
  unfold Sys2Proof.Machine.onCore
  split
  · rename_i c hc
    exact (h.setCores d _ (.set hc (hf c))).raisesAt d i _
  · exact h

end Sys2Proof.Machine
end

