-- ==== Sys2Proof/Laws/KeepsSlots.lean ====
section
/-! SUPPORT. What the commands of the issue slots, of the memory and of the close phase keep. -/
namespace Sys2Proof.Machine
set_option Elab.async false

variable {s₀ s : State}

/-- What an outcome keeps: a next state keeps it; a refusal says nothing. -/
def OutKeeps (s : State) (o : Host.Outcome State Fault Refusal) : Prop := ∀ t, o = .next t → Keeps s t

theorem OutKeeps.next {s t : State} (h : Keeps s t) : OutKeeps s (.next t) := fun _ e => by cases e; exact h
theorem OutKeeps.refused {s : State} {r : Refusal} : OutKeeps s (.refused r) := fun _ e => by cases e

/-! ### CTL slot -/

theorem Keeps.ctlOp (h : Keeps s₀ s) (d op) {f : State → State} (hf : ∀ s, Keeps s (f s)) : Keeps s₀ (ctlOp s d op f) := by
  unfold Sys2Proof.Machine.ctlOp
  split
  · exact ((h.addEnergy d op).setSeq d _ .of).trans (hf _)
  · exact h

@[simp] theorem Keeps.sWrite (h : Keeps s₀ s) (d r l v) : Keeps s₀ (sWrite s d r l v) := h.setSeq d _ .of
@[simp] theorem Keeps.branchTo (h : Keeps s₀ s) (d t) : Keeps s₀ (branchTo s d t) := h.setSeq d _ .of

@[simp] theorem Keeps.pageStart (h : Keeps s₀ s) (d p) : Keeps s₀ (pageStart s d p) := by
  unfold Sys2Proof.Machine.pageStart; dsimp only; repeat' split
  all_goals first | exact h.raiseDie _ _ _ _ | exact h.setSeq _ _ .of

theorem OutKeeps.ctl {s : State} {d op} {f : State → State} (hf : ∀ s, Keeps s (f s)) : OutKeeps s (.next (ctlOp s d op f)) :=
  .next ((Keeps.rfl' s).ctlOp d op hf)

theorem nop_keeps (d s) : OutKeeps s (execNop d s) := .next (.rfl' s)
theorem ctlLi_keeps (d hi sd imm s) : OutKeeps s (execCtlLi d hi sd imm s) := .ctl fun s => (Keeps.rfl' s).sWrite ..
theorem ctlAlu_keeps (d fn sd sa sb f imm s) : OutKeeps s (execCtlAlu d fn sd sa sb f imm s) :=
  .ctl fun s => (Keeps.rfl' s).sWrite ..
theorem ctlMul_keeps (d sd sa sb s) : OutKeeps s (execCtlMul d sd sa sb s) := .ctl fun s => (Keeps.rfl' s).sWrite ..

theorem ctlLidx_keeps (d sd q s) : OutKeeps s (execCtlLidx d sd q s) := by
  unfold execCtlLidx; repeat' split
  · exact .ctl fun s => (Keeps.rfl' s).sWrite ..
  · exact .refused
  · exact .next (.rfl' s)

theorem ctlLinfo_keeps (d sd q s) : OutKeeps s (execCtlLinfo d sd q s) := by
  unfold execCtlLinfo; split
  · exact .ctl fun s => (Keeps.rfl' s).sWrite ..
  · exact .refused

theorem ctlColl_keeps (d sd vn cb pq s) : OutKeeps s (execCtlColl d sd vn cb pq s) :=
  .ctl fun s => (Keeps.rfl' s).setSeq _ _ .of
theorem ctlPstep_keeps (d sa s) : OutKeeps s (execCtlPstep d sa s) := .ctl fun s => (Keeps.rfl' s).setSeq _ _ .of
theorem ctlBr_keeps (d c sa sb o s) : OutKeeps s (execCtlBr d c sa sb o s) := .ctl fun s => (Keeps.rfl' s).branchTo ..
theorem ctlJmp_keeps (d o s) : OutKeeps s (execCtlJmp d o s) := .ctl fun s => (Keeps.rfl' s).branchTo ..

theorem loopStart_bar (q : Seq) (c b : Nat) : (loopStart q c b).bar = q.bar := by
  unfold loopStart; dsimp only; split <;> rfl

theorem ctlLoop_keeps (d src sa c b s) : OutKeeps s (execCtlLoop d src sa c b s) :=
  .ctl fun s => (Keeps.rfl' s).setSeq _ _ (.of (loopStart_bar ..))

theorem ctlSig_keeps (d b m s) : OutKeeps s (execCtlSig d b m s) := by
  unfold execCtlSig; split
  · exact .refused
  · exact .ctl fun s => (Keeps.rfl' s).of

theorem ctlWait_keeps (d b n l s) : OutKeeps s (execCtlWait d b n l s) := by
  unfold execCtlWait; split
  · exact .refused
  · exact .ctl fun s => (Keeps.rfl' s).setSeq _ _ .of

theorem ctlPage_keeps (d src sa p s) : OutKeeps s (execCtlPage d src sa p s) := by
  unfold execCtlPage; refine .next (.ite ?_ (.rfl' s))
  exact ((Keeps.rfl' s).setSeq d _ .of).pageStart _ _
theorem lapEnd_keeps (d f s) : OutKeeps s (execLapEnd d f s) := .ctl fun s => (Keeps.rfl' s).setSeq _ _ .of

theorem vset_bar_le {v : Vector Nat 16} (h : ∀ i : Fin 16, v[i] ≤ 0xFFFF) (k : Nat) {x : Nat} (hx : x ≤ 0xFFFF)
    (i : Fin 16) : (vset v k x)[i] ≤ 0xFFFF := by
  have := h i
  simp only [vset, Fin.getElem_fin, Vector.getElem_setIfInBounds] at this ⊢
  split <;> omega

theorem vget_bar_le {v : Vector Nat 16} (h : ∀ i : Fin 16, v[i] ≤ 0xFFFF) (k : Nat) : vget v k 0 ≤ 0xFFFF := by
  unfold vget
  by_cases hk : k < 16
  · have := h ⟨k, hk⟩
    simpa [Vector.getElem?_eq_getElem hk] using this
  · simp [Vector.getElem?_eq_none (Nat.le_of_not_lt hk)]

theorem signalArrive_keeps (d b s) : OutKeeps s (execSignalArrive d b s) := by
  unfold execSignalArrive; extract_lets body mine came due q total f s1 s2 s3 late s4
  refine .next (Keeps.dropPackets ?_ _ _)
  have h1 : Keeps s s1 := .of (.rfl' s)
  have h2 : Keeps s s2 := h1.setSeq d _ fun h i => vset_bar_le h _ (Nat.min_le_right _ _) i
  have h3 : Keeps s s3 := .ite (h2.raiseDie _ _ _ _) h2
  exact .ite (h3.raiseDie _ _ _ _) h3

theorem waitMet_keeps (d s) : OutKeeps s (execWaitMet d s) := by
  unfold execWaitMet; dsimp only; split
  · split
    · refine .next ((Keeps.rfl' s).setSeq d _ ?_)
      intro h i
      exact vset_bar_le h _ ((Nat.sub_le _ _).trans (vget_bar_le h _)) i
    · exact .next (.rfl' s)
  · exact .next (.rfl' s)

theorem waitLimit_keeps (d s) : OutKeeps s (execWaitLimit d s) := by
  unfold execWaitLimit; repeat' split
  all_goals first | exact .next (.rfl' s) | exact .next ((Keeps.rfl' s).raiseDie _ _ _ _)

theorem pageLoadDone_keeps (d f s) : OutKeeps s (execPageLoadDone d f s) := by
  unfold execPageLoadDone; dsimp only; repeat' split
  all_goals first | exact .next (.rfl' s) | exact .next ((Keeps.rfl' s).setSeq _ _ .of)

/-- A command that acts at a cut alone. -/
theorem OutKeeps.atCut {s : State} {f : State → State} (h : ∀ s, Keeps s (f s)) : OutKeeps s (.next (atCut s f)) :=
  .next (.ite (h s) (.rfl' s))

/-! ### NET slot -/

@[simp] theorem Keeps.crossLinks (h : Keeps s₀ s) (a b t n) : Keeps s₀ (crossLinks s a b t n) := by
  unfold Sys2Proof.Machine.crossLinks
  refine h.foldl (fun s y => ?_) _
  dsimp only; split
  · exact ((Keeps.rfl' s).of).addFault _
  · exact (Keeps.rfl' s).of

theorem netMesh_keeps (d p dir dst a s) : OutKeeps s (execNetMesh d p dir dst a s) := by
  unfold execNetMesh; dsimp only; split
  · refine .next (Keeps.foldl (fun s y => (Keeps.rfl' s).crossLinks ..) _ ?_)
    exact ((Keeps.rfl' s).slotOp d 0x601 (fun x c => meshCore_stores ..)).of
  · exact .next (.rfl' s)

theorem netSend_keeps (d p ax w dst a s) : OutKeeps s (execNetSend d p ax w dst a s) := by
  unfold execNetSend; dsimp only; repeat' split
  · exact .refused
  · exact .next (((Keeps.rfl' s).slotOp d 0x602 (fun x c => sendCore_stores ..)).of)
  · exact .next (.rfl' s)

@[simp] theorem Keeps.sendTick (h : Keeps s₀ s) : Keeps s₀ (sendTick s) := by
  unfold Sys2Proof.Machine.sendTick; dsimp only
  refine Keeps.foldl (fun s y => ?_) _ (h.of)
  exact ((Keeps.rfl' s).of).crossLinks ..

theorem arriveBytes_wf (t a bs) (c : Core) (w : c.memWf) : (arriveBytes t a bs c).1.memWf :=
  ⟨memWrite_wf w.1 _ _, w.2⟩

theorem netArrive_keeps (d i s) : OutKeeps s (execNetArrive d i s) := by
  unfold execNetArrive; dsimp only
  refine .next (Keeps.foldl (fun s y => ?_) _ (Keeps.dropPackets ?_ _ _))
  · exact (Keeps.rfl' s).onCore _ _ fun c w => arriveBytes_wf _ _ _ c w
  · split
    · exact ((Keeps.rfl' s).of).raiseCore ..
    · exact (Keeps.rfl' s).of

/-! ### Tiers -/

@[simp] theorem Keeps.noteWrite (h : Keeps s₀ s) (a n) : Keeps s₀ (noteWrite s a n) := by
  unfold Sys2Proof.Machine.noteWrite; dsimp only; repeat' split
  all_goals first | exact h | exact h.of

theorem foldl_memWf {α : Type} {f : Mem → α → Mem} (hf : ∀ m x, Memory.wf m = true → Memory.wf (f m x) = true) (l : List α)
    {m : Mem} (w : Memory.wf m = true) : Memory.wf (l.foldl f m) = true := by
  induction l generalizing m with
  | nil => exact w
  | cons x l ih => exact ih (hf m x w)

@[simp] theorem Keeps.tierWrite (h : Keeps s₀ s) (d far o bs) : Keeps s₀ (tierWrite s d far o bs) :=
  (h.setTier d far _ fun w => ⟨memWrite_wf w.1 _ _, foldl_memWf (fun _ _ v => memWrite_wf v _ _) _ w.2⟩).noteWrite _ _

@[simp] theorem Keeps.stripeFault (h : Keeps s₀ s) (d far b c a) : Keeps s₀ (stripeFault s d far b c a) := h.addFault _

@[simp] theorem Keeps.noteRead (h : Keeps s₀ s) (d far b) : Keeps s₀ (noteRead s d far b) := by
  unfold Sys2Proof.Machine.noteRead; dsimp only; split
  · exact h
  · exact h.of
  · exact h.stripeFault ..
  · exact (h.setTier _ _ _ .of).stripeFault ..

@[simp] theorem Keeps.touchRange (h : Keeps s₀ s) (a n) : Keeps s₀ (touchRange s a n) := by
  refine h.foldl (fun s b => ?_) _
  split
  · exact (Keeps.rfl' s).noteRead ..
  · exact .rfl' s

@[simp] theorem Keeps.blockWrite (h : Keeps s₀ s) (d far o bs b) : Keeps s₀ (blockWrite d far o bs s b) := by
  unfold Sys2Proof.Machine.blockWrite; dsimp only; repeat' split
  · exact h.tierWrite ..
  · exact (h.noteRead ..).tierWrite ..
  · exact h.noteRead ..

@[simp] theorem Keeps.devWrite (h : Keeps s₀ s) (a bs) : Keeps s₀ (devWrite s a bs) := by
  unfold Sys2Proof.Machine.devWrite; split
  · exact h.foldl (fun s b => (Keeps.rfl' s).blockWrite ..) _
  · exact h

@[simp] theorem Keeps.nearWrite (h : Keeps s₀ s) (a bs) : Keeps s₀ (nearWrite s a bs) := by
  unfold Sys2Proof.Machine.nearWrite; dsimp only; split
  · exact h.devWrite ..
  · exact (h.devWrite ..).devWrite ..

@[simp] theorem Keeps.pacerEvent (h : Keeps s₀ s) (b) : Keeps s₀ (pacerEvent s b) := h.of
@[simp] theorem Keeps.addTdc (h : Keeps s₀ s) (b n) : Keeps s₀ (addTdc s b n) := h.of

/-- A die with other requests and a tier whose memory is unchanged. -/
theorem DieKeeps.queueTier (x : DieSt) (q : List MemReq) (far : Bool) (t : Tier) (h : t.mem = (x.tier far).mem)
    (g : t.parity = (x.tier far).parity) : DieKeeps x ({ x with memQ := q }.setTier far t) := by
  cases far
  · exact .of h (h6 := g)
  · exact .of rfl h (h7 := g)

@[simp] theorem Keeps.grantOne (h : Keeps s₀ s) (d far late id) : Keeps s₀ (grantOne s d far late id).1 := by
  unfold Sys2Proof.Machine.grantOne; dsimp only; split
  · exact h.pacerEvent 0
  · have key : ∀ (p : Pacer) (x : DieSt), DieKeeps (s.die d) x → Keeps s₀ (State.setDie { s with pacer := p } d x) :=
      fun p x hx => (h.of).setDie d x hx
    refine .ite₁ ?_ ?_
    · apply Keeps.pacerEvent; apply key; exact .queueTier _ _ _ _ rfl rfl
    · apply key; exact .queueTier _ _ _ _ rfl rfl

@[simp] theorem Keeps.grantAll (h : Keeps s₀ s) (d far late) : Keeps s₀ (grantAll s d far late) := by
  unfold Sys2Proof.Machine.grantAll
  refine Keeps.foldl₁ (fun y x => ?_) _ h
  exact .ite₁ ((Keeps.rfl' _).grantOne ..) (.rfl' _)

@[simp] theorem Keeps.memOp (h : Keeps s₀ s) (d p m op k n al ca) : Keeps s₀ (memOp s d p m op k n al ca) := by
  unfold Sys2Proof.Machine.memOp; dsimp only; split
  · have h1 : Keeps s₀ (if m.async then s else Sys2Proof.Machine.addEnergy s d op) := by
      split
      · exact h
      · exact h.addEnergy d op
    generalize (if m.async then s else Sys2Proof.Machine.addEnergy s d op) = s1 at h1 ⊢
    split
    · exact h1.foldl (fun s y => (Keeps.rfl' s).raiseCore ..) _
    · have h2 : ∀ f : Fabric, ∀ q, Keeps s₀ (State.setDie { s1 with fabric := f } d { s1.die d with memQ := q }) :=
        fun f q => (h1.of).setDie d _ .of
      split
      · exact ((h2 _ _).grantAll ..).grantAll ..
      · exact h2 _ _
  · exact h

theorem memRd_keeps (d p m l s) : OutKeeps s (execMemRd d p m l s) := by
  unfold execMemRd; split
  · exact .next ((Keeps.rfl' s).memOp ..)
  · exact .refused
theorem memWr_keeps (d p m l s) : OutKeeps s (execMemWr d p m l s) := by
  unfold execMemWr; split
  · exact .next ((Keeps.rfl' s).memOp ..)
  · exact .refused
theorem memQadd_keeps (d p m f c s) : OutKeeps s (execMemQadd d p m f c s) := by
  unfold execMemQadd; split
  · exact .next ((Keeps.rfl' s).memOp ..)
  · exact .refused
theorem memMaxloc_keeps (d p m f c s) : OutKeeps s (execMemMaxloc d p m f c s) := by
  unfold execMemMaxloc; split
  · exact .next ((Keeps.rfl' s).memOp ..)
  · exact .refused
theorem memRadd_keeps (d p m f c s) : OutKeeps s (execMemRadd d p m f c s) := by
  unfold execMemRadd; repeat' split
  · exact .next ((Keeps.rfl' s).raiseDie ..)
  · exact .next (((Keeps.rfl' s).addTdc ..).memOp ..)
  · exact .next (.rfl' s)
  · exact .refused

@[simp] theorem Keeps.runWrite (h : Keeps s₀ s) (q p o bs) : Keeps s₀ (runWrite s q p o bs) := by
  unfold Sys2Proof.Machine.runWrite; split
  · exact .ite (h.raiseCore ..) h
  · exact h.tierWrite ..

@[simp] theorem Keeps.addAtom (h : Keeps s₀ s) (t far e) : Keeps s₀ (addAtom s t far e) := h.setTier _ _ _ .of

@[simp] theorem Keeps.atomRun (h : Keeps s₀ s) (t far e) : Keeps s₀ (atomRun s t far e) := .ite (h.tierWrite ..) h

@[simp] theorem Keeps.atomTake (h : Keeps s₀ s) (t far) : Keeps s₀ (atomTake s t far) := by
  unfold Sys2Proof.Machine.atomTake; dsimp only; split
  · exact .ite h.draw ((h.draw.setTier _ _ _ .of).atomRun ..)
  · exact h.draw

@[simp] theorem Keeps.atomDrain (n : Nat) (h : Keeps s₀ s) (t far id) : Keeps s₀ (atomDrain n s t far id) := by
  induction n generalizing s with
  | zero => exact h
  | succ n ih => exact .ite (ih (h.atomTake ..)) h

@[simp] theorem Keeps.atomSome (n : Nat) (h : Keeps s₀ s) (t far) : Keeps s₀ (atomSome n s t far) := by
  induction n generalizing s with
  | zero => exact h
  | succ n ih => exact .ite h (ih (h.atomTake ..))

@[simp] theorem Keeps.atomServe (h : Keeps s₀ s) (t far e) : Keeps s₀ (atomServe s t far e) := by
  unfold Sys2Proof.Machine.atomServe; dsimp only; repeat' split
  · exact (h.addAtom ..).raiseCore ..
  · exact (h.addAtom ..).draw.atomSome ..
  · exact h.addAtom ..
  · exact (h.addAtom ..).raisesAt ..
  · exact ((h.addAtom ..).raisesAt ..).tierWrite ..

theorem Keeps.settleTier (h : Keeps s₀ s) (t far) : Keeps s₀ (settleTier s t far) :=
  h.foldl (fun s _ => (Keeps.rfl' s).atomDrain ..) _

theorem Keeps.settleAtoms (h : Keeps s₀ s) : Keeps s₀ (settleAtoms s) :=
  Keeps.forDies (fun s d => ((Keeps.rfl' s).settleTier d false).settleTier d true) h

@[simp] theorem Keeps.stripeStart (h : Keeps s₀ s) (q p st r) : Keeps s₀ (stripeStart s q p st r) := by
  unfold Sys2Proof.Machine.stripeStart; dsimp only
  have h1 : Keeps s₀ (if stripeRaces s q st then Sys2Proof.Machine.raiseCore s q.die p.core
      (0x016B, 11, 0, devAddr q.target q.far (256 * st)) else s) := .ite (h.raiseCore ..) h
  exact .ite (h1.noteRead ..) h1

theorem csWrite_wf (c : Core) (r a bs u) (w : c.memWf) : (csWrite c r a bs u).1.memWf := w

@[simp] theorem Keeps.unitEffect (h : Keeps s₀ s) (q p) : Keeps s₀ (unitEffect s q p).1 := by
  unfold Sys2Proof.Machine.unitEffect; dsimp only
  repeat' split
  all_goals first
    | exact h
    | exact h.stripeStart ..
    | exact (h.stripeStart ..).onCore _ _ fun c w => csWrite_wf c _ _ _ _ w
    | exact h.onCore _ _ fun c w => csWrite_wf c _ _ _ _ w
    | exact (h.stripeStart ..).runWrite ..
    | exact h.runWrite ..
    | exact (h.stripeStart ..).foldl (fun s _ => (Keeps.rfl' s).atomServe ..) _
    | exact h.foldl (fun s _ => (Keeps.rfl' s).atomServe ..) _

@[simp] theorem Keeps.serveUnit (h : Keeps s₀ s) (d j) : Keeps s₀ (serveUnit s d j) := by
  unfold Sys2Proof.Machine.serveUnit; split
  · exact h
  split
  · exact h
  · rename_i q _ _ i p _
    dsimp only
    have h1 : Keeps s₀ (if p.active = true then Sys2Proof.Machine.unitEffect s q p else (s, p)).1 := by
      split
      · exact h.unitEffect ..
      · exact h
    generalize (if p.active = true then Sys2Proof.Machine.unitEffect s q p else (s, p)) = r at h1 ⊢
    have h2 := h1.setDie d { r.1.die d with memQ := (r.1.die d).memQ.set j { q with parts := q.parts.set i { r.2 with served := p.served + 1 }, served := q.served + 1, lastAt := s.laps.now } } .of
    repeat' split
    all_goals first
      | exact (h2.setTier _ _ _ .of).raiseDie ..
      | exact h2.setTier _ _ _ .of

@[simp] theorem Keeps.serveMany (n : Nat) (h : Keeps s₀ s) (d j) : Keeps s₀ (serveMany n s d j) := by
  induction n generalizing s with
  | zero => exact h
  | succ n ih =>
    unfold Sys2Proof.Machine.serveMany; repeat' split
    · exact ih (h.serveUnit ..)
    · exact h
    · exact h

@[simp] theorem Keeps.serveStatic (h : Keeps s₀ s) (d far) : Keeps s₀ (serveStatic s d far) := by
  unfold Sys2Proof.Machine.serveStatic; dsimp only; split
  · exact h.serveMany ..
  · exact h

@[simp] theorem Keeps.serveAsync (h : Keeps s₀ s) (d far) : Keeps s₀ (serveAsync s d far) := by
  unfold Sys2Proof.Machine.serveAsync; split
  · exact h
  · exact h.foldl (fun s _ => (Keeps.rfl' s).serveMany ..) _

@[simp] theorem Keeps.pageWord (h : Keeps s₀ s) (d w) : Keeps s₀ (pageWord s d w) := by
  unfold Sys2Proof.Machine.pageWord; extract_lets a s1
  have h1 : Keeps s₀ s1 := .ite (h.touchRange ..) h
  exact h1.setTier _ _ _ .of

@[simp] theorem Keeps.serveDue (h : Keeps s₀ s) (d) : Keeps s₀ (serveDue s d) := by
  unfold Sys2Proof.Machine.serveDue; extract_lets x n
  exact .ite h (.ite (h.pacerEvent 0) ((h.setDie d _ .of).pageWord _ _))

@[simp] theorem Keeps.servePage (h : Keeps s₀ s) (d) : Keeps s₀ (servePage s d) := by
  unfold Sys2Proof.Machine.servePage; extract_lets q
  refine .ite h ?_
  split
  · exact h.serveDue d
  split
  · extract_lets fee done s1
    refine .ite (h.setSeq _ _ .of) (.ite (h.setSeq _ _ .of) (.ite h (.ite (h.pacerEvent 0) ?_)))
    have h1 : Keeps s₀ s1 := h.setSeq _ _ .of
    exact Keeps.pageWord (.of h1) _ _
  · exact h.setSeq _ _ .of

@[simp] theorem Keeps.completeReq (h : Keeps s₀ s) (d id) : Keeps s₀ (completeReq s d id) := by
  unfold Sys2Proof.Machine.completeReq; dsimp only
  generalize hx : List.foldl _ s _ = s1
  have h1 : Keeps s₀ s1 := by
    subst hx
    exact h.foldl (fun s r => ((Keeps.rfl' s).atomDrain ..).setTier _ _ _ .of) _
  have h2 := h1.setDie d { s1.die d with memQ := (s1.die d).memQ.filter fun r => decide (r.id ≠ id) } .of
  split
  · exact h2.of
  · exact h2

theorem memComplete_keeps (d s) : OutKeeps s (execMemComplete d s) :=
  .next ((Keeps.rfl' s).foldl (fun s _ => (Keeps.rfl' s).completeReq ..) _)

@[simp] theorem Keeps.rebuildMap (h : Keeps s₀ s) (d) : Keeps s₀ (rebuildMap s d) := h.setDie d _ .of

/-! ### MLADAR and the close phase -/

@[simp] theorem Keeps.commitSlots (h : Keeps s₀ s) : Keeps s₀ (commitSlots s) := h.of
@[simp] theorem Keeps.signature (h : Keeps s₀ s) (k b) : Keeps s₀ (signature s k b).2 := h.drawN 66
@[simp] theorem Keeps.sealBytes (h : Keeps s₀ s) (l) : Keeps s₀ (sealBytes s l).2 := h.drawN 66
@[simp] theorem Keeps.attestReport (h : Keeps s₀ s) (l) : Keeps s₀ (attestReport s l).2 := h.drawN 66
@[simp] theorem Keeps.certFrames (h : Keeps s₀ s) : Keeps s₀ (certFrames s).2 := h.drawN 66

@[simp] theorem Keeps.touchEgress (h : Keeps s₀ s) (d) : Keeps s₀ (touchEgress s d) := by
  unfold Sys2Proof.Machine.touchEgress; split
  · exact .ite h (h.touchRange _ _)
  · exact h

@[simp] theorem Keeps.stageEgress (h : Keeps s₀ s) : Keeps s₀ (stageEgress s) := by
  unfold Sys2Proof.Machine.stageEgress; dsimp only
  generalize hx : Sys2Proof.Machine.forDies _ _ = s1
  have h1 : Keeps s₀ s1 := by
    subst hx
    refine Keeps.forDies (fun s d => ?_) h.of
    have h1 := (Keeps.rfl' s).touchEgress d
    exact .ite (Keeps.raiseDie (.of h1) ..) (.of h1)
  split
  · exact ((h1.of).pacerEvent 3).raiseHub _
  · exact h1.of

theorem Keeps.digestUnit (h : Keeps s₀ s) {d t} (e : digestUnit s d = some t) : Keeps s₀ t := by
  unfold Sys2Proof.Machine.digestUnit at e
  split at e
  · split at e
    · dsimp only at e
      split at e
      · rename_i x _ _
        have h0 : Keeps s₀ (if x.got.length = 0 ∨ (x.off + x.got.length) % 256 = 0 then
            Machine.noteRead s d false ((x.off + x.got.length) / 256) else s) := .ite (h.noteRead ..) h
        generalize (if x.got.length = 0 ∨ (x.off + x.got.length) % 256 = 0 then
            Machine.noteRead s d false ((x.off + x.got.length) / 256) else s) = s0 at h0 e
        cases e
        exact Keeps.up (h0.setTier _ _ _ .of)
      · cases e
    · cases e
  · cases e

@[simp] theorem Keeps.serveDigest (n : Nat) (h : Keeps s₀ s) (d) : Keeps s₀ (serveDigest n s d) := by
  induction n generalizing s with
  | zero => exact h
  | succ n ih =>
    unfold Sys2Proof.Machine.serveDigest; split
    · rename_i e; exact ih (h.digestUnit e)
    · exact h

theorem Keeps.classFive (h : Keeps s₀ s) {d far a t} (e : classFive s d far a = some t) : Keeps s₀ t := by
  unfold Sys2Proof.Machine.classFive at e
  split at e
  · rename_i w _
    dsimp only at e
    split at e
    · cases e
    · have h0 : Keeps s₀ (if w.2.2 % 256 = 0 then Machine.noteRead s d far (w.2.2 / 256) else s) := .ite (h.noteRead ..) h
      generalize (if w.2.2 % 256 = 0 then Machine.noteRead s d far (w.2.2 / 256) else s) = s0 at h0 e
      cases e
      exact h0.setTier _ _ _ .of
  · cases e

@[simp] theorem Keeps.serveWset (h : Keeps s₀ s) (d far) : Keeps s₀ (serveWset s d far) := by
  unfold Sys2Proof.Machine.serveWset; dsimp only; split
  · exact h
  · split
    · rename_i e; exact .of (h.classFive e)
    · exact h

@[simp] theorem Keeps.serveVerify (h : Keeps s₀ s) (d far) : Keeps s₀ (serveVerify s d far) := by
  unfold Sys2Proof.Machine.serveVerify; dsimp only; split
  · split
    · rename_i e; exact .of (h.classFive e)
    · exact h
  · exact h

theorem memUnitService_keeps (d far s) : OutKeeps s (execMemUnitService d far s) := by
  unfold execMemUnitService; extract_lets s1 s2 s3
  have h1 : Keeps s s1 := (Keeps.rfl' s).serveStatic ..
  have h2 : Keeps s s2 := .ite h1 (h1.servePage d)
  have h3 : Keeps s s3 := .ite h2 (h2.serveDigest _ d)
  exact .next (((h3.serveAsync _ _).serveWset _ _).serveVerify _ _)

theorem closePhaseStart_keeps (s) : OutKeeps s (execClosePhaseStart s) := by
  unfold execClosePhaseStart; dsimp only; split
  · exact .next (.rfl' s)
  · have h1 : Keeps s { s with laps := { s.laps with closed := true } } := (Keeps.rfl' s).of
    repeat' split
    · exact .next (h1.raiseHub _).stageEgress
    · exact .next h1.stageEgress
    · exact .next (h1.raiseHub _)
    · exact .next h1

theorem lapSeal_keeps (s) : OutKeeps s (execLapSeal s) := by
  unfold execLapSeal; dsimp only
  have h1 : Keeps s { s with laps := { s.laps with sealed := true } } := (Keeps.rfl' s).of
  repeat' split
  all_goals first
    | exact .next (.rfl' s) | exact .next h1 | exact .next (h1.raiseHub _)
    | exact .next (Keeps.up (Keeps.sealBytes h1 _))

end Sys2Proof.Machine
end

