-- ==== Sys2Proof/Laws/KeepsPort.lean ====
section
/-! SUPPORT. What the port, the split store, resets and fault handling keep. -/
namespace Sys2Proof.Machine
set_option Elab.async false

variable {s₀ s : State}

/-! ### The port -/

theorem Keeps.setPeer (h : Keeps s₀ s) (p x) : Keeps s₀ (s.setPeer p x) := h.of
theorem Keeps.setSeqOf (h : Keeps s₀ s) (p c q) : Keeps s₀ (s.setSeqOf p c q) := h.of
theorem Keeps.netEvent (h : Keeps s₀ s) (b) : Keeps s₀ (netEvent s b) := h.of
theorem Keeps.rxDrop (h : Keeps s₀ s) : Keeps s₀ (rxDrop s) := h.of
theorem Keeps.egressLose (h : Keeps s₀ s) (n) : Keeps s₀ (egressLose s n) := .ite h (Keeps.netEvent (.up h) 1)
theorem Keeps.emit (h : Keeps s₀ s) (x) : Keeps s₀ (emit s x) := h.of
theorem Keeps.sendPlain (h : Keeps s₀ s) (p c t a) : Keeps s₀ (sendPlain s p c t a) := h.of
theorem Keeps.sendPayload (h : Keeps s₀ s) (p c f q a bs) : Keeps s₀ (sendPayload s p c f q a bs) := h.of
theorem Keeps.drainCheck (h : Keeps s₀ s) : Keeps s₀ (drainCheck s) := .ite (.up h) h

theorem Keeps.takeAck (h : Keeps s₀ s) (p c a k) : Keeps s₀ (takeAck s p c a k) := by
  unfold Sys2Proof.Machine.takeAck; dsimp only
  generalize hx : State.setSeqOf s p c _ = s1
  have h1 : Keeps s₀ s1 := by subst hx; exact h.of
  clear hx
  refine .ite (Keeps.drainCheck (.ite (.up ?_) ?_)) (.ite (.up ?_) ?_) <;> exact .ite (.up h1) h1

theorem Keeps.seqTake (h : Keeps s₀ s) (p c n) : Keeps s₀ (seqTake s p c n) := h.of
theorem Keeps.seqAgain (h : Keeps s₀ s) (p c) : Keeps s₀ (seqAgain s p c) := h.of

theorem Keeps.bindPeer (h : Keeps s₀ s) (p f) : Keeps s₀ (bindPeer s p f) :=
  .ite (.up (Keeps.setPeer h ..)) (Keeps.setPeer h ..)

theorem Keeps.admitFrame (h : Keeps s₀ s) (f) : Keeps s₀ (admitFrame s f).1 := by
  unfold Sys2Proof.Machine.admitFrame
  refine .ite₁ h.rxDrop ?_
  have key : ∀ {x : State} {p : Fin 16}, Keeps s₀ x → Keeps s₀ (if
      peerMay (x.net.peers[p]) f.cls.toNat f.type.toNat = true then
        (Sys2Proof.Machine.takeAck x p (f.cls.toNat - 1) f.ack.toNat f.sack.toNat, some p)
      else (Sys2Proof.Machine.netEvent s 3, none) : State × Option (Fin 16)).1 := fun hx =>
    .ite₁ (hx.takeAck ..) (h.netEvent 3)
  cases peerOf s f with
  | some p => exact key h
  | none =>
    cases openPeer s f with
    | some p => exact key (h.bindPeer p f)
    | none => exact h.netEvent 3

theorem Keeps.bufferFrame (h : Keeps s₀ s) (c n) : Keeps s₀ (bufferFrame s c n) := by
  unfold Sys2Proof.Machine.bufferFrame; dsimp only
  have h1 := h.draw
  generalize s.draw.2 = s1 at h1 ⊢
  repeat' split
  all_goals first | exact .up h1 | exact Keeps.emit (.up (.up h1)) _

theorem Keeps.receive (h : Keeps s₀ s) (f c t) {take : State → Fin 16 → State × Bool} (ht : ∀ s p, Keeps s (take s p).1) :
    Keeps s₀ (receive s f c t take) := by
  unfold Sys2Proof.Machine.receive
  refine .ite h ?_
  extract_lets s1 r
  have h1 : Keeps s₀ r.1 := (h.bufferFrame (!isBulk (c - 1)) (f.payload.length + 80)).admitFrame f
  clear_value r
  split
  · exact h1
  · refine .ite h1 ?_
    generalize seqAct _ _ = a
    cases a
    · exact .ite ((h1.trans (ht _ _)).seqTake ..) (h1.trans (ht _ _))
    · exact h1.seqAgain ..
    · exact h1

theorem ackFrame_keeps (f s) : OutKeeps s (execAckFrame f s) := by
  unfold execAckFrame; split
  · exact .next (((Keeps.rfl' s).bufferFrame ..).admitFrame _)
  · exact .next (.rfl' s)

theorem neighbourSolicitation_keeps (a b c s) : OutKeeps s (execNeighbourSolicitation a b c s) := by
  unfold execNeighbourSolicitation; dsimp only; split
  · exact .next ((Keeps.rfl' s).emit _)
  · exact .next (.rfl' s)

theorem Keeps.delayRequest (h : Keeps s₀ s) : Keeps s₀ (delayRequest s) := .ite (h.draw.emit _) h.draw

theorem ptpSync_keeps (o s) : OutKeeps s (execPtpSync o s) := by
  unfold execPtpSync; dsimp only; split
  · exact .next (.rfl' s)
  · exact .next (Keeps.delayRequest (.up (.rfl' s)))

theorem ptpSyncLoss_keeps (s) : OutKeeps s (execPtpSyncLoss s) := by
  unfold execPtpSyncLoss; split
  · exact .next (.up (.rfl' s))
  · exact .next (.rfl' s)

theorem ptpDelayResponse_keeps (a b s) : OutKeeps s (execPtpDelayResponse a b s) := by
  unfold execPtpDelayResponse; repeat' split
  all_goals first | exact .next (.rfl' s) | exact .next (.up (.rfl' s))

theorem Keeps.sendCredit (h : Keeps s₀ s) (p) : Keeps s₀ (sendCredit s p) := by
  unfold Sys2Proof.Machine.sendCredit; dsimp only; split
  · exact .ite (Keeps.sendPlain (h.setPeer ..) ..) h
  · exact h

theorem Keeps.sendCredits (h : Keeps s₀ s) : Keeps s₀ (sendCredits s) := h.foldl (fun s p => (Keeps.rfl' s).sendCredit p) _
theorem Keeps.pausePort (h : Keeps s₀ s) (c u) : Keeps s₀ (pausePort s c u) := .ite (.up h) (.up h)
theorem Keeps.resumePort (h : Keeps s₀ s) (c) : Keeps s₀ (resumePort s c) := .ite (.up h) (Keeps.sendCredits (.up h))

theorem pfcReceive_keeps (c q s) : OutKeeps s (execPfcReceive c q s) := by
  unfold execPfcReceive; repeat' split
  · exact .next (.rfl' s)
  · exact .next ((Keeps.rfl' s).resumePort _)
  · exact .next ((Keeps.rfl' s).pausePort ..)

theorem pauseTimeExpiry_keeps (c s) : OutKeeps s (execPauseTimeExpiry c s) := by
  unfold execPauseTimeExpiry; generalize (if c = true then _ else _ : Bool) = b; split
  · exact .next ((Keeps.rfl' s).resumePort _)
  · exact .next (.rfl' s)

theorem pfcResumeSend_keeps (c s) : OutKeeps s (execPfcResumeSend c s) := by
  unfold execPfcResumeSend; dsimp only; repeat' split
  all_goals first | exact .next (.rfl' s) | exact .next (Keeps.emit (.up (Keeps.rfl' s).draw) _)

theorem portLinkChange_keeps (l s) : OutKeeps s (execPortLinkChange l s) := by
  unfold execPortLinkChange; split
  · exact .next (.rfl' s)
  · exact .next (.up (.rfl' s))

theorem discardedFrame_keeps (w s) : OutKeeps s (execDiscardedFrame w s) := by
  unfold execDiscardedFrame; cases w
  all_goals first | exact .next (.rfl' s) | exact .next (.ite (Keeps.rfl' s).rxDrop (.rfl' s))

theorem Keeps.markDown (h : Keeps s₀ s) (p) : Keeps s₀ (markDown s p) :=
  Keeps.egressLose (Keeps.netEvent (.up (Keeps.setPeer h ..)) _) _

theorem retransmit_keeps (p c s) : OutKeeps s (execRetransmit p c s) := by
  unfold execRetransmit; dsimp only; repeat' split
  all_goals first
    | exact .next (.rfl' s)
    | exact .next ((Keeps.rfl' s).markDown _)
    | exact .next (Keeps.emit (.up (Keeps.setSeqOf (.rfl' s) ..)) _)

theorem ackDelay_keeps (p c s) : OutKeeps s (execAckDelay p c s) := by
  unfold execAckDelay; repeat' split
  all_goals first | exact .next (.rfl' s) | exact .next ((Keeps.rfl' s).sendPlain ..)

theorem Keeps.releaseEgress (h : Keeps s₀ s) : Keeps s₀ (releaseEgress s) := .up h

theorem Keeps.loseDown (h : Keeps s₀ s) : Keeps s₀ (loseDown s) := Keeps.egressLose (.up h) _

theorem egressTransmit_keeps (p s) : OutKeeps s (execEgressTransmit p s) := by
  unfold execEgressTransmit; dsimp only; repeat' split
  all_goals first | exact .next (.rfl' s) | exact .next (Keeps.sendPayload (.up (.rfl' s)) ..)

theorem egressDiscard_keeps (s) : OutKeeps s (execEgressDiscard s) := by
  unfold execEgressDiscard; dsimp only; split
  · exact .next (Keeps.egressLose (.up (.rfl' s)) _)
  · exact .next (.rfl' s)

theorem recordTransmit_keeps (s) : OutKeeps s (execRecordTransmit s) := by
  unfold execRecordTransmit; dsimp only; repeat' split
  all_goals first | exact .next (.rfl' s) | exact .next (Keeps.sendPayload (.up (.rfl' s)) ..)

theorem Keeps.queueRecords (h : Keeps s₀ s) (l) : Keeps s₀ (queueRecords s l) := .up h

/-! ### The split store -/

theorem Keeps.writeScb (h : Keeps s₀ s) (k) : Keeps s₀ (writeScb s k) := (h.devWrite ..).devWrite ..
theorem Keeps.writeSteps (h : Keeps s₀ s) (k x) : Keeps s₀ (writeSteps s k x) := (h.devWrite ..).devWrite ..
theorem Keeps.takeSplit (h : Keeps s₀ s) (k r m) : Keeps s₀ (takeSplit s k r m) := Keeps.writeScb (.up h) _
theorem Keeps.takeSplit0 (h : Keeps s₀ s) (k m) : Keeps s₀ (takeSplit0 s k m) := Keeps.writeScb (.up h) _

theorem Keeps.writeHeader (h : Keeps s₀ s) : Keeps s₀ (writeHeader s) := by
  unfold Sys2Proof.Machine.writeHeader; split
  · rename_i g k _ _
    have h1 := h.nearWrite (hdrOf k g.side) (headerBytes s g ++ g.dies.flatten)
    exact .ite h (.up h1)
  · exact h

theorem splitHeaderWritten_keeps (s) : OutKeeps s (execSplitHeaderWritten s) := .next (Keeps.rfl' s).writeHeader

theorem Keeps.judgeStep (h : Keeps s₀ s) : Keeps s₀ (judgeStep s) := by
  unfold Sys2Proof.Machine.judgeStep; split
  · exact .ite (h.raiseHub _) (.up h)
  · exact h

theorem Keeps.splitAtCut (h : Keeps s₀ s) (r m) : Keeps s₀ (splitAtCut s r m) := by
  unfold Sys2Proof.Machine.splitAtCut; split
  · refine .ite ?_ h
    exact .ite (.ite (Keeps.takeSplit (.up h) ..) (.up (.up h))) (.up h)
  · exact h

theorem Keeps.writeDigest (h : Keeps s₀ s) (k b) : Keeps s₀ (writeDigest s k b) := (h.nearWrite ..).nearWrite ..

theorem Keeps.touchPieces (h : Keeps s₀ s) (l pos n) : Keeps s₀ (touchPieces s l pos n) := by
  refine Keeps.foldl₁ (fun y p => ?_) _ h
  exact .ite ((Keeps.rfl' _).touchRange ..) (.rfl' _)

theorem drainSend_keeps (s) : OutKeeps s (execDrainSend s) := by
  unfold execDrainSend; split
  · dsimp only
    split
    · exact .next (.rfl' s)
    · split
      · exact .next ((Keeps.rfl' s).pacerEvent _)
      · refine .next (Keeps.sendPayload (Keeps.of (Keeps.touchPieces (s := if _ then _ else _) ?_ _ _ _)) ..)
        exact .ite ((Keeps.rfl' s).writeDigest ..) (.rfl' s)
  · exact .next (.rfl' s)

theorem Keeps.cancelDrain (h : Keeps s₀ s) : Keeps s₀ (cancelDrain s) := .up h
theorem cancel_keeps (p s) : OutKeeps s (execCancel p s) := .atCut fun s => (Keeps.rfl' s).cancelDrain
theorem Keeps.verifyWrite (h : Keeps s₀ s) : Keeps s₀ (verifyWrite s) := .ite (.up h) (.up h)
theorem verify_keeps (p s) : OutKeeps s (execVerify p s) := .atCut fun s => (Keeps.rfl' s).verifyWrite

theorem Keeps.verifyBegin (h : Keeps s₀ s) : Keeps s₀ (verifyBegin s) := by
  unfold Sys2Proof.Machine.verifyBegin; dsimp only; split
  · exact h
  · split
    · exact .up h
    · split
      · exact .up h
      · rename_i k _
        generalize hx : Machine.touchRange _ k.hdrB 1024 = s1
        have h1 : Keeps s₀ s1 := by
          subst hx; exact Keeps.touchRange (Keeps.touchRange (.up h) _ _) _ _
        clear hx
        split
        · exact .up h1
        · exact .ite (.up h1) (.up h1)

theorem verifyDone_keeps (s) : OutKeeps s (execVerifyDone s) := by
  unfold execVerifyDone; repeat' split
  all_goals first | exact .next (.rfl' s) | exact .next (.up (.rfl' s))

theorem leNat_lt (bs : List Byte) : leNat bs < 256 ^ bs.length := by
  induction bs with
  | nil => simp [leNat]
  | cons b bs ih =>
    simp only [leNat, List.length_cons, Nat.pow_succ]
    have := b.isLt
    omega

theorem seqFromBlock_keeps (q b p x) : SeqKeeps x (seqFromBlock q b p) := by
  intro _ i
  simp only [seqFromBlock, Fin.getElem_fin, Vector.getElem_ofFn]
  have h1 := leNat_lt ((b.drop (144 + 2 * i.val)).take 2)
  have h2 : ((b.drop (144 + 2 * i.val)).take 2).length ≤ 2 := by simp
  have h3 : 256 ^ ((b.drop (144 + 2 * i.val)).take 2).length ≤ 256 ^ 2 := Nat.pow_le_pow_right (by norm_num) h2
  omega

theorem Keeps.restoreSplit (h : Keeps s₀ s) (k a b r) : Keeps s₀ (restoreSplit s k a b r) := by
  unfold Sys2Proof.Machine.restoreSplit; extract_lets hd blk s' skew s1 r1 m1 p1 n1 s2
  have h1 : Keeps s₀ s1 :=
    Keeps.forDies (fun s d => (Keeps.rfl' s).setSeq d _ (seqFromBlock_keeps _ _ _ _)) (h.touchRange ..)
  clear_value s1 skew blk hd
  have h2 : Keeps s₀ s2 := .of h1
  exact (h2.writeSteps _ _).writeScb _

/-! ### Resets -/

theorem cleanCore_wf (t : Nat) : (Core.init t).memWf := ⟨rfl, rfl⟩

/-- Fresh cores hold canonical memories. -/
theorem CoresKeep.fresh (x : List Core) (n t : Nat) : CoresKeep x (List.replicate n (Core.init t)) := by
  intro _ c hc
  rw [List.eq_of_mem_replicate hc]
  exact cleanCore_wf t

theorem freshCore_wf (l : List Core) (n t : Nat) : ∀ c ∈ freshCores l n t, c.memWf := by
  intro c hc
  obtain ⟨i, _, rfl⟩ := List.mem_map.mp hc
  exact ⟨rfl, rfl⟩

theorem CoresKeep.renew (x l : List Core) (n t : Nat) : CoresKeep x (freshCores l n t) := fun _ => freshCore_wf l n t

theorem CoresKeep.trans' {x y z : List Core} (h : CoresKeep x y) (g : CoresKeep y z) : CoresKeep x z := fun w => g (h w)

theorem CoresKeep.append {x y z : List Core} (hy : CoresKeep x y) (hz : CoresKeep x z) : CoresKeep x (y ++ z) := fun w c hc => by
  rcases List.mem_append.mp hc with q | q
  · exact hy w c q
  · exact hz w c q

theorem freshAll (x : List Core) (n m t : Nat) : CoresKeep x (freshCores [] n t ++ freshCores [] m t) := fun _ c hc => by
  rcases List.mem_append.mp hc with q | q
  · exact freshCore_wf _ _ _ c q
  · exact freshCore_wf _ _ _ c q

theorem SeqKeeps.init (x : Seq) : SeqKeeps x Seq.init := fun _ i => by
  simp [Seq.init, Fin.getElem_fin]

theorem DieKeeps.cold (x : DieSt) (n c g) : DieKeeps x (coldDie x n c g) :=
  ⟨fun _ => ⟨rfl, rfl⟩, fun _ => ⟨rfl, rfl⟩, .append (.fresh _ _ _) (fun _ _ hc => by simp [coldDie, DieSt.init] at hc), .init _⟩

theorem flashLeft_wf (x : Sec) (w : Memory.wf x.flash = true) : Memory.wf (flashLeft x) = true := by
  unfold flashLeft; split
  · exact memClear_wf w _ _
  · exact w

theorem SecKeeps.cold (x : Sec) : SecKeeps x (coldSec x) := .of (h7 := flashLeft_wf x) (h8 := fun _ => rfl)

theorem State.die_map (s : State) (f : DieSt → DieSt) (d : Die) : (s.dies.map f)[d] = f (s.die d) := by
  simp [State.die]

theorem Keeps.coldState (h : Keeps s₀ s) (c g) : Keeps s₀ (coldState s c g) :=
  h.trans ⟨rfl, le_rfl, le_rfl, fun _ => by simp [Sys2Proof.Machine.coldState, Faults.init], .cold _, fun d => by
    show DieKeeps (s.die d) ((s.dies.map fun x => coldDie x (gridSide s) c g)[d])
    rw [State.die_map]; exact .cold ..⟩

theorem Keeps.moduleReset (h : Keeps s₀ s) (c) : Keeps s₀ (moduleReset s c) := .up (h.coldState _ _)

theorem Keeps.railsDown (h : Keeps s₀ s) (l) : Keeps s₀ (railsDown s l) := Keeps.ofSec (h.coldState false 0) .of

theorem Keeps.raiseResponder (h : Keeps s₀ s) (r) : Keeps s₀ (raiseResponder s r) := h.ofSec (.of (h8 := fun _ => rfl))

/-! ### Fault handling -/

theorem Keeps.bumpEpoch (h : Keeps s₀ s) (d) : Keeps s₀ (bumpEpoch s d) :=
  Keeps.forDies (fun s e => (Keeps.rfl' s).setDie e _ .of) (h.setDie d _ .of)

theorem runStartSeq_bar (s : State) (d : Die) (i : Fin 16) : (runStartSeq s d).bar[i] = 0 := by
  unfold runStartSeq; split <;> simp [Seq.init, Fin.getElem_fin]

theorem DieKeeps.restart (x : DieSt) (q : Seq) (hb : ∀ i : Fin 16, q.bar[i] ≤ 0xFFFF) (t : Nat) : DieKeeps x { x with
    cores := freshCores [] x.cores.length t, rest := freshCores [] x.rest.length t
    seq := { q with words := x.seq.words, stalls := x.seq.stalls, energy := x.seq.energy }
    memQ := [], resetFrom := some t } :=
  ⟨id, id, freshAll _ _ _ _, fun _ => hb⟩

theorem Keeps.startDieReset (h : Keeps s₀ s) (d) : Keeps s₀ (startDieReset s d) := by
  unfold Sys2Proof.Machine.startDieReset; extract_lets s1 x q s2 inside mine held f1
  have h1 : Keeps s₀ s1 := h.bumpEpoch d
  have h2 : Keeps s₀ s2 := h1.setDie d _ (.restart x (runStartSeq s d) (fun i => by rw [runStartSeq_bar]; exact Nat.zero_le _) _)
  clear_value s2 held
  have h3 : Keeps s₀ { s2 with fabric := { f1 with
      data := f1.data.filter fun y => !inside y
      signals := f1.signals.filter fun g => !mine g
      sends := f1.sends.filter fun j => decide (j.die ≠ d) } } := .up h2
  exact h3.dropPackets d held

theorem Keeps.failChannel (h : Keeps s₀ s) (d f c) : Keeps s₀ (failChannel s d f c) := h.setTier d f _ .of

theorem Keeps.startChanReset (h : Keeps s₀ s) (d f c) : Keeps s₀ (startChanReset s d f c).1 := by
  unfold Sys2Proof.Machine.startChanReset; dsimp only
  refine .ite₁ h ?_
  exact .ite₁ ((h.setTier d f _ .of).failChannel ..) (h.setTier d f _ .of)

theorem Keeps.chanFault (h : Keeps s₀ s) (c d f ch a) : Keeps s₀ (chanFault s c d f ch a) :=
  .ite (((h.startChanReset ..).addFault _).addFault _) ((h.startChanReset ..).addFault _)

theorem Keeps.coreFault (h : Keeps s₀ s) (d i c u t a) : Keeps s₀ (coreFault s d i c u t a) := by
  unfold Sys2Proof.Machine.coreFault; dsimp only
  exact .ite h (Keeps.addFault (.ite (h.setDie d _ .of) h) _)

theorem Keeps.dieFault (h : Keeps s₀ s) (d c u) : Keeps s₀ (dieFault s d c u) := by
  unfold Sys2Proof.Machine.dieFault; dsimp only
  exact Keeps.addFault (h.setDie d _ .of) _

theorem Keeps.dropCrossing (h : Keeps s₀ s) (n) : Keeps s₀ (dropCrossing s n) := .up h
theorem Keeps.linkFault (h : Keeps s₀ s) (n) : Keeps s₀ (linkFault s n) := Keeps.addFault (.of (h.dropCrossing n)) _

theorem Keeps.bringupRestart (h : Keeps s₀ s) : Keeps s₀ (bringupRestart s) := .ite (.up h) (h.raiseResponder _)

theorem Keeps.detect (h : Keeps s₀ s) (x) : Keeps s₀ (detect s x) := by
  unfold Sys2Proof.Machine.detect; dsimp only; repeat' split
  all_goals first
    | exact .up h
    | exact h.setDie _ _ .of
    | exact h.coreFault ..
    | exact h.dieFault ..
    | exact h.linkFault ..
    | exact h.addFault _
    | exact Keeps.addFault (h.setTier _ _ _ .of) _
    | exact h.chanFault ..

theorem faultDetected_keeps (x s) : OutKeeps s (execFaultDetected x s) := by
  unfold execFaultDetected; split
  · exact .next (.ite (.rfl' s) ((Keeps.rfl' s).detect _))
  · refine .next (.ite (.rfl' s) ?_)
    split
    · exact (Keeps.rfl' s).bringupRestart
    · exact .rfl' s
  · refine .next (.ite (.rfl' s) ?_)
    split
    · exact (Keeps.rfl' s).bringupRestart
    · exact .rfl' s
  · exact .next (.rfl' s)

/-- A record added to a queue with room keeps its bound. -/
theorem Keeps.queueRec (h : Keeps s₀ s) (r) : Keeps s₀ (queueRec s r) := by
  unfold Sys2Proof.Machine.queueRec; dsimp only
  have h1 : Keeps s₀ (if (bitAt r.action 2 && decide (r.die < 16)) = true then Sys2Proof.Machine.startDieReset s (dieOf r.die) else s) :=
    .ite (h.startDieReset _) h
  generalize (if (bitAt r.action 2 && decide (r.die < 16)) = true then Sys2Proof.Machine.startDieReset s (dieOf r.die) else s) = s1 at h1 ⊢
  split
  · rename_i hl
    refine h1.trans ⟨rfl, le_rfl, le_rfl, fun _ => ?_, .rfl' _, fun _ => .rfl' _⟩
    simp only [List.length_append, List.length_singleton]
    omega
  · exact .up h1

theorem faultRecordQueue_keeps (s) : OutKeeps s (execFaultRecordQueue s) := by
  unfold execFaultRecordQueue; split
  · exact .next (.rfl' s)
  · exact .next (Keeps.foldl (fun s r => (Keeps.rfl' s).queueRec r) _ (.up (.rfl' s)))

theorem Keeps.popFault (h : Keeps s₀ s) : Keeps s₀ (popFault s) :=
by
  unfold Sys2Proof.Machine.popFault; dsimp only; repeat' split
  all_goals first
    | exact h
    | exact h.trans ⟨rfl, le_rfl, le_rfl, fun q => by simp; try omega, .rfl' _, fun _ => .rfl' _⟩

theorem faultPop_keeps (p s) : OutKeeps s (execFaultPop p s) := .atCut fun s => (Keeps.rfl' s).popFault
theorem fenceClear_keeps (p s) : OutKeeps s (execFenceClear p s) := .atCut fun s => .up (.rfl' s)

theorem Keeps.patrolFinds (h : Keeps s₀ s) (d i a f) : Keeps s₀ (patrolFinds s d i a f) :=
  .ite h (.ite (h.detect _) (h.coreFault ..))

theorem patrolRead_keeps (d i f s) : OutKeeps s (execPatrolRead d i f s) := by
  unfold execPatrolRead; dsimp only; split
  · exact .next (.rfl' s)
  · split
    · rename_i c hc
      exact .next (((Keeps.rfl' s).setCores d _ (.set (c' := stepPatrol c) hc fun w => w)).patrolFinds ..)
    · rename_i c _ hc
      refine .next (Keeps.patrolFinds ?_ _ _ _ _)
      exact ((Keeps.rfl' s).setDie d _ ⟨id, id, CoresKeep.right (.set (c' := stepPatrol c) hc fun w => w) _, id⟩)
    · exact .next (.rfl' s)

theorem Keeps.endDieReset (h : Keeps s₀ s) (d) : Keeps s₀ (endDieReset s d) := by
  unfold Sys2Proof.Machine.endDieReset; split
  · exact .ite (h.setDie d _ .of) h
  · exact h

theorem dieResetEnd_keeps (d s) : OutKeeps s (execDieResetEnd d s) := .next (.ite ((Keeps.rfl' s).endDieReset d) (.rfl' s))

theorem Keeps.fenceHub (h : Keeps s₀ s) (d) : Keeps s₀ (fenceHub s d) := by
  unfold Sys2Proof.Machine.fenceHub; dsimp only; split
  · exact Keeps.addFault (.up h) _
  · exact h

theorem Keeps.dropRequest (h : Keeps s₀ s) (a b c) : Keeps s₀ (dropRequest s a b c) := by
  unfold Sys2Proof.Machine.dropRequest; dsimp only; repeat' split
  all_goals first | exact h | exact h.setDie _ _ .of

theorem fencedCompletion_keeps (d s) : OutKeeps s (execFencedCompletion d s) := by
  unfold execFencedCompletion
  refine .next (Keeps.fenceHub (Keeps.forDies (fun s e => ?_) (.rfl' s)) _)
  refine .ite (.rfl' s) ?_
  exact Keeps.addFault (Keeps.setDie (.of (.rfl' s)) e _ .of) _

theorem fabricPacketArrive_keeps (a b c d e s) : OutKeeps s (execFabricPacketArrive a b c d e s) := by
  unfold execFabricPacketArrive; dsimp only; split
  · refine .next (Keeps.addFault ?_ _)
    split
    · exact (Keeps.rfl' s).dropRequest ..
    · exact .rfl' s
  · exact .next (.rfl' s)

theorem memResponseTimeout_keeps (d f c s) : OutKeeps s (execMemResponseTimeout d f c s) :=
  .next (.ite ((Keeps.rfl' s).chanFault ..) (.rfl' s))

theorem channelResetEnd_keeps (d f c t s) : OutKeeps s (execChannelResetEnd d f c t s) := by
  unfold execChannelResetEnd; dsimp only; repeat' split
  all_goals first
    | exact .next (.rfl' s)
    | exact .next ((Keeps.rfl' s).setTier d f _ .of)
    | exact .next (((Keeps.rfl' s).failChannel ..).addFault _)

theorem refresh_keeps (d f c r s) : OutKeeps s (execRefresh d f c r s) := by
  unfold execRefresh; dsimp only; split
  · exact .next (.ite ((Keeps.rfl' s).setTier d f _ .of) (.rfl' s))
  · exact .next (.rfl' s)

theorem Keeps.askStop (h : Keeps s₀ s) : Keeps s₀ (askStop s) := .up h

theorem memHot_keeps (a b s) : OutKeeps s (execMemHot a b s) := by
  unfold execMemHot; dsimp only; split
  · exact .next (.rfl' s)
  · split
    · exact .next ((Keeps.rfl' s).railsDown _)
    · split
      · exact .next (.up (Keeps.askStop (.rfl' s)))
      · exact .next (.up (.rfl' s))

theorem clockXchk_keeps (n a b s) : OutKeeps s (execClockXchk n a b s) := by
  unfold execClockXchk; dsimp only; split
  · exact .next (.rfl' s)
  · split
    · exact .next (Keeps.addFault (.up (.rfl' s)) _)
    · exact .next (Keeps.addFault (.ite (.up (.rfl' s)) (.ite (.up (.rfl' s)) (.up (.rfl' s)))) _)

theorem Keeps.switchOsc (h : Keeps s₀ s) : Keeps s₀ (switchOsc s) := .ite (.up h) h
theorem oscSwitch_keeps (s) : OutKeeps s (execOscSwitch s) := .next (.ite (Keeps.rfl' s).switchOsc (.rfl' s))
theorem driftCheck_keeps (p s) : OutKeeps s (execDriftCheck p s) := .next (.ite (.up (.rfl' s)) (.rfl' s))

theorem Keeps.fenceCore (h : Keeps s₀ s) (r) : Keeps s₀ (fenceCore s r) := by
  unfold Sys2Proof.Machine.fenceCore; dsimp only; repeat' split
  all_goals first | exact h | exact h.setDie _ _ .of

theorem Keeps.remap (h : Keeps s₀ s) (d) : Keeps s₀ (remap s d) := (h.rebuildMap d).setDie d _ .of

theorem Keeps.repairStep (h : Keeps s₀ s) (f) : Keeps s₀ (repairStep s f) :=
  Keeps.forDies (fun s d => (Keeps.rfl' s).remap d) (.up (h.foldl (fun s r => (Keeps.rfl' s).fenceCore r) _))

theorem Keeps.holdPages (h : Keeps s₀ s) (d n) : Keeps s₀ (holdPages s d n) := h.setSeq d _ .of
theorem Keeps.reloadPages (h : Keeps s₀ s) (d) : Keeps s₀ (reloadPages s d) := h.holdPages ..
theorem Keeps.zeroCores (h : Keeps s₀ s) (d) : Keeps s₀ (zeroCores s d) := h.setCores d _ (.renew _ _ _ _)

theorem zeroCs_wf (c : Core) (w : c.memWf) : ({ c with cs := [] } : Core).memWf := ⟨rfl, w.2⟩

theorem Keeps.zeroStores (h : Keeps s₀ s) (d) : Keeps s₀ (zeroStores s d) :=
  h.setDie d _ ⟨id, id, (CoresKeep.left (.map zeroCs_wf _) _).trans' (CoresKeep.right (.map zeroCs_wf _) _), id⟩

theorem Keeps.readyDie (h : Keeps s₀ s) (d) : Keeps s₀ (readyDie s d) := (h.reloadPages d).setDie d _ .of

theorem recoveryDone_keeps (f s) : OutKeeps s (execRecoveryDone f s) := by
  unfold execRecoveryDone; split
  · exact .next (.rfl' s)
  · dsimp only
    have h1 : Keeps s (Sys2Proof.Machine.repairStep (Sys2Proof.Machine.writeHeader s) f) :=
      (Keeps.rfl' s).writeHeader.repairStep f
    generalize Sys2Proof.Machine.repairStep (Sys2Proof.Machine.writeHeader s) f = s1 at h1 ⊢
    generalize hx : ({ s1 with faults := { s1.faults with recDone := true } } : State) = s2
    have h2 : Keeps s s2 := by subst hx; exact .up h1
    clear hx
    have h3 := Keeps.forDies (f := Sys2Proof.Machine.zeroStores) (fun s d => (Keeps.rfl' s).zeroStores d) h2
    split
    · exact .next (.ite (Keeps.forDies (fun s d => (Keeps.rfl' s).readyDie d) h3) h3)
    · split
      · exact .next (Keeps.restoreSplit (Keeps.forDies (fun s d => ((Keeps.rfl' s).reloadPages d).zeroCores d) h2) ..)
      · exact .next h2

end Sys2Proof.Machine
end

