-- ==== Sys2Proof/Laws/KeepsCmd.lean ====
section
/-! SUPPORT. What register writes, fuse actions, loading, commands and frames keep. -/
namespace Sys2Proof.Machine
set_option Elab.async false

variable {s₀ s : State}

/-! ### Registers -/

theorem Keeps.budgetSet (h : Keeps s₀ s) (c v) : Keeps s₀ (budgetSet s c v) := .up h
theorem Keeps.envelopeSet (h : Keeps s₀ s) (v) : Keeps s₀ (envelopeSet s v) := .up h

theorem Keeps.ifAdmin (h : Keeps s₀ s) (p) {f : State → State} (hf : Keeps s₀ (f s)) : Keeps s₀ (ifAdmin s p f) :=
  .ite hf (h.ofSec .of)

theorem Keeps.peerRegSet (h : Keeps s₀ s) (e o v) : Keeps s₀ (peerRegSet s e o v) := .up h
theorem Keeps.peerAdminSet (h : Keeps s₀ s) (v) : Keeps s₀ (peerAdminSet s v) := .ite h (h.ofSec .of)

theorem Keeps.peerApply (h : Keeps s₀ s) (w) : Keeps s₀ (peerApply s w) := by
  unfold Sys2Proof.Machine.peerApply; dsimp only
  exact .ite (h.setPeer ..) (.ite (.up (h.setPeer ..)) (.ite (h.setPeer ..) (h.setPeer ..)))

theorem Keeps.peersApply (h : Keeps s₀ s) : Keeps s₀ (peersApply s) :=
  .up (Keeps.foldl (fun s w => (Keeps.rfl' s).peerApply w) _ h)

theorem Keeps.fuseDone (h : Keeps s₀ s) (b) : Keeps s₀ (fuseDone s b) := .ite (h.ofSec .of) (h.ofSec .of)

/-- The rollback counter raised. -/
theorem SecKeeps.rollback (x : Sec) (n : Nat) (h : x.rollback ≤ 64 → x.rollback ≤ n ∧ n ≤ 64) :
    SecKeeps x { x with rollback := n } := ⟨⟨h, fun _ q => q, fun q => q, rfl, rfl, rfl, rfl, rfl⟩, id, id⟩

theorem Keeps.advanceFuse (h : Keeps s₀ s) (b) : Keeps s₀ (advanceFuse s b) := by
  unfold Sys2Proof.Machine.advanceFuse
  refine .ite (h.fuseDone _) ?_
  split
  · exact h.fuseDone _
  · rename_i hr
    refine .ite (Keeps.fuseDone (h.ofSec (.rollback _ (min s.sec.secVerRun 64) fun q => ?_)) _) ?_
    · omega
    · dsimp only
      refine Keeps.fuseDone (h.draw.ofSec (.rollback _ (min (s.sec.rollback + _) 64) fun q => ?_)) _
      have : s.draw.2.sec = s.sec := rfl
      rw [this] at q ⊢
      omega

theorem Keeps.revokeFuse (h : Keeps s₀ s) (i b) : Keeps s₀ (revokeFuse s i b) := by
  unfold Sys2Proof.Machine.revokeFuse
  refine .ite (h.fuseDone _) (.ite (Keeps.fuseDone (h.ofSec ?_) _) (h.fuseDone _))
  refine ⟨⟨fun q => ⟨le_rfl, q⟩, fun j q => ?_, fun q => q, rfl, rfl, rfl, rfl, rfl⟩, id, id⟩
  have q' : s.sec.revoked[j.val] = true := q
  simp only [Fin.getElem_fin, Vector.getElem_set, q']
  split <;> rfl

theorem Keeps.lockFuse (h : Keeps s₀ s) (b) : Keeps s₀ (lockFuse s b) := by
  unfold Sys2Proof.Machine.lockFuse
  refine .ite (h.fuseDone _) (.ite (Keeps.fuseDone (h.ofSec ?_) _) (h.fuseDone _))
  exact ⟨⟨fun q => ⟨le_rfl, q⟩, fun _ q => q, fun _ => rfl, rfl, rfl, rfl, rfl, rfl⟩, id, id⟩

theorem Keeps.secCtl (h : Keeps s₀ s) (v) : Keeps s₀ (secCtl s v) := by
  unfold Sys2Proof.Machine.secCtl; extract_lets go
  have hg : ∀ b f s, (∀ s r, Keeps s (f s r)) → Keeps s (go b f s) := by
    intro b f s hf
    exact .ite ((Keeps.rfl' s).draw.trans (hf _ _)) (.rfl' s)
  refine h.trans (.trans ?_ (hg 3 _ _ fun s r => (Keeps.rfl' s).lockFuse r))
  refine .trans ?_ (hg 2 _ _ fun s r => (Keeps.rfl' s).revokeFuse 1 r)
  refine .trans ?_ (hg 1 _ _ fun s r => (Keeps.rfl' s).revokeFuse 0 r)
  exact hg 0 _ _ fun s r => (Keeps.rfl' s).advanceFuse r

theorem Keeps.wsetReject (h : Keeps s₀ s) (c) : Keeps s₀ (wsetReject s c) := .up h
theorem Keeps.wsetStartWrite (h : Keeps s₀ s) : Keeps s₀ (wsetStartWrite s) :=
  .ite (h.wsetReject _) (.ite (h.wsetReject _) (.up h))

theorem Keeps.wsetBegin (h : Keeps s₀ s) : Keeps s₀ (wsetBegin s) := by
  unfold Sys2Proof.Machine.wsetBegin; extract_lets r s1 n l s2
  have h1 : Keeps s₀ s1 := .up h
  clear_value s1
  have h2 : Keeps s₀ s2 := h1.touchRange _ _
  clear_value s2
  exact .ite h (.ite (h1.wsetReject _) (.ite (h2.wsetReject _) (.ite (h2.wsetReject _) (.up h2))))

theorem Keeps.cfgSet (h : Keeps s₀ s) (f) : Keeps s₀ (cfgSet s f) := .up h

theorem Keeps.writeLaps (h : Keeps s₀ s) (o v) : Keeps s₀ (writeLaps s o v) := by
  unfold Sys2Proof.Machine.writeLaps
  exact .ite (.up h) (.ite (.up h) (.ite (.up h) (.ite (h.envelopeSet v) (.ite (.up h) (.ite (h.budgetSet ..) h)))))

theorem Keeps.writeRun (h : Keeps s₀ s) (o v) : Keeps s₀ (writeRun s o v) := by
  unfold Sys2Proof.Machine.writeRun; dsimp only
  exact .ite (.up h) (.ite (.up h) (.ite (.up h) (.ite (.up h) (.ite (.up h)
    (.ite (.ite (Keeps.wsetStartWrite (.up h)) (.up h)) (.ite (.up h) h))))))

theorem Keeps.writeFaults (h : Keeps s₀ s) (o v) : Keeps s₀ (writeFaults s o v) := by
  unfold Sys2Proof.Machine.writeFaults; dsimp only
  have h1 : Keeps s₀ ({ s with split := { s.split with enable := bitAt v 0, autoResume := bitAt v 1 } } : State) := .up h
  have h2 := Keeps.ite (c := bitAt v 2 = true) h1.verifyWrite h1
  exact .ite (.ite h.popFault h) (.ite (.up h) (.ite (.up h) (.ite (.ite (.up h) h)
    (.ite (.ite h2.cancelDrain h2) (.ite (.up h) (.ite (.up h) (.ite (.up h) (.ite (.up h) (.ite (.up h)
      (.ite (.up h) h))))))))))

theorem Keeps.writeNet (h : Keeps s₀ s) (p o v) : Keeps s₀ (writeNet s p o v) := by
  unfold Sys2Proof.Machine.writeNet; dsimp only
  exact .ite (h.cfgSet _) (.ite (h.cfgSet _) (.ite (h.cfgSet _) (.ite (h.cfgSet _) (.ite (h.cfgSet _)
    (.ite (h.cfgSet _) (.ite (.up h) (.ite (h.ifAdmin _ (h.peerRegSet ..)) h)))))))

theorem Keeps.writeSec (h : Keeps s₀ s) (p o v) : Keeps s₀ (writeSec s p o v) :=
  h.ifAdmin _ (.ite (h.secCtl _) (.ite (h.peerAdminSet _) (.ite (h.ofSec .of) h)))

theorem Keeps.writeDie (h : Keeps s₀ s) (d o v) : Keeps s₀ (writeDie s d o v) := .ite (h.setDie d _ .of) h

theorem Keeps.ctlWrite (h : Keeps s₀ s) {p a v t} (ht : ctlWrite s p a v = some t) : Keeps s₀ t := by
  unfold Sys2Proof.Machine.ctlWrite at ht
  split at ht
  · cases ht
  · dsimp only at ht
    injection ht with ht
    subst ht
    exact .ite (.ite (.up h) h) (.ite (h.writeLaps ..) (.ite (h.writeRun ..) (.ite (h.writeFaults ..)
      (.ite (h.writeNet ..) (.ite (h.writeSec ..) (.ite (.ite (.up h) h) (h.writeDie ..)))))))

theorem budgetWrite_keeps (p c v s) : OutKeeps s (execBudgetWrite p c v s) := .atCut fun s => (Keeps.rfl' s).budgetSet ..
theorem envelopeWrite_keeps (p v s) : OutKeeps s (execEnvelopeWrite p v s) := .atCut fun s => (Keeps.rfl' s).envelopeSet _
theorem peerCfgWrite_keeps (p e v s) : OutKeeps s (execPeerCfgWrite p e v s) :=
  .atCut fun s => (Keeps.rfl' s).ifAdmin _ ((Keeps.rfl' s).peerRegSet ..)
theorem peerAdminWrite_keeps (p v s) : OutKeeps s (execPeerAdminWrite p v s) :=
  .atCut fun s => (Keeps.rfl' s).ifAdmin _ ((Keeps.rfl' s).peerAdminSet _)
theorem advance_keeps (p b s) : OutKeeps s (execAdvance p b s) :=
  .atCut fun s => (Keeps.rfl' s).ifAdmin _ ((Keeps.rfl' s).advanceFuse _)
theorem revoke0_keeps (p b s) : OutKeeps s (execRevoke0 p b s) :=
  .atCut fun s => (Keeps.rfl' s).ifAdmin _ ((Keeps.rfl' s).revokeFuse ..)
theorem revoke1_keeps (p b s) : OutKeeps s (execRevoke1 p b s) :=
  .atCut fun s => (Keeps.rfl' s).ifAdmin _ ((Keeps.rfl' s).revokeFuse ..)
theorem lockService_keeps (p b s) : OutKeeps s (execLockService p b s) :=
  .atCut fun s => (Keeps.rfl' s).ifAdmin _ ((Keeps.rfl' s).lockFuse _)
theorem wsetStart_keeps (p s) : OutKeeps s (execWsetStart p s) := .atCut fun s => (Keeps.rfl' s).wsetStartWrite

theorem wsetDigestDone_keeps (s) : OutKeeps s (execWsetDigestDone s) := by
  unfold execWsetDigestDone; split
  · exact .next (.rfl' s)
  · exact .next (.up (.rfl' s))

theorem registerWrite_keeps (p a v s) : OutKeeps s (execRegisterWrite p a v s) := by
  refine .atCut fun s => ?_
  cases ht : Sys2Proof.Machine.ctlWrite s p a.toNat v.toNat with
  | none => exact .rfl' s
  | some t => exact (Keeps.rfl' s).ctlWrite ht

/-! ### Loading -/

theorem Keeps.setStates (h : Keeps s₀ s) (v) : Keeps s₀ (setStates s v) :=
  Keeps.forDies (fun s d => (Keeps.rfl' s).setDie d _ .of) h

theorem Keeps.startLoad (h : Keeps s₀ s) (a) : Keeps s₀ (startLoad s a) := by
  unfold Sys2Proof.Machine.startLoad; extract_lets p cs s1 r s2
  have h1 : Keeps s₀ s1 := h.touchRange _ _
  clear_value s1
  have h2 : Keeps s₀ s2 := .up h1
  clear_value s2
  exact Keeps.forDies (fun s d => Keeps.holdPages ((Keeps.rfl' s).setDie d _ .of) ..) h2

theorem loadDone_keeps (d s) : OutKeeps s (execLoadDone d s) := by
  unfold execLoadDone
  cases s.run.loadCodes[d.val]? with
  | none => exact .next (.rfl' s)
  | some c =>
    dsimp only
    split
    · exact .next (.rfl' s)
    · generalize hx : s.setDie d _ = s1
      have h1 : Keeps s s1 := by subst hx; exact (Keeps.rfl' s).setDie d _ .of
      clear hx
      split <;> split
      · exact .next (.up (h1.holdPages ..))
      · exact .next (h1.holdPages ..)
      · exact .next (.up h1)
      · exact .next h1

theorem residentReloadDone_keeps (d s) : OutKeeps s (execResidentReloadDone d s) := by
  unfold execResidentReloadDone; split
  · exact .next (((Keeps.rfl' s).reloadPages d).setDie d _ .of)
  · exact .next (.rfl' s)

/-! ### Commands -/

theorem Keeps.queueReply (h : Keeps s₀ s) (p c b) : Keeps s₀ (queueReply s p c b) := .up h
theorem Keeps.replyAt (h : Keeps s₀ s) (n p c b) : Keeps s₀ (replyAt s n p c b) := .up h
theorem Keeps.answer (h : Keeps s₀ s) (r c t) : Keeps s₀ (answer s r c t) := h.queueReply ..
theorem Keeps.respondReply (h : Keeps s₀ s) (r c t u) : Keeps s₀ (respondReply s r c t u) := h.sendPayload ..
theorem Keeps.doPing (h : Keeps s₀ s) (r) : Keeps s₀ (doPing s r) := h.answer ..

theorem Keeps.doLoad (h : Keeps s₀ s) (r a) : Keeps s₀ (doLoad s r a) :=
  .ite (h.answer ..) (.ite (h.answer ..) ((h.startLoad a).answer ..))

theorem Keeps.doRun (h : Keeps s₀ s) (r p q b) : Keeps s₀ (doRun s r p q b) :=
by
  unfold Sys2Proof.Machine.doRun; extract_lets r s' k c s1 ps l1 s2 a
  have h0 : Keeps s₀ s' := .up h
  clear_value s'
  have h1 : Keeps s₀ s1 := (h0.touchRange _ _).touchRange _ _
  clear_value s1
  have h2 : Keeps s₀ s2 := .up h1
  clear_value s2
  exact .ite (h0.answer ..) (.ite (h0.answer ..) (.up h2))

theorem Keeps.doResume (h : Keeps s₀ s) (r) : Keeps s₀ (doResume s r) :=
  .ite (.answer (.up h) ..) (.ite (.answer (.up h) ..) (h.answer ..))

theorem Keeps.doStop (h : Keeps s₀ s) (r) : Keeps s₀ (doStop s r) := .ite (.answer (.up h) ..) (h.answer ..)

theorem Keeps.doAttest (h : Keeps s₀ s) (r n) : Keeps s₀ (doAttest s r n) := (h.attestReport _).queueReply ..
theorem Keeps.doCommit (h : Keeps s₀ s) (r) : Keeps s₀ (doCommit s r) := h.answer ..
theorem Keeps.doUnknown (h : Keeps s₀ s) (r c) : Keeps s₀ (doUnknown s r c) := h.answer ..

theorem Keeps.responderCommit (h : Keeps s₀ s) (r n) : Keeps s₀ (responderCommit s r n) := by
  unfold Sys2Proof.Machine.responderCommit
  cases verifyImage s.sec s.sec.staging true with
  | inl r => exact h.respondReply ..
  | inr _ => exact h.ofSec .of

theorem Keeps.stageImage (h : Keeps s₀ s) (b) : Keeps s₀ (stageImage s b) :=
  .ite h (h.ofSec (.of (h8 := fun w => memWrite_wf w _ _)))

theorem Keeps.command (h : Keeps s₀ s) {f g : State → State} (hf : Keeps s₀ (f s)) (hg : Keeps s₀ (g s)) :
    Keeps s₀ (command s f g) := .ite hg (.ite hf h)

theorem Keeps.unlessCommit (h : Keeps s₀ s) {g : State → State} (hg : Keeps s₀ (g s)) : Keeps s₀ (unlessCommit g s) :=
  .ite h hg

theorem ping_keeps (r s) : OutKeeps s (execPing r s) :=
  .next ((Keeps.rfl' s).command ((Keeps.rfl' s).doPing _) ((Keeps.rfl' s).respondReply ..))
theorem load_keeps (r a s) : OutKeeps s (execLoad r a s) :=
  .next ((Keeps.rfl' s).command ((Keeps.rfl' s).doLoad ..) (.rfl' s))
theorem run_keeps (r a b c s) : OutKeeps s (execRun r a b c s) :=
  .next ((Keeps.rfl' s).command ((Keeps.rfl' s).doRun ..) (.rfl' s))
theorem resume_keeps (r s) : OutKeeps s (execResume r s) :=
  .next ((Keeps.rfl' s).command ((Keeps.rfl' s).doResume _) (.rfl' s))
theorem stop_keeps (r s) : OutKeeps s (execStop r s) :=
  .next ((Keeps.rfl' s).command ((Keeps.rfl' s).doStop _) (.rfl' s))
theorem reset_keeps (r s) : OutKeeps s (execReset r s) :=
  .next ((Keeps.rfl' s).command ((Keeps.rfl' s).moduleReset _) ((Keeps.rfl' s).unlessCommit ((Keeps.rfl' s).moduleReset _)))
theorem attest_keeps (r n s) : OutKeeps s (execAttest r n s) :=
  .next ((Keeps.rfl' s).command ((Keeps.rfl' s).doAttest ..) (.rfl' s))
theorem recoverCommit_keeps (r n s) : OutKeeps s (execRecoverCommit r n s) :=
  .next ((Keeps.rfl' s).command ((Keeps.rfl' s).doCommit _) ((Keeps.rfl' s).unlessCommit ((Keeps.rfl' s).responderCommit ..)))

theorem unknownCommand_keeps (r c s) : OutKeeps s (execUnknownCommand r c s) := by
  unfold execUnknownCommand; split
  · exact .refused
  · exact .next ((Keeps.rfl' s).command ((Keeps.rfl' s).doUnknown ..) (.rfl' s))

theorem flashProgramDone_keeps (s) : OutKeeps s (execFlashProgramDone s) := by
  unfold execFlashProgramDone
  generalize (if s.sec.responder = true then s.sec.commit else none) = o
  cases o with
  | none => exact .next (.rfl' s)
  | some y =>
    obtain ⟨r, n⟩ := y
    dsimp only
    generalize memRead s.sec.staging 0 (min n 0x1000000) = img
    generalize hf : memWrite (memClear s.sec.flash 0 0x1000000) 0 img = fl
    have h1 : Keeps s ({ s with sec := { s.sec with flash := fl, commit := none } } : State) :=
      (Keeps.rfl' s).ofSec (.of (h7 := fun w => by subst hf; exact memWrite_wf (memClear_wf w _ _) _ _))
    clear hf
    split
    · exact .next (h1.respondReply ..)
    · exact .next ((h1.respondReply ..).moduleReset _)

/-! ### Frames -/

theorem Keeps.takeDrop (h : Keeps s₀ s) (b) : Keeps s₀ (takeDrop s b).1 := (h.netEvent b).rxDrop
theorem Keeps.overBudget (h : Keeps s₀ s) : Keeps s₀ (overBudget s).1 := h.pacerEvent 1
theorem Keeps.chargeIngress (h : Keeps s₀ s) (p n) : Keeps s₀ (chargeIngress s p n) := .up (h.setPeer ..)

theorem Keeps.takeData (h : Keeps s₀ s) (f p) : Keeps s₀ (takeData f s p).1 := by
  unfold Sys2Proof.Machine.takeData; dsimp only
  refine .ite₁ h.overBudget ?_
  split
  · exact h.takeDrop _
  · split
    · exact h.takeDrop _
    · refine .ite₁ (h.takeDrop _) (.ite₁ (h.netEvent _) (.ite₁ h.overBudget ?_))
      exact .up (h.chargeIngress ..)

theorem dataFrame_keeps (f s) : OutKeeps s (execDataFrame f s) :=
  .next ((Keeps.rfl' s).receive _ _ _ fun s p => (Keeps.rfl' s).takeData f p)

theorem Keeps.unloadIf (h : Keeps s₀ s) (a n) : Keeps s₀ (unloadIf s a n) := by
  unfold Sys2Proof.Machine.unloadIf
  cases imageRange s with
  | none => exact h
  | some r => exact .ite (Keeps.setStates (.up h) _) h

theorem Keeps.directWrite (h : Keeps s₀ s) (a bs) : Keeps s₀ (directWrite s a bs) := by
  unfold Sys2Proof.Machine.directWrite; split
  · exact h.raiseHub _
  · exact h.devWrite ..

theorem Keeps.takeDirect (h : Keeps s₀ s) (f p) : Keeps s₀ (takeDirect f s p).1 :=
  .ite₁ (h.takeDrop _) (.ite₁ h.overBudget (.ite₁ (h.takeDrop _) (.ite₁ h.overBudget
    (((h.chargeIngress ..).unloadIf ..).directWrite ..))))

theorem directWrite_keeps (f s) : OutKeeps s (execDirectWrite f s) :=
  .next ((Keeps.rfl' s).receive _ _ _ fun s p => (Keeps.rfl' s).takeDirect f p)

theorem Keeps.respAccept (h : Keeps s₀ s) (f c) : Keeps s₀ (respAccept s f c).1 := by
  unfold Sys2Proof.Machine.respAccept
  refine .ite₁ h ?_
  extract_lets s1 x
  have h1 : Keeps s₀ s1 := .ite (h.bindPeer ..) h
  clear_value s1
  refine .ite₁ h ?_
  split
  · exact .up ((h1.seqTake ..).takeAck ..)
  · exact h1.seqAgain ..
  · exact h

theorem recoveryDirectWrite_keeps (f s) : OutKeeps s (execRecoveryDirectWrite f s) := by
  unfold execRecoveryDirectWrite; split
  · exact .next (.rfl' s)
  · have h1 := (Keeps.rfl' s).respAccept f 1
    exact .next (.ite (h1.stageImage _) h1)

theorem Keeps.respCommand (h : Keeps s₀ s) (f) : Keeps s₀ (respCommand s f) := by
  unfold Sys2Proof.Machine.respCommand; extract_lets code busy r req
  refine .ite h ?_
  have h1 := h.respAccept f 0
  exact .ite h1 (.ite (h1.respondReply ..) (.ite (h1.moduleReset _) (h1.responderCommit ..)))

theorem Keeps.takeCommand (h : Keeps s₀ s) (f p) : Keeps s₀ (takeCommand f s p).1 := .ite₁ (h.takeDrop _) (.up h)

theorem commandFrame_keeps (f s) : OutKeeps s (execCommandFrame f s) := by
  unfold execCommandFrame; split
  · exact .next (.ite ((Keeps.rfl' s).respCommand f) (.rfl' s))
  · exact .next ((Keeps.rfl' s).receive _ _ _ fun s p => (Keeps.rfl' s).takeCommand f p)

theorem Keeps.doCommand (h : Keeps s₀ s) (b) : Keeps s₀ (doCommand s b) := by
  unfold Sys2Proof.Machine.doCommand; dsimp only; split
  · exact h.doPing _
  · exact h.doLoad ..
  · exact h.doRun ..
  · exact h.doResume _
  · exact h.doStop _
  · exact h.doAttest ..
  · exact h.doCommit _
  · exact h.doUnknown ..

theorem Keeps.doCommands (h : Keeps s₀ s) (l) : Keeps s₀ (doCommands l s).1 := by
  induction l generalizing s with
  | nil => exact h
  | cons b l ih =>
    exact .ite₁ h (ih (h.doCommand _))

theorem Keeps.takeMgmt (h : Keeps s₀ s) (f p) : Keeps s₀ (takeMgmt f s p).1 := .ite₁ (h.takeDrop _) (.up h)

theorem managementFrame_keeps (f s) : OutKeeps s (execManagementFrame f s) :=
  .next ((Keeps.rfl' s).receive _ _ _ fun s p => (Keeps.rfl' s).takeMgmt f p)

theorem Keeps.mgmtOp (h : Keeps s₀ s) {p o x} (hx : mgmtOp s p o = some x) : Keeps s₀ x.1 := by
  unfold Sys2Proof.Machine.mgmtOp at hx; dsimp only at hx
  split at hx
  · split at hx
    · rename_i s1 hc
      injection hx with hx; subst hx
      split at hc
      · cases hc
      · exact h.ctlWrite hc
    · injection hx with hx; subst hx; exact h
  · split at hx
    · cases hx
    · split at hx <;> (injection hx with hx; subst hx; exact .up h)

theorem Keeps.mgmtRun (h : Keeps s₀ s) (p l r) : Keeps s₀ (mgmtRun p l r s).1 := by
  induction l generalizing r s with
  | nil => exact h
  | cons o l ih =>
    unfold Sys2Proof.Machine.mgmtRun
    cases hx : Sys2Proof.Machine.mgmtOp s p o with
    | none => exact h.pacerEvent 2
    | some x => exact ih (h.mgmtOp hx) _

theorem Keeps.mgmtFrames (h : Keeps s₀ s) (l) : Keeps s₀ (mgmtFrames l s).1 := by
  induction l generalizing s with
  | nil => exact h
  | cons b l ih =>
    unfold Sys2Proof.Machine.mgmtFrames; dsimp only
    have h1 := h.mgmtRun b.peer b.todo b.done
    exact .ite₁ h (.ite₁ (ih (h1.queueReply ..)) h1)

theorem Keeps.doMgmt (h : Keeps s₀ s) : Keeps s₀ (doMgmt s) := .up (h.mgmtFrames _)

theorem mgmtReadDeferred_keeps (s) : OutKeeps s (execMgmtReadDeferred s) :=
  .next (.ite (Keeps.rfl' s).doMgmt (.rfl' s))

end Sys2Proof.Machine
end

