-- ==== Sys2Proof/Laws/KeepsLaps.lean ====
section
/-! SUPPORT. What the end of a lap, the cut, power, bring-up and the clock keep. -/
namespace Sys2Proof.Machine
set_option Elab.async false

variable {s₀ s : State}

/-! ### The close of a lap -/

theorem Keeps.overrunDies (h : Keeps s₀ s) : Keeps s₀ (overrunDies s) :=
  Keeps.forDies (fun s _ => .ite (.rfl' s) ((Keeps.rfl' s).raiseDie ..)) h

theorem lapOverrun_keeps (s) : OutKeeps s (execLapOverrun s) := by
  unfold execLapOverrun; split
  · exact .next (.up (Keeps.rfl' s).overrunDies)
  · exact .next (.rfl' s)

theorem earlyClose_keeps (s) : OutKeeps s (execEarlyClose s) := by
  unfold execEarlyClose; split
  · dsimp only; split
    · exact .next (.up ((Keeps.rfl' s).addTdc 0 1))
    · exact .next (.rfl' s)
  · exact .next (.rfl' s)

theorem Keeps.scrub (h : Keeps s₀ s) : Keeps s₀ (scrub s) :=
  Keeps.forDies (fun s _ => (Keeps.rfl' s).foldl (fun s _ =>
    (Keeps.rfl' s).foldl (fun s _ => (Keeps.rfl' s).coreFault ..) _) _) h

theorem Keeps.judgeSlots (h : Keeps s₀ s) : Keeps s₀ (judgeSlots s) := .ite (h.raiseHub _) h

theorem Keeps.judgeLeaves (h : Keeps s₀ s) : Keeps s₀ (judgeLeaves s) :=
  .ite (Keeps.raiseHub (.up h) _) (.up h)

theorem lapVerdict_keeps (s) : OutKeeps s (execLapVerdict s) := by
  unfold execLapVerdict; split
  · have h1 := (Keeps.rfl' s).scrub.judgeStep.judgeSlots.judgeLeaves
    generalize Sys2Proof.Machine.judgeLeaves _ = t at h1 ⊢
    exact .next (.up h1)
  · exact .next (.rfl' s)

theorem Keeps.commitCounts (h : Keeps s₀ s) : Keeps s₀ (commitCounts s) := .up h

theorem Keeps.releaseRecords (h : Keeps s₀ s) : Keeps s₀ (releaseRecords s) := by
  unfold Sys2Proof.Machine.releaseRecords
  split
  · exact h
  · extract_lets l c s1
    have hc : Keeps s₀ c.2 := by
      unfold c; split
      · exact h.certFrames
      · exact h
    have h1 : Keeps s₀ s1 := hc.queueRecords _
    clear_value s1
    exact .up h1

theorem Keeps.closeSlots (h : Keeps s₀ s) : Keeps s₀ (closeSlots s) := .up h

theorem Keeps.passLap (h : Keeps s₀ s) : Keeps s₀ (passLap s) := by
  unfold Sys2Proof.Machine.passLap; extract_lets s1 s2 s3 s4
  have h1 : Keeps s₀ s1 := h.commitCounts
  have h2 : Keeps s₀ s2 := .ite h1.releaseEgress h1
  have h3 : Keeps s₀ s3 := h2.releaseRecords
  have h4 : Keeps s₀ s4 := .ite h3.commitSlots (.ite h3.closeSlots h3)
  clear_value s4
  exact .up h4

theorem Keeps.abortDie (h : Keeps s₀ s) (d) : Keeps s₀ (abortDie s d) := h.setDie d _ ⟨id, id, id, id⟩

theorem Keeps.abortLap (h : Keeps s₀ s) : Keeps s₀ (abortLap s) := by
  unfold Sys2Proof.Machine.abortLap; dsimp only
  have h1 := Keeps.forDies (fun s d => (Keeps.rfl' s).abortDie d) h.settleAtoms
  generalize Sys2Proof.Machine.forDies Sys2Proof.Machine.abortDie (Sys2Proof.Machine.settleAtoms s) = s1 at h1 ⊢
  exact .up h1

theorem Keeps.lapDieRegs (h : Keeps s₀ s) (d) : Keeps s₀ (lapDieRegs s d) := h.setDie d _ .of

theorem Keeps.lapRegs (h : Keeps s₀ s) : Keeps s₀ (lapRegs s) :=
  .up (Keeps.forDies (fun s d => (Keeps.rfl' s).lapDieRegs d) h)

theorem Keeps.commitLap (h : Keeps s₀ s) : Keeps s₀ (commitLap s) :=
  .ite h (.up (.ite h.lapRegs.abortLap h.lapRegs.passLap))

/-! ### Which lap opens -/

theorem mem_joinRows {n m k : Nat} {cs rest : List Core} {c : Core} (h : c ∈ joinRows n m k cs rest) :
    c ∈ cs ∨ c ∈ rest := by
  induction k generalizing cs rest with
  | zero => exact .inr h
  | succ k ih =>
    simp only [joinRows, List.mem_append] at h
    rcases h with (q | q) | q
    · exact .inl (List.mem_of_mem_take q)
    · exact .inr (List.mem_of_mem_take q)
    · exact (ih q).imp List.mem_of_mem_drop List.mem_of_mem_drop

theorem DieKeeps.wholeGrid (n m x) : DieKeeps x (wholeGrid n m x) := by
  unfold Sys2Proof.Machine.wholeGrid; split
  · refine ⟨id, id, fun w c hc => ?_, id⟩
    exact w c (List.mem_append.mpr (mem_joinRows (by simpa using hc)))
  · exact .rfl' x

theorem Keeps.idleDie (h : Keeps s₀ s) (d) : Keeps s₀ (idleDie s d) :=
  h.setDie d _ ((DieKeeps.wholeGrid _ _ _).trans ⟨id, id, id, .init _⟩)

theorem Keeps.endRun (h : Keeps s₀ s) (r c) : Keeps s₀ (endRun s r c) := by
  unfold Sys2Proof.Machine.endRun
  cases s.run.run with
  | none => exact h
  | some r =>
    dsimp only
    have h1 := Keeps.forDies (fun s d => (Keeps.rfl' s).idleDie d) h.settleAtoms
    generalize Sys2Proof.Machine.forDies Sys2Proof.Machine.idleDie (Sys2Proof.Machine.settleAtoms s) = s1 at h1 ⊢
    exact .up h1

theorem Keeps.stopRun (h : Keeps s₀ s) : Keeps s₀ (stopRun s) := by
  unfold Sys2Proof.Machine.stopRun
  cases splitCfgOf s with
  | none => exact h.endRun ..
  | some k => exact Keeps.endRun (.ite (h.takeSplit ..) h) ..

theorem controlledStop_keeps (s) : OutKeeps s (execControlledStop s) := by
  unfold execControlledStop; split
  · exact .next (.ite (.rfl' s) (Keeps.rfl' s).commitLap.stopRun)
  · exact .next (.rfl' s)

theorem Keeps.startDie (h : Keeps s₀ s) (n p d) : Keeps s₀ (startDie n p s d) :=
  h.setDie d _ ⟨id, id, fun _ c hc => (List.mem_append.mp hc).elim (freshCore_wf _ _ _ c) (freshCore_wf _ _ _ c),
    fun _ i => by simp [Seq.init, Fin.getElem_fin]⟩

theorem Keeps.restoreOnRun (h : Keeps s₀ s) (k) : Keeps s₀ (restoreOnRun s k) := .up (h.restoreSplit ..)

theorem Keeps.openBudgets (h : Keeps s₀ s) (b) : Keeps s₀ (openBudgets s b) := .up h

theorem Keeps.runStart (h : Keeps s₀ s) (a) : Keeps s₀ (runStart s a) := by
  unfold Sys2Proof.Machine.runStart; extract_lets m src k s1 hdr g1 g2 g3 g4 g5 g6 g7 s2
  have h1 : Keeps s₀ s1 := Keeps.forDies (fun s d => (Keeps.rfl' s).startDie ..) h
  clear_value s1 hdr
  have h2 : Keeps s₀ s2 := h1.of
  clear_value s2
  split
  · exact h2
  · exact .ite (h2.restoreOnRun _) (h2.takeSplit0 ..)

theorem Keeps.recoveryOver (h : Keeps s₀ s) : Keeps s₀ (recoveryOver s) := .up h

theorem Keeps.resumeRun (h : Keeps s₀ s) : Keeps s₀ (resumeRun s) := .up h.recoveryOver

theorem Keeps.afterRun (h : Keeps s₀ s) (i) : Keeps s₀ (afterRun s i) := .ite (.up h) (.up h)
theorem Keeps.beginRecovery (h : Keeps s₀ s) : Keeps s₀ (beginRecovery s) := .up h

theorem Keeps.dueAll (h : Keeps s₀ s) (d) : Keeps s₀ (dueAll s d) := (h.holdPages _ _).setDie d _ .of

theorem Keeps.openRecovery (h : Keeps s₀ s) : Keeps s₀ (openRecovery s) := by
  unfold Sys2Proof.Machine.openRecovery; extract_lets t
  have h1 : Keeps s₀ t := h.beginRecovery
  clear_value t
  exact .ite (Keeps.forDies (fun s d => (Keeps.rfl' s).dueAll d) h1) h1

theorem Keeps.afterRunLap (h : Keeps s₀ s) : Keeps s₀ (afterRunLap s) := by
  unfold Sys2Proof.Machine.afterRunLap; extract_lets f s0 s1
  have h0 : Keeps s₀ s0 := .up h
  have h1 : Keeps s₀ s1 := h0.splitAtCut ..
  clear_value s1 s0
  refine .ite ((h0.endRun ..).afterRun _) (.ite (h0.stopRun.afterRun _) ?_)
  exact .up h1

theorem Keeps.afterRecovery (h : Keeps s₀ s) : Keeps s₀ (afterRecovery s) := by
  unfold Sys2Proof.Machine.afterRecovery
  refine .ite (.ite (h.recoveryOver.afterRun _) h) ?_
  cases recOutcome s with
  | some r => exact .ite ((h.endRun ..).recoveryOver.afterRun _) h
  | none =>
    refine .ite ?_ (.ite h ?_)
    · extract_lets s1
      have h1 : Keeps s₀ s1 := h.endRun ..
      clear_value s1
      exact .ite (h1.recoveryOver.afterRun _) (.up h1)
    · exact .ite (Keeps.resumeRun (.up h)) (.ite (Keeps.resumeRun (.up h)) h)

theorem Keeps.nextLap (h : Keeps s₀ s) : Keeps s₀ (nextLap s) := by
  unfold Sys2Proof.Machine.nextLap
  refine .ite h.openRecovery (.ite h.afterRecovery (.ite ?_ (.ite h.afterRunLap (h.afterRun _))))
  cases s.run.admission with
  | none => exact h
  | some a => exact .ite (h.runStart a) h

/-! ### Opening a lap -/

theorem Keeps.lapDie (h : Keeps s₀ s) (d) : Keeps s₀ (lapDie s d) :=
  h.setDie d _ ⟨id, id, CoresKeep.left (.map (f := lapCore) (fun _ w => w) _) _, id⟩

theorem Keeps.openNet (h : Keeps s₀ s) (b) : Keeps s₀ (openNet s b) := .ite (.up h.peersApply) h.peersApply
theorem Keeps.freshLap (h : Keeps s₀ s) : Keeps s₀ (freshLap s) := .up h

theorem Keeps.resumeAsync (h : Keeps s₀ s) : Keeps s₀ (resumeAsync s) :=
  .ite (Keeps.forDies (fun s _ => ((Keeps.rfl' s).grantAll ..).grantAll ..) h) h

theorem Keeps.openLap (h : Keeps s₀ s) (b) : Keeps s₀ (openLap s b) := by
  unfold Sys2Proof.Machine.openLap; extract_lets s1 s2 s3
  have h2 : Keeps s₀ s2 := Keeps.forDies (fun s d => (Keeps.rfl' s).lapDie d)
    (Keeps.forDies (fun s d => (Keeps.rfl' s).endDieReset d) ((h.openBudgets b).openNet b).switchOsc.freshLap)
  exact Keeps.resumeAsync (.ite h2.verifyBegin.wsetBegin h2)

theorem Keeps.stageWrite (h : Keeps s₀ s) (a b) : Keeps s₀ (stageWrite s a b) :=
  .ite (h.raiseHub _) (.ite (h.raiseHub _) (h.devWrite ..))

theorem Keeps.stageOne {y : State × List Nat × List Nat} (h : Keeps s₀ y.1) (r x) : Keeps s₀ (stageOne r y x).1 := by
  unfold Sys2Proof.Machine.stageOne
  split
  · exact h
  · split
    · exact h
    · exact (h.stageWrite ..).stageWrite ..

theorem Keeps.stageIngress (h : Keeps s₀ s) : Keeps s₀ (stageIngress s) := by
  unfold Sys2Proof.Machine.stageIngress
  split
  · exact h
  · rename_i r _
    exact Keeps.foldl₁ (fun y x => (Keeps.rfl' y.1).stageOne r x) _ h

theorem Keeps.presentIngress (h : Keeps s₀ s) : Keeps s₀ (presentIngress s) := by
  unfold Sys2Proof.Machine.presentIngress
  split
  · exact h
  · extract_lets l die n1 s1 n
    have h1 : Keeps s₀ s1 := .up h
    clear_value s1
    exact .ite h1 (h1.addTdc ..)

theorem Keeps.grantPeer {y : State × Nat} (h : Keeps s₀ y.1) (p) : Keeps s₀ (grantPeer y p).1 := by
  unfold Sys2Proof.Machine.grantPeer; dsimp only
  exact .ite₁ ((h.setPeer ..).sendCredit _) h

theorem Keeps.grantCredits (h : Keeps s₀ s) : Keeps s₀ (grantCredits s) :=
  Keeps.foldl₁ (fun y p => (Keeps.rfl' y.1).grantPeer p) _ h

theorem Keeps.finishAdmission (h : Keeps s₀ s) (b) : Keeps s₀ (finishAdmission s b) := by
  unfold Sys2Proof.Machine.finishAdmission
  cases s.run.admission with
  | none => exact h
  | some a =>
    dsimp only
    generalize hx : Machine.replyAt s _ _ _ _ = s1
    have h1 : Keeps s₀ s1 := by subst hx; exact h.replyAt ..
    clear hx
    generalize hy : ({ s1 with run := _, laps := _ } : State) = s2
    have h2 : Keeps s₀ s2 := by subst hy; exact .up h1
    clear hy
    exact .ite h2 (.up (h2.pacerEvent 4))

theorem Keeps.releaseReplies (h : Keeps s₀ s) : Keeps s₀ (releaseReplies s) :=
  Keeps.foldl (fun s r => .ite ((Keeps.rfl' s).sendPayload ..) (.up (.rfl' s))) _ (.up h)

theorem Keeps.cutNow {t : State} (h : Keeps s₀ t) (s b) : Keeps s₀ (cutNow s t b) := by
  unfold Sys2Proof.Machine.cutNow; extract_lets idle s1 s2 s3 s4 n1 r
  have h1 : Keeps s₀ s1 := (h.openLap idle).finishAdmission _
  have h2 : Keeps s₀ s2 := .ite (h1.pacerEvent 5) h1
  have h4 : Keeps s₀ s4 := h2.releaseReplies.grantCredits.presentIngress.doMgmt
  clear_value s4
  have h5 : Keeps s₀ r.1 := Keeps.doCommands (.up h4) _
  clear_value r
  exact .ite (Keeps.moduleReset (.up h5) _) h5.loseDown

theorem lapCut_keeps (n s) : OutKeeps s (execLapCut n s) := by
  unfold execLapCut; split
  · extract_lets s' t asked target
    have ht : Keeps s t := (Keeps.rfl' s).stageIngress.commitLap.nextLap
    clear_value t
    split
    · exact .next (.up (.rfl' s))
    · exact .next (ht.cutNow ..)
  · exact .next (.rfl' s)

/-! ### Power and bring-up -/

theorem inputRise_keeps (s) : OutKeeps s (execInputRise s) := by
  unfold execInputRise; split
  · exact .next (.up (.rfl' s))
  · exact .next (.rfl' s)

theorem Keeps.staggerNext (h : Keeps s₀ s) : Keeps s₀ (staggerNext s) :=
  .ite (.up h) (Keeps.setDie (.up h) _ _ .of)

theorem staggerStep_keeps (s) : OutKeeps s (execStaggerStep s) := .next (.ite (Keeps.rfl' s).staggerNext (.rfl' s))

theorem powerGoodCheck_keeps (b s) : OutKeeps s (execPowerGoodCheck b s) := by
  unfold execPowerGoodCheck; split
  · exact .next (.ite (.up (.rfl' s)) ((Keeps.rfl' s).railsDown _))
  · exact .next (.rfl' s)

theorem railsOff_keeps (s) : OutKeeps s (execRailsOff s) := .next (.ite ((Keeps.rfl' s).railsDown _) (.up (.rfl' s)))
theorem overvoltageShutdown_keeps (s) : OutKeeps s (execOvervoltageShutdown s) :=
  .next (.ite ((Keeps.rfl' s).railsDown _) (.rfl' s))
theorem overcurrentShutdown_keeps (s) : OutKeeps s (execOvercurrentShutdown s) :=
  .next (.ite ((Keeps.rfl' s).railsDown _) (.rfl' s))

theorem uvChange_keeps (b s) : OutKeeps s (execUvChange b s) := by
  unfold execUvChange; exact .next (.ite (.up (.rfl' s)) (.rfl' s))

theorem uvStop_keeps (s) : OutKeeps s (execUvStop s) := by
  unfold execUvStop; repeat' split
  all_goals first | exact .next (.rfl' s) | exact .next (.up (Keeps.askStop (.rfl' s)))

theorem thermalSample_keeps (t s) : OutKeeps s (execThermalSample t s) := by
  unfold execThermalSample; split
  · exact .next (.rfl' s)
  · dsimp only
    split
    · exact .next ((Keeps.rfl' s).railsDown _)
    · exact .next (.up (.ite (Keeps.askStop (.rfl' s)) (.rfl' s)))

theorem romVerifyDone_keeps (b s) : OutKeeps s (execRomVerifyDone b s) := by
  unfold execRomVerifyDone; split
  · split
    · exact .next ((Keeps.rfl' s).raiseResponder _)
    · exact .next ((Keeps.rfl' s).ofSec .of)
  · exact .next (.rfl' s)

theorem Keeps.signWith (h : Keeps s₀ s) (k b) : Keeps s₀ (signWith s k b).2 := h.drawN 66

theorem Keeps.takeSeal (h : Keeps s₀ s) (k c) : Keeps s₀ { s with
    sec := { s.sec with sealKey := k, certSeal := c, sealReady := true }
    power := { s.power with sealIssued := true } } := h.ofSec .of

theorem Keeps.issueSeal (h : Keeps s₀ s) : Keeps s₀ (issueSeal s) :=
  ((h.drawN 82).signWith _ _).takeSeal _ _

theorem sealKeyIssue_keeps (s) : OutKeeps s (execSealKeyIssue s) := by
  unfold execSealKeyIssue; exact .next (.ite (Keeps.rfl' s).issueSeal (.rfl' s))

theorem memTrainingDone_keeps (l s) : OutKeeps s (execMemTrainingDone l s) := by
  unfold execMemTrainingDone; split
  · exact .next (.up (Keeps.foldl (fun s y => (Keeps.rfl' s).failChannel ..) _ (.rfl' s)))
  · exact .next (.rfl' s)

theorem linkTrainingDone_keeps (l s) : OutKeeps s (execLinkTrainingDone l s) := by
  unfold execLinkTrainingDone; split
  · exact .next (.up (.rfl' s))
  · exact .next (.rfl' s)

theorem Keeps.bootMap (h : Keeps s₀ s) (d) : Keeps s₀ (bootMap s d) := (h.rebuildMap d).setDie d _ .of

theorem mapBuild_keeps (s) : OutKeeps s (execMapBuild s) := by
  unfold execMapBuild; split
  · exact .next (.up (Keeps.forDies (fun s d => (Keeps.rfl' s).bootMap d) (.rfl' s)))
  · exact .next (.rfl' s)

theorem firstIdleLap_keeps (b s) : OutKeeps s (execFirstIdleLap b s) := by
  unfold execFirstIdleLap; split
  · exact .next (.up (.rfl' s))
  · exact .next (.rfl' s)

theorem Keeps.holdExtest (h : Keeps s₀ s) : Keeps s₀ (holdExtest s) := Keeps.ofSec (h.moduleReset 3) .of
theorem Keeps.loadTap (h : Keeps s₀ s) (i) : Keeps s₀ (loadTap s i) := h.ofSec .of

theorem extestLoad_keeps (s) : OutKeeps s (execExtestLoad s) := .next (.ite (Keeps.rfl' s).holdExtest (.rfl' s))

theorem extestRelease_keeps (s) : OutKeeps s (execExtestRelease s) := by
  unfold execExtestRelease; split
  · exact .next ((Keeps.rfl' s).draw.loadTap _)
  · exact .next (.rfl' s)

theorem tapInstruction_keeps (i s) : OutKeeps s (execTapInstruction i s) := by
  unfold execTapInstruction; split
  · exact .next (.rfl' s)
  · cases i
    all_goals first
      | exact .next ((Keeps.rfl' s).loadTap _)
      | exact .next (.ite (.rfl' s) ((Keeps.rfl' s).holdExtest))
      | exact .next (.ite (.rfl' s) ((Keeps.rfl' s).loadTap _))

/-! ### The clock -/

theorem Keeps.lapEndCheck (h : Keeps s₀ s) (d) : Keeps s₀ (lapEndCheck s d) := by
  unfold Sys2Proof.Machine.lapEndCheck; extract_lets x t g s1 s2 s3
  refine .ite ?_ h
  have h1 : Keeps s₀ s1 := h.setDie d _ .of
  have h2 : Keeps s₀ s2 := by
    clear_value s1
    refine Keeps.foldl (fun s y => ?_) _ h1
    generalize coreLeft t (asyncRanges x y.1) y.2 = l
    exact (Keeps.rfl' s).raisesAt d y.1 l
  clear_value s2
  have h3 : Keeps s₀ s3 := .ite (h2.raiseDie ..) (.ite (h2.raiseDie ..) h2)
  clear_value s3
  exact .ite (h3.raiseDie ..) h3

theorem coreTick_stores (t c) : (coreTick t c).1.stores = c.stores := by
  unfold coreTick; dsimp only
  rw [vecTick_stores]; rfl

theorem applyPWrite_memWf (c : Core) (w : PWrite) (h : c.memWf) : (applyPWrite c w).memWf := by
  cases w with
  | cs x b => exact ⟨memSet_wf h.1 x b, h.2⟩
  | csn x k n => exact ⟨memSet_wf h.1 x _, h.2⟩
  | v x b => exact ⟨h.1, memSet_wf h.2 x b⟩
  | vn x k n => exact ⟨h.1, memSet_wf h.2 x _⟩
  | p r m v =>
    show (if r = 0 then c else _ : Core).memWf
    split <;> exact h
  | a r v => exact h
  | vflag f o p => exact h
  | eflag u f o p =>
    show (if u = 0 then _ else if u = 1 then _ else _ : Core).memWf
    split
    · exact h
    · split <;> exact h

theorem commitPend_memWf (t : Nat) (c : Core) (h : c.memWf) : (commitPend t c).memWf := by
  unfold commitPend; dsimp only
  generalize (c.pend.filter fun p => decide (p.ready ≤ t)) = l
  generalize hx : ({ c with pend := _, fresh := _, hist := _ } : Core) = c1
  have h1 : c1.memWf := by subst hx; exact h
  clear hx
  induction l generalizing c1 with
  | nil => exact h1
  | cons p l ih => exact ih _ (applyPWrite_memWf _ _ h1)

theorem Keeps.seqRaise (h : Keeps s₀ s) (d c) : Keeps s₀ (seqRaise s d c) := .ite h (h.raiseDie ..)

theorem Keeps.seqBlocked (h : Keeps s₀ s) (d) : Keeps s₀ (seqBlocked s d) :=
  .ite (h.seqRaise ..) (.ite (h.setSeq d _ .of) (h.seqRaise ..))

theorem Keeps.seqTick (h : Keeps s₀ s) (d) : Keeps s₀ (seqTick s d) :=
  Keeps.setSeq (.ite (h.seqBlocked d) h) d _ .of

theorem Keeps.collRead (h : Keeps s₀ s) (d) : Keeps s₀ (collRead s d) := .ite h (h.setSeq d _ .of)

theorem Keeps.dieBegin (h : Keeps s₀ s) (d) : Keeps s₀ (dieBegin s d) :=
  Keeps.collRead (Keeps.setDie (h.onCores d (f := fun x c => coreBegin x.now c) fun x c w => commitPend_memWf x.now c w) d _ .of) d

theorem Keeps.clearSet (h : Keeps s₀ s) : Keeps s₀ (clearSet s) := h.ofSec .of
theorem Keeps.later (h : Keeps s₀ s) (l : Laps) (hl : s.laps.now ≤ l.now) : Keeps s₀ { s with laps := l } := h.up (hn := hl)
theorem Keeps.nextCycle (h : Keeps s₀ s) : Keeps s₀ (nextCycle s) := h.clearSet.later _ (Nat.le_succ _)

theorem Keeps.readInput (h : Keeps s₀ s) : Keeps s₀ (readInput s) := .ite (.up (h.drawN 4)) h

theorem Keeps.lapTick (h : Keeps s₀ s) : Keeps s₀ (lapTick s) := by
  unfold Sys2Proof.Machine.lapTick; extract_lets s1 s2 s3 s4
  have h1 : Keeps s₀ s1 := Keeps.forDies (fun s d => (Keeps.rfl' s).lapEndCheck d) h
  have h2 : Keeps s₀ s2 := Keeps.forDies (fun s d => (Keeps.rfl' s).onCores d fun x c w =>
    Core.memWf_of (coreTick_stores _ _) w) h1
  have h3 : Keeps s₀ s3 := Keeps.forDies (fun s d => (Keeps.rfl' s).seqTick d) h2.sendTick
  have h4 : Keeps s₀ s4 := Keeps.forDies (fun s d => (Keeps.rfl' s).dieBegin d) h3.nextCycle.readInput
  clear_value s4
  exact .up h4

theorem Keeps.tick (h : Keeps s₀ s) : Keeps s₀ (tick s) :=
  .ite h (.ite h.lapTick (h.clearSet.later _ (Nat.le_succ _)))

end Sys2Proof.Machine
end

