-- ==== Sys2Proof/Laws/Slot.lean ====
section
/-! SUPPORT. The commands of the core slots are slot operations of their die; what a slot operation does; what every command
keeps. -/
namespace Sys2Proof.Machine
set_option Elab.async false

/-! ### Every command of a core slot is a slot operation -/

/-- A slot operation whose core function leaves what timed writes change. -/
def IsSlot (s : State) (d : Die) (o : Host.Outcome State Fault Refusal) : Prop :=
  ∃ op f, (∀ x c, (f x c).1.stores = c.stores) ∧ o = .next (slotOp s d op f)

theorem IsSlot.slot {s : State} {d op f} (h : ∀ x c, (f x c).1.stores = c.stores) : IsSlot s d (.next (slotOp s d op f)) :=
  ⟨op, f, h, rfl⟩

theorem IsSlot.vec {s : State} {d op occ f} (h : ∀ r x c, (f r x c).1.stores = c.stores) :
    IsSlot s d (.next (vecSlot s d op occ f)) := ⟨op, _, h _, rfl⟩

/-- An outcome of a command whose fields are `ok`: a slot operation, or the refusal of reserved fields. -/
def SlotOut (s : State) (d : Die) (ok : Bool) (o : Host.Outcome State Fault Refusal) : Prop :=
  (ok = false ∧ o = .refused .reserved) ∨ (ok = true ∧ IsSlot s d o)

theorem SlotOut.slot {s : State} {d op f} (h : ∀ x c, (f x c).1.stores = c.stores) :
    SlotOut s d true (.next (slotOp s d op f)) := .inr ⟨rfl, .slot h⟩

/-- A choice on the fields. -/
theorem SlotOut.ite {s : State} {d ok} {c : Prop} [Decidable c] {o : Host.Outcome State Fault Refusal}
    (hc : c ↔ ok = true) (h : IsSlot s d o) : SlotOut s d ok (if c then o else .refused .reserved) := by
  by_cases q : c
  · rw [if_pos q]; exact .inr ⟨hc.mp q, h⟩
  · rw [if_neg q]; refine .inl ⟨?_, rfl⟩
    cases ok
    · rfl
    · exact absurd (hc.mpr rfl) q

/-- The same with the refusal first. -/
theorem SlotOut.ite' {s : State} {d ok} {c : Prop} [Decidable c] {o : Host.Outcome State Fault Refusal}
    (hc : c ↔ ok = false) (h : IsSlot s d o) : SlotOut s d ok (if c then .refused .reserved else o) := by
  by_cases q : c
  · rw [if_pos q]; exact .inl ⟨hc.mp q, rfl⟩
  · rw [if_neg q]; refine .inr ⟨?_, h⟩
    cases ok
    · exact absurd (hc.mpr rfl) q
    · rfl

theorem vElem_slotOut (d : Die) (op : Nat) (i : Instr) (s : State) : SlotOut s d (elemFieldsOk i) (vElem d op i s) := by
  unfold vElem elemFieldsOk
  cases vopOf i with
  | none => exact .inl ⟨rfl, rfl⟩
  | some y =>
    obtain ⟨o, p, f, e⟩ := y
    refine .ite Iff.rfl ?_
    cases f with
    | reg r => exact .slot fun x c => vRegCore_stores ..
    | desc r => exact .vec fun r x c => vDescCore_stores ..

theorem rowOp_slotOut (d : Die) (i : Instr) (s : State) : SlotOut s d (rowFieldsOk i) (rowOp d i s) := by
  unfold rowOp rowFieldsOk
  cases rowCmdOf i with
  | none => exact .inl ⟨rfl, rfl⟩
  | some k => exact .ite Iff.rfl (.vec fun r x c => rowCore_stores ..)

/-- A command of a core slot: ill-formed, it is refused; well-formed, it is a slot operation of its die. -/
theorem exec_core {i : Instr} {d : Die} (h : coreDie i = some d) (s : State) : SlotOut s d (fieldsOk i) (exec i s) := by
  cases i
  all_goals simp only [coreDie, reduceCtorEq, Option.some.injEq] at h
  all_goals subst h
  all_goals first
    | (simp only [fieldsOk]; exact vElem_slotOut ..)
    | (simp only [fieldsOk]; exact rowOp_slotOut ..)
    | (refine .slot fun x c => ?_; simp only [swapCore_stores, strmCore_stores, zeroCore_stores, spillCore_stores,
        freeCore_stores, plogCore_stores, rdflCore_stores, feedCore_stores, tagCore_stores, ldvCore_stores, stvCore_stores,
        ldpCore_stores, stpCore_stores, cpyCore_stores, aWrite_stores])
    | skip
  case mxCfg => exact .ite Iff.rfl (.slot fun x c => cfgCore_stores ..)
  case mxLdw => exact .ite Iff.rfl (.slot fun x c => ldwCore_stores ..)
  case mxOpen => exact .ite Iff.rfl (.slot fun x c => openCore_stores ..)
  case mxClose => exact .ite (by simp [fieldsOk]) (.slot fun x c => closeCore_stores ..)
  case mxFill => exact .ite' (by simp [fieldsOk]) (.slot fun x c => fillCore_stores ..)
  case mvOpen => exact .ite Iff.rfl (.slot fun x c => mvOpenCore_stores ..)
  case mvZero => exact .ite' (by simp [fieldsOk]) (.slot fun x c => mvZeroCore_stores ..)
  case mvDot => exact .ite Iff.rfl (.slot fun x c => mvDotCore_stores ..)
  case mvCol => exact .ite Iff.rfl (.slot fun x c => mvColCore_stores ..)
  case mvClose => exact .ite Iff.rfl (.slot fun x c => mvCloseCore_stores ..)
  case mvSpill => exact .ite' (by simp [fieldsOk]) (.slot fun x c => mvSpillCore_stores ..)
  case mvFill =>
    refine .ite' ?_ (.slot fun x c => mvFillCore_stores ..)
    simp only [fieldsOk, Bool.and_eq_false_iff, decide_eq_false_iff_not, not_not, Bool.not_eq_false']
  case vRed f a =>
    refine .ite Iff.rfl ?_
    cases f with
    | reg r => exact .slot fun x c => redRegCore_stores ..
    | desc r => exact .vec fun r x c => redDescCore_stores ..
  case vQuant => exact .ite (by simp [fieldsOk, and_assoc]) (.vec fun r x c => quantCore_stores ..)
  case vPop => exact .ite (by simp [fieldsOk]) (.slot fun x c => popCore_stores ..)
  case vQzero => exact .ite (by simp [fieldsOk]) (.slot fun x c => qzeroCore_stores ..)
  case vQrnd => exact .ite (by simp [fieldsOk]) (.slot fun x c => qrndCore_stores ..)
  case vQspill => exact .ite' (by simp [fieldsOk]) (.slot fun x c => qspillCore_stores ..)
  case vQfill =>
    refine .ite' ?_ (.slot fun x c => qfillCore_stores ..)
    simp only [fieldsOk, Bool.and_eq_false_iff, decide_eq_false_iff_not, not_not, Bool.not_eq_false']
  case movAidx => exact .ite (by simp [fieldsOk]) (.slot fun x c => aWrite_stores ..)

/-! ### What a slot operation does -/

/-- Each core of a list becomes what the function makes of it. -/
theorem mapCores_get (f : Nat → Core → Core × List Raise) (i : Nat) (l : List Core) (k : Nat) :
    (mapCores f i l).1[k]? = l[k]?.map fun c => (f (i + k) c).1 := by
  induction l generalizing i k with
  | nil => rfl
  | cons c l ih =>
    cases k with
    | zero => rfl
    | succ k =>
      simp only [mapCores, List.getElem?_cons_succ, ih]
      congr 1
      funext c
      rw [show i + 1 + k = i + (k + 1) by omega]

/-- Stores that a function of a core leaves stay in a list. -/
theorem mapCores_stores (f : Nat → Core → Core × List Raise) (h : ∀ i c, (f i c).1.stores = c.stores) (i : Nat)
    (l : List Core) : (mapCores f i l).1.map Core.stores = l.map Core.stores := by
  induction l generalizing i with
  | nil => rfl
  | cons c l ih => simp only [mapCores, List.map_cons, h, ih]

/-- The part of a state that program faults of cores leave. -/
structure RaiseFrame (s t : State) : Prop where
  rest : ({ t with laps := s.laps, faults := s.faults } : State) = s
  laps : ({ t.laps with lapFault := s.laps.lapFault, progFault := s.laps.progFault } : Laps) = s.laps
  faults : ({ t.faults with detected := s.faults.detected, lapRecs := s.faults.lapRecs } : Faults) = s.faults

theorem RaiseFrame.rfl' (s : State) : RaiseFrame s s := ⟨rfl, rfl, rfl⟩

theorem RaiseFrame.addFault {s t : State} (h : RaiseFrame s t) (r : FaultRec) : RaiseFrame s (addFault t r) :=
  ⟨h.rest, h.laps, h.faults⟩

/-- What the reports of cores leave. -/
theorem raises_frame {s t : State} (d : Die) (l : List (Nat × Raise)) (h : RaiseFrame s t) :
    RaiseFrame s (l.foldl (fun s x => raiseCore s d x.1 x.2) t) := by
  induction l generalizing t with
  | nil => exact h
  | cons x l ih => exact ih (h.addFault _)

/-- A part of the state that is neither the laps nor the faults. -/
theorem RaiseFrame.get {α : Type} {s t : State} (h : RaiseFrame s t) (g : State → α)
    (hg : ∀ (u : State) (a : Laps) (b : Faults), g { u with laps := a, faults := b } = g u := by intros; rfl) : g t = g s :=
  (hg t s.laps s.faults).symm.trans (congrArg g h.rest)

theorem RaiseFrame.dies {s t : State} (h : RaiseFrame s t) : t.dies = s.dies := h.get State.dies

/-- Energy counts beside, a slot operation sees what the state holds. -/
theorem coreIn_addEnergy (s : State) (d : Die) (op k : Nat) : coreIn (addEnergy s d op) d k = coreIn s d k := by
  have h1 : issueNow (addEnergy s d op) d = issueNow s d := by
    unfold issueNow addEnergy State.setSeq; rw [State.setDie_die, if_pos rfl]
  unfold coreIn; rw [h1]; rfl

theorem onCores_die (s : State) (d : Die) (f : CoreIn → Core → Core × List Raise) :
    (onCores s d f).die d = { s.die d with cores := (mapCores (fun i c => f (coreIn s d i) c) 0 (s.die d).cores).1 } := by
  unfold onCores; dsimp only
  have h := raises_frame d (mapCores (fun i c => f (coreIn s d i) c) 0 (s.die d).cores).2
    (.rfl' (s.setCores d (mapCores (fun i c => f (coreIn s d i) c) 0 (s.die d).cores).1))
  have h2 := h.dies
  unfold State.die at h2 ⊢; rw [h2]
  exact (State.setDie_die_self ..)

/-- Core `k` of the die, where a program word takes effect. -/
theorem slotOp_core {s : State} {d : Die} (op : Nat) (f : CoreIn → Core → Core × List Raise) {k : Nat} {c : Core}
    (h : Acts s d) (hc : (s.die d).cores[k]? = some c) :
    ((slotOp s d op f).die d).cores[k]? = some (f (coreIn s d k) c).1 := by
  unfold slotOp; rw [if_pos (show (issueNow s d).prog = true from h), onCores_die]
  have hd : ((addEnergy s d op).die d).cores = (s.die d).cores := by
    unfold addEnergy State.setSeq; rw [State.setDie_die, if_pos rfl]
  simp only [mapCores_get, hd, hc, Option.map_some, coreIn_addEnergy, Nat.zero_add]

/-- The command does what its core function says. -/
theorem CoreBecomes.of {i : Instr} {s : State} {d : Die} {k op : Nat} {c : Core} {f : CoreIn → Core → Core × List Raise}
    (h : exec i s = .next (slotOp s d op f)) : CoreBecomes i s d k c (f (coreIn s d k) c).1 :=
  fun ha hc => ⟨_, h, slotOp_core op f ha hc⟩

/-- The same, for a core that the core function is known to give. -/
theorem CoreBecomes.eq {i : Instr} {s : State} {d : Die} {k op : Nat} {c c' : Core} {f : CoreIn → Core → Core × List Raise}
    (h : exec i s = .next (slotOp s d op f)) (q : (f (coreIn s d k) c).1 = c') : CoreBecomes i s d k c c' := q ▸ .of h

theorem SlotFrame.rfl' (d : Die) (s : State) : SlotFrame d s s :=
  ⟨rfl, rfl, rfl, rfl, rfl, rfl, rfl, rfl, rfl, rfl, rfl, rfl, rfl, fun _ _ => rfl, rfl, rfl⟩

/-- What a slot operation may change. -/
theorem slotOp_frame (s : State) (d : Die) (op : Nat) {f : CoreIn → Core → Core × List Raise}
    (hf : ∀ x c, (f x c).1.stores = c.stores) : SlotFrame d s (slotOp s d op f) := by
  unfold slotOp; split
  · have hd := onCores_die (addEnergy s d op) d f
    have h := raises_frame d (mapCores (fun i c => f (coreIn (addEnergy s d op) d i) c) 0 ((addEnergy s d op).die d).cores).2
      (.rfl' ((addEnergy s d op).setCores d
        (mapCores (fun i c => f (coreIn (addEnergy s d op) d i) c) 0 ((addEnergy s d op).die d).cores).1))
    change RaiseFrame _ (onCores (addEnergy s d op) d f) at h
    generalize onCores (addEnergy s d op) d f = t at hd h ⊢
    have he : (addEnergy s d op).die d = { s.die d with seq := ((addEnergy s d op).die d).seq } := by
      unfold addEnergy State.setSeq; rw [State.setDie_die, if_pos rfl]
    have hq : ({ ((addEnergy s d op).die d).seq with energy := (s.die d).seq.energy } : Seq) = (s.die d).seq := by
      unfold addEnergy State.setSeq; rw [State.setDie_die, if_pos rfl]
    refine ⟨h.get State.pacer, h.get State.fabric, h.get State.run, h.get State.mladar,
      h.get State.split, h.get State.net, h.get State.sec, h.get State.power,
      h.get State.ident, h.get State.freeIdx, h.get State.pending, h.laps, h.faults, ?_, ?_, ?_⟩
    · intro e hne
      have h2 := h.dies
      refine (congrArg (fun v => v[e]) h2).trans ?_
      refine (State.setDie_die_other _ _ hne).trans ?_
      exact State.setDie_die_other _ _ hne
    · rw [hd, he]; dsimp only; rw [hq]
    · rw [hd]; dsimp only
      rw [mapCores_stores _ (fun i c => hf _ c), he]
  · exact .rfl' d s

/-! ### What every command keeps -/

theorem IsSlot.keeps {s : State} {d : Die} {o} (h : IsSlot s d o) : OutKeeps s o := by
  obtain ⟨op, f, hf, rfl⟩ := h
  exact .next ((Keeps.rfl' s).slotOp d op hf)

theorem SlotOut.keeps {s : State} {d : Die} {ok o} (h : SlotOut s d ok o) : OutKeeps s o := by
  rcases h with ⟨-, rfl⟩ | ⟨-, h⟩
  · exact .refused
  · exact h.keeps

/-- Whatever a command leaves next keeps the invariants and the queue. -/
theorem exec_keeps (i : Instr) (s : State) : OutKeeps s (exec i s) := by
  cases i
  case nop d => exact nop_keeps d s
  case ctlLi => exact ctlLi_keeps _ _ _ _ _
  case ctlAlu => exact ctlAlu_keeps _ _ _ _ _ _ _ _
  case ctlMul => exact ctlMul_keeps _ _ _ _ _
  case ctlLidx => exact ctlLidx_keeps _ _ _ _
  case ctlLinfo => exact ctlLinfo_keeps _ _ _ _
  case ctlColl => exact ctlColl_keeps _ _ _ _ _ _
  case ctlPstep => exact ctlPstep_keeps _ _ _
  case ctlBr => exact ctlBr_keeps _ _ _ _ _ _
  case ctlJmp => exact ctlJmp_keeps _ _ _
  case ctlLoop => exact ctlLoop_keeps _ _ _ _ _ _
  case ctlSig => exact ctlSig_keeps _ _ _ _
  case ctlWait => exact ctlWait_keeps _ _ _ _ _
  case ctlPage => exact ctlPage_keeps _ _ _ _ _
  case lapEnd => exact lapEnd_keeps _ _ _
  case mxCfg => exact (exec_core rfl s).keeps
  case mxLdw => exact (exec_core rfl s).keeps
  case mxSwap => exact (exec_core rfl s).keeps
  case mxStrm => exact (exec_core rfl s).keeps
  case mxOpen => exact (exec_core rfl s).keeps
  case mxZero => exact (exec_core rfl s).keeps
  case mxClose => exact (exec_core rfl s).keeps
  case mxSpill => exact (exec_core rfl s).keeps
  case mxFill => exact (exec_core rfl s).keeps
  case mxFree => exact (exec_core rfl s).keeps
  case mvOpen => exact (exec_core rfl s).keeps
  case mvZero => exact (exec_core rfl s).keeps
  case mvDot => exact (exec_core rfl s).keeps
  case mvCol => exact (exec_core rfl s).keeps
  case mvClose => exact (exec_core rfl s).keeps
  case mvSpill => exact (exec_core rfl s).keeps
  case mvFill => exact (exec_core rfl s).keeps
  case vMov => exact (exec_core rfl s).keeps
  case vAnd => exact (exec_core rfl s).keeps
  case vOr => exact (exec_core rfl s).keeps
  case vXor => exact (exec_core rfl s).keeps
  case vSel => exact (exec_core rfl s).keeps
  case vPlog => exact (exec_core rfl s).keeps
  case vNeg => exact (exec_core rfl s).keeps
  case vAbs => exact (exec_core rfl s).keeps
  case vMax => exact (exec_core rfl s).keeps
  case vMin => exact (exec_core rfl s).keeps
  case vCmp => exact (exec_core rfl s).keeps
  case vAdd => exact (exec_core rfl s).keeps
  case vSub => exact (exec_core rfl s).keeps
  case vMul => exact (exec_core rfl s).keeps
  case vFma => exact (exec_core rfl s).keeps
  case vCvt => exact (exec_core rfl s).keeps
  case vFn => exact (exec_core rfl s).keeps
  case vFnGate => exact (exec_core rfl s).keeps
  case softmax => exact (exec_core rfl s).keeps
  case smsum => exact (exec_core rfl s).keeps
  case smnorm => exact (exec_core rfl s).keeps
  case lnorm => exact (exec_core rfl s).keeps
  case rmsnorm => exact (exec_core rfl s).keeps
  case nstat => exact (exec_core rfl s).keeps
  case vRed => exact (exec_core rfl s).keeps
  case vQuant => exact (exec_core rfl s).keeps
  case vPop => exact (exec_core rfl s).keeps
  case vQzero => exact (exec_core rfl s).keeps
  case vQrnd => exact (exec_core rfl s).keeps
  case vQspill => exact (exec_core rfl s).keeps
  case vQfill => exact (exec_core rfl s).keeps
  case vRdfl => exact (exec_core rfl s).keeps
  case movFeed => exact (exec_core rfl s).keeps
  case movTag => exact (exec_core rfl s).keeps
  case movLdv => exact (exec_core rfl s).keeps
  case movStv => exact (exec_core rfl s).keeps
  case movLdp => exact (exec_core rfl s).keeps
  case movStp => exact (exec_core rfl s).keeps
  case movCpy => exact (exec_core rfl s).keeps
  case movAset => exact (exec_core rfl s).keeps
  case movAadd => exact (exec_core rfl s).keeps
  case movAidx => exact (exec_core rfl s).keeps
  case netMesh => exact netMesh_keeps _ _ _ _ _ _
  case netSend => exact netSend_keeps _ _ _ _ _ _ _
  case memRd => exact memRd_keeps _ _ _ _ _
  case memWr => exact memWr_keeps _ _ _ _ _
  case memQadd => exact memQadd_keeps _ _ _ _ _ _
  case memMaxloc => exact memMaxloc_keeps _ _ _ _ _ _
  case memRadd => exact memRadd_keeps _ _ _ _ _ _
  case memUnitService => exact memUnitService_keeps _ _ _
  case memComplete => exact memComplete_keeps _ _
  case signalArrive => exact signalArrive_keeps _ _ _
  case waitMet => exact waitMet_keeps _ _
  case waitLimit => exact waitLimit_keeps _ _
  case pageLoadDone => exact pageLoadDone_keeps _ _ _
  case residentReloadDone => exact residentReloadDone_keeps _ _
  case netArrive => exact netArrive_keeps _ _ _
  case lapCut => exact lapCut_keeps _ _
  case splitHeaderWritten => exact splitHeaderWritten_keeps _
  case closePhaseStart => exact closePhaseStart_keeps _
  case lapOverrun => exact lapOverrun_keeps _
  case earlyClose => exact earlyClose_keeps _
  case lapVerdict => exact lapVerdict_keeps _
  case lapSeal => exact lapSeal_keeps _
  case dataFrame => exact dataFrame_keeps _ _
  case directWrite => exact directWrite_keeps _ _
  case ackFrame => exact ackFrame_keeps _ _
  case commandFrame => exact commandFrame_keeps _ _
  case managementFrame => exact managementFrame_keeps _ _
  case mgmtReadDeferred => exact mgmtReadDeferred_keeps _
  case neighbourSolicitation => exact neighbourSolicitation_keeps _ _ _ _
  case ptpSync => exact ptpSync_keeps _ _
  case ptpSyncLoss => exact ptpSyncLoss_keeps _
  case pfcReceive => exact pfcReceive_keeps _ _ _
  case pfcResumeSend => exact pfcResumeSend_keeps _ _
  case portLinkChange => exact portLinkChange_keeps _ _
  case egressTransmit => exact egressTransmit_keeps _ _
  case egressDiscard => exact egressDiscard_keeps _
  case retransmit => exact retransmit_keeps _ _ _
  case ackDelay => exact ackDelay_keeps _ _ _
  case recordTransmit => exact recordTransmit_keeps _
  case drainSend => exact drainSend_keeps _
  case ping => exact ping_keeps _ _
  case load => exact load_keeps _ _ _
  case loadDone => exact loadDone_keeps _ _
  case run => exact run_keeps _ _ _ _ _
  case resume => exact resume_keeps _ _
  case stop => exact stop_keeps _ _
  case controlledStop => exact controlledStop_keeps _
  case reset r => exact reset_keeps r s
  case attest => exact attest_keeps _ _ _
  case recoverCommit => exact recoverCommit_keeps _ _ _
  case unknownCommand => exact unknownCommand_keeps _ _ _
  case recoveryDirectWrite => exact recoveryDirectWrite_keeps _ _
  case flashProgramDone => exact flashProgramDone_keeps _
  case wsetStart p => exact wsetStart_keeps p s
  case wsetDigestDone => exact wsetDigestDone_keeps _
  case verify p => exact verify_keeps p s
  case verifyDone => exact verifyDone_keeps _
  case cancel p => exact cancel_keeps p s
  case faultPop p => exact faultPop_keeps p s
  case fenceClear p => exact fenceClear_keeps p s
  case advance => exact advance_keeps _ _ _
  case revoke0 => exact revoke0_keeps _ _ _
  case revoke1 => exact revoke1_keeps _ _ _
  case lockService => exact lockService_keeps _ _ _
  case budgetWrite p c v => exact budgetWrite_keeps p c v s
  case envelopeWrite p v => exact envelopeWrite_keeps p v s
  case peerCfgWrite => exact peerCfgWrite_keeps _ _ _ _
  case peerAdminWrite => exact peerAdminWrite_keeps _ _ _
  case registerWrite => exact registerWrite_keeps _ _ _ _
  case faultDetected => exact faultDetected_keeps _ _
  case faultRecordQueue => exact faultRecordQueue_keeps _
  case patrolRead => exact patrolRead_keeps _ _ _ _
  case dieResetEnd => exact dieResetEnd_keeps _ _
  case fencedCompletion => exact fencedCompletion_keeps _ _
  case fabricPacketArrive => exact fabricPacketArrive_keeps _ _ _ _ _ _
  case memResponseTimeout => exact memResponseTimeout_keeps _ _ _ _
  case channelResetEnd => exact channelResetEnd_keeps _ _ _ _ _
  case refresh d f c r => exact refresh_keeps d f c r s
  case memHot => exact memHot_keeps _ _ _
  case clockXchk => exact clockXchk_keeps _ _ _ _
  case oscSwitch => exact oscSwitch_keeps _
  case driftCheck => exact driftCheck_keeps _ _
  case recoveryDone => exact recoveryDone_keeps _ _
  case inputRise => exact inputRise_keeps _
  case staggerStep => exact staggerStep_keeps _
  case powerGoodCheck => exact powerGoodCheck_keeps _ _
  case uvStop => exact uvStop_keeps _
  case railsOff => exact railsOff_keeps _
  case overvoltageShutdown => exact overvoltageShutdown_keeps _
  case overcurrentShutdown => exact overcurrentShutdown_keeps _
  case thermalSample => exact thermalSample_keeps _ _
  case romVerifyDone => exact romVerifyDone_keeps _ _
  case sealKeyIssue => exact sealKeyIssue_keeps _
  case memTrainingDone => exact memTrainingDone_keeps _ _
  case linkTrainingDone => exact linkTrainingDone_keeps _ _
  case mapBuild => exact mapBuild_keeps _
  case firstIdleLap => exact firstIdleLap_keeps _ _
  case extestLoad => exact extestLoad_keeps _
  case extestRelease => exact extestRelease_keeps _
  case tapInstruction => exact tapInstruction_keeps _ _
  case discardedFrame => exact discardedFrame_keeps _ _
  case ptpDelayResponse => exact ptpDelayResponse_keeps _ _ _
  case pauseTimeExpiry => exact pauseTimeExpiry_keeps _ _
  case uvChange => exact uvChange_keeps _ _

/-- The same of a step, whose queue loses its front. -/
theorem step_keeps {s t : State} (h : step s = .next t) : Keeps { s with pending := s.pending.tail } t := by
  obtain ⟨a, b, c, d, e, f, g, i, j, k, l, m, n, q⟩ := s
  unfold step at h
  cases q with
  | nil =>
    have h1 := (Keeps.rfl' (State.mk a b c d e f g i j k l m n [])).tick
    cases h; exact h1
  | cons x q => exact exec_keeps x _ t h

end Sys2Proof.Machine
end

