-- ==== Sys2Proof/Tests/Slice0.lean ====
section
/-! SUPPORT. Tests: the form check refuses a term for each thing it checks, the worked words of Table 12-13, and, for every
statement, concrete states and operands that meet the hypotheses of its clauses, with one step on them. -/
namespace Sys2Proof.Machine
set_option Elab.async false

/-! ### Small states -/

/-- Whether a command completes in a state that `f` accepts. -/
def runs (c : Instr) (s : State) (f : State → Bool) : Bool :=
  match exec c s with
  | .next t => f t
  | _ => false

/-- Whether a command leaves the state as it is, as far as `f` sees. -/
def refusedBy (c : Instr) (s : State) : Bool :=
  match exec c s with
  | .refused .reserved => true
  | _ => false

/-- A run of one core per die: ingress queue 0 and egress queue 1 of peer 0 on die 0, merged queue 2. -/
def cfgS : RunCfg :=
  { strict := false, records := false, seed := 0, n := 1, gridMode := 0
    queues := [⟨0, 1, 0, 0, 4096⟩, ⟨0, 2, 0, 0x2000, 4096⟩, ⟨0, 1, 0xFFFF, 0x4000, 4096⟩]
    areas := List.replicate 16 ⟨0x8000, 8, 0, 0⟩, split := none, restore := false, startLap := 0 }

/-- A program of 2,048 words on every die, of which the first page is resident. -/
def progS : Program :=
  { image := 0x100000, grade := 0, k := 12, asyncEnergy := 1000, egressMax := 100, energy := List.replicate 32 0
    nearStatic := List.replicate 16 1000, farStatic := List.replicate 16 1000, streams := List.replicate 16 (2048, 0, 1024)
    digest := zeros 64 }

/-- A die of one core that issues a program word in this cycle and whose cores take one. -/
def dieS (c : Core) (q : Seq) : DieSt :=
  { DieSt.init 1 with
    cores := [c]
    seq := { q with pipe := List.replicate 11 Issue.nop ++ [⟨true, q.s, 0, 0⟩], frames := q.frames.set 0 (.held 0) }
    regs := { DieRegs.init with state := 3 } }

/-- The module in lap cycle 100 of run lap 5, on dies of core `c` and sequencer `q`. -/
def runS (c : Core) (q : Seq) : State :=
  { State.reset with
    dies := Vector.replicate 16 (dieS c q)
    run := { RunSt.init with run := some cfgS, program := some progS }
    laps := { Laps.init with now := 1000, cyc := 100, state := 1, moduleLap := 9, runLap := 5 } }

/-- A run with nothing loaded into its cores. -/
def run0 : State := runS (Core.init 0) Seq.init

/-- Idle laps, on dies of one core. -/
def idleS : State := { State.reset with dies := Vector.replicate 16 (dieS (Core.init 0) Seq.init), laps := { Laps.init with now := 1000, cyc := 100 } }

/-- A state at a given cycle of its lap. -/
def atCyc (s : State) (c : Nat) : State := { s with laps := { s.laps with cyc := c } }

/-- The cut of that idle lap, and of that run lap. -/
def idle0 : State := atCyc idleS 0
def run0c : State := atCyc run0 0

/-! ### The block -/

theorem test_step_front : step { run0 with pending := [.nop 0] } = exec (.nop 0) run0 := rfl
theorem test_step_empty : run0.pending = [] ∧ portOn run0 = true ∧ (match step run0 with
    | .next t => t.laps.now == 1001 && t.laps.cyc == 101 && t.laps.runLap == 5 | _ => false) = true := by decide +kernel
theorem test_step_empty_off : (match step { State.reset with power := { Power.init with phase := .off } } with
    | .next t => t.laps.now == 0 && t.laps.cyc == 0 | _ => false) = true := by decide +kernel
theorem test_step_empty_boot : (match step { idleS with power := { Power.init with phase := .boot } } with
    | .next t => t.laps.now == 1001 && t.laps.cyc == 100 | _ => false) = true := by decide +kernel
theorem test_idle_lap_length : State.reset.laps.state = 0 ∧ (freshLap State.reset).laps.len = 4096 := by decide +kernel

/-- The memories of a state whose cores are those after reset are canonical. -/
theorem canonical_of (s : State) (h : ∀ d : Die, ∀ c ∈ (s.die d).cores ++ (s.die d).rest, c = Core.init 0)
    (m : ∀ d : Die, (Memory.wf (s.die d).near.mem = true ∧ Memory.wf (s.die d).near.parity = true) ∧
      Memory.wf (s.die d).far.mem = true ∧ Memory.wf (s.die d).far.parity = true)
    (f : Memory.wf s.sec.flash = true ∧ Memory.wf s.sec.staging = true) : MemCanonical s :=
  ⟨fun d => ⟨(m d).1, (m d).2, fun c hc => by rw [h d c hc]; exact ⟨rfl, rfl⟩⟩, f⟩
theorem test_canonical : MemCanonical run0 ∧ MemCanonical idleS :=
  ⟨canonical_of _ (by decide +kernel) (by decide +kernel) (by decide +kernel), canonical_of _ (by decide +kernel) (by decide +kernel) (by decide +kernel)⟩
theorem test_invariant_holds_somewhere : Inv idleS ∧ ∃ t, step idleS = .next t := by
  refine ⟨⟨test_canonical.2, ?_, ?_⟩, _, rfl⟩
  · show (_ : Nat) ≤ _; decide +kernel
  · show ∀ (d : Die) (i : Fin 16), _; decide +kernel
theorem test_advance_blows : runs (.advance 0 true) { idle0 with sec := { Sec.init with secVerRun := 3 } }
    (fun t => t.sec.rollback == 3 && t.sec.advDone) = true := by decide +kernel
theorem test_nop_word : issuing idleS 0 = false ∧ coreDie (.mxSwap 0 .mxa) = some 0 ∧
    (issueNow { idleS with dies := Vector.replicate 16 (DieSt.init 1) } 0).prog = false ∧
    memDie (.memRd 0 0 ⟨false, 0, 0, 0, 0, false, false, ⟨false, 0, 0⟩⟩ 1) = some 0 ∧ ctlDie (.ctlJmp 0 0) = some 0 := by
  decide +kernel

/-! ### The form check: one ill-formed term for each check -/

/-- An ill-formed command that the check refuses and whose meaning refuses it. -/
def refusesIll (i : Instr) : Bool := !i.wf && refusedBy i run0

theorem test_wf_ctl : ([.ctlLinfo 0 0 8, .ctlSig 0 0 0, .ctlWait 0 0 0 0] : List Instr).all refusesIll = true := by decide +kernel
theorem test_wf_mx : ([.mxCfg 0 .mxa .b32 0, .mxCfg 0 .mxa .p8 5, .mxLdw 0 .mxa 0 .b32 1 0 ⟨false, 0, 0⟩,
    .mxLdw 0 .mxa 0 .p8 0 0 ⟨false, 0, 0⟩, .mxLdw 0 .mxa 0 .p8 17 0 ⟨false, 0, 0⟩, .mxOpen 0 .mxa 1 0 .b16 0, .mxOpen 0 .mxa 0 0 .p8 0,
    .mxOpen 0 .mxa 129 0 .p8 0, .mxClose 0 .mxa 0 1536 ⟨false, 0, 0⟩ 0, .mxFill 0 .mxa 0 ⟨false, 0, 0⟩ true 0] : List Instr).all
      refusesIll = true := by decide +kernel
theorem test_wf_mv : ([.mvOpen 0 .b32, .mvZero 0 0 0, .mvDot 0 0 .b16 .p8 0 0 0 ⟨false, 0, 0⟩, .mvDot 0 0 .p8 .b16 0 0 0 ⟨false, 0, 0⟩,
    .mvCol 0 0 .b16 .p8 0 0 0 ⟨false, 0, 0⟩, .mvClose 0 0 0 1536 1 0, .mvClose 0 0 0 0 0 0, .mvSpill 0 0 ⟨false, 0, 0⟩ false 0,
    .mvFill 0 0 ⟨false, 0, 0⟩ true 1, .mvFill 0 0 ⟨false, 0, 0⟩ false 0] : List Instr).all refusesIll = true := by decide +kernel
theorem test_wf_vec : ([.vMov 0 0 (.reg ⟨false, false, true, .p8, 0, 0, 0, 0, 0⟩), .vAbs 0 0 (.reg ⟨false, true, false, .p8, 0, 0, 0, 0, 0⟩),
    .vAdd 0 0 (.desc ⟨false, 1536, 0, 0, 0⟩), .softmax 0 0 1536 0, .smsum 0 0 0 1,
    .vQuant 0 0 1536 0 0 0, .vQuant 0 0 0 1536 0 0, .vQuant 0 0 0 0 1 0, .vPop 0 0 63 0 false, .vQzero 0 0 .i8 1, .vQzero 0 0 .p8 0,
    .vQrnd 0 0 false .p8 0 0 0, .vQrnd 0 0 false .p8 0 1 1, .vQspill 0 0 false 0 0, .vQfill 0 0 true 1 0, .vQfill 0 0 false 0 0] :
      List Instr).all refusesIll = true := by decide +kernel
theorem test_wf_move : ([.movAidx 0 0 0 6, .netSend 0 0 1 0 0 ⟨false, 0, 0⟩,
    .memRd 0 0 ⟨false, 0, 0, 0, 0, false, false, ⟨false, 0, 0⟩⟩ 0, .memWr 0 0 ⟨false, 0, 0, 0, 0, false, false, ⟨false, 0, 0⟩⟩ 0,
    .memQadd 0 0 ⟨false, 0, 0, 0, 0, false, false, ⟨false, 0, 0⟩⟩ .b32 0, .memMaxloc 0 0 ⟨false, 0, 0, 0, 0, false, false, ⟨false, 0, 0⟩⟩ .i8 0,
    .memRadd 0 0 ⟨false, 0, 0, 0, 0, false, false, ⟨false, 0, 0⟩⟩ .i8 0, .unknownCommand ⟨0, 0⟩ 1] : List Instr).all refusesIll = true := by
  decide +kernel
theorem test_lidx_outside_loops : (Instr.ctlLidx 0 0 0).wf = true ∧ issuing run0 0 = true ∧ refusedBy (.ctlLidx 0 0 0) run0 = true := by
  decide +kernel

/-! ### CTL slot -/

/-- A sequencer in a loop, with two scalars. -/
def seqS : Seq := { Seq.init with s := (Seq.init.s.set 1 5).set 2 0xFFFFFFFFFFFFFFFF, loops := [⟨3, 1, 0, 7⟩] }

theorem test_issuing : issuing (runS (Core.init 0) seqS) 0 = true ∧ (issueNow run0 0).prog = true := by decide +kernel
theorem test_li : runs (.ctlLi 0 false 5 0x80000000) run0
    (fun t => (t.die 0).seq.spend == [⟨1001, 1000, 5, 0xFFFFFFFF80000000⟩]) = true := by decide +kernel
theorem test_alu : runs (.ctlAlu 0 .sub 3 1 2 false 0) (runS (Core.init 0) seqS)
    (fun t => (t.die 0).seq.spend == [⟨1001, 1000, 3, 6⟩]) = true := by decide +kernel
theorem test_mul_wraps : runs (.ctlMul 0 3 2 2) (runS (Core.init 0) seqS)
    (fun t => (t.die 0).seq.spend == [⟨1003, 1000, 3, 1⟩]) = true := by decide +kernel
theorem test_lidx_reads : seqS.loops[(0 : Fin 8).val]? = some ⟨3, 1, 0, 7⟩ ∧ runs (.ctlLidx 0 3 0) (runS (Core.init 0) seqS)
    (fun t => (t.die 0).seq.spend == [⟨1001, 1000, 3, 1⟩]) = true := by decide +kernel
theorem test_linfo_reads : run0.run.run = some cfgS ∧ runs (.ctlLinfo 0 3 1) run0
    (fun t => (t.die 0).seq.spend == [⟨1002, 1000, 3, 9⟩]) = true := by decide +kernel
theorem test_scalar_last_write : (commitScalars 4 { Seq.init with spend := [⟨4, 1, 3, 7⟩, ⟨4, 2, 3, 9⟩, ⟨5, 2, 3, 1⟩] }).s[3] = 9 := by
  decide +kernel
theorem test_jump_back : (0 : Int) ≤ (seqS.pc : Int) + (0 : BitVec 20).toInt ∧ runs (.ctlJmp 0 0) (runS (Core.init 0) seqS)
    (fun t => (t.die 0).seq.jump == some 0 && (t.die 0).seq.nops == 2) = true := by decide +kernel
theorem test_branch : runs (.ctlBr 0 .lt 2 1 5) (runS (Core.init 0) seqS) (fun t => (t.die 0).seq.jump == some 5) = true := by decide +kernel
theorem test_loop_pushes : runs (.ctlLoop 0 false 0 4 2) run0
    (fun t => (t.die 0).seq.loops == [⟨4, 0, 1, 3⟩] && (t.die 0).seq.nops == 0) = true := by decide +kernel
theorem test_loop_zero : runs (.ctlLoop 0 true 0 4 2) run0
    (fun t => (t.die 0).seq.loops == [] && (t.die 0).seq.jump == some 4 && (t.die 0).seq.nops == 2) = true := by decide +kernel
theorem test_loop_count : (fun x : List Loop × Nat => advance x.1 x.2)^[2] ([⟨2, 0, 8, 8⟩], 8) = advance [] 8 := by decide +kernel
theorem test_signal_sends : runs (.ctlSig 0 3 0x8001) run0 (fun t => t.fabric.signals.contains ⟨0, 0, 3, 1008, some 9, 0, 0⟩ &&
    t.fabric.signals.contains ⟨0, 15, 3, 1152, some 9, 0, 0⟩ && t.fabric.signals.length == 2) = true := by decide +kernel

/-- A signal that is due, and one that was sent in an earlier lap. -/
def sigS (lap : Nat) : State := { run0 with fabric := { Fabric.init with signals := [⟨1, 0, 3, 1000, some lap, 0, 0⟩] } }

theorem test_signal_counts : 1 ≤ (sigS 9).laps.cyc ∧ (sigS 9).laps.cyc ≤ lapD (sigS 9) ∧ 1000 ≤ absD (sigS 9) ∧
    runs (.signalArrive 0 3) (sigS 9) (fun t => (t.die 0).seq.bar[3] == 1 && t.fabric.signals == []) = true := by decide +kernel
theorem test_signal_of_reset_die : runs (.signalArrive 0 3) { sigS 9 with fabric := { Fabric.init with signals := [⟨1, 0, 3, 1000, some 9, 7, 0⟩] } }
    (fun t => (t.die 0).seq.bar[3] == 0 && t.fabric.signals == []) = true := by decide +kernel
theorem test_signal_late : runs (.signalArrive 0 3) (sigS 8) (fun t => t.laps.progFault) = true := by decide +kernel

/-- A wait for 2 of counter 3, issued in cycle 990 with limit `l`, with `n` counted; the cycle is 1,000. -/
def waitS (l n : Nat) : State := runS (Core.init 0) { Seq.init with wait := some ⟨3, 2, l, 990⟩, bar := Seq.init.bar.set 3 n }

theorem test_wait_starts : runs (.ctlWait 0 3 2 9) run0 (fun t => (t.die 0).seq.wait == some ⟨3, 2, 9, 1000⟩) = true := by decide +kernel
theorem test_wait_met : runs (.waitMet 0) (waitS 10 2) (fun t => (t.die 0).seq.wait == none && (t.die 0).seq.bar[3] == 0 &&
    (t.die 0).seq.nops == 1) = true := by decide +kernel
theorem test_wait_not_met : runs (.waitMet 0) (waitS 10 1) (fun t => t == waitS 10 1) = true ∧
    runs (.waitLimit 0) (waitS 10 1) (fun t => t == waitS 10 1) = true := by decide +kernel
theorem test_wait_limit : (waitS 9 2).laps.now = 990 + 9 + 1 ∧ runs (.waitLimit 0) (waitS 9 2) (fun t => t.laps.progFault) = true ∧
    runs (.waitMet 0) (waitS 9 2) (fun t => t == waitS 9 2) = true := by decide +kernel
theorem test_page_loads : 1 * 1024 < streamLen run0 0 ∧ runs (.ctlPage 0 false 0 1) run0
    (fun t => (t.die 0).seq.frames[1] == .loading 1 0 1000 && (t.die 0).seq.pageQ == [1]) = true := by decide +kernel
theorem test_page_range : streamLen run0 0 ≤ 2 * 1024 ∧ runs (.ctlPage 0 false 0 2) run0 (fun t => t.laps.progFault) = true := by decide +kernel

/-- A frame whose last word came in cycle 824. -/
def pageS (last : Nat) : State := runS (Core.init 0) { Seq.init with frames := Seq.init.frames.set 1 (.loading 1 1024 last) }

theorem test_page_held : pageWords (pageS 824) 0 1 = 1024 ∧ runs (.pageLoadDone 0 1) (pageS 824) (fun t => (t.die 0).seq.frames[1] == .held 1) = true ∧
    runs (.pageLoadDone 0 1) (pageS 825) (fun t => t == pageS 825) = true := by decide +kernel
theorem test_resident_reload : runs (.residentReloadDone 0) { idleS with
      dies := Vector.replicate 16 { dieS (Core.init 0) Seq.init with regs := { DieRegs.init with state := 1 } }
      run := { RunSt.init with program := some progS } } (fun t => (t.die 0).regs.state == 2) = true := by decide +kernel
theorem test_coll : runs (.ctlColl 0 3 0 .sum 0) run0 (fun t => (t.die 0).seq.colls.length == 1) = true := by decide +kernel
theorem test_pstep : runs (.ctlPstep 0 1) (runS (Core.init 0) seqS) (fun t => (t.die 0).seq.pstepNext == some 5) = true := by decide +kernel
theorem test_lap_end : runs (.lapEnd 0 true) run0 (fun t => (t.die 0).seq.endCyc == some 112 && (t.die 0).seq.final) = true := by decide +kernel


/-! ### MXA, MXB and MVP slots -/

/-- Whether the command completes and leaves core 0 of die 0 as `f` accepts. -/
def becomes (i : Instr) (s : State) (f : Core → Bool) : Bool :=
  runs i s fun t => match (t.die 0).cores[0]? with | some c => f c | none => false

/-- A run whose core has this array as MXA. -/
def arrS (m : MArray) : State := runS { Core.init 0 with mxa := m } Seq.init

/-- Operand at a core store address. -/
def at0 (a : Nat) : Csa := ⟨false, 0, BitVec.ofNat 16 a⟩

theorem test_acts : Acts run0 0 ∧ (run0.die 0).cores[0]? = some (Core.init 0) := by unfold Acts; decide +kernel
theorem test_mxcfg : capOk .p16 12 = true ∧ (MArray.init 0).feed = [] ∧ becomes (.mxCfg 0 .mxa .p16 12) run0
    (fun c => c.mxa.fmt == .p16 && c.mxa.cap == 12 && c.mxa.cfgAt == 1000 && c.mxb.fmt == .p8) = true := by decide +kernel
theorem test_mxldw : (MArray.init 0).loadEnd < 1000 ∧ csaAddr (Core.init 0) (at0 0xBF00) + 15 * 16 + rowBytes .p8 = 0xC000 ∧
    becomes (.mxLdw 0 .mxa 0 .p8 16 16 (at0 0xBF00)) run0 (fun c => c.mxa.ldw == some ⟨1000, 0xBF00, 16, 16, .p8⟩ && c.mxa.loadEnd == 1017) = true ∧
    becomes (.mxLdw 0 .mxa 1 .p8 16 16 (at0 0xBF00)) run0 (fun c => c.mxa.ldw == none && c.mxa.loadEnd == 1017) = true := by decide +kernel
theorem test_mxswap : becomes (.mxSwap 0 .mxb) run0 (fun c => c.mxb.active1 && c.mxb.winOpen == 1019 && !c.mxa.active1) = true := by
  decide +kernel
theorem test_loader_rows : ((List.range 16).foldl (fun m i => loaderTick (10 + 2 + i) [⟨0, 1⟩, ⟨17, 2⟩] m)
    { MArray.init 0 with ldw := some ⟨10, 0, 16, 2, .p8⟩ }).bank1.w = 1 :: List.replicate 16 0 ++ 2 :: List.replicate 238 0 := by
  decide +kernel

/-- A P8 group of one tile row, at the last row of the accumulator memory. -/
def groupS : Group := ⟨.p8, 31, [⟨List.replicate 16 (Quire.zero .p8), 0, none, false, 0, 0⟩], false, none, 0⟩
/-- An array with that group open. -/
def openS : MArray := { MArray.init 0 with groups := (MArray.init 0).groups.set 2 (some groupS) }

theorem test_mxopen : 31 + 1 ≤ tileRows .p8 ∧ overlaps (MArray.init 0) 2 (groupRange .p8 31 1) = false ∧
    becomes (.mxOpen 0 .mxa 1 31 .p8 2) run0 (fun c => c.mxa.groups[2].any (fun g => g.first == 31 && g.rows.length == 1)) = true := by
  decide +kernel
theorem test_mxzero_free : openS.portTo ≤ 1000 ∧ (∀ r ∈ groupS.rows, r.doneAt ≤ 1000) ∧
    becomes (.mxZero 0 .mxa 0 2) (arrS openS) (fun c => decide (1000 < c.mxa.portTo)) = true ∧
    becomes (.mxZero 0 .mxa 1 2) (arrS openS) (fun c => decide (1000 < c.mxa.portTo)) = true ∧
    becomes (.mxFree 0 .mxa 2) (arrS openS) (fun c => c.mxa.groups[2] == none && c.mxa.portTo == 1001) = true := by decide +kernel

/-- Weights and one vector of ones in P8 (0x40). -/
def strmS : MArray := { openS with bank0 := ⟨.p8, List.replicate 256 0x40, List.replicate 256 (cellRes .p8 0x40)⟩, feed := [⟨1000, .p8, List.replicate 16 0x40, 7⟩] }

theorem test_mxstrm_sums : groupS.first ≤ 31 ∧ pairOk .p8 .p8 .p8 = true ∧
    becomes (.mxStrm 0 .mxa 0 ⟨false, 0, 31⟩ 2) (arrS strmS) (fun c => c.mxa.feed == [] && c.mxa.groups[2].any (fun g =>
      g.rows.all fun r => r.vecs == 1 && r.tag == some 7 && r.accs.all fun q => q.val == 16 * 2 ^ 48 && q.terms == 16)) = true ∧
    becomes (.mxStrm 0 .mxa 1 ⟨false, 0, 31⟩ 2) (arrS strmS) (fun c => c.mxa.feed == [] && c.mxa.groups[2].any (fun g =>
      g.rows.all fun r => r.vecs == 0 && r.accs.all fun q => q.val == 0 && q.terms == 0)) = true := by decide +kernel
theorem test_add_terms : (Quire.zero .p8).addTerms [some (3, 3), some (-1, 65534)] 2 2 =
      { Quire.zero .p8 with val := 2, terms := 2, res := 2 } ∧
    (Quire.zero .p8).addTerms [some (-1, 65534), some (3, 3)] 2 2 = (Quire.zero .p8).addTerms [some (3, 3), some (-1, 65534)] 2 2 ∧
    ((Quire.zero .p8).addTerms [none] 1 2).nar = true ∧ ((Quire.zero .p8).addTerms [some (1, 1)] 3 2).sat = true := by decide +kernel
theorem test_terms : (prodTerm .p8 .p8 .p8 0 0x40 0x48).map (·.1) = some (2 * 2 ^ 48) ∧
    (prodTerm .p16 .p8 .p16 0 0x40 0xC000).map (·.1) = some (-(2 ^ 112)) ∧ prodTerm .p8 .p8 .p8 0 0x40 0x80 = none ∧
    (positTerm .p8 .p8 0x38).map (·.1) = some (2 ^ 47) := by decide +kernel

/-- A group whose accumulators hold 16. -/
def sumS : Group := { groupS with rows := groupS.rows.map fun r => { r with accs := List.replicate 16 { Quire.zero .p8 with val := 16 * 2 ^ 48, terms := 16, res := resOf (16 * 2 ^ 48) } } }
/-- A run whose MXA holds it, over a core store. -/
def sumRun (cs : Mem) : State :=
  runS { Core.init 0 with cs := cs, mxa := { MArray.init 0 with groups := (MArray.init 0).groups.set 2 (some sumS) } } Seq.init

/-- An exit descriptor of P8 with a channel table that ends the core store and scales by one (Tables 6-4, 6-5). -/
def scaleCs : Mem := [⟨1, 2⟩, ⟨3, 0xBF⟩] ++ (List.range 16).map fun j => ⟨0xBF03 + 16 * j, 0x40⟩

theorem test_mxclose : parseExit (zeros 32) ≠ none ∧ becomes (.mxClose 0 .mxa 0 0 ⟨false, 0, 31⟩ 2) (sumRun [])
      (fun c => c.tq.length == 1 && c.tq.all fun e => e.enter == 1011 && e.elems == List.replicate 16 0x60) = true ∧
    csOk 0xBF00 16 256 = true ∧ becomes (.mxClose 0 .mxa 0 0 ⟨false, 0, 31⟩ 2) (sumRun scaleCs)
      (fun c => c.tq.all fun e => e.elems == List.replicate 16 0x60) = true ∧
    becomes (.mxClose 0 .mxa 1 0 ⟨false, 0, 31⟩ 2) (sumRun []) (fun c => c.tq.all fun e => e.elems == List.replicate 16 0) = true := by
  decide +kernel
theorem test_mxspill_fill : sumS.base = none ∧ (0xB000 : Nat) % 8 = 0 ∧ becomes (.mxSpill 0 .mxa 0 (at0 0xB000) false 2) (sumRun [])
      (fun c => c.mxa.groups[2].any (fun g => g.base == some 0xB000 && g.rows.all fun r => r.accs.all fun q => q.val == 0) &&
        c.pend.length == 16 * imgSize .p8) = true ∧
    (∀ x ∈ groupImages sumS 0xB000, (readImage (Core.init 0) .p8 x).2 = fmtCode .p8) ∧
    becomes (.mxFill 0 .mxa 0 (at0 0xB000) false 2) (sumRun []) (fun c => c.mxa.groups[2].any (fun g => g.base == some 0xB000) &&
      c.pend == []) = true ∧
    becomes (.mxSpill 0 .mxa 1 (at0 0xB000) true 2) (sumRun []) (fun c => c.mxa.groups[2].any (fun g => g.base == none)) = true := by
  decide +kernel

/-- A core with ones in V0 and in its core store. -/
def onesC : Core := { Core.init 0 with v := (List.range 64).map fun i => ⟨i, 0x40⟩, cs := (List.range 64).map fun i => ⟨i, 0x40⟩ }

theorem test_mvopen_zero : (∀ n : Fin 16, ((Core.init 0).mvp.accs[n]).held ≤ 1000) ∧
    becomes (.mvOpen 0 .p16) run0 (fun c => c.mvp.fmt == .p16 && c.mvp.svcTo == 1001) = true ∧
    becomes (.mvZero 0 0 0x8000) run0 (fun c => (c.mvp.accs[15]).svcAt == 1001 && (c.mvp.accs[0]).svcAt == 0) = true := by decide +kernel
theorem test_mvdot : becomes (.mvDot 0 0 .p8 .p8 3 0 48 (at0 16)) (runS onesC Seq.init)
      (fun c => (c.mvp.accs[3]).q.val == 16 * 2 ^ 48 && (c.mvp.accs[3]).held == 1011 && (c.mvp.accs[2]).q.val == 0) = true ∧
    becomes (.mvDot 0 1 .p8 .p8 3 0 48 (at0 16)) (runS onesC Seq.init) (fun c => c.mvp == onesC.mvp) = true := by decide +kernel
theorem test_mvcol : mvColOk .p8 .p8 0 63 = true ∧ becomes (.mvCol 0 0 .p8 .p8 0 0 63 (at0 48)) (runS onesC Seq.init)
    (fun c => (c.mvp.accs[0]).q.val == 2 ^ 48 && (c.mvp.accs[15]).q.val == 2 ^ 48) = true := by decide +kernel
theorem test_mvclose : mvCloseOk 767 1535 16 0 = true ∧ becomes (.mvClose 0 0 767 1535 16 0) run0
      (fun c => c.pend.length == 16 && c.pend.all (fun w => w.ready == 1009) && c.mvp.svcTo == 1002) = true ∧
    becomes (.mvClose 0 1 767 1535 16 0) run0 (fun c => c.pend == [] && c.mvp.exits == 1) = true := by decide +kernel
theorem test_mvspill_fill : becomes (.mvSpill 0 0 (at0 0x100) false 0x8001) run0 (fun c => (c.mvp.accs[15]).base == some (0x100 + imgSize .p8) &&
      (c.mvp.accs[1]).base == none && c.pend.length == 2 * imgSize .p8) = true ∧
    becomes (.mvFill 0 0 (at0 0x100) false 0x8001) run0 (fun c => (c.mvp.accs[0]).base == some 0x100 && c.pend == []) = true ∧
    becomes (.mvSpill 0 1 (at0 0x100) true 0x8001) run0 (fun c => (c.mvp.accs[0]).base == none) = true ∧
    becomes (.mvFill 0 1 (at0 0x100) false 0x8001) run0 (fun c => (c.mvp.accs[0]).base == none && decide (1000 < c.mvp.svcTo)) = true := by
  decide +kernel
theorem test_spill_adds : (spillInto { Quire.zero .p8 with val := 5, terms := 1, res := 5 } { Quire.zero .p8 with val := -2, terms := 2, res := 65533 }).val = 3 ∧
    maxlocSlot .p8 (maxlocSlot .p8 (slotBytes 0x40 1) (slotBytes 0x48 2)) (slotBytes 0x48 0xFFFFFFFF) = slotBytes 0x48 2 := by decide +kernel
theorem test_core_faults : ((arrS strmS).die 0).cores[0]? = some { Core.init 0 with mxa := strmS } ∧ strmS.feed ≠ [] ∧
    runs (.mxCfg 0 .mxa .p8 0) (arrS strmS) (fun t => t.laps.progFault && t.faults.detected.map (·.cause) == [0x159]) = true ∧
    runs (.mxSwap 0 .mxa) (arrS { MArray.init 0 with loadEnd := 1000 }) (fun t => t.faults.detected.map (·.cause) == [0x114]) = true ∧
    runs (.mxStrm 0 .mxa 0 ⟨false, 0, 0⟩ 0) run0 (fun t => t.faults.detected.map (·.cause) == [0x112]) = true := by decide +kernel

/-! ### VEC slot -/

/-- Register form of P8 with destination `d`, first source `a`, second source `b`. -/
def regS (d a b : Reg6) : VForm := .reg ⟨false, false, false, .p8, d, a, b, 0, 0⟩

/-- Vector registers: V0 and V1 of ones in P8; the pipe is free. -/
def vecC : Core := { Core.init 0 with v := (List.range 128).map fun i => ⟨i, 0x40⟩, p := (Core.init 0).p.set 2 0x7FFF }

theorem test_vadd : (Core.init 0).vecTo ≤ 1000 ∧ vopOf (.vAdd 0 0 (regS 2 0 1)) = some (.arith .add, 0, regS 2 0 1, 0) ∧
    vFormOk (.arith .add) (regS 2 0 1) = true ∧ (VOp.arith .add).fmtOk .p8 = true ∧
    becomes (.vAdd 0 0 (regS 2 0 1)) (runS vecC Seq.init) (fun c => c.job.any (fun j => j.unit == 1 && j.units == 4) && c.pend.length == 16 &&
      c.pend.all fun w => match w.w with | .v a b => a / 64 == 2 && b == 0x48 | _ => false) = true := by decide +kernel
theorem test_vadd_predicated : (regBeat (.arith .add) ⟨false, false, false, .p8, 2, 0, 1, 0, 0⟩ 0
      { newJob (.vAdd 0 2 (regS 2 0 1)) (coreIn run0 0 0) 0 4 1000 0x7FFF with unit := 0 } vecC).1.pend.length = 15 ∧
    (regBeat (.arith .add) ⟨true, false, false, .p8, 2, 0, 1, 0, 0⟩ 0
      { newJob (.vAdd 0 2 (regS 2 0 1)) (coreIn run0 0 0) 0 4 1000 0x7FFF with unit := 0 } vecC).1.pend.getLast? =
      some ⟨1004, true, .v 143 0⟩ := by decide +kernel
theorem test_vcmp_bits : (regBeat (.cmp .ge) ⟨false, false, false, .p16, 0, 0, 1, 0, 0⟩ 3
      { newJob (.vCmp 0 0 false false .p16 3 0 1 .ge) (coreIn run0 0 0) 0 2 1000 0xFFFFFFFFFFFFFFFF with unit := 1 } vecC).1.pend =
      [⟨1003, true, .p 3 0xFFFFFFFFFFFF0000 0xFFFF0000⟩] := by decide +kernel

/-- Descriptors at 32-byte steps: P8 vectors of 16 at 0x400 and 0x800, an INT8 vector at 0x800, a P8 scalar at 0x900; the
first vector holds ones. -/
def tensMem : Mem :=
  [⟨1, 4⟩, ⟨4, 0x10⟩, ⟨0x21, 8⟩, ⟨0x24, 0x10⟩, ⟨0x41, 8⟩, ⟨0x42, 8⟩, ⟨0x44, 0x10⟩, ⟨0x61, 9⟩, ⟨0x64, 1⟩] ++
    (List.range 16).map fun i => ⟨0x400 + i, 0x40⟩
/-- A core that holds them. -/
def tensC : Core := { Core.init 0 with cs := tensMem }

/-- A run on it, with the scalars of V.QUANT at a fixed scale of one in S2 and S3, and ε in S4. -/
def tensS : State := runS tensC { Seq.init with s := ((Seq.init.s.set 2 0x0200000040000000).set 3 0xA00).set 4 0x20 }

theorem test_vneg_tensor : (descParts .vneg ⟨false, 1, 0, 0, 0⟩ tensC).isSome = true ∧
    ((tensS.die 0).cores.head?).map (descOcc .vneg ⟨false, 1, 0, 0, 0⟩) = some (descOcc .vneg ⟨false, 1, 0, 0, 0⟩ tensC) ∧
    becomes (.vNeg 0 0 (.desc ⟨false, 1, 0, 0, 0⟩)) tensS (fun c => c.job.any (fun j => j.nextAt == 1002 && j.units == 1) && c.pend == [] &&
      c.vecTo == 1003) = true ∧
    becomes (.vNeg 0 1 (.desc ⟨false, 1, 0, 0, 0⟩)) tensS (fun c => c.job.isNone && c.vecTo == 1003) = true := by decide +kernel
theorem test_vplog : becomes (.vPlog 0 0 false .andNot 3 2 0) (runS vecC Seq.init)
    (fun c => c.pend == [⟨1001, true, .p 3 0xFFFF 0⟩] && c.vecTo == 1004) = true := by decide +kernel
theorem test_vrdfl : becomes (.vRdfl 0 0 63) run0 (fun c => c.pend.length == 64 && c.pend.all fun w => w.ready == 1001) = true := by
  decide +kernel

/-- A core whose tile queue holds an entry with a row sum of 16. -/
def popC : Core := { Core.init 0 with tq := [⟨1000, .p8, List.replicate 16 0x40, 5, some (0x40, 0, { Quire.zero .p8 with val := 16 * 2 ^ 48, terms := 16, res := resOf (16 * 2 ^ 48) })⟩] }

theorem test_vpop : becomes (.vPop 0 0 62 15 true) (runS popC Seq.init) (fun c => c.tq == [] && (c.lq[15]).q.val == 16 * 2 ^ 48 && c.pend.length == 128) = true ∧
    becomes (.vPop 0 0 62 15 false) (runS popC Seq.init) (fun c => c.tq == [] && (c.lq[15]).q.val == 0) = true ∧
    becomes (.vPop 0 1 62 15 true) (runS popC Seq.init) (fun c => c.tq == [] && c.pend == []) = true := by decide +kernel
theorem test_lanes : becomes (.vQzero 0 0 .b32 0x8000) run0 (fun c => (c.lq[15]).q.fmt == .b32 && (c.lq[14]).q.fmt == .p8) = true ∧
    ((maskList 0x8001).all fun l => decide ((laneAcc (Core.init 0) l).q.fmt ≠ .b32)) = true ∧
    becomes (.vQrnd 0 0 false .p8 63 0x8001 0) run0 (fun c => c.pend == [⟨1009, true, .v 4032 0⟩]) = true ∧
    becomes (.vQrnd 0 1 false .p8 63 0x8001 0) run0 (fun c => c.pend == [] && c.vecDone == 1009) = true := by decide +kernel
theorem test_lane_images : (∀ l ∈ maskList 0x8001, csOk (0x100 + (if l = 0 then 0 else imgSize .p8)) 8 (imgSize .p8) = true) ∧
    becomes (.vQspill 0 0 false 0x8001 0x100) run0 (fun c => (c.lq[0]).base == some 0x100 && (c.lq[15]).base == some (0x100 + imgSize .p8)) = true ∧
    becomes (.vQfill 0 0 false 0x8001 0x100) run0 (fun c => (c.lq[15]).base == some (0x100 + imgSize .p8) && c.pend == []) = true ∧
    becomes (.vQspill 0 1 true 0x8001 0x100) run0 (fun c => (c.lq[0]).base == none && decide (1000 < c.vecTo)) = true ∧
    becomes (.vQfill 0 1 false 0x8001 0x100) run0 (fun c => (c.lq[0]).base == none && decide (1000 < c.vecTo)) = true := by decide +kernel

/-- V.RED operands: a sum, or a maximum, of one beginning and ended. -/
def redS (k : RedKind) : RedArgs := ⟨k, .p8, 0, true, true, false⟩

theorem test_vred : redOk (regS 2 0 0) (redS .sum) = true ∧ redFmtOk (redS .sum) .p8 = true ∧
    becomes (.vRed 0 0 (regS 2 0 0) (redS .sum)) (runS vecC Seq.init) (fun c => c.job.any (fun j => j.unit == 1)) = true ∧
    (redParts (redS .max) ⟨false, 3, 0, 0, 0⟩ tensC).isSome = true ∧
    becomes (.vRed 0 0 (.desc ⟨false, 3, 0, 0, 0⟩) (redS .max)) tensS (fun c => c.job.isSome && c.vecTo == 1003) = true ∧
    becomes (.vRed 0 1 (.desc ⟨false, 3, 0, 0, 0⟩) (redS .max)) tensS (fun c => c.job.isNone && c.vecTo == 1003) = true := by decide +kernel
theorem test_rows : rowCmdOf (.softmax 0 0 1 0) = some ⟨.softmax, 0, 1, 0, 0x7FF, 0⟩ ∧
    becomes (.softmax 0 0 1 0) tensS (fun c => c.job.isSome && c.vecTo == 1000 + 2 + (1 + 2 * 4 + 24)) = true ∧
    becomes (.softmax 0 1 1 0) tensS (fun c => c.job.isNone && c.vecTo == 1035) = true ∧ epsOk .p8 0x20 = true ∧
    becomes (.rmsnorm 0 0 1 0 0x7FF 4) tensS (fun c => c.job.isSome) = true := by decide +kernel
theorem test_vquant : (quantParts 2 0 tensC).isSome = true ∧ becomes (.vQuant 0 0 2 0 2 3) tensS (fun c => c.job.isSome) = true ∧
    becomes (.vQuant 0 1 2 0 2 3) tensS (fun c => c.job.isNone && decide (1000 < c.vecTo)) = true := by decide +kernel

/-- A fixed scale of 2^−4 (Table 22-2). -/
def fixS : QuantArgs := { quantArgs 0 0 with sfix := 0x20000000, mode := 2, clip := 655 }

theorem test_quant_worked : let q := quantRow .p16 .i8 fixS (fun _ => .rne) [0x5980, 0xA400, 0x5800, 0x4000]
    q.codes = [127, -128, 127, 16] ∧ q.clips = 3 ∧ q.scale = 0x20000000 ∧ q.zt = 0 := by decide +kernel
theorem test_quant_nan : (quantRow .p8 .i8 fixS (fun _ => .rne) [0x40, 0x80]).codes = [0, 0] ∧
    (quantRow .p8 .i4 (quantArgs 0 0) (fun _ => .rne) [0x40, 0xC0]).zt = 0 := by decide +kernel

/-! ### MOV, NET and MEM slots -/

/-- What a command leaves in the waiting writes of core 0. -/
def pends (i : Instr) (s : State) (f : List Pend → Bool) : Bool := becomes i s fun c => f c.pend

theorem test_movfeed : feedUsed (MArray.init 0) 1000 < 8 ∧ (MArray.init 0).cfgAt ≠ 1000 ∧ csOk 0xBFF0 (feedBytes .p8) (feedBytes .p8) = true ∧
    becomes (.movFeed 0 0 .mxb (at0 0xBFF0)) run0 (fun c => c.mxb.feed == [⟨1003, .p8, List.replicate 16 0, 0⟩]) = true ∧
    becomes (.movFeed 0 1 .mxb (at0 0xBFF0)) run0 (fun c => c.mxb.feed.length == 1) = true := by decide +kernel
theorem test_movtag : becomes (.movTag 0 .mxb (at0 0x400)) tensS (fun c => c.mxb.tagReg == 0x40) = true := by decide +kernel
theorem test_mov64 : csOk 0xBFC0 64 64 = true ∧ pends (.movLdv 0 0 63 (at0 0xBFC0)) run0 (fun l => l.length == 64 && l.all (·.ready == 1003)) = true ∧
    pends (.movStv 0 0 0 (at0 0xBFC0)) (runS onesC Seq.init) (fun l => l.length == 64 && l.all fun w => w.ready == 1002 &&
      (match w.w with | .cs a b => decide (0xBFC0 ≤ a) && b == 0x40 | _ => false)) = true ∧
    pends (.movCpy 0 0 (at0 0xBFC0) (at0 0)) (runS onesC Seq.init) (fun l => l.length == 64 && l.all (·.ready == 1003)) = true := by
  decide +kernel
theorem test_mov8 : csOk 0xBFF8 8 8 = true ∧ pends (.movLdp 0 0 15 (at0 0xBFF8)) run0 (fun l => l == [⟨1003, false, .p 15 0xFFFFFFFFFFFFFFFF 0⟩]) = true ∧
    pends (.movStp 0 0 2 (at0 0xBFF8)) (runS vecC Seq.init) (fun l => (l.map fun w => w.w) == [.cs 0xBFF8 0xFF, .cs 0xBFF9 0x7F, .cs 0xBFFA 0,
      .cs 0xBFFB 0, .cs 0xBFFC 0, .cs 0xBFFD 0, .cs 0xBFFE 0, .cs 0xBFFF 0]) = true := by decide +kernel
theorem test_mova : pends (.movAset 0 0 false 5 0 0xFFFF) run0 (fun l => l == [⟨1001, false, .a 5 0xFFFF⟩]) = true ∧
    pends (.movAset 0 0 true 5 3 0) tensS (fun l => l == [⟨1001, false, .a 5 0xA00⟩]) = true ∧
    pends (.movAadd 0 0 5 6 0xFFFF) run0 (fun l => l == [⟨1001, false, .a 5 0xFFFF⟩]) = true ∧
    runs (.movAidx 5 0 5 5) run0 (fun t => (t.die 5).cores.map (·.pend) == [[⟨1001, false, .a 5 5⟩]]) = true := by decide +kernel
theorem test_mov_inactive : ([.movLdv 0 1 0 (at0 0), .movStv 0 1 0 (at0 0), .movLdp 0 1 0 (at0 0), .movStp 0 1 0 (at0 0), .movCpy 0 1 (at0 0) (at0 0),
    .movAset 0 1 false 0 0 1, .movAadd 0 1 0 0 1, .movAidx 0 1 0 5] : List Instr).all (fun i => becomes i run0 (· == Core.init 0)) = true := by
  decide +kernel
theorem test_mesh : meshBad 0 .east 0xBFC0 (at0 0) (coreIn run0 0 0) (Core.init 0) = [] ∧ neighbour (sideN run0) 0 0 .east = some (1, 0) ∧
    runs (.netMesh 0 0 .east 0xBFC0 (at0 0)) run0 (fun t => t.fabric.data.map (fun y => (y.die, y.core, y.addr, y.arrive, y.live)) ==
      [(1, 0, 0xBFC0, 1060, true), (1, 0, 0xBFE0, 1061, true)]) = true ∧
    runs (.netMesh 0 1 .east 0xBFC0 (at0 0)) run0 (fun t => t.fabric.data.all (fun y => !y.live)) = true := by decide +kernel
theorem test_send : sendBad 0 0 256 0x8000 (at0 0x4000) (coreIn run0 0 0) (Core.init 0) = [] ∧ (sendTo (sideN run0) (Core.init 0) 0).isSome = true ∧
    runs (.netSend 0 0 0 255 0x8000 (at0 0x4000)) run0 (fun t => t.fabric.sends.length == 1 && (t.die 0).cores.all (·.injTo == 1256)) = true := by
  decide +kernel

/-- Data due at core 0 of die 0, and one of an inactive operation. -/
def dataS : State := { run0 with fabric := { Fabric.init with data := [⟨1, 0, 0, 0x100, [1, 2], 1000, true, true, 9, 0, 0⟩, ⟨1, 0, 0, 0x200, [3], 1000, true, false, 9, 0, 0⟩, ⟨1, 0, 0, 0x280, [5], 1000, true, true, 9, 7, 0⟩,
  ⟨1, 0, 0, 0x300, [4], 1001, true, true, 9, 0, 0⟩] } }

theorem test_net_arrive : runs (.netArrive 0 0) dataS (fun t => (t.die 0).cores.map (·.cs) == [[⟨0x100, 1⟩, ⟨0x101, 2⟩]] && t.fabric.data.length == 1) = true ∧
    runs (.netArrive 0 0) { dataS with fabric := { Fabric.init with data := List.replicate 5 ⟨1, 0, 0, 0x100, [1], 1000, true, true, 9, 0, 0⟩ } }
      (fun t => t.laps.progFault) = true := by decide +kernel

/-- The shared fields of a memory operation at the address of S5. -/
def memS (async : Bool) : MemArgs := ⟨async, 5, 0, 0, 3, async, false, at0 0x1000⟩
/-- A run with an address of die 0's near tier in S5. -/
def memRun : State := runS (Core.init 0) { Seq.init with s := Seq.init.s.set 5 0x10000 }

theorem test_radd_strict : strictNow { memRun with run := { memRun.run with run := some { cfgS with strict := true } } } = true ∧
    runs (.memRadd 0 0 (memS false) .b32 3) { memRun with run := { memRun.run with run := some { cfgS with strict := true } } }
      (fun t => t.laps.progFault && t.faults.detected.map (·.cause) == [0x169]) = true := by decide +kernel
theorem test_mem_requests : strictNow memRun = false ∧ (∀ y ∈ memIns memRun 0 0 (memS false), y.active = true → memInBad 0 false 64 64 64 y = false) ∧
    devLocate 0x10000 = some (false, 0, 0x10000) ∧
    ([.memRd 0 0 (memS false) 1, .memWr 0 0 (memS false) 1, .memQadd 0 0 (memS false) .p8 0, .memMaxloc 0 0 (memS false) .b32 0,
      .memRadd 0 0 (memS false) .b32 0] : List Instr).all (fun i => runs i memRun (fun t => (t.die 0).memQ.all (fun r => r.earliest == 1020 && r.target == 0) &&
        (t.die 0).memQ.length == 1)) = true ∧
    (∀ y ∈ memIns memRun 0 0 (memS true), y.active = true → memInBad 0 true 64 64 64 y = false) := by decide +kernel

/-- A static request of one stripe that has started. -/
def reqS (k : MemKind) : MemReq :=
  ⟨7, k, 0, 0, false, false, 900, 920, [⟨0, true, 0x10000, 0x1000, 256, 4, 0, []⟩], 0, 4, 4, 0, 0, false, 0, 0, none, 0⟩
/-- A run whose die 0 waits for it. -/
def reqRun (r : MemReq) (c : Core) : State :=
  let s := runS c Seq.init
  s.setDie 0 { s.die 0 with memQ := [r], near := { Tier.init with mem := [⟨0x10000, 9⟩], parity := [⟨0x4000, 9⟩] } }

theorem test_units_served : runs (.memUnitService 0 false) (reqRun (reqS .rd) (Core.init 0)) (fun t => (t.die 0).cores.all (fun c => c.pend.length == 256 &&
      c.pend.head? == some ⟨1000 + tierTail false, false, .cs 0x1000 9⟩) && (t.die 0).memQ.all (·.served == 4)) = true ∧
    runs (.memUnitService 0 false) { reqRun (reqS .wr) { Core.init 0 with cs := [⟨0x10FF, 7⟩] } with run := { RunSt.init with program := some progS } }
      (fun t => (t.die 0).near.mem == [⟨0x100FF, 7⟩]) = true ∧
    runs (.memUnitService 0 false) run0 (· == run0) = true := by decide +kernel

/-- The request served, long ago. -/
def doneS : State := reqRun { reqS .rd with served := 4, lastAt := 1, sig := some 3, parts := [⟨0, true, 0x10000, 0x1000, 256, 4, 4, []⟩] } (Core.init 0)

theorem test_mem_complete : reqDone doneS 0 7 = true ∧ runs (.memComplete 0) doneS (fun t => (t.die 0).memQ == [] &&
    t.fabric.signals == [⟨0, 0, 3, 1000, none, 0, 0⟩]) = true := by decide +kernel

/-! ### Laps and splits -/

/-- A state at the cut of its lap. -/
def cutS (s : State) : State := { s with laps := { s.laps with cyc := s.laps.len } }
/-- Whether the cut opens a lap of this state, length and run lap. -/
def opensLap (s : State) (st : BitVec 2) (len lap : Nat) : Bool :=
  runs (.lapCut 0) s fun t => t.laps.state == st && t.laps.len == len && t.laps.runLap == lap && t.laps.cyc == 0 && t.laps.moduleLap == s.laps.moduleLap + 1

/-- The admission of that run: parameter 7 for S1 of die 2, and a grid of 1,000 ns when asked for. -/
def admS (mode : BitVec 2) (target : Option Nat) : State :=
  cutS { idleS with
    run := { RunSt.init with program := some progS, admission := some ⟨{ cfgS with gridMode := mode }, [[], [], [0, 7]], ⟨0, 0⟩, 0, 0, 0, 0⟩ }
    laps := { idleS.laps with gridPeriod := 1000, gridPhase := 300, gridTarget := target }
    net := { idleS.net with ptpLocked := true } }

/-- A split run, with header blocks at 0x20000 and 0x30000 and the step block at 0x40000; `auto` is AUTO_RESUME at its start. -/
def splitA (auto : Bool) : RunCfg := { cfgS with split := some ⟨0x20000, 0x30000, [], 0x40000, 1, auto⟩ }
/-- That run without AUTO_RESUME. -/
def splitS : RunCfg := splitA false
/-- A recovery lap of a split run at its cut, its recovery complete. -/
def recS (auto : Bool) : State :=
  cutS { run0 with
    run := { run0.run with run := some (splitA auto) }
    laps := { run0.laps with state := 3 }
    faults := { Faults.init with recovering := true, recOfRun := true, recDone := true }
    split := { Splits.init with lap := 4, live := true } }

theorem test_cut_early : portOn run0 = true ∧ runs (.lapCut 0) run0 (fun t => t == run0) = true := by decide +kernel
theorem test_cut_abort : opensLap (cutS { run0 with laps := { run0.laps with lapFault := true } }) 3 4096 5 = true := by decide +kernel
theorem test_cut_idle : (∀ a, (cutS idleS).run.admission = some a → a.code ≠ 0) ∧ opensLap (cutS idleS) 0 4096 0 = true :=
  ⟨(fun _ h => nomatch h), by decide +kernel⟩
theorem test_cut_run : stopDue run0 = false ∧ cutMode cfgS run0 = 0 ∧ ((run0.die 0).seq.ended && (run0.die 0).seq.final) = false ∧
    opensLap (cutS run0) 1 4096 6 = true := by decide +kernel
theorem test_cut_starts : cutMode cfgS (admS 0 none) = 0 ∧ opensLap (admS 0 none) 1 4096 0 = true ∧
    runs (.lapCut 0) (admS 0 none) (fun t => (t.die 2).seq.s[1] == 7 && (t.die 2).seq.s[0] == 0 && (t.die 2).regs.state == 3) = true := by
  decide +kernel
theorem test_cut_grid : cutMode { cfgS with gridMode := 1 } (admS 1 none) ≠ 0 ∧ (700 < 1300 ∧ 1300 < 700 + 1000 ∧ 1300 % 1000 = 300 % 1000) ∧
    runs (.lapCut 700) (admS 1 none) (fun t => t.laps.gridTarget == some 1300 && t.laps.moduleLap == 0) = true ∧
    runs (.lapCut 700) (admS 1 (some 1300)) (fun t => t == admS 1 (some 1300)) = true ∧
    runs (.lapCut 1300) (admS 1 (some 1300)) (fun t => t.laps.moduleLap == 1) = true := by decide +kernel
theorem test_cut_recovered : recOutcome (recS true) = none ∧ stopDue (recS true) = false ∧ opensLap (recS true) 1 4096 4 = true ∧
    opensLap (recS false) 3 4096 5 = true := by decide +kernel

/-- A run lap in which every die executed LAP.END in cycle 40. -/
def endedS (strict : Bool) : State :=
  { runS (Core.init 0) { Seq.init with ended := true, endCyc := some 40 } with
    run := { run0.run with run := some { cfgS with strict := strict } } }

theorem test_overrun : runLapOpen run0 = true ∧ runs .lapOverrun (atCyc run0 (lapD run0 + 1)) (fun t => t.laps.progFault && t.laps.stopIssue &&
    t.laps.overrunCount == 1 && t.faults.detected.length == 16) = true := by decide +kernel
theorem test_no_overrun : runLapOpen (endedS false) = true ∧ (∀ d : Die, ∀ e, ((endedS false).die d).seq.endCyc = some e → ¬ lapD (endedS false) < e) := by
  refine ⟨by decide +kernel, fun d e h => ?_⟩
  have h0 : ∀ d : Die, ((endedS false).die d).seq.endCyc = some 40 := by decide +kernel
  have h1 : lapD (endedS false) = 3071 := by decide +kernel
  rw [h0 d] at h; cases h; omega
theorem test_early_close : let c := max (max 41 (energyCycle (endedS false) - 1024)) 0
    c + 1024 < 2 ^ (endedS false).laps.curK ∧ runs .earlyClose (atCyc (endedS false) c) (fun t => t.laps.len == c + 1024 && t.run.tdcNow == 1) = true ∧
    runs .earlyClose (atCyc (endedS true) c) (fun t => t == atCyc (endedS true) c) = true := by decide +kernel

/-- A run lap whose close phase has begun. -/
def closedS (cyc : Nat) (fault : Bool) : State :=
  { run0 with laps := { run0.laps with cyc := cyc, closed := true, lapFault := fault } }

theorem test_close_start : runs .closePhaseStart (atCyc run0 3072) (fun t => t.laps.closed && !t.laps.lapFault && t.net.egress.length == 0) = true ∧
    runs .closePhaseStart { atCyc run0 3072 with mladar := { Mladar.init with toDigest := [⟨1, true, 0, 0, 0, 64, 0, []⟩] } } (fun t => t.laps.lapFault) = true := by
  decide +kernel
theorem test_verdict : closeStart run0 + 256 = 3328 ∧ runs .lapVerdict (closedS 3328 false) (fun t => t.laps.verdict == some true) = true ∧
    runs .lapVerdict (closedS 3839 true) (fun t => t.laps.verdict == some false) = true ∧
    runs .lapVerdict { closedS 3328 false with run := { run0.run with run := some splitS }, split := { Splits.init with boundary := 1 } }
      (fun t => t.laps.verdict == some false) = true := by decide +kernel

/-- The close of a lap of a run with records, without a leaf, and with `n` bytes of record frames waiting. -/
def sealS (n : Nat) : State :=
  { closedS 3840 false with
    run := { run0.run with run := some { cfgS with records := true } }
    net := { run0.net with records := [⟨List.replicate n 0, [], []⟩] } }

theorem test_seal_fault : runs .lapSeal (closedS 3840 true) (fun t => t.laps.sealed) = true := by decide +kernel
theorem test_seal_fits : recordRun (sealS 0) = some { cfgS with records := true } ∧ runActive (sealS 0) = true ∧
    (((sealS 0).net.records.map fun x => x.payload.length).foldl (· + ·) 0 +
      ((List.range (sealS 0).mladar.leaves.length).map fun i => (recordFrame (sealS 0).mladar.leaves i).length).foldl (· + ·) 348) = 348 := by
  decide +kernel
theorem test_seal_stall : (32 * 2 ^ 20 : Nat) < 33554432 + 348 ∧ ((sealS 33554432).net.records.map fun x => x.payload.length) = [33554432] :=
  ⟨by decide, congrArg (fun n => [n]) (List.length_replicate ..)⟩

/-- A captured split state of a run. -/
def imageS : State :=
  { run0 with
    run := { run0.run with run := some splitS }
    split := { Splits.init with hdrDone := false, image := some ⟨false, 0, 0, 0, 0, 0, List.replicate 64 0, 0, 0, 0, 0, 0, zeros 64, List.replicate 16 (1 :: zeros 1023)⟩ } }

theorem test_split_header : splitCfgOf imageS = some ⟨0x20000, 0x30000, [], 0x40000, 1, false⟩ ∧ devLocate 0x20000 = some (false, 0, 0x20000) ∧
    runs .splitHeaderWritten imageS (fun t => t.split.hdrDone) = true := by decide +kernel
theorem test_stop_of_cut_cycle : let s := { run0 with split := { Splits.init with stop := true } }
    stopDue s = true ∧ stopDue { s with power := { Power.init with stopAt := 1000 } } = false ∧
    (askStop { s with laps := { s.laps with now := 1001 } }).power.stopAt = 0 ∧ (askStop run0).power.stopAt = 1000 := by decide +kernel
theorem test_controlled_stop : let s := cutS { run0 with split := { Splits.init with stop := true } }
    stopDue s = true ∧ runLapOpen s = true ∧ runs .controlledStop s (fun t => t.run.run == none && t.split.endReason == 4 && t.laps.committed) = true := by
  decide +kernel

/-! ### The network port and the Niwick transport -/

/-- Peer 0 bound, with every permission. -/
def peerP : Peer := { Peer.first with open_ := false, bound := true, addr := 7, port := 9, sender := 17, dataIn := true, dataOut := true, drainRx := true, recordRx := true }
/-- A port that carries frames, both priorities stopped, with that peer in entry 0. -/
def netS : Net := { Net.init 0x025A3C001234 with carries := true, bulkPfc := true, ctrlPfc := true, peers := (Net.init 0).peers.set 0 peerP }
/-- A frame of that peer. -/
def frameS (cls type : Byte) (seq : Word) (pay : List Byte) : Frame :=
  ⟨7, 0, 9, true, 1, cls, type, 0, 17, seq, 0, 0, 0, BitVec.ofNat 16 pay.length, 0, pay⟩
/-- Idle laps, and a run, with that port. -/
def idleN : State := { idleS with net := netS }
def runN : State := { run0 with net := netS, pacer := { Pacer.init with budget := Pacer.init.written } }

theorem test_frame_admitted : portOn idleN = true ∧ frameBad idleN (frameS 1 0 0 (zeros 64)) = false ∧ peerOf idleN (frameS 1 0 0 []) = some 0 ∧
    (netS.peers[0]).sender = (frameS 1 0 0 []).sender ∧ peerMay peerP 1 0 = true ∧ seqAct (seqOf idleN 0 0) 0 = .take 0 ∧
    seqAct (seqOf idleN 0 0) 255 = .take 255 ∧ seqAct (seqOf idleN 0 0) 256 = .discard := by decide +kernel
theorem test_command_frame : runs (.commandFrame (frameS 1 0 255 (zeros 64))) idleN (fun t => t.net.cmds == [⟨17, 255, 0, zeros 64⟩] &&
    (seqOf t 0 0).ackDue == some 2880) = true ∧ runs (.commandFrame (frameS 1 0 256 (zeros 64))) idleN (fun t => t.net.cmds == []) = true := by
  decide +kernel
theorem test_management_frame : frameBad idleN (frameS 3 0 0 (zeros 1024)) = false ∧ runs (.managementFrame (frameS 3 0 0 [0, 0, 1, 0, 5, 0, 0, 0])) idleN
    (fun t => t.net.mgmt == [⟨1, 0, [(0x10000, 5)], []⟩]) = true := by decide +kernel
theorem test_data_frame : stageFits runN cfgS ⟨0, 1, 0, 0, 4096⟩ 0 6 64 = true ∧ runs (.dataFrame (frameS 2 0 0 (zeros 64))) runN
      (fun t => t.net.ingress == [⟨6, 6, 0, false, 17, 0, 0, 0, zeros 64⟩] && (peerAt t 0).consumed == 1) = true ∧
    stageFits runN cfgS ⟨0, 1, 0xFFFF, 0x4000, 4096⟩ 2 6 1 = true ∧
    runs (.dataFrame { frameS 2 0 0 [1] with queue := 2 }) { runN with run := { runN.run with run := some { cfgS with strict := true } } }
      (fun t => t.net.ingress.map (·.lap) == [7]) = true := by decide +kernel
theorem test_data_over : lapBudget { runN with pacer := { Pacer.init with budget := Pacer.init.budget.set 0 0 } } 0 = 0 ∧
    runs (.dataFrame (frameS 2 0 0 (zeros 64))) { runN with pacer := { Pacer.init with budget := Pacer.init.budget.set 0 0 } }
      (fun t => t.net.ingress == [] && t.pacer.events == 2 && (seqOf t 0 1).rxNext == 0) = true ∧
    runs (.dataFrame (frameS 2 0 0 (zeros 64))) idleN (fun t => t.net.ingress == [] && t.net.rxDropped == 1 && t.net.events == 0x10) = true := by
  decide +kernel
theorem test_direct_write : MemCanonical idleN ∧ devLocate 0x1000000000F = some (true, 0, 15) ∧
    runs (.directWrite (frameS 2 3 0 ([0x40, 0, 0, 0, 8, 0, 0, 0] ++ 5 :: zeros 63))) idleN (fun t => (t.die 1).near.mem == [⟨0x40, 5⟩]) = true :=
  ⟨canonical_of _ (by decide +kernel) (by decide +kernel) (by decide +kernel), by decide +kernel, by decide +kernel⟩
theorem test_ack_frame : runs (.ackFrame { frameS 2 1 0 [] with ack := 1 })
    (idleN.setSeqOf 0 1 { SeqSt.init with txNext := 2, unacked := [⟨⟨0, 1, 0x3C001234, 1, 0, 0, 0, 0, 0, 0, 0, []⟩, 0, 0⟩, ⟨⟨0, 1, 0x3C001234, 1, 0, 0, 1, 0, 0, 0, 0, []⟩, 0, 0⟩] })
    (fun t => (seqOf t 0 1).unacked.map (fun u => u.frame.seq) == [1]) = true := by decide +kernel

theorem test_solicit : linkLocal 0x025A3C001234 = 0xFE80000000000000005A3CFFFE001234 ∧ runs (.neighbourSolicitation 5 (linkLocal 0x025A3C001234) 6) idleN
    (fun t => t.net.sent == [.advert 5 (linkLocal 0x025A3C001234) 6]) = true ∧ runs (.neighbourSolicitation 5 1 6) idleN (fun t => t == idleN) = true := by
  decide +kernel
theorem test_ptp : let netS := { netS with ctrlPaused := true }
    runs (.ptpSync 100) { idleN with net := { netS with ptpGood := 15 } } (fun t => t.net.ptpLocked) = true ∧
    runs (.ptpSync 101) { idleN with net := { netS with ptpGood := 15 } } (fun t => !t.net.ptpLocked && t.net.ptpGood == 0) = true ∧
    runs (.ptpSync (-1001)) { idleN with net := { netS with ptpBad := 3, ptpLocked := true } } (fun t => !t.net.ptpLocked) = true ∧
    runs (.ptpSync 1000) { idleN with net := { netS with ptpBad := 3, ptpLocked := true } } (fun t => t.net.ptpLocked) = true := by decide +kernel
theorem test_ptp_loss : runs .ptpSyncLoss { idleN with net := { netS with ptpLocked := true }, laps := { idleN.laps with now := 2820000000 } }
      (fun t => !t.net.ptpLocked) = true ∧ runs .ptpSyncLoss idleN (fun t => t == idleN) = true ∧
    runs (.ptpDelayResponse false 7) idleN (fun t => t.net.ptpDelay == 7) = true := by decide +kernel
theorem test_pause : runs (.pfcReceive true 1) idleN (fun t => t.net.ctrlPaused) = true ∧ runs (.pauseTimeExpiry true) { idleN with net := { netS with ctrlPaused := true, ctrlUntil := 1000 } }
      (fun t => !t.net.ctrlPaused) = true ∧ runs (.pauseTimeExpiry true) { idleN with net := { netS with ctrlPaused := true, ctrlUntil := 1001 } }
      (fun t => t.net.ctrlPaused) = true ∧
    runs (.pfcResumeSend true) { idleN with net := { netS with ctrlPfc := true } } (fun t => t.net.sent == [.pfc true 0]) = true ∧
    runs (.pfcResumeSend false) { idleN with net := { netS with bulkPfc := true } } (fun t => !t.net.bulkPfc) = true := by decide +kernel
theorem test_port_link : runs (.portLinkChange 0xFE) idleN (fun t => !t.net.carries && t.net.lanes == 0xFE) = true ∧
    runs (.discardedFrame .tooLong) idleN (fun t => t.net.rxDropped == 1) = true ∧
    runs (.discardedFrame .fcs) idleN (fun t => t.net.rxDropped == 0) = true := by decide +kernel

/-- Two frames of released egress, the second for peer 0. -/
def outS (room : Nat) : State := { idleN with net := { netS with out := [⟨0, 0, 1, false, 0, 0, 0, 1⟩, ⟨0, 1, 0, true, 5, 0, 0x40, 1⟩], storeBytes := room } }

theorem test_egress : mayTransmit (outS 0) 0 1 = true ∧ runs (.egressTransmit 0) (outS (64 * 2 ^ 20 - 1)) (fun t =>
      t.net.sent == [.niwick (wireTo (outS 0) 0 1) ⟨0, 1, 0x3C001234, 1, 0, 1, 0, 0, 0, 1, 5, [0]⟩] && (seqOf t 0 1).unacked.length == 1) = true ∧
    runs (.egressTransmit 0) (outS (64 * 2 ^ 20)) (fun t => t == outS (64 * 2 ^ 20)) = true := by decide +kernel
theorem test_egress_discard : let s := { outS 0 with laps := { idleN.laps with cyc := 0, moduleLap := 2 } }
    runs .egressDiscard s (fun t => t.net.out == [] && t.net.egressLost == 2 && t.net.events == 2) = true := by decide +kernel

/-- A frame of class 2 that peer 0 has not acknowledged, sent `n` times again. -/
def unackedS (n : Nat) : State := { idleN with net := { netS with cfg := { NetCfg.init with rtoUs := 1 } } }.setSeqOf 0 1
  { SeqSt.init with txNext := 1, unacked := [⟨⟨0, 1, 0x3C001234, 1, 0, 0, 0, 0, 0, 0, 0, [3]⟩, n, 59⟩], ackDue := some 1000 }

theorem test_retransmit : rtoCycles (unackedS 15) = 940 ∧ runs (.retransmit 0 1) (unackedS 15) (fun t => t.net.retransmits == 1 && t.net.sent.length == 1) = true ∧
    runs (.retransmit 0 1) (unackedS 16) (fun t => (peerAt t 0).down && t.net.sent == [] && (seqOf t 0 1).unacked == []) = true := by decide +kernel
theorem test_ack_delay : mayTransmit (unackedS 0) 0 1 = true ∧ runs (.ackDelay 0 1) (unackedS 0) (fun t => (seqOf t 0 1).ackDue == none &&
    t.net.sent == [.niwick ⟨0, 1, 3, peerP.addr, peerP.port⟩ ⟨0, 1, 0x3C001234, 1, 1, 0, 1, 0, 0, 0, 0, []⟩]) = true := by decide +kernel
theorem test_wire : let s := { idleN with net := { netS with firstMac := 5 } }
    (wireTo s 0 0).mac = 5 ∧ (wireTo s 0 0).pcp = 6 ∧ (wireTo s 0 3).pcp = 3 ∧
    (wireTo { s with net := { s.net with cfg := { NetCfg.init with gwMac := 9 } } } 0 1).mac = 9 := by decide +kernel
theorem test_record_transmit : let s := { idleN with net := { netS with records := [⟨[8], [0, 3], []⟩] } }
    maySend s 0 4 = true ∧ runs .recordTransmit s (fun t => t.net.records == [⟨[8], [3], [(0, 0)]⟩]) = true := by decide +kernel

/-- A drain of a header block with `n` bytes per cycle of budget. -/
def drainS (n : Nat) : State :=
  { runN with
    run := { runN.run with run := some splitS }
    pacer := { Pacer.init with budget := Pacer.init.budget.set 2 n }
    split := { Splits.init with draining := true, drainTotal := 17408 } }

theorem test_drain : drainPeer (drainS 1) = some 0 ∧ maySend (drainS 1) 0 3 = true ∧ lapBudget (drainS 1) 2 = 1 ∧
    runs .drainSend (drainS 1) (fun t => t.split.drainPos == 64 && t.net.sent.length == 1) = true ∧
    runs .drainSend (drainS 0) (fun t => t.split.drainPos == 0 && t.pacer.events == 1) = true := by decide +kernel

/-- A deferred read of SCRATCH at a cut, under a budget. -/
def readS (n : Nat) : State :=
  { idleN with
    laps := { idleN.laps with cyc := 0, moduleLap := 1 }
    net := { netS with mgmt := [⟨1, 0, [(0xC, 0)], []⟩] }
    pacer := { Pacer.init with budget := Pacer.init.budget.set 3 n } }

theorem test_read_deferred : ctlRead (readS 1) 0xC = some 0 ∧ lapBudget (readS 1) 3 = 1 ∧
    runs .mgmtReadDeferred (readS 1) (fun t => t.net.mgmt == [] && t.net.replies == [(0, 2, [0xC, 0, 0, 0, 0, 0, 0, 0])]) = true ∧
    runs .mgmtReadDeferred (readS 0) (fun t => t.net.mgmt.length == 1 && t.pacer.events == 4) = true := by decide +kernel

/-! ### Controller commands, the recovery responder and the registers -/

/-- The requester and token of a command. -/
def reqC : CmdReq := ⟨3, 0x01020304⟩
/-- Whether a command is answered with a status, and the state is as `f` accepts. -/
def answers (i : Instr) (s : State) (status : Byte) (f : State → Bool) : Bool :=
  runs i s fun t => (match t.net.replies.getLast? with
    | some (3, 0, b) => (b.drop 1).head? == some status && (b.drop 4).take 4 == [4, 3, 2, 1]
    | _ => false) && f t

theorem test_ping : idle0.power.phase = .laps ∧ idle0.sec.responder = false ∧ answers (.ping reqC) idle0 0 (fun t => t.laps == idle0.laps) = true ∧
    answers (.recoverCommit reqC 64) idle0 1 (fun t => t.sec == idle0.sec) = true ∧
    ([0, 7, 8, 11, 255] : List Byte).all (fun c => answers (.unknownCommand reqC c) idle0 2 (fun _ => true)) = true := by decide +kernel
theorem test_load : answers (.load reqC 0) run0c 1 (fun t => t.run == run0c.run) = true ∧ answers (.load reqC 32) idle0 3 (fun t => t.run == idle0.run) = true ∧
    answers (.load reqC 0x8000000000) idle0 3 (fun t => t.run == idle0.run) = true ∧
    answers (.load reqC 0x7FFFFFFFC0) idle0 0 (fun t => (t.die 15).regs.state == 1) = true := by decide +kernel
theorem test_run : answers (.run reqC 0 0 false) run0c 1 (fun _ => true) = true ∧ answers (.run reqC 64 32 false) idle0 3 (fun _ => true) = true ∧
    answers (.run reqC 0x7FFFFFE040 0 false) idle0 3 (fun _ => true) = true ∧
    runs (.run reqC 0x7FFFFFE000 0x7FFFFFF5C0 false) idle0 (fun t => t.laps.admitPending && t.run.admission.any (fun a => a.code == 1 && a.req == reqC)) = true := by
  decide +kernel

/-- Recovery laps of a run with splits, its recovery complete. -/
def pausedS (auto : Bool) : State := atCyc (recS auto) 0

theorem test_resume : willResume (pausedS false) = true ∧ answers (.resume reqC) (pausedS false) 0 (fun t => t.split.resumeReq) = true ∧
    answers (.resume reqC) (pausedS true) 1 (fun t => !t.split.resumeReq) = true ∧ answers (.resume reqC) run0c 1 (fun _ => true) = true ∧
    answers (.resume reqC) { run0c with split := { Splits.init with resumeReq := true } } 0 (fun t => !t.split.resumeReq) = true := by decide +kernel
theorem test_stop : answers (.stop reqC) run0c 0 (fun t => t.split.stop) = true ∧ answers (.stop reqC) (pausedS true) 0 (fun t => t.split.stop) = true ∧
    willResume idle0 = false ∧ answers (.stop reqC) idle0 1 (fun t => !t.split.stop) = true := by decide +kernel

/-- A stream of two words: operations in the MXA and VEC slots, then the final LAP.END. -/
def twoWords (mx vec : Nat) (w : Nat) : List (Slot8 × Nat) :=
  slots8.map fun k => (k, match w, k with
    | 0, .mxa => mx
    | 0, .vec => vec
    | 1, .ctl => 0x3F00000000000001
    | _, _ => 0)

/-- That stream on die 0 of a program of 250 columns and laps of 4,096 cycles. -/
def streamS (w : Nat → List (Slot8 × Nat)) : Stream := ⟨0, 12, 250, 0, 2, 1024, 0, 0, w⟩

/-- A stream of `n` words: the operations listed by word and slot, the last the final LAP.END. -/
def wordsS (d : Die) (n : Nat) (l : List (Nat × Slot8 × Nat)) : Stream :=
  { streamS (fun w => slots8.map fun k =>
      (k, if k = .ctl ∧ w = n - 1 then 0x3F00000000000001 else ((l.find? fun y => decide (y.1 = w) && decide (y.2.1 = k)).map (·.2.2)).getD 0)) with
    die := d, len := n }

/-- NET.MESH east from die 0, whose 250 edge cores load the link with 8,000 B (R306, R309), and west, out of the grid; a
static MEM.RD by die 0 in the near tier of die 1 (R323), its address fixed by CTL.LI, and by die 1 that LAP.END finds unserved; MX.STRM with no entry
behind a branch whose operands CTL.LI fixes (R270). -/
theorem test_schedule_walk : scheduleCodes (wordsS 0 2 [(0, .net, 0x0104000000000000)]) = [0x58] ∧
    scheduleCodes (wordsS 0 2 [(0, .net, 0x010C000000000000)]) = [0x50] ∧
    (let li : List (Nat × Slot8 × Nat) := [(0, .ctl, 0x0100000500000000), (1, .ctl, 0x0108000500000008), (3, .mem, 0x0100A00000000001)]
     scheduleCodes { wordsS 0 6 li with near := 4 } = [0x59] ∧ scheduleCodes { wordsS 1 6 li with near := 4 } = [0x5A]) ∧
    (let br (imm : Nat) : List (Nat × Slot8 × Nat) := [(0, .ctl, 0x0100000100000000 + imm), (1, .ctl, 0x0100000200000001), (3, .ctl, 0x1000000108000004), (5, .mxa, 0x0400000000000000)]
     scheduleCodes (wordsS 0 12 (br 1)) = [] ∧ scheduleCodes (wordsS 0 12 (br 2)) = [0x33]) := by decide +kernel

/-- MX.STRM with an empty feeder queue (R104), a V.POP of an empty tile queue (R144), a word of NOPs. -/
theorem test_schedule : scheduleCodes (streamS (twoWords 0x0400000000000000 0)) = [0x33] ∧
    scheduleCodes (streamS (twoWords 0 0x2000004000000000)) = [0x3B] ∧ scheduleCodes (streamS (twoWords 0 0)) = [] := by decide +kernel

/-- A load in progress that every check of passes, its last die to finish. -/
def loadS (c : Byte) : State :=
  let s := { idleS with run := { RunSt.init with loading := if c = 0 then some progS else none, loadCodes := List.replicate 16 c } }
  (List.finRange 16).foldl (fun s d => if d = 3 then s else s.setDie d { s.die d with regs := { (s.die d).regs with loadDone := true } }) s

theorem test_load_done : (loadS 0).run.loadCodes[3]? = some 0 ∧ ((loadS 0).die 3).regs.loadDone = false ∧ ((loadS 0).die 3).due = 0 ∧
    runs (.loadDone 3) (loadS 0) (fun t => t.run.program == some progS && (t.die 3).regs.state == 2 && (t.die 3).seq.frames[0] == .held 0 &&
      (t.die 3).seq.frames[1] == .none) = true ∧
    runs (.loadDone 3) (loadS 0x20) (fun t => t.run.program == none && (t.die 3).regs.state == 0 && (t.die 3).regs.loadCode == 0x20) = true := by
  decide +kernel
theorem test_reset : runs (.reset reqC) idle0 (fun t => t.power.phase == .boot && t.ident.resetCause == 2 && t.laps.now == 1000 && t.net.replies == []) = true := by
  decide +kernel

/-- The recovery responder, with peer 0 bound to the sender of a frame. -/
def respS : State := { idle0 with net := { netS with peers := netS.peers.set 0 { peerP with open_ := false } }, sec := { Sec.init with responder := true, reason := 6 } }

theorem test_responder : respS.sec.commit = none ∧ runs (.ping reqC) respS (fun t => match t.net.sent with
      | [.responder _ f] => f.payload.take 2 == [1, 0] && (f.payload.drop 20).head? == some 6
      | _ => false) = true ∧
    runs (.reset reqC) { respS with sec := { respS.sec with commit := some (reqC, 64) } } (fun t => t.sec.commit == some (reqC, 64)) = true ∧
    runs (.recoverCommit reqC 64) respS (fun t => t.sec == respS.sec && t.net.sent.length == 1) = true := by decide +kernel
theorem test_recovery_write : seqAct (seqOf respS 0 1) 0 = .take 0 ∧ runs (.recoveryDirectWrite (frameS 2 3 0 ([0xC0, 0xFF, 0xFF, 0, 0, 0, 0, 0] ++ 5 :: zeros 63))) respS
    (fun t => t.sec.staging == [⟨0xFFFFC0, 5⟩]) = true := by decide +kernel

theorem test_wset : runs (.wsetStart 0) { idle0 with run := { RunSt.init with wsetCount := 256 } } (fun t => t.run.wsetStart) = true ∧
    runs (.wsetStart 0) { idle0 with run := { RunSt.init with wsetCount := 257 } } (fun t => t.run.wsetErrCode == 5) = true ∧
    runs (.wsetStart 0) run0c (fun t => t.run.wsetErrCode == 4) = true ∧
    runs .wsetDigestDone { idle0 with run := { RunSt.init with wsetBusy := true } } (fun t => t.run.wsetValid && !t.run.wsetBusy) = true := by decide +kernel
theorem test_verify : runs (.verify 0) idle0 (fun t => t.split.verifyStart) = true ∧ runs (.verify 0) run0c (fun t => t.split.errCode == 5) = true ∧
    runs (.cancel 0) { idle0 with split := { Splits.init with draining := true } } (fun t => !t.split.draining) = true := by decide +kernel

/-- A record of a fault of a core. -/
def faultR (cause die action : Nat) : FaultRec := ⟨1, cause, 0, die, 0, 0, 0, 5, 9, 100, 0, 0, action, 0, 0, 1000⟩

theorem test_fault_pop : runs (.faultPop 0) { idle0 with faults := { Faults.init with queue := [faultR 1 0 3, faultR 2 1 3] } }
      (fun t => t.faults.queue == [faultR 2 1 3]) = true ∧ runs (.faultPop 0) idle0 (fun t => t.faults.queue == []) = true ∧
    runs (.fenceClear 0) idle0 (fun t => t.faults.clearPending) = true := by decide +kernel
theorem test_budget : runs (.budgetWrite 0 1 0xFFFFFFFF) idle0 (fun t => t.pacer.written[1] == 8192) = true ∧
    runs (.budgetWrite 0 0 0xFFFFFFFF) idle0 (fun t => t.pacer.written[0] == 12288) = true ∧
    runs (.envelopeWrite 0 13) run0c (fun t => t.pacer.envStep == 12 && t.pacer.envPending) = true := by decide +kernel
theorem test_registers : ctlRead idle0 2 = none ∧ runs (.registerWrite 0 2 7) idle0 (fun t => t == idle0) = true ∧
    runs (.registerWrite 0 0xC 0xDEADBEEF) idle0 (fun t => ctlRead t 0xC == some 0xDEADBEEF) = true ∧
    runs (.registerWrite 0 0x40040 0x12) { idle0 with net := { netS with events := 0x13 } } (fun t => t.net.events == 1) = true := by decide +kernel

/-- Idle laps of a module whose peer 2 is an administrator, its firmware of version 5, booted from slot 0. -/
def adminS : State := { idle0 with sec := { Sec.init with admin := 4, secVerRun := 5, locked := false } }

theorem test_admin_denied : runs (.advance 0 true) adminS (fun t => t.sec.denied && t.sec.rollback == 0) = true ∧
    runs (.peerCfgWrite 0 15 0) adminS (fun t => t.sec.denied && t.net.peerCfgNext == []) = true ∧
    runs (.peerAdminWrite 0 1) adminS (fun t => t.sec.denied && t.sec.admin == 4) = true := by decide +kernel
theorem test_admin_busy : runs (.advance 2 true) { run0c with sec := adminS.sec } (fun t => t.sec.advFail && t.sec.rollback == 0) = true := by decide +kernel
theorem test_advance : runs (.advance 2 true) adminS (fun t => t.sec.rollback == 5 && t.sec.advDone) = true ∧
    runs (.advance 2 true) { adminS with sec := { adminS.sec with secVerRun := 70 } } (fun t => t.sec.rollback == 64) = true ∧
    runs (.advance 2 false) { adminS with sec := { adminS.sec with rollback := 5 } } (fun t => t.sec.rollback == 5 && t.sec.advDone) = true := by decide +kernel
theorem test_revoke : runs (.revoke0 2 true) adminS (fun t => t.sec.advFail && !t.sec.revoked[0]) = true ∧
    runs (.revoke1 2 true) adminS (fun t => t.sec.revoked[1] && !t.sec.revoked[0] && t.sec.advDone) = true ∧
    runs (.revoke0 2 true) { adminS with sec := { adminS.sec with slot := 1 } } (fun t => t.sec.revoked[0]) = true ∧
    runs (.revoke1 2 true) { adminS with sec := { adminS.sec with slot := 1 } } (fun t => t.sec.advFail) = true := by decide +kernel
theorem test_lock : runs (.lockService 2 true) adminS (fun t => t.sec.locked) = true ∧ runs (.lockService 2 false) adminS (fun t => t.sec.advFail && !t.sec.locked) = true ∧
    runs (.peerCfgWrite 2 15 0xFFFFFFFF) adminS (fun t => t.net.peerCfgNext == [(15, 0x10, 0x7FFFFF)]) = true ∧
    runs (.peerAdminWrite 2 0x8000) adminS (fun t => t.sec.admin == 0x8000) = true ∧ runs (.peerAdminWrite 2 0x10000) adminS (fun t => t.sec.admin == 4) = true := by
  decide +kernel

/-! ### Faults, recovery, power and bring-up -/

theorem test_detected : physOf run0 0 0 = some (0, 0) ∧ physOf run0 0 1 = some (0, 1) ∧ physOf run0 0 62500 = none ∧
    runs (.faultDetected (.core .csUe 0 0 4 7 0x123)) run0 (fun t => t.laps.lapFault && t.faults.detected.map (fun r => (r.cause, r.die, r.unit, r.detail, r.address, r.action)) ==
      [(1, 0, 4, 7, 0x123, 3)]) = true ∧
    runs (.faultDetected (.core .csUe 0 62500 4 7 0x123)) run0 (fun t => t == run0) = true ∧
    runs (.faultDetected (.die .seqLockstep 4 5)) run0 (fun t => (t.die 4).regs.lockstepSeen && t.faults.detected.map (·.action) == [5]) = true := by decide +kernel
theorem test_detected_link : let s (n : Nat) := { run0 with fabric := { Fabric.init with linkErrors := Fabric.init.linkErrors.set 27 n } }
    runs (.faultDetected (.link 27)) (s 3) (fun t => t.fabric.linkFailed.getLsbD 27 && t.faults.toRetrain.getLsbD 27) = true ∧
    runs (.faultDetected (.link 27)) (s 2) (fun t => t.fabric.linkFailed == 0 && t.fabric.linkErrors[27] == 3) = true := by decide +kernel
theorem test_detected_memory : runs (.faultDetected (.channel .memMulti 0 true 19 0)) run0 (fun t => (t.die 0).far.degraded) = true ∧
    runs (.faultDetected (.channel .memCtrlUe 0 true 19 0)) run0 (fun t => (t.die 0).far.chans[19].epoch == 1) = true ∧
    runs (.faultDetected (.wordCorrected 3)) run0 (fun t => (t.die 3).regs.wordCorrected == 1) = true := by decide +kernel
theorem test_detected_boot : let s (n : Nat) := { idleS with power := { Power.init with phase := .boot, restarts := n } }
    runs (.faultDetected .hub) (s 1) (fun t => t.power.restarts == 2 && !t.power.verified) = true ∧
    runs (.faultDetected .hub) (s 2) (fun t => t.sec.responder && t.sec.reason == 7) = true ∧
    runs (.faultDetected .hub) run0 (fun t => t.faults.detected.map (·.cause) == [17]) = true := by decide +kernel

/-- Detected records, with `n` in the queue. -/
def detS (l : List FaultRec) (n : Nat) : State := { run0 with faults := { Faults.init with detected := l, queue := List.replicate n (faultR 1 0 3) } }

theorem test_queue : runs .faultRecordQueue (detS [faultR 1 0 3] 255) (fun t => t.faults.queue.length == 256 && t.faults.total == 1 && t.laps.stopIssue) = true ∧
    runs .faultRecordQueue (detS [faultR 1 0 3] 256) (fun t => t.faults.queue.length == 256 && t.faults.lost == 1) = true ∧
    runs .faultRecordQueue (detS [faultR 1 2 3, faultR 1 1 3] 0) (fun t => t.faults.queue.map (·.die) == [1, 2]) = true ∧
    runs .faultRecordQueue (detS [] 3) (fun t => t == detS [] 3) = true := by decide +kernel
theorem test_queue_die_reset : bitAt 5 2 = true ∧ runs .faultRecordQueue (detS [faultR 7 4 5] 0) (fun t => (t.die 4).epoch == 1 && (t.die 9).copies[4] == 1 &&
    (t.die 4).resetFrom == some 1000 && t.faults.queue.map (·.epoch) == [1]) = true := by decide +kernel
theorem test_patrol : let s := runS { Core.init 0 with patrol := 0xBFF8 } Seq.init
    runs (.patrolRead 0 0 0) s (fun t => (t.die 0).cores.map (·.patrol) == [0]) = true ∧ runs (.patrolRead 0 0 1) s (fun t => t.faults.csCorrected == 1) = true ∧
    runs (.patrolRead 0 0 2) s (fun t => t.faults.detected.map (·.cause) == [1]) = true := by decide +kernel

/-- Idle laps at a cycle of the clock and of the lap, with die 4 in reset since cycle 1,000. -/
def resetS (now cyc : Nat) : State :=
  let s := { idleS with laps := { idleS.laps with now := now, cyc := cyc } }
  s.setDie 4 { s.die 4 with resetFrom := some 1000, epoch := 1 }

theorem test_die_reset_end : runs (.dieResetEnd 4) (resetS 5096 0) (fun t => (t.die 4).resetFrom == none) = true ∧
    runs (.dieResetEnd 4) (resetS 5095 0) (fun t => (t.die 4).resetFrom == some 1000) = true ∧
    runs (.dieResetEnd 4) (resetS 5096 1) (fun t => (t.die 4).resetFrom == some 1000) = true := by decide +kernel
theorem test_fenced : let r : MemReq := { reqS .rd with target := 4, die := 2 }
    let s := (resetS 1001 5).setDie 2 { (resetS 1001 5).die 2 with memQ := [r] }
    fencedReq s 4 r = true ∧ runs (.fencedCompletion 4) s (fun t => (t.die 2).memQ == [] && t.faults.detected.map (·.cause) == [18]) = true ∧
    runs (.fencedCompletion 4) idleS (fun t => t == idleS) = true := by decide +kernel
theorem test_packet : runs (.fabricPacketArrive 4 2 1 0 none) (resetS 1001 5) (fun t => t.faults.detected == []) = true ∧
    runs (.fabricPacketArrive 4 16 0 0 none) (resetS 1001 5) (fun t => t.faults.detected.map (·.cause) == [15]) = true ∧
    runs (.fabricPacketArrive 4 2 1 0 (some ⟨false, true, 19, 1⟩)) (resetS 1001 5) (fun t => t.faults.detected.map (·.cause) == [15]) = true ∧
    runs (.fabricPacketArrive 4 2 1 0 (some ⟨false, true, 19, 0⟩)) (resetS 1001 5) (fun t => t.faults.detected == []) = true := by decide +kernel

/-- Idle laps with a far channel of die 1 in this state. -/
def chanS (now cyc : Nat) (c : Chan) : State :=
  let s := { idleS with laps := { idleS.laps with now := now, cyc := cyc } }
  s.setTier 1 true { (s.die 1).far with chans := (s.die 1).far.chans.set 19 c }

/-- Such laps with a far read of die 1 that waits on channel 19 of that die, at cycle `now`. -/
def lateS (now : Nat) (c : Chan) : State :=
  let s := chanS now 5 c
  s.setDie 1 { s.die 1 with memQ := [{ reqS .rd with die := 1, target := 1, far := true, earliest := 348, parts := [⟨0, true, 0x1300, 0x1000, 256, 4, 0, []⟩] }] }

theorem test_mem_timeout : runs (.memResponseTimeout 1 true 19) (lateS 1001 ⟨0, 1, none, false⟩) (fun t => (t.die 1).far.chans[19] == ⟨1, 2, some 1001, false⟩) = true ∧
    runs (.memResponseTimeout 1 true 19) (lateS 1001 ⟨0, 2, none, false⟩) (fun t => (t.die 1).far.chans[19].failed) = true ∧
    runs (.memResponseTimeout 1 true 19) (lateS 1000 ⟨0, 1, none, false⟩) (fun t => t == lateS 1000 ⟨0, 1, none, false⟩) = true ∧
    runs (.memResponseTimeout 1 true 19) (lateS 1001 ⟨0, 2, none, true⟩) (fun t => (t.die 1).far.chans[19] == ⟨0, 2, none, true⟩) = true := by decide +kernel
theorem test_channel_reset_end : runs (.channelResetEnd 1 true 19 true) (chanS 5096 5 ⟨1, 1, some 1000, false⟩) (fun t => (t.die 1).far.chans[19] == ⟨1, 1, none, false⟩) = true ∧
    runs (.channelResetEnd 1 true 19 true) (chanS 5095 5 ⟨1, 1, some 1000, false⟩) (fun t => (t.die 1).far.chans[19].resetFrom == some 1000) = true ∧
    runs (.channelResetEnd 1 true 19 false) (chanS 5096 5 ⟨1, 1, some 1000, false⟩) (fun t => (t.die 1).far.chans[19].failed && t.laps.lapFault) = true := by decide +kernel
theorem test_refresh : runs (.refresh 1 true 19 1) (chanS 1000 112 Chan.init) (fun t => (t.die 1).far.banks[39] == some 1) = true ∧
    runs (.refresh 1 true 19 1) (chanS 1000 96 Chan.init) (fun t => (t.die 1).far.banks[39] == none) = true ∧
    runs (.refresh 1 false 19 0) (chanS 1000 96 Chan.init) (fun t => (t.die 1).near.banks[38] == some 1) = true := by decide +kernel

theorem test_mem_hot : runs (.memHot true false) idleS (fun t => t.power.phase == .off && t.power.latched) = true ∧
    runs (.memHot false true) idleS (fun t => t.power.stopPending && t.power.events == 6) = true ∧ runs (.memHot false false) idleS (fun t => !t.power.memHot) = true := by
  decide +kernel
theorem test_uv : let s (since now : Nat) := { idleS with power := { Power.init with uv := true, uvSince := some since }, laps := { idleS.laps with now := now } }
    runs .uvStop (s 1000 941000) (fun t => t.power.stopPending && t.power.events == 8) = true ∧ runs .uvStop (s 1000 940999) (fun t => !t.power.stopPending) = true ∧
    runs (.uvChange .falls39) idleS (fun t => t.power.uvSince == some 1000 && t.power.uv) = true ∧ runs (.uvChange .rises39) (s 1 5) (fun t => t.power.uvSince == none && !t.power.uv) = true ∧
    runs (.uvChange .falls40) idleS (fun t => t.power.below40 && !t.power.uv) = true ∧ runs (.uvChange .rises40) (s 1 5) (fun t => t.power.uvSince == none && !t.power.uv) = true ∧
    runs (.uvChange .rises40) { idleS with power := { Power.init with uv := true, stopPending := true, tj := Vector.replicate 16 950 } } (fun t => t.power.stopPending) = true := by
  decide +kernel

/-- A sample with one temperature on every die and another in the hub. -/
def sampleS (x y : Int) : Thermal := ⟨Vector.replicate 16 (Vector.replicate 8 (x, x)), Vector.replicate 2 (y, y), 250, 300⟩

theorem test_thermal : runs (.thermalSample (sampleS 1150 0)) idleS (fun t => t.power.phase == .off) = true ∧
    runs (.thermalSample (sampleS 0 1149)) idleS (fun t => t.power.phase == .laps && t.power.stopPending && t.power.hubTj == 1149) = true ∧
    runs (.thermalSample (sampleS 950 0)) idleS (fun t => t.power.warn && !t.power.stopPending) = true ∧
    runs (.thermalSample (sampleS 949 0)) { idleS with power := { Power.init with stopPending := true } } (fun t => !t.power.warn && !t.power.stopPending) = true ∧
    runs (.thermalSample { sampleS 900 0 with dies := (sampleS 900 0).dies.set 0 ((Vector.replicate 8 (900, 900)).set 0 (900, 849)) }) idleS (fun t => t.power.tj[0] == 1050 && t.power.sensorFail == [0] &&
      t.power.stopPending) = true := by decide +kernel
theorem test_clock : runs (.clockXchk 4092 true true) idleS (fun t => t == idleS) = true ∧ runs (.clockXchk 4100 true true) idleS (fun t => t == idleS) = true ∧
    runs (.clockXchk 4091 true true) idleS (fun t => t.faults.undecided) = true ∧ runs (.clockXchk 4101 false true) idleS (fun t => t.faults.oscDue) = true ∧
    runs (.clockXchk 4101 true false) idleS (fun t => t.faults.oscBFailed && !t.faults.oscDue) = true := by decide +kernel
theorem test_osc : let s (cyc : Nat) := { atCyc idleS cyc with faults := { Faults.init with oscDue := true } }
    runs .oscSwitch (s 0) (fun t => t.faults.oscB && !t.faults.oscDue && t.faults.oscAFailed) = true ∧ runs .oscSwitch (s 1) (fun t => !t.faults.oscB) = true ∧
    runs (.driftCheck 201) idleS (fun t => t.faults.drift) = true ∧ runs (.driftCheck 200) idleS (fun t => !t.faults.drift) = true := by decide +kernel

/-- Recovery laps after a fault of physical core (5, 6) of die 4, of a run or of none. -/
def recovS (run : Bool) : State :=
  { (if run then run0 else idleS) with
    run := { RunSt.init with run := if run then some splitS else none, program := some progS }
    laps := { idleS.laps with state := 3 }
    faults := { Faults.init with recovering := true, recOfRun := run, toRetrain := 3, lapRecs := [{ faultR 1 4 3 with phys := 5 + 256 * 6 + 65536 }] }
    split := { Splits.init with live := true } }

theorem test_recovery : resetsBusy (recovS true) = false ∧ (5, 6) ∉ ((recovS true).die 4).fences ∧
    (5 + 256 * 6 + 65536) % 256 = 5 ∧ (5 + 256 * 6 + 65536) / 256 % 256 = 6 ∧ bitAt (5 + 256 * 6 + 65536) 16 = true ∧ bitAt 3 1 = true ∧
    resetsBusy (resetS 1001 5) = true ∧ runs (.recoveryDone 1) (resetS 1001 5) (fun t => !t.faults.recDone) = true := by decide +kernel

/-- The module before its first lap. -/
def offS (latched fell : Bool) : State := { idleS with power := { Power.init with phase := .off, latched := latched, fell := fell } }
/-- The input stage's steps, 2.75 ms or more after the one before ended. -/
def stepS (n : Nat) : State := { idleS with
  laps := { idleS.laps with now := 67680000 }
  power := { Power.init with
    phase := .stagger, step := n, verified := false, sealIssued := false, mapped := false, memTrained := false, linkTrained := false, goodDone := false } }

theorem test_input : runs .inputRise (offS false false) (fun t => t.power.phase == .softStart && t.ident.resetCause == 1) = true ∧
    runs .inputRise (offS true true) (fun t => t.power.phase == .softStart && !t.power.latched && t.ident.resetCause == 5) = true ∧
    runs .inputRise (offS true false) (fun t => t == offS true false) = true ∧ runs .railsOff (offS true false) (fun t => t.power.fell) = true := by decide +kernel
theorem test_stagger : runs .staggerStep (stepS 256) (fun t => t.power.step == 257 && (t.die 15).groupsOn == 16) = true ∧
    runs .staggerStep (stepS 1) (fun t => (t.die 0).groupsOn == 1) = true ∧
    runs .staggerStep { stepS 0 with power := { (stepS 0).power with phase := .softStart } } (fun t => t.power.phase == .stagger && t.power.step == 1) = true := by
  decide +kernel
theorem test_power_good : runs (.powerGoodCheck true) (stepS 257) (fun t => t.power.phase == .boot && t.power.goodDone) = true ∧
    runs (.powerGoodCheck false) (stepS 257) (fun t => t.power.phase == .off && t.power.latched) = true ∧
    runs .railsOff idleS (fun t => t.power.phase == .off && !t.power.latched) = true ∧ runs .overvoltageShutdown idleS (fun t => t.power.latched) = true ∧
    runs .overcurrentShutdown idleS (fun t => t.power.latched) = true := by decide +kernel
theorem test_rom : runs (.romVerifyDone false) (stepS 1) (fun t => t.sec.responder && t.sec.reason == 6) = true ∧
    runs (.romVerifyDone true) (stepS 1) (fun t => t.sec.responder && t.sec.reason == 1) = true := by decide +kernel

/-- The boot phase, its image verified, at a stage of the bring-up. -/
def bootS (trained mapped : Bool) : State := { idleS with power := { Power.init with phase := .boot, memTrained := trained, linkTrained := trained, mapped := mapped } }

theorem test_training : runs (.memTrainingDone [(1, true, 19)]) (bootS false false) (fun t => (t.die 1).far.chans[19].failed && !(t.die 1).far.chans[18].failed &&
      t.power.memTrained) = true ∧
    runs (.linkTrainingDone 2) (bootS false false) (fun t => t.fabric.linkFailed == 2 && t.power.linkTrained) = true := by decide +kernel
theorem test_first_lap : runs (.firstIdleLap 250000) { bootS true true with net := { idleS.net with lanes := 0xFF } } (fun t => t.power.phase == .laps && t.net.carries &&
      t.ident.bootTime == 250000 && t.laps.now == 1000) = true ∧ (bootS true true).power.sealIssued = true := by decide +kernel
theorem test_tap : runs .extestLoad idleS (fun t => t.sec.extest && t.ident.resetCause == 3) = true ∧ runs (.tapInstruction .extest) idleS (fun t => t.sec.extest) = true ∧
    runs (.tapInstruction .sample) idleS (fun t => t.sec.tap == .sample) = true ∧ runs (.tapInstruction .factory) idleS (fun t => t.sec.tap == .bypass) = true ∧
    runs (.tapInstruction .factory) adminS (fun t => t.sec.tap == .factory) = true ∧
    runs .extestRelease { idleS with sec := { Sec.init with tap := .extest, extest := true } } (fun t => !t.sec.extest) = true := by decide +kernel

/-! ### Words of the instruction reference (Table 12-13) -/

theorem test_words : slotInstr 0 .mxa 0x0400000000000019 = some (.mxStrm 0 .mxa 0 ⟨false, 0, 3⟩ 1) ∧
    slotInstr 0 .mvp 0x0331120500002040 = some (.mvDot 0 3 .p16 .p16 2 1 16 ⟨false, 0, 0x2040⟩) ∧
    slotInstr 0 .vec 0x102411461C000000 = some (.vAdd 0 2 (.reg ⟨true, false, false, .p16, 5, 6, 7, 0, 0⟩)) ∧
    slotInstr 0 .mov 0x0100000000000400 = some (.movFeed 0 0 .mxa ⟨false, 0, 0x400⟩) ∧
    slotInstr 0 .net 0 = some (.nop 0) ∧ slotInstr 0 .ctl 0x4000000000000000 = none := by decide +kernel
theorem test_no_table_words : decodeTableWord 64 0x0400000000000019 = none ∧ run0.withFetchWord 64 0 = run0 := ⟨rfl, rfl⟩

/-! ### Hypotheses of the remaining clauses -/

theorem test_image_canonical : MemCanonical imageS := canonical_of _ (by decide +kernel) (by decide +kernel) (by decide +kernel)
theorem test_boot_hypotheses : (bootS true false).power.verified = true ∧ (bootS true false).power.goodDone = true ∧
    (bootS true false).sec.responder = false ∧ runs .mapBuild (bootS true false) (fun t => t.power.mapped) = true ∧
    (match exec .sealKeyIssue { bootS true false with power := { (bootS true false).power with sealIssued := false } } with
      | .next t => t.power.sealIssued
      | _ => false) = true := by decide +kernel
theorem test_verify_done : (match exec .verifyDone { idleS with split := { Splits.init with cfg := some ⟨0x20000, 0x30000, [], 0x40000, 1, false⟩, verifyBusy := true, verifyRead := Vector.replicate 16 100000 } } with
    | .next t => !t.split.verifyBusy
    | _ => false) = true := by decide +kernel
theorem test_commit_pending : ({ respS with sec := { respS.sec with commit := some (reqC, 64) } } : State).sec.commit = some (reqC, 64) ∧
    respS.sec.responder = true := by decide +kernel

/-- Whether a command leaves a state as it is. -/
def keeps (s : State) (i : Instr) : Bool := runs i s (· == s)

theorem test_not_at_cut : ([.ping reqC, .load reqC 0x40, .run reqC 0 0 false, .resume reqC, .stop reqC, .reset reqC, .attest reqC 1,
      .recoverCommit reqC 0, .unknownCommand reqC 7, .wsetStart 0, .verify 0, .cancel 0, .faultPop 0, .fenceClear 0, .budgetWrite 0 1 5,
      .envelopeWrite 0 1, .registerWrite 0 0xC 1, .advance 2 true, .revoke1 2 true, .lockService 2 true, .peerCfgWrite 2 0 0,
      .peerAdminWrite 2 1] : List Instr).all (keeps (atCyc adminS 100)) = true := by decide +kernel
theorem test_run_once_per_cut : let s := { idle0 with run := { RunSt.init with ranCut := true } }
    answers (.run reqC 0 0 false) s 1 (fun t => !t.laps.admitPending) = true ∧ answers (.load reqC 0x40) s 1 (fun _ => true) = true := by decide +kernel
theorem test_load_waits : let s := (loadS 0).setDie 3 { (loadS 0).die 3 with due := 1024 }
    (s.die 3).regs.loadDone = false ∧ keeps s (.loadDone 3) = true := by decide +kernel

/-- Idle laps at a cut with fault records, the last `fresh` of them and `spill` found in this cycle. -/
def cameS (at_ fresh : Nat) (spill : List FaultRec) : State :=
  { idle0 with faults := { Faults.init with queue := [faultR 1 0 3, faultR 2 1 3], cameAt := at_, fresh := fresh, spill := spill, lost := spill.length } }

theorem test_fault_pop_same_cycle : keeps (cameS 1000 2 []) (.faultPop 0) = true ∧
    runs (.faultPop 0) (cameS 1000 1 []) (fun t => t.faults.queue == [faultR 2 1 3]) = true ∧
    runs (.faultPop 0) (cameS 1000 1 [faultR 8 5 3]) (fun t => t.faults.queue == [faultR 2 1 3, faultR 8 5 3] && t.faults.lost == 0) = true ∧
    runs (.faultPop 0) (cameS 999 2 []) (fun t => t.faults.queue == [faultR 2 1 3]) = true := by decide +kernel
theorem test_set_wins : let s := { idle0 with pacer := { Pacer.init with events := 6, setNow := 2 }, power := { Power.init with events := 8, setNow := 0 } }
    runs (.registerWrite 0 0x1004C 6) s (fun t => t.pacer.events == 2) = true ∧ runs (.registerWrite 0 0x6001C 8) s (fun t => t.power.events == 0) = true ∧
    runs (.registerWrite 0 0x40040 0x10) { idle0 with net := { netS with events := 0x10, setNow := 0x10 } } (fun t => t.net.events == 0x10) = true := by decide +kernel
theorem test_blow_fails : adminS.sec.rollback < adminS.sec.secVerRun ∧ (match exec (.advance 2 false) adminS with
    | .next t => t.sec.advFail
    | _ => false) = true := by decide +kernel
theorem test_words_of_two_cores : let s := { run0 with dies := Vector.replicate 16 { dieS (Core.init 0) Seq.init with cores := List.replicate 4 (Core.init 0), map := (DieSt.init 2).map }
                                                       run := { RunSt.init with run := some { cfgS with n := 2 } } }
    runs (.faultDetected (.core .wordEcc 4 0 0 0 0)) s (fun t => t.faults.detected.map (·.action) == [3] &&
      runs (.faultDetected (.core .wordEcc 4 3 0 0 0)) t (fun u => u.faults.detected.map (·.action) == [5] &&
        u.faults.detected.map (·.more) == [1])) = true := by decide +kernel
theorem test_hub_fault_in_extest : keeps { idleS with power := { Power.init with phase := .boot }, sec := { Sec.init with extest := true } } (.faultDetected .hub) = true := by
  decide +kernel
theorem test_hub_is_last : runs .faultRecordQueue (detS [faultR 17 16 1, faultR 10 255 1] 0) (fun t => t.faults.queue.map (·.die) == [255, 16]) = true := by
  decide +kernel
theorem test_patrol_elsewhere : let s := run0.setDie 2 { run0.die 2 with rest := [{ Core.init 0 with patrol := 16 }], map := { (run0.die 2).map with exhausted := true } }
    (s.die 2).cores.length = 1 ∧ runs (.patrolRead 2 1 0) s (fun t => (t.die 2).rest.map (·.patrol) == [24]) = true ∧
    physOf s 2 0 = none ∧ runs (.patrolRead 2 0 2) s (fun t => t.faults.detected == [] && (t.die 2).cores.map (·.patrol) == [8]) = true := by decide +kernel
theorem test_fenced_hub : let s := { resetS 1001 5 with laps := { (resetS 1001 5).laps with state := 1 }
                                                        mladar := { Mladar.init with toDigest := [⟨1, true, 0, 4, 0, 64, 0, [1]⟩] } }
    digestLap s = true ∧ runs (.fencedCompletion 4) s (fun t => t.mladar.toDigest.map (·.got) == [[]] &&
      t.faults.detected.map (fun r => (r.cause, r.die)) == [(18, 16)] && t.laps.lapFault) = true := by decide +kernel
theorem test_packet_takes_request : let s := (resetS 1001 5).setDie 2 { (resetS 1001 5).die 2 with memQ := [{ reqS .rd with die := 2, target := 4, far := true, word := 0x1014000010000 }] }
    (s.die 2).memQ.find? (packetReq 4 2 ⟨false, true, 0, 1⟩) ≠ none ∧
    runs (.fabricPacketArrive 4 2 1 0 (some ⟨false, true, 0, 1⟩)) s (fun t => (t.die 2).memQ == [] && t.faults.detected.map (·.cause) == [15]) = true := by
  decide +kernel
theorem test_staging_fault : let s := cutS { runN with
      run := { runN.run with run := some { cfgS with queues := [⟨0, 1, 0, 0x100000, 4096⟩] } }
      net := { netS with ingress := [⟨6, 6, 0, false, 17, 0, 0, 0, zeros 64⟩] } }
    s.laps.lapFault = false ∧ (stageIngress s).laps.lapFault = true ∧ opensLap s 3 4096 5 = true := by decide +kernel
theorem test_staging_clean : (stageIngress (cutS run0)).laps.lapFault = false := by decide +kernel
theorem test_close_digest_laps : digestLap run0 = true ∧ digestLap idleS = false ∧ runs .closePhaseStart (atCyc idleS 3072) (fun t => t.laps.closed && !t.laps.lapFault) = true := by
  decide +kernel
/-- The split image that `imageS` has captured. -/
def splitG : SplitImage := (imageS.split.image).getD ⟨false, 0, 0, 0, 0, 0, [], 0, 0, 0, 0, 0, [], []⟩

theorem test_split_header_fits : hdrOf ⟨0x20000, 0x30000, [], 0x40000, 1, false⟩ false = 0x20000 ∧
    imageS.split.image = some splitG ∧ (headerBytes imageS splitG ++ splitG.dies.flatten).length = 17408 := by
  have h : (headerBytes imageS splitG).length = 1024 := by decide +kernel
  have h2 : splitG.dies = List.replicate 16 (1 :: zeros 1023) := rfl
  refine ⟨by decide, rfl, ?_⟩
  rw [List.length_append, h, h2]
  simp only [List.length_flatten, List.map_replicate, List.sum_replicate, List.length_cons, zeros, List.length_replicate, smul_eq_mul]
theorem test_direct_write_in_recovery : runs (.directWrite (frameS 2 3 0 ([0x40, 0, 0, 0, 8, 0, 0, 0] ++ 5 :: zeros 63)))
      { idleN with laps := { idleN.laps with state := 3 } } (fun t => (t.die 1).near.mem == [] && t.pacer.events == 2 && (seqOf t 0 1).rxNext == 0) = true ∧
    (blocksOf 0x40 64).all (fun b => (stripeData (idleN.die 1).near b).isSome) = true := by decide +kernel

/-- A peer whose credit frame waits behind a bulk pause that ends at cycle 1,000. -/
def creditS : State := { idleN with net := { netS with bulkPaused := true, bulkUntil := 1000, peers := netS.peers.set 0 { peerP with creditDue := some 7 } } }

theorem test_credit_after_pause : (creditS.net.peers[0]).creditDue = some 7 ∧ creditS.net.carries = true ∧ (creditS.net.peers[0]).down = false ∧
    runs (.pauseTimeExpiry false) creditS (fun t => !t.net.bulkPaused && t.net.sent.map (fun x => match x with | .niwick _ f => f.aux | _ => 0) == [7]) = true ∧
    runs (.pfcReceive true 100) idleN (fun t => t.net.ctrlUntil == 1031) = true := by decide +kernel
theorem test_stagger_waits : let s := { stepS 1 with laps := { idleS.laps with now := 5169999 } }
    keeps s .staggerStep = true ∧ runs .staggerStep { s with laps := { idleS.laps with now := 5170000 } } (fun t => t.power.step == 2) = true ∧
    keeps { stepS 257 with laps := { idleS.laps with now := 67679999 } } (.powerGoodCheck true) = true := by decide +kernel
theorem test_interrupted_programming : runs .railsOff { idleS with sec := { Sec.init with flash := [⟨5, 9⟩, ⟨0x1000000, 3⟩], commit := some (reqC, 64) } }
    (fun t => t.sec.flash == [⟨0x1000000, 3⟩]) = true := by decide +kernel
theorem test_sample_not_due : keeps { idleS with power := { Power.init with sampledAt := some 0 }, laps := { idleS.laps with now := 16383 } } (.thermalSample (sampleS 0 0)) = true := by
  decide +kernel
theorem test_reload_first : let s := (recovS false).setDie 7 { (recovS false).die 7 with due := 1024 }
    reloads s = true ∧ wordsDue s = true ∧ reloads (recovS false) = true ∧ wordsDue (recovS false) = false ∧ keeps s (.recoveryDone 0) = true := by decide +kernel
/-- A recovery of a run whose dies are clean, and one that a program fault began. -/
def cleanS (l : List FaultRec) : State := { recovS true with faults := { (recovS true).faults with lapRecs := l }, split := { Splits.init with live := true, hdrDone := true } }

theorem test_recovery_restores : recOutcome (repairStep (writeHeader (cleanS [])) 0) = none ∧ (recovS true).run.run.bind (·.split) ≠ none := by
  have h : ∀ d : Die, ((cleanS []).die d).clean := by unfold DieSt.clean; decide +kernel
  have hw : writeHeader (cleanS []) = cleanS [] := rfl
  refine ⟨?_, by decide +kernel⟩
  rw [hw]
  show recOutcome (forDies remap _) = _
  rw [recOutcome_remap_clean _ (by exact h)]
  decide +kernel
theorem test_recovery_ends_run : recOutcome (repairStep (writeHeader (cleanS [{ faultR 0x100 4 1 with cls := 2 }])) 0) = some 1 := by
  have h : ∀ d : Die, ((cleanS []).die d).clean := by unfold DieSt.clean; decide +kernel
  show recOutcome (forDies remap _) = _
  rw [recOutcome_remap_clean _ (by exact h)]
  decide +kernel
theorem test_reloads : reloads (recovS true) = true := by decide +kernel
theorem test_parity_written : let s := tierWrite (tierWrite run0 0 false 0x10005 [9]) 0 false 0x10045 [3]
    (s.die 0).near.mem = [⟨0x10005, 9⟩, ⟨0x10045, 3⟩] ∧ (s.die 0).near.parity = [⟨0x4005, 10⟩] := by decide +kernel
theorem test_read_rebuilt : let t := { Tier.init with mem := [⟨0x10000, 9⟩], parity := [⟨0x4000, 9⟩] }
    stripeRead t 256 = .clean ∧ (let u := { t with mem := [], chans := t.chans.set (linePlace false 256 0).1 { Chan.init with failed := true } (by decide) }
      stripeRead u 256 = .rebuilt ∧ (stripeData u 256).map (·.take 2) = some [9, 0]) := by decide +kernel

end Sys2Proof.Machine
end

/-! PROOFS. The scope family: what a command keeps of the queue, the clock and the draws, and what one cycle of the clock does
to the module outside its dies. -/
namespace Sys2Proof.Machine

/-! ### Commands -/

/-- Settles O8: three of the things that `exec_keeps` says of every command. -/
theorem execKeepsQueueAndClock : Obligations.ExecKeepsQueueAndClock := by
  intro c s t h
  have k : Keeps s t := exec_keeps c s t h
  exact ⟨k.pending, k.now, k.freeIdx⟩

/-! ### What the units of the dies do in a cycle -/

/-- A state with other dies and another fabric, and with other marks and records of the faults of its lap. -/
def State.withWork (s : State) (dies : Vector DieSt 16) (fabric : Fabric) (lapFault progFault : Bool)
    (detected lapRecs : List FaultRec) : State :=
  { s with
    dies := dies, fabric := fabric
    laps := { s.laps with lapFault := lapFault, progFault := progFault }
    faults := { s.faults with detected := detected, lapRecs := lapRecs } }

/-- The module but for what the units of its dies change in a cycle: dies, fabric and the fault marks of the lap. -/
def DieWork (s t : State) : Prop :=
  ∃ dies fabric lapFault progFault detected lapRecs, t = s.withWork dies fabric lapFault progFault detected lapRecs

namespace DieWork

variable {s t u : State}

theorem refl (s : State) : DieWork s s := ⟨_, _, _, _, _, _, rfl⟩

theorem trans (h : DieWork s t) (g : DieWork t u) : DieWork s u := by
  obtain ⟨_, _, _, _, _, _, rfl⟩ := h
  obtain ⟨_, _, _, _, _, _, rfl⟩ := g
  exact ⟨_, _, _, _, _, _, rfl⟩

theorem setDie (h : DieWork s t) (d : Die) (x : DieSt) : DieWork s (t.setDie d x) :=
  h.trans ⟨_, _, _, _, _, _, rfl⟩

theorem setSeq (h : DieWork s t) (d : Die) (q : Seq) : DieWork s (t.setSeq d q) := h.setDie d _

theorem setFabric (h : DieWork s t) (f : Fabric) : DieWork s { t with fabric := f } :=
  h.trans ⟨_, _, _, _, _, _, rfl⟩

theorem addFault (h : DieWork s t) (r : FaultRec) : DieWork s (addFault t r) :=
  h.trans ⟨_, _, _, _, _, _, rfl⟩

theorem ite {c : Prop} [Decidable c] (h : DieWork s t) (g : DieWork s u) : DieWork s (if c then t else u) := by
  split <;> assumption

theorem foldl {α : Type} {f : State → α → State} (hf : ∀ t x, DieWork s t → DieWork s (f t x)) (l : List α)
    (h : DieWork s t) : DieWork s (l.foldl f t) :=
  List.foldlRecOn l f h fun t ht x _ => hf t x ht

theorem forDies {f : State → Die → State} (hf : ∀ t d, DieWork s t → DieWork s (f t d)) (h : DieWork s t) :
    DieWork s (forDies f t) := foldl hf _ h

theorem onCores (h : DieWork s t) (d : Die) (f : CoreIn → Core → Core × List Raise) : DieWork s (onCores t d f) :=
  foldl (fun _ _ g => g.addFault _) _ (h.setDie d _)

theorem crossLinks (h : DieWork s t) (a b c n : Nat) : DieWork s (crossLinks t a b c n) :=
  foldl (fun _ _ g => .ite ((g.setFabric _).addFault _) (g.setFabric _)) _ h

theorem sendTick (h : DieWork s t) : DieWork s (sendTick t) :=
  foldl (fun _ _ g => (g.setFabric _).crossLinks ..) _ (h.setFabric _)

theorem lapEndCheck (h : DieWork s t) (d : Die) : DieWork s (lapEndCheck t d) := by
  unfold Machine.lapEndCheck
  extract_lets x now regs t1 t2 t3
  have h1 : DieWork s t1 := h.setDie d _
  have h2 : DieWork s t2 := foldl (fun _ _ g => foldl (fun _ _ g => g.addFault _) _ g) _ h1
  have h3 : DieWork s t3 := .ite (h2.addFault _) (.ite (h2.addFault _) h2)
  exact .ite (.ite (h3.addFault _) h3) h

theorem seqRaise (h : DieWork s t) (d : Die) (cause : Nat) : DieWork s (seqRaise t d cause) := .ite h (h.addFault _)

theorem seqBlocked (h : DieWork s t) (d : Die) : DieWork s (seqBlocked t d) :=
  .ite (h.seqRaise ..) (.ite (h.setSeq ..) (h.seqRaise ..))

theorem seqTick (h : DieWork s t) (d : Die) : DieWork s (seqTick t d) := .setSeq (.ite (h.seqBlocked d) h) d _

theorem collRead (h : DieWork s t) (d : Die) : DieWork s (collRead t d) := .ite h (h.setSeq ..)

theorem dieBegin (h : DieWork s t) (d : Die) : DieWork s (dieBegin t d) := ((h.onCores d _).setDie d _).collRead d

/-- What the units of the dies did in a cycle neither moves the clock nor changes what the input's sensors read at its end. -/
theorem nextCycle_readInput (h : DieWork s t) : DieWork (readInput (nextCycle s)) (readInput (nextCycle t)) := by
  obtain ⟨_, _, _, _, _, _, rfl⟩ := h
  have hcyc (ds f a b c e) : (nextCycle (s.withWork ds f a b c e)).laps.cyc = (nextCycle s).laps.cyc := rfl
  unfold readInput
  rw [hcyc]
  split <;> exact ⟨_, _, _, _, _, _, rfl⟩

end DieWork

/-! ### One cycle of the clock -/

/-- While laps turn, a cycle is the next one of the clock and of the input's readings, but for the work of the dies. -/
theorem lapTick_dieWork (s : State) : DieWork (readInput (nextCycle s)) (lapTick s) := by
  unfold lapTick
  extract_lets s1 s2 s3 s4
  have h1 : DieWork s s1 := .forDies (fun _ d g => g.lapEndCheck d) (.refl s)
  have h2 : DieWork s s2 := .forDies (fun _ d g => g.onCores d _) h1
  have h3 : DieWork s s3 := .forDies (fun _ d g => g.seqTick d) h2.sendTick
  have h4 : DieWork (readInput (nextCycle s)) s4 := .forDies (fun _ d g => g.dieBegin d) h3.nextCycle_readInput
  exact h4.setFabric _

/-- The cycle after `s` with lap cycle `cyc`, input readings `vin`, `iin`, `pin` and `energy`, and `draws` free values used. -/
def State.afterCycle (s : State) (cyc vin iin pin energy draws : Nat) : State :=
  { clearSet s with
    laps := { s.laps with now := s.laps.now + 1, cyc := cyc }
    power := { s.power with setNow := 0, vinMv := vin, iinDa := iin, pinW := pin, energyJ := energy }
    freeIdx := draws }

theorem readInput_nextCycle (s : State) : ∃ vin iin pin energy draws, s.power.energyJ ≤ energy ∧
    readInput (nextCycle s) = s.afterCycle (s.laps.cyc + 1) vin iin pin energy draws := by
  unfold readInput
  split
  · exact ⟨_, _, _, _, _, Nat.le_add_right _ _, rfl⟩
  · exact ⟨_, _, _, _, _, le_rfl, rfl⟩

theorem tick_off {s : State} (h : s.power.phase = .off) : tick s = s := by simp [tick, h]

theorem portOn_of_off {s : State} (h : s.power.phase = .off) : portOn s = false := by simp [portOn, h]

/-- A cycle of a powered module: the lap cycle moves with the clock only while laps turn (R19). -/
theorem tick_powered {s : State} (h : s.power.phase ≠ .off) : ∃ vin iin pin energy draws, s.power.energyJ ≤ energy ∧
    DieWork (s.afterCycle (if portOn s then s.laps.cyc + 1 else s.laps.cyc) vin iin pin energy draws) (tick s) := by
  by_cases hp : portOn s = true
  · obtain ⟨vin, iin, pin, energy, draws, he, heq⟩ := readInput_nextCycle s
    have ht : tick s = lapTick s := by simp [tick, h, hp]
    rw [ht, if_pos hp]
    exact ⟨vin, iin, pin, energy, draws, he, heq ▸ lapTick_dieWork s⟩
  · have ht : tick s = { clearSet s with laps := { s.laps with now := s.laps.now + 1 } } := by simp [tick, h, hp]
    rw [ht, if_neg hp]
    exact ⟨_, _, _, _, _, le_rfl, .refl _⟩

theorem step_of_empty {s : State} (h : s.pending = []) : step s = .next (tick s) := by simp [step, h]

/-- Settles O2: a module that is off stays (`tick_off`); in a powered one `tick_powered` gives the cycle that passes. -/
theorem emptyQueueStepIsOneCycle : Obligations.EmptyQueueStepIsOneCycle := by
  intro s hq
  refine ⟨tick s, step_of_empty hq, (Keeps.rfl' s).tick.pending.trans hq, ?_⟩
  by_cases hoff : s.power.phase = .off
  · rw [tick_off hoff]
    simp [hoff, portOn_of_off hoff]
  · obtain ⟨vin, iin, pin, energy, draws, he, dies, fabric, lapFault, progFault, detected, lapRecs, ht⟩ := tick_powered hoff
    rw [ht]
    exact ⟨fun h => absurd h hoff, fun _ => ⟨rfl, rfl, rfl, rfl, rfl, rfl, rfl⟩, fun h => if_pos h, fun h => if_neg (by simp [h]),
      rfl, rfl, rfl, rfl, rfl, rfl, rfl, he⟩

end Sys2Proof.Machine

/-! PROOFS. The module overview family: what the commands of the core slots leave unchanged, and how the module answers the
controller's commands. -/
namespace Sys2Proof.Machine

/-! ### Core slots -/

/-- Settles O11: a command of a core slot that completes is a slot operation of its die (`exec_core`), and `slotOp_frame`
says what one leaves. -/
theorem coreSlotFrame : Obligations.CoreSlotFrame := by
  intro c s t d hd ht
  obtain ⟨-, hr⟩ | ⟨-, op, f, hf, ho⟩ := exec_core hd s
  · cases hr.symm.trans ht
  · cases ho.symm.trans ht
    exact slotOp_frame s d op hf

/-! ### What reading memory leaves (Table 14-3) -/

/-- A die with other marks of degraded tiers. -/
def DieSt.withDegraded (x : DieSt) (near far : Bool) : DieSt :=
  { x with near := { x.near with degraded := near }, far := { x.far with degraded := far } }

/-- What reads of memory leave: all but the fault unit, the mark of a fault in the lap and the marks of degraded tiers. -/
structure ReadFrame (s t : State) : Prop where
  rest : ({ t with laps := s.laps, faults := s.faults, dies := s.dies } : State) = s
  laps : t.laps = { s.laps with lapFault := t.laps.lapFault }
  die : ∀ d, ∃ near far, t.die d = (s.die d).withDegraded near far

namespace ReadFrame

variable {s t : State}

theorem refl (s : State) : ReadFrame s s := ⟨rfl, rfl, fun _ => ⟨_, _, rfl⟩⟩

/-- A part of the state other than laps, faults and dies. -/
theorem get {α : Type} (h : ReadFrame s t) (g : State → α)
    (hg : ∀ (u : State) a b c, g { u with laps := a, faults := b, dies := c } = g u := by intros; rfl) : g t = g s :=
  (hg t ..).symm.trans (congrArg g h.rest)

theorem net (h : ReadFrame s t) : t.net = s.net := h.get State.net
theorem run (h : ReadFrame s t) : t.run = s.run := h.get State.run

theorem moduleLap (h : ReadFrame s t) : t.laps.moduleLap = s.laps.moduleLap := by rw [h.laps]

theorem cores (h : ReadFrame s t) (d : Die) : (t.die d).cores = (s.die d).cores := by
  obtain ⟨_, _, hd⟩ := h.die d
  rw [hd]; rfl

/-- A detected fault is recorded. -/
theorem addFault (h : ReadFrame s t) {r : FaultRec} (hr : r.cls ≠ 2) : ReadFrame s (addFault t r) where
  rest := h.rest
  laps := by
    have hp : (t.laps.progFault || r.cls == 2) = s.laps.progFault := by
      rw [beq_false_of_ne hr, Bool.or_false, h.laps]
    calc (Machine.addFault t r).laps = { t.laps with lapFault := true, progFault := s.laps.progFault } := by rw [← hp]; rfl
      _ = { s.laps with lapFault := true } := by rw [h.laps]
  die := h.die

theorem setDegraded (h : ReadFrame s t) (d : Die) (far b : Bool) :
    ReadFrame s (t.setTier d far { (t.die d).tier far with degraded := b }) where
  rest := h.rest
  laps := h.laps
  die e := by
    obtain ⟨n, f, he⟩ := h.die e
    by_cases hd : e = d
    · subst hd
      rw [State.setTier_die_self, he]
      cases far
      · exact ⟨b, f, rfl⟩
      · exact ⟨n, b, rfl⟩
    · rw [State.setTier_die_other _ _ _ hd]
      exact ⟨n, f, he⟩

theorem noteRead (h : ReadFrame s t) (d : Die) (far : Bool) (b : Nat) : ReadFrame s (noteRead t d far b) := by
  have hcls : (1 : Nat) ≠ 2 := by decide
  unfold Machine.noteRead
  extract_lets x
  cases stripeRead x b with
  | clean => exact h
  | rebuilt => exact ⟨h.rest, h.laps, h.die⟩
  | parity => exact h.addFault hcls
  | multi => exact (h.setDegraded d far true).addFault hcls

theorem touchRange (h : ReadFrame s t) (a n : Nat) : ReadFrame s (touchRange t a n) := by
  refine List.foldlRecOn _ _ h fun u hu b _ => ?_
  cases devLocate (256 * b) with
  | none => exact hu
  | some w => exact hu.noteRead ..

/-- A read does not change what later reads return. -/
theorem devRead (h : ReadFrame s t) (a n : Nat) : devRead t a n = devRead s a n := by
  unfold Machine.devRead
  cases devLocate a with
  | none => rfl
  | some w =>
    obtain ⟨far, d, o⟩ := w
    obtain ⟨_, _, hd⟩ := h.die (dieOf d)
    dsimp only
    rw [hd]
    cases far <;> rfl

theorem nearFrom (h : ReadFrame s t) (k a n : Nat) : nearFrom k t a n = nearFrom k s a n := by
  induction k generalizing a n with
  | zero => rfl
  | succ k ih => simp only [Machine.nearFrom, h.devRead, ih]

theorem nearBytes (h : ReadFrame s t) (a n : Nat) : nearBytes t a n = nearBytes s a n := h.nearFrom 17 a n

end ReadFrame

/-! ### Every die changed by itself -/

/-- A fold that changes each die of a list by itself. -/
theorem foldl_setDie (g : Die → DieSt → DieSt) (l : List Die) (hl : l.Nodup) (s : State) :
    ({ l.foldl (fun s d => s.setDie d (g d (s.die d))) s with dies := s.dies } : State) = s ∧
    ∀ e, (l.foldl (fun s d => s.setDie d (g d (s.die d))) s).die e = if e ∈ l then g e (s.die e) else s.die e := by
  induction l generalizing s with
  | nil => exact ⟨rfl, fun e => by simp⟩
  | cons d l ih =>
    obtain ⟨hd, hl⟩ := List.nodup_cons.mp hl
    obtain ⟨hrest, hdie⟩ := ih hl (s.setDie d (g d (s.die d)))
    refine ⟨congrArg (fun u : State => { u with dies := s.dies }) hrest, fun e => ?_⟩
    rw [List.foldl_cons, hdie e]
    by_cases he : e = d
    · subst he; simp [hd]
    · simp [he]

/-- A part of the state other than the dies stays when every die is changed by itself. -/
theorem forDies_setDie_get {α : Type} (g : Die → DieSt → DieSt) (s : State) (part : State → α)
    (hp : ∀ (u : State) v, part { u with dies := v } = part u) :
    part (forDies (fun s d => s.setDie d (g d (s.die d))) s) = part s :=
  (hp _ s.dies).symm.trans (congrArg part (foldl_setDie g _ (List.nodup_finRange 16) s).1)

theorem forDies_setDie_die (g : Die → DieSt → DieSt) (s : State) (e : Die) :
    (forDies (fun s d => s.setDie d (g d (s.die d))) s).die e = g e (s.die e) := by
  rw [forDies, (foldl_setDie g _ (List.nodup_finRange 16) s).2 e, if_pos (List.mem_finRange e)]

/-! ### The start of a load (R268) -/

/-- A die at the start of a load: it takes `n` resident words and holds no page. -/
def DieSt.startsLoad (x : DieSt) (n : Nat) : DieSt :=
  { x with
    due := n
    regs := { x.regs with state := 1, loadDone := false, loadCode := 0 }
    seq := { x.seq with frames := Vector.replicate 128 .none, pageQ := [] } }

@[simp] theorem DieSt.startsLoad_cores (x : DieSt) (n : Nat) : (x.startsLoad n).cores = x.cores := by simp only [startsLoad]
@[simp] theorem DieSt.startsLoad_due (x : DieSt) (n : Nat) : (x.startsLoad n).due = n := by simp only [startsLoad]
@[simp] theorem DieSt.startsLoad_state (x : DieSt) (n : Nat) : (x.startsLoad n).regs.state = 1 := by simp only [startsLoad]
@[simp] theorem DieSt.startsLoad_loadDone (x : DieSt) (n : Nat) : (x.startsLoad n).regs.loadDone = false := by simp only [startsLoad]
@[simp] theorem DieSt.startsLoad_frames (x : DieSt) (n : Nat) (f : Fin 128) : (x.startsLoad n).seq.frames[f] = .none := by
  simp [startsLoad]

/-- The run block while a load of the image at `a` is under way. -/
def RunSt.startsLoad (r : RunSt) (s : State) (a : Nat) : RunSt :=
  let p := parseProgram s a
  let cs := Machine.loadCodes s p
  { r with program := none, loadCodes := cs, loading := if cs.all (· == 0) then some p else none }

theorem RunSt.startsLoad_program (r : RunSt) (s : State) (a : Nat) : (r.startsLoad s a).program = none := by simp only [startsLoad]

theorem RunSt.startsLoad_loading (r : RunSt) (s : State) (a : Nat) :
    (r.startsLoad s a).loading = if (r.startsLoad s a).loadCodes.all (· == 0) then some (parseProgram s a) else none := by
  simp only [startsLoad]
  rfl

/-- The resident words that a die takes in the load of the image at `a`: none if a check fails. -/
def residentDue (s : State) (a : Nat) (d : Die) : Nat :=
  let p := parseProgram s a
  if (loadCodes s p).all (· == 0) then (nth p.streams d.val (0, 0, 0)).2.2 else 0

/-- The module once the image at `a` has been read. -/
def imageRead (s : State) (a : Nat) : State := touchRange s a (1024 + 64 * totalWords (parseProgram s a).streams)

theorem imageRead_frame (s : State) (a : Nat) : ReadFrame s (imageRead s a) := (ReadFrame.refl s).touchRange _ _

/-- The module at the start of a load of the image at `a`, before its dies take part. -/
def loadBegun (s : State) (a : Nat) : State := { imageRead s a with run := (imageRead s a).run.startsLoad s a }

theorem holdPages_setDie (s : State) (d : Die) (n : Nat) :
    holdPages (s.setDie d { s.die d with due := n, regs := { (s.die d).regs with state := 1, loadDone := false, loadCode := 0 } }) d 0 =
      s.setDie d ((s.die d).startsLoad n) := by
  have hf : (Vector.ofFn fun i : Fin 128 => if i.val < 0 / 1024 then PFrame.held i.val else .none) = Vector.replicate 128 .none := by
    ext i hi
    simp
  simp only [holdPages, hf, State.setSeq, State.setDie_die_self, State.setDie_twice, DieSt.startsLoad]

/-- A load starts on every die by itself, once the image is read. -/
theorem startLoad_eq (s : State) (a : Nat) :
    startLoad s a = forDies (fun x d => x.setDie d ((x.die d).startsLoad (residentDue s a d))) (loadBegun s a) := by
  simp only [← holdPages_setDie]
  rfl

theorem startLoad_get {α : Type} (s : State) (a : Nat) (part : State → α)
    (hp : ∀ (u : State) v, part { u with dies := v } = part u) : part (startLoad s a) = part (loadBegun s a) := by
  rw [startLoad_eq]
  exact forDies_setDie_get (fun d x => x.startsLoad (residentDue s a d)) _ part hp

theorem startLoad_run (s : State) (a : Nat) : (startLoad s a).run = s.run.startsLoad s a := by
  rw [startLoad_get s a State.run fun _ _ => rfl, ← (imageRead_frame s a).run]
  rfl

theorem startLoad_net (s : State) (a : Nat) : (startLoad s a).net = s.net :=
  (startLoad_get s a State.net fun _ _ => rfl).trans (imageRead_frame s a).net

theorem startLoad_laps (s : State) (a : Nat) :
    (startLoad s a).laps = { s.laps with lapFault := (startLoad s a).laps.lapFault } := by
  rw [startLoad_get s a State.laps fun _ _ => rfl]
  exact (imageRead_frame s a).laps

theorem startLoad_die (s : State) (a : Nat) (d : Die) :
    (startLoad s a).die d = ((imageRead s a).die d).startsLoad (residentDue s a d) := by
  rw [startLoad_eq]
  exact forDies_setDie_die (fun d x => x.startsLoad (residentDue s a d)) (loadBegun s a) d

theorem startLoad_cores (s : State) (a : Nat) (d : Die) : ((startLoad s a).die d).cores = (s.die d).cores := by
  rw [startLoad_die, DieSt.startsLoad_cores, (imageRead_frame s a).cores]

/-- A load that passes its checks takes the resident words that the image states. -/
theorem residentDue_of_loading {s : State} {a : Nat} {p : Program} (d : Die) (h : (s.run.startsLoad s a).loading = some p) :
    residentDue s a d = (nth p.streams d.val (0, 0, 0)).2.2 := by
  rw [RunSt.startsLoad_loading, Option.ite_none_right_eq_some, Option.some.injEq] at h
  obtain ⟨hc, rfl⟩ := h
  rw [residentDue, if_pos (show (loadCodes s (parseProgram s a)).all (· == 0) = true from hc)]

/-! ### Commands and their replies (R419, Table 18-10) -/

theorem portOn_responder {s : State} (hp : portOn s = true) : s.sec.responder = false := by
  simp only [portOn, Bool.and_eq_true, Bool.not_eq_true'] at hp
  exact hp.2

theorem command_at_cut {s : State} (hp : portOn s = true) (hc : s.laps.cyc = 0) (f g : State → State) : command s f g = f s := by
  simp [command, portOn_responder hp, atCut, hp, hc]

theorem command_off_cut {s : State} (hp : portOn s = true) (hc : s.laps.cyc ≠ 0) (f g : State → State) : command s f g = s := by
  simp [command, portOn_responder hp, atCut, hc]

/-- The reply to a command executed in lap `lap`, as the module `u` then stands. -/
def commandReply (req : CmdReq) (lap : Nat) (u : State) (code status : Nat) : List Byte :=
  [BitVec.ofNat 8 code, BitVec.ofNat 8 status] ++ leBytes 2 0 ++ leBytes 4 req.token.toNat ++ leBytes 8 lap ++
    leBytes 4 (lapStatus u) ++ zeros 44

theorem replyBytes_eq (req : CmdReq) (lap : Nat) (u : State) (code status : Nat) :
    replyBytes code status 0 req.token.toNat lap (lapStatus u) 0 = commandReply req lap u code status := by
  have hz : [BitVec.ofNat 8 0] ++ zeros 43 = zeros 44 := rfl
  rw [replyBytes, List.append_assoc, hz, commandReply]

/-- The module with a reply queued. -/
def State.tells (u : State) (req : CmdReq) (lap code status : Nat) : State :=
  { u with net := { u.net with replies := u.net.replies ++ [(req.peer.val, 0, commandReply req lap u code status)] } }

theorem answer_eq_tells (s : State) (req : CmdReq) (code status : Nat) :
    answer s req code status = s.tells req s.laps.moduleLap code status := by
  rw [answer, replyBytes_eq]
  rfl

theorem idleLaps_iff {s : State} :
    (!idleLaps s || s.run.ranCut) = false ↔
      s.laps.state = 0 ∧ s.run.run = none ∧ s.run.admission = none ∧ s.run.ranCut = false := by
  simp [idleLaps, inRun, and_assoc]

theorem not_idleLaps_iff {s : State} :
    (!idleLaps s || s.run.ranCut) = true ↔
      ¬ (s.laps.state = 0 ∧ s.run.run = none ∧ s.run.admission = none ∧ s.run.ranCut = false) := by
  rw [← idleLaps_iff, Bool.not_eq_false]

theorem exec_unknownCommand {code : Byte} (h : code ∉ [1, 2, 3, 4, 5, 6, 9, 10]) (req : CmdReq) (s : State) :
    exec (.unknownCommand req code) s = .next (command s (doUnknown · req code.toNat) id) := by
  have hl : listedCommands = ([1, 2, 3, 4, 5, 6, 9, 10] : List Byte).map BitVec.toNat := rfl
  have hm : code.toNat ∉ listedCommands := by rwa [hl, List.mem_map_of_injective fun _ _ => BitVec.eq_of_toNat_eq]
  exact if_neg (by simpa using hm)

/-- Off a cut no command of the controller does anything (log 13). -/
theorem commands_off_cut {s : State} (hp : portOn s = true) (hc : s.laps.cyc ≠ 0) (req : CmdReq) (a b c : DWord)
    (restore : Bool) (nonce : BitVec 256) {code : Byte} (h : code ∉ [1, 2, 3, 4, 5, 6, 9, 10]) :
    ∀ cmd ∈ [Instr.ping req, .load req a, .run req b c restore, .resume req, .stop req, .reset req, .attest req nonce,
      .recoverCommit req a, .unknownCommand req code], exec cmd s = .next s := by
  have hk (f g) : (.next (command s f g) : Host.Outcome State Fault Refusal) = .next s := congrArg _ (command_off_cut hp hc f g)
  simp only [List.forall_mem_cons, exec_unknownCommand h]
  exact ⟨hk _ _, hk _ _, hk _ _, hk _ _, hk _ _, hk _ _, hk _ _, hk _ _, hk _ _, List.forall_mem_nil _⟩

/-! ### LOAD -/

theorem doLoad_busy {s : State} (h : (!idleLaps s || s.run.ranCut) = true) (req : CmdReq) (a : Nat) :
    doLoad s req a = s.tells req s.laps.moduleLap 2 1 := by
  rw [doLoad, if_pos h, answer_eq_tells]

theorem doLoad_unreadable {s : State} (h : (!idleLaps s || s.run.ranCut) = false) (req : CmdReq) {a : Nat}
    (ha : a % 64 ≠ 0 ∨ 2 ^ 39 ≤ a) : doLoad s req a = s.tells req s.laps.moduleLap 2 3 := by
  rw [doLoad, if_neg (by simp [h]), if_pos ha, answer_eq_tells]

theorem doLoad_starts {s : State} (h : (!idleLaps s || s.run.ranCut) = false) (req : CmdReq) {a : Nat}
    (h64 : a % 64 = 0) (hlt : a < 2 ^ 39) : doLoad s req a = (startLoad s a).tells req s.laps.moduleLap 2 0 := by
  have hl : (startLoad s a).laps.moduleLap = s.laps.moduleLap := by rw [startLoad_laps]
  rw [doLoad, if_neg (by simp [h]), if_neg (by omega), answer_eq_tells, hl]

/-! ### RUN (R32, R269, R272) -/

/-- The module in which a RUN has been executed at this cut. -/
def State.ran (s : State) : State := { s with run := { s.run with ranCut := true } }

/-- The module once a RUN has read its parameters and its queue table. -/
def State.runRead (s : State) (params queues : Nat) : State := touchRange (touchRange s.ran params 8192) queues 2624

theorem runRead_frame (s : State) (params queues : Nat) : ReadFrame s.ran (s.runRead params queues) :=
  ((ReadFrame.refl s.ran).touchRange _ _).touchRange _ _

/-- The parameter words of the dies, read from the near tiers (R272). -/
def paramWords (s : State) (params : Nat) : List (List DWord) :=
  (List.range 16).map fun d => (List.range 64).map fun i =>
    BitVec.ofNat 64 (numAt (nearBytes s (params + 512 * d) 512) (8 * i) 8)

theorem paramWords_nth (s : State) (params : Nat) {d i : Nat} (hd : d < 16) (hi : i < 64) :
    nth (nth (paramWords s params) d []) i 0 = BitVec.ofNat 64 (numAt (nearBytes s (params + 512 * d) 512) (8 * i) 8) := by
  simp [nth, paramWords, hd, hi]

/-- The admission that a RUN leaves for the end of its lap. -/
def State.admissionOf (s : State) (req : CmdReq) (params queues : Nat) (restore : Bool) : Admission :=
  let u := s.runRead params queues
  let k := runCfgOf s.ran queues restore
  ⟨k, paramWords u params, req, BitVec.ofNat 8 (runCode s.ran k), u.laps.moduleLap,
    lapStatus { u with laps := { u.laps with admitPending := true } }, u.net.replies.length⟩

theorem runCode_no_program {s : State} (h : s.run.program = none) (k : RunCfg) : runCode s k = 1 := by
  simp [runCode, runChecks, h]

theorem doRun_busy {s : State} (h : (!idleLaps s || s.run.ranCut) = true) (req : CmdReq) (params queues : Nat) (restore : Bool) :
    doRun s req params queues restore = s.ran.tells req s.laps.moduleLap 3 1 := by
  rw [doRun, if_pos (by exact h), answer_eq_tells]
  rfl

theorem doRun_unreadable {s : State} (h : (!idleLaps s || s.run.ranCut) = false) (req : CmdReq) {params queues : Nat}
    (restore : Bool)
    (ha : params % 64 ≠ 0 ∨ queues % 64 ≠ 0 ∨ 2 ^ 39 < params + 8192 ∨ 2 ^ 39 < queues + 2624) :
    doRun s req params queues restore = s.ran.tells req s.laps.moduleLap 3 3 := by
  have ha' : params % 64 ≠ 0 ∨ queues % 64 ≠ 0 ∨ !inNear params 8192 ∨ !inNear queues 2624 := by
    simpa only [inNear, Bool.not_eq_true', decide_eq_false_iff_not, Nat.not_le] using ha
  rw [doRun, if_neg (by exact ne_true_of_eq_false h), if_pos ha', answer_eq_tells]
  rfl

theorem doRun_admits {s : State} (h : (!idleLaps s || s.run.ranCut) = false) (req : CmdReq) {params queues : Nat}
    (restore : Bool) (hp : params % 64 = 0) (hq : queues % 64 = 0) (hpn : params + 8192 ≤ 2 ^ 39) (hqn : queues + 2624 ≤ 2 ^ 39) :
    doRun s req params queues restore =
      { s.runRead params queues with
        laps := { (s.runRead params queues).laps with admitPending := true }
        run := { (s.runRead params queues).run with admission := some (s.admissionOf req params queues restore) } } := by
  have ha : ¬ (params % 64 ≠ 0 ∨ queues % 64 ≠ 0 ∨ !inNear params 8192 ∨ !inNear queues 2624) := by
    simp only [inNear, Bool.not_eq_true', decide_eq_false_iff_not]
    omega
  rw [doRun, if_neg (by exact ne_true_of_eq_false h), if_neg ha]
  rfl

/-! ### RESUME, STOP, ATTEST -/

theorem doResume_refused {s : State} (h : s.laps.state = 3 ∨ s.split.resumeReq = false)
    (hw : (willResume s && !(autoResume s)) = false) (req : CmdReq) :
    doResume s req = s.tells req s.laps.moduleLap 4 1 := by
  rw [doResume, if_neg, if_neg (ne_true_of_eq_false hw), answer_eq_tells]
  rcases h with h | h <;> simp [h]

theorem doResume_notes {s : State} (h : s.laps.state = 3) (hw : willResume s = true) (ha : autoResume s = false) (req : CmdReq) :
    doResume s req = { s with split := { s.split with resumeReq := true } }.tells req s.laps.moduleLap 4 0 := by
  rw [doResume, if_neg (by simp [h]), if_pos (by simp [hw, ha]), answer_eq_tells]

theorem doResume_resumed {s : State} (h : s.laps.state ≠ 3) (hr : s.split.resumeReq = true) (req : CmdReq) :
    doResume s req = { s with split := { s.split with resumeReq := false } }.tells req s.laps.moduleLap 4 0 := by
  rw [doResume, if_pos (by simpa [hr] using h), answer_eq_tells]

/-- When a STOP is taken (R395). -/
theorem stopTaken_iff {s : State} :
    (s.laps.state == 1 && inRun s || willResume s) = true ↔ (s.laps.state = 1 ∧ s.run.run ≠ none) ∨ willResume s = true := by
  simp [inRun, Option.isSome_iff_ne_none]

theorem doStop_taken {s : State} (h : (s.laps.state = 1 ∧ s.run.run ≠ none) ∨ willResume s = true) (req : CmdReq) :
    doStop s req = { s with split := { s.split with stop := true } }.tells req s.laps.moduleLap 5 0 := by
  rw [doStop, if_pos (stopTaken_iff.mpr h), answer_eq_tells]

theorem doStop_refused {s : State} (h : s.laps.state ≠ 1 ∨ s.run.run = none) (hw : willResume s = false) (req : CmdReq) :
    doStop s req = s.tells req s.laps.moduleLap 5 1 := by
  have hn : ¬ ((s.laps.state = 1 ∧ s.run.run ≠ none) ∨ willResume s = true) := by
    simpa [hw, imp_iff_not_or] using h
  rw [doStop, if_neg (stopTaken_iff.not.mpr hn), answer_eq_tells]

theorem leBytes_length (n x : Nat) : (leBytes n x).length = n := by
  induction n generalizing x with
  | zero => rfl
  | succ n ih => simp [leBytes, ih]

theorem signature_length (s : State) (key : Nat) (digest : List Byte) : (signature s key digest).1.length = 132 := by
  simp [signature, sigBytes, beBytes, leBytes_length]

/-- ATTEST draws the nonce of its signature and queues the report behind its reply (R434, R435). -/
theorem doAttest_eq (s : State) (req : CmdReq) (nonce : BitVec 256) :
    let body := reportBody s (leBytes 32 nonce.toNat)
    doAttest s req nonce = { (s.drawN 66).2 with net := { s.net with replies := s.net.replies ++
      [(req.peer.val, 0, commandReply req s.laps.moduleLap s 9 0 ++ (body ++ (signature s s.sec.identKey (sha512 body)).1))] } } := by
  rw [doAttest, replyBytes_eq]
  rfl

/-! ### All commands at a cut -/

/-- At a cut a command leaves what its meaning there gives. -/
theorem next_at_cut {s t : State} (hp : portOn s = true) (hc : s.laps.cyc = 0) {f g : State → State} (h : f s = t) :
    (.next (command s f g) : Host.Outcome State Fault Refusal) = .next t := by
  rw [command_at_cut hp hc, h]

/-- Settles O52: off a cut `commands_off_cut`; at a cut each clause is the lemma of its case of the command. -/
theorem commandsAnswer : Obligations.CommandsAnswer := by
  intro s req hp
  refine ⟨fun hc a b c restore nonce code h => commands_off_cut hp hc req a b c restore nonce h, fun hc => ?_⟩
  refine ⟨?ping, ?commit, ?unknown, ?load, ?run, ?refused, ?notes, ?resumed, ?taken, ?unstopped, ?attest⟩
  case ping => exact next_at_cut hp hc (answer_eq_tells ..)
  case commit => exact fun _ => next_at_cut hp hc (answer_eq_tells ..)
  case unknown => exact fun code h => (exec_unknownCommand h req s).trans (next_at_cut hp hc (answer_eq_tells ..))
  case load =>
    intro image
    refine ⟨fun hb => ?_, fun hi ha => ?_, fun hi h64 hlt => ?_⟩
    · exact next_at_cut hp hc (doLoad_busy (not_idleLaps_iff.mpr hb) req _)
    · exact next_at_cut hp hc (doLoad_unreadable (idleLaps_iff.mpr hi) req ha)
    · refine ⟨startLoad s image.toNat, next_at_cut hp hc (doLoad_starts (idleLaps_iff.mpr hi) req h64 hlt), ?_,
        startLoad_laps .., startLoad_net .., ?_, fun d => ?_⟩
      · rw [startLoad_run, RunSt.startsLoad_program]
      · rw [startLoad_run, RunSt.startsLoad_loading]
      · rw [startLoad_cores, startLoad_die, startLoad_run]
        exact ⟨DieSt.startsLoad_state .., DieSt.startsLoad_loadDone .., rfl,
          fun p h => (DieSt.startsLoad_due ..).trans (residentDue_of_loading d h), fun f => DieSt.startsLoad_frames ..⟩
  case run =>
    intro params queues restore
    refine ⟨fun hb => ?_, fun hi ha => ?_, fun hi hp64 hq64 hpn hqn => ?_⟩
    · exact next_at_cut hp hc (doRun_busy (not_idleLaps_iff.mpr hb) req _ _ restore)
    · exact next_at_cut hp hc (doRun_unreadable (idleLaps_iff.mpr hi) req restore ha)
    · have hf : ReadFrame s.ran (s.runRead params.toNat queues.toNat) := runRead_frame ..
      refine ⟨s.admissionOf req params.toNat queues.toNat restore,
        next_at_cut hp hc (doRun_admits (idleLaps_iff.mpr hi) req restore hp64 hq64 hpn hqn), rfl, hf.moduleLap,
        congrArg (fun n => n.replies.length) hf.net, rfl, rfl, fun hn => ?_, ?_, fun d i hd hi => ?_⟩
      · exact congrArg (BitVec.ofNat 8) (runCode_no_program (s := s.ran) hn _)
      · rintro rfl
        exact ⟨rfl, rfl, rfl⟩
      · refine (paramWords_nth _ _ hd hi).trans ?_
        rw [hf.nearBytes]
        rfl
  case refused => exact fun h hw => next_at_cut hp hc (doResume_refused h hw req)
  case notes => exact fun h hw ha => next_at_cut hp hc (doResume_notes h hw ha req)
  case resumed => exact fun h hr => next_at_cut hp hc (doResume_resumed h hr req)
  case taken => exact fun h => next_at_cut hp hc (doStop_taken h req)
  case unstopped => exact fun h hw => next_at_cut hp hc (doStop_refused h hw req)
  case attest =>
    intro nonce
    exact ⟨_, _, next_at_cut hp hc (doAttest_eq s req nonce), signature_length .., rfl, rfl, rfl, rfl, rfl⟩

end Sys2Proof.Machine

/-! PROOFS. The laps family: overrun and early close, the close phase, the cut; the writes of the control space; the frames that
the port takes and sends. -/
namespace Sys2Proof.Machine

/-! ### What a fold leaves -/

/-- A part of what a fold carries that every step leaves is left by the fold. -/
theorem foldl_leaves {α β σ : Type} (part : σ → β) {f : σ → α → σ} (hf : ∀ y x, part (f y x) = part y) (l : List α) (y : σ) :
    part (l.foldl f y) = part y :=
  List.foldlRecOn (motive := fun z => part z = part y) l f rfl fun z hz x _ => (hf z x).trans hz

theorem forDies_leaves {β : Type} (part : State → β) {f : State → Die → State} (hf : ∀ s d, part (f s d) = part s) (s : State) :
    part (forDies f s) = part s := foldl_leaves part hf _ s

/-! ### Records of detected faults (R365) -/

/-- A list holds a record of a cause on a die in a cycle; merging of records may have changed its other fields. -/
def Recorded (l : List FaultRec) (cause die at_ : Nat) : Prop := ∃ r ∈ l, r.cause = cause ∧ r.die = die ∧ r.at_ = at_

theorem recorded_mergeRec_self (r : FaultRec) (l : List FaultRec) : Recorded (mergeRec r l) r.cause r.die r.at_ := by
  induction l with
  | nil => exact ⟨r, List.mem_singleton_self r, rfl, rfl, rfl⟩
  | cons x l ih =>
    unfold mergeRec
    split
    next h =>
      obtain ⟨hc, hd, ha, -⟩ := h
      refine ⟨_, List.mem_cons_self, ?_⟩
      dsimp only
      split <;> simp [hc, hd, ha]
    next =>
      obtain ⟨y, hy, h⟩ := ih
      exact ⟨y, List.mem_cons_of_mem x hy, h⟩

theorem Recorded.mergeRec {l : List FaultRec} {c d a : Nat} (h : Recorded l c d a) (r : FaultRec) :
    Recorded (mergeRec r l) c d a := by
  induction l with
  | nil => obtain ⟨y, hy, -⟩ := h; cases hy
  | cons x l ih =>
    obtain ⟨y, hy, h⟩ := h
    unfold Machine.mergeRec
    split
    next hm =>
      obtain ⟨hc, hd, ha, -⟩ := hm
      rcases List.mem_cons.mp hy with rfl | hy
      · refine ⟨_, List.mem_cons_self, ?_⟩
        dsimp only
        split <;> simp_all
      · exact ⟨y, List.mem_cons_of_mem _ hy, h⟩
    next =>
      rcases List.mem_cons.mp hy with rfl | hy
      · exact ⟨y, List.mem_cons_self, h⟩
      · obtain ⟨z, hz, hz'⟩ := ih ⟨y, hy, h⟩
        exact ⟨z, List.mem_cons_of_mem x hz, hz'⟩

/-! ### LAP_OVERRUN (R24) -/

theorem endedInTime_eq_false {s : State} {d : Die} :
    endedInTime s d = false ↔ ∀ e, (s.die d).seq.endCyc = some e → lapD s < e := by
  unfold endedInTime
  cases (s.die d).seq.endCyc <;> simp

/-- The fault of a lap that one of its dies overruns is marked and recorded. -/
def Overrun (d : Die) (now : Nat) (t : State) : Prop :=
  t.laps.lapFault = true ∧ t.laps.progFault = true ∧ Recorded t.faults.detected 0x100 d now

theorem overrun_raiseDie (s : State) (d : Die) : Overrun d s.laps.now (raiseDie s d 0x100 6 0) :=
  ⟨rfl, Bool.or_true _, recorded_mergeRec_self (mkRec s 2 0x100 d none 6 0 0 1) s.faults.detected⟩

theorem Overrun.raiseDie {d : Die} {now : Nat} {t : State} (h : Overrun d now t) (e : Die) : Overrun d now (raiseDie t e 0x100 6 0) :=
  ⟨rfl, Bool.or_true _, h.2.2.mergeRec _⟩

/-- OVERRUN on the dies of a list that a test does not excuse. -/
def raiseLate (ended : Die → Bool) (s : State) (d : Die) : State := if ended d then s else raiseDie s d 0x100 6 0

theorem Overrun.foldl {d : Die} {now : Nat} {t : State} (h : Overrun d now t) (ended : Die → Bool) (l : List Die) :
    Overrun d now (l.foldl (raiseLate ended) t) :=
  List.foldlRecOn l _ h fun u hu e _ => by
    unfold raiseLate
    split
    · exact hu
    · exact hu.raiseDie e

theorem overrun_foldl {ended : Die → Bool} {d : Die} (hd : ended d = false) (l : List Die) (hl : d ∈ l) (s : State) :
    Overrun d s.laps.now (l.foldl (raiseLate ended) s) := by
  induction l generalizing s with
  | nil => cases hl
  | cons e l ih =>
    rcases List.mem_cons.mp hl with rfl | hl
    · have h : raiseLate ended s d = raiseDie s d 0x100 6 0 := by simp [raiseLate, hd]
      rw [List.foldl_cons, h]
      exact (overrun_raiseDie s d).foldl ended l
    · have h : (raiseLate ended s e).laps.now = s.laps.now := by unfold raiseLate; split <;> rfl
      rw [List.foldl_cons, ← h]
      exact ih hl _

theorem overrunDies_overrun {s : State} {d : Die} (h : endedInTime s d = false) : Overrun d s.laps.now (overrunDies s) :=
  overrun_foldl h _ (List.mem_finRange d) s

theorem overrunDies_dies (s : State) : (overrunDies s).dies = s.dies :=
  forDies_leaves State.dies (fun _ _ => by split <;> rfl) s

theorem overrunDies_overrunCount (s : State) : (overrunDies s).laps.overrunCount = s.laps.overrunCount :=
  forDies_leaves (fun u : State => u.laps.overrunCount) (fun _ _ => by split <;> rfl) s

theorem lapOverrun_of_late {s : State} (ho : runLapOpen s = true) {d : Die} (hd : endedInTime s d = false)
    (hc : s.laps.cyc = lapD s + 1) (hs : s.laps.stopIssue = false) :
    execLapOverrun s = .next { overrunDies s with laps := { (overrunDies s).laps with
      overrunCount := satAdd32 s.laps.overrunCount 1, stopIssue := true } } := by
  have ha : (List.finRange 16).all (endedInTime s) = false := by
    rw [List.all_eq_false]
    exact ⟨d, List.mem_finRange d, by simp [hd]⟩
  rw [execLapOverrun, if_pos (by simp [ho, hc, hs, ha]), ← overrunDies_overrunCount]

theorem lapOverrun_of_ended {s : State} (h : ∀ d, endedInTime s d = true) : execLapOverrun s = .next s := by
  rw [execLapOverrun, if_neg (by simp [h])]

/-! ### EARLY_CLOSE (R26) -/

/-- The latest LAP.END of some dies and of one more, when all have executed theirs. -/
def maxEnd (s : State) (a : Option Nat) (d : Die) : Option Nat :=
  match a, (s.die d).seq.endCyc with
  | some x, some e => some (max x e)
  | _, _ => none

theorem lastEnd_eq (s : State) : lastEnd s = (List.finRange 16).foldl (maxEnd s) (some 0) := rfl

theorem foldl_maxEnd {s : State} {e : Nat} (l : List Die) (h : ∀ d ∈ l, ∃ x ≤ e, (s.die d).seq.endCyc = some x) :
    ∀ a ≤ e, ∃ m ≤ e, l.foldl (maxEnd s) (some a) = some m ∧ a ≤ m ∧ ∀ d ∈ l, ∀ x, (s.die d).seq.endCyc = some x → x ≤ m := by
  induction l with
  | nil => exact fun a ha => ⟨a, ha, rfl, le_rfl, by simp⟩
  | cons d l ih =>
    intro a ha
    obtain ⟨x, hx, hd⟩ := h d List.mem_cons_self
    obtain ⟨m, hm, hf, ham, hl⟩ := ih (fun c hc => h c (List.mem_cons_of_mem d hc)) (max a x) (max_le ha hx)
    have hs : maxEnd s (some a) d = some (max a x) := by simp [maxEnd, hd]
    refine ⟨m, hm, by rw [List.foldl_cons, hs, hf], le_trans (le_max_left a x) ham, fun c hc y hy => ?_⟩
    rcases List.mem_cons.mp hc with rfl | hc
    · cases hd.symm.trans hy
      exact le_trans (le_max_right a x) ham
    · exact hl c hc y hy

theorem lastEnd_of_max {s : State} {e : Nat} (h : ∀ d, ∃ x ≤ e, (s.die d).seq.endCyc = some x)
    (he : ∃ d, (s.die d).seq.endCyc = some e) : lastEnd s = some e := by
  obtain ⟨m, hm, hf, -, hmax⟩ := foldl_maxEnd (List.finRange 16) (fun d _ => h d) 0 (Nat.zero_le e)
  obtain ⟨d, hd⟩ := he
  rw [lastEnd_eq, hf, le_antisymm hm (hmax d (List.mem_finRange d) e hd)]

/-- The lap closed early, its close phase starting in lap cycle `c`. -/
def State.closesEarly (s : State) (c : Nat) : State :=
  { addTdc s 0 1 with laps := { s.laps with len := c + 1024, early := true, earlyCount := satAdd32 s.laps.earlyCount 1 } }

/-- EARLY_CLOSE in a lap of a run whose dies are all done: it acts under the conditions of R26 only. -/
theorem execEarlyClose_eq {s : State} {r : RunCfg} {e : Nat} (ho : runLapOpen s = true) (hr : s.run.run = some r)
    (he : lastEnd s = some e) (hc : s.laps.closed = false) (hl : s.laps.early = false) :
    execEarlyClose s =
      if r.strict = false ∧ s.laps.cyc = earlyStart s r e ∧ earlyStart s r e + 1024 < 2 ^ s.laps.curK then
        .next (s.closesEarly (earlyStart s r e))
      else .next s := by
  have h (c : Nat) : (!r.strict && !s.laps.closed && !s.laps.early && decide (s.laps.cyc = c) && decide (c + 1024 < 2 ^ s.laps.curK)) =
      decide (r.strict = false ∧ s.laps.cyc = c ∧ c + 1024 < 2 ^ s.laps.curK) := by
    simp [hc, hl, Bool.and_assoc]
  simp only [execEarlyClose, ho, hr, he, if_true, h, decide_eq_true_eq]
  rfl

/-- Settles O45: a die is late when `endedInTime` fails; the early close is the case distinction of `execEarlyClose_eq`. -/
theorem lapsOverrunAndCloseEarly : Obligations.LapsOverrunAndCloseEarly := by
  intro s ho
  refine ⟨fun ⟨d, hd⟩ hc hs => ?_, fun h => ?_, fun r e hr hall hmax hc hl => ?_⟩
  · have hd : endedInTime s d = false := endedInTime_eq_false.mpr hd
    obtain ⟨hfault, hprog, -⟩ := overrunDies_overrun hd
    refine ⟨_, lapOverrun_of_late ho hd hc hs, rfl, rfl, hfault, hprog, overrunDies_dies s, fun c hl => ?_⟩
    obtain ⟨-, -, hrec⟩ := overrunDies_overrun (endedInTime_eq_false.mpr hl)
    exact hrec
  · exact lapOverrun_of_ended fun d => by
      rw [← Bool.not_eq_false, endedInTime_eq_false]
      exact h d
  · have hx : exec .earlyClose s = _ := execEarlyClose_eq ho hr (lastEnd_of_max hall hmax) hc hl
    refine ⟨fun hs hcyc hlen => hx.trans (if_pos ⟨hs, hcyc, hlen⟩), fun h => hx.trans (if_neg ?_)⟩
    rintro ⟨hs, hcyc, hlen⟩
    rcases h with h | h | h
    · exact Bool.false_ne_true (hs.symm.trans h)
    · exact h hcyc
    · exact absurd hlen (Nat.not_lt.mpr h)

/-! ### Vectors by number -/

theorem vset_eq_set {α : Type} {n : Nat} {v : Vector α n} {i : Nat} (h : i < n) (x : α) : vset v i x = v.set i x h :=
  Vector.ext fun j hj => by rw [vset, Vector.getElem_setIfInBounds, Vector.getElem_set]

theorem vget_vset {α : Type} {n : Nat} {v : Vector α n} {i : Nat} (h : i < n) (x d : α) : vget (vset v i x) i d = x := by
  simp [vget, vset_eq_set h]

/-! ### Writes of the control space (R4 to R6, R420) -/

theorem atCut_off_cut {s : State} (hc : s.laps.cyc ≠ 0) (f : State → State) : atCut s f = s := by simp [atCut, hc]

theorem atCut_at_cut {s : State} (hp : portOn s = true) (hc : s.laps.cyc = 0) (f : State → State) : atCut s f = f s := by
  simp [atCut, hp, hc]

/-- Off a cut no write acts (R20, R420). -/
theorem controlWrites_off_cut {s : State} (hc : s.laps.cyc ≠ 0) (p : Fin 16) (c : Fin 7) (a v : Word) :
    ∀ cmd ∈ [Instr.wsetStart p, .verify p, .cancel p, .faultPop p, .fenceClear p, .budgetWrite p c v, .envelopeWrite p v,
      .registerWrite p a v], exec cmd s = .next s := by
  have hk (f) : (.next (atCut s f) : Host.Outcome State Fault Refusal) = .next s := congrArg _ (atCut_off_cut hc f)
  simp only [List.forall_mem_cons]
  exact ⟨hk _, hk _, hk _, hk _, hk _, hk _, hk _, hk _, List.forall_mem_nil _⟩

/-! ### The weight set (R345, R346) -/

theorem wsetStartWrite_starts {s : State} (hr : s.run.run = none) (hn : s.run.wsetCount ≤ 256) :
    wsetStartWrite s = { s with run := { s.run with wsetStart := true, wsetValid := false } } := by
  rw [wsetStartWrite, if_neg (by simp [inRun, hr]), if_neg (Nat.not_lt.mpr hn)]

theorem wsetStartWrite_rejected {s : State} (h : s.run.run ≠ none ∨ 256 < s.run.wsetCount) :
    wsetStartWrite s = wsetReject s (if s.run.run ≠ none then 4 else 5) := by
  by_cases hr : s.run.run = none
  · have hn : 256 < s.run.wsetCount := h.resolve_left (not_not_intro hr)
    rw [wsetStartWrite, if_neg (by simp [inRun, hr]), if_pos hn, if_neg (not_not_intro hr)]
  · rw [wsetStartWrite, if_pos (by simpa [inRun, Option.isSome_iff_ne_none] using hr), if_pos hr]

theorem wsetDigestDone_digests {s : State} (hb : s.run.wsetBusy = true) (hr : s.run.run = none)
    (ha : allRead s.run.wsetRead s.run.wsetRegions = true) : execWsetDigestDone s = .next { s with run := { s.run with
      wsetBusy := false, wsetValid := !s.run.wsetDirty
      wsetDigest := sha512 (s.run.wsetRegions.flatMap fun e => leBytes 8 e.1 ++ leBytes 8 e.2 ++ sha512 (devRead s e.1 e.2)) } } := by
  rw [execWsetDigestDone, if_neg (by simp [hb, inRun, hr, ha])]

/-! ### The split check (R396) -/

theorem verifyWrite_starts {s : State} (hr : s.run.run = none) (hs : s.laps.state = 0) :
    verifyWrite s = { s with split := { s.split with verifyStart := true, verified := false, errCode := 0 } } := by
  rw [verifyWrite, if_neg (by simp [hr, hs])]

theorem verifyWrite_ignored {s : State} (h : s.run.run ≠ none ∨ s.laps.state ≠ 0) :
    verifyWrite s = { s with split := { s.split with errCode := 5 } } := by
  rw [verifyWrite, if_pos (by simpa [Option.isSome_iff_ne_none] using h)]

theorem execVerifyDone_eq {s : State} {k : SplitCfg} (hk : s.split.cfg = some k) (hb : s.split.verifyBusy = true)
    (ha : allRead s.split.verifyRead (checkRanges k s.split.verifySide) = true) :
    let ok := decide (splitDigest s k s.split.verifySide = nearBytes s (hdrOf k s.split.verifySide + 320) 64)
    execVerifyDone s = .next { s with split := { s.split with
      verifyBusy := false, verified := ok, errCode := if ok then s.split.errCode else 4 } } := by
  simp only [execVerifyDone, hk, hb, ha, Bool.and_self, if_true]

/-! ### FAULT_POP (R366) -/

/-- The module without the head record of its fault queue. -/
def State.popped (s : State) (l : List FaultRec) : State := { s with faults := { s.faults with queue := l } }

theorem popFault_older {s : State} {r : FaultRec} {l : List FaultRec} (hq : s.faults.queue = r :: l)
    (h : s.faults.cameAt ≠ s.laps.now) : popFault s = s.popped l := by
  simp [popFault, h, hq, State.popped]

theorem popFault_fresh {s : State} (ha : s.faults.cameAt = s.laps.now) (h : s.faults.queue.length ≤ s.faults.fresh) :
    popFault s = s := by
  simp [popFault, ha, h]

theorem popFault_mixed {s : State} {r : FaultRec} {l : List FaultRec} (hq : s.faults.queue = r :: l)
    (ha : s.faults.cameAt = s.laps.now) (h : s.faults.fresh < s.faults.queue.length) (hs : s.faults.spill = []) :
    popFault s = s.popped l := by
  unfold popFault
  dsimp only
  rw [if_neg (not_not_intro ha), if_neg (Nat.not_le.mpr h)]
  split
  · rw [hq]; rfl
  · next hm => cases hs.symm.trans hm

theorem popFault_spilled {s : State} {r y : FaultRec} {l m : List FaultRec} (hq : s.faults.queue = r :: l)
    (ha : s.faults.cameAt = s.laps.now) (h : s.faults.fresh < s.faults.queue.length) (hl : s.faults.queue.length ≤ 256)
    (hs : s.faults.spill = y :: m) :
    (popFault s).faults.queue = l ++ [y] ∧ (popFault s).faults.spill = m ∧ (popFault s).faults.lost = s.faults.lost - 1 := by
  have ht : (s.faults.queue.drop 1).take 255 = l := by
    rw [hq, List.length_cons] at hl
    rw [hq, List.drop_one, List.tail_cons, List.take_of_length_le (by omega)]
  unfold popFault
  dsimp only
  rw [if_neg (not_not_intro ha), if_neg (Nat.not_le.mpr h)]
  split
  · next hm => cases hs.symm.trans hm
  · next y' m' hm =>
    cases hs.symm.trans hm
    exact ⟨congrArg (· ++ [y]) ht, rfl, rfl⟩

theorem popFault_empty {s : State} (hq : s.faults.queue = []) : popFault s = s := by
  by_cases ha : s.faults.cameAt = s.laps.now
  · exact popFault_fresh ha (by simp [hq])
  · have hp : popFault s = s.popped [] := by simp [popFault, ha, hq, State.popped]
    rw [hp, State.popped, ← hq]

/-! ### Budgets (R38, Table 2-4) -/

/-- The caps of the budget classes beside the values written to the others. -/
def budgetCaps (w : Vector Nat 7) : Vector Nat 7 :=
  #v[12288, 12288 - w[2], 12288 - w[1], 4096, 20480 - w[6], 16384, 20480 - w[4]]

theorem budgetCap_eq (s : State) (c : Fin 7) : budgetCap s c = (budgetCaps s.pacer.written)[c] := by
  fin_cases c <;> simp [budgetCap, budgetCaps, vget]

theorem budgetSet_eq (s : State) (c : Fin 7) (v : Nat) : budgetSet s c v =
    { s with pacer := { s.pacer with written := s.pacer.written.set c (min v (budgetCaps s.pacer.written)[c]) } } := by
  rw [budgetSet, budgetCap_eq, vset_eq_set c.isLt]

/-! ### REGISTER_WRITE (R4 to R6, R420) -/

theorem registerWrite_at_cut {s : State} (hp : portOn s = true) (hc : s.laps.cyc = 0) (p : Fin 16) (a v : Word) :
    exec (.registerWrite p a v) s = .next ((ctlWrite s p a.toNat v.toNat).getD s) :=
  congrArg _ (atCut_at_cut hp hc _)

theorem ctlWrite_unmapped {s : State} {a : Nat} (h : ctlRead s a = none) (p : Fin 16) (v : Nat) : (ctlWrite s p a v).getD s = s := by
  rw [ctlWrite, h]
  rfl

/-- Read-only registers ignore a write (R4). -/
theorem ctlWrite_read_only (s : State) (p : Fin 16) (v : Nat) :
    ∀ a ∈ [0x1000C, 0x10014, 0x30008, 0x3000C, 0x40044, 0x60000], (ctlWrite s p (BitVec.ofNat 32 a).toNat v).getD s = s := by
  simp only [List.forall_mem_cons]
  exact ⟨rfl, rfl, rfl, rfl, rfl, rfl, List.forall_mem_nil _⟩

theorem setLo_lt {x v : Nat} (hx : x < 2 ^ 64) (hv : v < 2 ^ 32) : setLo x v < 2 ^ 64 := by unfold setLo; omega
theorem setHi_lt {x v : Nat} (hv : v < 2 ^ 32) : setHi x v < 2 ^ 64 := by unfold setHi; omega
theorem lo32_setLo {x v : Nat} (hv : v < 2 ^ 32) : lo32 (setLo x v) = v := by unfold lo32 setLo; omega
theorem hi32_setHi {x v : Nat} (hv : v < 2 ^ 32) : hi32 (setHi x v) = v := by unfold hi32 setHi; omega

/-- The low word of the seed reads as it was written. -/
theorem seed_lo (x : DWord) (v : Word) : lo32 (BitVec.ofNat 64 (setLo x.toNat v.toNat)).toNat = v.toNat := by
  rw [BitVec.toNat_ofNat, Nat.mod_eq_of_lt (setLo_lt x.isLt v.isLt), lo32_setLo v.isLt]

/-- The high word of the seed reads as it was written. -/
theorem seed_hi (x : DWord) (v : Word) : hi32 (BitVec.ofNat 64 (setHi x.toNat v.toNat)).toNat = v.toNat := by
  rw [BitVec.toNat_ofNat, Nat.mod_eq_of_lt (setHi_lt v.isLt), hi32_setHi v.isLt]

/-- Plain registers read as they were written (R4). -/
theorem ctlRead_ctlWrite (s : State) (p : Fin 16) (v : Word) :
    ∀ a ∈ [0xC, 0x10028, 0x1002C, 0x20008, 0x2000C, 0x30804],
      ctlRead ((ctlWrite s p (BitVec.ofNat 32 a).toNat v.toNat).getD s) a = some v.toNat := by
  have hv : (BitVec.ofNat 32 v.toNat).toNat = v.toNat := by simp
  simp only [List.forall_mem_cons]
  exact ⟨congrArg some hv, congrArg some hv, congrArg some hv, congrArg some (seed_lo s.run.seed v),
    congrArg some (seed_hi s.run.seed v), congrArg some hv, List.forall_mem_nil _⟩

/-- A 1 clears a bit of the registers of events that the module does not set in the same cycle (R5, R6). -/
theorem w1c_toNat {n : Nat} (held setNow : BitVec n) (v : Word) :
    w1c held setNow v.toNat = held &&& (~~~(v.setWidth n) ||| setNow) := by
  rw [w1c, BitVec.ofNat_toNat]

theorem ctlWrite_netEvents (s : State) (p : Fin 16) (v : Word) : (ctlWrite s p 0x40040 v.toNat).getD s =
    { s with net := { s.net with events := s.net.events &&& (~~~(v.setWidth 8) ||| s.net.setNow) } } := by
  rw [← w1c_toNat]; rfl

theorem ctlWrite_pacerEvents (s : State) (p : Fin 16) (v : Word) : (ctlWrite s p 0x1004C v.toNat).getD s =
    { s with pacer := { s.pacer with events := s.pacer.events &&& (~~~(v.setWidth 6) ||| s.pacer.setNow) } } := by
  rw [← w1c_toNat]; rfl

theorem ctlWrite_powerEvents (s : State) (p : Fin 16) (v : Word) : (ctlWrite s p 0x6001C v.toNat).getD s =
    { s with power := { s.power with events := s.power.events &&& (~~~(v.setWidth 6) ||| s.power.setNow) } } := by
  rw [← w1c_toNat]; rfl

/-! ### All writes at a cut -/

/-- At a cut a write leaves what its meaning there gives. -/
theorem next_atCut {s t : State} (hp : portOn s = true) (hc : s.laps.cyc = 0) {f : State → State} (h : f s = t) :
    (.next (atCut s f) : Host.Outcome State Fault Refusal) = .next t := by
  rw [atCut_at_cut hp hc, h]

/-- Settles O55: off a cut `controlWrites_off_cut`; at a cut each clause is the lemma of its case of the write. -/
theorem controlWritesAct : Obligations.ControlWritesAct := by
  intro s p hp
  refine ⟨fun hc => controlWrites_off_cut hc p, fun hc => ?_⟩
  refine ⟨?starts, ?rejected, ?digest, ?verify, ?ignored, ?verified, ?cancel, ?pop, ?empty, ?clear, ?budget, ?envelope,
    ?unmapped, ?readOnly, ?readBack, ?events⟩
  case starts => exact fun hr hn => next_atCut hp hc (wsetStartWrite_starts hr hn)
  case rejected => exact fun h => next_atCut hp hc (wsetStartWrite_rejected h)
  case digest => exact fun hb hr ha => wsetDigestDone_digests hb hr ha
  case verify => exact fun hr hs => next_atCut hp hc (verifyWrite_starts hr hs)
  case ignored => exact fun h => next_atCut hp hc (verifyWrite_ignored h)
  case verified => exact fun k hk hb ha => execVerifyDone_eq hk hb ha
  case cancel => exact next_atCut hp hc rfl
  case pop =>
    intro r l hq
    refine ⟨fun h => next_atCut hp hc (popFault_older hq h), fun ha => ⟨fun h => ?_, fun h hs => ?_, fun y m h hl hs => ?_⟩⟩
    · exact next_atCut hp hc (popFault_fresh ha h)
    · exact next_atCut hp hc (popFault_mixed hq ha h hs)
    · exact ⟨_, next_atCut hp hc rfl, popFault_spilled hq ha h hl hs⟩
  case empty => exact fun hq => next_atCut hp hc (popFault_empty hq)
  case clear => exact next_atCut hp hc rfl
  case budget => exact fun c v => next_atCut hp hc (budgetSet_eq s c v.toNat)
  case envelope => exact fun v => next_atCut hp hc rfl
  case unmapped => exact fun a v h => (registerWrite_at_cut hp hc p a v).trans (congrArg _ (ctlWrite_unmapped h p v.toNat))
  case readOnly =>
    exact fun a ha v => (registerWrite_at_cut hp hc p _ v).trans (congrArg _ (ctlWrite_read_only s p v.toNat a ha))
  case readBack => exact fun a ha v => ⟨_, registerWrite_at_cut hp hc p _ v, ctlRead_ctlWrite s p v a ha⟩
  case events =>
    exact fun v => ⟨(registerWrite_at_cut hp hc p _ v).trans (congrArg _ (ctlWrite_netEvents s p v)),
      (registerWrite_at_cut hp hc p _ v).trans (congrArg _ (ctlWrite_pacerEvents s p v)),
      (registerWrite_at_cut hp hc p _ v).trans (congrArg _ (ctlWrite_powerEvents s p v))⟩

/-! ### What reads of memory and found faults leave (R365, Table 14-3) -/

/-- A tier without its mark of degraded parity groups. -/
def Tier.calm (t : Tier) : Tier := { t with degraded := false }

/-- A die without the marks that faults leave on it. -/
def DieSt.calm (x : DieSt) : DieSt :=
  { x with near := x.near.calm, far := x.far.calm, regs := { x.regs with wordEccSeen := false, setNow := 0 } }

/-- The module without the marks and records that faults leave in the lap in which they are found. -/
def State.calm (s : State) : State :=
  { s with
    laps := { s.laps with lapFault := false, progFault := false }
    faults := { s.faults with detected := [], lapRecs := [], memRecon := 0 }
    dies := s.dies.map DieSt.calm }

@[simp] theorem DieSt.calm_tier_mem (x : DieSt) (far : Bool) : (x.calm.tier far).mem = (x.tier far).mem := by cases far <;> rfl

@[simp] theorem State.calm_die (s : State) (d : Die) : s.calm.die d = (s.die d).calm := by simp [State.calm, State.die]

/-- Replacing an element by one that a function does not tell from it leaves what the function makes of the vector. -/
theorem map_set_of_eq {α β : Type} {n : Nat} (f : α → β) (v : Vector α n) {i : Nat} (hi : i < n) {x : α} (h : f x = f v[i]) :
    (v.set i x).map f = v.map f := by
  ext j hj
  rw [Vector.getElem_map, Vector.getElem_map, Vector.getElem_set]
  split
  · next hij => subst hij; exact h
  · rfl

theorem calm_setDie {s : State} {d : Die} {x : DieSt} (h : x.calm = (s.die d).calm) : (s.setDie d x).calm = s.calm := by
  have hd : (s.dies.set d x).map DieSt.calm = s.dies.map DieSt.calm := map_set_of_eq DieSt.calm s.dies d.isLt h
  simp only [State.calm, State.setDie, hd]

/-- From `s` to `t` nothing changes but what `mask` hides, and a lap with a fault keeps it. -/
structure Leaves (mask : State → State) (s t : State) : Prop where
  same : mask t = mask s
  fault : s.laps.lapFault = true → t.laps.lapFault = true

namespace Leaves

variable {mask : State → State} {s t u : State}

theorem refl (s : State) : Leaves mask s s := ⟨rfl, id⟩
theorem trans (h : Leaves mask s t) (g : Leaves mask t u) : Leaves mask s u := ⟨g.same.trans h.same, g.fault ∘ h.fault⟩

/-- A part of the module that the mask does not hide. -/
theorem get {α : Type} (h : Leaves mask s t) (part : State → α) (hp : ∀ u : State, part (mask u) = part u := by intros; rfl) :
    part t = part s := (hp t).symm.trans ((congrArg part h.same).trans (hp s))

theorem ite {c : Prop} [Decidable c] (h : Leaves mask s t) (g : Leaves mask s u) : Leaves mask s (if c then t else u) := by
  split <;> assumption

theorem foldl {α : Type} {f : State → α → State} (hf : ∀ t x, Leaves mask t (f t x)) (l : List α) (h : Leaves mask s t) :
    Leaves mask s (l.foldl f t) :=
  List.foldlRecOn l f h fun _ hv x _ => hv.trans (hf _ x)

/-- A change of what the mask does not hide, made on both sides. -/
theorem map (h : Leaves mask s t) (f : State → State) (hf : ∀ u, mask (f u) = f (mask u) := by intros; rfl)
    (hl : ∀ u, (f u).laps.lapFault = u.laps.lapFault := by intros; rfl) : Leaves mask (f s) (f t) :=
  ⟨(hf t).trans ((congrArg f h.same).trans (hf s).symm), fun g => (hl t).trans (h.fault ((hl s).symm.trans g))⟩

/-- A mask that hides more. -/
theorem hide (h : Leaves mask s t) {mask' : State → State} (hm : ∀ u, mask' (mask u) = mask' u) : Leaves mask' s t :=
  ⟨h.get mask' hm, h.fault⟩

end Leaves

/-- The module `t` is `s` with at most further faults found in the lap. -/
abbrev Noted (s t : State) : Prop := Leaves State.calm s t

namespace Noted

variable {s t : State}

/-- A part of a die that no fault changes. -/
theorem die {α : Type} (h : Noted s t) (d : Die) (part : DieSt → α) (hp : ∀ x : DieSt, part x.calm = part x := by intros; rfl) :
    part (t.die d) = part (s.die d) :=
  h.get (fun u => part (u.die d)) fun u => by rw [State.calm_die, hp]

theorem addFault (h : Noted s t) (r : FaultRec) : Noted s (addFault t r) := ⟨h.same, fun _ => rfl⟩
theorem raiseHub (h : Noted s t) (c : Nat) : Noted s (raiseHub t c) := h.addFault _
theorem raiseDie (h : Noted s t) (d : Die) (c u a : Nat) : Noted s (raiseDie t d c u a) := h.addFault _

theorem setDie (h : Noted s t) {d : Die} {x : DieSt} (hx : x.calm = (t.die d).calm) : Noted s (t.setDie d x) :=
  ⟨(calm_setDie hx).trans h.same, h.fault⟩

theorem setDegraded (h : Noted s t) (d : Die) (far b : Bool) :
    Noted s (t.setTier d far { (t.die d).tier far with degraded := b }) :=
  h.setDie (by cases far <;> rfl)

theorem noteRead (h : Noted s t) (d : Die) (far : Bool) (b : Nat) : Noted s (noteRead t d far b) := by
  unfold Machine.noteRead
  dsimp only
  cases stripeRead ((t.die d).tier far) b with
  | clean => exact h
  | rebuilt => exact ⟨h.same, h.fault⟩
  | parity => exact h.addFault _
  | multi => exact (h.setDegraded d far true).addFault _

theorem touchRange (h : Noted s t) (a n : Nat) : Noted s (touchRange t a n) := by
  refine h.foldl (fun t b => ?_) _
  cases devLocate (256 * b) with
  | none => exact .refl t
  | some w => exact noteRead (.refl t) ..

theorem coreFault (h : Noted s t) (d : Die) (i c u x a : Nat) : Noted s (coreFault t d i c u x a) := by
  unfold Machine.coreFault
  extract_lets x y s1
  have h1 : Noted s s1 := .ite (h.setDie rfl) h
  exact .ite h (h1.addFault _)

end Noted

/-! ### What a read returns after faults were found -/

theorem devRead_calm (s : State) (a n : Nat) : devRead s.calm a n = devRead s a n := by
  unfold devRead
  cases devLocate a with
  | none => rfl
  | some w =>
    obtain ⟨far, d, o⟩ := w
    dsimp only
    rw [State.calm_die]
    cases far <;> rfl

theorem Noted.devRead {s t : State} (h : Noted s t) (a n : Nat) : devRead t a n = devRead s a n :=
  h.get (Machine.devRead · a n) fun u => devRead_calm u a n

theorem dieEgress_calm (s : State) (d : Die) : dieEgress s.calm d = dieEgress s d := by
  unfold dieEgress parseEgress
  simp only [devRead_calm]
  rfl

theorem Noted.dieEgress {s t : State} (h : Noted s t) : dieEgress t = dieEgress s :=
  funext fun d => h.get (Machine.dieEgress · d) fun u => dieEgress_calm u d

theorem Noted.touchEgress {s t : State} (h : Noted s t) (d : Die) : Noted s (touchEgress t d) := by
  unfold Machine.touchEgress
  split
  · exact .ite h (h.touchRange ..)
  · exact h

/-! ### CLOSE_PHASE_START (R416, R351) -/

/-- The module with other staged egress and another pacer. -/
def State.withEgress (s : State) (l : List Egress) (p : Pacer) : State := { s with net := { s.net with egress := l }, pacer := p }

/-- Reading the descriptors of one die adds its egress to what is staged. -/
def stageDie (s : State) (d : Die) : State :=
  let y := dieEgress s d
  let s := touchEgress s d
  let s1 := { s with net := { s.net with egress := s.net.egress ++ y.1 } }
  if y.2 then raiseDie s1 d 0x017A 12 0 else s1

theorem stageDie_noted (s : State) (d : Die) :
    Noted (s.withEgress (s.net.egress ++ (dieEgress s d).1) s.pacer) (stageDie s d) := by
  have h : Noted s (touchEgress s d) := Noted.touchEgress (.refl s) d
  have h1 := h.map fun u => { u with net := { u.net with egress := u.net.egress ++ (dieEgress s d).1 } }
  exact .ite (Noted.raiseDie h1 ..) h1

theorem foldl_stageDie_noted (l : List Die) (s : State) :
    Noted (s.withEgress (s.net.egress ++ l.flatMap fun d => (dieEgress s d).1) s.pacer) (l.foldl stageDie s) := by
  induction l generalizing s with
  | nil =>
    simp only [List.flatMap_nil, List.append_nil]
    exact .refl s
  | cons d l ih =>
    have h : Noted _ (stageDie s d) := stageDie_noted s d
    have he : (stageDie s d).net.egress = s.net.egress ++ (dieEgress s d).1 := h.get fun u => u.net.egress
    have hx : dieEgress (stageDie s d) = dieEgress s := h.dieEgress
    have hp : (stageDie s d).pacer = s.pacer := h.get State.pacer
    have hl := ih (stageDie s d)
    rw [he, hx, hp, List.append_assoc] at hl
    exact (h.map fun u => u.withEgress _ s.pacer).trans hl

/-- Staging the egress of the lap. -/
theorem stageEgress_noted (s : State) :
    ∃ p, Noted (s.withEgress ((List.finRange 16).flatMap fun d => (dieEgress s d).1) p) (stageEgress s) := by
  have h := foldl_stageDie_noted (List.finRange 16) (s.withEgress [] s.pacer)
  have h1 (p : Pacer) := h.map fun u => { u with pacer := p }
  unfold stageEgress
  extract_lets r u r1
  split
  · exact ⟨_, Noted.raiseHub (h1 _) _⟩
  · exact ⟨_, h1 _⟩

/-- The module in its close phase. -/
def State.closes (s : State) : State := { s with laps := { s.laps with closed := true } }

/-- Whether digest reads are left in a lap that makes them. -/
def digestsLeft (s : State) : Bool := digestLap s && s.mladar.toDigest.any fun e => decide (e.got.length < e.len)

theorem digestsLeft_iff {s : State} :
    digestsLeft s = true ↔ digestLap s = true ∧ ∃ e ∈ s.mladar.toDigest, e.got.length < e.len := by
  simp [digestsLeft]

theorem digestsLeft_eq_false {s : State} :
    digestsLeft s = false ↔ (digestLap s = false ∨ ∀ e ∈ s.mladar.toDigest, e.len ≤ e.got.length) := by
  simp [digestsLeft, imp_iff_not_or]

/-- The first cycle of the close phase: a stall of digest reads is found, then the egress is staged. -/
def closePhase (s : State) : State :=
  let s1 := if digestsLeft s then raiseHub s.closes 0x017B else s.closes
  if runLapOpen s then stageEgress s1 else s1

theorem execClosePhaseStart_eq {s : State} (hc : s.laps.closed = false) (h : s.laps.cyc = s.laps.len - 1024) :
    execClosePhaseStart s = .next (closePhase s) := by
  have hn : ¬ (s.laps.closed || decide (s.laps.cyc ≠ closeStart s)) = true := by
    rw [hc, Bool.false_or, decide_eq_true_eq]
    exact not_not_intro h
  rw [execClosePhaseStart, if_neg hn]
  rfl

/-- The close phase leaves the module but for the egress staged, the pacer and what faults leave. -/
theorem closePhase_noted (s : State) : ∃ l p, Noted (s.closes.withEgress l p) (closePhase s) ∧
    (runLapOpen s = true → l = (List.finRange 16).flatMap fun d => (dieEgress s d).1) := by
  have h : Noted s.closes (if digestsLeft s then raiseHub s.closes 0x017B else s.closes) :=
    .ite (Noted.raiseHub (.refl _) _) (.refl _)
  by_cases ho : runLapOpen s = true
  · obtain ⟨p, hp⟩ := stageEgress_noted (if digestsLeft s then raiseHub s.closes 0x017B else s.closes)
    rw [h.dieEgress] at hp
    refine ⟨_, p, (h.map fun u => u.withEgress _ p).trans ?_, fun _ => rfl⟩
    rw [closePhase, if_pos ho]
    exact hp
  · refine ⟨s.net.egress, s.pacer, ?_, fun g => absurd g ho⟩
    rw [closePhase, if_neg ho]
    exact h

theorem closePhase_stalls {s : State} (h : digestsLeft s = true) : (closePhase s).laps.lapFault = true := by
  rw [closePhase, if_pos h]
  split
  · obtain ⟨p, hp⟩ := stageEgress_noted (raiseHub s.closes 0x017B)
    exact hp.fault rfl
  · rfl

theorem closePhase_idle {s : State} (h : digestsLeft s = false) (ho : runLapOpen s = false) : closePhase s = s.closes := by
  rw [closePhase, if_neg (by simp [ho]), if_neg (by simp [h])]

/-! ### LAP_VERDICT (R27, R382) -/

/-- The module without what judging a lap finds. -/
def State.unjudged (s : State) : State :=
  { s.calm with split := { s.calm.split with atBoundary := false }, mladar := { s.calm.mladar with leaves := [] } }

theorem State.unjudged_die (s : State) (d : Die) : s.unjudged.die d = (s.die d).calm := s.calm_die d

/-- The module `t` is `s` with at most further findings of the verdict. -/
abbrev Judged (s t : State) : Prop := Leaves State.unjudged s t

theorem unjudged_calm (s : State) : s.calm.unjudged = s.unjudged := by
  have hd : (s.dies.map DieSt.calm).map DieSt.calm = s.dies.map DieSt.calm := Vector.map_map
  simp only [State.unjudged, State.calm, hd]

theorem Noted.judged {s t : State} (h : Noted s t) : Judged s t := h.hide unjudged_calm

namespace Judged

variable {s t : State}

theorem judgeStep (h : Judged s t) : Judged s (judgeStep t) := by
  unfold Machine.judgeStep
  split
  · dsimp only
    split
    · exact h.trans (Noted.raiseHub (.refl t) _).judged
    · exact ⟨h.same, h.fault⟩
  · exact h

theorem judgeSlots (h : Judged s t) : Judged s (judgeSlots t) :=
  .ite (h.trans (Noted.raiseHub (.refl t) _).judged) h

theorem judgeLeaves (h : Judged s t) : Judged s (judgeLeaves t) := by
  unfold Machine.judgeLeaves
  extract_lets l m t1
  have h1 : Judged s t1 := ⟨h.same, h.fault⟩
  exact .ite (h1.trans (Noted.raiseHub (.refl t1) _).judged) h1

end Judged

theorem scrub_noted (s : State) : Noted s (scrub s) :=
  .foldl (fun t _ => .foldl (fun u _ => .foldl (fun v _ => Noted.coreFault (.refl v) ..) _ (.refl u)) _ (.refl t)) _ (.refl s)

/-- The findings of the verdict. -/
def judge (s : State) : State := judgeLeaves (judgeSlots (judgeStep (scrub s)))

theorem judge_judged (s : State) : Judged s (judge s) := (scrub_noted s).judged.judgeStep.judgeSlots.judgeLeaves

theorem execLapVerdict_eq {s : State} (hc : s.laps.closed = true) (hv : s.laps.verdict = none)
    (h1 : closeStart s + 256 ≤ s.laps.cyc) (h2 : s.laps.cyc < closeStart s + 768) :
    execLapVerdict s = .next { judge s with laps := { (judge s).laps with verdict := some (!(judge s).laps.lapFault) } } := by
  rw [execLapVerdict, if_pos (by simp [hc, hv, h1, h2])]
  unfold judge
  rfl

theorem stepOf_calm (s : State) (k : SplitCfg) : stepOf s.calm k = stepOf s k := congrArg leNat (devRead_calm s k.scb 8)

/-- A step that goes back is a fault of the lap (R382). -/
theorem judge_stepBack {s : State} {k : SplitCfg} (ho : runLapOpen s = true) (hk : splitCfgOf s = some k)
    (h : stepOf s k < s.split.boundary) : (judge s).laps.lapFault = true := by
  have hs : Noted s (scrub s) := scrub_noted s
  have ho' : runLapOpen (scrub s) = true := (hs.get runLapOpen).trans ho
  have hk' : splitCfgOf (scrub s) = some k := (hs.get splitCfgOf).trans hk
  have h' : stepOf (scrub s) k < (scrub s).split.boundary := by
    rw [hs.get (stepOf · k) fun u => stepOf_calm u k, hs.get fun u => u.split.boundary]
    exact h
  have hj : judgeStep (scrub s) = raiseHub (scrub s) 0x0179 := by
    simp only [judgeStep, ho', hk', if_true, h']
  have hg : Judged (raiseHub (scrub s) 0x0179) (judge s) := by
    rw [judge, hj]
    exact Judged.judgeLeaves (Judged.judgeSlots (.refl _))
  exact hg.fault rfl

/-! ### LAP_SEAL (R353, R355, R418) -/

/-- The module with the lap's seal dealt with. -/
def State.seals (s : State) : State := { s with laps := { s.laps with sealed := true } }

/-- Bytes of the record buffer once the lap's frames have joined it (R418). -/
def recordBytes (s : State) : Nat :=
  (s.net.records.map fun x => x.payload.length).foldl (· + ·) 0 +
    ((List.range s.mladar.leaves.length).map fun i => (recordFrame s.mladar.leaves i).length).foldl (· + ·) 348

/-- LAP_SEAL in its cycles of the close phase, in a lap of a run with records. -/
theorem execLapSeal_eq {s : State} {r : RunCfg} (hc : s.laps.closed = true) (hs : s.laps.sealed = false)
    (h1 : closeStart s + 768 ≤ s.laps.cyc) (h2 : s.laps.cyc < s.laps.len) (hf : s.laps.lapFault = false)
    (hr : recordRun s = some r) (hrec : r.records = true) (ha : runActive s = true) :
    execLapSeal s =
      if 32 * 2 ^ 20 < recordBytes s then .next (raiseHub s.seals 0x017B)
      else
        let g := sealBytes s.seals s.mladar.leaves
        .next { g.2 with mladar := { g.2.mladar with sealNow := some g.1 } } := by
  unfold execLapSeal
  extract_lets due recs s1 l held own g
  have hd : due = true := by simp [due, hc, hs, h1, h2]
  have hrecs : recs = true := by simp [recs, hr, hrec, ha]
  rw [if_neg (by simp [hd]), if_neg (by simp [hrecs, hf])]
  rfl

theorem execLapSeal_faulty {s : State} (hc : s.laps.closed = true) (hs : s.laps.sealed = false)
    (h1 : closeStart s + 768 ≤ s.laps.cyc) (h2 : s.laps.cyc < s.laps.len) (hf : s.laps.lapFault = true) :
    execLapSeal s = .next s.seals := by
  unfold execLapSeal
  extract_lets due recs s1
  have hd : due = true := by simp [due, hc, hs, h1, h2]
  rw [if_neg (by simp [hd]), if_pos (by simp [hf])]
  rfl

/-- Settles O46: `closePhase_noted` says what the close phase leaves, `judge_judged` what the verdict leaves, and
`execLapSeal_eq` when the lap is sealed. -/
theorem closePhaseJudgesTheLap : Obligations.ClosePhaseJudgesTheLap := by
  intro s
  refine ⟨fun hc hcyc => ?_, fun hc hv h1 h2 => ?_,
    fun hc hs h1 h2 => ⟨fun hf => ?_, fun r hf hr hrec ha => ⟨fun hb => ?_, fun hb => ?_⟩⟩⟩
  · obtain ⟨l, p, h, hl⟩ := closePhase_noted s
    have hx : execClosePhaseStart s = .next (closePhase s) := execClosePhaseStart_eq hc hcyc
    have hstall : digestsLeft s = true → (closePhase s).laps.lapFault = true := closePhase_stalls
    have hidle : digestsLeft s = false → runLapOpen s = false → closePhase s = s.closes := closePhase_idle
    generalize closePhase s = t at h hx hstall hidle
    have hclosed : t.laps.closed = true := h.get fun u => u.laps.closed
    have hin : t.net.ingress = s.net.ingress := h.get fun u => u.net.ingress
    have hout : t.net.egress = l := h.get fun u => u.net.egress
    refine ⟨t, hx, hclosed, fun d => ?_, hin, fun ho => hout.trans (hl ho), fun hd hex => ?_, fun ho hd => ?_⟩
    · exact ⟨h.die d DieSt.cores, h.die d fun x => x.near.mem, h.die d fun x => x.far.mem, h.die d DieSt.seq, h.die d DieSt.memQ⟩
    · exact hstall (digestsLeft_iff.mpr ⟨hd, hex⟩)
    · rw [hidle (digestsLeft_eq_false.mpr hd) ho]
      rfl
  · have h : Judged s (judge s) := judge_judged s
    have hx := execLapVerdict_eq hc hv h1 h2
    have hback : ∀ k, runLapOpen s = true → splitCfgOf s = some k → stepOf s k < s.split.boundary →
      (judge s).laps.lapFault = true := fun k => judge_stepBack
    generalize judge s = t at h hx hback
    have hcores (d : Die) : (t.die d).cores = (s.die d).cores :=
      h.get (fun u => (u.die d).cores) fun u => by rw [u.unjudged_die]; rfl
    exact ⟨_, hx, rfl, fun hf => congrArg (fun b => some !b) (h.fault hf),
      fun k ho hk hstep => congrArg (fun b => some !b) (hback k ho hk hstep), h.get State.net, h.get State.sec,
      h.get State.pacer, h.get State.fabric, hcores⟩
  · exact execLapSeal_faulty hc hs h1 h2 hf
  · refine ⟨_, (execLapSeal_eq hc hs h1 h2 hf hr hrec ha).trans (if_neg (Nat.not_lt.mpr hb)), rfl, rfl, rfl, _,
      signature_length s.seals s.sec.sealKey (sha512 (sealBody s.seals s.mladar.leaves)), rfl⟩
  · refine ⟨_, (execLapSeal_eq hc hs h1 h2 hf hr hrec ha).trans (if_pos hb), rfl, rfl, ?_⟩
    obtain ⟨x, hx, hcause, -⟩ := recorded_mergeRec_self
      { mkRec s.seals 2 0x017B 0 none 12 0 0 1 with die := 16, pc := 0xFFFFFFFF } s.faults.detected
    exact ⟨x, hx, hcause⟩

/-! ### What writes of memory leave (R320, R346, R396) -/

/-- A tier without what it stores. -/
def Tier.outline (t : Tier) : Tier := { t.calm with mem := [], parity := [], atoms := [] }

/-- A die without what its tiers store. -/
def DieSt.outline (x : DieSt) : DieSt := { x.calm with near := x.near.outline, far := x.far.outline }

/-- The module without what its tiers store, what a write clears, and the free values drawn. -/
def State.outline (s : State) : State :=
  { s.calm with
    dies := s.dies.map DieSt.outline
    run := { s.run with wsetValid := false, wsetDirty := false }
    split := { s.split with verified := false }
    freeIdx := 0 }

theorem outline_calm (s : State) : s.calm.outline = s.outline := by
  have hd : (s.dies.map DieSt.calm).map DieSt.outline = s.dies.map DieSt.outline := Vector.map_map
  have hc : (s.dies.map DieSt.calm).map DieSt.calm = s.dies.map DieSt.calm := Vector.map_map
  simp only [State.outline, State.calm, hd, hc]

theorem outline_setDie {s : State} {d : Die} {x : DieSt} (h : x.outline = (s.die d).outline) : (s.setDie d x).outline = s.outline := by
  have hd : (s.dies.set d x).map DieSt.outline = s.dies.map DieSt.outline := map_set_of_eq DieSt.outline s.dies d.isLt h
  simp only [State.outline, State.calm, State.setDie, hd]

@[simp] theorem State.outline_die (s : State) (d : Die) : s.outline.die d = (s.die d).outline := by simp [State.outline, State.die]

/-- The module `t` is `s` with at most bytes of its tiers written and further faults found in the lap. -/
abbrev Written (s t : State) : Prop := Leaves State.outline s t

theorem Noted.written {s t : State} (h : Noted s t) : Written s t := h.hide outline_calm

namespace Written

variable {s t : State}

/-- A part of a die that no write of memory changes. -/
theorem die {α : Type} (h : Written s t) (d : Die) (part : DieSt → α) (hp : ∀ x : DieSt, part x.outline = part x := by intros; rfl) :
    part (t.die d) = part (s.die d) :=
  h.get (fun u => part (u.die d)) fun u => by rw [State.outline_die, hp]

theorem addFault (h : Written s t) (r : FaultRec) : Written s (addFault t r) := h.trans (Noted.addFault (.refl t) r).written
theorem raiseHub (h : Written s t) (c : Nat) : Written s (raiseHub t c) := h.addFault _
theorem noteRead (h : Written s t) (d : Die) (far : Bool) (b : Nat) : Written s (noteRead t d far b) :=
  h.trans (Noted.noteRead (.refl t) d far b).written
theorem touchRange (h : Written s t) (a n : Nat) : Written s (touchRange t a n) := h.trans (Noted.touchRange (.refl t) a n).written

theorem setDie (h : Written s t) {d : Die} {x : DieSt} (hx : x.outline = (t.die d).outline) : Written s (t.setDie d x) :=
  ⟨(outline_setDie hx).trans h.same, h.fault⟩

theorem noteWrite (h : Written s t) (a n : Nat) : Written s (noteWrite t a n) := by
  unfold Machine.noteWrite
  extract_lets hit r1 s1 side
  have h1 : Written s s1 := .ite ⟨h.same, h.fault⟩ h
  exact .ite ⟨h1.same, h1.fault⟩ h1

theorem tierWrite (h : Written s t) (d : Die) (far : Bool) (o : Nat) (bs : List Byte) : Written s (tierWrite t d far o bs) := by
  unfold Machine.tierWrite
  extract_lets x par
  have hx : ((t.die d).setTier far { x with mem := memWrite x.mem o bs, parity := par }).outline = (t.die d).outline := by
    cases far <;> rfl
  exact (h.setDie hx).noteWrite _ _

theorem blockWrite (h : Written s t) (d : Die) (far : Bool) (o : Nat) (bs : List Byte) (b : Nat) :
    Written s (blockWrite d far o bs t b) := by
  unfold Machine.blockWrite
  exact .ite (h.tierWrite ..) (.ite ((h.noteRead ..).tierWrite ..) (h.noteRead ..))

theorem devWrite (h : Written s t) (a : Nat) (bs : List Byte) : Written s (devWrite t a bs) := by
  unfold Machine.devWrite
  split
  · exact h.foldl (fun u b => blockWrite (.refl u) ..) _
  · exact h

theorem nearWrite (h : Written s t) (a : Nat) (bs : List Byte) : Written s (nearWrite t a bs) := by
  unfold Machine.nearWrite
  exact .ite (h.devWrite ..) ((h.devWrite ..).devWrite ..)

theorem writeDigest (h : Written s t) (k : SplitCfg) (b : Bool) : Written s (writeDigest t k b) := (h.nearWrite ..).nearWrite ..

theorem touchPieces (h : Written s t) (l : List (Nat × Nat)) (pos n : Nat) : Written s (touchPieces t l pos n) :=
  List.foldlRecOn (motive := fun y : State × Nat => Written s y.1) l _ h fun _ hy _ _ => .ite (hy.touchRange ..) hy

end Written

/-! ### Sending a payload (R407, R408) -/

theorem peerAt_setPeer_self (s : State) {p : Nat} (hp : p < 16) (x : Peer) : peerAt (s.setPeer p x) p = x := vget_vset hp x _

theorem seqOf_setSeqOf_self (s : State) {p c : Nat} (hp : p < 16) (hc : c < 5) (q : SeqSt) : seqOf (s.setSeqOf p c q) p c = q := by
  unfold seqOf State.setSeqOf
  rw [peerAt_setPeer_self _ hp]
  exact vget_vset hc q _

/-- A payload sent is kept until it is acknowledged, and its sequence goes on. -/
theorem seqOf_sendPayload (s : State) {p c : Nat} (hp : p < 16) (hc : c < 5) (flags queue aux : Nat) (bs : List Byte) :
    seqOf (sendPayload s p c flags queue aux bs) p c = { seqOf s p c with
      txNext := (seqOf s p c).txNext + 1
      unacked := (seqOf s p c).unacked ++ [⟨txFrame s p c 0 flags queue aux bs, 0, s.laps.now⟩], ackDue := none } :=
  seqOf_setSeqOf_self s hp hc _

/-! ### RECORD_TRANSMIT (R418) -/

theorem firstIdx_append {α : Type} (test : α → Bool) {a : α} (ha : test a = true) (post : List α) :
    ∀ (pre : List α) (i : Nat), (∀ x ∈ pre, test x = false) → firstIdx test (pre ++ a :: post) i = some (i + pre.length)
  | [], i, _ => by simp [firstIdx, ha]
  | x :: pre, i, h => by
    rw [List.cons_append, firstIdx, if_neg (by simp [h x List.mem_cons_self]),
      firstIdx_append test ha post pre (i + 1) fun y hy => h y (List.mem_cons_of_mem x hy)]
    simp only [List.length_cons]
    congr 1
    omega

/-- The first peer that a record frame may go to now. -/
def recordReady (s : State) (r : RecFrame) : Option Nat := r.todo.find? fun p => maySend s p 4

/-- A record frame once it has been sent to peer `p` under number `n`. -/
def RecFrame.sentTo (r : RecFrame) (p n : Nat) : RecFrame := { r with todo := r.todo.filter (· ≠ p), wait := r.wait ++ [(p, n)] }

theorem execRecordTransmit_eq {s : State} {pre post : List RecFrame} {r : RecFrame} {p : Nat} (h : s.net.records = pre ++ r :: post)
    (hpre : ∀ x ∈ pre, recordReady s x = none) (hr : recordReady s r = some p) :
    execRecordTransmit s = .next (sendPayload
      { s with net := { s.net with records := pre ++ r.sentTo p ((seqOf s p 4).txNext % 2 ^ 32) :: post } } p 4 0 0 0 r.payload) := by
  have hi : firstIdx (fun r => (recordReady s r).isSome) s.net.records 0 = some pre.length := by
    rw [h, firstIdx_append _ (by simp [hr]) post pre 0 fun x hx => by simp [hpre x hx], Nat.zero_add]
  have hg : s.net.records[pre.length]? = some r := by simp [h]
  have hset (x : RecFrame) : s.net.records.set pre.length x = pre ++ x :: post := by simp [h]
  unfold execRecordTransmit
  extract_lets ready
  have hready : ready = recordReady s := rfl
  simp only [hready, hi, hg, hr, hset]
  rfl

/-! ### DRAIN_SEND (R387, R388) -/

/-- Bytes of the next drain frame: whole units, within a frame, the image and the budget. -/
def drainBytes (s : State) : Nat :=
  min (min 8192 ((maxPayload s - 16) / 64 * 64))
    (min (s.split.drainTotal - s.split.drainPos) (64 * (lapBudget s 2 - vget s.pacer.usedNow 2 0)))

/-- The module as the next `n` bytes of the drain are read: with the last 1,024 the digest is written first. -/
def drainSource (s : State) (k : SplitCfg) (n : Nat) : State :=
  if s.split.drainTotal - 1024 < s.split.drainPos + n then writeDigest s k (!s.split.live) else s

/-- The module once these bytes have been read and counted. -/
def drainRead (s : State) (k : SplitCfg) (n : Nat) : State :=
  let u := touchPieces (drainSource s k n) (imagePieces k (!s.split.live)) s.split.drainPos n
  { u with
    split := { u.split with drainPos := s.split.drainPos + n }
    pacer := { u.pacer with usedNow := vset u.pacer.usedNow 2 (vget u.pacer.usedNow 2 0 + ceilDiv n 64) } }

/-- The payload of this drain frame. -/
def drainPayload (s : State) (k : SplitCfg) (n : Nat) : List Byte :=
  leBytes 8 s.split.drainPos ++ leBytes 4 s.split.index ++ zeros 4 ++
    readPieces (drainSource s k n) (imagePieces k (!s.split.live)) s.split.drainPos n

theorem execDrainSend_eq {s : State} {p : Nat} {k : SplitCfg} (hp : drainPeer s = some p) (hk : splitCfgOf s = some k)
    (hd : s.split.draining = true) (hh : s.split.hdrDone = true) (hl : s.split.drainPos < s.split.drainTotal)
    (hm : maySend s p 3 = true) :
    execDrainSend s = if drainBytes s = 0 then .next (pacerEvent s 0)
      else .next (sendPayload (drainRead s k (drainBytes s)) p 3 0 0 0 (drainPayload s k (drainBytes s))) := by
  have hleft : s.split.drainTotal - s.split.drainPos ≠ 0 := by omega
  simp only [execDrainSend, hp, hk]
  rw [if_neg (by simp [hd, hh, hm, hleft])]
  rfl

theorem drainSource_written (s : State) (k : SplitCfg) (n : Nat) : Written s (drainSource s k n) :=
  .ite (Written.writeDigest (.refl s) ..) (.refl s)

theorem drainSource_of_le {s : State} {k : SplitCfg} {n : Nat} (h : s.split.drainPos + n ≤ s.split.drainTotal - 1024) :
    drainSource s k n = s := if_neg (Nat.not_lt.mpr h)

theorem drainTouched_written (s : State) (k : SplitCfg) (n : Nat) :
    Written s (touchPieces (drainSource s k n) (imagePieces k (!s.split.live)) s.split.drainPos n) :=
  (drainSource_written s k n).touchPieces ..

/-! ### MGMT_READ_DEFERRED (R44, R420) -/

/-- The module with one more unit of the management budget used. -/
def State.readsOne (s : State) : State :=
  { s with pacer := { s.pacer with usedNow := vset s.pacer.usedNow 3 (vget s.pacer.usedNow 3 0 + 1) } }

theorem mgmtOp_read {s : State} {a x : Nat} (h4 : a % 4 = 0) (hx : ctlRead s a = some x)
    (hb : vget s.pacer.usedNow 3 0 < lapBudget s 3) (p : Fin 16) (v : Nat) :
    mgmtOp s p (a, v) = some (s.readsOne, leBytes 4 a ++ leBytes 4 x) := by
  have h0 : bitAt a 0 = false := by simp [bitAt]; omega
  have h1 : bitAt a 1 = false := by simp [bitAt]; omega
  have ha : a / 4 * 4 = a := by omega
  simp only [mgmtOp, h0, h1, ha, hx, Nat.not_le.mpr hb, if_false, Bool.false_eq_true]
  rfl

theorem mgmtOp_deferred {s : State} {a : Nat} (h4 : a % 4 = 0) (hb : lapBudget s 3 ≤ vget s.pacer.usedNow 3 0) (p : Fin 16) (v : Nat) :
    mgmtOp s p (a, v) = none := by
  have h0 : bitAt a 0 = false := by simp [bitAt]; omega
  simp only [mgmtOp, h0, hb, if_true, if_false, Bool.false_eq_true]

theorem execMgmtReadDeferred_at_cut {s : State} (hp : portOn s = true) (hc : s.laps.cyc = 0) :
    execMgmtReadDeferred s = .next (doMgmt s) := by
  rw [execMgmtReadDeferred, if_pos (by simp [hp, hc])]

/-- One frame with one read, answered. -/
theorem doMgmt_read {s : State} {b : BoundMgmt} {a v x : Nat} (hm : s.net.mgmt = [b]) (hl : b.lap ≤ s.laps.moduleLap)
    (ht : b.todo = [(a, v)]) (h4 : a % 4 = 0) (hx : ctlRead s a = some x) (hb : vget s.pacer.usedNow 3 0 < lapBudget s 3) :
    doMgmt s = { s.readsOne with net := { s.net with
      mgmt := [], replies := s.net.replies ++ [(b.peer.val, 2, b.done ++ (leBytes 4 a ++ leBytes 4 x))] } } := by
  simp only [doMgmt, hm, mgmtFrames, Nat.not_lt.mpr hl, if_false, ht, mgmtRun, mgmtOp_read h4 hx hb, List.isEmpty_nil, if_true]
  rfl

/-- One frame with one read, deferred again. -/
theorem doMgmt_deferred {s : State} {b : BoundMgmt} {a v : Nat} (hm : s.net.mgmt = [b]) (hl : b.lap ≤ s.laps.moduleLap)
    (ht : b.todo = [(a, v)]) (h4 : a % 4 = 0) (hb : lapBudget s 3 ≤ vget s.pacer.usedNow 3 0) :
    doMgmt s = { pacerEvent s 2 with net := { s.net with mgmt := [b] } } := by
  have hkeep : (⟨b.lap, b.peer, [(a, v)], b.done⟩ : BoundMgmt) = b := by rw [← ht]
  simp only [doMgmt, hm, mgmtFrames, Nat.not_lt.mpr hl, if_false, ht, mgmtRun, mgmtOp_deferred h4 hb, List.isEmpty_cons,
    Bool.false_eq_true, hkeep]
  rfl

/-- Settles O51: the frame that leaves is that of `execRecordTransmit_eq` and `execDrainSend_eq`; a deferred read is one of
`doMgmt_read` and `doMgmt_deferred`. -/
theorem recordsDrainAndReadsLeave : Obligations.RecordsDrainAndReadsLeave := by
  intro s p
  refine ⟨fun pre post r rest hrec htodo hpre hmay => ?_, fun k hp hk hd hh hl hm => ?_,
    fun b a v x hp hc hm hl ht h4 hx => ⟨fun hb => ?_, fun hb => ?_⟩⟩
  · have hr : recordReady s r = some p.val := by simp [recordReady, htodo, hmay]
    have hnone : ∀ x ∈ pre, recordReady s x = none := fun x hx =>
      List.find?_eq_none.mpr fun y hy => by simp [hpre x hx y hy]
    have hsent : r.sentTo p ((seqOf s p 4).txNext % 2 ^ 32) =
        { r with todo := rest.filter (· ≠ p.val), wait := r.wait ++ [(p.val, (seqOf s p 4).txNext % 2 ^ 32)] } := by
      simp [RecFrame.sentTo, htodo]
    have hseq := seqOf_sendPayload
      { s with net := { s.net with records := pre ++ r.sentTo p ((seqOf s p 4).txNext % 2 ^ 32) :: post } } p.isLt
      (c := 4) (by decide) 0 0 0 r.payload
    exact ⟨_, execRecordTransmit_eq hrec hnone hr, rfl, congrArg (fun x => pre ++ x :: post) hsent,
      congrArg SeqSt.unacked hseq, congrArg SeqSt.txNext hseq⟩
  · have hx := execDrainSend_eq hp hk hd hh hl hm
    refine ⟨fun hn => hx.trans (if_pos hn), fun hn => ?_⟩
    have hw := drainTouched_written s k (drainBytes s)
    refine ⟨_, hx.trans (if_neg (Nat.pos_iff_ne_zero.mp hn)), rfl, ?_, hw.get fun u => u.laps.cyc,
      txFrame (drainRead s k (drainBytes s)) p 3 0 0 0 0 (drainPayload s k (drainBytes s)), ?_, rfl, rfl, rfl, fun hle => ?_,
      fun hle htouch => ?_⟩
    · refine (vget_vset (by decide) _ _).trans ?_
      rw [hw.get State.pacer]
      rfl
    · exact hw.get fun u => u.net.sent ++ [wire u (.niwick (wireTo u p 3) _)]
    · exact congrArg (fun u => _ ++ readPieces u _ _ _) (drainSource_of_le hle)
    · have hs : touchPieces (drainSource s k (drainBytes s)) (imagePieces k (!s.split.live)) s.split.drainPos (drainBytes s) = s := by
        rw [drainSource_of_le (show s.split.drainPos + drainBytes s ≤ _ from hle)]
        exact htouch
      have hdies := congrArg State.dies hs
      have hlaps := congrArg State.laps hs
      exact ⟨hdies, hlaps⟩
  · rw [show exec .mgmtReadDeferred s = _ from execMgmtReadDeferred_at_cut hp hc, doMgmt_read hm hl ht h4 hx hb]
    exact ⟨_, rfl, rfl, rfl, vget_vset (by decide) _ _⟩
  · rw [show exec .mgmtReadDeferred s = _ from execMgmtReadDeferred_at_cut hp hc, doMgmt_deferred hm hl ht h4 hb]
    exact ⟨_, rfl, rfl, rfl, rfl⟩

/-! ### Blocks of a tier (R319, R320) -/

theorem mem_blocksOf {o n b : Nat} : b ∈ blocksOf o n ↔ n ≠ 0 ∧ o / 256 ≤ b ∧ b ≤ (o + n - 1) / 256 := by
  unfold blocksOf
  split
  · next h => simp [h]
  · next h =>
    simp only [List.mem_map, List.mem_range, ne_eq, h, not_false_eq_true, true_and]
    exact ⟨fun ⟨i, hi, hb⟩ => by omega, fun ⟨h1, h2⟩ => ⟨b - o / 256, by omega, by omega⟩⟩

theorem blocksOf_nodup (o n : Nat) : (blocksOf o n).Nodup := by
  unfold blocksOf
  split
  · exact List.nodup_nil
  · exact List.nodup_range.map fun i j h => by omega

/-- The block of a byte of a range is one that the range touches. -/
theorem block_mem_blocksOf {o n a : Nat} (h1 : o ≤ a) (h2 : a < o + n) : a / 256 ∈ blocksOf o n :=
  mem_blocksOf.mpr ⟨by omega, by omega, by omega⟩

theorem memRead_congr {m m' : Mem} (n : Nat) : ∀ a, (∀ i < n, memGet m (a + i) = memGet m' (a + i)) → memRead m a n = memRead m' a n := by
  induction n with
  | zero => exact fun _ _ => rfl
  | succ n ih =>
    intro a h
    have h0 : memGet m a = memGet m' a := h 0 (Nat.succ_pos n)
    rw [memRead, memRead, h0, ih (a + 1) fun i hi => ?_]
    rw [Nat.add_assoc, Nat.add_comm 1 i]
    exact h (i + 1) (Nat.succ_lt_succ hi)

theorem foldl_xorBytes_length (l : List (List Byte)) (x : List Byte) : (l.foldl xorBytes x).length ≤ x.length := by
  induction l generalizing x with
  | nil => exact le_rfl
  | cons y l ih =>
    refine (ih (xorBytes x y)).trans ?_
    rw [xorBytes, List.length_zipWith]
    exact Nat.min_le_left ..

theorem newParity_length (t : Tier) (o : Nat) (bs : List Byte) (b : Nat) : (newParity t o bs b).length ≤ 64 :=
  foldl_xorBytes_length _ (zeros 64)

/-! ### Storing bytes in a tier -/

/-- A tier with bytes written at an offset, and the parity lines of the blocks that they touch. -/
def Tier.store (t : Tier) (o : Nat) (bs : List Byte) : Tier :=
  { t with
    mem := memWrite t.mem o bs
    parity := (blocksOf o bs.length).foldl (fun m b => memWrite m (64 * b) (newParity t o bs b)) t.parity }

theorem tierWrite_eq (s : State) (d : Die) (far : Bool) (o : Nat) (bs : List Byte) :
    tierWrite s d far o bs = noteWrite (s.setTier d far (((s.die d).tier far).store o bs)) (devAddr d far o) bs.length := rfl

theorem parityFold_wf (t : Tier) (o : Nat) (bs : List Byte) (l : List Nat) {m : Mem} (h : Memory.wf m = true) :
    Memory.wf (l.foldl (fun m b => memWrite m (64 * b) (newParity t o bs b)) m) = true :=
  List.foldlRecOn (motive := fun m => Memory.wf m = true) l _ h fun _ hm _ _ => memWrite_wf hm _ _

theorem Tier.store_memWf {t : Tier} (h : t.memWf) (o : Nat) (bs : List Byte) : (t.store o bs).memWf :=
  ⟨memWrite_wf h.1 _ _, parityFold_wf t o bs _ h.2⟩

/-- Parity lines of other blocks stay. -/
theorem parityFold_memGet (t : Tier) (o : Nat) (bs : List Byte) {b a : Nat} (ha : a / 64 = b) (l : List Nat) (hb : b ∉ l) :
    ∀ {m : Mem}, Memory.wf m = true → memGet (l.foldl (fun m b => memWrite m (64 * b) (newParity t o bs b)) m) a = memGet m a := by
  induction l with
  | nil => exact fun _ => rfl
  | cons x l ih =>
    intro m hm
    obtain ⟨hx, hl⟩ := not_or.mp (List.mem_cons.not.mp hb)
    have hlen := newParity_length t o bs x
    rw [List.foldl_cons, ih hl (memWrite_wf hm _ _), memGet_write hm, if_neg (by omega)]

/-- Lines of a block that the bytes do not touch stay. -/
theorem Tier.store_lineBytes {t : Tier} (h : t.memWf) {o : Nat} {bs : List Byte} {b : Nat} (hb : b ∉ blocksOf o bs.length)
    {k : Nat} (hk : k < 5) : lineBytes (t.store o bs) b k = lineBytes t b k := by
  unfold lineBytes
  split
  · exact memRead_congr 64 _ fun i hi => parityFold_memGet t o bs (b := b) (by omega) _ hb h.2
  · next hk4 =>
    refine memRead_congr 64 _ fun i hi => ?_
    have hblock : (256 * b + 64 * k + i) / 256 = b := by omega
    rw [show (t.store o bs).mem = memWrite t.mem o bs from rfl, memGet_write h.1, if_neg]
    exact fun hr => hb (hblock ▸ block_mem_blocksOf hr.1 hr.2)

/-- Lines 0 to 4 of a block decide what reading it finds. -/
theorem stripeRead_congr {t t' : Tier} {b : Nat} (hc : t'.chans = t.chans) (hl : ∀ k < 5, lineBytes t' b k = lineBytes t b k) :
    stripeRead t' b = stripeRead t b := by
  have hr : reportedLines t' b = reportedLines t b := by simp only [reportedLines, chanOut, hc]
  have hx : xorOthers t' b 5 = xorOthers t b 5 := by
    unfold xorOthers
    rw [List.map_congr_left fun k hk => hl k (List.mem_range.mp (List.mem_filter.mp hk).1)]
  unfold stripeRead
  rw [hr, hx]

/-- Reading a block returns its data. -/
def Tier.readable (t : Tier) (b : Nat) : Prop := stripeRead t b = .clean ∨ stripeRead t b = .rebuilt

theorem readable_iff {t : Tier} {b : Nat} : (stripeData t b).isSome = true ↔ t.readable b := by
  unfold stripeData Tier.readable
  cases stripeRead t b <;> simp

theorem Tier.store_readable {t : Tier} (h : t.memWf) {o : Nat} {bs : List Byte} {b : Nat} (hb : b ∉ blocksOf o bs.length) :
    (t.store o bs).readable b ↔ t.readable b := by
  unfold Tier.readable
  rw [stripeRead_congr (t := t) (t' := t.store o bs) rfl fun k hk => Tier.store_lineBytes h hb hk]

/-! ### Writing blocks that can be read -/

/-- From `s` to `t` the bytes `bs` at offset `o` of a tier were written, as far as they lie in the blocks of `l`. -/
structure Wrote (d : Die) (far : Bool) (o : Nat) (bs : List Byte) (l : List Nat) (s t : State) : Prop where
  written : Written s t
  laps : t.laps = s.laps
  wf : ((s.die d).tier far).memWf → ((t.die d).tier far).memWf
  mem : ((s.die d).tier far).memWf → ∀ a, memGet ((t.die d).tier far).mem a =
    if (o ≤ a ∧ a < o + bs.length) ∧ a / 256 ∈ l then nth bs (a - o) 0 else memGet ((s.die d).tier far).mem a
  readable : ((s.die d).tier far).memWf → ∀ b ∉ l, ((t.die d).tier far).readable b ↔ ((s.die d).tier far).readable b
  other : ∀ e x, e ≠ d ∨ x ≠ far → (t.die e).tier x = (s.die e).tier x

namespace Wrote

variable {d : Die} {far : Bool} {o : Nat} {bs : List Byte} {s t u : State}

theorem nil (s : State) : Wrote d far o bs [] s s := ⟨.refl s, rfl, id, by simp, by simp, by simp⟩

theorem trans {l l' : List Nat} (h : Wrote d far o bs l s t) (g : Wrote d far o bs l' t u) : Wrote d far o bs (l ++ l') s u where
  written := h.written.trans g.written
  laps := g.laps.trans h.laps
  wf hw := g.wf (h.wf hw)
  mem hw a := by
    rw [g.mem (h.wf hw) a, h.mem hw a]
    by_cases hin : o ≤ a ∧ a < o + bs.length
    · by_cases h1 : a / 256 ∈ l <;> by_cases h2 : a / 256 ∈ l' <;> simp [hin, h1, h2]
    · simp only [hin, false_and, if_false]
  readable hw b hb := by
    rw [List.mem_append, not_or] at hb
    exact (g.readable (h.wf hw) b hb.2).trans (h.readable hw b hb.1)
  other e x hx := (g.other e x hx).trans (h.other e x hx)

end Wrote

theorem State.setTier_tier_self (s : State) (d : Die) (far : Bool) (t : Tier) : ((s.setTier d far t).die d).tier far = t := by
  rw [State.setTier_die_self, DieSt.setTier_tier]

theorem State.setTier_tier_other (s : State) {d e : Die} {far x : Bool} (t : Tier) (h : e ≠ d ∨ x ≠ far) :
    ((s.setTier d far t).die e).tier x = (s.die e).tier x := by
  by_cases he : e = d
  · subst he
    have hx : x = !far := by cases x <;> cases far <;> simp_all
    rw [State.setTier_die_self, hx, DieSt.setTier_other]
  · rw [State.setTier_die_other _ _ _ he]

/-- A part of the module that what a write clears is no part of. -/
theorem noteWrite_get {α : Type} (s : State) (a n : Nat) (part : State → α)
    (hp : ∀ (u : State) r x, part { u with run := r, split := x } = part u := by intros; rfl) : part (noteWrite s a n) = part s := by
  unfold noteWrite
  extract_lets hit r1 s1 side
  have h1 : part s1 = part s := by
    unfold s1
    split
    · exact hp s _ s.split
    · rfl
  split
  · exact (hp s1 s1.run _).trans h1
  · exact h1

theorem noteWrite_die (s : State) (a n : Nat) (d : Die) : (noteWrite s a n).die d = s.die d :=
  noteWrite_get s a n (State.die · d)

/-- Reading a block that can be read counts at most a reconstruction. -/
theorem noteRead_readable {s : State} {d : Die} {far : Bool} {b : Nat} (h : ((s.die d).tier far).readable b) :
    (noteRead s d far b).dies = s.dies ∧ (noteRead s d far b).laps = s.laps := by
  unfold noteRead
  dsimp only
  rcases h with h | h <;> rw [h] <;> exact ⟨rfl, rfl⟩

/-- The bytes of `bs`, placed at `o`, that lie in block `b`, from the first of them on. -/
def blockPart (o : Nat) (bs : List Byte) (b : Nat) : List Byte :=
  (bs.drop (max o (256 * b) - o)).take (min (o + bs.length) (256 * (b + 1)) - max o (256 * b))

theorem blockPart_length (o : Nat) (bs : List Byte) (b : Nat) :
    (blockPart o bs b).length = min (o + bs.length) (256 * (b + 1)) - max o (256 * b) := by
  rw [blockPart, List.length_take, List.length_drop]
  omega

theorem blockPart_nth {o : Nat} {bs : List Byte} {b a : Nat} (h1 : max o (256 * b) ≤ a)
    (h2 : a < min (o + bs.length) (256 * (b + 1))) : nth (blockPart o bs b) (a - max o (256 * b)) 0 = nth bs (a - o) 0 := by
  have hi : max o (256 * b) - o + (a - max o (256 * b)) = a - o := by omega
  rw [nth, blockPart, List.getElem?_take, if_pos (by omega), List.getElem?_drop, hi, nth]

theorem blocksOf_blockPart {o : Nat} {bs : List Byte} {b x : Nat} (h : x ∈ blocksOf (max o (256 * b)) (blockPart o bs b).length) :
    x = b := by
  have h := mem_blocksOf.mp h
  rw [blockPart_length] at h
  omega

/-- A tier with the bytes of one block stored. -/
theorem wrote_store {d : Die} {far : Bool} {o : Nat} {bs : List Byte} {b : Nat} {s t : State} (hw : Written s t)
    (hl : t.laps = s.laps)
    (ht : ((t.die d).tier far) = ((s.die d).tier far).store (max o (256 * b)) (blockPart o bs b))
    (ho : ∀ e x, e ≠ d ∨ x ≠ far → (t.die e).tier x = (s.die e).tier x) : Wrote d far o bs [b] s t where
  written := hw
  laps := hl
  wf h := ht ▸ Tier.store_memWf h _ _
  mem h a := by
    rw [ht, show (((s.die d).tier far).store _ _).mem = memWrite ((s.die d).tier far).mem _ _ from rfl, memGet_write h.1,
      blockPart_length]
    by_cases hc : (o ≤ a ∧ a < o + bs.length) ∧ a / 256 ∈ [b]
    · have hb : a / 256 = b := List.mem_singleton.mp hc.2
      rw [if_pos hc, if_pos (by omega), blockPart_nth (by omega) (by omega)]
    · have hb : ¬ ((o ≤ a ∧ a < o + bs.length) ∧ a / 256 = b) := fun g => hc ⟨g.1, List.mem_singleton.mpr g.2⟩
      rw [if_neg hc, if_neg (by omega)]
  readable h x hx := by
    rw [ht]
    exact Tier.store_readable h fun hm => hx (List.mem_singleton.mpr (blocksOf_blockPart hm))
  other := ho

theorem wrote_blockWrite {d : Die} {far : Bool} {o : Nat} {bs : List Byte} {b : Nat} {s : State}
    (hr : ((s.die d).tier far).readable b) : Wrote d far o bs [b] s (blockWrite d far o bs s b) := by
  have hst (u : State) (hd : u.dies = s.dies) (hl : u.laps = s.laps) (hu : Written s u) :
      Wrote d far o bs [b] s (tierWrite u d far (max o (256 * b)) (blockPart o bs b)) := by
    have hdie (e : Die) : u.die e = s.die e := by simp only [State.die, hd]
    rw [tierWrite_eq]
    refine wrote_store (tierWrite_eq u .. ▸ hu.tierWrite ..) ((noteWrite_get _ _ _ State.laps).trans hl) ?_ fun e x hx => ?_
    · rw [noteWrite_die, State.setTier_tier_self, hdie]
    · rw [noteWrite_die, State.setTier_tier_other u _ hx, hdie]
  have hsome := readable_iff.mpr hr
  obtain ⟨hd, hl⟩ := noteRead_readable hr
  unfold blockWrite
  extract_lets lo hi part
  by_cases hfull : hi - lo = 256
  · rw [if_pos hfull]
    exact hst s rfl rfl (.refl s)
  · rw [if_neg hfull, if_pos hsome]
    exact hst _ hd hl (Written.noteRead (.refl s) ..)

/-- Writing blocks that can all be read writes their bytes, with no fault. -/
theorem wrote_foldl {d : Die} {far : Bool} {o : Nat} {bs : List Byte} (l : List Nat) (hl : l.Nodup) (s : State)
    (hw : ((s.die d).tier far).memWf) (hr : ∀ b ∈ l, ((s.die d).tier far).readable b) :
    Wrote d far o bs l s (l.foldl (blockWrite d far o bs) s) := by
  induction l generalizing s with
  | nil => exact .nil s
  | cons b l ih =>
    obtain ⟨hb, hl⟩ := List.nodup_cons.mp hl
    have h1 : Wrote d far o bs [b] s (blockWrite d far o bs s b) := wrote_blockWrite (hr b List.mem_cons_self)
    refine h1.trans (ih hl _ (h1.wf hw) fun x hx => ?_)
    exact (h1.readable hw x fun he => hb (List.mem_singleton.mp he ▸ hx)).mpr (hr x (List.mem_cons_of_mem b hx))

/-! ### Receiving a frame (R401, R404 to R407) -/

/-- The module without what the admission of a frame changes: receive buffers, flow control, peers, what is kept for
acknowledgement, and the drain that an acknowledgement may complete. -/
def State.unreceived (s : State) : State :=
  { s with
    freeIdx := 0
    split := { s.split with draining := false, drainDone := false }
    net := { s.net with ctrlBuf := 0, bulkBuf := 0, ctrlPfc := false, bulkPfc := false, sent := [], peers := peersInit
                        storeBytes := 0, records := [] } }

/-- From `s` to `t` a frame was admitted. -/
abbrev Admitted (s t : State) : Prop := Leaves State.unreceived s t

/-- A part of the module that only the receive buffers and the flow control they send are not part of. -/
theorem bufferFrame_get {α : Type} (s : State) (ctrl : Bool) (n : Nat) (part : State → α)
    (hi : ∀ (u : State) i, part { u with freeIdx := i } = part u := by intros; rfl)
    (hp : ∀ (u : State) a b c d l, part { u with
      net := { u.net with ctrlBuf := a, bulkBuf := b, ctrlPfc := c, bulkPfc := d, sent := l } } = part u := by
        intros; rfl) : part (bufferFrame s ctrl n) = part s := by
  unfold bufferFrame
  extract_lets d s1 full level n1 s2 sent n2
  have h1 : part s1 = part s := hi s _
  have h2 : part s2 = part s1 := by
    cases ctrl
    · exact hp s1 n1.ctrlBuf level n1.ctrlPfc n1.bulkPfc n1.sent
    · exact hp s1 level n1.bulkBuf n1.ctrlPfc n1.bulkPfc n1.sent
  split
  · refine Eq.trans ?_ (h2.trans h1)
    clear_value s2
    cases ctrl
    · exact hp s2 n2.ctrlBuf n2.bulkBuf n2.ctrlPfc true (n2.sent ++ [.pfc false 0xFFFF])
    · exact hp s2 n2.ctrlBuf n2.bulkBuf true n2.bulkPfc (n2.sent ++ [.pfc true 0xFFFF])
  · exact h2.trans h1

theorem bufferFrame_admitted (s : State) (ctrl : Bool) (n : Nat) : Admitted s (bufferFrame s ctrl n) :=
  ⟨bufferFrame_get s ctrl n State.unreceived, fun h => (bufferFrame_get s ctrl n fun u => u.laps.lapFault).trans h⟩

theorem drainCheck_get {α : Type} (s : State) (part : State → α)
    (hp : ∀ (u : State) a b, part { u with split := { u.split with draining := a, drainDone := b } } = part u := by intros; rfl) :
    part (drainCheck s) = part s := by
  unfold drainCheck
  split
  · exact hp s false true
  · rfl

/-- A part of the module that no acknowledgement changes beside the sequence that it acknowledges. -/
theorem takeAck_get {α : Type} (s : State) (p c ack sack : Nat) (part : State → α)
    (hp : ∀ (u : State) a b l r, part { u with
      split := { u.split with draining := a, drainDone := b }
      net := { u.net with storeBytes := l, records := r } } = part u := by intros; rfl) :
    part (takeAck s p c ack sack) = part (s.setSeqOf p c { seqOf s p c with
      unacked := (seqOf s p c).unacked.filter fun u => !ackCovers ack sack u.frame.seq }) := by
  unfold takeAck
  extract_lets q gone s1 bytes n1 s2 n2 s3
  have h2 : part s2 = part s1 := by
    unfold s2
    split
    · exact hp s1 s1.split.draining s1.split.drainDone _ s1.net.records
    · rfl
  have h3 : part s3 = part s1 := by
    refine Eq.trans ?_ h2
    unfold s3
    split
    · exact hp s2 s2.split.draining s2.split.drainDone s2.net.storeBytes _
    · rfl
  split
  · exact (drainCheck_get s3 part fun u a b => hp u a b u.net.storeBytes u.net.records).trans h3
  · exact h3

theorem takeAck_admitted (s : State) (p c ack sack : Nat) : Admitted s (takeAck s p c ack sack) :=
  ⟨takeAck_get s p c ack sack State.unreceived, fun h => (takeAck_get s p c ack sack fun u => u.laps.lapFault).trans h⟩

/-- The module once a frame of a known peer has been admitted: its acknowledgement has been taken. -/
def heard (s : State) (ctrl : Bool) (f : Frame) (p : Fin 16) : State :=
  takeAck (bufferFrame s ctrl (f.payload.length + 80)) p (f.cls.toNat - 1) f.ack.toNat f.sack.toNat

theorem heard_admitted (s : State) (ctrl : Bool) (f : Frame) (p : Fin 16) : Admitted s (heard s ctrl f p) :=
  (bufferFrame_admitted ..).trans (takeAck_admitted ..)

/-- An acknowledgement drops what it covers from its sequence and leaves the rest of it. -/
theorem seqOf_heard (s : State) (ctrl : Bool) (f : Frame) (p : Fin 16) (hc : f.cls.toNat - 1 < 5) :
    seqOf (heard s ctrl f p) p (f.cls.toNat - 1) = { seqOf s p (f.cls.toNat - 1) with
      unacked := (seqOf s p (f.cls.toNat - 1)).unacked.filter fun u => !ackCovers f.ack.toNat f.sack.toNat u.frame.seq } := by
  refine (takeAck_get _ _ _ _ _ fun u => seqOf u p (f.cls.toNat - 1)).trans ((seqOf_setSeqOf_self _ p.isLt hc _).trans ?_)
  rw [bufferFrame_get s ctrl _ fun u => seqOf u p (f.cls.toNat - 1)]

theorem consumed_setSeqOf (s : State) (p : Fin 16) (c : Nat) (q : SeqSt) :
    (peerAt (s.setSeqOf p c q) p).consumed = (peerAt s p).consumed := by
  unfold State.setSeqOf
  rw [peerAt_setPeer_self _ p.isLt]

theorem consumed_heard (s : State) (ctrl : Bool) (f : Frame) (p : Fin 16) :
    (peerAt (heard s ctrl f p) p).consumed = (peerAt s p).consumed := by
  refine (takeAck_get _ _ _ _ _ fun u => (peerAt u p).consumed).trans ((consumed_setSeqOf ..).trans ?_)
  exact bufferFrame_get s ctrl _ fun u => (peerAt u p).consumed

/-- What a sequence rule makes of a frame that its class takes as `take` says. -/
def SeqAct.apply (t : State) (p : Fin 16) (c : Nat) (take : State → Fin 16 → State × Bool) : SeqAct → State
  | .discard => t
  | .again => seqAgain t p c
  | .take n => if (take t p).2 then seqTake (take t p).1 p c n else (take t p).1

/-- What becomes of an admitted frame. -/
theorem receive_eq {s t : State} {f : Frame} {p : Fin 16} (cls ty : Nat) (take : State → Fin 16 → State × Bool)
    (hon : portOn s = true) (ht : admitFrame (bufferFrame s (!isBulk (cls - 1)) (f.payload.length + 80)) f = (t, some p)) :
    receive s f cls ty take =
      if f.cls.toNat ≠ cls ∨ f.type.toNat ≠ ty then t
      else (seqAct (seqOf t p (cls - 1)) f.seq.toNat).apply t p (cls - 1) take := by
  unfold receive
  simp only [hon, Bool.not_true, Bool.false_eq_true, if_false, ht]
  cases seqAct (seqOf t p (cls - 1)) f.seq.toNat <;> rfl

/-- A frame that passes the checks of R401, R404 and R406, from a peer that may send it. -/
structure Admissible (s : State) (f : Frame) (p : Fin 16) : Prop where
  on : portOn s = true
  good : frameBad s f = false
  peer : peerOf s f = some p
  may : peerMay s.net.peers[p] f.cls.toNat f.type.toNat = true

namespace Admissible

variable {s : State} {f : Frame} {p : Fin 16}

theorem cls_lt (h : Admissible s f p) : f.cls.toNat - 1 < 5 := by
  have hg := h.good
  simp only [frameBad, Bool.or_eq_false_iff, decide_eq_false_iff_not] at hg
  omega

theorem admitFrame (h : Admissible s f p) (ctrl : Bool) :
    admitFrame (bufferFrame s ctrl (f.payload.length + 80)) f = (heard s ctrl f p, some p) := by
  have hbad : frameBad (bufferFrame s ctrl (f.payload.length + 80)) f = false :=
    (bufferFrame_get s ctrl _ (frameBad · f)).trans h.good
  have hpeer : peerOf (bufferFrame s ctrl (f.payload.length + 80)) f = some p :=
    (bufferFrame_get s ctrl _ (peerOf · f)).trans h.peer
  have hmay : peerMay (bufferFrame s ctrl (f.payload.length + 80)).net.peers[p] f.cls.toNat f.type.toNat = true :=
    (bufferFrame_get s ctrl _ fun u => peerMay u.net.peers[p] f.cls.toNat f.type.toNat).trans h.may
  simp only [Machine.admitFrame, hbad, hpeer, hmay, if_true, Bool.false_eq_true, if_false]
  rfl

theorem seqAct_heard (h : Admissible s f p) (ctrl : Bool) :
    seqAct (seqOf (heard s ctrl f p) p (f.cls.toNat - 1)) f.seq.toNat = seqAct (seqOf s p (f.cls.toNat - 1)) f.seq.toNat := by
  rw [seqOf_heard s ctrl f p h.cls_lt]
  rfl

/-- A frame with a new number is offered to its class. -/
theorem receive_new (h : Admissible s f p) {ty n : Nat} (ht : f.type.toNat = ty)
    (hn : seqAct (seqOf s p (f.cls.toNat - 1)) f.seq.toNat = .take n) (take : State → Fin 16 → State × Bool) {t u : State} {b : Bool}
    (ha : heard s (!isBulk (f.cls.toNat - 1)) f p = t) (hu : take t p = (u, b)) :
    receive s f f.cls.toNat ty take = if b then seqTake u p (f.cls.toNat - 1) n else u := by
  rw [receive_eq _ ty take h.on (h.admitFrame _), if_neg (by simp [ht]), h.seqAct_heard, hn, SeqAct.apply, ha, hu]

theorem seqAgain_admitted (s : State) (p : Fin 16) (c : Nat) : Admitted s (seqAgain s p c) := ⟨rfl, id⟩

/-- A frame whose number is not new is at most acknowledged again. -/
theorem receive_old (h : Admissible s f p) (cls ty : Nat) (take : State → Fin 16 → State × Bool)
    (hn : seqAct (seqOf s p (f.cls.toNat - 1)) f.seq.toNat = .again ∨ seqAct (seqOf s p (f.cls.toNat - 1)) f.seq.toNat = .discard) :
    Admitted s (receive s f cls ty take) := by
  have ha : Admitted s (heard s (!isBulk (cls - 1)) f p) := heard_admitted ..
  rw [receive_eq cls ty take h.on (h.admitFrame _)]
  split
  · exact ha
  · next hc =>
    have hcls : f.cls.toNat = cls := by_contra fun hne => hc (.inl hne)
    rw [← hcls, h.seqAct_heard]
    rcases hn with hn | hn <;> rw [hn]
    · exact (hcls ▸ ha).trans (seqAgain_admitted ..)
    · exact hcls ▸ ha

end Admissible

/-! ### Taking a number (R407, R408) -/

theorem seqAdvance_covers {n : Nat} (k : Nat) : ∀ (m : Nat) (l : List Nat), n < m ∨ n ∈ l →
    n < (seqAdvance k m l).1 ∨ n ∈ (seqAdvance k m l).2 := by
  induction k with
  | zero => exact fun _ _ h => h
  | succ k ih =>
    intro m l h
    unfold seqAdvance
    split
    · refine ih (m + 1) _ ?_
      by_cases hm : n = m
      · exact .inl (by omega)
      · exact h.imp (by omega) fun hl => by simp [hl, hm]
    · exact h

/-- What a frame taken leaves, and that its number counts as received and is to be acknowledged. -/
structure Taken (s : State) (p : Fin 16) (c n : Nat) (t : State) : Prop where
  laps : t.laps = s.laps
  fabric : t.fabric = s.fabric
  power : t.power = s.power
  sec : t.sec = s.sec
  mladar : t.mladar = s.mladar
  ackDue : (seqOf t p c).ackDue = some ((seqOf s p c).ackDue.getD (s.laps.now + 1880))
  received : n < (seqOf t p c).rxNext ∨ n ∈ (seqOf t p c).rxHave

theorem taken_seqTake {s v : State} {p : Fin 16} {c : Nat} (hc : c < 5) (n : Nat) (hl : v.laps = s.laps) (hf : v.fabric = s.fabric)
    (hp : v.power = s.power) (hs : v.sec = s.sec) (hm : v.mladar = s.mladar) (hq : (seqOf v p c).ackDue = (seqOf s p c).ackDue) :
    Taken s p c n (seqTake v p c n) := by
  have h : seqOf (seqTake v p c n) p c = _ := seqOf_setSeqOf_self v p.isLt hc _
  refine ⟨hl, hf, hp, hs, hm, ?_, ?_⟩
  · rw [h, ← hq, ← hl]
  · rw [h]
    exact seqAdvance_covers 256 _ _ (.inr List.mem_cons_self)

theorem consumed_seqTake (s : State) (p : Fin 16) (c n : Nat) : (peerAt (seqTake s p c n) p).consumed = (peerAt s p).consumed :=
  consumed_setSeqOf ..

/-! ### What a frame's class makes of it (R412, R414, R419, R420) -/

/-- The module `t` once a frame was admitted of a module `s`, as its class finds it. -/
structure Offered (s : State) (f : Frame) (p : Fin 16) (t : State) : Prop where
  admitted : Admitted s t
  act : seqAct (seqOf t p (f.cls.toNat - 1)) f.seq.toNat = seqAct (seqOf s p (f.cls.toNat - 1)) f.seq.toNat
  ackDue : (seqOf t p (f.cls.toNat - 1)).ackDue = (seqOf s p (f.cls.toNat - 1)).ackDue
  rxNext : (seqOf t p (f.cls.toNat - 1)).rxNext = (seqOf s p (f.cls.toNat - 1)).rxNext
  rxHave : (seqOf t p (f.cls.toNat - 1)).rxHave = (seqOf s p (f.cls.toNat - 1)).rxHave
  consumed : (peerAt t p).consumed = (peerAt s p).consumed

theorem Admissible.offered {s : State} {f : Frame} {p : Fin 16} (h : Admissible s f p) (ctrl : Bool) :
    Offered s f p (heard s ctrl f p) := by
  have hq := seqOf_heard s ctrl f p h.cls_lt
  exact ⟨heard_admitted .., h.seqAct_heard ctrl, hq ▸ rfl, hq ▸ rfl, hq ▸ rfl, consumed_heard ..⟩

/-- A frame with a new number is offered to its class, and its number is taken with it. -/
theorem Admissible.offer {s : State} {f : Frame} {p : Fin 16} {n cls ty : Nat} (h : Admissible s f p)
    (hn : seqAct (seqOf s p (f.cls.toNat - 1)) f.seq.toNat = .take n) (hc : f.cls.toNat = cls) (ht : f.type.toNat = ty)
    (take : State → Fin 16 → State × Bool) : ∃ t, Offered s f p t ∧ ∀ u b, take t p = (u, b) →
      receive s f cls ty take = if b then seqTake u p (f.cls.toNat - 1) n else u :=
  ⟨_, h.offered _, fun _ _ hu => hc ▸ h.receive_new ht hn take rfl hu⟩

theorem Offered.taken {s t u : State} {f : Frame} {p : Fin 16} (o : Offered s f p t) (h : Admissible s f p) (n : Nat)
    (hl : u.laps = t.laps) (hf : u.fabric = t.fabric) (hp : u.power = t.power) (hs : u.sec = t.sec) (hm : u.mladar = t.mladar)
    (hq : (seqOf u p (f.cls.toNat - 1)) = (seqOf t p (f.cls.toNat - 1))) :
    Taken s p (f.cls.toNat - 1) n (seqTake u p (f.cls.toNat - 1) n) :=
  taken_seqTake h.cls_lt n (hl.trans (o.admitted.get State.laps)) (hf.trans (o.admitted.get State.fabric))
    (hp.trans (o.admitted.get State.power)) (hs.trans (o.admitted.get State.sec)) (hm.trans (o.admitted.get State.mladar))
    (hq ▸ o.ackDue)

theorem seqNo_of_take {s : State} {f : Frame} {p c n : Nat} (h : seqAct (seqOf s p c) f.seq.toNat = .take n) : seqNo s p c f = n := by
  -- `seqNo` is unfolded before it meets its arguments: else the kernel would evaluate the numbers' arithmetic.
  have hdef : ∀ g, seqNo = g → g s p c f = n := by
    intro g hg
    delta seqNo at hg
    subst hg
    beta_reduce
    rw [h]
  exact hdef _ rfl

theorem execCommandFrame_eq {s : State} (h : portOn s = true) (f : Frame) :
    exec (.commandFrame f) s = .next (receive s f 1 0 (takeCommand f)) := by
  change execCommandFrame f s = _
  unfold execCommandFrame
  rw [portOn_responder h]
  rfl

section
variable {s : State} {f : Frame} {p : Fin 16} {n : Nat} (h : Admissible s f p)
  (hn : seqAct (seqOf s p (f.cls.toNat - 1)) f.seq.toNat = .take n)
include h hn

/-- A command waits for the cut (R419). -/
theorem commandFrame_taken (hc : f.cls = 1) (ht : f.type = 0) (hlen : f.payload.length = 64) :
    ∃ t, exec (.commandFrame f) s = .next t ∧ Taken s p (f.cls.toNat - 1) n t ∧ t.dies = s.dies ∧
      t.net.cmds = s.net.cmds ++ [⟨f.sender.toNat, n, p, f.payload⟩] := by
  have hc1 : f.cls.toNat = 1 := hc ▸ rfl
  obtain ⟨t, o, htake⟩ := h.offer hn hc1 (ty := 0) (ht ▸ rfl) (takeCommand f)
  have hno : seqNo t p 0 f = n := seqNo_of_take (by rw [← hn, ← o.act, hc1])
  have hu : takeCommand f t p = ({ t with net := { t.net with cmds := t.net.cmds ++ [⟨f.sender.toNat, n, p, f.payload⟩] } }, true) := by
    unfold takeCommand
    rw [if_neg (by simp [hlen]), hno]
  refine ⟨_, (execCommandFrame_eq h.on f).trans (congrArg _ (htake _ _ hu)), o.taken h n rfl rfl rfl rfl rfl rfl, o.admitted.get State.dies, ?_⟩
  exact congrArg (· ++ _) (o.admitted.get fun u => u.net.cmds)

/-- A management frame waits for the cut (R420). -/
theorem managementFrame_taken (hc : f.cls = 3) (ht : f.type = 0) (h1 : 1 ≤ f.payload.length) (h8 : f.payload.length % 8 = 0)
    (hmax : f.payload.length ≤ 1024) : ∃ t, exec (.managementFrame f) s = .next t ∧ Taken s p (f.cls.toNat - 1) n t ∧
      t.dies = s.dies ∧ t.net.mgmt = s.net.mgmt ++ [⟨s.laps.moduleLap + 1, p, mgmtOps f.payload, []⟩] := by
  obtain ⟨t, o, htake⟩ := h.offer hn (cls := 3) (ty := 0) (hc ▸ rfl) (ht ▸ rfl) (takeMgmt f)
  have hu : takeMgmt f t p = ({ t with net := { t.net with
      mgmt := t.net.mgmt ++ [⟨t.laps.moduleLap + 1, p, mgmtOps f.payload, []⟩] } }, true) := by
    unfold takeMgmt
    exact if_neg (by omega)
  refine ⟨_, congrArg Host.Outcome.next (htake _ _ hu), o.taken h n rfl rfl rfl rfl rfl rfl, o.admitted.get State.dies, ?_⟩
  exact congrArg₂ (fun l m => l ++ [⟨m + 1, p, mgmtOps f.payload, []⟩]) (o.admitted.get fun u => u.net.mgmt)
    (o.admitted.get fun u => u.laps.moduleLap)

end

/-! ### Data frames -/

/-- The lap that presents a data payload that run lap `b` is the first to bind (R21). -/
def presentLap (r : RunCfg) (k : QueueCfg) (b : Nat) : Nat := b + if k.peer = 0xFFFF ∧ r.strict = true then 2 else 1

/-- A data payload of a queue of the run: space in its staging half, then the ingress budget, decide (R43, R412). -/
theorem takeData_run {f : Frame} {t : State} {p : Fin 16} {r : RunCfg} {k : QueueCfg} (hopen : runLapOpen t = true)
    (hr : t.run.run = some r) (hk : r.queues[f.queue.toNat]? = some k) (hdir : k.dir = 1) (hpeer : k.peer = 0xFFFF ∨ k.peer = p.val)
    (hfit : stageFits t r k f.queue.toNat (presentLap r k t.laps.runLap) f.payload.length = true) :
    takeData f t p = if ingressFits t (ceilDiv f.payload.length 64) then
      ({ chargeIngress t p (ceilDiv f.payload.length 64) with net := { (chargeIngress t p (ceilDiv f.payload.length 64)).net with
        ingress := t.net.ingress ++ [⟨t.laps.runLap + 1, presentLap r k t.laps.runLap, f.queue.toNat, bitAt f.flags.toNat 0,
          f.sender.toNat, seqNo t p 1 f, t.net.order, f.aux.toNat, f.payload⟩]
        order := t.net.order + 1 } }, true) else overBudget t := by
  have hstate : t.laps.state ≠ 3 := by
    intro h3
    simp [runLapOpen, runActive, h3] at hopen
  have hlap : (if k.peer = 0xFFFF ∧ r.strict = true then t.laps.runLap + 1 + 1 else t.laps.runLap + 1) = presentLap r k t.laps.runLap := by
    unfold presentLap
    split <;> rfl
  have hq : ¬ (k.dir ≠ 1 ∨ (k.peer ≠ 0xFFFF ∧ k.peer ≠ p.val)) := by omega
  unfold takeData
  dsimp only
  rw [if_neg hstate, hopen, hr, if_pos rfl]
  dsimp only
  rw [hk]
  dsimp only
  rw [if_neg hq, hlap, hfit]
  cases ingressFits t (ceilDiv f.payload.length 64) <;> rfl

theorem seqOf_chargeIngress (s : State) (p : Fin 16) (n c : Nat) : seqOf (chargeIngress s p n) p c = seqOf s p c := by
  refine (congrArg (fun x : Peer => vget x.classes c SeqSt.init) (peerAt_setPeer_self s p.isLt _)).trans ?_
  simp [seqOf, peerAt, vget, p.isLt]

theorem consumed_chargeIngress (s : State) (p : Fin 16) (n : Nat) :
    (peerAt (chargeIngress s p n) p).consumed = (peerAt s p).consumed + n := by
  refine (congrArg Peer.consumed (peerAt_setPeer_self s p.isLt _)).trans ?_
  simp [peerAt, vget, p.isLt]

theorem usedNow_chargeIngress (s : State) (p : Fin 16) (n : Nat) :
    vget (chargeIngress s p n).pacer.usedNow 0 0 = vget s.pacer.usedNow 0 0 + n := vget_vset (by decide) _ _

section
variable {s : State} {f : Frame} {p : Fin 16} {n : Nat} (h : Admissible s f p)
  (hn : seqAct (seqOf s p (f.cls.toNat - 1)) f.seq.toNat = .take n)
include h hn

/-- A data payload of a queue of the run waits for the lap that presents it, under the ingress budget (R43, R412). -/
theorem dataFrame_run (hc : f.cls = 2) (ht : f.type = 0) (hopen : runLapOpen s = true) {r : RunCfg} {k : QueueCfg}
    (hr : s.run.run = some r) (hk : r.queues[f.queue.toNat]? = some k) (hdir : k.dir = 1) (hpeer : k.peer = 0xFFFF ∨ k.peer = p.val)
    (hfit : stageFits s r k f.queue.toNat (presentLap r k s.laps.runLap) f.payload.length = true) :
    (vget s.pacer.usedNow 0 0 + ceilDiv f.payload.length 64 ≤ lapBudget s 0 → ∃ t, exec (.dataFrame f) s = .next t ∧
      Taken s p (f.cls.toNat - 1) n t ∧ t.dies = s.dies ∧
      t.net.ingress = s.net.ingress ++ [⟨s.laps.runLap + 1, presentLap r k s.laps.runLap, f.queue.toNat, bitAt f.flags.toNat 0,
        f.sender.toNat, n, s.net.order, f.aux.toNat, f.payload⟩] ∧
      (peerAt t p).consumed = (peerAt s p).consumed + ceilDiv f.payload.length 64 ∧
      vget t.pacer.usedNow 0 0 = vget s.pacer.usedNow 0 0 + ceilDiv f.payload.length 64) ∧
    (lapBudget s 0 < vget s.pacer.usedNow 0 0 + ceilDiv f.payload.length 64 → ∃ t, exec (.dataFrame f) s = .next t ∧
      t.net.ingress = s.net.ingress ∧ (seqOf t p (f.cls.toNat - 1)).rxNext = (seqOf s p (f.cls.toNat - 1)).rxNext ∧
      (seqOf t p (f.cls.toNat - 1)).rxHave = (seqOf s p (f.cls.toNat - 1)).rxHave ∧ t.pacer.events = s.pacer.events ||| 2) := by
  have hc2 : f.cls.toNat = 2 := hc ▸ rfl
  obtain ⟨t, o, htake⟩ := h.offer hn hc2 (ty := 0) (ht ▸ rfl) (takeData f)
  have hno : seqNo t p 1 f = n := seqNo_of_take (by rw [← hn, ← o.act, hc2])
  have hlap : t.laps.runLap = s.laps.runLap := o.admitted.get fun u => u.laps.runLap
  have hused : t.pacer.usedNow = s.pacer.usedNow := o.admitted.get fun u => u.pacer.usedNow
  have hfits : ingressFits t (ceilDiv f.payload.length 64) = ingressFits s (ceilDiv f.payload.length 64) :=
    o.admitted.get (ingressFits · _)
  have htd := takeData_run (f := f) (p := p) ((o.admitted.get runLapOpen).trans hopen) ((o.admitted.get fun u => u.run.run).trans hr)
    hk hdir hpeer ((congrArg (stageFits t r k _ · _) (congrArg (presentLap r k) hlap)).trans
      ((o.admitted.get (stageFits · r k _ _ _)).trans hfit))
  rw [hfits, hno] at htd
  have horder : t.net.order = s.net.order := o.admitted.get fun u => u.net.order
  have hin : t.net.ingress = s.net.ingress := o.admitted.get fun u => u.net.ingress
  have hdies : t.dies = s.dies := o.admitted.get State.dies
  constructor
  · intro hb
    rw [show ingressFits s (ceilDiv f.payload.length 64) = true from decide_eq_true hb, if_pos rfl] at htd
    refine ⟨_, congrArg Host.Outcome.next (htake _ _ htd), o.taken h n rfl rfl rfl rfl rfl ?_, hdies, ?_, ?_, ?_⟩
    · exact seqOf_chargeIngress ..
    · rw [← hin, ← hlap, ← horder]
      rfl
    · exact (consumed_seqTake ..).trans ((consumed_chargeIngress ..).trans (congrArg (· + _) o.consumed))
    · exact (usedNow_chargeIngress t p _).trans (hused ▸ rfl)
  · intro hb
    rw [show ingressFits s (ceilDiv f.payload.length 64) = false from decide_eq_false (Nat.not_le.mpr hb), if_neg Bool.false_ne_true] at htd
    exact ⟨_, congrArg Host.Outcome.next (htake _ _ htd), hin, o.rxNext, o.rxHave,
      congrArg (· ||| 2#6) (o.admitted.get fun u => u.pacer.events)⟩

/-- Outside a run a data payload is dropped with its event (R415). -/
theorem dataFrame_noRun (hc : f.cls = 2) (ht : f.type = 0) (hr : s.run.run = none) (hst : s.laps.state ≠ 3) :
    ∃ t, exec (.dataFrame f) s = .next t ∧ Taken s p (f.cls.toNat - 1) n t ∧ t.net.ingress = s.net.ingress ∧ t.dies = s.dies ∧
      t.net.rxDropped = satAdd32 s.net.rxDropped 1 ∧ t.net.events = s.net.events ||| 0x10 := by
  obtain ⟨t, o, htake⟩ := h.offer hn (cls := 2) (ty := 0) (hc ▸ rfl) (ht ▸ rfl) (takeData f)
  have hrt : t.run.run = none := (o.admitted.get fun u => u.run.run).trans hr
  have hu : takeData f t p = takeDrop t 4 := by
    unfold takeData
    dsimp only
    rw [if_neg (fun h3 => hst ((o.admitted.get fun u => u.laps.state).symm.trans h3)), hrt, ite_self]
  refine ⟨_, congrArg Host.Outcome.next (htake _ _ hu), o.taken h n rfl rfl rfl rfl rfl rfl, o.admitted.get fun u => u.net.ingress,
    o.admitted.get State.dies, ?_, ?_⟩
  · exact congrArg (satAdd32 · 1) (o.admitted.get fun u => u.net.rxDropped)
  · exact congrArg (· ||| 0x10#8) (o.admitted.get fun u => u.net.events)

end

/-! ### Direct writes (R271, R414) -/

theorem bitAt_eq_mod (a i : Nat) : bitAt a i = decide (a / 2 ^ i % 2 = 1) := rfl

/-- Where an address lies, and what of its region follows it. -/
theorem devLocate_add {a i : Nat} {far : Bool} {d o : Nat} (h : devLocate a = some (far, d, o))
    (hi : o + i < if far then 2 ^ 36 else 2 ^ 35) : devLocate (a + i) = some (far, d, o + i) := by
  unfold devLocate at h ⊢
  rw [bitAt_eq_mod, bitAt_eq_mod] at h ⊢
  by_cases h41 : a / 2 ^ 41 ≠ 0
  · rw [if_pos h41] at h
    cases h
  rw [if_neg h41] at h
  by_cases h40 : a / 2 ^ 40 % 2 = 1
  · rw [if_pos (decide_eq_true h40)] at h
    obtain ⟨rfl, rfl, rfl⟩ := Prod.mk.injEq .. ▸ Prod.mk.injEq .. ▸ Option.some.inj h
    rw [if_pos rfl] at hi
    rw [if_neg (by omega), if_pos (decide_eq_true (by omega))]
    simp only [Option.some.injEq, Prod.mk.injEq, true_and]
    omega
  · rw [if_neg (by simpa using h40)] at h
    by_cases h39 : a / 2 ^ 39 % 2 = 1
    · rw [if_pos (decide_eq_true h39)] at h
      cases h
    · rw [if_neg (by simpa using h39)] at h
      obtain ⟨rfl, rfl, rfl⟩ := Prod.mk.injEq .. ▸ Prod.mk.injEq .. ▸ Option.some.inj h
      rw [if_neg Bool.false_ne_true] at hi
      rw [if_neg (by omega), if_neg (by simp; omega), if_neg (by simp; omega)]
      simp only [Option.some.injEq, Prod.mk.injEq, true_and]
      omega

theorem devRange_of_devLocate {a n : Nat} {far : Bool} {d o : Nat} (h : devLocate a = some (far, d, o)) (hn : 0 < n)
    (hi : o + n ≤ if far then 2 ^ 36 else 2 ^ 35) : devRange a n = true := by
  have hlast : devLocate (a + (n - 1)) = some (far, d, o + (n - 1)) :=
    devLocate_add h (Nat.lt_of_lt_of_le (by omega) hi)
  unfold devRange
  rw [Nat.add_sub_assoc hn, h, hlast]
  simp

/-- A part of the module that is not the program, nor a state register. -/
theorem unloadIf_get {α : Type} (s : State) (a n : Nat) (part : State → α)
    (hp : ∀ (u : State) (x : Option Program), part { u with run := { u.run with program := x } } = part u := by intros; rfl)
    (hs : ∀ (u : State) (d : Die) (v : BitVec 2), part (u.setDie d { u.die d with regs := { (u.die d).regs with state := v } }) = part u := by
      intros; rfl) : part (unloadIf s a n) = part s := by
  unfold unloadIf
  split
  · split
    · exact (forDies_leaves part (fun u d => hs u d 0) _).trans (hp s none)
    · rfl
  · rfl

theorem unloadIf_tier (s : State) (a n : Nat) (d : Die) (far : Bool) : ((unloadIf s a n).die d).tier far = (s.die d).tier far := by
  refine unloadIf_get s a n (fun u => (u.die d).tier far) (fun _ _ => rfl) fun u e v => ?_
  rw [State.setDie_die]
  split
  · next h => subst h; rfl
  · rfl

theorem writeCause_noRun {s : State} (h : s.run.run = none) (a n : Nat) : writeCause s a n false = none := by
  simp [writeCause, hitsImage, hitsFrozen, runActive, h]

/-- A direct write that may be made (R414). -/
theorem takeDirect_write {f : Frame} {t : State} {p : Fin 16} (hr : t.run.run = none) (hst : t.laps.state ≠ 3)
    (h8 : 8 ≤ f.payload.length) (h64 : (f.payload.drop 8).length % 64 = 0) (hmax : (f.payload.drop 8).length ≤ 9088)
    (hfit : ingressFits t ((f.payload.drop 8).length / 64) = true) (ha : leNat (f.payload.take 8) % 64 = 0)
    (hrange : devRange (leNat (f.payload.take 8)) (max (f.payload.drop 8).length 1) = true) :
    takeDirect f t p = (devWrite (unloadIf (chargeIngress t p ((f.payload.drop 8).length / 64)) (leNat (f.payload.take 8))
      (f.payload.drop 8).length) (leNat (f.payload.take 8)) (f.payload.drop 8), true) := by
  unfold takeDirect
  dsimp only
  rw [if_neg (by simp [inRun, hr]), if_neg hst, if_neg (by rw [hrange]; simp only [Bool.not_true, Bool.false_eq_true, or_false]; omega), hfit]
  unfold directWrite
  have hrun (n a b : Nat) : (unloadIf (chargeIngress t p n) a b).run.run = none := (unloadIf_get _ _ _ fun u => u.run.run).trans hr
  rw [writeCause_noRun (hrun ..)]
  rfl

theorem dieOf_val (d : Die) : dieOf d.val = d := Fin.ext (Nat.mod_eq_of_lt d.isLt)

theorem MemCanonical.tier {s : State} (h : MemCanonical s) (d : Die) (far : Bool) : ((s.die d).tier far).memWf := by
  obtain ⟨hn, hf, -⟩ := h.1 d
  cases far
  · exact hn
  · exact hf

/-- A direct write into blocks that can be read writes its bytes, and changes no other tier. -/
theorem wrote_devWrite {s : State} {a o : Nat} {far : Bool} {d : Die} {bs : List Byte} (ha : devLocate a = some (far, d.val, o))
    (hw : ((s.die d).tier far).memWf) (hr : ∀ b ∈ blocksOf o bs.length, ((s.die d).tier far).readable b) :
    Wrote d far o bs (blocksOf o bs.length) s (devWrite s a bs) := by
  unfold devWrite
  rw [ha]
  dsimp only
  rw [dieOf_val]
  exact wrote_foldl _ (blocksOf_nodup ..) s hw hr

section
variable {s : State} {f : Frame} {p : Fin 16} {n : Nat} (h : Admissible s f p)
  (hn : seqAct (seqOf s p (f.cls.toNat - 1)) f.seq.toNat = .take n)
include h hn

/-- In a recovery lap the grants are of no units (R390). -/
theorem directWrite_recovery (hc : f.cls = 2) (ht : f.type = 3) (hr : s.run.run = none) (hst : s.laps.state = 3) :
    ∃ t, exec (.directWrite f) s = .next t ∧ t.dies = s.dies ∧
      (seqOf t p (f.cls.toNat - 1)).rxNext = (seqOf s p (f.cls.toNat - 1)).rxNext ∧
      (seqOf t p (f.cls.toNat - 1)).rxHave = (seqOf s p (f.cls.toNat - 1)).rxHave ∧ t.pacer.events = s.pacer.events ||| 2 := by
  obtain ⟨t, o, htake⟩ := h.offer hn (cls := 2) (ty := 3) (hc ▸ rfl) (ht ▸ rfl) (takeDirect f)
  have hrt : t.run.run = none := (o.admitted.get fun u => u.run.run).trans hr
  have hu : takeDirect f t p = overBudget t := by
    unfold takeDirect
    dsimp only
    rw [if_neg (by simp [inRun, hrt]), if_pos ((o.admitted.get fun u => u.laps.state).trans hst)]
  exact ⟨_, congrArg Host.Outcome.next (htake _ _ hu), o.admitted.get State.dies, o.rxNext, o.rxHave,
    congrArg (· ||| 2#6) (o.admitted.get fun u => u.pacer.events)⟩

/-- A direct write outside a run is made when its frame is taken (R414). -/
theorem directWrite_writes (hc : f.cls = 2) (ht : f.type = 3) (hr : s.run.run = none) (hst : s.laps.state ≠ 3)
    (h8 : 8 ≤ f.payload.length) (h64 : (f.payload.drop 8).length % 64 = 0) (hmax : (f.payload.drop 8).length ≤ 9088)
    (hfit : vget s.pacer.usedNow 0 0 + (f.payload.drop 8).length / 64 ≤ lapBudget s 0) (hmem : MemCanonical s)
    {far : Bool} {d : Die} {o : Nat} (ha : leNat (f.payload.take 8) % 64 = 0)
    (hloc : devLocate (leNat (f.payload.take 8)) = some (far, d.val, o))
    (hend : o + max (f.payload.drop 8).length 1 ≤ if far then 2 ^ 36 else 2 ^ 35)
    (hread : ∀ b ∈ blocksOf o (f.payload.drop 8).length, (stripeData ((s.die d).tier far) b).isSome) :
    ∃ t, exec (.directWrite f) s = .next t ∧ Taken s p (f.cls.toNat - 1) n t ∧
      (∀ i b, (f.payload.drop 8)[i]? = some b → memGet ((t.die d).tier far).mem (o + i) = b) ∧
      (∀ a, a < o ∨ o + (f.payload.drop 8).length ≤ a → memGet ((t.die d).tier far).mem a = memGet ((s.die d).tier far).mem a) ∧
      (∀ e x, e ≠ d ∨ x ≠ far → ((t.die e).tier x).mem = ((s.die e).tier x).mem) := by
  obtain ⟨t, q, htake⟩ := h.offer hn (cls := 2) (ty := 3) (hc ▸ rfl) (ht ▸ rfl) (takeDirect f)
  have hu := takeDirect_write (p := p) ((q.admitted.get fun u => u.run.run).trans hr)
    (fun h3 => hst ((q.admitted.get fun u => u.laps.state).symm.trans h3)) h8 h64 hmax
    ((q.admitted.get (ingressFits · _)).trans (decide_eq_true hfit)) ha (devRange_of_devLocate hloc (by omega) hend)
  generalize f.payload.drop 8 = bs at *
  generalize leNat (f.payload.take 8) = a at *
  generalize hx : unloadIf (chargeIngress t p (bs.length / 64)) a bs.length = x at hu
  have htier (e : Die) (y : Bool) : (x.die e).tier y = (s.die e).tier y :=
    hx ▸ (unloadIf_tier ..).trans (q.admitted.get fun u => (u.die e).tier y)
  have hwrote := wrote_devWrite (s := x) hloc (htier d far ▸ hmem.tier d far) fun b hb => htier d far ▸ readable_iff.mp (hread b hb)
  generalize devWrite x a bs = y at hu hwrote
  have hkeep {α : Type} (part : State → α) (hp : ∀ u : State, part u.outline = part u) (hxt : part x = part t) : part y = part t :=
    (hwrote.written.get part hp).trans hxt
  have hmemd (i : Nat) := hwrote.mem (htier d far ▸ hmem.tier d far) i
  refine ⟨_, congrArg Host.Outcome.next (htake _ _ hu), q.taken h n ?_ ?_ ?_ ?_ ?_ ?_, fun i b hb => ?_, fun i hi => ?_, fun e z hz => ?_⟩
  · exact hwrote.laps.trans (hx ▸ unloadIf_get _ _ _ State.laps)
  · exact hkeep State.fabric (fun _ => rfl) (hx ▸ unloadIf_get _ _ _ State.fabric)
  · exact hkeep State.power (fun _ => rfl) (hx ▸ unloadIf_get _ _ _ State.power)
  · exact hkeep State.sec (fun _ => rfl) (hx ▸ unloadIf_get _ _ _ State.sec)
  · exact hkeep State.mladar (fun _ => rfl) (hx ▸ unloadIf_get _ _ _ State.mladar)
  · exact hkeep (fun u => seqOf u p (f.cls.toNat - 1)) (fun _ => rfl)
      (hx ▸ (unloadIf_get _ _ _ fun u => seqOf u p (f.cls.toNat - 1)).trans (seqOf_chargeIngress ..))
  · have hi : i < bs.length := (List.getElem?_eq_some_iff.mp hb).1
    refine (hmemd (o + i)).trans ((if_pos ⟨⟨Nat.le_add_right .., by omega⟩, block_mem_blocksOf (Nat.le_add_right ..) (by omega)⟩).trans ?_)
    rw [Nat.add_sub_cancel_left, nth, hb, Option.getD_some]
  · refine (hmemd i).trans ((if_neg fun hin => by omega).trans ?_)
    rw [htier]
  · exact congrArg Tier.mem ((hwrote.other e z hz).trans (htier e z))

end

/-- A frame whose number is not new leaves what waits for laps and cuts, and the dies, as they are. -/
theorem Admissible.old_keeps {s : State} {f : Frame} {p : Fin 16} (h : Admissible s f p)
    (hn : seqAct (seqOf s p (f.cls.toNat - 1)) f.seq.toNat = .again ∨ seqAct (seqOf s p (f.cls.toNat - 1)) f.seq.toNat = .discard)
    {i : Instr} (hi : i ∈ [Instr.dataFrame f, .directWrite f, .commandFrame f, .managementFrame f]) :
    ∃ t, exec i s = .next t ∧ Admitted s t := by
  simp only [List.mem_cons, List.not_mem_nil, or_false] at hi
  rcases hi with rfl | rfl | rfl | rfl
  · exact ⟨_, rfl, h.receive_old 2 0 (takeData f) hn⟩
  · exact ⟨_, rfl, h.receive_old 2 3 (takeDirect f) hn⟩
  · exact ⟨_, execCommandFrame_eq h.on f, h.receive_old 1 0 (takeCommand f) hn⟩
  · exact ⟨_, rfl, h.receive_old 3 0 (takeMgmt f) hn⟩

/-- An acknowledgement-only frame is admitted, and no more (R407). -/
theorem Admissible.ackFrame_acks {s : State} {f : Frame} {p : Fin 16} (h : Admissible s f p) (ht : f.type = 1) :
    ∃ t, exec (.ackFrame f) s = .next t ∧ t.dies = s.dies ∧ t.laps = s.laps ∧
      (seqOf t p (f.cls.toNat - 1)).unacked =
        (seqOf s p (f.cls.toNat - 1)).unacked.filter (fun u => !ackCovers f.ack.toNat f.sack.toNat u.frame.seq) ∧
      (seqOf t p (f.cls.toNat - 1)).rxNext = (seqOf s p (f.cls.toNat - 1)).rxNext ∧
      (seqOf t p (f.cls.toNat - 1)).txNext = (seqOf s p (f.cls.toNat - 1)).txNext := by
  have he : exec (.ackFrame f) s = .next (heard s (!isBulk (f.cls.toNat - 1)) f p) := by
    change execAckFrame f s = _
    unfold execAckFrame
    rw [h.on, ht, h.admitFrame]
    rfl
  refine ⟨_, he, (heard_admitted ..).get State.dies, (heard_admitted ..).get State.laps, ?_⟩
  rw [seqOf_heard s _ f p h.cls_lt]
  exact ⟨rfl, rfl, rfl⟩

/-- Settles O48: the frame is admitted (`Admissible.offer`), its class takes it, and its number is taken (`taken_seqTake`). -/
theorem framesAreTaken : Obligations.FramesAreTaken := by
  intro s f p hon hgood hpeer hmay c q taken
  have h : Admissible s f p := ⟨hon, hgood, hpeer, hmay⟩
  have htaken {n : Nat} {t : State} (ht : Taken s p c n t) : taken t n :=
    ⟨ht.laps, ht.fabric, ht.power, ht.sec, ht.mladar, ht.ackDue, ht.received⟩
  refine ⟨h.ackFrame_acks,
    fun n hn => ⟨fun hc ht hlen => ?_, fun hc ht h1 h8 hmax => ?_, fun hc ht hopen r k hr hk hdir hk2 => ?_, fun hc ht hr hst => ?_,
      fun hc ht hr h8 h64 hmax hfit hmem far d o ha hloc hend => ⟨directWrite_recovery h hn hc ht hr, fun hst hread => ?_⟩⟩,
    fun hn i hi => ?_⟩
  · obtain ⟨t, he, ht, hrest⟩ := commandFrame_taken h hn hc ht hlen
    exact ⟨t, he, htaken ht, hrest⟩
  · obtain ⟨t, he, ht, hrest⟩ := managementFrame_taken h hn hc ht h1 h8 hmax
    exact ⟨t, he, htaken ht, hrest⟩
  · intro lap units hstage
    obtain ⟨hin, hover⟩ := dataFrame_run h hn hc ht hopen hr hk hdir hk2 hstage
    refine ⟨fun hb => ?_, hover⟩
    obtain ⟨t, he, ht, hrest⟩ := hin hb
    exact ⟨t, he, htaken ht, hrest⟩
  · obtain ⟨t, he, ht, hrest⟩ := dataFrame_noRun h hn hc ht hr hst
    exact ⟨t, he, htaken ht, hrest⟩
  · obtain ⟨t, he, ht, hrest⟩ := directWrite_writes h hn hc ht hr hst h8 h64 hmax hfit hmem ha hloc hend hread
    exact ⟨t, he, htaken ht, hrest⟩
  · obtain ⟨t, he, ht⟩ := h.old_keeps hn hi
    exact ⟨t, he, ht.get fun u => u.net.cmds, ht.get fun u => u.net.mgmt, ht.get fun u => u.net.ingress, ht.get State.dies⟩

/-! ### What the end of a lap leaves (R27, R28, R273) -/

/-- The module with a part of it and a part of each die hidden. -/
def State.masked (hub : State → State) (dieMask : DieSt → DieSt) (s : State) : State := { hub s with dies := s.dies.map dieMask }

section
variable {hub : State → State} {dieMask : DieSt → DieSt}

theorem State.masked_die (s : State) (d : Die) : (s.masked hub dieMask).die d = dieMask (s.die d) := by simp [State.masked, State.die]

/-- A part of a die that the mask does not hide. -/
theorem Leaves.die {s t : State} {α : Type} (h : Leaves (State.masked hub dieMask) s t) (d : Die) (part : DieSt → α)
    (hp : ∀ x : DieSt, part (dieMask x) = part x := by intros; rfl) : part (t.die d) = part (s.die d) :=
  h.get (fun u => part (u.die d)) fun u => by rw [State.masked_die, hp]

/-- Changing what the mask hides of a die. -/
theorem Leaves.setDie {s t : State} (h : Leaves (State.masked hub dieMask) s t) {d : Die} {x : DieSt}
    (hx : dieMask x = dieMask (t.die d))
    (hh : ∀ (s : State) v w, { hub { s with dies := v } with dies := w } = { hub s with dies := w } := by intros; rfl) :
    Leaves (State.masked hub dieMask) s (t.setDie d x) := by
  have hd : (t.dies.set d x).map dieMask = t.dies.map dieMask := map_set_of_eq dieMask t.dies d.isLt hx
  refine ⟨?_, h.fault⟩
  rw [← h.same]
  unfold State.masked State.setDie
  rw [hh, hd]

end

/-- What a lap that passed changes of the hub beside its count of choices: its registers, counts, releases and slots. -/
def State.passHub (s : State) : State :=
  { s with
    pacer := Pacer.init
    run := { s.run with tdcKinds := 0, degen := 0, fallback := 0, restores := 0 }
    mladar := { Mladar.init with closingLap := s.mladar.closingLap }
    net := { s.net with egress := [], ingress := [], out := [], records := [] }
    freeIdx := 0 }

/-- A die without its registers. -/
def DieSt.unregistered (x : DieSt) : DieSt := { x with regs := DieRegs.init }

/-- From `s` to `t` a lap that passed ended. -/
abbrev Passed (s t : State) : Prop := Leaves (State.masked State.passHub DieSt.unregistered) s t

/-- What an aborted lap changes of the hub beside what it drops. -/
def State.abortHub (s : State) : State :=
  { s with
    pacer := Pacer.init
    run := { s.run with wsetValid := false, wsetDirty := false }
    split := { s.split with atBoundary := false, verified := false }
    mladar := { Mladar.init with closingLap := s.mladar.closingLap }
    freeIdx := 0 }

/-- A die without its registers, and what an abort takes from it. -/
def DieSt.aborting (x : DieSt) : DieSt :=
  { x with
    regs := DieRegs.init, memQ := [], seq := { x.seq with frames := Vector.replicate 128 .none, pageQ := [] }
    near := { x.near with mem := [], parity := [], atoms := [] }, far := { x.far with mem := [], parity := [], atoms := [] } }

/-- From `s` to `t` a lap was aborted, as far as it has come. -/
abbrev Aborting (s t : State) : Prop := Leaves (State.masked State.abortHub DieSt.aborting) s t

/-! #### The registers of the lap -/

/-- The hub notes whether the lap was aborted (Table 2-11). -/
def State.noted (s : State) : State := { s with laps := { s.laps with lastAborted := s.laps.lapFault } }

/-- The lap has ended. -/
def State.over (s : State) : State := { s with laps := { s.laps with committed := true } }

theorem lapDieRegs_passed (s : State) (d : Die) : Passed s (lapDieRegs s d) := Leaves.setDie (.refl s) rfl
theorem lapDieRegs_aborting (s : State) (d : Die) : Aborting s (lapDieRegs s d) := Leaves.setDie (.refl s) rfl

theorem lapRegs_passed (s : State) : Passed s.noted (lapRegs s) := by
  unfold lapRegs
  extract_lets s1 u
  have h1 : Passed s s1 := Leaves.foldl lapDieRegs_passed _ (.refl s)
  clear_value s1
  have h2 := h1.map fun u => { u with laps := { u.laps with lastAborted := s.laps.lapFault } }
  exact ⟨h2.same, h2.fault⟩

theorem lapRegs_aborting (s : State) : Aborting s.noted (lapRegs s) := by
  unfold lapRegs
  extract_lets s1 u
  have h1 : Aborting s s1 := Leaves.foldl lapDieRegs_aborting _ (.refl s)
  clear_value s1
  have h2 := h1.map fun u => { u with laps := { u.laps with lastAborted := s.laps.lapFault } }
  exact ⟨h2.same, h2.fault⟩

/-! #### A lap that passed -/

theorem queueRecords_passed (s : State) (l : List (List Byte)) : Passed s (queueRecords s l) := ⟨rfl, id⟩

theorem certFrames_passed (s : State) : Passed s (certFrames s).2 := ⟨rfl, id⟩

theorem releaseRecords_passed (s : State) : Passed s (releaseRecords s) := by
  unfold releaseRecords
  split
  · exact .refl s
  · extract_lets l c s1
    have hc : Passed s c.2 := by
      unfold c
      split
      · exact certFrames_passed s
      · exact .refl s
    have h1 : Passed s s1 := hc.trans (queueRecords_passed ..)
    clear_value s1
    exact ⟨h1.same, h1.fault⟩

/-- The timing-dependent choices of the lap count for its run (R340). -/
def State.counted (s : State) : State := { s with run := { s.run with tdc := s.run.tdc + s.run.tdcNow } }

theorem passLap_passed (s : State) : Passed s.counted (passLap s) := by
  unfold passLap
  extract_lets s1 s2 s3 s4
  have h1 : Passed s.counted s1 := ⟨rfl, id⟩
  have h2 : Passed s.counted s2 := .ite (t := releaseEgress s1) ⟨rfl, id⟩ ⟨rfl, id⟩
  have h3 : Passed s.counted s3 := h2.trans (releaseRecords_passed s2)
  have h4 : Passed s.counted s4 := .ite ⟨h3.same, h3.fault⟩ (.ite ⟨h3.same, h3.fault⟩ h3)
  clear_value s4
  exact ⟨h4.same, h4.fault⟩

theorem commitLap_eq {s : State} (hc : s.laps.committed = false) :
    commitLap s = if s.laps.lapFault then (abortLap (lapRegs s)).over else (passLap (lapRegs s)).over := by
  unfold commitLap
  generalize lapRegs s = u
  rw [if_neg (hc ▸ Bool.false_ne_true)]
  split <;> rfl

/-- The end of a lap without a fault. -/
theorem commitLap_passed {s : State} (hc : s.laps.committed = false) (h : s.laps.lapFault = false) :
    Passed s.noted.counted.over (commitLap s) := by
  rw [commitLap_eq hc, if_neg (h ▸ Bool.false_ne_true)]
  have h1 : Passed s.noted.counted (passLap (lapRegs s)) := ((lapRegs_passed s).map State.counted).trans (passLap_passed _)
  exact h1.map State.over

/-! #### An aborted lap -/

theorem noteWrite_aborting (s : State) (a n : Nat) : Aborting s (noteWrite s a n) := by
  unfold noteWrite
  extract_lets hit r1 s1 side
  have h1 : Aborting s s1 := .ite ⟨rfl, id⟩ (.refl s)
  exact .ite ⟨h1.same, h1.fault⟩ h1

theorem setTier_aborting (s : State) (d : Die) (far : Bool) (m p : Mem) (l : List AtomElem) :
    Aborting s (s.setTier d far { (s.die d).tier far with mem := m, parity := p, atoms := l }) :=
  Leaves.setDie (.refl s) (by cases far <;> rfl)

theorem atomRun_aborting (s : State) (t : Die) (far : Bool) (e : AtomElem) : Aborting s (atomRun s t far e) :=
  .ite ((setTier_aborting s t far _ _ _).trans (noteWrite_aborting ..)) (.refl s)

theorem draw_aborting (s : State) : Aborting s s.draw.2 := ⟨rfl, id⟩

theorem atomTake_aborting (s : State) (t : Die) (far : Bool) : Aborting s (atomTake s t far) := by
  unfold atomTake
  extract_lets tier idx d i
  split
  · exact .ite (draw_aborting s)
      ((draw_aborting s).trans ((setTier_aborting d.2 t far tier.mem tier.parity _).trans (atomRun_aborting ..)))
  · exact draw_aborting s

theorem atomDrain_aborting (n : Nat) (s : State) (t : Die) (far : Bool) (id : Nat) : Aborting s (atomDrain n s t far id) := by
  induction n generalizing s with
  | zero => exact .refl s
  | succ n ih => exact .ite ((atomTake_aborting s t far).trans (ih _)) (.refl s)

theorem settleTier_aborting (s : State) (t : Die) (far : Bool) : Aborting s (settleTier s t far) :=
  Leaves.foldl (fun _ _ => atomDrain_aborting ..) _ (.refl s)

theorem settleAtoms_aborting (s : State) : Aborting s (settleAtoms s) :=
  Leaves.foldl (fun u d => (settleTier_aborting u d false).trans (settleTier_aborting _ d true)) _ (.refl s)

theorem abortDie_aborting (s : State) (d : Die) : Aborting s (abortDie s d) := Leaves.setDie (.refl s) rfl

/-- What an abort counts and drops of the hub (R28, R368). -/
def State.dropped (s : State) : State :=
  { s with
    laps := { s.laps with abortCount := satAdd32 s.laps.abortCount 1 }
    fabric := { s.fabric with data := [], sends := [], signals := [] }
    net := { s.net with egress := [] } }

theorem abortLap_aborting (s : State) : Aborting s.dropped (abortLap s) := by
  unfold abortLap
  extract_lets s1
  have h1 : Aborting s s1 := (settleAtoms_aborting s).trans (Leaves.foldl abortDie_aborting _ (.refl _))
  clear_value s1
  have h2 := h1.map State.dropped
  exact ⟨h2.same, h2.fault⟩

/-- A die of an aborted lap (R368). -/
def DieSt.aborted (x : DieSt) : DieSt :=
  { x with
    memQ := [], near := { x.near with atoms := [] }, far := { x.far with atoms := [] },
    seq := { x.seq with frames := x.seq.frames.map dropLoading, pageQ := [] } }

theorem forDies_abortDie_die (s : State) (d : Die) : (forDies abortDie s).die d = (s.die d).aborted :=
  forDies_setDie_die (fun _ => DieSt.aborted) s d

theorem abortLap_memQ (s : State) (d : Die) : ((abortLap s).die d).memQ = [] := by
  unfold abortLap
  extract_lets s1
  have h1 : (s1.die d).memQ = [] := congrArg DieSt.memQ (forDies_abortDie_die (settleAtoms s) d)
  clear_value s1
  exact h1

/-- The end of a lap with a fault. -/
theorem commitLap_aborting {s : State} (hc : s.laps.committed = false) (h : s.laps.lapFault = true) :
    Aborting s.noted.dropped.over (commitLap s) ∧ ∀ d, ((commitLap s).die d).memQ = [] := by
  rw [commitLap_eq hc, if_pos h]
  have h1 : Aborting s.noted.dropped (abortLap (lapRegs s)) :=
    ((lapRegs_aborting s).map State.dropped).trans (abortLap_aborting _)
  have hq := abortLap_memQ (lapRegs s)
  generalize abortLap (lapRegs s) = t at h1 hq ⊢
  exact ⟨h1.map State.over, hq⟩

/-! ### What the opening of a lap leaves (R20, R39, R41, R47, R374, R411, R419, R421) -/

/-- The hub without what opening a lap changes: network, pacer, splits, the weight set and the oscillators. -/
def State.openHub (s : State) : State :=
  { s with
    laps := { s.laps with lapFault := false, progFault := false, admitPending := false }
    pacer := Pacer.init
    run := { s.run with
      tdcNow := 0, kindsNow := 0, wsetStart := false, wsetBusy := false, wsetValid := false, wsetErr := false
      setNow := 0, wsetErrCode := 0, wsetRegions := [], wsetDirty := false, wsetRead := Vector.replicate 16 0 }
    faults := { Faults.init with recovering := s.faults.recovering, recCount := s.faults.recCount }
    split := Splits.init
    net := { Net.init 0 with egress := s.net.egress, ingress := s.net.ingress, cmds := s.net.cmds, mgmt := s.net.mgmt }
    freeIdx := 0 }

/-- A memory request without its grants (R41). -/
def MemReq.ungranted (r : MemReq) : MemReq := { r with allowed := 0, floorFrom := 0, floorAt := 0, paid := false }

/-- A die without what opening a lap changes: its tiers, its grants and the time of its reset. -/
def DieSt.opening (x : DieSt) : DieSt :=
  { x with
    near := Tier.init, far := Tier.init, memQ := x.memQ.map MemReq.ungranted, resetFrom := none
    regs := { x.regs with wordEccSeen := false, setNow := 0 } }

/-- No admission waits any more. -/
def State.unadmitted (s : State) : State := { s with run := { s.run with admission := none } }

/-- From `s` to `t` a lap opened, beside its counters and what each die makes of it. -/
abbrev Opening (s t : State) : Prop := Leaves (State.masked State.openHub DieSt.opening) s t

theorem openMask_calm (s : State) : s.calm.masked State.openHub DieSt.opening = s.masked State.openHub DieSt.opening := by
  have hd : (s.dies.map DieSt.calm).map DieSt.opening = s.dies.map DieSt.opening := Vector.map_map
  simp only [State.masked, State.openHub, State.calm, hd]

theorem Noted.opening {s t : State} (h : Noted s t) : Opening s t := h.hide openMask_calm

namespace Opening

variable {s t : State}

theorem pacerEvent (h : Opening s t) (b : Nat) : Opening s (pacerEvent t b) := ⟨h.same, h.fault⟩
theorem openBudgets (h : Opening s t) (idle : Bool) : Opening s (openBudgets t idle) := ⟨h.same, h.fault⟩

theorem peerApply (h : Opening s t) (w : Nat × Nat × Nat) : Opening s (peerApply t w) :=
  .ite ⟨h.same, h.fault⟩ (.ite ⟨h.same, h.fault⟩ (.ite ⟨h.same, h.fault⟩ ⟨h.same, h.fault⟩))

theorem peersApply (h : Opening s t) : Opening s (peersApply t) := by
  have hl : Opening s (t.net.peerCfgNext.foldl Machine.peerApply t) := h.foldl (fun u w => peerApply (.refl u) w) _
  exact ⟨hl.same, hl.fault⟩

theorem openNet (h : Opening s t) (idle : Bool) : Opening s (openNet t idle) :=
  .ite ⟨(peersApply h).same, (peersApply h).fault⟩ (peersApply h)

theorem switchOsc (h : Opening s t) : Opening s (switchOsc t) := .ite ⟨h.same, h.fault⟩ h

theorem endDieReset (h : Opening s t) (d : Die) : Opening s (endDieReset t d) := by
  unfold Machine.endDieReset
  split
  · exact .ite (h.setDie rfl) h
  · exact h

theorem verifyBegin (h : Opening s t) : Opening s (verifyBegin t) := by
  unfold Machine.verifyBegin
  refine .ite h ?_
  dsimp only
  split
  · exact ⟨h.same, h.fault⟩
  · split
    · exact ⟨h.same, h.fault⟩
    · next k _ =>
      have h1 (u : State) (hu : Opening s u) : Opening s (touchRange (touchRange u k.hdrA 1024) k.hdrB 1024) :=
        hu.trans (Noted.touchRange (Noted.touchRange (.refl u) ..) ..).opening
      have h2 := h1 { t with split := { t.split with verifyStart := false } } ⟨h.same, h.fault⟩
      generalize touchRange (touchRange _ k.hdrA 1024) k.hdrB 1024 = v at h2 ⊢
      split
      · exact ⟨h2.same, h2.fault⟩
      · exact .ite ⟨h2.same, h2.fault⟩ ⟨h2.same, h2.fault⟩

theorem wsetBegin (h : Opening s t) : Opening s (wsetBegin t) := by
  unfold Machine.wsetBegin
  refine .ite h ?_
  dsimp only
  refine .ite ⟨h.same, h.fault⟩ ?_
  have h1 (u : State) (hu : Opening s u) (a n : Nat) : Opening s (touchRange u a n) :=
    hu.trans (Noted.touchRange (.refl u) ..).opening
  have h2 := h1 { t with run := { t.run with wsetStart := false } } ⟨h.same, h.fault⟩ t.run.wsetAddr (16 * t.run.wsetCount)
  generalize touchRange _ t.run.wsetAddr (16 * t.run.wsetCount) = v at h2 ⊢
  exact .ite ⟨h2.same, h2.fault⟩ (.ite ⟨h2.same, h2.fault⟩ ⟨h2.same, h2.fault⟩)

/-- A die with other grants of its requests, and a tier's count of them. -/
theorem grants (h : Opening s t) {d : Die} {p : Pacer} {upd : MemReq → MemReq} (hu : ∀ r, (upd r).ungranted = r.ungranted) (far : Bool)
    (x : Tier) : Opening s ({ t with pacer := p }.setDie d ({ t.die d with memQ := (t.die d).memQ.map upd }.setTier far x)) := by
  have hq : ((t.die d).memQ.map upd).map MemReq.ungranted = (t.die d).memQ.map MemReq.ungranted := by
    rw [List.map_map]
    exact List.map_congr_left fun r _ => hu r
  have hp : Opening s { t with pacer := p } := ⟨h.same, h.fault⟩
  refine hp.setDie ?_
  have he (y : DieSt) : (y.setTier far x).opening = y.opening := by cases far <;> rfl
  rw [he]
  exact congrArg (fun q => { (t.die d).opening with memQ := q }) hq

theorem grantOne (s : State) (d : Die) (far late : Bool) (id : Nat) : Opening s (grantOne s d far late id).1 := by
  unfold Machine.grantOne
  extract_lets x mine rs charge tier total had got ord upd n1 s1 s2
  have hu (r : MemReq) : (upd r).ungranted = r.ungranted := by
    unfold upd
    dsimp only
    split
    · split <;> rfl
    · rfl
  have h2 : Opening s s2 := grants (.refl s) hu far _
  clear_value s2
  split
  · exact pacerEvent (.refl s) 0
  · split
    · exact pacerEvent h2 0
    · exact h2

theorem grantAll (h : Opening s t) (d : Die) (far late : Bool) : Opening s (grantAll t d far late) :=
  List.foldlRecOn (motive := fun y : State × Bool => Opening s y.1) (waitingIds (t.die d) far) _ h fun y hy id _ => by
    split
    · exact hy.trans (grantOne ..)
    · exact hy

theorem resumeAsync (h : Opening s t) : Opening s (resumeAsync t) :=
  .ite (h.foldl (fun u d => grantAll (grantAll (.refl u) d false true) d true true) _) h

theorem setPeer (h : Opening s t) (p : Nat) (x : Peer) : Opening s (t.setPeer p x) := ⟨h.same, h.fault⟩
theorem setSeqOf (h : Opening s t) (p c : Nat) (q : SeqSt) : Opening s (t.setSeqOf p c q) := setPeer h ..
theorem emit (h : Opening s t) (x : Sent) : Opening s (emit t x) := ⟨h.same, h.fault⟩
theorem sendPlain (h : Opening s t) (p c ty aux : Nat) : Opening s (sendPlain t p c ty aux) := emit (setSeqOf h ..) _

theorem sendPayload (h : Opening s t) (p c flags queue aux : Nat) (bs : List Byte) :
    Opening s (sendPayload t p c flags queue aux bs) := emit (setSeqOf h ..) _

theorem sendCredit (h : Opening s t) (p : Fin 16) : Opening s (sendCredit t p) := by
  unfold Machine.sendCredit
  extract_lets x
  split
  · exact .ite (sendPlain (setPeer h ..) ..) h
  · exact h

theorem replyAt (h : Opening s t) (n : Nat) (p : Fin 16) (c : Nat) (bs : List Byte) : Opening s (replyAt t n p c bs) :=
  ⟨h.same, h.fault⟩

theorem finishAdmission (s : State) (aborted : Bool) : Opening s.unadmitted (finishAdmission s aborted) := by
  unfold Machine.finishAdmission
  split
  · next h => exact ⟨congrArg (fun x => State.masked State.openHub DieSt.opening { s with run := { s.run with admission := x } }) h, id⟩
  · next a _ =>
    extract_lets code s1 n1 n2 s2 s3
    have h1 : Opening s s1 := replyAt (.refl s) ..
    clear_value s1
    have h2 : Opening s.unadmitted s2 := ⟨(h1.map State.unadmitted).same, h1.fault⟩
    exact .ite h2 ⟨h2.same, h2.fault⟩

theorem releaseReplies (h : Opening s t) : Opening s (releaseReplies t) := by
  unfold Machine.releaseReplies
  extract_lets l n
  have h1 : Opening s { t with net := { n with replies := [] } } := ⟨h.same, h.fault⟩
  refine h1.foldl (fun u r => ?_) l
  exact .ite (sendPayload (.refl u) ..) ⟨rfl, id⟩

theorem grantPeer (y : State × Nat) (p : Fin 16) : Opening y.1 (grantPeer y p).1 := by
  unfold Machine.grantPeer
  extract_lets x g lim
  split
  · exact sendCredit (setPeer (.refl y.1) ..) p
  · exact .refl y.1

theorem grantCredits (h : Opening s t) : Opening s (grantCredits t) :=
  List.foldlRecOn (motive := fun y : State × Nat => Opening s y.1) (List.finRange 16) Machine.grantPeer h fun y hy p _ =>
    hy.trans (grantPeer y p)

theorem presentIngress (h : Opening s t) : Opening s (presentIngress t) := by
  unfold Machine.presentIngress
  split
  · exact h
  · extract_lets l die n1 s1 n
    have h1 : Opening s s1 := ⟨h.same, h.fault⟩
    clear_value s1
    exact .ite h1 ⟨h1.same, h1.fault⟩

theorem loseDown (h : Opening s t) : Opening s (loseDown t) := .ite ⟨h.same, h.fault⟩ ⟨h.same, h.fault⟩

end Opening

/-! ### The lap that a cut opens (R20, R258, R259, R419) -/

/-- A die at the cut. -/
def DieSt.lapped (x : DieSt) : DieSt :=
  { x with
    cores := x.cores.map lapCore, seq := lapSeq x.seq
    near := { x.near with staticUsed := 0, asyncUsed := 0 }, far := { x.far with staticUsed := 0, asyncUsed := 0 } }

/-- What is settled of the module before the new lap counts: its configuration and its oscillator. -/
def beforeLap (t : State) (idle : Bool) : State := switchOsc (openNet (openBudgets t idle) idle)

theorem beforeLap_opening (t : State) (idle : Bool) : Opening t (beforeLap t idle) :=
  Opening.switchOsc (Opening.openNet (Opening.openBudgets (.refl t) idle) idle)

/-- The new lap's counters, with resets of dies that have ended. -/
def lapCounted (t : State) (idle : Bool) : State := forDies endDieReset (freshLap (beforeLap t idle))

theorem lapCounted_opening (t : State) (idle : Bool) : Opening (freshLap (beforeLap t idle)) (lapCounted t idle) :=
  Leaves.foldl (fun u d => Opening.endDieReset (.refl u) d) _ (.refl _)

theorem openLap_opening (t : State) (idle : Bool) : Opening (forDies lapDie (lapCounted t idle)) (openLap t idle) := by
  unfold openLap
  extract_lets s1 s2 s3
  change Opening s2 _
  have h3 : Opening s2 s3 := .ite (Opening.wsetBegin (Opening.verifyBegin (.refl s2))) (.refl s2)
  exact Opening.resumeAsync h3

/-- A part of the hub that opening a lap takes from its counters only. -/
theorem openLap_get {α : Type} (t : State) (idle : Bool) (part : State → α)
    (hm : ∀ u : State, part (u.masked State.openHub DieSt.opening) = part u := by intros; rfl)
    (hd : ∀ (u : State) v, part { u with dies := v } = part u := by intros; rfl)
    (hf : ∀ u : State, part (freshLap (u.masked State.openHub DieSt.opening)) = part (freshLap u) := by intros; rfl) :
    part (openLap t idle) = part (freshLap t) :=
  calc part (openLap t idle) = part (forDies lapDie (lapCounted t idle)) := (openLap_opening t idle).get part hm
    _ = part (lapCounted t idle) := forDies_setDie_get (fun _ => DieSt.lapped) _ part hd
    _ = part (freshLap (beforeLap t idle)) := (lapCounted_opening t idle).get part hm
    _ = part (freshLap t) := (beforeLap_opening t idle).get (fun u => part (freshLap u)) hf

/-- A part of a die that opening a lap takes from the die only. -/
theorem openLap_die {α : Type} (t : State) (idle : Bool) (d : Die) (part : DieSt → α)
    (hm : ∀ x : DieSt, part x.opening = part x := by intros; rfl)
    (hl : ∀ x : DieSt, part x.opening.lapped = part x.lapped := by intros; rfl) :
    part ((openLap t idle).die d) = part (t.die d).lapped := by
  have h1 : (forDies lapDie (lapCounted t idle)).die d = ((lapCounted t idle).die d).lapped :=
    forDies_setDie_die (fun _ => DieSt.lapped) _ d
  have h2 : part ((lapCounted t idle).die d).lapped = part ((freshLap (beforeLap t idle)).die d).lapped :=
    (lapCounted_opening t idle).die d (fun x => part x.lapped) hl
  have h3 : part ((freshLap (beforeLap t idle)).die d).lapped = part (t.die d).lapped :=
    (beforeLap_opening t idle).die d (fun x => part x.lapped) hl
  exact ((openLap_opening t idle).die d part hm).trans ((congrArg part h1).trans (h2.trans h3))

theorem doMgmt_nil {s : State} (h : s.net.mgmt = []) : doMgmt s = s := by
  unfold doMgmt
  rw [h]
  exact congrArg (fun l => { s with net := { s.net with mgmt := l } }) h.symm

/-- The replies, credits and payloads of the lap that opens, after those of the admission. -/
def repliesOf (o : State) (aborted unlocked : Bool) : State :=
  presentIngress (grantCredits (releaseReplies
    (if unlocked then pacerEvent (finishAdmission o aborted) 5 else finishAdmission o aborted)))

theorem repliesOf_opening (o : State) (aborted unlocked : Bool) : Opening o.unadmitted (repliesOf o aborted unlocked) := by
  have h1 : Opening o.unadmitted (finishAdmission o aborted) := Opening.finishAdmission ..
  exact Opening.presentIngress (Opening.grantCredits (Opening.releaseReplies (.ite (Opening.pacerEvent h1 5) h1)))

theorem repliesOf_cmds (o : State) (aborted unlocked : Bool) : (repliesOf o aborted unlocked).net.cmds = o.net.cmds :=
  (repliesOf_opening ..).get fun u => u.net.cmds

theorem repliesOf_mgmt (o : State) (aborted unlocked : Bool) : (repliesOf o aborted unlocked).net.mgmt = o.net.mgmt :=
  (repliesOf_opening ..).get fun u => u.net.mgmt

/-- A cut to which no command and no management frame is bound. -/
theorem cutNow_opening {t : State} (hc : t.net.cmds = []) (hm : t.net.mgmt = []) (s : State) (unlocked : Bool) :
    Opening (openLap t (s.run.run.isNone || t.run.run.isNone)).unadmitted (cutNow s t unlocked) := by
  unfold cutNow
  extract_lets idle s1 s2 s3 s4 n4 r
  have hmo : (openLap t idle).net.mgmt = [] := (openLap_get t idle fun u => u.net.mgmt).trans hm
  have hco : (openLap t idle).net.cmds = [] := (openLap_get t idle fun u => u.net.cmds).trans hc
  have e3 : s3 = repliesOf (openLap t idle) s.laps.lapFault unlocked := rfl
  have h3 : Opening (openLap t idle).unadmitted s3 := e3 ▸ repliesOf_opening ..
  have hm3 : s3.net.mgmt = [] := by rw [e3, repliesOf_mgmt, hmo]
  have hc3 : s3.net.cmds = [] := by rw [e3, repliesOf_cmds, hco]
  clear e3
  clear_value s3
  have h4 : Opening (openLap t idle).unadmitted s4 ∧ s4.net.cmds = [] := by
    unfold s4
    rw [doMgmt_nil hm3]
    exact ⟨h3, hc3⟩
  obtain ⟨h4, hc4⟩ := h4
  clear_value s4
  have hr : r = (s4, false) := by
    unfold r n4
    rw [hc4]
    exact congrArg (fun l => ({ s4 with net := { s4.net with cmds := l } }, false)) hc4.symm
  rw [hr]
  exact Opening.loseDown h4

section
variable {t : State} (hc : t.net.cmds = []) (hm : t.net.mgmt = []) (s : State) (unlocked : Bool)
include hc hm

/-- A part of the hub that the cut takes from the new lap's counters only. -/
theorem cutNow_get {α : Type} (part : State → α)
    (hk : ∀ u : State, part (u.masked State.openHub DieSt.opening) = part u := by intros; rfl)
    (hu : ∀ u : State, part u.unadmitted = part u := by intros; rfl)
    (hd : ∀ (u : State) v, part { u with dies := v } = part u := by intros; rfl)
    (hf : ∀ u : State, part (freshLap (u.masked State.openHub DieSt.opening)) = part (freshLap u) := by intros; rfl) :
    part (cutNow s t unlocked) = part (freshLap t) :=
  ((cutNow_opening hc hm s unlocked).get part hk).trans ((hu _).trans (openLap_get t _ part hk hd hf))

/-- A part of a die that the cut takes from the die only. -/
theorem cutNow_die {α : Type} (d : Die) (part : DieSt → α) (hk : ∀ x : DieSt, part x.opening = part x := by intros; rfl)
    (hl : ∀ x : DieSt, part x.opening.lapped = part x.lapped := by intros; rfl) :
    part ((cutNow s t unlocked).die d) = part (t.die d).lapped := by
  have hu (o : State) : part (o.unadmitted.die d) = part (o.die d) := rfl
  exact ((cutNow_opening hc hm s unlocked).die d part hk).trans ((hu _).trans (openLap_die t _ d part hk hl))

theorem cutNow_admission : (cutNow s t unlocked).run.admission = none :=
  (cutNow_opening hc hm s unlocked).get fun u => u.run.admission

theorem cutNow_memQ {d : Die} (h : (t.die d).memQ = []) : ((cutNow s t unlocked).die d).memQ = [] := by
  have hg (l : List MemReq) : (l.map MemReq.ungranted).map MemReq.ungranted = l.map MemReq.ungranted := List.map_map
  have hq := cutNow_die hc hm s unlocked d (fun x => x.memQ.map MemReq.ungranted) (fun x => hg x.memQ) fun x => hg x.memQ
  exact List.map_eq_nil_iff.mp (hq.trans (congrArg (List.map MemReq.ungranted) h))

end

/-- The lap that opens, without the marks that a fault found at the cut leaves. -/
def Laps.settled (l : Laps) : Laps := { l with lapFault := false, progFault := false, admitPending := false }

/-- The module `u` once the lap that `t` stands for has opened. -/
structure Opens (t u : State) : Prop where
  laps : u.laps.settled = (freshLap t).laps.settled
  run : u.run.run = t.run.run
  tdc : u.run.tdc = t.run.tdc
  strictActive : u.run.strictActive = t.run.strictActive
  recordsActive : u.run.recordsActive = t.run.recordsActive
  admission : u.run.admission = none
  recovering : u.faults.recovering = t.faults.recovering
  recCount : u.faults.recCount = t.faults.recCount
  data : u.fabric.data = t.fabric.data
  sends : u.fabric.sends = t.fabric.sends
  signals : u.fabric.signals = t.fabric.signals
  egress : u.net.egress = t.net.egress
  ingress : u.net.ingress = t.net.ingress
  cores : ∀ d, (u.die d).cores = (t.die d).cores.map lapCore
  seq : ∀ d, (u.die d).seq = lapSeq (t.die d).seq
  dieState : ∀ d, (u.die d).regs.state = (t.die d).regs.state
  memQ : ∀ d, (t.die d).memQ = [] → (u.die d).memQ = []

theorem cutNow_opens {t : State} (hc : t.net.cmds = []) (hm : t.net.mgmt = []) (s : State) (unlocked : Bool) :
    Opens t (cutNow s t unlocked) where
  laps := cutNow_get hc hm s unlocked fun u => u.laps.settled
  run := cutNow_get hc hm s unlocked fun u => u.run.run
  tdc := cutNow_get hc hm s unlocked fun u => u.run.tdc
  strictActive := cutNow_get hc hm s unlocked fun u => u.run.strictActive
  recordsActive := cutNow_get hc hm s unlocked fun u => u.run.recordsActive
  admission := cutNow_admission hc hm s unlocked
  recovering := cutNow_get hc hm s unlocked fun u => u.faults.recovering
  recCount := cutNow_get hc hm s unlocked fun u => u.faults.recCount
  data := cutNow_get hc hm s unlocked fun u => u.fabric.data
  sends := cutNow_get hc hm s unlocked fun u => u.fabric.sends
  signals := cutNow_get hc hm s unlocked fun u => u.fabric.signals
  egress := cutNow_get hc hm s unlocked fun u => u.net.egress
  ingress := cutNow_get hc hm s unlocked fun u => u.net.ingress
  cores d := cutNow_die hc hm s unlocked d fun x => x.cores
  seq d := cutNow_die hc hm s unlocked d fun x => x.seq
  dieState d := cutNow_die hc hm s unlocked d fun x => x.regs.state
  memQ _ := cutNow_memQ hc hm s unlocked

/-! ### LAP_CUT and the lap that it opens -/

/-- What a lap keeps of the lap before it until its counters start (R20). -/
def Laps.frame (l : Laps) : Laps :=
  { l with state := 0, runLap := 0, abortCount := 0, committed := false, lapFault := false, progFault := false }

/-- The module `t` stands for the lap that follows the lap of `s`, with no command and no management frame bound to it. -/
structure Follows (s t : State) : Prop where
  frame : t.laps.frame = s.noted.laps.frame
  cmds : t.net.cmds = []
  mgmt : t.net.mgmt = []

/-- LAP_CUT opens a lap of a state, a length and a run lap. -/
def CutOpens (s : State) (ns : Nat) (t : State) (st : BitVec 2) (len lap : Nat) : Prop :=
  exec (.lapCut ns) s = .next t ∧ t.laps.state = st ∧ t.laps.len = len ∧ t.laps.runLap = lap ∧ t.laps.cyc = 0 ∧
    t.laps.moduleLap = s.laps.moduleLap + 1 ∧ t.laps.padCycles = s.laps.cyc - s.laps.len ∧
    t.laps.lastAborted = s.laps.lapFault ∧ t.laps.closed = false ∧ t.laps.verdict = none ∧ t.laps.now = s.laps.now ∧
    t.run.admission = none

theorem Opens.lap {t u : State} (h : Opens t u) {α : Type} (part : Laps → α)
    (hp : ∀ l : Laps, part l.settled = part l := by intros; rfl) : part u.laps = part (freshLap t).laps :=
  (hp _).symm.trans ((congrArg part h.laps).trans (hp _))

theorem Opens.cutOpens {s t u : State} {ns : Nat} (o : Opens t u) (f : Follows s t) (he : exec (.lapCut ns) s = .next u)
    {st : BitVec 2} {len lap : Nat} (hst : t.laps.state = st) (hlen : 2 ^ openK t = len) (hlap : t.laps.runLap = lap) :
    CutOpens s ns u st len lap := by
  have hk {α : Type} (part : Laps → α) (hp : ∀ l : Laps, part l.frame = part l) : part t.laps = part s.noted.laps :=
    (hp _).symm.trans ((congrArg part f.frame).trans (hp _))
  have hcyc : t.laps.cyc = s.laps.cyc := hk Laps.cyc fun _ => rfl
  have hl : t.laps.len = s.laps.len := hk Laps.len fun _ => rfl
  refine ⟨he, (o.lap Laps.state).trans hst, (o.lap Laps.len).trans hlen, (o.lap Laps.runLap).trans hlap, o.lap Laps.cyc,
    (o.lap Laps.moduleLap).trans (congrArg (· + 1) (hk Laps.moduleLap fun _ => rfl)), ?_,
    (o.lap Laps.lastAborted).trans (hk Laps.lastAborted fun _ => rfl), o.lap Laps.closed, o.lap Laps.verdict,
    (o.lap Laps.now).trans (hk Laps.now fun _ => rfl), o.admission⟩
  exact (o.lap Laps.padCycles).trans (congrArg₂ (· - ·) hcyc hl)

theorem len_of_recovery {t : State} (h : t.laps.state = 3) : 2 ^ openK t = 4096 := by
  unfold openK
  rw [h]
  rfl

theorem len_of_idle {t : State} (h : t.laps.state = 0) : 2 ^ openK t = 4096 := by
  unfold openK
  rw [h]
  rfl

theorem openK_of_run {t : State} {p : Program} (h : t.laps.state = 1) (hp : t.run.program = some p) : openK t = p.k := by
  unfold openK
  rw [h, hp]
  rfl

/-- The cut, where no grid holds it back. -/
theorem lapCut_eq {s g t : State} {ns : Nat} (hon : portOn s = true) (hend : s.laps.len ≤ s.laps.cyc) (hg : stageIngress s = g)
    (ht : nextLap (commitLap g) = t) (hgo : gridAsked g t = false ∨ g.net.ptpLocked = false ∨
      g.laps.gridTarget.getD (gridPoint g ns) ≤ ns) :
    exec (.lapCut ns) s = .next (cutNow g t (gridAsked g t && !g.net.ptpLocked)) := by
  subst ht hg
  change execLapCut ns s = _
  unfold execLapCut
  rw [if_pos (by simp [hon, hend])]
  extract_lets g t asked target
  refine if_neg ?_
  simp only [Bool.and_eq_true, decide_eq_true_eq, not_and, Nat.not_lt]
  intro ⟨ha, hl⟩
  rcases hgo with h | h | h
  · exact absurd (ha.symm.trans h) (by decide)
  · exact absurd (hl.symm.trans h) (by decide)
  · exact h

/-! ### After an aborted lap (R367, R368) -/

theorem degraded_masked {hub : State → State} {dieMask : DieSt → DieSt}
    (hl : ∀ s : State, linkLoss (s.masked hub dieMask) = linkLoss s := by intros; rfl)
    (hc : ∀ s : State, clockLoss (s.masked hub dieMask) = clockLoss s := by intros; rfl)
    (hx : ∀ x : DieSt, (dieMask x).map.exhausted = x.map.exhausted := by intros; rfl)
    (hn : ∀ x : DieSt, (dieMask x).near.degraded = x.near.degraded := by intros; rfl)
    (hf : ∀ x : DieSt, (dieMask x).far.degraded = x.far.degraded := by intros; rfl) (s : State) :
    degraded (s.masked hub dieMask) = degraded s := by
  have h1 (d : Die) : dieExhausted (s.masked hub dieMask) d = dieExhausted s d := by
    unfold dieExhausted
    rw [State.masked_die, hx]
  have h2 (d : Die) : dieTierBad (s.masked hub dieMask) d = dieTierBad s d := by
    unfold dieTierBad
    rw [State.masked_die, hn, hf]
  simp only [degraded, sparingExhausted, tierDegraded, funext h1, funext h2, hl, hc]

theorem recOutcome_abortMask (s : State) : recOutcome (s.masked State.abortHub DieSt.aborting) = recOutcome s := by
  unfold recOutcome
  rw [degraded_masked]
  rfl

theorem setDie_memQ (s : State) {d : Die} {x : DieSt} (h : x.memQ = (s.die d).memQ) (e : Die) :
    ((s.setDie d x).die e).memQ = (s.die e).memQ := by
  rw [State.setDie_die]
  split
  · next he => rw [he, h]
  · rfl

/-- A part of the module that no reload of pages changes. -/
theorem openRecovery_get {α : Type} (s : State) (part : State → α)
    (hq : ∀ (u : State) d q, part (u.setSeq d q) = part u := by intros; rfl)
    (hd : ∀ (u : State) d n v, part (u.setDie d { u.die d with due := n, regs := { (u.die d).regs with state := v } }) = part u := by
      intros; rfl) : part (openRecovery s) = part (beginRecovery s) := by
  unfold openRecovery
  generalize beginRecovery s = t
  extract_lets t
  split
  · exact forDies_leaves part (fun u d => (hd _ d _ _).trans (hq u d _)) t
  · rfl

theorem openRecovery_memQ (s : State) (e : Die) : ((openRecovery s).die e).memQ = (s.die e).memQ :=
  openRecovery_get s (fun u => (u.die e).memQ) (fun u _ _ => setDie_memQ u (by rfl) e) fun u _ _ _ => setDie_memQ u (by rfl) e

section
variable {g : State} (hc : g.laps.committed = false) (hf : g.laps.lapFault = true)
include hc hf

/-- What the first recovery lap takes from the lap that was aborted. -/
theorem nextLap_aborted_get {α : Type} (part : State → α)
    (hq : ∀ (u : State) d q, part (u.setSeq d q) = part u := by intros; rfl)
    (hd : ∀ (u : State) d n v, part (u.setDie d { u.die d with due := n, regs := { (u.die d).regs with state := v } }) = part u := by
      intros; rfl)
    (hm : ∀ u : State, part (beginRecovery (u.masked State.abortHub DieSt.aborting)) = part (beginRecovery u) := by intros; rfl) :
    part (nextLap (commitLap g)) = part (beginRecovery g.noted.dropped.over) := by
  obtain ⟨h, -⟩ := commitLap_aborting hc hf
  have hfault : (commitLap g).laps.lapFault = true := (h.get fun u => u.laps.lapFault).trans hf
  unfold nextLap
  rw [if_pos hfault, openRecovery_get _ part hq hd]
  exact h.get (fun u => part (beginRecovery u)) hm

theorem nextLap_aborted_memQ (d : Die) : ((nextLap (commitLap g)).die d).memQ = [] := by
  obtain ⟨h, hq⟩ := commitLap_aborting hc hf
  have hfault : (commitLap g).laps.lapFault = true := (h.get fun u => u.laps.lapFault).trans hf
  unfold nextLap
  rw [if_pos hfault, openRecovery_memQ]
  exact hq d

end

/-! ### Staging before the cut (R412) -/

theorem Written.stageWrite {s t : State} (h : Written s t) (a : Nat) (bs : List Byte) : Written s (stageWrite t a bs) :=
  .ite (h.raiseHub _) (.ite (h.raiseHub _) (h.devWrite ..))

theorem stageOne_written (r : RunCfg) (y : State × List Nat × List Nat) (x : Ingress) : Written y.1 (stageOne r y x).1 := by
  unfold stageOne
  split
  · exact .refl y.1
  · split
    · exact .refl y.1
    · exact Written.stageWrite (Written.stageWrite (.refl y.1) ..) ..

theorem stageIngress_written (s : State) : Written s (stageIngress s) := by
  unfold stageIngress
  split
  · exact .refl s
  · next r _ =>
    exact List.foldlRecOn (motive := fun y : State × List Nat × List Nat => Written s y.1) _ (stageOne r) (.refl s)
      fun y hy x _ => hy.trans (stageOne_written r y x)

/-- Outside a run nothing is staged. -/
theorem stageIngress_closed {s : State} (h : runLapOpen s = false) : stageIngress s = s := by
  unfold stageIngress
  rw [h]
  rfl

theorem noted_frame {s g : State} (w : Written s g) (h : g.laps.lapFault = s.laps.lapFault) :
    g.noted.laps.frame = s.noted.laps.frame := by
  have hw := w.get fun u => ({ u.laps with lastAborted := s.laps.lapFault } : Laps).frame
  unfold State.noted
  rw [h]
  exact hw

theorem gridAsked_closed (g : State) {t : State} (h : runLapOpen t = false) : gridAsked g t = false := by
  unfold gridAsked
  rw [h]
  rfl

theorem runLapOpen_recovery {s : State} (h : s.laps.state = 3) : runLapOpen s = false := by simp [runLapOpen, runActive, h]
theorem runLapOpen_idle {s : State} (h : s.laps.state = 0) : runLapOpen s = false := by simp [runLapOpen, runActive, h]

/-! ### A cut after a lap with a fault -/

section
variable {s : State} (ns : Nat) (hon : portOn s = true) (hend : s.laps.len ≤ s.laps.cyc) (hc : s.laps.committed = false)
  (hcmds : s.net.cmds = []) (hmgmt : s.net.mgmt = []) (hf : (stageIngress s).laps.lapFault = true)
include hon hend hc hcmds hmgmt hf

/-- The recovery lap opens, whatever the grid. -/
theorem lapCut_aborts : ∃ t, exec (.lapCut ns) s = .next t ∧ Opens (nextLap (commitLap (stageIngress s))) t ∧
    Follows (stageIngress s) (nextLap (commitLap (stageIngress s))) ∧
    (nextLap (commitLap (stageIngress s))).laps.state = 3 := by
  have w := stageIngress_written s
  generalize hg : stageIngress s = g at w hf ⊢
  have hcg : g.laps.committed = false := (w.get fun u => u.laps.committed).trans hc
  have hst : (nextLap (commitLap g)).laps.state = 3 := nextLap_aborted_get hcg hf fun u => u.laps.state
  have hcm : (nextLap (commitLap g)).net.cmds = [] :=
    (nextLap_aborted_get hcg hf fun u => u.net.cmds).trans ((w.get fun u => u.net.cmds).trans hcmds)
  have hmg : (nextLap (commitLap g)).net.mgmt = [] :=
    (nextLap_aborted_get hcg hf fun u => u.net.mgmt).trans ((w.get fun u => u.net.mgmt).trans hmgmt)
  exact ⟨_, lapCut_eq hon hend hg rfl (.inl (gridAsked_closed g (runLapOpen_recovery hst))), cutNow_opens hcm hmg g _,
    ⟨nextLap_aborted_get hcg hf fun u => u.laps.frame, hcm, hmg⟩, hst⟩

/-- A fault that staging finds aborts the lap that ends (R412). -/
theorem lapCut_staging_fault : ∃ t, exec (.lapCut ns) s = .next t ∧ t.laps.state = 3 ∧ t.laps.lastAborted = true ∧
    t.laps.abortCount = satAdd32 s.laps.abortCount 1 := by
  obtain ⟨t, he, o, f, hst⟩ := lapCut_aborts ns hon hend hc hcmds hmgmt hf
  have w := stageIngress_written s
  generalize stageIngress s = g at w hf o f hst
  have hcg : g.laps.committed = false := (w.get fun u => u.laps.committed).trans hc
  have ha : (nextLap (commitLap g)).laps.abortCount = satAdd32 g.laps.abortCount 1 :=
    nextLap_aborted_get hcg hf fun u => u.laps.abortCount
  have hl : (nextLap (commitLap g)).laps.lastAborted = g.laps.lapFault := nextLap_aborted_get hcg hf fun u => u.laps.lastAborted
  refine ⟨t, he, (o.lap Laps.state).trans hst, (o.lap Laps.lastAborted).trans (hl.trans hf), (o.lap Laps.abortCount).trans (ha.trans ?_)⟩
  exact congrArg (satAdd32 · 1) (w.get fun u => u.laps.abortCount)

end

/-- After a lap with a fault a recovery lap opens, and nothing is left of what the lap had in flight. -/
theorem lapCut_recovery {s : State} (ns : Nat) (hon : portOn s = true) (hend : s.laps.len ≤ s.laps.cyc)
    (hc : s.laps.committed = false) (hcmds : s.net.cmds = []) (hmgmt : s.net.mgmt = []) (hfs : s.laps.lapFault = true) :
    ∃ t, CutOpens s ns t 3 4096 s.laps.runLap ∧ t.run.run = s.run.run ∧
      t.laps.abortCount = satAdd32 s.laps.abortCount 1 ∧ t.faults.recovering = true ∧
      t.faults.recCount = (if s.laps.state = 3 ∨ (s.run.run ≠ none ∧ recOutcome (stageIngress s) ≠ none) then s.faults.recCount
        else satAdd32 s.faults.recCount 1) ∧
      (∀ d, (t.die d).memQ = []) ∧ t.fabric.data = [] ∧ t.fabric.sends = [] ∧ t.fabric.signals = [] ∧
      t.net.egress = [] ∧ t.net.ingress = s.net.ingress := by
  have w := stageIngress_written s
  have hf : (stageIngress s).laps.lapFault = true := w.fault hfs
  obtain ⟨t, he, o, f, hst⟩ := lapCut_aborts ns hon hend hc hcmds hmgmt hf
  generalize stageIngress s = g at w hf o f hst ⊢
  have hcg : g.laps.committed = false := (w.get fun u => u.laps.committed).trans hc
  have fs : Follows s (nextLap (commitLap g)) := ⟨f.frame.trans (noted_frame w (hf.trans hfs.symm)), f.cmds, f.mgmt⟩
  have hlap : (nextLap (commitLap g)).laps.runLap = g.laps.runLap := nextLap_aborted_get hcg hf fun u => u.laps.runLap
  have hrun : (nextLap (commitLap g)).run.run = g.run.run := nextLap_aborted_get hcg hf fun u => u.run.run
  have habort : (nextLap (commitLap g)).laps.abortCount = satAdd32 g.laps.abortCount 1 :=
    nextLap_aborted_get hcg hf fun u => u.laps.abortCount
  have hrec : (nextLap (commitLap g)).faults.recCount =
      if (g.laps.state == 3 || g.run.run.isSome && (recOutcome g).isSome) then g.faults.recCount else satAdd32 g.faults.recCount 1 :=
    nextLap_aborted_get hcg hf (fun u => u.faults.recCount) (hm := fun u => by
      unfold beginRecovery
      rw [recOutcome_abortMask]
      rfl)
  have hdata : (nextLap (commitLap g)).fabric.data = [] := nextLap_aborted_get hcg hf fun u => u.fabric.data
  have hsends : (nextLap (commitLap g)).fabric.sends = [] := nextLap_aborted_get hcg hf fun u => u.fabric.sends
  have hsignals : (nextLap (commitLap g)).fabric.signals = [] := nextLap_aborted_get hcg hf fun u => u.fabric.signals
  have hegress : (nextLap (commitLap g)).net.egress = [] := nextLap_aborted_get hcg hf fun u => u.net.egress
  have hingress : (nextLap (commitLap g)).net.ingress = g.net.ingress := nextLap_aborted_get hcg hf fun u => u.net.ingress
  refine ⟨t, o.cutOpens fs he hst (len_of_recovery hst) (hlap.trans (w.get fun u => u.laps.runLap)),
    o.run.trans (hrun.trans (w.get fun u => u.run.run)), (o.lap Laps.abortCount).trans (habort.trans ?_),
    o.recovering.trans (nextLap_aborted_get hcg hf fun u => u.faults.recovering), o.recCount.trans (hrec.trans ?_),
    fun d => o.memQ d (nextLap_aborted_memQ hcg hf d), o.data.trans hdata, o.sends.trans hsends, o.signals.trans hsignals,
    o.egress.trans hegress, o.ingress.trans (hingress.trans (w.get fun u => u.net.ingress))⟩
  · exact congrArg (satAdd32 · 1) (w.get fun u => u.laps.abortCount)
  · have hs : g.laps.state = s.laps.state := w.get fun u => u.laps.state
    have hr : g.run.run = s.run.run := w.get fun u => u.run.run
    have hn : g.faults.recCount = s.faults.recCount := w.get fun u => u.faults.recCount
    simp only [hs, hr, hn, Bool.or_eq_true, beq_iff_eq, Bool.and_eq_true, Option.isSome_iff_ne_none]

/-! ### A cut outside a run -/

/-- An idle lap follows an idle lap that passed. -/
theorem lapCut_idle {s : State} (ns : Nat) (hon : portOn s = true) (hend : s.laps.len ≤ s.laps.cyc)
    (hc : s.laps.committed = false) (hcmds : s.net.cmds = []) (hmgmt : s.net.mgmt = []) (hf : s.laps.lapFault = false)
    (hst : s.laps.state = 0) (ha : ∀ a, s.run.admission = some a → a.code ≠ 0) :
    ∃ t, CutOpens s ns t 0 4096 s.laps.runLap ∧ t.run.run = s.run.run ∧ t.laps.abortCount = s.laps.abortCount := by
  have h := commitLap_passed hc hf
  generalize hu : commitLap s = u at h
  have hsu : u.laps.state = 0 := (h.get fun u => u.laps.state).trans hst
  have hn : nextLap (commitLap s) = u := by
    have had : u.run.admission = s.run.admission := h.get fun u => u.run.admission
    have hfu : u.laps.lapFault = false := (h.get fun u => u.laps.lapFault).trans hf
    unfold nextLap
    rw [hu, hfu, hsu, had]
    cases hs : s.run.admission with
    | none => rfl
    | some a =>
      dsimp only
      rw [if_neg (ha a hs)]
      rfl
  have f : Follows s u := ⟨h.get fun u => u.laps.frame, (h.get fun u => u.net.cmds).trans hcmds,
    (h.get fun u => u.net.mgmt).trans hmgmt⟩
  have he := lapCut_eq (ns := ns) hon hend (stageIngress_closed (runLapOpen_idle hst)) hn
    (.inl (gridAsked_closed s (runLapOpen_idle hsu)))
  have o := cutNow_opens f.cmds f.mgmt s (gridAsked s u && !s.net.ptpLocked)
  exact ⟨_, o.cutOpens f he hsu (len_of_idle hsu) (h.get fun u => u.laps.runLap), o.run.trans (h.get fun u => u.run.run),
    (o.lap Laps.abortCount).trans (h.get fun u => u.laps.abortCount)⟩

/-! ### A cut between two laps of a run (R33, R383) -/

/-- The module without what a split changes. -/
def State.unsplit (s : State) : State := { s.outline with split := Splits.init }

theorem unsplit_outline (s : State) : s.outline.unsplit = s.unsplit := by
  have hd : (s.dies.map DieSt.outline).map DieSt.outline = s.dies.map DieSt.outline := Vector.map_map
  simp only [State.unsplit, State.outline, State.calm, hd]

/-- From `s` to `t` at most a split was taken. -/
abbrev SplitTaken (s t : State) : Prop := Leaves State.unsplit s t

theorem Written.splitTaken {s t : State} (h : Written s t) : SplitTaken s t := h.hide unsplit_outline

theorem unsplit_die (s : State) (d : Die) : s.unsplit.die d = (s.die d).outline := State.outline_die s d

theorem takeSplit_splitTaken (s : State) (k : SplitCfg) (r m : Nat) : SplitTaken s (takeSplit s k r m) := by
  unfold takeSplit
  extract_lets j step g n
  have h1 (x : Splits) : SplitTaken s { s with split := x } := ⟨rfl, id⟩
  exact (h1 _).trans (Written.devWrite (Written.devWrite (.refl _) ..) ..).splitTaken

theorem splitAtCut_splitTaken (s : State) (r m : Nat) : SplitTaken s (splitAtCut s r m) := by
  have h1 (x : Splits) : SplitTaken s { s with split := x } := ⟨rfl, id⟩
  unfold splitAtCut
  split
  · refine .ite (.ite (.ite ((h1 _).trans (takeSplit_splitTaken ..)) ?_) (h1 _)) (.refl s)
    exact ⟨rfl, id⟩
  · exact .refl s

theorem allFinal_false {s : State} : allFinal s = false ↔ ∃ d, ((s.die d).seq.ended && (s.die d).seq.final) = false := by
  simp only [allFinal, List.all_eq_false, List.mem_finRange, true_and, Bool.not_eq_true]

theorem runEnds_of_not_final {s : State} (h : allFinal s = false) : runEnds s = false := by simp [runEnds, h]

/-- A run of which no recovery step counts any more (R393). -/
def State.unstepped (s : State) : State := { s with faults := { s.faults with recSteps := 0 } }

/-- The run goes on with its next lap. -/
theorem afterRunLap_goes_on {s : State} (hfinal : allFinal s = false) (hstop : stopDue s = false) :
    ∃ t, SplitTaken s.unstepped t ∧ afterRunLap s = { t with laps := { t.laps with runLap := s.laps.runLap + 1, state := 1 } } := by
  have h1 := splitAtCut_splitTaken s.unstepped (s.laps.runLap + 1) (s.laps.moduleLap + 1)
  have hf1 : allFinal (splitAtCut s.unstepped (s.laps.runLap + 1) (s.laps.moduleLap + 1)) = false := by
    obtain ⟨d, hd⟩ := allFinal_false.mp hfinal
    refine allFinal_false.mpr ⟨d, Eq.trans ?_ hd⟩
    exact h1.get (fun u => (u.die d).seq.ended && (u.die d).seq.final) fun u => by rw [unsplit_die]; rfl
  have he : afterRunLap s = (fun t : State =>
      { t with laps := { t.laps with runLap := s.laps.runLap + 1, state := if allFinal t then 2 else 1 } })
        (splitAtCut s.unstepped (s.laps.runLap + 1) (s.laps.moduleLap + 1)) := by
    have hends : runEnds s.unstepped = false := runEnds_of_not_final hfinal
    have hstop0 : stopDue s.unstepped = false := hstop
    exact (if_neg (hends ▸ Bool.false_ne_true)).trans (if_neg (hstop0 ▸ Bool.false_ne_true))
  refine ⟨_, h1, he.trans ?_⟩
  dsimp only
  rw [hf1]
  rfl

theorem nextLap_of_run {s : State} (hf : s.laps.lapFault = false) (hst : s.laps.state = 1 ∨ s.laps.state = 2)
    (hr : s.run.run.isSome = true) : nextLap s = afterRunLap s := by
  unfold nextLap
  rw [hf, hr]
  rcases hst with hst | hst <;> rw [hst] <;> rfl

/-- What the next lap of a run takes from the lap that passed. -/
structure GoesOn (s t : State) : Prop where
  frame : t.laps.frame = s.noted.laps.frame
  state : t.laps.state = 1
  runLap : t.laps.runLap = s.laps.runLap + 1
  abortCount : t.laps.abortCount = s.laps.abortCount
  run : t.run.run = s.run.run
  program : t.run.program = s.run.program
  tdc : t.run.tdc = s.run.tdc + s.run.tdcNow
  cmds : t.net.cmds = s.net.cmds
  mgmt : t.net.mgmt = s.net.mgmt
  seq : ∀ d, (t.die d).seq = (s.die d).seq

theorem nextLap_goes_on {s : State} (hc : s.laps.committed = false) (hf : s.laps.lapFault = false)
    (hst : s.laps.state = 1 ∨ s.laps.state = 2) (hr : s.run.run.isSome = true) (hstop : stopDue s = false)
    (hfinal : allFinal s = false) : GoesOn s (nextLap (commitLap s)) := by
  have h := commitLap_passed hc hf
  generalize commitLap s = u at h
  have hfu : allFinal u = false := by
    obtain ⟨d, hd⟩ := allFinal_false.mp hfinal
    exact allFinal_false.mpr ⟨d, (h.die d fun x => x.seq.ended && x.seq.final).trans hd⟩
  have hn : nextLap u = afterRunLap u := by
    refine nextLap_of_run ((h.get fun v => v.laps.lapFault).trans hf) ?_ ((h.get fun v => v.run.run.isSome).trans hr)
    rw [h.get fun v => v.laps.state]
    exact hst
  obtain ⟨t, ht, he⟩ := afterRunLap_goes_on hfu ((h.get stopDue).trans hstop)
  rw [hn, he]
  exact {
    frame := (ht.get fun v => v.laps.frame).trans (h.get fun v => v.laps.frame)
    state := rfl
    runLap := congrArg (· + 1) (h.get fun v => v.laps.runLap)
    abortCount := (ht.get fun v => v.laps.abortCount).trans (h.get fun v => v.laps.abortCount)
    run := (ht.get fun v => v.run.run).trans (h.get fun v => v.run.run)
    program := (ht.get fun v => v.run.program).trans (h.get fun v => v.run.program)
    tdc := (ht.get fun v => v.run.tdc).trans (h.get fun v => v.run.tdc)
    cmds := (ht.get fun v => v.net.cmds).trans (h.get fun v => v.net.cmds)
    mgmt := (ht.get fun v => v.net.mgmt).trans (h.get fun v => v.net.mgmt)
    seq := fun d => (ht.get (fun v => (v.die d).seq) fun v => by rw [unsplit_die]; rfl).trans (h.die d DieSt.seq) }

theorem gridAsked_of_run {g t : State} {r : RunCfg} (hr : t.run.run = some r) (hg : runLapOpen g = true) (hm : cutMode r g ≠ 2) :
    gridAsked g t = false := by
  unfold gridAsked
  rw [hr, hg]
  cases runLapOpen t <;> simp [hm]

/-- A run goes on where its sequencers stand (R33, R258). -/
theorem lapCut_run {s : State} (ns : Nat) (hon : portOn s = true) (hend : s.laps.len ≤ s.laps.cyc)
    (hc : s.laps.committed = false) (hcmds : s.net.cmds = []) (hmgmt : s.net.mgmt = [])
    (hg : (stageIngress s).laps.lapFault = false) (hf : s.laps.lapFault = false) (hst : s.laps.state = 1 ∨ s.laps.state = 2)
    (hclosing : s.mladar.closingLap = false) (hstop : stopDue s = false) {r : RunCfg} {p : Program} (hr : s.run.run = some r)
    (hp : s.run.program = some p) (hm : cutMode r s ≠ 2) (hfinal : ∃ d, ((s.die d).seq.ended && (s.die d).seq.final) = false) :
    ∃ t, CutOpens s ns t 1 (2 ^ p.k) (s.laps.runLap + 1) ∧ t.run.run = some r ∧ t.run.tdc = s.run.tdc + s.run.tdcNow ∧
      t.laps.abortCount = s.laps.abortCount ∧ ∀ d, (t.die d).seq = lapSeq (s.die d).seq := by
  have w := stageIngress_written s
  generalize hge : stageIngress s = g at w hg
  have hrg : g.run.run = some r := (w.get fun u => u.run.run).trans hr
  have hstg : g.laps.state = 1 ∨ g.laps.state = 2 := by
    rw [w.get fun u => u.laps.state]
    exact hst
  have hopen : runLapOpen g = true := by
    have hcl : g.mladar.closingLap = false := (w.get fun u => u.mladar.closingLap).trans hclosing
    unfold runLapOpen runActive
    rw [hrg, hcl]
    rcases hstg with h | h <;> rw [h] <;> rfl
  have hfg : allFinal g = false := by
    obtain ⟨d, hd⟩ := hfinal
    exact allFinal_false.mpr ⟨d, (w.die d fun x => x.seq.ended && x.seq.final).trans hd⟩
  have hn := nextLap_goes_on ((w.get fun u => u.laps.committed).trans hc) hg hstg (by rw [hrg]; rfl) ((w.get stopDue).trans hstop) hfg
  generalize ht : nextLap (commitLap g) = t at hn
  have f : Follows s t := ⟨hn.frame.trans (noted_frame w (hg.trans hf.symm)), hn.cmds.trans ((w.get fun u => u.net.cmds).trans hcmds),
    hn.mgmt.trans ((w.get fun u => u.net.mgmt).trans hmgmt)⟩
  have he := lapCut_eq (ns := ns) hon hend hge ht (.inl (gridAsked_of_run (hn.run.trans hrg) hopen
    fun h => hm ((w.get (cutMode r)).symm.trans h)))
  have o := cutNow_opens f.cmds f.mgmt g (gridAsked g t && !g.net.ptpLocked)
  have hk : openK t = p.k := openK_of_run hn.state (hn.program.trans ((w.get fun u => u.run.program).trans hp))
  refine ⟨_, o.cutOpens f he hn.state (by rw [hk]) (hn.runLap.trans (congrArg (· + 1) (w.get fun u => u.laps.runLap))),
    o.run.trans (hn.run.trans hrg), o.tdc.trans (hn.tdc.trans (w.get fun u => u.run.tdc + u.run.tdcNow)),
    (o.lap Laps.abortCount).trans (hn.abortCount.trans (w.get fun u => u.laps.abortCount)), fun d => (o.seq d).trans ?_⟩
  rw [hn.seq d, w.die d DieSt.seq]

/-! ### A cut after a recovery lap (R391, R394) -/

theorem recOutcome_passMask (s : State) : recOutcome (s.masked State.passHub DieSt.unregistered) = recOutcome s := by
  unfold recOutcome
  rw [degraded_masked]
  rfl

theorem nextLap_of_recovery {s : State} (hf : s.laps.lapFault = false) (hst : s.laps.state = 3) : nextLap s = afterRecovery s := by
  unfold nextLap
  rw [hf, hst]
  rfl

/-- A recovered run resumes. -/
theorem afterRecovery_resumes {s : State} (hr : s.faults.recOfRun = true) (hd : s.faults.recDone = true) (ho : recOutcome s = none)
    (hstop : stopDue s = false) (ha : autoResume s = true) :
    afterRecovery s = resumeRun { s with split := { s.split with resumeReq := false } } := by
  unfold afterRecovery
  rw [hr, ho, hstop, hd, ha]
  rfl

/-- A recovered run waits for RESUME. -/
theorem afterRecovery_waits {s : State} (hr : s.faults.recOfRun = true) (hd : s.faults.recDone = true) (ho : recOutcome s = none)
    (hstop : stopDue s = false) (ha : autoResume s = false) (hq : s.split.resumeReq = false) (hb : resumeBound s = false) :
    afterRecovery s = s := by
  unfold afterRecovery
  rw [hr, ho, hstop, hd, ha, hq, hb]
  rfl

theorem gridAsked_of_mode {g t : State} {r : RunCfg} (hr : t.run.run = some r) (hm : cutMode r g = 0) : gridAsked g t = false := by
  unfold gridAsked
  rw [hr]
  cases runLapOpen t <;> simp [hm]

section
variable {s : State} (ns : Nat) (hon : portOn s = true) (hend : s.laps.len ≤ s.laps.cyc) (hc : s.laps.committed = false)
  (hcmds : s.net.cmds = []) (hmgmt : s.net.mgmt = []) (hf : s.laps.lapFault = false) (hst : s.laps.state = 3)
  (hrec : s.faults.recOfRun = true) (hdone : s.faults.recDone = true) (hout : recOutcome s = none) (hstop : stopDue s = false)
  {r : RunCfg} (hr : s.run.run = some r)
include hon hend hc hcmds hmgmt hf hst hrec hdone hout hstop hr

theorem lapCut_resumes {p : Program} (hp : s.run.program = some p) (ha : autoResume s = true) (hm : cutMode r s = 0)
    (hfinal : ∃ d, ((s.die d).seq.ended && (s.die d).seq.final) = false) :
    ∃ t, CutOpens s ns t 1 (2 ^ p.k) s.split.lap ∧ t.run.run = some r ∧ t.faults.recovering = false := by
  have h := commitLap_passed hc hf
  generalize hu : commitLap s = u at h
  have hru : u.run.run = some r := (h.get fun v => v.run.run).trans hr
  have hfu : allFinal (recoveryOver { u with split := { u.split with resumeReq := false } }) = false := by
    obtain ⟨d, hd⟩ := hfinal
    exact allFinal_false.mpr ⟨d, (h.die d fun x => x.seq.ended && x.seq.final).trans hd⟩
  have hn : nextLap (commitLap s) = resumeRun { u with split := { u.split with resumeReq := false } } := by
    rw [hu, nextLap_of_recovery ((h.get fun v => v.laps.lapFault).trans hf) ((h.get fun v => v.laps.state).trans hst)]
    exact afterRecovery_resumes ((h.get fun v => v.faults.recOfRun).trans hrec) ((h.get fun v => v.faults.recDone).trans hdone)
      ((h.get recOutcome recOutcome_passMask).trans hout) ((h.get stopDue).trans hstop) ((h.get autoResume).trans ha)
  have hst1 : (resumeRun { u with split := { u.split with resumeReq := false } }).laps.state = 1 :=
    (congrArg (fun b => if b = true then (2 : BitVec 2) else 1) hfu).trans rfl
  generalize ht : resumeRun { u with split := { u.split with resumeReq := false } } = t at hn hst1
  have f : Follows s t := ht ▸ ⟨h.get fun v => v.laps.frame, (h.get fun v => v.net.cmds).trans hcmds,
    (h.get fun v => v.net.mgmt).trans hmgmt⟩
  have hrt : t.run.run = some r := ht ▸ hru
  have hk : openK t = p.k := openK_of_run hst1 (ht ▸ (h.get fun v => v.run.program).trans hp)
  have hlap : t.laps.runLap = s.split.lap := ht ▸ h.get fun v => v.split.lap
  have he := lapCut_eq (ns := ns) hon hend (stageIngress_closed (runLapOpen_recovery hst)) hn (.inl (gridAsked_of_mode hrt hm))
  have o := cutNow_opens f.cmds f.mgmt s (gridAsked s t && !s.net.ptpLocked)
  exact ⟨_, o.cutOpens f he hst1 (by rw [hk]) hlap, o.run.trans hrt, o.recovering.trans (ht ▸ rfl)⟩

theorem lapCut_waits_for_resume (ha : autoResume s = false) (hq : s.split.resumeReq = false) :
    ∃ t, CutOpens s ns t 3 4096 s.laps.runLap ∧ t.run.run = some r ∧ t.faults.recovering = s.faults.recovering := by
  have h := commitLap_passed hc hf
  generalize hu : commitLap s = u at h
  have hstu : u.laps.state = 3 := (h.get fun v => v.laps.state).trans hst
  have hcu : u.net.cmds = [] := (h.get fun v => v.net.cmds).trans hcmds
  have hb : resumeBound u = false := by
    unfold resumeBound
    rw [hcu]
    rfl
  have hn : nextLap (commitLap s) = u := by
    rw [hu, nextLap_of_recovery ((h.get fun v => v.laps.lapFault).trans hf) hstu]
    exact afterRecovery_waits ((h.get fun v => v.faults.recOfRun).trans hrec) ((h.get fun v => v.faults.recDone).trans hdone)
      ((h.get recOutcome recOutcome_passMask).trans hout) ((h.get stopDue).trans hstop) ((h.get autoResume).trans ha)
      ((h.get fun v => v.split.resumeReq).trans hq) hb
  have f : Follows s u := ⟨h.get fun v => v.laps.frame, hcu, (h.get fun v => v.net.mgmt).trans hmgmt⟩
  have he := lapCut_eq (ns := ns) hon hend (stageIngress_closed (runLapOpen_recovery hst)) hn
    (.inl (gridAsked_closed s (runLapOpen_recovery hstu)))
  have o := cutNow_opens f.cmds f.mgmt s (gridAsked s u && !s.net.ptpLocked)
  exact ⟨_, o.cutOpens f he hstu (len_of_recovery hstu) (h.get fun v => v.laps.runLap),
    o.run.trans ((h.get fun v => v.run.run).trans hr), o.recovering.trans (h.get fun v => v.faults.recovering)⟩

end

/-! ### The start of a run (R34, R272, R349) -/

/-- A die's run-start state, given the program, the side of the grid and the time. -/
def DieSt.started (n : Nat) (params : List (List DWord)) (c : Option Program × Nat × Nat) (d : Die) (x : DieSt) : DieSt :=
  { x with
    cores := freshCores x.cores (n * n) (c.2.2 + 1)
    rest := freshCores (if n < c.2.1 then idleCores n c.2.1 x.cores else [])
      (if n < c.2.1 then idleCores n c.2.1 x.cores else []).length (c.2.2 + 1)
    seq := { Seq.init with
      s := Vector.ofFn (fun i : Fin 64 => nth (nth params d.val []) i.val 0)
      pc := match c.1 with | some p => (nth p.streams d.val (0, 0, 0)).2.1 | none => 0
      frames := x.seq.frames }
    regs := { x.regs with state := 3 } }

/-- What of the module a die's run-start state depends on. -/
def startContext (s : State) : Option Program × Nat × Nat := (s.run.program, gridSide s, s.laps.now)

/-- Changing each die by itself, given something of the module that no die is part of. -/
theorem foldl_setDie_context {γ : Type} (context : State → γ) (hcontext : ∀ u d x, context (u.setDie d x) = context u)
    (g : γ → Die → DieSt → DieSt) {c : γ} (l : List Die) (s : State) (hc : context s = c) :
    l.foldl (fun u d => u.setDie d (g (context u) d (u.die d))) s = l.foldl (fun u d => u.setDie d (g c d (u.die d))) s := by
  induction l generalizing s with
  | nil => rfl
  | cons d l ih =>
    rw [List.foldl_cons, List.foldl_cons, hc]
    exact ih _ ((hcontext ..).trans hc)

theorem forDies_startDie_die (n : Nat) (params : List (List DWord)) (s : State) (d : Die) :
    (forDies (startDie n params) s).die d = (s.die d).started n params (startContext s) d := by
  have h : forDies (startDie n params) s =
      forDies (fun u d => u.setDie d ((u.die d).started n params (startContext s) d)) s :=
    foldl_setDie_context startContext (fun _ _ _ => rfl) (fun c d x => x.started n params c d) _ s rfl
  rw [h, forDies_setDie_die fun d x => x.started n params (startContext s) d]

theorem lapCore_freshCores (l : List Core) (n t : Nat) : (freshCores l n t).map lapCore = freshCores l n t := by
  unfold freshCores
  rw [List.map_map]
  rfl

/-- What a run without splits takes of the module at its start. -/
structure Starts (s : State) (a : Admission) (t : State) : Prop where
  frame : t.laps.frame = s.laps.frame
  state : t.laps.state = 1
  runLap : t.laps.runLap = 0
  run : t.run.run = some { a.cfg with startLap := s.laps.moduleLap + 1 }
  program : t.run.program = s.run.program
  strictActive : t.run.strictActive = a.cfg.strict
  recordsActive : t.run.recordsActive = a.cfg.records
  tdc : t.run.tdc = 0
  closingLap : t.mladar.closingLap = false
  cmds : t.net.cmds = s.net.cmds
  mgmt : t.net.mgmt = s.net.mgmt
  die : ∀ d, t.die d = (s.die d).started a.cfg.n a.params (startContext s) d

theorem runStart_starts (s : State) (a : Admission) (ha : a.cfg.split = none) : Starts s a (runStart s a) := by
  have hkeep {α : Type} (part : State → α) (hp : ∀ u d x, part (State.setDie u d x) = part u) :
      part (forDies (startDie a.cfg.n a.params) s) = part s := forDies_leaves part (fun u d => hp u d _) s
  unfold runStart
  extract_lets m c k s1 hdr g1 g2 g3 g4 g5 g6 g7 s2
  have hframe : s1.laps.frame = s.laps.frame := hkeep (fun u => u.laps.frame) fun _ _ _ => rfl
  have hprogram : s1.run.program = s.run.program := hkeep (fun u => u.run.program) fun _ _ _ => rfl
  have hcmds : s1.net.cmds = s.net.cmds := hkeep (fun u => u.net.cmds) fun _ _ _ => rfl
  have hmgmt : s1.net.mgmt = s.net.mgmt := hkeep (fun u => u.net.mgmt) fun _ _ _ => rfl
  have hdie : ∀ d, s1.die d = (s.die d).started a.cfg.n a.params (startContext s) d := forDies_startDie_die a.cfg.n a.params s
  have hsplit : k.split = none := ha
  rw [hsplit]
  change Starts s a s2
  clear_value s1 hdr
  exact {
    frame := hframe
    state := rfl
    runLap := rfl
    run := rfl
    program := hprogram
    strictActive := rfl
    recordsActive := rfl
    tdc := rfl
    closingLap := rfl
    cmds := hcmds
    mgmt := hmgmt
    die := hdie }

theorem nextLap_of_admission {s : State} {a : Admission} (hf : s.laps.lapFault = false) (hst : s.laps.state = 0)
    (ha : s.run.admission = some a) (hcode : a.code = 0) : nextLap s = runStart s a := by
  unfold nextLap
  rw [hf, hst, ha]
  exact if_pos hcode

/-- The cut waits for the grid point. -/
theorem lapCut_waits {s g t : State} {ns : Nat} (hon : portOn s = true) (hend : s.laps.len ≤ s.laps.cyc) (hg : stageIngress s = g)
    (ht : nextLap (commitLap g) = t) (ha : gridAsked g t = true) (hl : g.net.ptpLocked = true)
    (hw : ns < g.laps.gridTarget.getD (gridPoint g ns)) :
    exec (.lapCut ns) s = .next { s with laps := { s.laps with gridTarget := some (g.laps.gridTarget.getD (gridPoint g ns)) } } := by
  subst ht hg
  change execLapCut ns s = _
  unfold execLapCut
  rw [if_pos (by simp [hon, hend])]
  extract_lets g t asked target
  have hasked : asked = true := ha
  have hlock : g.net.ptpLocked = true := hl
  have hns : ns < target := hw
  exact if_pos (by simp [hasked, hlock, hns])

/-- The first grid point after a timestamp is the one that lies less than a period after it (R34). -/
theorem gridPoint_eq {s : State} {ns g : Nat} (h1 : ns < g) (h2 : g < ns + s.laps.gridPeriod.toNat)
    (h3 : g % s.laps.gridPeriod.toNat = s.laps.gridPhase.toNat % s.laps.gridPeriod.toNat) : gridPoint s ns = g := by
  unfold gridPoint
  dsimp only
  rw [← h3]
  generalize s.laps.gridPeriod.toNat = T at h2
  obtain ⟨x, rfl⟩ := Nat.exists_eq_add_of_lt h1
  have hlt : ns % T < T := Nat.mod_lt _ (by omega)
  have hsum : (ns + x + 1) % T = (ns % T + (x + 1)) % T := by rw [Nat.add_assoc, Nat.mod_add_mod]
  suffices h : ((ns + x + 1) % T + T - ns % T) % T = x + 1 by omega
  rw [hsum]
  by_cases hc : ns % T + (x + 1) < T
  · rw [Nat.mod_eq_of_lt hc, show ns % T + (x + 1) + T - ns % T = x + 1 + T by omega, Nat.add_mod_right, Nat.mod_eq_of_lt (by omega)]
  · have hsub : (ns % T + (x + 1)) % T = ns % T + (x + 1) - T := by rw [Nat.mod_eq_sub_mod (by omega), Nat.mod_eq_of_lt (by omega)]
    rw [hsub, show ns % T + (x + 1) - T + T - ns % T = x + 1 by omega, Nat.mod_eq_of_lt (by omega)]

theorem cutMode_lt (r : RunCfg) (s : State) : cutMode r s < 3 := by
  unfold cutMode
  split
  · omega
  · next h =>
    have hne : r.gridMode ≠ 3 := fun h3 => h (by simp [h3])
    have hlt := r.gridMode.isLt
    have : r.gridMode.toNat ≠ 3 := fun h3 => hne (BitVec.eq_of_toNat_eq h3)
    omega

section
variable {s : State} (ns : Nat) (hon : portOn s = true) (hend : s.laps.len ≤ s.laps.cyc) (hc : s.laps.committed = false)
  (hcmds : s.net.cmds = []) (hmgmt : s.net.mgmt = []) (hf : s.laps.lapFault = false) (hst : s.laps.state = 0)
  {a : Admission} (ha : s.run.admission = some a) (hcode : a.code = 0) (hsplit : a.cfg.split = none)
include hc hf hst ha hcode hsplit

/-- The run that an admission lap admitted starts. -/
theorem nextLap_starts : ∃ u, Passed s.noted.counted.over u ∧ nextLap (commitLap s) = runStart u a ∧ Starts u a (runStart u a) := by
  have h := commitLap_passed hc hf
  refine ⟨_, h, nextLap_of_admission ?_ ?_ ?_ hcode, runStart_starts _ a hsplit⟩
  · exact (h.get fun v => v.laps.lapFault).trans hf
  · exact (h.get fun v => v.laps.state).trans hst
  · exact (h.get fun v => v.run.admission).trans ha

include hon hend

theorem lapCut_waits_for_grid (hm : cutMode a.cfg s ≠ 0) (hl : s.net.ptpLocked = true) :
    (s.laps.gridTarget = none → ∀ g, ns < g → g < ns + s.laps.gridPeriod.toNat →
      g % s.laps.gridPeriod.toNat = s.laps.gridPhase.toNat % s.laps.gridPeriod.toNat →
      exec (.lapCut ns) s = .next { s with laps := { s.laps with gridTarget := some g } }) ∧
    (∀ g, s.laps.gridTarget = some g → ns < g → exec (.lapCut ns) s = .next s) := by
  obtain ⟨u, -, hn, hs⟩ := nextLap_starts hc hf hst ha hcode hsplit
  generalize runStart u a = t at hn hs
  have hasked : gridAsked s t = true := by
    have hopen : runLapOpen t = true := by
      unfold runLapOpen runActive
      rw [hs.run, hs.state, hs.closingLap]
      rfl
    have hmode : cutMode { a.cfg with startLap := u.laps.moduleLap + 1 } s = cutMode a.cfg s := rfl
    have hlt := cutMode_lt a.cfg s
    unfold gridAsked
    rw [hopen, if_pos rfl, hs.run]
    dsimp only
    rw [hmode, runLapOpen_idle hst]
    simp only [Bool.not_false, Bool.and_true, Bool.or_eq_true, decide_eq_true_eq]
    omega
  have hwait := lapCut_waits (ns := ns) hon hend (stageIngress_closed (runLapOpen_idle hst)) hn hasked hl
  refine ⟨fun hnone g h1 h2 h3 => ?_, fun g hg hlt => ?_⟩
  · rw [hnone, Option.getD_none, gridPoint_eq h1 h2 h3] at hwait
    exact hwait h1
  · rw [hg, Option.getD_some] at hwait
    exact (hwait hlt).trans (congrArg (fun x => Host.Outcome.next { s with laps := { s.laps with gridTarget := x } }) hg.symm)

include hcmds hmgmt

theorem lapCut_starts {p : Program} (hp : s.run.program = some p) (hm : cutMode a.cfg s = 0) : ∃ t, CutOpens s ns t 1 (2 ^ p.k) 0 ∧
    t.run.run = some { a.cfg with startLap := s.laps.moduleLap + 1 } ∧ t.run.strictActive = a.cfg.strict ∧
    t.run.recordsActive = a.cfg.records ∧ t.run.tdc = 0 ∧
    ∀ d, (t.die d).seq.s = Vector.ofFn (fun i : Fin 64 => nth (nth a.params d.val []) i.val 0) ∧
      (t.die d).seq.pc = (nth p.streams d.val (0, 0, 0)).2.1 ∧ (t.die d).seq.bar = Vector.replicate 16 0 ∧
      (t.die d).seq.loops = [] ∧ (t.die d).regs.state = 3 ∧
      (t.die d).cores = freshCores (s.die d).cores (a.cfg.n * a.cfg.n) (s.laps.now + 1) := by
  obtain ⟨u, h, hn, hs⟩ := nextLap_starts hc hf hst ha hcode hsplit
  generalize runStart u a = t at hn hs
  have f : Follows s t := ⟨hs.frame.trans (h.get fun v => v.laps.frame), hs.cmds.trans ((h.get fun v => v.net.cmds).trans hcmds),
    hs.mgmt.trans ((h.get fun v => v.net.mgmt).trans hmgmt)⟩
  have hpu : u.run.program = some p := (h.get fun v => v.run.program).trans hp
  have hml : u.laps.moduleLap = s.laps.moduleLap := h.get fun v => v.laps.moduleLap
  have he := lapCut_eq (ns := ns) hon hend (stageIngress_closed (runLapOpen_idle hst)) hn (.inl (gridAsked_of_mode hs.run hm))
  have o := cutNow_opens f.cmds f.mgmt s (gridAsked s t && !s.net.ptpLocked)
  have hk : openK t = p.k := openK_of_run hs.state (hs.program.trans hpu)
  refine ⟨_, o.cutOpens f he hs.state (by rw [hk]) hs.runLap, o.run.trans (hs.run.trans (by rw [hml])),
    o.strictActive.trans hs.strictActive, o.recordsActive.trans hs.recordsActive, o.tdc.trans hs.tdc, fun d => ?_⟩
  have hcores : (u.die d).cores = (s.die d).cores := h.die d DieSt.cores
  have hnow : u.laps.now = s.laps.now := h.get fun v => v.laps.now
  have hq : t.die d = _ := hs.die d
  rw [o.seq d, o.dieState d, o.cores d, hq]
  refine ⟨rfl, ?_, rfl, rfl, rfl, ?_⟩
  · exact congrArg (fun x : Option Program => match x with | some p => (nth p.streams d.val (0, 0, 0)).2.1 | none => 0) hpu
  · rw [← hcores, ← hnow]
    exact lapCore_freshCores ..

end

/-- Settles O44: at a cut `nextLap` of the ended lap (`commitLap_passed`, `commitLap_aborting`) chooses the lap, and what the cut
then does leaves that choice (`cutNow_opens`). -/
theorem lapCutOpensTheNextLap : Obligations.LapCutOpensTheNextLap := by
  intro s ns hon
  refine ⟨fun hlt => ?_, fun hend hc hcmds hmgmt => ⟨lapCut_recovery ns hon hend hc hcmds hmgmt, ?_, ?_, ?_, ?_, ?_⟩⟩
  · change execLapCut ns s = _
    unfold execLapCut
    rw [if_neg (by simp [hlt])]
  · exact lapCut_idle ns hon hend hc hcmds hmgmt
  · exact fun _ hg => lapCut_staging_fault ns hon hend hc hcmds hmgmt hg
  · intro hg hf hst hclosing hstop r p hr hp hm hfinal
    obtain ⟨t, ho, hrun, htdc, hab, hseq⟩ := lapCut_run ns hon hend hc hcmds hmgmt hg hf hst hclosing hstop hr hp hm hfinal
    refine ⟨t, ho, hrun, htdc, hab, fun d => ?_⟩
    rw [hseq d]
    exact ⟨rfl, rfl, rfl, rfl, rfl⟩
  · intro hf hst _ a p ha hcode hsplit hp
    refine ⟨fun hm => ?_, lapCut_waits_for_grid ns hon hend hc hf hst ha hcode hsplit⟩
    obtain ⟨t, ho, hrun, hstrict, hrecords, htdc, hdie⟩ := lapCut_starts ns hon hend hc hcmds hmgmt hf hst ha hcode hsplit hp hm
    exact ⟨t, ho, hrun, hstrict, hrecords, htdc, hdie⟩
  · intro hf hst hrec hdone hout hstop r p hr hp
    exact ⟨lapCut_resumes ns hon hend hc hcmds hmgmt hf hst hrec hdone hout hstop hr hp,
      lapCut_waits_for_resume ns hon hend hc hcmds hmgmt hf hst hrec hdone hout hstop hr⟩

end Sys2Proof.Machine

/-! PROOFS. The quire family: terms and their exact values, spills and fills of accumulators, the atomic sums. -/
namespace Sys2Proof.Machine

/-! ### Two's complement registers (R79) -/

/-- An N-bit register holds an integer balanced around 0 modulo 2^N. -/
theorem wrapInt_eq_bmod (w : Nat) (z : Int) : wrapInt w z = z.bmod (2 ^ w) := by
  have hpos : (0 : Int) < ((2 ^ w : Nat) : Int) := by positivity
  have hm : ((ofSigned w z % 2 ^ w : Nat) : Int) = z % ((2 ^ w : Nat) : Int) := by
    rw [ofSigned, Int.natCast_emod, Int.toNat_of_nonneg (Int.emod_nonneg _ hpos.ne'), Int.emod_emod]
  have hhalf : (2 ^ w + 1) / 2 = 2 ^ (w - 1) := by
    cases w with
    | zero => decide
    | succ n => rw [Nat.pow_succ, Nat.add_sub_cancel]; omega
  rw [wrapInt, toSigned, Int.bmod]
  split <;> split <;> omega

theorem wrapInt_add (w : Nat) (x y : Int) : wrapInt w (wrapInt w x + y) = wrapInt w (x + y) := by
  simp only [wrapInt_eq_bmod, Int.bmod_add_bmod]

theorem wrapInt_of_range {w : Nat} {z : Int} (hw : 0 < w) (hlo : -2 ^ (w - 1) ≤ z) (hhi : z < 2 ^ (w - 1)) : wrapInt w z = z := by
  rw [wrapInt_eq_bmod]
  obtain ⟨n, rfl⟩ : ∃ n, w = n + 1 := ⟨w - 1, by omega⟩
  have hpow : ((2 ^ (n + 1) : Nat) : Int) = 2 * 2 ^ n := by push_cast; ring
  rw [Nat.add_sub_cancel] at hlo hhi
  exact Int.bmod_eq_of_le_mul_two (by omega) (by omega)

/-! ### One term (R83 to R85, R94) -/

section
variable {q : Quire} {k limit : Nat} (hl : limit < 2 ^ 63) (h : q.terms + k ≤ limit)
include hl h

theorem addTerm_none : q.addTerm none k limit = { q with terms := q.terms + k }.setNar := by
  simp only [Quire.addTerm, show min (q.terms + k) (2 ^ 63 - 1) = q.terms + k by omega, if_neg (Nat.not_lt.mpr h)]

theorem addTerm_of_nar (hn : q.nar = true) (x : Int × Nat) : q.addTerm (some x) k limit = { q with terms := q.terms + k } := by
  simp only [Quire.addTerm, show min (q.terms + k) (2 ^ 63 - 1) = q.terms + k by omega, if_neg (Nat.not_lt.mpr h), hn, if_true]

theorem addTerm_value (hn : q.nar = false) (x : Int × Nat) : q.addTerm (some x) k limit =
    { q with val := wrapInt (accBits q.fmt) (q.val + x.1), terms := q.terms + k, res := (q.res + x.2) % 65535 } := by
  simp only [Quire.addTerm, show min (q.terms + k) (2 ^ 63 - 1) = q.terms + k by omega, if_neg (Nat.not_lt.mpr h), hn, resMod,
    Bool.false_eq_true, if_false]

/-- Within the limit a term raises the count and leaves the mark of saturation. -/
theorem addTerm_counts (t : Term) : (q.addTerm t k limit).terms = q.terms + k ∧ (q.addTerm t k limit).sat = q.sat := by
  match t, hn : q.nar with
  | none, _ => rw [addTerm_none hl h]; exact ⟨rfl, rfl⟩
  | some x, true => rw [addTerm_of_nar hl h hn]; exact ⟨rfl, rfl⟩
  | some x, false => rw [addTerm_value hl h hn]; exact ⟨rfl, rfl⟩

end

theorem addTerm_over {q : Quire} {k limit : Nat} (h : limit < q.terms + k) (t : Term) :
    q.addTerm t k limit = { q with terms := min (q.terms + k) (2 ^ 63 - 1) }.saturate := by
  simp [Quire.addTerm, h]

/-- NaR stays NaR (R83). -/
theorem addTerm_keeps_nar {q : Quire} (hn : q.nar = true) (t : Term) (k limit : Nat) : (q.addTerm t k limit).nar = true := by
  by_cases h : limit < q.terms + k
  · rw [addTerm_over h]; rfl
  · cases t with
    | none => simp [Quire.addTerm, h, Quire.setNar]
    | some x => simp [Quire.addTerm, h, hn]

/-- The mark of saturation stays. -/
theorem addTerm_keeps_sat {q : Quire} (hs : q.sat = true) (t : Term) (k limit : Nat) : (q.addTerm t k limit).sat = true := by
  by_cases h : limit < q.terms + k
  · rw [addTerm_over h]; rfl
  · match t, hn : q.nar with
    | none, _ => simp [Quire.addTerm, h, Quire.setNar, hs]
    | some x, true => simp [Quire.addTerm, h, hn, hs]
    | some x, false => simp [Quire.addTerm, h, hn, hs]

/-! ### Terms that a count already covers (R84) -/

/-- A register that holds NaR already takes any further term without a change. -/
theorem addTerm_setNar {q : Quire} {limit : Nat} (hl : limit < 2 ^ 63) (h : q.terms ≤ limit) (t : Term) :
    q.setNar.addTerm t 0 limit = q.setNar := by
  cases t with
  | none => exact addTerm_none hl (q := q.setNar) h
  | some x => exact addTerm_of_nar hl (q := q.setNar) h rfl x

/-- NaR overwrites what a term left. -/
theorem setNar_addTerm {q : Quire} {limit : Nat} (hl : limit < 2 ^ 63) (h : q.terms ≤ limit) (t : Term) :
    (q.addTerm t 0 limit).setNar = q.setNar := by
  match t, hn : q.nar with
  | none, _ => rw [addTerm_none hl h]; rfl
  | some x, true => rw [addTerm_of_nar hl h hn]; rfl
  | some x, false => rw [addTerm_value hl h hn]; rfl

/-- A saturated register takes any further term without a change (R85). -/
theorem addTerm_saturated {q : Quire} {limit : Nat} (hl : limit < 2 ^ 63) (hq : q.terms ≤ 2 ^ 63 - 1) (t : Term) :
    q.saturate.addTerm t 0 limit = q.saturate := by
  by_cases hov : limit < q.terms
  · rw [addTerm_over (q := q.saturate) hov, show min (q.saturate.terms + 0) (2 ^ 63 - 1) = q.terms from Nat.min_eq_left hq]
    rfl
  · cases t with
    | none => rw [addTerm_none hl (q := q.saturate) (Nat.not_lt.mp hov)]; rfl
    | some x => rw [addTerm_of_nar hl (q := q.saturate) (Nat.not_lt.mp hov) rfl]; rfl

/-- Two terms may change places. -/
theorem addTerm_comm {limit : Nat} (hl : limit < 2 ^ 63) (q : Quire) (t u : Term) :
    (q.addTerm t 0 limit).addTerm u 0 limit = (q.addTerm u 0 limit).addTerm t 0 limit := by
  by_cases hov : limit < q.terms
  · have hsat (u : Term) := addTerm_saturated hl (q := { q with terms := min (q.terms + 0) (2 ^ 63 - 1) }) (Nat.min_le_right ..) u
    rw [addTerm_over (q := q) hov, addTerm_over (q := q) hov, hsat, hsat]
  · have h : q.terms + 0 ≤ limit := Nat.not_lt.mp hov
    have hnext (t : Term) : (q.addTerm t 0 limit).terms + 0 ≤ limit := (addTerm_counts hl h t).1.trans_le h
    match t, u, hn : q.nar with
    | none, u, _ =>
      rw [addTerm_none hl h, addTerm_none hl (hnext u)]
      exact (addTerm_setNar hl h u).trans (setNar_addTerm hl h u).symm
    | some x, none, _ =>
      rw [addTerm_none hl h, addTerm_none hl (hnext (some x))]
      exact (setNar_addTerm hl h (some x)).trans (addTerm_setNar hl h (some x)).symm
    | some x, some y, true =>
      rw [addTerm_of_nar hl (hnext (some x)) (addTerm_keeps_nar hn ..), addTerm_of_nar hl (hnext (some y)) (addTerm_keeps_nar hn ..),
        addTerm_of_nar hl h hn, addTerm_of_nar hl h hn]
    | some x, some y, false =>
      have hx (x : Int × Nat) := addTerm_value hl h hn x
      have hnar (x : Int × Nat) : (q.addTerm (some x) 0 limit).nar = false := by rw [hx x]; exact hn
      rw [addTerm_value hl (hnext (some x)) (hnar x), addTerm_value hl (hnext (some y)) (hnar y), hx x, hx y]
      simp only [wrapInt_add, Nat.mod_add_mod, Int.add_right_comm, Nat.add_right_comm]

/-! ### Several terms (R84, R112) -/

/-- The registers of a quire without NaR, terms already counted, after finite terms. -/
theorem foldl_addTerm_values {q : Quire} {limit : Nat} (hl : limit < 2 ^ 63) (h : q.terms ≤ limit) (hn : q.nar = false)
    (vs : List (Int × Nat)) (z : Int) (r : Nat) :
    (vs.map some).foldl (fun q t => q.addTerm t 0 limit) { q with val := wrapInt (accBits q.fmt) z, res := r % 65535 } =
      { q with val := wrapInt (accBits q.fmt) (z + (vs.map (·.1)).sum), res := (r + (vs.map (·.2)).sum) % 65535 } := by
  induction vs generalizing z r with
  | nil => simp
  | cons x vs ih =>
    rw [List.map_cons, List.foldl_cons, addTerm_value hl (q := { q with val := wrapInt (accBits q.fmt) z, res := r % 65535 }) h hn]
    simp only [wrapInt_add, Nat.mod_add_mod, Nat.add_zero, ih, List.map_cons, List.sum_cons, Int.add_assoc, Nat.add_assoc]

theorem addTerms_values {q : Quire} {k limit : Nat} (hl : limit < 2 ^ 63) (h : q.terms + k ≤ limit) (hn : q.nar = false)
    (vs : List (Int × Nat)) : q.addTerms (vs.map some) k limit =
      { q with val := wrapInt (accBits q.fmt) (q.val + (vs.map (·.1)).sum), terms := q.terms + k
               res := (q.res + (vs.map (·.2)).sum) % 65535 } := by
  unfold Quire.addTerms
  rw [addTerm_value hl h hn, Int.add_zero, Nat.add_zero]
  exact foldl_addTerm_values (q := { q with terms := q.terms + k }) hl h hn vs q.val q.res

theorem foldl_addTerm_keeps_nar {q : Quire} (hn : q.nar = true) (ts : List Term) (limit : Nat) :
    (ts.foldl (fun q t => q.addTerm t 0 limit) q).nar = true :=
  List.foldlRecOn (motive := fun y : Quire => y.nar = true) ts _ hn fun _ h t _ => addTerm_keeps_nar h t 0 limit

theorem foldl_addTerm_keeps_sat {q : Quire} (hs : q.sat = true) (ts : List Term) (limit : Nat) :
    (ts.foldl (fun q t => q.addTerm t 0 limit) q).sat = true :=
  List.foldlRecOn (motive := fun y : Quire => y.sat = true) ts _ hs fun _ h t _ => addTerm_keeps_sat h t 0 limit

/-- Within the limit terms leave the count that covers them and the mark of saturation. -/
theorem foldl_addTerm_counts {q : Quire} {limit : Nat} (hl : limit < 2 ^ 63) (h : q.terms ≤ limit) (ts : List Term) :
    (ts.foldl (fun q t => q.addTerm t 0 limit) q).terms = q.terms ∧ (ts.foldl (fun q t => q.addTerm t 0 limit) q).sat = q.sat :=
  List.foldlRecOn (motive := fun y : Quire => y.terms = q.terms ∧ y.sat = q.sat) ts _ ⟨rfl, rfl⟩ fun y hy t _ => by
    obtain ⟨hterms, hsat⟩ := addTerm_counts hl (q := y) (k := 0) (hy.1.trans_le h) t
    exact ⟨hterms.trans hy.1, hsat.trans hy.2⟩

/-- A NaR term makes NaR, wherever it stands (R83). -/
theorem foldl_addTerm_none {q : Quire} {limit : Nat} (hl : limit < 2 ^ 63) (h : q.terms ≤ limit) {ts : List Term}
    (ht : none ∈ ts) : (ts.foldl (fun q t => q.addTerm t 0 limit) q).nar = true := by
  obtain ⟨before, after, rfl⟩ := List.append_of_mem ht
  rw [List.foldl_append, List.foldl_cons, addTerm_none hl ((foldl_addTerm_counts hl h before).1.trans_le h)]
  exact foldl_addTerm_keeps_nar rfl after limit

/-- Settles O25: `addTerms_values` gives the sum; NaR and the mark of saturation stay once they are there; the order is free
because two terms may change places (`addTerm_comm`). -/
theorem termsAddExactly : Obligations.TermsAddExactly := by
  intro q ts k limit hl
  refine ⟨?_, fun h hnar => ?_, fun h => ?_, fun ts' hp _ => ?_⟩
  · rintro vs rfl hn h
    exact addTerms_values hl h hn vs
  · obtain ⟨hterms, hsat⟩ := addTerm_counts hl h (some (0, 0))
    obtain ⟨hterms', hsat'⟩ := foldl_addTerm_counts hl (hterms.trans_le h) ts
    refine ⟨?_, hterms'.trans hterms, hsat'.trans hsat⟩
    cases hnar with
    | inl hn => exact foldl_addTerm_keeps_nar (addTerm_keeps_nar hn ..) ts limit
    | inr ht => exact foldl_addTerm_none hl (hterms.trans_le h) ht
  · unfold Quire.addTerms
    rw [addTerm_over h]
    exact ⟨foldl_addTerm_keeps_nar rfl ts limit, foldl_addTerm_keeps_sat rfl ts limit⟩
  · exact hp.symm.foldl_eq' (fun t _ u _ q => addTerm_comm hl q t u) _

/-! ### Residues of products (R94, R113) -/

/-- 2^16 is 1 modulo 65,535, so a shift rotates a residue by the shift modulo 16. -/
theorem two_pow_modEq_rotation (n : Nat) : 2 ^ (n % 16) ≡ 2 ^ n [MOD 65535] := by
  have hround : 2 ^ 16 ≡ 1 [MOD 65535] := by decide
  calc 2 ^ (n % 16) = 1 ^ (n / 16) * 2 ^ (n % 16) := by rw [one_pow, one_mul]
    _ ≡ (2 ^ 16) ^ (n / 16) * 2 ^ (n % 16) [MOD 65535] := (hround.symm.pow _).mul_right _
    _ = 2 ^ n := by rw [← pow_mul, ← pow_add, Nat.div_add_mod]

theorem resOf_natCast (n : Nat) : resOf (n : Int) = n % 65535 := by unfold resOf; omega

theorem resOf_neg_natCast (n : Nat) : resOf (-(n : Int)) = (65535 - n % 65535) % 65535 := by unfold resOf; omega

theorem mkTerm_residue {neg : Bool} {a b : Nat} {shift : Int} {v : Int} {r : Nat} (h : mkTerm neg a b shift = some (v, r)) :
    r = resOf v := by
  have hres : a % 65535 * (b % 65535) * 2 ^ (shift.toNat % 16) % 65535 = a * b * 2 ^ shift.toNat % 65535 :=
    (((Nat.mod_modEq a _).mul (Nat.mod_modEq b _)).mul (two_pow_modEq_rotation _))
  simp only [mkTerm, mkTermR, resMod, hres, Option.some.injEq] at h
  cases neg with
  | false => obtain ⟨rfl, rfl⟩ := h; exact (resOf_natCast _).symm
  | true => obtain ⟨rfl, rfl⟩ := h; exact (resOf_neg_natCast _).symm

theorem mkTerm_value {neg : Bool} {a b : Nat} {shift : Int} {v : Int} {r : Nat} (h : mkTerm neg a b shift = some (v, r)) :
    v = (if neg then -1 else 1 : Int) * (a * b * 2 ^ shift.toNat : Nat) := by
  simp only [mkTerm, mkTermR, Option.some.injEq] at h
  cases neg with
  | false => obtain ⟨rfl, -⟩ := h; exact (one_mul _).symm
  | true => obtain ⟨rfl, -⟩ := h; exact (neg_one_mul _).symm

theorem prodTerm_residue {f fa fb : Fmt} {cap a b : Nat} {v : Int} {r : Nat} (h : prodTerm f fa fb cap a b = some (v, r)) :
    r = resOf v := by
  unfold prodTerm at h
  split at h
  next x y _ _ =>
    dsimp only at h
    split at h
    · cases h; rfl
    · exact mkTerm_residue h
  next => cases h

/-- The residue register of a cell holds the residue of the stationary significand. -/
theorem cellRes_of_unpack {f : Fmt} {b : Nat} {y : Unpacked} (h : unpack f b = some y) : cellRes f b = y.sig % resMod := by
  simp [cellRes, h]

/-- A cell forms the product of its operands, for its register holds the residue of the stationary one. -/
theorem cellTerm_cellRes (f fa fb : Fmt) (cap a b : Nat) : cellTerm f fa fb cap a b (cellRes fb b) = prodTerm f fa fb cap a b := by
  unfold cellTerm prodTerm
  match hx : unpack fa a, hy : unpack fb b with
  | some x, some y =>
    have hzero : (y.sig = 0 ∧ y.sig % resMod = 0) ↔ y.sig = 0 := ⟨And.left, fun h => ⟨h, by rw [h, Nat.zero_mod]⟩⟩
    simp only [mkTerm, cellRes_of_unpack hy, hzero]
  | none, _ => rfl
  | some _, none => rfl

theorem cellInt_cellRes (fa fb : Fmt) (a b : Nat) : cellInt fa fb a b (cellRes fb b) = intTerm fa fb a b := by
  unfold cellInt intTerm
  match hx : unpack fa a, hy : unpack fb b with
  | some x, some y => simp only [mkTerm, cellRes_of_unpack hy]
  | none, _ => rfl
  | some _, none => rfl

/-! ### The value of a posit term (R81) -/

theorem runLen_le (b : Nat) (lead : Bool) (i : Nat) : runLen b lead i ≤ i + 1 := by
  induction i with
  | zero => unfold runLen; split <;> omega
  | succ i ih => unfold runLen; split <;> omega

/-- The last bit of a posit of 8 or more bits weighs no less than bit 0 of the quire of its width. -/
theorem positUnpackMag_exp {n : Nat} (hn : 8 ≤ n) (b : Nat) : 16 - 8 * (n : Int) ≤ (positUnpackMag n b).2.1 := by
  unfold positUnpackMag
  extract_lets lead m r left e nf f
  have hm : m ≤ n - 1 := (runLen_le b lead (n - 2)).trans (by omega)
  have hr : -(m : Int) - 1 ≤ r := by unfold r; split <;> omega
  have hnf : nf = n - 1 - m - 1 - 2 := rfl
  change 16 - 8 * (n : Int) ≤ 4 * r + e - nf
  omega

theorem positUnpack_exp {n b : Nat} {u : Unpacked} (hn : 8 ≤ n) (h : positUnpack n b = some u) : 16 - 8 * (n : Int) ≤ u.exp := by
  unfold positUnpack at h
  dsimp only at h
  split at h
  · cases h
  · split at h
    · cases h
      change 16 - 8 * (n : Int) ≤ 0
      omega
    · cases h
      exact positUnpackMag_exp hn _

theorem unpack_of_posit {f : Fmt} (hp : isPosit f = true) (b : Nat) : unpack f b = positUnpack (fmtBits f) b := by
  match f, hp with
  | .p8, _ | .p16, _ | .p32, _ => rfl

theorem fmtBits_of_posit {f : Fmt} (hp : isPosit f = true) : fmtBits f = quireN f ∧ 8 ≤ fmtBits f := by
  match f, hp with
  | .p8, _ | .p16, _ | .p32, _ => exact ⟨rfl, by decide⟩

/-- The magnitude of an unpacked element, brought to a weight that its scale does not pass below, is an integer. -/
theorem Unpacked.mag_at_weight (u : Unpacked) {w : Nat} (hw : 0 ≤ u.exp + w) :
    ((u.sig * 2 ^ (u.exp + w).toNat : Nat) : Int) * u.mag.den = u.mag.num * 2 ^ w := by
  unfold Unpacked.mag Frac.scale2 Frac.pow2
  split
  next h =>
    obtain ⟨e, he⟩ := Int.eq_ofNat_of_zero_le h
    simp only [Frac.mul, Frac.ofInt, he, Int.toNat_natCast, show ((e : Int) + w).toNat = e + w by omega, pow_add]
    push_cast
    ring
  next h =>
    obtain ⟨e, he⟩ : ∃ e : Nat, u.exp = -e := ⟨(-u.exp).toNat, by omega⟩
    obtain ⟨k, rfl⟩ : ∃ k, w = e + k := ⟨w - e, by omega⟩
    simp only [Frac.mul, Frac.ofInt, he, neg_neg, Int.toNat_natCast, show (-(e : Int) + (e + k : Nat)).toNat = k by omega, pow_add]
    push_cast
    ring

theorem positTerm_residue {f fa : Fmt} {a : Nat} {v : Int} {r : Nat} (h : positTerm f fa a = some (v, r)) : r = resOf v := by
  unfold positTerm at h
  split at h
  · split at h
    · cases h; rfl
    · exact mkTerm_residue h
  · cases h

/-- The term of a posit is its exact value at the weight of a quire that is no narrower (R81). -/
theorem positTerm_value {f fa : Fmt} {a : Nat} {v : Int} {r : Nat} (hf : isPosit f = true) (hfa : isPosit fa = true)
    (hle : fmtBits fa ≤ fmtBits f) (h : positTerm f fa a = some (v, r)) {neg : Bool} {mag : Frac}
    (hd : decodeNum fa a = .fin neg mag) : v * (mag.den : Int) = (if neg then -1 else 1 : Int) * mag.num * 2 ^ (8 * quireN f - 16) := by
  obtain ⟨hquire, h8⟩ := fmtBits_of_posit hf
  obtain ⟨-, h8a⟩ := fmtBits_of_posit hfa
  unfold positTerm at h
  unfold decodeNum at hd
  match hu : unpack fa a with
  | none => rw [hu] at h; cases h
  | some u =>
    have hexp := positUnpack_exp h8a ((unpack_of_posit hfa a).symm.trans hu)
    have hweight : u.exp + 8 * quireN f - 16 = u.exp + (8 * quireN f - 16 : Nat) := by omega
    have hterm : v = (if u.neg then -1 else 1 : Int) * (u.sig * 2 ^ (u.exp + (8 * quireN f - 16 : Nat)).toNat : Nat) := by
      simp only [hu] at h
      split at h
      next hzero => cases h; simp [hzero]
      next =>
        rw [mkTerm_value h, hweight, Nat.mul_one]
    rw [hu] at hd
    cases hd
    rw [hterm, mul_assoc, u.mag_at_weight (by omega), mul_assoc]

/-- Settles O26: a residue is that of the product because 65,535 divides 2^16 − 1 (`mkTerm_residue`); the value of a posit term
is `positTerm_value`. -/
theorem termsAreExactValues : Obligations.TermsAreExactValues :=
  ⟨fun _ _ _ _ _ _ _ _ h => prodTerm_residue h, fun f fa fb cap a b => ⟨cellTerm_cellRes f fa fb cap a b, cellInt_cellRes fa fb a b⟩,
    fun _ _ _ _ _ hf hfa hle h => ⟨positTerm_residue h, fun _ _ hd => positTerm_value hf hfa hle h hd⟩⟩

/-! ### Sums of long quires (R85, R90, R97) -/

/-- Whether the sum of two long quires is marked saturated: one is, or their counts pass the limit of an image. -/
def sumSat (a b : Quire) : Bool := a.sat || b.sat || decide (2 ^ 63 - 1 < a.terms + b.terms)

/-- Whether the sum of two long quires is NaR. -/
def sumNar (a b : Quire) : Bool := a.nar || b.nar || sumSat a b

/-- The sum of two long quires but for what NaR makes of it. -/
def sumValue (a b : Quire) : Quire :=
  { a with
    val := wrapInt (longBits a.fmt) (a.val + b.val)
    terms := min (a.terms + b.terms) (2 ^ 63 - 1)
    res := (a.res + b.res) % 65535
    sat := sumSat a b }

theorem longAdd_eq (a b : Quire) : longAdd a b = if sumNar a b then (sumValue a b).longNar else sumValue a b := rfl

theorem longAdd_of_nar {a b : Quire} (h : sumNar a b = true) : longAdd a b = (sumValue a b).longNar := by
  rw [longAdd_eq, if_pos h]

theorem longAdd_of_value {a b : Quire} (h : sumNar a b = false) : longAdd a b = sumValue a b := by
  rw [longAdd_eq, if_neg (Bool.eq_false_iff.mp h)]

/-- NaR or not, a sum has the format of the image and the marks and the count of both. -/
theorem longAdd_shape (a b : Quire) : (longAdd a b).fmt = a.fmt ∧ (longAdd a b).terms = min (a.terms + b.terms) (2 ^ 63 - 1) ∧
    (longAdd a b).sat = sumSat a b ∧ (longAdd a b).pinf = a.pinf ∧ (longAdd a b).ninf = a.ninf ∧ (longAdd a b).nan = a.nan ∧
    (longAdd a b).negz = a.negz := by
  cases h : sumNar a b with
  | false => simp only [longAdd_of_value h, sumValue, true_and]
  | true => simp only [longAdd_of_nar h, Quire.longNar, sumValue, true_and]

theorem longAdd_nar (a b : Quire) : (longAdd a b).nar = sumNar a b := by
  cases h : sumNar a b with
  | true => simp only [longAdd_of_nar h, Quire.longNar]
  | false =>
    simp only [longAdd_of_value h, sumValue]
    simp only [sumNar, Bool.or_eq_false_iff] at h
    exact h.1.1

/-- The count of three passes the limit when that of two does, or when what is then kept of it does with the third. -/
theorem cap_lt_add_iff {m x y z : Nat} : m < x + y ∨ m < min (x + y) m + z ↔ m < x + y + z := by omega

theorem cap_add_cap (m x y z : Nat) : min (min (x + y) m + z) m = min (x + y + z) m := by omega

/-- Over two sums the mark depends on the marks and on the count of all. -/
theorem sumSat_longAdd (q a b : Quire) : sumSat (longAdd q a) b =
    (q.sat || a.sat || b.sat || decide (2 ^ 63 - 1 < q.terms + a.terms + b.terms)) := by
  obtain ⟨-, hterms, hsat, -⟩ := longAdd_shape q a
  rw [Bool.eq_iff_iff]
  simp only [sumSat, hsat, hterms, Bool.or_eq_true, decide_eq_true_eq, ← cap_lt_add_iff (x := q.terms)]
  tauto

theorem sumNar_longAdd (q a b : Quire) : sumNar (longAdd q a) b = (q.nar || a.nar || b.nar || sumSat (longAdd q a) b) := by
  rw [sumNar, longAdd_nar, sumSat_longAdd, Bool.eq_iff_iff]
  simp only [sumNar, sumSat, Bool.or_eq_true, decide_eq_true_eq, ← cap_lt_add_iff (x := q.terms)]
  tauto

/-- The sum of three long quires in terms of what they hold. -/
theorem sumValue_longAdd {q a b : Quire} (h : sumNar q a = false) : sumValue (longAdd q a) b =
    { q with
      val := wrapInt (longBits q.fmt) (q.val + a.val + b.val)
      terms := min (q.terms + a.terms + b.terms) (2 ^ 63 - 1)
      res := (q.res + a.res + b.res) % 65535
      sat := sumSat (longAdd q a) b } := by
  rw [longAdd_of_value h]
  simp only [sumValue, wrapInt_add, Nat.mod_add_mod, cap_add_cap]

/-- What is left of three long quires when their sum is NaR. -/
theorem longNar_sumValue_longAdd (q a b : Quire) : (sumValue (longAdd q a) b).longNar =
    { q with terms := min (q.terms + a.terms + b.terms) (2 ^ 63 - 1), sat := sumSat (longAdd q a) b }.longNar := by
  obtain ⟨hfmt, hterms, -, hpinf, hninf, hnan, hnegz⟩ := longAdd_shape q a
  simp only [sumValue, Quire.longNar, hfmt, hterms, hpinf, hninf, hnan, hnegz, cap_add_cap]

/-- Two addends of a long quire may change places (R97). -/
theorem longAdd_right_comm (q a b : Quire) : longAdd (longAdd q a) b = longAdd (longAdd q b) a := by
  have hsat : sumSat (longAdd q a) b = sumSat (longAdd q b) a := by
    rw [sumSat_longAdd, sumSat_longAdd, Nat.add_right_comm q.terms, Bool.or_right_comm q.sat]
  have hnar : sumNar (longAdd q a) b = sumNar (longAdd q b) a := by
    rw [sumNar_longAdd, sumNar_longAdd, hsat, Bool.or_right_comm q.nar]
  cases h : sumNar (longAdd q a) b with
  | true =>
    rw [longAdd_of_nar h, longAdd_of_nar (hnar.symm.trans h), longNar_sumValue_longAdd, longNar_sumValue_longAdd, hsat,
      Nat.add_right_comm]
  | false =>
    have hfirst {a b : Quire} (h : sumNar (longAdd q a) b = false) : sumNar q a = false := by
      simp only [sumNar, longAdd_nar, Bool.or_eq_false_iff] at h ⊢
      exact h.1.1
    rw [longAdd_of_value h, longAdd_of_value (hnar.symm.trans h), sumValue_longAdd (hfirst h),
      sumValue_longAdd (hfirst (hnar.symm.trans h)), hsat, Int.add_right_comm, Nat.add_right_comm q.terms, Nat.add_right_comm q.res]

/-! ### A spill (R90) -/

/-- A quire enters an image of its own posit format as it is (R90). -/
theorem toLong_self {q : Quire} (hp : isPosit q.fmt = true) (hn : q.nar = false) : q.toLong q.fmt = q := by
  have hfmt : q.fmt ≠ .i8 := fun h => by rw [h] at hp; cases hp
  simp only [Quire.toLong, hn, Bool.false_eq_true, if_false, if_neg hfmt, Nat.sub_self, Nat.mul_zero, pow_zero, Nat.cast_one, mul_one]
  rw [← hn]

theorem longBits_pos (f : Fmt) : 0 < longBits f := Nat.succ_pos _

/-- Residues add when both are those of their values. -/
theorem resOk_sum {a b : Quire} (ha : a.resOk = true) (hb : b.resOk = true) : resOf (a.val + b.val) = (a.res + b.res) % 65535 := by
  simp only [Quire.resOk, decide_eq_true_eq] at ha hb
  rw [← ha, ← hb]
  unfold resOf
  omega

/-- Sums that an image can hold are exact. -/
theorem longAdd_exact {a b : Quire} (han : a.nar = false) (hbn : b.nar = false) (has : a.sat = false) (hbs : b.sat = false)
    (hterms : a.terms + b.terms < 2 ^ 63) (hlo : -2 ^ (longBits a.fmt - 1) ≤ a.val + b.val)
    (hhi : a.val + b.val < 2 ^ (longBits a.fmt - 1)) :
    longAdd a b = { a with val := a.val + b.val, terms := a.terms + b.terms, res := (a.res + b.res) % 65535 } := by
  have hsat : sumSat a b = false := by
    simp only [sumSat, has, hbs, Bool.or_self, Bool.false_or, decide_eq_false_iff_not]
    omega
  have hnar : sumNar a b = false := by simp only [sumNar, han, hbn, hsat, Bool.or_self]
  rw [longAdd_of_value hnar]
  simp only [sumValue, wrapInt_of_range (longBits_pos _) hlo hhi, hsat, has,
    show min (a.terms + b.terms) (2 ^ 63 - 1) = a.terms + b.terms by omega]

theorem spillInto_exact {f : Fmt} {base q : Quire} (hp : isPosit f = true) (hbase : base.fmt = f) (hq : q.fmt = f)
    (hbn : base.nar = false) (hqn : q.nar = false) (hbs : base.sat = false) (hqs : q.sat = false) (hterms : base.terms + q.terms < 2 ^ 63)
    (hlo : -2 ^ (longBits f - 1) ≤ base.val + q.val) (hhi : base.val + q.val < 2 ^ (longBits f - 1)) :
    spillInto base q =
      { base with val := base.val + q.val, terms := base.terms + q.terms, res := (base.res + q.res) % 65535 } := by
  subst hbase
  have hself : q.toLong base.fmt = q := hq ▸ toLong_self (hq ▸ hp) hqn
  rw [spillInto, hself]
  exact longAdd_exact hbn hqn hbs hqs hterms hlo hhi

/-! ### Slots of MAXLOC (R98) -/

theorem leNat_leBytes (n x : Nat) : leNat (leBytes n x) = x % 256 ^ n := by
  induction n generalizing x with
  | zero => simp [leBytes, leNat, Nat.mod_one]
  | succ n ih => rw [leBytes, leNat, ih, BitVec.toNat_ofNat, pow_succ' 256 n, Nat.mod_mul]

theorem take_leBytes {n w : Nat} (h : w ≤ n) (x : Nat) : (leBytes n x).take w = leBytes w x := by
  induction w generalizing n x with
  | zero => rfl
  | succ w ih =>
    obtain ⟨n, rfl⟩ : ∃ m, n = m + 1 := ⟨n - 1, by omega⟩
    rw [leBytes, leBytes, List.take_succ_cons, ih (by omega)]

/-- The value of a slot, in the bytes of its format. -/
theorem slotBytes_value {w v : Nat} (hw : w ≤ 4) (hv : v < 256 ^ w) (i : Nat) : leNat ((slotBytes v i).take w) = v := by
  rw [slotBytes, List.take_append_of_le_length (hw.trans_eq (leBytes_length 4 v).symm), take_leBytes hw, leNat_leBytes, Nat.mod_eq_of_lt hv]

theorem slotBytes_index {i : Nat} (hi : i < 2 ^ 32) (v : Nat) : leNat (((slotBytes v i).drop 4).take 4) = i := by
  rw [slotBytes, List.drop_left' (leBytes_length 4 v), take_leBytes le_rfl, leNat_leBytes, Nat.mod_eq_of_lt (hi.trans_eq (by norm_num))]

/-- Whether slot `y` takes the place of slot `x` (R76, R98): NaR never does, and gives way; of equal values the lower index wins. -/
def outranks (f : Fmt) (y x : Nat × Nat) : Bool :=
  !(decodeNum f y.1).isNan && ((decodeNum f x.1).isNan || decide (positOrd f x.1 < positOrd f y.1) ||
    (decide (positOrd f x.1 = positOrd f y.1) && decide (y.2 < x.2)))

theorem outranks_iff {f : Fmt} {y x : Nat × Nat} : outranks f y x = true ↔ (decodeNum f y.1).isNan = false ∧
    ((decodeNum f x.1).isNan = true ∨ positOrd f x.1 < positOrd f y.1 ∨ positOrd f x.1 = positOrd f y.1 ∧ y.2 < x.2) := by
  simp [outranks, or_assoc]

theorem outranks_trans {f : Fmt} {x y z : Nat × Nat} (h : outranks f y x = true) (g : outranks f z y = true) : outranks f z x = true := by
  rw [outranks_iff] at h g ⊢
  obtain ⟨hy, h⟩ := h
  obtain ⟨hz, g⟩ := g
  refine ⟨hz, ?_⟩
  rcases h with hx | h
  · exact .inl hx
  · have g := g.resolve_left (by simp [hy])
    exact .inr (by omega)

theorem outranks_asymm {f : Fmt} {x y : Nat × Nat} (h : outranks f y x = true) : outranks f x y = false := by
  rw [Bool.eq_false_iff]
  intro g
  rw [outranks_iff] at h g
  have hlt := h.2.resolve_left (by simp [g.1])
  have hgt := g.2.resolve_left (by simp [h.1])
  omega

/-- Encodings of one width that stand for the same integer are equal. -/
theorem positOrd_inj {f : Fmt} {a b : Nat} (ha : a < 2 ^ fmtBits f) (hb : b < 2 ^ fmtBits f) (h : positOrd f a = positOrd f b) : a = b := by
  unfold positOrd toSigned at h
  rw [Nat.mod_eq_of_lt ha, Nat.mod_eq_of_lt hb] at h
  split at h <;> split at h <;> omega

/-- Of two slots with values, either one takes the place of the other or they are equal. -/
theorem outranks_total {f : Fmt} {x y : Nat × Nat} (hx : x.1 < 2 ^ fmtBits f) (hy : y.1 < 2 ^ fmtBits f)
    (hnx : (decodeNum f x.1).isNan = false) (hny : (decodeNum f y.1).isNan = false) (h : outranks f x y = false)
    (g : outranks f y x = false) : x = y := by
  rw [Bool.eq_false_iff, ne_eq, outranks_iff] at h g
  have h := not_or.mp (not_and.mp h hnx)
  have g := not_or.mp (not_and.mp g hny)
  exact Prod.ext (positOrd_inj hx hy (by omega)) (by omega)

/-- What MAXLOC keeps of two slots. -/
def slotMax (f : Fmt) (x y : Nat × Nat) : Nat × Nat := if outranks f y x then y else x

theorem maxlocSlot_slotBytes {f : Fmt} (hp : isPosit f = true) {x y : Nat × Nat} (hx : x.1 < 2 ^ fmtBits f) (hy : y.1 < 2 ^ fmtBits f)
    (hi : x.2 < 2 ^ 32) (hj : y.2 < 2 ^ 32) :
    maxlocSlot f (slotBytes x.1 x.2) (slotBytes y.1 y.2) = slotBytes (slotMax f x y).1 (slotMax f x y).2 := by
  obtain ⟨hw, hbits, hieee⟩ : fmtBits f / 8 ≤ 4 ∧ 2 ^ fmtBits f = 256 ^ (fmtBits f / 8) ∧ isIeee f = false := by
    match f, hp with
    | .p8, _ | .p16, _ | .p32, _ => exact ⟨by decide, by decide, rfl⟩
  have hlt (a b : Nat) : totalLt f a b = decide (positOrd f a < positOrd f b) := by simp [totalLt, hieee]
  have hput : ((decodeNum f y.1).isNan || !((decodeNum f x.1).isNan || decide (positOrd f x.1 < positOrd f y.1) ||
      (!decide (positOrd f y.1 < positOrd f x.1) && decide (y.2 < x.2)))) = !outranks f y x := by
    have horder : (decide (positOrd f x.1 < positOrd f y.1) || (!decide (positOrd f y.1 < positOrd f x.1) && decide (y.2 < x.2))) =
        (decide (positOrd f x.1 < positOrd f y.1) || (decide (positOrd f x.1 = positOrd f y.1) && decide (y.2 < x.2))) := by
      rw [Bool.eq_iff_iff]
      simp only [Bool.or_eq_true, Bool.and_eq_true, Bool.not_eq_true', decide_eq_true_eq, decide_eq_false_iff_not]
      omega
    rw [outranks, Bool.or_assoc, Bool.or_assoc, horder, Bool.not_and, Bool.not_not]
  rw [hbits] at hx hy
  unfold maxlocSlot slotMax
  simp only [slotBytes_value hw hx, slotBytes_value hw hy, slotBytes_index hi, slotBytes_index hj, hlt, hput]
  cases outranks f y x <;> rfl

theorem slotMax_of_outranks {f : Fmt} {x y : Nat × Nat} (h : outranks f y x = true) : slotMax f x y = y := if_pos h

theorem slotMax_of_not {f : Fmt} {x y : Nat × Nat} (h : outranks f y x = false) : slotMax f x y = x := if_neg (Bool.eq_false_iff.mp h)

/-- Two slots with values leave the same one, whichever comes first. -/
theorem slotMax_comm {f : Fmt} {a b : Nat × Nat} (ha : a.1 < 2 ^ fmtBits f) (hb : b.1 < 2 ^ fmtBits f)
    (hna : (decodeNum f a.1).isNan = false) (hnb : (decodeNum f b.1).isNan = false) : slotMax f a b = slotMax f b a := by
  match hba : outranks f b a, hab : outranks f a b with
  | true, _ => rw [slotMax_of_outranks hba, slotMax_of_not (outranks_asymm hba)]
  | false, true => rw [slotMax_of_not hba, slotMax_of_outranks hab]
  | false, false => rw [outranks_total ha hb hna hnb hab hba]

/-- Two operands of MAXLOC may change places. -/
theorem slotMax_right_comm {f : Fmt} (x : Nat × Nat) {a b : Nat × Nat} (ha : a.1 < 2 ^ fmtBits f) (hb : b.1 < 2 ^ fmtBits f) :
    slotMax f (slotMax f x a) b = slotMax f (slotMax f x b) a := by
  have hlow {a b : Nat × Nat} (hax : outranks f a x = true) (hbx : outranks f b x = false) : outranks f b a = false :=
    Bool.eq_false_iff.mpr fun hba => Bool.eq_false_iff.mp hbx (outranks_trans hax hba)
  match hax : outranks f a x, hbx : outranks f b x with
  | true, true =>
    rw [slotMax_of_outranks hax, slotMax_of_outranks hbx]
    exact slotMax_comm ha hb (outranks_iff.mp hax).1 (outranks_iff.mp hbx).1
  | true, false => rw [slotMax_of_outranks hax, slotMax_of_not hbx, slotMax_of_outranks hax, slotMax_of_not (hlow hax hbx)]
  | false, true => rw [slotMax_of_outranks hbx, slotMax_of_not hax, slotMax_of_outranks hbx, slotMax_of_not (hlow hbx hax)]
  | false, false => rw [slotMax_of_not hax, slotMax_of_not hbx, slotMax_of_not hax]

/-- What MAXLOC keeps is one of the two slots. -/
theorem slotMax_mem (f : Fmt) (P : Nat × Nat → Prop) {x y : Nat × Nat} (hx : P x) (hy : P y) : P (slotMax f x y) := by
  unfold slotMax
  split <;> assumption

/-- A slot of MAXLOC after two operands. -/
theorem maxlocSlot_twice {f : Fmt} (hp : isPosit f = true) {x a b : Nat × Nat} (hx : x.1 < 2 ^ fmtBits f) (ha : a.1 < 2 ^ fmtBits f)
    (hb : b.1 < 2 ^ fmtBits f) (hxi : x.2 < 2 ^ 32) (hai : a.2 < 2 ^ 32) (hbi : b.2 < 2 ^ 32) :
    maxlocSlot f (maxlocSlot f (slotBytes x.1 x.2) (slotBytes a.1 a.2)) (slotBytes b.1 b.2) =
      slotBytes (slotMax f (slotMax f x a) b).1 (slotMax f (slotMax f x a) b).2 := by
  rw [maxlocSlot_slotBytes hp hx ha hxi hai]
  exact maxlocSlot_slotBytes hp (slotMax_mem f (fun z => z.1 < 2 ^ fmtBits f) hx ha) hb
    (slotMax_mem f (fun z => z.2 < 2 ^ 32) hxi hai) hbi

/-- Settles O31: a spill that fits is exact (`spillInto_exact`); two addends of a long quire (`longAdd_right_comm`) and two operands
of MAXLOC (`slotMax_right_comm`) may change places. -/
theorem spillsAndAtomicsSumExactly : Obligations.SpillsAndAtomicsSumExactly := by
  refine ⟨fun f base q hp hbase hq hbn hqn hbs hqs hterms hlo hhi => ?_, longAdd_right_comm, ?_⟩
  · rw [spillInto_exact hp hbase hq hbn hqn hbs hqs hterms hlo hhi]
    exact ⟨rfl, rfl, hbn, hbase, fun hb hr => decide_eq_true (resOk_sum hb hr)⟩
  · intro f v i a x b y hp hv ha hb hi hx hy
    have hab := maxlocSlot_twice hp (x := (v, i)) (a := (a, x)) (b := (b, y)) hv ha hb hi hx hy
    have hba := maxlocSlot_twice hp (x := (v, i)) (a := (b, y)) (b := (a, x)) hv hb ha hi hy hx
    rw [hab, hba, slotMax_right_comm (v, i) ha hb]

/-! ### Arrays and timed writes of a core -/

@[simp] theorem Core.arr_setArr (c : Core) (k : Arr) (m : MArray) : (c.setArr k m).arr k = m := by cases k <;> rfl

@[simp] theorem Core.arr_withPend (c : Core) (k : Arr) (l : List Pend) : ({ c with pend := l } : Core).arr k = c.arr k := by
  cases k <;> rfl

theorem Core.setArr_withPend (c : Core) (k : Arr) (m : MArray) (l : List Pend) :
    ({ c with pend := l } : Core).setArr k m = { c.setArr k m with pend := l } := by cases k <;> rfl

theorem arrUnit_ne_vector (k : Arr) : decide (arrUnit k = 3) = false := by cases k <;> rfl

theorem map_mapIdx {α β γ : Type} (f : Nat → α → β) (g : β → γ) (l : List α) :
    (l.mapIdx f).map g = l.mapIdx fun i a => g (f i a) :=
  List.ext_getElem? fun i => by simp [Option.map_map, Function.comp_def]

/-- A fold whose steps only add timed writes adds those of every element in order. -/
theorem foldl_pend {α β : Type} {step : Core × β → α → Core × β} {ws : α → List Pend}
    (h : ∀ y a, (step y a).1 = { y.1 with pend := y.1.pend ++ ws a }) (l : List α) (y : Core × β) :
    (l.foldl step y).1 = { y.1 with pend := y.1.pend ++ (l.map ws).flatten } := by
  induction l generalizing y with
  | nil => simp
  | cons a l ih => rw [List.foldl_cons, ih, h, List.map_cons, List.flatten_cons, List.append_assoc]

theorem csOk_of {a align n : Nat} (ha : a % align = 0) (hn : a + n ≤ 0xC000) : csOk a align n = true := by
  simp [csOk, csSize, ha, hn]

/-! ### Service operations on a group (R115, R126, R131) -/

section
variable {k : Arr} {gi : Fin 8} {cyc : Group → Nat} {eff : Nat → Group → Core → (Option Group × Core) × List Raise} {x : CoreIn}
  {c : Core} {g : Group} (hg : (c.arr k).groups[gi] = some g)
  (hport : (c.arr k).portTo ≤ x.now) (hdone : ∀ r ∈ g.rows, r.doneAt ≤ x.now)

include hport hdone in
theorem serviceBad_nil (u : Nat) : serviceBad u (c.arr k) gi x.now g = [] := by
  have hrows : g.rows.any (fun r => decide (x.now < r.doneAt)) = false := by
    simpa using hdone
  simp [serviceBad, Nat.not_lt.mpr hport, hrows]

include hg hport hdone

/-- A service operation on a core that acts. -/
theorem serviceCore_active {h : Option Group} {c' : Core} (heff : (eff (x.now + cyc g) g c).1 = (h, c')) :
    (serviceCore k true gi cyc eff x c).1 =
      c'.setArr k { c'.arr k with groups := (c'.arr k).groups.set gi h, portTo := x.now + cyc g } := by
  simp only [serviceCore, hg, serviceBad_nil hport hdone, List.isEmpty_nil, if_true, heff]

/-- A service operation on another core only takes the port and the tile rows. -/
theorem serviceCore_inactive : (serviceCore k false gi cyc eff x c).1 = c.setArr k
    { c.arr k with groups := (c.arr k).groups.set gi (some (holdRows g (x.now + cyc g))), portTo := x.now + cyc g } := by
  simp only [serviceCore, hg, serviceBad_nil hport hdone, List.isEmpty_nil, if_true, Bool.false_eq_true, if_false]

end

/-! ### MX.SPILL (R90, R284) -/

/-- A spill acts on the attached base, which it must name or ask for, or on the named address (R284). -/
theorem spillBase_eq {base : Option Nat} {att : Bool} {named : Nat} (hnone : base = none → att = false)
    (hsome : ∀ b, base = some b → att = true ∨ b = named) : spillBase base att named = some (base.getD named) := by
  cases base with
  | none => simp [spillBase, hnone rfl]
  | some b => simp [spillBase, hsome b rfl]

/-- The image that a spill adds to: none yet is zero (R90). -/
def oldImage (c : Core) (f : Fmt) (base : Option Nat) (a : Nat) : Quire :=
  if base = none then Quire.zero f else (readImage c f a).1

theorem spillImage_fst (c : Core) (f : Fmt) (base : Option Nat) (a : Nat) (q : Quire) :
    (spillImage c f base.isNone a q).1 = longAdd (oldImage c f base a) (q.toLong f) := by
  cases base with
  | none => rfl
  | some b => rfl

/-- The timed writes of a spilled tile row: its images, readable from `ready` on (R131, R284). -/
def rowPends (c : Core) (g : Group) (b now n : Nat) (r : TileRow) : List Pend :=
  csPends (now + (n + 1) * portLong g.fmt) false (groupImage g.fmt b n 0)
    (r.accs.mapIdx fun j q =>
      imgBytes (longAdd (oldImage c (imgFmt g.fmt) g.base (groupImage g.fmt b n j)) ((spillQuire g q).toLong (imgFmt g.fmt)))).flatten

/-- The group that a spill or a fill leaves: zero accumulators on the long base (R90, R91). -/
def Group.onBase (g : Group) (b fin : Nat) : Group := { clearRows g fin false with base := some b }

section
variable {k : Arr} {p : Reg4} {a : Csa} {att : Bool} {gi : Fin 8} {x : CoreIn} {c : Core} {g : Group}
  (hg : (c.arr k).groups[gi] = some g)
  (hport : (c.arr k).portTo ≤ x.now) (hdone : ∀ r ∈ g.rows, r.doneAt ≤ x.now)
include hg hport hdone

theorem spillCore_active (hact : activeOn c p = true) (hnone : g.base = none → att = false)
    (hsome : ∀ b, g.base = some b → att = true ∨ b = csaAddr c a) {b : Nat} (hb : g.base.getD (csaAddr c a) = b)
    (hnamed : csaAddr c a % 8 = 0) (hb8 : b % 8 = 0) (hend : b + 16 * g.rows.length * imgSize (imgFmt g.fmt) ≤ 0xC000) :
    (spillCore k p a att gi x c).1 = { c.setArr k { c.arr k with
        groups := (c.arr k).groups.set gi (some (g.onBase b (x.now + g.rows.length * portLong g.fmt)))
        portTo := x.now + g.rows.length * portLong g.fmt } with
      pend := c.pend ++ (g.rows.mapIdx (rowPends c g b x.now)).flatten } := by
  unfold spillCore
  rw [hact, serviceCore_active hg hport hdone (h := some (g.onBase b (x.now + g.rows.length * portLong g.fmt)))
    (c' := { c with pend := c.pend ++ (g.rows.mapIdx (rowPends c g b x.now)).flatten }), Core.arr_withPend, Core.setArr_withPend]
  simp only [spillBase_eq hnone hsome, hb, csOk_of hb8 hend, hnamed]
  refine Prod.ext rfl ?_
  refine (foldl_pend (ws := fun ij => rowPends c g b x.now ij.1 ij.2) (fun y ij => ?_) _ _).trans ?_
  · simp only [csWrite, arrUnit_ne_vector, map_mapIdx, spillImage_fst, rowPends]
  · simp only [map_mapIdx]

/-- MX.FILL attaches images of the group's format (R91). -/
theorem fillCore_active (hact : activeOn c p = true) (hb8 : csaAddr c a % 8 = 0)
    (hend : csaAddr c a + 16 * g.rows.length * imgSize (imgFmt g.fmt) ≤ 0xC000)
    (himgs : ∀ y ∈ groupImages g (csaAddr c a), (readImage c (imgFmt g.fmt) y).2 = fmtCode (imgFmt g.fmt)) :
    (fillCore k p a gi x c).1 = c.setArr k { c.arr k with
      groups := (c.arr k).groups.set gi (some (g.onBase (csaAddr c a) (x.now + g.rows.length * portLong g.fmt)))
      portTo := x.now + g.rows.length * portLong g.fmt } := by
  have hfmt : ((groupImages g (csaAddr c a)).map (readImage c (imgFmt g.fmt))).any
      (fun y => decide (y.2 ≠ fmtCode (imgFmt g.fmt))) = false := by
    simpa using himgs
  unfold fillCore
  rw [hact, serviceCore_active hg hport hdone (h := some (g.onBase (csaAddr c a) (x.now + g.rows.length * portLong g.fmt))) (c' := c)]
  simp only [csOk_of hb8 hend, hfmt, Bool.not_true, Bool.false_eq_true, if_false]
  rfl

end

/-- The cleared group, written out. -/
theorem onBase_eq (g : Group) (b fin : Nat) : g.onBase b fin = { g with
    sat := false
    base := some b
    rows := g.rows.map fun r => ⟨List.replicate 16 (Quire.zero g.fmt), 0, none, r.skew, r.doneAt, fin⟩ } := by
  simp only [Group.onBase, clearRows, zeroRow, Bool.not_false, Bool.and_true]

/-- Settles O28: on an active core `spillCore_active` and `fillCore_active`, on another `serviceCore_inactive`. -/
theorem groupsSpillAndFill : Obligations.GroupsSpillAndFill := by
  intro s d i c k p a gi g m now f fin becomes cleared inside hg hport hdone
  have hcleared (b : Nat) : cleared b = g.onBase b fin := (onBase_eq g b fin).symm
  refine ⟨?_, ?_, ?_⟩
  · intro att hact hnone hsome b old row hnamed hin
    refine .eq (f := spillCore k p a att gi) rfl ((spillCore_active hg hport hdone hact hnone hsome rfl hnamed hin.1 hin.2).trans ?_)
    rw [hcleared]
    rfl
  · intro hact hin himgs
    refine .eq (f := fillCore k p a gi) rfl ((fillCore_active hg hport hdone hact hin.1 hin.2 himgs).trans ?_)
    rw [hcleared]
    rfl
  · intro hact att held
    refine ⟨.eq (f := spillCore k p a att gi) rfl ?_, .eq (f := fillCore k p a gi) rfl ?_⟩
    · unfold spillCore
      rw [hact]
      exact serviceCore_inactive hg hport hdone
    · unfold fillCore
      rw [hact]
      exact serviceCore_inactive hg hport hdone

/-! ### Service operations of the MVP (R154) -/

theorem mapIdx_map {α β γ : Type} (f : Nat → β → γ) (g : α → β) (l : List α) :
    (l.map g).mapIdx f = l.mapIdx fun i a => f i (g a) :=
  List.ext_getElem? fun i => by simp [Option.map_map, Function.comp_def]

/-- In a list without repetition an element's position is its index. -/
theorem mapIdx_eq_map_idxOf {α β : Type} [BEq α] [LawfulBEq α] {l : List α} (hl : l.Nodup) (f : Nat → α → β) :
    l.mapIdx f = l.map fun a => f (l.idxOf a) a :=
  List.ext_getElem (by simp) fun i hi _ => by
    simp only [List.getElem_mapIdx, List.getElem_map, hl.idxOf_getElem i (by simpa using hi)]

/-- The core with its accumulator service busy until `t`. -/
def Core.mvpBusy (c : Core) (t : Nat) : Core := { c with mvp := { c.mvp with svcTo := t } }

@[simp] theorem mvAcc_mvpBusy (c : Core) (t n : Nat) : mvAcc (c.mvpBusy t) n = mvAcc c n := rfl
@[simp] theorem csaAddr_mvpBusy (c : Core) (t : Nat) (a : Csa) : csaAddr (c.mvpBusy t) a = csaAddr c a := rfl
@[simp] theorem csRead_mvpBusy (c : Core) (t a n : Nat) : csRead (c.mvpBusy t) a n = csRead c a n := rfl
@[simp] theorem readImage_mvpBusy (c : Core) (t : Nat) (f : Fmt) (a : Nat) : readImage (c.mvpBusy t) f a = readImage c f a := rfl

@[simp] theorem oldImage_mvpBusy (c : Core) (t : Nat) (f : Fmt) (base : Option Nat) (a : Nat) :
    oldImage (c.mvpBusy t) f base a = oldImage c f base a := by simp only [oldImage, readImage_mvpBusy]

@[simp] theorem accValue_mvpBusy (c : Core) (t : Nat) (q : AccQ) : accValue (c.mvpBusy t) q = accValue c q := by
  simp only [accValue, readImage_mvpBusy]

section
variable {is : List Nat} {cyc : Nat} {eff : Core → Core × List Raise} {x : CoreIn} {c : Core}
  (hport : c.mvp.svcTo ≤ x.now) (hheld : ∀ i ∈ is, (mvAcc c i).held ≤ x.now)
include hport hheld

theorem mvBad_nil : mvBad x.now c is = [] := by
  have hfind : is.find? (fun i => decide (x.now < (mvAcc c i).held)) = none := by
    simpa [List.find?_eq_none] using hheld
  simp [mvBad, Nat.not_lt.mpr hport, hfind]

theorem mvService_active :
    (mvService true is cyc eff x c).1 = (eff (c.mvpBusy (x.now + cyc))).1 := by
  simp only [mvService, mvBad_nil hport hheld, List.isEmpty_nil, if_true, Core.mvpBusy]

theorem mvService_inactive :
    (mvService false is cyc eff x c).1 = c.mvpBusy (x.now + cyc) := by
  simp only [mvService, mvBad_nil hport hheld, List.isEmpty_nil, if_true, Bool.false_eq_true, if_false, Core.mvpBusy]

end

theorem mem_maskList {mask : BitVec 16} {n : Nat} : n ∈ maskList mask ↔ n < 16 ∧ mask.getLsbD n = true := by simp [maskList]

theorem maskList_nodup (mask : BitVec 16) : (maskList mask).Nodup := List.nodup_range.filter _

theorem mvAcc_eq {c : Core} {n : Nat} (h : n < 16) : mvAcc c n = c.mvp.accs[n] := by simp [mvAcc, vget, h]

/-! ### Accumulators replaced -/

/-- The core with accumulator `n` replaced by `g n` for every `n` of a list. -/
def Core.setAccs (c : Core) (l : List Nat) (g : Nat → AccQ) : Core :=
  { c with mvp := { c.mvp with accs := c.mvp.accs.mapIdx fun n q => if n ∈ l then g n else q } }

theorem setAccs_nil (c : Core) (g : Nat → AccQ) : c.setAccs [] g = c := by
  have haccs : c.mvp.accs.mapIdx (fun n q => if n ∈ ([] : List Nat) then g n else q) = c.mvp.accs := by
    ext1 n hn
    simp
  rw [Core.setAccs, haccs]

theorem setAccs_cons (c : Core) (i : Nat) (l : List Nat) (g : Nat → AccQ) : (mvSet c i (g i)).setAccs l g = c.setAccs (i :: l) g := by
  have haccs : (vset c.mvp.accs i (g i)).mapIdx (fun n q => if n ∈ l then g n else q) =
      c.mvp.accs.mapIdx fun n q => if n ∈ i :: l then g n else q := by
    ext1 n hn
    simp only [Vector.getElem_mapIdx, vset, Vector.getElem_setIfInBounds, List.mem_cons]
    by_cases hni : n = i
    · subst hni; simp
    · simp [hni, Ne.symm hni]
  simp only [Core.setAccs, mvSet, haccs]

theorem foldl_mvSet (l : List Nat) (g : Nat → AccQ) (c : Core) : l.foldl (fun c i => mvSet c i (g i)) c = c.setAccs l g := by
  induction l generalizing c with
  | nil => exact (setAccs_nil c g).symm
  | cons i l ih => rw [List.foldl_cons, ih, setAccs_cons]

/-- A fold that writes for each accumulator of a list and then replaces it: the writes are those of the accumulators as they were. -/
theorem foldl_write_mvSet {β : Type} {step : Core × β → Nat → Core × β} {ws : Core → Nat → List Pend} {g : Nat → AccQ}
    (h : ∀ y i, (step y i).1 = mvSet { y.1 with pend := y.1.pend ++ ws y.1 i } i (g i))
    (hws : ∀ c i j l q, i ≠ j → ws (mvSet { c with pend := l } i q) j = ws c j) {l : List Nat} (hl : l.Nodup) (y : Core × β) :
    (l.foldl step y).1 = { y.1.setAccs l g with pend := y.1.pend ++ (l.map (ws y.1)).flatten } := by
  induction l generalizing y with
  | nil => simp [setAccs_nil]
  | cons i l ih =>
    obtain ⟨hi, hl⟩ := List.nodup_cons.mp hl
    have hlater : l.map (ws (mvSet { y.1 with pend := y.1.pend ++ ws y.1 i } i (g i))) = l.map (ws y.1) :=
      List.map_congr_left fun j hj => hws _ _ _ _ _ fun hij => hi (hij ▸ hj)
    rw [List.foldl_cons, ih hl, h, hlater, setAccs_cons, List.map_cons, List.flatten_cons, ← List.append_assoc]
    rfl

/-! ### MV.SPILL and MV.FILL (R90, R91, R284) -/

/-- The accumulators of a mask replaced, in the vector itself. -/
theorem setAccs_maskList (c : Core) (mask : BitVec 16) (g : Nat → AccQ → AccQ) :
    c.setAccs (maskList mask) (fun n => g n (mvAcc c n)) =
      { c with mvp := { c.mvp with accs := c.mvp.accs.mapIdx fun n q => if mask.getLsbD n then g n q else q } } := by
  have haccs : (c.mvp.accs.mapIdx fun n q => if n ∈ maskList mask then g n (mvAcc c n) else q) =
      c.mvp.accs.mapIdx fun n q => if mask.getLsbD n then g n q else q := by
    ext1 n hn
    simp only [Vector.getElem_mapIdx, mem_maskList, hn, true_and, mvAcc_eq hn]
  rw [Core.setAccs, haccs]

/-- A zero accumulator on its long base, in service until `fin` (R90, R91). -/
def AccQ.onBase (f : Fmt) (b fin : Nat) : AccQ := ⟨Quire.zero f, some b, 0, fin⟩

/-- The address of accumulator `n` among the images of a mask from a named address on (R284). -/
def maskAddr (c : Core) (a : Csa) (mask : BitVec 16) (n : Nat) : Nat := csaAddr c a + (maskList mask).idxOf n * imgSize c.mvp.fmt

theorem oldImage_isNone (c : Core) (f : Fmt) (base : Option Nat) (a : Nat) :
    oldImage c f base a = if base.isNone then Quire.zero f else (readImage c f a).1 := by cases base <;> rfl

/-- The timed writes of a spilled accumulator: its image at `b`, readable when the stage ends it (R154). -/
def accPends (c : Core) (f : Fmt) (ready b : Nat) (q : AccQ) : List Pend :=
  csPends ready false b (imgBytes (longAdd (oldImage c f q.base b) (q.q.toLong f)))

section
variable {p : Reg4} {a : Csa} {att : Bool} {mask : BitVec 16} {x : CoreIn} {c : Core} (hport : c.mvp.svcTo ≤ x.now)
  (hheld : ∀ i ∈ maskList mask, (mvAcc c i).held ≤ x.now)
include hport hheld

theorem mvSpillCore_active (hact : activeOn c p = true) (hnamed : csaAddr c a % 8 = 0) {b : Nat → Nat}
    (hbase : ∀ n ∈ maskList mask, spillBase (mvAcc c n).base att (maskAddr c a mask n) = some (b n))
    (hin : ∀ n ∈ maskList mask, b n % 8 = 0 ∧ b n + imgSize c.mvp.fmt ≤ 0xC000) :
    (mvSpillCore p a att mask x c).1 =
      let fin := x.now + (maskList mask).length * mvLong c.mvp.fmt
      { (c.mvpBusy fin).setAccs (maskList mask) (fun n => .onBase c.mvp.fmt (b n) fin) with
        pend := c.pend ++ ((maskList mask).map fun n =>
          accPends c c.mvp.fmt (x.now + ((maskList mask).idxOf n + 1) * mvLong c.mvp.fmt) (b n) (mvAcc c n)).flatten } := by
  have htgt : ((maskList mask).mapIdx fun k i => (k, i, spillBase (mvAcc c i).base att (csaAddr c a + k * imgSize c.mvp.fmt))) =
      (maskList mask).map fun n => ((maskList mask).idxOf n, n, some (b n)) := by
    rw [mapIdx_eq_map_idxOf (maskList_nodup mask)]
    exact List.map_congr_left fun n hn => by rw [← hbase n hn]; rfl
  have hsome : ((maskList mask).map fun n => ((maskList mask).idxOf n, n, some (b n))).find? (fun t => t.2.2.isNone) = none := by
    simp [List.find?_eq_none]
  have hok : ((maskList mask).map fun n => ((maskList mask).idxOf n, n, some (b n))).find?
      (fun t => !csOk (t.2.2.getD 0) 8 (imgSize c.mvp.fmt)) = none := by
    simp only [List.find?_eq_none, List.mem_map]
    rintro t ⟨n, hn, rfl⟩
    simp [csOk_of (hin n hn).1 (hin n hn).2]
  unfold mvSpillCore
  rw [hact, mvService_active hport hheld]
  simp only [mvAcc_mvpBusy, csaAddr_mvpBusy, hnamed, ne_eq, not_true_eq_false, decide_false, Bool.or_false, htgt, hsome, hok,
    List.foldl_map, Option.getD_some]
  refine (foldl_write_mvSet (g := fun n => .onBase c.mvp.fmt (b n) (x.now + (maskList mask).length * mvLong c.mvp.fmt))
    (ws := fun c' n => accPends c' c.mvp.fmt (x.now + ((maskList mask).idxOf n + 1) * mvLong c.mvp.fmt) (b n) (mvAcc c' n))
    (fun y n => ?_) (fun c' n n' l q hne => ?_) (maskList_nodup mask) _).trans ?_
  · simp only [spillImage_fst, csWrite]
    rfl
  · have hother : mvAcc (mvSet { c' with pend := l } n q) n' = mvAcc c' n' := by
      simp [mvAcc, mvSet, vget, vset, Vector.getElem?_setIfInBounds_ne hne]
    simp only [hother]
    rfl
  · simp only [mvAcc_mvpBusy, accPends, oldImage_mvpBusy]
    rfl

/-- MV.FILL attaches images of the MVP's format (R91). -/
theorem mvFillCore_active (hact : activeOn c p = true) (hnamed : csaAddr c a % 8 = 0)
    (hend : csaAddr c a + (maskList mask).length * imgSize c.mvp.fmt ≤ 0xC000)
    (himgs : ∀ n ∈ maskList mask, (readImage c c.mvp.fmt (maskAddr c a mask n)).2 = fmtCode c.mvp.fmt) :
    (mvFillCore p a mask x c).1 =
      let fin := x.now + (maskList mask).length * mvLong c.mvp.fmt
      (c.mvpBusy fin).setAccs (maskList mask)
        (fun n => .onBase c.mvp.fmt (maskAddr c a mask n) fin) := by
  have hfmt : ((maskList mask).map fun n => (n, maskAddr c a mask n, readImage c c.mvp.fmt (maskAddr c a mask n))).find?
      (fun y => decide (y.2.2.2 ≠ fmtCode c.mvp.fmt)) = none := by
    simpa [List.find?_eq_none] using himgs
  unfold maskAddr at hfmt
  unfold mvFillCore
  rw [hact, mvService_active hport hheld]
  simp only [csaAddr_mvpBusy, readImage_mvpBusy, csOk_of hnamed hend, mapIdx_eq_map_idxOf (maskList_nodup mask), hfmt, List.foldl_map]
  exact foldl_mvSet (maskList mask) (fun n =>
    .onBase c.mvp.fmt (maskAddr c a mask n) (x.now + (maskList mask).length * mvLong c.mvp.fmt)) _

end

/-! ### MV.CLOSE (R155 to R157) -/

/-- The elements that MV.CLOSE forms of its `n` accumulators `qs` under descriptor `e` (R135, R139, R155). -/
def closeOuts (c : Core) (x : CoreIn) (e : ExitDesc) (n : Nat) (qs : List AccQ) : List ElemOut :=
  qs.mapIdx fun j q =>
    exitElem e.out (pepperMode e.rnd x.seed e.stream x.issue.pstep.toNat (e.idxBase + j)) false (accValue c q).2.1
      (exitValue (accValue c q).1 (if e.chScale then some (chEntry (csRead c e.chTable (16 * n)) j).1 else none) none 0)

/-- The timed writes of MV.CLOSE at address `oa`: `n` elements, with ROWSTAT the statistics, and flags (R140, R142, R156). -/
def closePends (c : Core) (e : ExitDesc) (n oa ready op : Nat) (outs : List ElemOut) : List Pend :=
  let es := outs.map (·.1)
  let mx := rowMax e.out e.colBase es 0 none
  csPends ready false oa (packElems e.out es (csRead c oa ((n * fmtBits e.out + 7) / 8))) ++
    (if e.rowStat then csPends ready false (oa + 64) (slotBytes mx.1 mx.2) ++
      csPends ready false (oa + 72) (imgBytes ((rowSum e.out es).toLong e.out)) else []) ++
    exitFlags outs 2 op ready

/-- The accumulators that MV.CLOSE reads. -/
def closeAccs (c : Core) (acc n : Nat) : List AccQ := (List.range n).map fun j => mvAcc c (acc + j)

/-- The core with a close counted, its service busy until `t`. -/
def Core.mvpClosed (c : Core) (t : Nat) : Core := { c with mvp := { c.mvp with svcTo := t, exits := c.mvp.exits + 1 } }

section
variable {p : Reg4} {out exd n : Nat} {acc : Reg4} {x : CoreIn} {c : Core} (hport : c.mvp.svcTo ≤ x.now)
  (hheld : ∀ q ∈ closeAccs c acc n, q.held ≤ x.now)
include hport hheld

theorem mvCloseCore_inactive (hact : activeOn c p = false) : (mvCloseCore p out exd n acc x c).1 =
    c.mvpClosed (x.now + if (closeAccs c acc n).any (fun q => q.base.isSome) then 5 else 2) := by
  have hheld' : ∀ i ∈ (List.range n).map (acc.val + ·), (mvAcc c i).held ≤ x.now := by simpa [closeAccs] using hheld
  unfold mvCloseCore
  simp only [hact, mvService_inactive hport hheld', closeAccs, List.any_map]
  rfl

theorem mvCloseCore_active (hact : activeOn c p = true) {e : ExitDesc} (hdesc : parseExit (csRead c (32 * exd) 32) = some e)
    (hzp : e.zp = false) (htok : e.tokScale = false) (hch : e.chScale = true → csOk e.chTable 16 (16 * n) = true)
    (hend : 64 * out + (if e.rowStat then 72 + imgSize e.out else (n * fmtBits e.out + 7) / 8) ≤ 0xC000) :
    (mvCloseCore p out exd n acc x c).1 =
      let long := (closeAccs c acc n).any fun q => q.base.isSome
      let ready := x.now + 9 + (if e.out = .p32 then 1 else 0) + (if long then 3 else 0)
      { c.mvpClosed (x.now + if long then 5 else 2) with
        pend := c.pend ++ closePends c e n (64 * out) ready c.mvp.exits (closeOuts c x e n (closeAccs c acc n)) } := by
  have hheld' : ∀ i ∈ (List.range n).map (acc.val + ·), (mvAcc c i).held ≤ x.now := by simpa [closeAccs] using hheld
  have htable : (e.chScale && !csOk e.chTable 16 (16 * n)) = false := by
    cases h : e.chScale with
    | false => rfl
    | true => simp [hch h]
  have hlong : ((List.range n).map (acc.val + ·)).any (fun i => (mvAcc c i).base.isSome) =
      (closeAccs c acc n).any (fun q => q.base.isSome) := by
    simp only [closeAccs, List.any_map]
    rfl
  have houts : (List.range n).mapIdx (fun j i =>
      exitElem e.out (pepperMode e.rnd x.seed e.stream x.issue.pstep.toNat (e.idxBase + j)) false (accValue c (mvAcc c (acc + i))).2.1
        (exitValue (accValue c (mvAcc c (acc + i))).1
          (if e.chScale then some (chEntry (csRead c e.chTable (16 * n)) j).1 else none) none 0)) =
      closeOuts c x e n (closeAccs c acc n) := by
    simp only [closeOuts, closeAccs, mapIdx_map]
  have hunit : decide (2 = 3) = false := rfl
  unfold mvCloseCore
  simp only [hact, mvService_active hport hheld', csRead_mvpBusy, hdesc, hzp, htok, htable, csOk_of (Nat.mul_mod_right 64 out) hend,
    mvAcc_mvpBusy, accValue_mvpBusy, mapIdx_map, csWrite, Bool.false_or, Bool.not_true, Bool.false_eq_true, if_false, houts, hlong, hunit]
  cases hrow : e.rowStat with
  | false => simp only [closePends, hrow, Core.mvpBusy, Core.mvpClosed, Bool.false_eq_true, if_false, List.append_nil, List.append_assoc]
  | true => simp only [closePends, hrow, Core.mvpBusy, Core.mvpClosed, if_true, List.append_assoc]

end

/-- Settles O30: the closes are `mvCloseCore_active` and `mvCloseCore_inactive`; of a spill and a fill, `mvSpillCore_active` and
`mvFillCore_active` at an active core, `mvService_inactive` at another. -/
theorem mvpClosesSpillsFills : Obligations.MvpClosesSpillsFills := by
  intro s d i c p m now hport
  refine ⟨?_, ?_⟩
  · intro out exd n acc hok qs hheld long m'
    have hexec : exec (.mvClose d p out exd n acc) s = .next (slotOp s d 0x305 (mvCloseCore p out.toNat exd.toNat n acc)) := if_pos hok
    refine ⟨fun hact => .eq hexec (mvCloseCore_inactive hport hheld hact), ?_⟩
    intro x hact hdesc hzp htok hch len oa hend res outs es mx ready
    have hclose := mvCloseCore_active (x := coreIn s d i) (c := c) (n := n) hport hheld hact hdesc hzp htok hch hend
    refine .eq hexec (hclose.trans ?_)
    simp only [closePends, ← List.append_assoc]
    rfl
  · intro a mask hmask hheld is z named fin inside attach
    have hheld' : ∀ n ∈ maskList mask, (mvAcc c n).held ≤ now := fun n hn => by
      obtain ⟨hlt, hbit⟩ := mem_maskList.mp hn
      exact mvAcc_eq hlt ▸ hheld ⟨n, hlt⟩ hbit
    have hspill (att : Bool) : exec (.mvSpill d p a att mask) s = .next (slotOp s d 0x306 (mvSpillCore p a att mask)) := if_neg hmask
    have hfill : exec (.mvFill d p a false mask) s = .next (slotOp s d 0x307 (mvFillCore p a mask)) :=
      if_neg fun h => h.elim hmask Bool.false_ne_true
    refine ⟨?_, ?_, ?_⟩
    · intro hact att
      refine ⟨.eq (hspill att) ?_, .eq hfill ?_⟩
      · unfold mvSpillCore
        rw [hact]
        exact mvService_inactive hport hheld'
      · unfold mvFillCore
        rw [hact]
        exact mvService_inactive hport hheld'
    · intro att hact hnamed b hnames write
      have hacc (n : Nat) (hn : n ∈ maskList mask) : inside (b n (mvAcc c n)) ∧ ((mvAcc c n).base = none → att = false) ∧
          ∀ y, (mvAcc c n).base = some y → att = true ∨ y = named n := by
        obtain ⟨hlt, hbit⟩ := mem_maskList.mp hn
        exact mvAcc_eq (c := c) hlt ▸ hnames ⟨n, hlt⟩ hbit
      refine .eq (hspill att) ((mvSpillCore_active (b := fun n => b n (mvAcc c n)) hport hheld' hact hnamed
        (fun n hn => have ⟨_, hnone, hsome⟩ := hacc n hn; spillBase_eq hnone hsome) (fun n hn => (hacc n hn).1)).trans ?_)
      have haccs := setAccs_maskList (c.mvpBusy fin) mask fun n q => .onBase m.fmt (b n q) fin
      have hwrite (n : Nat) : accPends c c.mvp.fmt (now + (is.idxOf n + 1) * mvLong m.fmt) (b n (mvAcc c n)) (mvAcc c n) = write n := by
        rw [accPends, oldImage_isNone]
        rfl
      exact congrArg₂ (fun (c' : Core) (l : List (List Pend)) => { c' with pend := c.pend ++ l.flatten }) haccs
        (List.map_congr_left fun n _ => hwrite n)
    · intro hact hnamed hend himgs
      refine .eq hfill ((mvFillCore_active hport hheld' hact hnamed hend himgs).trans ?_)
      exact setAccs_maskList (c.mvpBusy fin) mask fun n _ => .onBase m.fmt (named n) fin

end Sys2Proof.Machine

/-! PROOFS. The matrix array family: configuration, loads and swaps, the loader's rows, streamed vectors, and the moves that
feed the arrays and the registers. -/
namespace Sys2Proof.Machine

/-! ### The loader (R113, R117) -/

/-- The bank that a load writes (R117). -/
def MArray.shadow (m : MArray) : Bank := if m.active1 then m.bank0 else m.bank1

/-- The array with another shadow bank and another job of its loader. -/
def MArray.withLoad (m : MArray) (b : Bank) (l : Option LoadJob) : MArray :=
  { m with bank0 := if m.active1 then b else m.bank0, bank1 := if m.active1 then m.bank1 else b, ldw := l }

section
variable (m : MArray) (b : Bank) (l : Option LoadJob)

theorem withLoad_bank : (m.withLoad b l).bank = m.bank := by
  cases h : m.active1 <;> simp [MArray.withLoad, MArray.bank, h]

theorem withLoad_shadow : (m.withLoad b l).shadow = b := by
  cases h : m.active1 <;> simp [MArray.withLoad, MArray.shadow, h]

theorem withLoad_self : m.withLoad m.shadow m.ldw = m := by
  rcases m with ⟨_, _, _, _, _, _, _, _, _ | _⟩ <;> rfl

theorem withLoad_withLoad (b' : Bank) (l' : Option LoadJob) : (m.withLoad b l).withLoad b' l' = m.withLoad b' l' := by
  rcases m with ⟨_, _, _, _, _, _, _, _, _ | _⟩ <;> rfl

end

/-- A list of 256 cells with row `i` replaced. -/
def setRow (i : Nat) (new l : List Nat) : List Nat := l.take (16 * i) ++ new ++ l.drop (16 * i + 16)

/-- Element `n` of a load, in the rows of core store that it names. -/
def LoadJob.elem (j : LoadJob) (cs : Mem) (n : Nat) : Nat :=
  elemAt (fmtBits j.fmt) (memRead cs (j.addr + n / 16 * j.stride) (rowBytes j.fmt)) (n % 16)

/-- 256 cells of which the first `i` rows are written and the others 0. -/
def firstRows (i : Nat) (f : Nat → Nat) : List Nat := (List.range 256).map fun n => if n / 16 < i then f n else 0

/-- A row written after those before it. -/
theorem setRow_firstRows {i : Nat} (hi : i < 16) (f : Nat → Nat) :
    setRow i ((List.range 16).map fun k => f (16 * i + k)) (firstRows i f) = firstRows (i + 1) f := by
  refine List.ext_getElem (by simp [setRow, firstRows]; omega) fun n hn hn' => ?_
  simp only [firstRows, List.length_map, List.length_range] at hn'
  simp only [setRow, firstRows, List.getElem_append, List.length_append, List.length_take, List.length_map, List.length_range,
    List.getElem_take, List.getElem_map, List.getElem_range, List.getElem_drop, show min (16 * i) 256 = 16 * i by omega]
  obtain hlt | ⟨hge, hlt⟩ | hge : n < 16 * i ∨ (16 * i ≤ n ∧ n < 16 * i + 16) ∨ 16 * i + 16 ≤ n := by omega
  · rw [dif_pos (by omega), dif_pos hlt, if_pos (by omega), if_pos (by omega)]
  · rw [dif_pos hlt, dif_neg (by omega), if_pos (by omega), Nat.add_sub_cancel' hge]
  · rw [dif_neg (by omega), if_neg (by omega), if_neg (by omega)]

/-- The shadow bank after the first `i` rows of a load. -/
def LoadJob.bankAfter (j : LoadJob) (cs : Mem) (i : Nat) : Bank :=
  ⟨j.fmt, firstRows i (j.elem cs), firstRows i fun n => cellRes j.fmt (j.elem cs n)⟩

theorem bankAfter_zero (j : LoadJob) (cs : Mem) : j.bankAfter cs 0 = ⟨j.fmt, List.replicate 256 0, List.replicate 256 0⟩ := by
  simp only [LoadJob.bankAfter, firstRows, Nat.not_lt_zero, if_false, List.map_const', List.length_range]

/-- The elements of row `i` of core store are those of cells 16i to 16i + 15. -/
theorem elemsOf_row (j : LoadJob) (cs : Mem) (i : Nat) :
    elemsOf j.fmt 16 (memRead cs (j.addr + i * j.stride) (rowBytes j.fmt)) = (List.range 16).map fun k => j.elem cs (16 * i + k) := by
  refine List.map_congr_left fun k hk => ?_
  have hk : k < 16 := List.mem_range.mp hk
  rw [LoadJob.elem, show (16 * i + k) / 16 = i by omega, show (16 * i + k) % 16 = k by omega]

/-- A bank with row `i` written, residue registers too (R113). -/
def Bank.putRow (b : Bank) (f : Fmt) (i : Nat) (es : List Nat) : Bank :=
  { b with w := setRow i es b.w, res := setRow i (es.map (cellRes f)) b.res }

theorem bankAfter_succ (j : LoadJob) (cs : Mem) {i : Nat} (hi : i < 16) : (j.bankAfter cs i).putRow j.fmt i
    (elemsOf j.fmt 16 (memRead cs (j.addr + i * j.stride) (rowBytes j.fmt))) = j.bankAfter cs (i + 1) := by
  rw [elemsOf_row, Bank.putRow, List.map_map]
  exact congrArg₂ (Bank.mk j.fmt) (setRow_firstRows hi _) (setRow_firstRows hi fun n => cellRes j.fmt (j.elem cs n))

section
variable {t : Nat} {cs : Mem} {m : MArray} {j : LoadJob} {i : Nat} (hj : m.ldw = some j) (ht : t = j.start + 2 + i)
include hj ht

/-- The loader in the cycle of a row that is loaded. -/
theorem loaderTick_row (hi : i < j.rows) : loaderTick t cs m =
    m.withLoad (m.shadow.putRow j.fmt i (elemsOf j.fmt 16 (memRead cs (j.addr + i * j.stride) (rowBytes j.fmt))))
      (if 15 ≤ i then none else some j) := by
  subst ht
  simp only [loaderTick, hj, Nat.not_lt.mpr (Nat.le_add_right _ i), if_false, Nat.add_sub_cancel_left, hi, if_true]
  cases h : m.active1 <;> by_cases hlast : 15 ≤ i <;> simp [MArray.withLoad, MArray.shadow, h, hlast, Bank.putRow, setRow]

/-- The loader in the cycle of a row of zeros, which the shadow bank holds from the start of the load on. -/
theorem loaderTick_zeros (hi : j.rows ≤ i) : loaderTick t cs m = m.withLoad m.shadow (if 15 ≤ i then none else some j) := by
  subst ht
  simp only [loaderTick, hj, Nat.not_lt.mpr (Nat.le_add_right _ i), if_false, Nat.add_sub_cancel_left, Nat.not_lt.mpr hi]
  split
  · cases h : m.active1 <;> simp [MArray.withLoad, MArray.shadow, h]
  · rw [← hj, withLoad_self]

end

/-- The array after `i` cycles of a load. -/
def MArray.loading (m : MArray) (j : LoadJob) (cs : Mem) (i : Nat) : MArray :=
  m.withLoad (j.bankAfter cs (min i j.rows)) (if 16 ≤ i then none else some j)

theorem loaderTick_loading (m : MArray) (j : LoadJob) (cs : Mem) {i : Nat} (hi : i < 16) :
    loaderTick (j.start + 2 + i) cs (m.loading j cs i) = m.loading j cs (i + 1) := by
  have hldw : (m.loading j cs i).ldw = some j := if_neg (Nat.not_le.mpr hi)
  have hshadow : (m.loading j cs i).shadow = j.bankAfter cs (min i j.rows) := withLoad_shadow ..
  have hjob : (if 15 ≤ i then none else some j) = if 16 ≤ i + 1 then none else some j := by simp
  by_cases hrow : i < j.rows
  · rw [loaderTick_row hldw rfl hrow, hshadow, hjob, Nat.min_eq_left hrow.le, bankAfter_succ j cs hi, MArray.loading,
      withLoad_withLoad, MArray.loading, Nat.min_eq_left hrow]
  · rw [loaderTick_zeros hldw rfl (Nat.le_of_not_lt hrow), hshadow, hjob, MArray.loading, withLoad_withLoad, MArray.loading,
      Nat.min_eq_right (by omega), Nat.min_eq_right (by omega)]

/-- `n` cycles of the loader, from that of the first row on. -/
theorem foldl_loaderTick (m : MArray) (j : LoadJob) (cs : Mem) {n : Nat} (hn : n ≤ 16) :
    (List.range n).foldl (fun m i => loaderTick (j.start + 2 + i) cs m) (m.loading j cs 0) = m.loading j cs n := by
  induction n with
  | zero => rfl
  | succ n ih => rw [List.range_succ, List.foldl_append, ih (by omega), List.foldl_cons, List.foldl_nil, loaderTick_loading m j cs hn]

/-- Settles O22, by induction on the cycles of the load: `loaderTick_loading` gives the rows that each of them leaves. -/
theorem loaderWritesEveryRow : Obligations.LoaderWritesEveryRow := by
  intro cs m j hj _ hrows hshadow el r
  have hstart : m.loading j cs 0 = m := by
    have hbank : j.bankAfter cs 0 = m.shadow := (bankAfter_zero j cs).trans hshadow.symm
    rw [MArray.loading, Nat.zero_min, hbank, if_neg (by decide), ← hj, withLoad_self]
  have hr : r = m.withLoad (j.bankAfter cs j.rows) none := by
    have hfold := foldl_loaderTick m j cs (n := 16) le_rfl
    rwa [hstart, MArray.loading, Nat.min_eq_right hrows] at hfold
  rw [hr]
  exact ⟨rfl, rfl, withLoad_bank .., withLoad_shadow m _ none⟩

/-! ### MX.CFG, MX.LDW and MX.SWAP (R106, R117 to R119) -/

section
variable {k : Arr} {p : Reg4} {f : Fmt} {rows stride : Nat} {a : Csa} {x : CoreIn} {c : Core}

theorem cfgCore_configures (hfeed : (c.arr k).feed = []) (cap : Nat) :
    (cfgCore k f cap x c).1 = c.setArr k { c.arr k with fmt := f, cap := cap, cfgAt := x.now } := by
  simp only [cfgCore, hfeed, List.isEmpty_nil, if_true]

theorem swapCore_swaps (hload : (c.arr k).loadEnd < x.now) : (swapCore k x c).1 = c.setArr k { c.arr k with
    active1 := !(c.arr k).active1, maxTp := 0
    winOpen := x.now + 15 + max (c.arr k).maxTp (timePer (c.arr k).fmt (c.arr k).cap) } := by
  simp only [swapCore, Nat.not_le.mpr hload, if_false]

variable (hload : (c.arr k).loadEnd < x.now) (hwin : (c.arr k).winOpen ≤ x.now + 2)
include hload hwin

theorem ldwCore_window : ¬(x.now ≤ (c.arr k).loadEnd ∨ x.now + 2 < (c.arr k).winOpen) := by omega

theorem ldwCore_inactive (hact : activeOn c p = false) :
    (ldwCore k p f rows stride a x c).1 = c.setArr k { c.arr k with loadEnd := x.now + 17 } := by
  simp only [ldwCore, ldwCore_window hload hwin, hact, Bool.false_eq_true, if_false]

/-- MX.LDW zeroes the shadow bank and gives its rows to the loader. -/
theorem ldwCore_active (hact : activeOn c p = true) (haddr : csaAddr c a % rowBytes f = 0) (hstride : stride % rowBytes f = 0)
    (hend : csaAddr c a + ((rows - 1) * stride + rowBytes f) ≤ 0xC000) : (ldwCore k p f rows stride a x c).1 =
      c.setArr k ({ c.arr k with loadEnd := x.now + 17 }.withLoad ⟨f, List.replicate 256 0, List.replicate 256 0⟩
        (some ⟨x.now, csaAddr c a, stride, rows, f⟩)) := by
  simp only [ldwCore, ldwCore_window hload hwin, hact, csOk_of haddr hend, hstride, decide_true, Bool.and_true, if_true, if_false]
  cases (c.arr k).active1 <;> rfl

end

/-- Settles O21: `cfgCore_configures`, `ldwCore_inactive` and `ldwCore_active`, `swapCore_swaps`. -/
theorem arraysAreConfiguredLoadedSwapped : Obligations.ArraysAreConfiguredLoadedSwapped := by
  intro s d i c k m now
  refine ⟨fun f cap hf hcap hfeed => ?_, fun p f rows stride a hf hone hrows hload hwin => ?_, fun hload => ?_⟩
  · refine .eq (f := cfgCore k f cap) (op := mxOp k 1) (if_pos ?_) (cfgCore_configures hfeed cap)
    rw [hf, hcap, Bool.and_true]
  · have hexec : exec (.mxLdw d k p f rows stride a) s = .next (slotOp s d (mxOp k 2) (ldwCore k p f rows stride.toNat a)) :=
      if_pos (by simp only [hf, hone, hrows, decide_true, Bool.and_true])
    exact ⟨fun hact => .eq hexec (ldwCore_inactive hload hwin hact), fun hact haddr hstride hend =>
      .eq hexec (ldwCore_active hload hwin hact haddr hstride (Nat.add_assoc .. ▸ hend))⟩
  · exact .eq (f := swapCore k) rfl (swapCore_swaps hload)

/-! ### MX.STRM (R104, R112, R127, R128) -/

/-- The array that has taken the oldest entry `e` of its feeder for a group that becomes `g`. -/
def MArray.streamed (m : MArray) (e : FeedEntry) (rest : List FeedEntry) (now : Nat) (gi : Fin 8) (g : Group) : MArray :=
  { m with feed := rest
           freeing := m.freeing.filter (fun y => decide (now < y)) ++ [now + timePer e.fmt m.cap - 1]
           busyTo := now + timePer e.fmt m.cap, maxTp := max m.maxTp (timePer e.fmt m.cap), groups := m.groups.set gi (some g) }

/-- A group with its saturated mark, written out: a posit group turns to NaR whole (R85). -/
theorem Group.mark_eq (g : Group) (sat : Bool) : g.mark sat =
    if sat = true ∧ g.fmt ≠ .i8 then { g with sat := true, rows := g.rows.map fun r => { r with accs := r.accs.map Quire.saturate } }
    else { g with sat := sat } := by
  simp only [Group.mark, Bool.and_eq_true, decide_eq_true_eq]

theorem Group.mark_limit (g : Group) (sat : Bool) (n : Nat) :
    ({ g.mark sat with limit := n } : Group) = ({ g with limit := n } : Group).mark sat := by
  simp only [Group.mark]
  split <;> rfl

/-- A tile row with a vector added, field by field (R112, R138). -/
theorem addVector_eq (f : Fmt) (e : FeedEntry) (cap : Nat) (b : Bank) (done : Nat) (r : TileRow) : addVector f e cap b done r =
    ⟨r.accs.mapIdx fun j q => q.addTerms (columnTerms f e cap b j) 16 (2 ^ 63), r.vecs + 1, some (r.tag.getD e.tag),
      r.skew || (match r.tag with | some y => decide (y ≠ e.tag) | none => false), max r.doneAt done, r.svcAt⟩ := by
  rcases r with ⟨_, _, _ | y, _⟩
  · rfl
  · simp only [addVector, decide_not, beq_eq_decide]

theorem satAfter_no_base {g : Group} (h : g.base = none) (c : Core) (t : Nat) (x w : Fmt) :
    satAfter c t g x w = (g.sat || decide ((if g.fmt = .i8 then intLimit x w else 2 ^ 31 - 1) < g.count)) := by
  simp only [satAfter, h, Option.isSome_none, Bool.false_eq_true, if_false]

section
variable {k : Arr} {p : Reg4} {ts : TileSel} {gi : Fin 8} {x : CoreIn} {c : Core} {e : FeedEntry} {rest : List FeedEntry} {g : Group}
  {n : Nat} {r : TileRow} (hbusy : (c.arr k).busyTo ≤ x.now) (hfeed : (c.arr k).feed = e :: rest) (hready : e.ready ≤ x.now)
  (hg : (c.arr k).groups[gi] = some g) (hlo : g.first ≤ tileOf c ts) (hhi : tileOf c ts < g.first + g.rows.length)
  (hn : tileOf c ts - g.first = n) (hr : nth g.rows n (zeroRow g.fmt 0) = r)
  (hsvc : r.svcAt ≤ x.now + timePer e.fmt (c.arr k).cap + 4) (hpair : pairOk e.fmt (c.arr k).bank.fmt g.fmt = true)
include hbusy hfeed hready hg hlo hhi hn hr hsvc hpair

/-- An inactive MX.STRM only holds its tile row. -/
theorem strmCore_inactive (hact : activeOn c p = false) : (strmCore k p ts gi x c).1 = c.setArr k ((c.arr k).streamed e rest x.now gi
    { g with rows := g.rows.set n { r with doneAt := max r.doneAt (x.now + 22 + timePer e.fmt (c.arr k).cap) } }) := by
  subst hn hr
  have htile : ¬(tileOf c ts < g.first ∨ g.first + g.rows.length ≤ tileOf c ts) := by omega
  simp only [strmCore, Nat.not_lt.mpr hbusy, hfeed, Nat.not_lt.mpr hready, hg, htile, Nat.not_lt.mpr hsvc, hpair, hact,
    Bool.not_true, Bool.not_false, Bool.false_eq_true, if_true, if_false, MArray.streamed]

/-- An active one adds the vector to its tile row and judges the group's term count (R85, R127, R128). -/
theorem strmCore_active (hact : activeOn c p = true) {g1 : Group}
    (hg1 : g1 = { g with
      rows := g.rows.set n (addVector g.fmt e (c.arr k).cap (c.arr k).bank (x.now + 22 + timePer e.fmt (c.arr k).cap) r)
      limit := intLimit e.fmt (c.arr k).bank.fmt }) :
    (strmCore k p ts gi x c).1 = c.setArr k ((c.arr k).streamed e rest x.now gi
      (g1.mark (satAfter c (x.now + timePer e.fmt (c.arr k).cap + 4) g1 e.fmt (c.arr k).bank.fmt))) := by
  subst hn hr hg1
  have htile : ¬(tileOf c ts < g.first ∨ g.first + g.rows.length ≤ tileOf c ts) := by omega
  simp only [strmCore, Nat.not_lt.mpr hbusy, hfeed, Nat.not_lt.mpr hready, hg, htile, Nat.not_lt.mpr hsvc, hpair, hact,
    Bool.not_true, Bool.false_eq_true, if_false, MArray.streamed, Group.mark_limit]
  rfl

end

/-- Settles O24: an inactive operation is `strmCore_inactive`; an active one is `strmCore_active`, its mark written out by
`Group.mark_eq` and, without a base, `satAfter_no_base`. -/
theorem streamedVectorsEnterTheArray : Obligations.StreamedVectorsEnterTheArray := by
  intro s d i c k p ts gi e rest g m now tp n r took hbusy hfeed hready hg hlo hhi hsvc hpair
  refine ⟨fun hact => .eq (f := strmCore k p ts gi) rfl (strmCore_inactive hbusy hfeed hready hg hlo hhi rfl rfl hsvc hpair hact),
    ?_⟩
  intro hact r' lim g1 nar
  have hg1 : g1 = { g with rows := g.rows.set n (addVector g.fmt e m.cap m.bank (now + 22 + tp) r), limit := lim } :=
    congrArg (fun y => ({ g with rows := g.rows.set n y, limit := lim } : Group)) (addVector_eq ..).symm
  have hcore := strmCore_active (x := coreIn s d i) hbusy hfeed hready hg hlo hhi rfl rfl hsvc hpair hact hg1
  refine ⟨satAfter c (now + tp + 4) g1 e.fmt m.bank.fmt, .eq (f := strmCore k p ts gi) rfl (hcore.trans ?_), fun h =>
    satAfter_no_base (g := g1) h ..⟩
  rw [Group.mark_eq]
  rfl

/-! ### The MOV slot (R103, R278, R289, R290) -/

theorem vget_fin {α : Type} {n : Nat} (v : Vector α n) (i : Fin n) (d : α) : vget v i d = v[i] := by simp [vget]

/-- The core with timed writes of its registers and core store added. -/
def Core.later (c : Core) (l : List Pend) : Core := { c with pend := c.pend ++ l }

section
variable {k : Arr} {p : Reg4} {a : Csa} {x : CoreIn} {c : Core}

theorem feedCore_inactive (hcfg : (c.arr k).cfgAt ≠ x.now) (hroom : feedUsed (c.arr k) x.now < 8) (hact : activeOn c p = false) :
    (feedCore p k a x c).1 = c.setArr k { c.arr k with
      feed := (c.arr k).feed ++ [⟨x.now + 3, (c.arr k).fmt, List.replicate 16 0, (c.arr k).tagReg⟩] } := by
  simp only [feedCore, hcfg, Nat.not_le.mpr hroom, hact, Bool.not_false, if_true, if_false]

theorem feedCore_active (hcfg : (c.arr k).cfgAt ≠ x.now) (hroom : feedUsed (c.arr k) x.now < 8) (hact : activeOn c p = true)
    (hok : csOk (csaAddr c a) (feedBytes (c.arr k).fmt) (feedBytes (c.arr k).fmt) = true) :
    (feedCore p k a x c).1 = c.setArr k { c.arr k with feed := (c.arr k).feed ++ [⟨x.now + 3, (c.arr k).fmt,
      elemsOf (c.arr k).fmt 16 (csRead c (csaAddr c a) (feedBytes (c.arr k).fmt)), (c.arr k).tagReg⟩] } := by
  simp only [feedCore, hcfg, Nat.not_le.mpr hroom, hact, hok, Bool.not_true, Bool.false_eq_true, if_false]

theorem tagCore_takes (hok : csOk (csaAddr c a) 16 16 = true) :
    (tagCore k a x c).1 = c.setArr k { c.arr k with tagReg := memGet c.cs (csaAddr c a) } := by
  simp only [tagCore, hok, if_true]

theorem movCs_inactive (hact : activeOn c p = false) (n : Nat) (f : CoreIn → Nat → Core → Core × List Raise) :
    (movCs p a n f x c).1 = c := by
  simp only [movCs, hact, Bool.false_eq_true, if_false]

theorem movCs_active (hact : activeOn c p = true) {n : Nat} (hok : csOk (csaAddr c a) n n = true)
    (f : CoreIn → Nat → Core → Core × List Raise) : movCs p a n f x c = f x (csaAddr c a) c := by
  simp only [movCs, hact, hok, if_true]

theorem cpyCore_copies (hact : activeOn c p = true) {dst : Csa} (hok : csOk (csaAddr c a) 64 64 = true)
    (hdst : csOk (csaAddr c dst) 64 64 = true) :
    (cpyCore p dst a x c).1 = c.later (csPends (x.now + 3) false (csaAddr c dst) (csRead c (csaAddr c a) 64)) := by
  rw [cpyCore, movCs_active hact hok]
  simp only [hdst, if_true]
  rfl

theorem aWrite_active (hact : activeOn c p = true) (r : Reg4) (f : CoreIn → Core → BitVec 16) :
    (aWrite p r f x c).1 = c.later [⟨x.now + 1, false, .a r (f x c)⟩] := by
  simp only [aWrite, hact, if_true, Core.later]

theorem aWrite_inactive (hact : activeOn c p = false) (r : Reg4) (f : CoreIn → Core → BitVec 16) : (aWrite p r f x c).1 = c := by
  simp only [aWrite, hact, Bool.false_eq_true, if_false]

end

/-- The six positions that MOV.AIDX names (R289). -/
def aidxPositions (x : CoreIn) : List Nat :=
  [x.idx % x.n, x.idx / x.n, x.die % 4 * x.n + x.idx % x.n, x.die / 4 * x.n + x.idx / x.n, x.idx, x.die]

theorem aidxValue_eq {x : CoreIn} {what v : Nat} (h : (aidxPositions x)[what]? = some v) : what < 6 ∧ aidxValue what x = v := by
  have hlt : what < 6 := (List.getElem?_eq_some_iff.mp h).1
  refine ⟨hlt, ?_⟩
  match what, hlt with
  | 0, _ | 1, _ | 2, _ | 3, _ | 4, _ | 5, _ => exact Option.some.inj h

/-- MOV.AIDX of a listed position is a write of an address register. -/
theorem exec_movAidx (s : State) (d : Die) (p r : Reg4) {what : Fin 8} (h : what.val < 6) : exec (.movAidx d p r what) s =
    .next (slotOp s d 0x50A (aWrite p r fun x _ => BitVec.ofNat 16 (aidxValue what x))) := if_pos h

/-- Settles O39: each row is the equation of its core function; inactive, those of core store are `movCs_inactive`, the writes of
address registers `aWrite_inactive`. -/
theorem coresMoveData : Obligations.CoresMoveData := by
  intro s d i c p a now ad wrote stored
  refine ⟨?_, ?_, ?_, ?_, ?_, ?_⟩
  · intro k hcfg hroom m put
    exact ⟨fun hact => .eq (f := feedCore p k a) rfl (feedCore_inactive hcfg hroom hact),
      fun hact hok => .eq (f := feedCore p k a) rfl (feedCore_active hcfg hroom hact hok)⟩
  · exact fun k hok => .eq (f := tagCore k a) rfl (tagCore_takes hok)
  · intro hact hok
    exact ⟨fun vd => .eq (f := ldvCore p vd a) rfl (congrArg Prod.fst (movCs_active hact hok _)),
      fun va => .eq (f := stvCore p va a) rfl (congrArg Prod.fst (movCs_active hact hok _)),
      fun dst hdst => .eq (f := cpyCore p dst a) rfl (cpyCore_copies hact hok hdst)⟩
  · intro hact hok
    exact ⟨fun pd => .eq (f := ldpCore p pd a) rfl (congrArg Prod.fst (movCs_active hact hok _)),
      fun pa => .eq (f := stpCore p pa a) rfl (congrArg Prod.fst (movCs_active hact hok _))⟩
  · intro hact r q sa imm
    refine ⟨.eq rfl (aWrite_active hact r _), .eq rfl ((aWrite_active hact r _).trans ?_), .eq rfl (aWrite_active hact r _),
      fun what v hv => ?_⟩
    · rw [if_pos rfl, vget_fin]
      rfl
    · obtain ⟨hlt, hval⟩ := aidxValue_eq (x := coreIn s d i) hv
      refine .eq (exec_movAidx s d p r hlt) ((aWrite_active hact r _).trans ?_)
      rw [hval]
      rfl
  · intro hact cmd hcmd
    rcases hcmd with ⟨r, rfl | rfl⟩ | ⟨r, rfl | rfl⟩ | ⟨b, rfl⟩ | ⟨src, r, sa, imm, rfl⟩ | ⟨r, q, imm, rfl⟩ | ⟨r, what, rfl, h⟩
    · exact .eq (f := ldvCore p r a) rfl (movCs_inactive hact ..)
    · exact .eq (f := stvCore p r a) rfl (movCs_inactive hact ..)
    · exact .eq (f := ldpCore p r a) rfl (movCs_inactive hact ..)
    · exact .eq (f := stpCore p r a) rfl (movCs_inactive hact ..)
    · exact .eq (f := cpyCore p b a) rfl (movCs_inactive hact ..)
    · exact .eq rfl (aWrite_inactive hact r _)
    · exact .eq rfl (aWrite_inactive hact r _)
    · exact .eq (exec_movAidx s d p r h) (aWrite_inactive hact r _)

end Sys2Proof.Machine

/-! PROOFS. The family of accumulator memory and tile exit: groups opened, cleared and freed; closes into the tile queue. -/
namespace Sys2Proof.Machine

/-! ### MX.OPEN, MX.ZERO and MX.FREE (R80, R124, R125, R131) -/

/-- The array with entry `gi` of its group table replaced, its port busy until `t`. -/
def MArray.withGroup (m : MArray) (gi : Fin 8) (g : Option Group) (t : Nat) : MArray :=
  { m with groups := m.groups.set gi g, portTo := t }

theorem clearRows_marks (g : Group) (fin : Nat) : clearRows g fin true = { g with
    sat := false
    rows := g.rows.map fun r => ⟨List.replicate 16 (Quire.zero g.fmt), 0, none, false, r.doneAt, fin⟩ } := by
  simp only [clearRows, zeroRow, Bool.not_true, Bool.and_false]

section
variable {k : Arr} {gi : Fin 8} {x : CoreIn} {c : Core} (hport : (c.arr k).portTo ≤ x.now)
include hport

/-- MX.OPEN of a free entry gives it a group of zero tile rows that lies in the memory apart from the others (R124). -/
theorem openCore_opens {n first : Nat} {f : Fmt} (hend : first + n ≤ tileRows f)
    (hapart : overlaps (c.arr k) gi (groupRange f first n) = false) (hfree : (c.arr k).groups[gi] = none) :
    (openCore k n first f gi x c).1 = c.setArr k ((c.arr k).withGroup gi
      (some ⟨f, first, List.replicate n (zeroRow f (x.now + n * portShort f)), false, none, 0⟩) (x.now + n * portShort f)) := by
  simp only [openCore, Nat.not_lt.mpr hend, hapart, hfree, Nat.not_lt.mpr hport, Option.isSome_none, Bool.false_eq_true, if_false,
    List.append_nil, List.isEmpty_nil, if_true, MArray.withGroup]

variable {g : Group} (hg : (c.arr k).groups[gi] = some g) (hdone : ∀ r ∈ g.rows, r.doneAt ≤ x.now)
include hg hdone

theorem zeroCore_active {p : Reg4} (hact : activeOn c p = true) : (zeroCore k p gi x c).1 = c.setArr k ((c.arr k).withGroup gi
    (some (clearRows g (x.now + g.rows.length * portShort g.fmt) true)) (x.now + g.rows.length * portShort g.fmt)) := by
  rw [zeroCore, hact]
  exact serviceCore_active hg hport hdone rfl

theorem zeroCore_inactive {p : Reg4} (hact : activeOn c p = false) : (zeroCore k p gi x c).1 = c.setArr k ((c.arr k).withGroup gi
    (some (holdRows g (x.now + g.rows.length * portShort g.fmt))) (x.now + g.rows.length * portShort g.fmt)) := by
  rw [zeroCore, hact]
  exact serviceCore_inactive hg hport hdone

theorem freeCore_frees : (freeCore k gi x c).1 = c.setArr k ((c.arr k).withGroup gi none (x.now + 1)) := by
  rw [freeCore, hg, Option.isSome_some, if_pos rfl]
  exact serviceCore_active hg hport hdone rfl

end

/-- Settles O23: `openCore_opens`, `zeroCore_active` and `zeroCore_inactive`, `freeCore_frees`. -/
theorem groupsOpenClearAndFree : Obligations.GroupsOpenClearAndFree := by
  intro s d i c k gi m now hport
  refine ⟨?_, ?_⟩
  · intro n first f hf hone hn hend hapart hfree
    refine .eq (f := openCore k n.toNat first f gi) (op := mxOp k 8) (if_pos ?_) (openCore_opens hport hend hapart hfree)
    simp only [hf, hone, hn, decide_true, Bool.and_true]
  · intro g hg hdone fin
    refine ⟨fun p hact => ?_, fun p hact => ?_, ?_⟩
    · refine .eq (f := zeroCore k p gi) rfl ((zeroCore_active hport hg hdone hact).trans ?_)
      rw [clearRows_marks]
      rfl
    · exact .eq (f := zeroCore k p gi) rfl (zeroCore_inactive hport hg hdone hact)
    · exact .eq (f := freeCore k gi) rfl (freeCore_frees hport hg hdone)

/-! ### MX.CLOSE (R133 to R143) -/

/-- The array with a close of group `g` counted (R142), its port busy with it (R131). -/
def MArray.closing (m : MArray) (g : Group) (now : Nat) : MArray :=
  { m with exits := m.exits + 1, portTo := now + (if g.base.isSome then portCloseLong g.fmt else portShort g.fmt) }

/-- A descriptor is legal for tile row `n` of a group of format `f` (R134, R135): a zero point has an integer group, and the tables
that it uses lie in core store. -/
def ExitDesc.Legal (e : ExitDesc) (f : Fmt) (n : Nat) : Prop :=
  (e.zp = true → f = .i8) ∧ (e.zp = true ∨ e.chScale = true → csOk e.chTable 16 256 = true) ∧
    (e.zp = true ∨ e.tokScale = true → csOk (e.tokTable + 16 * n) 16 16 = true)

/-- The token record of tile row `n` (R134, Table 6-5). -/
def ExitDesc.token (e : ExitDesc) (c : Core) (n : Nat) : List Byte := csRead c (e.tokTable + 16 * n) 16

/-- Column `j` of the channel table of a descriptor (Table 6-5). -/
def ExitDesc.channel (e : ExitDesc) (c : Core) (j : Nat) : Nat × Int × Int := chEntry (csRead c e.chTable 256) j

/-- The correction terms of column `j` of tile row `n` under a zero point (R135). -/
def ExitDesc.correction (e : ExitDesc) (c : Core) (n j : Nat) : Int :=
  let zt := toSigned 16 (fieldAt (e.token c n) 8 2)
  if e.zp then -(zt * (e.channel c j).2.1) - (e.channel c j).2.2 * toSigned 32 (fieldAt (e.token c n) 4 4) +
    (e.k : Int) * zt * (e.channel c j).2.2
  else 0

/-- Vectors of different tokens met in tile row `n`, or its data tag is not that of the token record read (R138). -/
def ExitDesc.skewed (e : ExitDesc) (c : Core) (n : Nat) (r : TileRow) : Bool :=
  r.skew || ((e.zp || e.tokScale) && (match r.tag with | some y => decide (y ≠ nth (e.token c n) 10 0) | none => false))

/-- The elements that MX.CLOSE forms of tile row `n` of group `g` under descriptor `e` (Table 6-7). -/
def tileOuts (c : Core) (x : CoreIn) (e : ExitDesc) (g : Group) (n : Nat) (r : TileRow) : List ElemOut :=
  r.accs.mapIdx fun j q =>
    exitElem e.out (pepperMode e.rnd x.seed e.stream x.issue.pstep.toNat (e.idxBase + n * e.idxRow + j)) (e.skewed c n r)
      (g.sat || baseSat c g || groupOver c x.now g)
      (exitValue (exitAcc c g n j q).1 (if e.chScale then some (e.channel c j).1 else none)
        (if e.tokScale then some (fieldAt (e.token c n) 0 4) else none) (e.correction c n j))

/-- The tile queue entry of elements `outs` of tile row `t` (R140, R141). -/
def tileEntry (k : Arr) (e : ExitDesc) (gi : Fin 8) (t enter : Nat) (long : Bool) (outs : List ElemOut) : TileEntry :=
  let es := outs.map (·.1)
  let mx := rowMax e.out e.colBase es 0 none
  ⟨enter, e.out, es, BitVec.ofNat 32 (statusWord k gi t long outs), if e.rowStat then some (mx.1, mx.2, rowSum e.out es) else none⟩

/-- The tile queue entry of a core that does not act (R245, Table 6-8): elements 0, of the format that the descriptor's first byte
names, and no flag. -/
def placeholder (k : Arr) (exd : Nat) (gi : Fin 8) (t enter : Nat) (c : Core) : TileEntry :=
  ⟨enter, match fmtOf (byteAt (csRead c (32 * exd) 32) 0 % 16) with | some f => f | none => .p8, List.replicate 16 0,
    BitVec.ofNat 32 (256 * 15 + 4096 * 15 + 65536 * arrUnit k + 2 ^ 17 * gi + 2 ^ 20 * t), none⟩

/-- A legal descriptor passes the checks of MX.CLOSE. -/
theorem ExitDesc.Legal.admitted {e : ExitDesc} {f : Fmt} {n : Nat} (h : e.Legal f n) :
    (e.zp && !decide (f = .i8) || (e.zp || e.chScale) && !csOk e.chTable 16 256 ||
      (e.zp || e.tokScale) && !csOk (e.tokTable + 16 * n) 16 16) = false := by
  obtain ⟨hzp, hch, htok⟩ := h
  simp only [Bool.or_eq_false_iff, Bool.and_eq_false_imp, Bool.or_eq_true, Bool.not_eq_false', decide_eq_true_eq]
  exact ⟨⟨hzp, hch⟩, htok⟩

section
variable {k : Arr} {p : Reg4} {exd : Nat} {ts : TileSel} {gi : Fin 8} {x : CoreIn} {c : Core} {g : Group}
  (hg : (c.arr k).groups[gi] = some g) (hport : (c.arr k).portTo ≤ x.now)
include hg hport

/-- An inactive MX.CLOSE enters a placeholder (R245). -/
theorem closeCore_inactive (hact : activeOn c p = false) : (closeCore k p exd ts gi x c).1 =
    { c.setArr k ((c.arr k).closing g x.now) with
      tq := tqInsert (placeholder k exd gi (tileOf c ts) (x.now + exitDelay g.fmt g.base.isSome) c) c.tq } := by
  simp only [closeCore, hg, Nat.not_lt.mpr hport, hact, Bool.not_false, if_true, if_false]
  rfl

/-- An active one with a legal descriptor enters the row's elements and reports their flags as they enter (R142). -/
theorem closeCore_active {n : Nat} {r : TileRow} {e : ExitDesc} (hact : activeOn c p = true) (hlo : g.first ≤ tileOf c ts)
    (hhi : tileOf c ts < g.first + g.rows.length) (hn : tileOf c ts - g.first = n) (hr : nth g.rows n (zeroRow g.fmt 0) = r)
    (hdone : r.doneAt ≤ x.now) (hdesc : parseExit (csRead c (32 * exd) 32) = some e) (hlegal : e.Legal g.fmt n) :
    (closeCore k p exd ts gi x c).1 =
      let enter := x.now + exitDelay g.fmt g.base.isSome
      let outs := tileOuts c x e g n r
      { c.setArr k ((c.arr k).closing g x.now) with
        tq := tqInsert (tileEntry k e gi (tileOf c ts) enter g.base.isSome outs) c.tq
        pend := c.pend ++ exitFlags outs (arrUnit k) (c.arr k).exits enter } := by
  subst hn hr
  have htile : ¬(tileOf c ts < g.first ∨ g.first + g.rows.length ≤ tileOf c ts) := by omega
  simp only [closeCore, hg, Nat.not_lt.mpr hport, hact, htile, Nat.not_lt.mpr hdone, hdesc, hlegal.admitted, List.mapIdx_mapIdx,
    tileOuts, ExitDesc.skewed, ne_eq, decide_not, beq_eq_decide, Bool.not_true, Bool.false_eq_true, if_false]
  rfl

end

/-- Settles O27: `closeCore_inactive` and `closeCore_active`. -/
theorem closesEnterTheTileQueue : Obligations.ClosesEnterTheTileQueue := by
  intro s d i c k p exd ts gi g m now long n r enter m' hexd hg hport
  have hexec : exec (.mxClose d k p exd ts gi) s = .next (slotOp s d (mxOp k 0xA) (closeCore k p exd.toNat ts gi)) := if_pos hexd
  refine ⟨fun hact => ?_, ?_⟩
  · exact ⟨placeholder k exd.toNat gi (tileOf c ts) enter c, rfl, rfl, .eq hexec (closeCore_inactive hg hport hact)⟩
  · intro x hact hlo hhi hdone hdesc hzp hch htok tok ch zt corr skew out outs es mx e
    exact .eq hexec (closeCore_active (x := coreIn s d i) hg hport hact hlo hhi rfl rfl hdone hdesc ⟨hzp, hch, htok⟩)

end Sys2Proof.Machine

/-! PROOFS. The family of the matrix-vector path: accumulators opened, cleared and added to. -/
namespace Sys2Proof.Machine

/-! ### Accumulators replaced by what the core makes of them -/

theorem setAccs_congr (c : Core) {l : List Nat} {g g' : Nat → AccQ} (h : ∀ n ∈ l, g n = g' n) : c.setAccs l g = c.setAccs l g' := by
  have haccs : (fun n q => if n ∈ l then g n else q) = fun n q => if n ∈ l then g' n else q :=
    funext₂ fun n q => ite_congr rfl (h n) fun _ => rfl
  rw [Core.setAccs, haccs, Core.setAccs]

/-- A fold that replaces each accumulator of a list: what becomes of one depends on no other. -/
theorem foldl_mvSet_of_indep {step : Core → Nat → Core} {g : Core → Nat → AccQ} (h : ∀ c i, step c i = mvSet c i (g c i))
    (hg : ∀ c i j q, i ≠ j → g (mvSet c i q) j = g c j) {l : List Nat} (hl : l.Nodup) (c : Core) :
    l.foldl step c = c.setAccs l (g c) := by
  induction l generalizing c with
  | nil => exact (setAccs_nil c (g c)).symm
  | cons i l ih =>
    obtain ⟨hi, hl⟩ := List.nodup_cons.mp hl
    rw [List.foldl_cons, h, ih hl, setAccs_congr _ fun j hj => hg c i j _ fun hij => hi (hij ▸ hj), setAccs_cons]

theorem mvAcc_mvSet_of_ne {i j : Nat} (h : i ≠ j) (c : Core) (q : AccQ) : mvAcc (mvSet c i q) j = mvAcc c j := by
  simp [mvAcc, mvSet, vget, vset, Vector.getElem?_setIfInBounds_ne h]

theorem mvSet_fin (c : Core) (i : Fin 16) (q : AccQ) : mvSet c i q = { c with mvp := { c.mvp with accs := c.mvp.accs.set i q } } := by
  rw [mvSet, vset_eq_set i.isLt]

theorem mem_run {a n h : Nat} : h ∈ (List.range n).map (a + ·) ↔ a ≤ h ∧ h < a + n := by
  rw [← List.range'_eq_map_range, List.mem_range'_1]

/-- A run of `n` accumulators from `a` on replaced, in the vector itself. -/
theorem setAccs_run (c : Core) (a n : Nat) (g : Nat → AccQ → AccQ) :
    c.setAccs ((List.range n).map (a + ·)) (fun h => g h (mvAcc c h)) =
      { c with mvp := { c.mvp with accs := c.mvp.accs.mapIdx fun h q => if a ≤ h ∧ h < a + n then g h q else q } } := by
  have haccs : (c.mvp.accs.mapIdx fun h q => if h ∈ (List.range n).map (a + ·) then g h (mvAcc c h) else q) =
      c.mvp.accs.mapIdx fun h q => if a ≤ h ∧ h < a + n then g h q else q := by
    ext1 h hlt
    simp only [Vector.getElem_mapIdx, mem_run, mvAcc_eq hlt]
  rw [Core.setAccs, haccs]

/-! ### MV.OPEN and MV.ZERO (R147) -/

section
variable {x : CoreIn} {c : Core} (hport : c.mvp.svcTo ≤ x.now)
include hport

theorem mvOpenCore_opens (hheld : ∀ n ∈ List.range 16, (mvAcc c n).held ≤ x.now) (f : Fmt) : (mvOpenCore f x c).1 =
    { c with mvp := { c.mvp with
      fmt := f, accs := Vector.replicate 16 ⟨Quire.zero f, none, 0, x.now + 1⟩, svcTo := x.now + 1 } } :=
  mvService_active hport hheld

theorem mvZeroCore_active {p : Reg4} {mask : BitVec 16} (hheld : ∀ n ∈ maskList mask, (mvAcc c n).held ≤ x.now)
    (hact : activeOn c p = true) : (mvZeroCore p mask x c).1 =
      (c.mvpBusy (x.now + 1)).setAccs (maskList mask) fun _ => ⟨Quire.zero c.mvp.fmt, none, 0, x.now + 1⟩ := by
  rw [mvZeroCore, hact]
  exact (mvService_active hport hheld).trans (foldl_mvSet_of_indep (g := fun c _ => ⟨Quire.zero c.mvp.fmt, none, 0, x.now + 1⟩)
    (fun _ _ => rfl) (fun _ _ _ _ _ => rfl) (maskList_nodup mask) _)

end

/-! ### MV.DOT and MV.COL (R148 to R153) -/

/-- An accumulator to which terms are added in this cycle (R85, R153). -/
def AccQ.adding (q : AccQ) (c : Core) (now : Nat) (ts : List Term) : AccQ :=
  { q with q := q.q.addTerms ts ts.length (mvLimit c (now + 8) q), held := now + 11 }

theorem mvAdd_eq (now : Nat) (ts : List Term) (c : Core) (i : Nat) :
    mvAdd now ts c i = mvSet c i ((mvAcc c i).adding c now ts) := rfl

/-- What an accumulator becomes depends on core store, not on the other accumulators. -/
theorem adding_mvSet (q : AccQ) (c : Core) (i : Nat) (q' : AccQ) (now : Nat) (ts : List Term) :
    q.adding (mvSet c i q') now ts = q.adding c now ts := rfl

/-- The `n` weights that MV.DOT and MV.COL read (R149). -/
def mvWeights (wf xf : Fmt) (a : Csa) (c : Core) : List Nat :=
  elemsOf wf (mvCount wf xf) (csRead c (csaAddr c a) (mvCount wf xf * fmtBits wf / 8))

/-- The term of element `e + k` of a vector register and weight `h` (R150, R151). -/
def mvTerm (wf xf : Fmt) (vn e : Reg6) (a : Csa) (c : Core) (k h : Nat) : Term :=
  prodTerm c.mvp.fmt xf wf 0 (elemAt (fmtBits xf) (vRead c vn) (e.val + k)) (nth (mvWeights wf xf a c) h 0)

/-- The accumulators of an admitted MV.COL exist (R285). -/
theorem mvColOk_run {wf xf : Fmt} {acc : Reg4} {k : Reg6} (h : mvColOk wf xf acc k = true) : acc.val + mvCount wf xf ≤ 16 := by
  obtain ⟨_, hacc⟩ := Bool.and_eq_true_iff.mp h
  split at hacc
  next h4 =>
    have hmod := of_decide_eq_true hacc
    omega
  next h4 =>
    have h16 : mvCount wf xf = 16 := (ite_eq_or_eq ..).resolve_left h4
    exact (congrArg₂ (· + ·) (of_decide_eq_true hacc) h16).le

theorem mvReachEarly_eq_false {now : Nat} {c : Core} {is : List Nat} (h : ∀ i ∈ is, (mvAcc c i).svcAt ≤ now + 8) :
    mvReachEarly now c is = false := by
  simpa [mvReachEarly] using h

section
variable {p : Reg4} {wf xf : Fmt} {acc : Reg4} {vn e : Reg6} {a : Csa} {x : CoreIn} {c : Core}

theorem mvDotCore_inactive (hact : activeOn c p = false) : (mvDotCore p wf xf acc vn e a x c).1 = c := by
  unfold mvDotCore
  rw [hact]
  split <;> rfl

variable (hact : activeOn c p = true) (hpair : mvPairOk wf xf c.mvp.fmt = true)
  (hread : csOk (csaAddr c a) (mvCount wf xf * fmtBits wf / 8) (mvCount wf xf * fmtBits wf / 8) = true)
include hact hpair hread

theorem mvDotCore_adds (hstart : e.val % mvCount wf xf = 0) (hend : e.val + mvCount wf xf ≤ regElems xf)
    (hsvc : (mvAcc c acc).svcAt ≤ x.now + 8) : (mvDotCore p wf xf acc vn e a x c).1 =
      mvSet c acc ((mvAcc c acc).adding c x.now ((List.range (mvCount wf xf)).map fun h => mvTerm wf xf vn e a c h h)) := by
  have hearly : mvReachEarly x.now c [acc.val] = false := mvReachEarly_eq_false (by simpa using hsvc)
  simp only [mvDotCore, hpair, hact, hread, hstart, Nat.not_lt.mpr hend, hearly, Bool.not_true, Bool.false_eq_true, if_false,
    ne_eq, not_true_eq_false, decide_false, Bool.or_false]
  exact mvAdd_eq ..

theorem mvColCore_adds (hsvc : ∀ i ∈ (List.range (mvCount wf xf)).map (acc.val + ·), (mvAcc c i).svcAt ≤ x.now + 8) :
    (mvColCore p wf xf acc vn e a x c).1 = c.setAccs ((List.range (mvCount wf xf)).map (acc.val + ·))
      fun h => (mvAcc c h).adding c x.now [mvTerm wf xf vn e a c 0 (h - acc.val)] := by
  simp only [mvColCore, hpair, hact, hread, mvReachEarly_eq_false hsvc, Bool.not_true, Bool.false_eq_true, if_false]
  refine foldl_mvSet_of_indep (g := fun c' h => (mvAcc c' h).adding c' x.now [prodTerm c'.mvp.fmt xf wf 0
    (elemAt (fmtBits xf) (vRead c vn) e) (nth (mvWeights wf xf a c) (h - acc.val) 0)]) (fun _ _ => mvAdd_eq ..) (fun c' i j q hij => ?_)
    (List.nodup_range.map fun _ _ => Nat.add_left_cancel) c
  rw [mvAcc_mvSet_of_ne hij, adding_mvSet]
  rfl

end

/-- Settles O29: each form is the equation of its core function; `setAccs_maskList` and `setAccs_run` give the accumulators that
MV.ZERO and MV.COL name as the vector's own, and `mvColOk_run` keeps those of MV.COL within it. -/
theorem mvpZeroesAndAccumulates : Obligations.MvpZeroesAndAccumulates := by
  intro s d i c m now
  refine ⟨fun f hf hport hheld => ?_, fun p mask hmask hport hact hheld => ?_, fun p wf xf vn e a hwf hxf => ⟨fun acc hact => ?_, ?_⟩⟩
  · have hheld' : ∀ n ∈ List.range 16, (mvAcc c n).held ≤ now := fun n hn =>
      have hlt := List.mem_range.mp hn
      mvAcc_eq (c := c) hlt ▸ hheld ⟨n, hlt⟩
    exact .eq (f := mvOpenCore f) (if_pos hf) (mvOpenCore_opens hport hheld' f)
  · have hheld' : ∀ n ∈ maskList mask, (mvAcc c n).held ≤ now := fun n hn => by
      obtain ⟨hlt, hbit⟩ := mem_maskList.mp hn
      exact mvAcc_eq (c := c) hlt ▸ hheld ⟨n, hlt⟩ hbit
    exact .eq (f := mvZeroCore p mask) (if_neg hmask) ((mvZeroCore_active hport hheld' hact).trans
      (setAccs_maskList (c.mvpBusy (now + 1)) mask fun _ _ => ⟨Quire.zero m.fmt, none, 0, now + 1⟩))
  · exact .eq (f := mvDotCore p wf xf acc vn e a) (if_pos (by rw [hwf, hxf]; rfl)) (mvDotCore_inactive hact)
  · intro hact hfitw hfitx n ad sz halign hin w added
    have hpair : mvPairOk wf xf m.fmt = true := by simp only [mvPairOk, hfitw, hfitx, decide_true, Bool.and_true]
    have hread : csOk ad sz sz = true := csOk_of halign hin
    refine ⟨fun acc hstart hend hsvc => ?_, ?_⟩
    · have hacc : mvAcc c acc = m.accs[acc] := mvAcc_eq acc.isLt
      refine .eq (f := mvDotCore p wf xf acc vn e a) (if_pos (by rw [hwf, hxf]; rfl))
        ((mvDotCore_adds hact hpair hread hstart hend (hacc ▸ hsvc)).trans ?_)
      rw [mvSet_fin, hacc]
      rfl
    · intro acc hok hsvc one
      have hsvc' : ∀ h ∈ (List.range n).map (acc.val + ·), (mvAcc c h).svcAt ≤ now + 8 := fun h hmem => by
        obtain ⟨hlo, hhi⟩ := mem_run.mp hmem
        have hlt : h < 16 := hhi.trans_le (mvColOk_run hok)
        exact mvAcc_eq (c := c) hlt ▸ hsvc ⟨h, hlt⟩ hlo hhi
      exact .eq (f := mvColCore p wf xf acc vn e a) (if_pos hok) ((mvColCore_adds hact hpair hread hsvc').trans
        (setAccs_run c acc n fun h q => added q [mvTerm wf xf vn e a c 0 (h - acc.val)]))

end Sys2Proof.Machine

/-! PROOFS. The vector engine family: the element pipe taken, element operations and their register beats, predicates, flags and
tile queue entries, lane quires, and the start of reductions, row functions and V.QUANT. -/
namespace Sys2Proof.Machine

/-! ### Taking the element pipe (R166, R186, R470) -/

/-- The core with one more VEC operation counted, its pipe taken until `t`. -/
def Core.inPipe (c : Core) (t : Nat) : Core := { c with vecOps := c.vecOps + 1, vecTo := t }

/-- The core with the operation in its pipe, or none, whose last result is readable from `t`. -/
def Core.working (c : Core) (j : Option VecJob) (t : Nat) : Core := { c with job := j, vecDone := max c.vecDone t }

theorem pipeTake_free {x : CoreIn} {c : Core} (h : c.vecTo ≤ x.now) (occ : Nat) (go : Nat → Core → Core × List Raise) :
    pipeTake x c occ go = go c.vecOps (c.inPipe (x.now + occ)) := if_neg (Nat.not_lt.mpr h)

section
variable (c : Core) (t : Nat)

@[simp] theorem predVal_inPipe (p : Reg4) : predVal (c.inPipe t) p = predVal c p := rfl
@[simp] theorem activeOn_inPipe (p : Reg4) : activeOn (c.inPipe t) p = activeOn c p := rfl
@[simp] theorem descParts_inPipe (o : VOp) (r : DescForm) : descParts o r (c.inPipe t) = descParts o r c := rfl
@[simp] theorem descOcc_inPipe (o : VOp) (r : DescForm) : descOcc o r (c.inPipe t) = descOcc o r c := rfl
@[simp] theorem redParts_inPipe (a : RedArgs) (r : DescForm) : redParts a r (c.inPipe t) = redParts a r c := rfl
@[simp] theorem redOcc_inPipe (a : RedArgs) (r : DescForm) : redOcc a r (c.inPipe t) = redOcc a r c := rfl
@[simp] theorem rowParts_inPipe (k : RowCmd) : rowParts k (c.inPipe t) = rowParts k c := rfl
@[simp] theorem rowOcc_inPipe (k : RowCmd) (s3 : DWord) : rowOcc k s3 (c.inPipe t) = rowOcc k s3 c := rfl
@[simp] theorem quantParts_inPipe (dd da : BitVec 11) : quantParts dd da (c.inPipe t) = quantParts dd da c := rfl
@[simp] theorem quantOcc_inPipe (dd da : BitVec 11) (mode : Nat) : quantOcc dd da mode (c.inPipe t) = quantOcc dd da mode c := rfl

end

/-- A VEC operation whose descriptors are like those of the die's lowest core does what its core function says under the
occupancy of its own (R470). -/
theorem CoreBecomes.eqVec {i : Instr} {s : State} {d : Die} {k op : Nat} {c c' : Core} {occ : Core → Nat}
    {f : Nat → CoreIn → Core → Core × List Raise} (h : exec i s = .next (vecSlot s d op occ f))
    (hlike : ((s.die d).cores.head?).map occ = some (occ c)) (q : (f (occ c) (coreIn s d k) c).1 = c') : CoreBecomes i s d k c c' := by
  obtain ⟨c0, hhead, hocc⟩ := Option.map_eq_some_iff.mp hlike
  have hslot : vecSlot s d op occ f = slotOp s d op (f (occ c)) := by rw [vecSlot, hhead, ← hocc]
  exact .eq (h.trans (congrArg _ hslot)) q

/-! ### V.PLOG, V.RDFL and V.POP (R163, R184, R187) -/

/-- The timed writes of an entry of the tile queue: its elements to register `vd`, its status and the row's lanes to the next (R184). -/
def popWrites (vd : Nat) (e : TileEntry) : List PWrite :=
  let body := bytesOfElems e.fmt e.elems
  vPends 0 (64 * vd) (body ++ zeros (64 - body.length)) ++ vPends 0 (64 * (vd + 1)) (leBytes 4 e.status.toNat ++
    (match e.stat with | some t => leBytes 4 t.1 ++ leBytes 4 t.2.1 | none => zeros 8) ++ zeros 52)

section
variable {p : Reg4} {x : CoreIn} {c : Core} (hfree : c.vecTo ≤ x.now)
include hfree

theorem plogCore_starts (i : Instr) (zm : Bool) (o : PlogOp) (pd pa pb : Reg4) :
    (plogCore i p zm o pd pa pb x c).1 =
      { (c.inPipe (x.now + 4)).working (some { newJob i x c.vecOps 4 (x.now + 1) (predVal c p) with unit := 1 }) (x.now + 4) with
        pend := c.pend ++ [⟨x.now + 1, true, .p pd (if zm then 0xFFFF else predVal c p &&& 0xFFFF)
          (plogFn o (predVal c pa) (predVal c pb) &&& predVal c p)⟩] } := by
  rw [plogCore, pipeTake_free hfree]
  rfl

theorem rdflCore_reads (vd : Reg6) : (rdflCore p vd x c).1 =
    { (c.inPipe (x.now + 1)).working c.job (x.now + 1) with
      pend := if activeOn c p then c.pend ++ (vPends 0 (64 * vd) (leBytes 4 (flagWord c.vecSticky) ++
        leBytes 4 (flagWord c.mxa.sticky) ++ leBytes 4 (flagWord c.mxb.sticky) ++ leBytes 4 (flagWord c.mvp.sticky) ++
          zeros 48)).map (fun w => ⟨x.now + 1, true, w⟩) else c.pend } := by
  rw [rdflCore, pipeTake_free hfree, activeOn_inPipe]
  split <;> rfl

variable {vd : Reg6} {lq : Reg4} {qsum : Bool} {e : TileEntry} {rest : List TileEntry} (htq : c.tq = e :: rest) (hready : e.enter ≤ x.now)
include htq hready

theorem popCore_inactive (hact : activeOn c p = false) :
    (popCore p vd lq qsum x c).1 = { (c.inPipe (x.now + 1)).working c.job (x.now + 2) with tq := rest } := by
  have hq : (c.inPipe (x.now + 1)).tq = e :: rest := htq
  simp only [popCore, pipeTake_free hfree, hq, Nat.not_lt.mpr hready, activeOn_inPipe, hact, Bool.not_false, if_true, if_false]
  rfl

variable (hact : activeOn c p = true)
include hact

/-- Where no row sum is asked for, or the entry has none, V.POP only writes its registers. -/
theorem popCore_writes (hsum : qsum = false ∨ e.stat = none) : (popCore p vd lq qsum x c).1 =
    { (c.inPipe (x.now + 1)).working c.job (x.now + 2) with
      tq := rest, pend := c.pend ++ (popWrites vd e).map fun w => ⟨x.now + 2, true, w⟩ } := by
  have hq : (c.inPipe (x.now + 1)).tq = e :: rest := htq
  simp only [popCore, pipeTake_free hfree, hq, Nat.not_lt.mpr hready, activeOn_inPipe, hact, Bool.not_true, Bool.false_eq_true,
    if_false, popWrites]
  rcases hsum with rfl | hstat
  · cases e.stat <;> rfl
  · rw [hstat]
    rfl

/-- Else the row sum `t` is a term of the lane quire, whose format takes it (R184). -/
theorem popCore_sums {t : Nat × Nat × Quire} (hstat : e.stat = some t) (hb32 : (laneAcc c lq).q.fmt ≠ .b32)
    (hfit : fmtBits t.2.2.fmt ≤ fmtBits (laneAcc c lq).q.fmt) : (popCore p vd lq true x c).1 =
    setLane { (c.inPipe (x.now + 1)).working c.job (x.now + 2) with
      tq := rest, pend := c.pend ++ (popWrites vd e).map fun w => ⟨x.now + 2, true, w⟩ } lq
      { laneAcc c lq with q := (laneAcc c lq).q.addQuire t.2.2 (accLimit c (laneAcc c lq)) } := by
  have hq : (c.inPipe (x.now + 1)).tq = e :: rest := htq
  have hlane : ¬((laneAcc c lq).q.fmt = .b32 ∨ fmtBits (laneAcc c lq).q.fmt < fmtBits t.2.2.fmt) := by
    rintro (h | h)
    · exact hb32 h
    · exact absurd hfit (Nat.not_le.mpr h)
  simp only [popCore, pipeTake_free hfree, hq, Nat.not_lt.mpr hready, activeOn_inPipe, hact, Bool.not_true, Bool.false_eq_true,
    if_false, hstat]
  refine (congrArg Prod.fst (if_neg hlane)).trans ?_
  rw [popWrites, hstat]
  rfl

end

theorem laneAcc_eq {c : Core} {l : Nat} (h : l < 16) : laneAcc c l = c.lq[l] := by simp [laneAcc, vget, h]

theorem setLane_fin (c : Core) (l : Fin 16) (q : AccQ) : setLane c l q = { c with lq := c.lq.set l q } := by
  rw [setLane, vset_eq_set l.isLt]

/-- Settles O35: `plogCore_starts`, `rdflCore_reads`; V.POP at an inactive core is `popCore_inactive`, at an active one
`popCore_writes`, with a row sum `popCore_sums`. -/
theorem predicatesFlagsAndEntriesMove : Obligations.PredicatesFlagsAndEntriesMove := by
  intro s d i c p hfree now took
  refine ⟨?_, ?_, ?_⟩
  · intro zm o pd pa pb cmd act
    exact .eq (f := plogCore cmd p zm o pd pa pb) rfl (plogCore_starts hfree cmd zm o pd pa pb)
  · intro vd words
    exact .eq (f := rdflCore p vd) rfl (rdflCore_reads hfree vd)
  · intro vd lq qsum e rest hvd htq hready
    have hexec (q : Bool) : exec (.vPop d p vd lq q) s = .next (slotOp s d 0x420 (popCore p vd lq q)) := if_pos hvd
    refine ⟨fun hact => .eq (hexec qsum) (popCore_inactive hfree htq hready hact), ?_⟩
    intro hact body st ws c1
    refine ⟨fun hsum => .eq (hexec qsum) (popCore_writes hfree htq hready hact hsum), ?_⟩
    rintro t rfl hstat hb32 hfit
    have hlane : laneAcc c lq = c.lq[lq] := laneAcc_eq lq.isLt
    rw [← hlane] at hb32 hfit ⊢
    exact .eq (hexec true) ((popCore_sums hfree htq hready hact hstat hb32 hfit).trans (setLane_fin ..))

/-! ### The element operations (R162 to R174) -/

/-- A command that spells an element operation does it in its opcode. -/
theorem exec_elem {cmd : Instr} {d : Die} {y : VOp × Reg4 × VForm × Nat} (hd : coreDie cmd = some d) (hop : vopOf cmd = some y)
    (s : State) : ∃ op, exec cmd s = vElem d op cmd s := by
  cases cmd
  case vMov | vAnd | vOr | vXor | vSel | vNeg | vAbs | vMax | vMin | vCmp | vAdd | vSub | vMul | vFma | vCvt | vFn | vFnGate =>
    obtain rfl := Option.some.inj hd
    exact ⟨_, rfl⟩
  all_goals exact nomatch hop

section
variable {cmd : Instr} {d : Die} {o : VOp} {p : Reg4} {extra : Nat} (hd : coreDie cmd = some d)
include hd

theorem exec_elem_reg {r : RegForm} (hop : vopOf cmd = some (o, p, .reg r, extra)) (hok : vFormOk o (.reg r) = true) (s : State) :
    ∃ op, exec cmd s = .next (slotOp s d op (vRegCore cmd o p r extra)) := by
  obtain ⟨op, h⟩ := exec_elem hd hop s
  exact ⟨_, h.trans (by simp only [vElem, hop, hok, if_true]; rfl)⟩

theorem exec_elem_desc {r : DescForm} (hop : vopOf cmd = some (o, p, .desc r, extra)) (hok : vFormOk o (.desc r) = true) (s : State) :
    ∃ op, exec cmd s = .next (vecSlot s d op (descOcc o r) (vDescCore cmd o p r)) := by
  obtain ⟨op, h⟩ := exec_elem hd hop s
  exact ⟨_, h.trans (by simp only [vElem, hop, hok, if_true]; rfl)⟩

end

/-- The format that a descriptor form works in: that of its first source, else of its destination. -/
def sourceFmt (td : TDesc) (a : Option TDesc) : Fmt := match a with | some y => y.fmt | none => td.fmt

/-- The format that V.CVT converts to changes nothing of the cycles it takes. -/
@[simp] theorem descOcc_descOp (o : VOp) (td : TDesc) (r : DescForm) (c : Core) : descOcc (descOp o td) r c = descOcc o r c := by
  cases o <;> rfl

/-- The pipe is taken for the beats of the destination, and the two cycles before them (R166). -/
theorem max_descOcc {o : VOp} {r : DescForm} {c : Core} {td : TDesc} {a b m : Option TDesc}
    (hparts : descParts o r c = some (td, a, b, m)) : max 2 (descOcc o r c) = 2 + td.beats * (o.time (sourceFmt td a)).1 := by
  rw [descOcc, hparts]
  exact max_eq_right (Nat.le_add_right ..)

section
variable {i : Instr} {o : VOp} {p : Reg4} {x : CoreIn} {c : Core} (hfree : c.vecTo ≤ x.now)
include hfree

/-- A register form makes its first beat at once (R166). -/
theorem vRegCore_starts {r : RegForm} (hfmt : o.fmtOk r.fmt = true) (extra : Nat) :
    let n := o.elems r.fmt / 16
    let t := o.time r.fmt
    let j : VecJob := { newJob i x c.vecOps n x.now (predVal c p) with
      sval := wordS x r.vb, s2 := wordS x r.sp, s3 := wordS x (r.sp.val + 1) }
    (vRegCore i o p r extra x c).1 = (regBeat o r extra j (c.inPipe (x.now + n * t.1))).1.working
      (if n ≤ 1 then none else some { j with unit := 1, nextAt := x.now + t.1 }) (x.now + n * t.1 - 1 + t.2) := by
  simp only [vRegCore, pipeTake_free hfree, hfmt, Bool.not_true, Bool.false_eq_true, if_false, predVal_inPipe]
  rfl

variable {r : DescForm} {td : TDesc} {a b m : Option TDesc} (hparts : descParts o r c = some (td, a, b, m))
  (hfmt : descFmtOk (descOp o td) td a b = true) (hround : fnRounds (descOp o td) td = false)
include hparts hfmt hround

theorem vDescCore_inactive (hact : activeOn c p = false) :
    (vDescCore i o p r (descOcc o r c) x c).1 = c.inPipe (x.now + (2 + td.beats * (o.time (sourceFmt td a)).1)) := by
  simp only [vDescCore, pipeTake_free hfree, max_descOcc hparts, descParts_inPipe, hparts, descOcc_inPipe, descOcc_descOp,
    hfmt, hround, activeOn_inPipe, hact, ne_eq, not_true_eq_false, Bool.not_true, Bool.not_false, Bool.or_false,
    Bool.false_eq_true, if_true, if_false]

/-- A descriptor form on an active core with legal tensors begins its beats in cycle c + 2. -/
theorem vDescCore_active (hact : activeOn c p = true) (hrange : rangeBad (some td) [a, b] m = []) (hbeats : td.beats ≠ 0) :
    let t := (descOp o td).time (sourceFmt td a)
    (vDescCore i o p r (descOcc o r c) x c).1 = (c.inPipe (x.now + (2 + td.beats * (o.time (sourceFmt td a)).1))).working
      (some { newJob i x c.vecOps td.beats (x.now + 2) (predVal c p) with
        sval := wordS x (r.db.toNat % 64), dst := some td, src1 := a, src2 := b, mask := m })
      (x.now + 2 + td.beats * t.1 - 1 + t.2) := by
  simp only [vDescCore, pipeTake_free hfree, max_descOcc hparts, descParts_inPipe, hparts, descOcc_inPipe, descOcc_descOp,
    hfmt, hround, activeOn_inPipe, hact, hrange, hbeats, ne_eq, not_true_eq_false, Bool.not_true, Bool.or_false,
    Bool.false_eq_true, if_false, List.isEmpty_nil]
  rfl

end

/-- Settles O33: a register form is `vRegCore_starts`; a descriptor form is `vDescCore_inactive` or `vDescCore_active`. -/
theorem elementOperationsTakeThePipe : Obligations.ElementOperationsTakeThePipe := by
  intro cmd o p extra s d i c hd hfree x now took
  refine ⟨?_, ?_⟩
  · intro r hop hok hfmt n t j
    obtain ⟨op, hexec⟩ := exec_elem_reg hd hop hok s
    exact .eq hexec (vRegCore_starts hfree hfmt extra)
  · intro r td a b m hop hok hparts hfmt hround hlike t
    obtain ⟨op, hexec⟩ := exec_elem_desc hd hop hok s
    exact ⟨fun hact => .eqVec hexec hlike (vDescCore_inactive hfree hparts hfmt hround hact),
      fun hact hrange hbeats => .eqVec hexec hlike (vDescCore_active hfree hparts hfmt hround hact hrange hbeats)⟩

/-! ### V.RED (R178 to R183) -/

/-- The pipe is taken for the beats of the source, and the two cycles before them (R183). -/
theorem max_redOcc {a : RedArgs} {r : DescForm} {c : Core} {src dst : TDesc} {m : Option TDesc}
    (hparts : redParts a r c = some (src, dst, m)) : max 2 (redOcc a r c) = 2 + src.beats * (redTime a.kind).1 := by
  rw [redOcc, hparts]
  exact max_eq_right (Nat.le_add_right ..)

/-- A reduction with neither START nor EMIT that has one output passes the check of R179. -/
theorem oneOutput_of {a : RedArgs} {src : TDesc} (h : a.start = true ∨ a.emit = true ∨ src.outer (a.rdims.val + 1) = 1) :
    (!a.start && !a.emit && decide (src.outer (a.rdims.val + 1) ≠ 1)) = false := by
  rcases h with h | h | h <;> simp [h]

section
variable {i : Instr} {p : Reg4} {a : RedArgs} {x : CoreIn} {c : Core} (hfree : c.vecTo ≤ x.now)
include hfree

/-- A register reduction makes its first beat at once (R178). -/
theorem redRegCore_starts {r : RegForm} (hfmt : redFmtOk a r.fmt = true) :
    let n := regElems r.fmt / 16
    let t := redTime a.kind
    let b := redRegBeat a r { newJob i x c.vecOps n (x.now + t.1) (predVal c p) with
      s2 := wordS x r.sp, s3 := wordS x (r.sp.val + 1) } (c.inPipe (x.now + n * t.1))
    (redRegCore i p r a x c).1 = { b.2.1 with
      job := if n ≤ b.1.unit + 1 then none else some { b.1 with unit := 1 }
      vecDone := max c.vecDone (x.now + n * t.1 - 1 + t.2) } := by
  simp only [redRegCore, pipeTake_free hfree, hfmt, Bool.not_true, Bool.false_eq_true, if_false]
  rfl

variable {r : DescForm} {src dst : TDesc} {m : Option TDesc} (hparts : redParts a r c = some (src, dst, m))
  (hfmt : redFmtOk a src.fmt = true) (hout : a.start = true ∨ a.emit = true ∨ src.outer (a.rdims.val + 1) = 1)
include hparts hfmt hout

theorem redDescCore_inactive (hact : activeOn c p = false) :
    (redDescCore i p r a (redOcc a r c) x c).1 = c.inPipe (x.now + (2 + src.beats * (redTime a.kind).1)) := by
  simp only [redDescCore, pipeTake_free hfree, max_redOcc hparts, redParts_inPipe, hparts, redOcc_inPipe, hfmt, oneOutput_of hout,
    activeOn_inPipe, hact, ne_eq, not_true_eq_false, Bool.not_true, Bool.not_false, Bool.false_eq_true, if_true, if_false]

/-- A descriptor reduction on an active core begins its beats in cycle c + 2. -/
theorem redDescCore_active (hact : activeOn c p = true) (hbad : redBad a src dst m = []) (hbeats : src.beats ≠ 0) :
    let t := redTime a.kind
    (redDescCore i p r a (redOcc a r c) x c).1 = (c.inPipe (x.now + (2 + src.beats * t.1))).working
      (some { newJob i x c.vecOps src.beats (x.now + 2) (predVal c p) with dst := some dst, src1 := some src, mask := m })
      (x.now + 2 + src.beats * t.1 - 1 + t.2) := by
  simp only [redDescCore, pipeTake_free hfree, max_redOcc hparts, redParts_inPipe, hparts, redOcc_inPipe, hfmt, oneOutput_of hout,
    activeOn_inPipe, hact, hbad, hbeats, ne_eq, not_true_eq_false, Bool.not_true, Bool.false_eq_true, if_false, List.isEmpty_nil]
  rfl

end

/-! ### Row functions (R202 to R206) -/

/-- A command that spells a row function is a slot operation of its die. -/
theorem exec_row {cmd : Instr} {d : Die} {k : RowCmd} (hd : coreDie cmd = some d) (hrow : rowCmdOf cmd = some k)
    (hok : rowOk k = true) (s : State) :
    exec cmd s = .next (vecSlot s d 0x418 (rowOcc k (dieS3 s d k.sp)) (rowCore cmd k)) := by
  have hop : rowOp d cmd s = .next (vecSlot s d 0x418 (rowOcc k (dieS3 s d k.sp)) (rowCore cmd k)) := by
    simp only [rowOp, hrow, hok, if_true]
  refine Eq.trans ?_ hop
  cases cmd
  case softmax | smsum | smnorm | lnorm | rmsnorm | nstat =>
    obtain rfl := Option.some.inj hd
    rfl
  all_goals exact nomatch hrow

section
variable {i : Instr} {k : RowCmd} {x : CoreIn} {c : Core} {q : RowParts} (hfree : c.vecTo ≤ x.now)
  (hparts : rowParts k c = some q)
include hparts

/-- The pipe is taken for the rows of the source, and the two cycles before them (R204). -/
theorem max_rowOcc (s3 : DWord) : max 2 (rowOcc k s3 c) = 2 + q.src.runs * rowCycles k.kind (rowA2 s3) q := by
  rw [rowOcc, hparts]
  exact max_eq_right (Nat.le_add_right ..)

variable {s2 s3 : DWord} (hs2 : wordS x k.sp = s2) (hs3 : wordS x (k.sp.val + 1) = s3)
  (hfmt : rowFmtOk k.kind (rowA2 s3) q = true) (hext : rowExtOk q = true)
include hfree hs3 hfmt hext

theorem rowCore_inactive (hact : activeOn c k.p = false) :
    (rowCore i k (rowOcc k s3 c) x c).1 = c.inPipe (x.now + (2 + q.src.runs * rowCycles k.kind (rowA2 s3) q)) := by
  simp only [rowCore, hs3, pipeTake_free hfree, max_rowOcc hparts, rowParts_inPipe, hparts, rowOcc_inPipe, hfmt, hext,
    activeOn_inPipe, hact, ne_eq, not_true_eq_false, Bool.not_true, Bool.not_false, Bool.false_eq_true, if_true, if_false]

include hs2

/-- A row function on an active core with legal tensors, addresses and ε begins its first row in cycle c + 2 (R204). -/
theorem rowCore_active (hact : activeOn c k.p = true) (hrange : rangeBad q.dst [some q.src, q.gb] q.mask = [])
    (haddr : rowAddrOk k.kind (rowA1 s3) (rowA2 s3) q = true) (heps : isNorm k.kind = true → epsOk q.src.fmt (rowEps s2) = true)
    (hruns : q.src.runs ≠ 0) :
    let n := q.src.runs
    let cyc := rowCycles k.kind (rowA2 s3) q
    (rowCore i k (rowOcc k s3 c) x c).1 = (c.inPipe (x.now + (2 + n * cyc))).working
      (some { newJob i x c.vecOps n (x.now + 2) (predVal c k.p) with
        s2 := s2, s3 := s3, dst := q.dst, src1 := some q.src, src2 := q.gb, mask := q.mask })
      (x.now + 2 + n * cyc - 1 + 12) := by
  have heps' : (isNorm k.kind && !epsOk q.src.fmt (rowEps s2)) = false := by
    simpa only [Bool.and_eq_false_imp, Bool.not_eq_false'] using heps
  simp only [rowCore, hs2, hs3, pipeTake_free hfree, max_rowOcc hparts, rowParts_inPipe, hparts, rowOcc_inPipe, hfmt, hext,
    activeOn_inPipe, hact, hrange, haddr, heps', hruns, ne_eq, not_true_eq_false, Bool.not_true, Bool.false_eq_true, if_false,
    List.isEmpty_nil]
  rfl

end

/-! ### V.QUANT (R218 to R226) -/

section
variable {i : Instr} {p pd : Reg4} {dd da : BitVec 11} {sp : Reg6} {x : CoreIn} {c : Core} {src dst : TDesc}
  (hfree : c.vecTo ≤ x.now) (hparts : quantParts dd da c = some (src, dst))
include hparts

/-- The pipe is taken for the rows of the source, and the two cycles before them (R226). -/
theorem max_quantOcc (mode : Nat) : max 2 (quantOcc dd da mode c) = 2 + src.runs * quantCycles mode src := by
  rw [quantOcc, hparts]
  exact max_eq_right (Nat.le_add_right ..)

variable {s2 s3 : DWord} {a : QuantArgs} (hs2 : wordS x sp = s2) (hs3 : wordS x (sp.val + 1) = s3) (ha : quantArgs s2 s3 = a)
  (hfmt : quantFmtOk a src dst = true) (hdesc : quantDescOk a src dst = true)
include hfree hs2 hs3 ha hfmt hdesc

theorem quantCore_inactive (hact : activeOn c p = false) :
    (quantCore i p dd da sp pd (quantOcc dd da a.mode c) x c).1 = c.inPipe (x.now + (2 + src.runs * quantCycles a.mode src)) := by
  simp only [quantCore, hs2, hs3, ha, pipeTake_free hfree, max_quantOcc hparts, quantParts_inPipe, hparts, quantOcc_inPipe, hfmt,
    hdesc, activeOn_inPipe, hact, ne_eq, not_true_eq_false, Bool.not_true, Bool.not_false, Bool.false_eq_true, if_true, if_false]

/-- V.QUANT on an active core with legal tensors and, in mode 2, a positive fixed scale begins its first row in cycle c + 2. -/
theorem quantCore_active (hact : activeOn c p = true) (hstore : src.inStore = true) (hrange : quantRangeOk a src dst = true)
    (hruns : src.runs ≠ 0) (hscale : a.mode = 2 → ∃ mag, decodeNum .p32 a.sfix = .fin false mag ∧ Frac.zero.lt mag = true) :
    let n := src.runs
    let cyc := quantCycles a.mode src
    (quantCore i p dd da sp pd (quantOcc dd da a.mode c) x c).1 = (c.inPipe (x.now + (2 + n * cyc))).working
      (some { newJob i x c.vecOps n (x.now + 2) (predVal c p) with s2 := s2, s3 := s3, dst := some dst, src1 := some src })
      (x.now + 2 + n * cyc - 1 + 12) := by
  have hscale' : ¬(a.mode = 2 ∧ ((decodeNum .p32 a.sfix).isNan || !(Frac.zero.lt (decodeNum .p32 a.sfix).val)) = true) := by
    rintro ⟨hmode, hbad⟩
    obtain ⟨mag, hnum, hpos⟩ := hscale hmode
    simp [hnum, Num.isNan, Num.val, hpos] at hbad
  simp only [quantCore, hs2, hs3, ha, pipeTake_free hfree, max_quantOcc hparts, quantParts_inPipe, hparts, quantOcc_inPipe, hfmt,
    hdesc, activeOn_inPipe, hact, hstore, hrange, hscale', hruns, ne_eq, not_true_eq_false, Bool.not_true, Bool.false_eq_true,
    if_false]
  rfl

end

/-- Settles O37: V.RED is `redRegCore_starts` in register form and `redDescCore_inactive` or `redDescCore_active` in descriptor form,
the row functions are `rowCore_inactive` or `rowCore_active`, V.QUANT `quantCore_inactive` or `quantCore_active`. -/
theorem reductionsRowsAndQuantStart : Obligations.ReductionsRowsAndQuantStart := by
  intro s d i c p hfree now x took job like
  refine ⟨?_, ?_, ?_, ?_⟩
  · intro a r hok hfmt n t j b
    exact .eq (f := redRegCore (.vRed d p (.reg r) a) p r a) (if_pos hok) (redRegCore_starts hfree hfmt)
  · intro a r src dst m hok hparts hfmt hout hlike n t
    have hexec : exec (.vRed d p (.desc r) a) s =
        .next (vecSlot s d 0x419 (redOcc a r) (redDescCore (.vRed d p (.desc r) a) p r a)) := if_pos hok
    exact ⟨fun hact => .eqVec hexec hlike (redDescCore_inactive hfree hparts hfmt hout hact),
      fun hact hbad hbeats => .eqVec hexec hlike (redDescCore_active hfree hparts hfmt hout hact hbad hbeats)⟩
  · rintro cmd k q hd hrow rfl hok s2 s3 hparts hlike hfmt hext n cyc
    have hexec := exec_row hd hrow hok s
    exact ⟨fun hact => .eqVec hexec hlike (rowCore_inactive hfree hparts rfl hfmt hext hact),
      fun hact hrange haddr heps hruns =>
        .eqVec hexec hlike (rowCore_active hfree hparts rfl rfl hfmt hext hact hrange haddr heps hruns)⟩
  · intro dd da sp pd src dst hdd hda hsp cmd s2 s3 a hparts hlike hfmt hdesc n cyc
    have hexec : exec cmd s = .next (vecSlot s d 0x41A (quantOcc dd da a.mode) (quantCore cmd p dd da sp pd)) :=
      if_pos ⟨hdd, hda, hsp⟩
    exact ⟨fun hact => .eqVec hexec hlike (quantCore_inactive hfree hparts rfl rfl rfl hfmt hdesc hact),
      fun hact hstore hrange hruns hscale =>
        .eqVec hexec hlike (quantCore_active hfree hparts rfl rfl rfl hfmt hdesc hact hstore hrange hruns hscale)⟩

/-! ### Lane quires replaced -/

/-- The core with each lane quire of a list replaced by what `g` makes of it. -/
def Core.mapLanes (c : Core) (ls : List Nat) (g : Nat → AccQ → AccQ) : Core :=
  { c with lq := c.lq.mapIdx fun l q => if l ∈ ls then g l q else q }

theorem mapLanes_nil (c : Core) (g : Nat → AccQ → AccQ) : c.mapLanes [] g = c := by
  have hlq : c.lq.mapIdx (fun l q => if l ∈ ([] : List Nat) then g l q else q) = c.lq := by
    ext1 l hl
    simp
  rw [Core.mapLanes, hlq]

theorem laneAcc_setLane_of_ne {i j : Nat} (h : i ≠ j) (c : Core) (q : AccQ) : laneAcc (setLane c i q) j = laneAcc c j := by
  simp [laneAcc, setLane, vget, vset, Vector.getElem?_setIfInBounds_ne h]

theorem mapLanes_setLane {i : Nat} {ls : List Nat} (h : i ∉ ls) (c : Core) (g : Nat → AccQ → AccQ) :
    (setLane c i (g i (laneAcc c i))).mapLanes ls g = c.mapLanes (i :: ls) g := by
  have hlq : (vset c.lq i (g i (laneAcc c i))).mapIdx (fun l q => if l ∈ ls then g l q else q) =
      c.lq.mapIdx fun l q => if l ∈ i :: ls then g l q else q := by
    ext1 l hl
    simp only [Vector.getElem_mapIdx, vset, Vector.getElem_setIfInBounds, List.mem_cons]
    by_cases hli : l = i
    · subst hli
      simp [h, laneAcc_eq hl]
    · simp [hli, Ne.symm hli]
  simp only [Core.mapLanes, setLane, hlq]

theorem mapLanes_congr {c : Core} {ls : List Nat} {g g' : Nat → AccQ → AccQ}
    (h : ∀ l ∈ ls, g l (laneAcc c l) = g' l (laneAcc c l)) : c.mapLanes ls g = c.mapLanes ls g' := by
  have hlq : (c.lq.mapIdx fun l q => if l ∈ ls then g l q else q) = c.lq.mapIdx fun l q => if l ∈ ls then g' l q else q := by
    ext1 l hl
    simp only [Vector.getElem_mapIdx]
    exact ite_congr rfl (fun hmem => laneAcc_eq hl ▸ h l hmem) fun _ => rfl
  rw [Core.mapLanes, hlq, Core.mapLanes]

theorem mapLanes_maskList (c : Core) (mask : BitVec 16) (g : Nat → AccQ → AccQ) :
    c.mapLanes (maskList mask) g = { c with lq := c.lq.mapIdx fun l q => if mask.getLsbD l then g l q else q } := by
  have hlq : (c.lq.mapIdx fun l q => if l ∈ maskList mask then g l q else q) =
      c.lq.mapIdx fun l q => if mask.getLsbD l then g l q else q := by
    ext1 l hl
    simp only [Vector.getElem_mapIdx, mem_maskList, hl, true_and]
  rw [Core.mapLanes, hlq]

/-- A fold that replaces each lane quire of a list: what becomes of one depends on no other. -/
theorem foldl_setLane (g : Nat → AccQ → AccQ) {ls : List Nat} (hls : ls.Nodup) (c : Core) :
    ls.foldl (fun c l => setLane c l (g l (laneAcc c l))) c = c.mapLanes ls g := by
  induction ls generalizing c with
  | nil => exact (mapLanes_nil c g).symm
  | cons i ls ih =>
    obtain ⟨hi, hls⟩ := List.nodup_cons.mp hls
    rw [List.foldl_cons, ih hls, mapLanes_setLane hi]

/-- A fold that writes the image of each lane quire of a list, readable from `fin`, and then replaces the lane: the writes are those
of the lanes as they were. -/
theorem foldl_write_setLane {β : Type} {step : Core × β → Nat → Core × β} {ws : Core → Nat → List Pend} {fin : Nat → Nat}
    {g : Nat → AccQ → AccQ}
    (h : ∀ y l, (step y l).1 = { setLane y.1 l (g l (laneAcc y.1 l)) with
      pend := y.1.pend ++ ws y.1 l, vecDone := max y.1.vecDone (fin l) })
    (hws : ∀ c i j q l n, i ≠ j → ws { setLane c i q with pend := l, vecDone := n } j = ws c j) {ls : List Nat} (hls : ls.Nodup)
    (y : Core × β) : (ls.foldl step y).1 = { y.1.mapLanes ls g with
      pend := y.1.pend ++ (ls.map (ws y.1)).flatten, vecDone := (ls.map fin).foldl max y.1.vecDone } := by
  induction ls generalizing y with
  | nil => simp [mapLanes_nil]
  | cons i ls ih =>
    obtain ⟨hi, hls⟩ := List.nodup_cons.mp hls
    have hlater : ls.map (ws (step y i).1) = ls.map (ws y.1) :=
      List.map_congr_left fun j hj => h y i ▸ hws _ _ _ _ _ _ fun hij => hi (hij ▸ hj)
    rw [List.foldl_cons, ih hls, hlater, h, List.map_cons, List.map_cons, List.flatten_cons, List.foldl_cons,
      ← mapLanes_setLane hi, ← List.append_assoc]
    rfl

/-! ### V.QZERO and V.QRND (R175, R177) -/

/-- The rounding mode of V.QRND (R177, R286). -/
def qrndMode (rnd : Bool) (sp : Reg6) (x : CoreIn) : Rnd :=
  pepperMode rnd x.seed ((wordS x sp).toNat % 2 ^ 32) x.issue.pstep.toNat (wordS x (sp.val + 1)).toNat

/-- Lanes that all hold binary32 sums, or none of which does, pass the check of V.QRND (R177). -/
theorem lanes_one_kind {c : Core} {ls : List Nat}
    (h : ls.all (fun l => decide ((laneAcc c l).q.fmt = .b32)) = true ∨ ls.all (fun l => decide ((laneAcc c l).q.fmt ≠ .b32)) = true) :
    (ls.any (fun l => decide ((laneAcc c l).q.fmt = .b32)) && !ls.all (fun l => decide ((laneAcc c l).q.fmt = .b32))) = false := by
  rcases h with h | h
  · rw [h, Bool.not_true, Bool.and_false]
  · have hnone : ls.any (fun l => decide ((laneAcc c l).q.fmt = .b32)) = false := by simpa using h
    rw [hnone, Bool.false_and]

theorem find?_b32_eq_none {c : Core} {ls : List Nat} (h : ∀ l ∈ ls, (laneAcc c l).q.fmt ≠ .b32) :
    ls.find? (fun l => decide ((laneAcc c l).q.fmt = .b32)) = none := by
  simpa [List.find?_eq_none] using h

section
variable {p : Reg4} {f : Fmt} {mask : BitVec 16} {x : CoreIn} {c : Core} (hfree : c.vecTo ≤ x.now)
include hfree

theorem qzeroCore_zeroes : (qzeroCore p f mask x c).1 = { c.inPipe (x.now + 1) with
    lq := if activeOn c p then c.lq.mapIdx fun l q => if mask.getLsbD l then AccQ.zero f else q else c.lq } := by
  rw [qzeroCore, pipeTake_free hfree, activeOn_inPipe]
  by_cases hact : activeOn c p = true
  · rw [if_pos hact, if_pos hact]
    exact (foldl_setLane (fun _ _ => AccQ.zero f) (maskList_nodup mask) _).trans (mapLanes_maskList ..)
  · rw [if_neg hact, if_neg hact]
    rfl

variable {rnd : Bool} {vd sp : Reg6}

theorem qrndCore_inactive (hact : activeOn c p = false) :
    (qrndCore p rnd f vd mask sp x c).1 = (c.inPipe (x.now + 1)).working c.job (x.now + 9) := by
  simp only [qrndCore, pipeTake_free hfree, activeOn_inPipe, hact, Bool.not_false, if_true]
  rfl

/-- The lanes of V.QRND hold one kind of format: their exact sum is rounded once (R177). -/
theorem qrndCore_rounds (hact : activeOn c p = true)
    (hkind : (maskList mask).all (fun l => decide ((laneAcc c l).q.fmt = .b32)) = true ∨
      (maskList mask).all (fun l => decide ((laneAcc c l).q.fmt ≠ .b32)) = true) :
    ∃ pos, (qrndCore p rnd f vd mask sp x c).1 =
      let r := roundLanes f (qrndMode rnd sp x) 1 (combineLanes c (maskList mask))
      { (c.inPipe (x.now + 1)).working c.job (x.now + 9) with
        pend := c.pend ++ (nibRegs vd (fmtBits f / 4) r.1).map (fun w => ⟨x.now + 9, true, w⟩) ++
          flagPends (x.now + 9) c.vecOps (match r.2 with | some k => [(k, pos)] | none => []) } := by
  have hmixed := lanes_one_kind (c := c.inPipe (x.now + 1)) hkind
  simp only [qrndCore, pipeTake_free hfree, activeOn_inPipe, hact, hmixed, Bool.not_true, Bool.false_eq_true, if_false]
  exact ⟨_, rfl⟩

end

/-! ### V.QSPILL and V.QFILL (R90, R91, R177, R284) -/

/-- Total of a size over the lanes of a list that come before lane `l`. -/
def lanesBefore (ls : List Nat) (size : Nat → Nat) (l : Nat) : Nat := ((ls.takeWhile fun k => decide (k < l)).map size).sum

theorem maskList_sorted (mask : BitVec 16) : (maskList mask).Pairwise (· < ·) := List.pairwise_lt_range.filter _

/-- Lanes in rising order lie one after the other (R284). -/
theorem laneOffsets_eq (size : Nat → Nat) {ls : List Nat} (hls : ls.Pairwise (· < ·)) (a : Nat) :
    laneOffsets size ls a = ls.map fun l => (l, a + lanesBefore ls size l) := by
  induction ls generalizing a with
  | nil => rfl
  | cons i ls ih =>
    obtain ⟨hi, hls⟩ := List.pairwise_cons.mp hls
    have hlater (l : Nat) (hl : l ∈ ls) : lanesBefore (i :: ls) size l = size i + lanesBefore ls size l := by
      simp [lanesBefore, hi l hl]
    have hfirst : lanesBefore (i :: ls) size i = 0 := by simp [lanesBefore]
    rw [laneOffsets, ih hls, List.map_cons, hfirst, Nat.add_zero]
    exact congrArg _ (List.map_congr_left fun l hl => by rw [hlater l hl, Nat.add_assoc])

/-- The bytes of the image of lane `l` (R88). -/
def laneSize (c : Core) (l : Nat) : Nat := imgSize (laneAcc c l).q.fmt

@[simp] theorem laneSize_inPipe (c : Core) (t l : Nat) : laneSize (c.inPipe t) l = laneSize c l := rfl

/-- The address of lane `l` among the images of a mask from a named address on (R284). -/
def laneAddr (c : Core) (mask ad : BitVec 16) (l : Nat) : Nat := ad.toNat + lanesBefore (maskList mask) (laneSize c) l

/-- The cycle in which the image of lane `l` is done, of a spill that begins in cycle `t` (Table 8-1). -/
def laneEnd (c : Core) (mask : BitVec 16) (t l : Nat) : Nat := t + lanesBefore (maskList mask) (laneCyc c) l + laneCyc c l

/-- A zero lane quire on its long base (R90, R91). -/
def AccQ.onLong (q : AccQ) (b : Nat) : AccQ := { AccQ.zero q.q.fmt with base := some b }

/-- The timed writes of a spilled lane quire: its image at `b`, readable from `ready` on (R90). -/
def lanePends (c : Core) (ready b l : Nat) : List Pend :=
  csPends ready true b (imgBytes (longAdd (oldImage c (laneAcc c l).q.fmt (laneAcc c l).base b)
    ((laneAcc c l).q.toLong (laneAcc c l).q.fmt)))

section
variable {p : Reg4} {att : Bool} {mask ad : BitVec 16} {x : CoreIn} {c : Core} (hfree : c.vecTo ≤ x.now)
include hfree

theorem qspillCore_inactive (hact : activeOn c p = false) :
    (qspillCore p att mask ad x c).1 = c.inPipe (x.now + ((maskList mask).map (laneCyc c)).sum) := by
  simp only [qspillCore, pipeTake_free hfree, activeOn_inPipe, hact, Bool.not_false, if_true, ← List.sum_eq_foldl]

theorem qfillCore_inactive (hact : activeOn c p = false) :
    (qfillCore p mask ad x c).1 = c.inPipe (x.now + ((maskList mask).map (laneCyc c)).sum) := by
  simp only [qfillCore, pipeTake_free hfree, activeOn_inPipe, hact, Bool.not_false, if_true, ← List.sum_eq_foldl]

variable (hact : activeOn c p = true) (hposit : ∀ l ∈ maskList mask, (laneAcc c l).q.fmt ≠ .b32)
include hact hposit

theorem qspillCore_spills {b : Nat → Nat}
    (hbase : ∀ l ∈ maskList mask, spillBase (laneAcc c l).base att (laneAddr c mask ad l) = some (b l))
    (hin : ∀ l ∈ maskList mask, csOk (b l) 8 (laneSize c l) = true) :
    (qspillCore p att mask ad x c).1 =
      { (c.inPipe (x.now + ((maskList mask).map (laneCyc c)).sum)).mapLanes (maskList mask) fun l q => q.onLong (b l) with
        pend := c.pend ++ ((maskList mask).map fun l => lanePends c (laneEnd c mask x.now l) (b l) l).flatten
        vecDone := ((maskList mask).map (laneEnd c mask x.now)).foldl max c.vecDone } := by
  rw [qspillCore, pipeTake_free hfree, ← List.sum_eq_foldl]
  generalize x.now + ((maskList mask).map (laneCyc c)).sum = t
  have hb32 := find?_b32_eq_none (c := c.inPipe t) hposit
  have htgt : (laneOffsets (laneSize (c.inPipe t)) (maskList mask) ad.toNat).map
      (fun y => (y.1, spillBase (laneAcc (c.inPipe t) y.1).base att y.2)) = (maskList mask).map fun l => (l, some (b l)) := by
    rw [laneOffsets_eq _ (maskList_sorted mask), List.map_map]
    exact List.map_congr_left fun l hl => by rw [← hbase l hl]; rfl
  have hsome : ((maskList mask).map fun l => (l, some (b l))).find? (fun t => t.2.isNone) = none := by
    simp [List.find?_eq_none]
  have hok : ((maskList mask).map fun l => (l, some (b l))).find?
      (fun y => !csOk (y.2.getD 0) 8 (laneSize (c.inPipe t) y.1)) = none := by
    simpa [List.find?_eq_none] using hin
  have hends : (laneOffsets (laneCyc (c.inPipe t)) (maskList mask) x.now).map (fun y => (y.1, y.2 + laneCyc (c.inPipe t) y.1)) =
      (maskList mask).map fun l => (l, laneEnd c mask x.now l) := by
    rw [laneOffsets_eq _ (maskList_sorted mask), List.map_map]
    rfl
  unfold laneSize at htgt hok
  simp only [activeOn_inPipe, hact, hb32, htgt, hsome, hok, hends, List.zip_map', List.foldl_map, Option.getD_some, Bool.not_true,
    Bool.false_eq_true, if_false]
  refine (foldl_write_setLane (g := fun l q => q.onLong (b l)) (fin := laneEnd c mask x.now)
    (ws := fun c' l => lanePends c' (laneEnd c mask x.now l) (b l) l) (fun y l => ?_) (fun c' i j q l n hij => ?_)
    (maskList_nodup mask) _).trans ?_
  · simp only [spillImage_fst, csWrite]
    rfl
  · have hother : laneAcc { setLane c' i q with pend := l, vecDone := n } j = laneAcc c' j := laneAcc_setLane_of_ne hij c' q
    simp only [lanePends, hother]
    rfl
  · rw [List.foldl_map]
    rfl

theorem qfillCore_fills (hin : ∀ l ∈ maskList mask, csOk (laneAddr c mask ad l) 8 (laneSize c l) = true)
    (himgs : ∀ l ∈ maskList mask, (readImage c (laneAcc c l).q.fmt (laneAddr c mask ad l)).2 = fmtCode (laneAcc c l).q.fmt) :
    (qfillCore p mask ad x c).1 = (c.inPipe (x.now + ((maskList mask).map (laneCyc c)).sum)).mapLanes (maskList mask)
      fun l q => q.onLong (laneAddr c mask ad l) := by
  rw [qfillCore, pipeTake_free hfree, ← List.sum_eq_foldl]
  generalize x.now + ((maskList mask).map (laneCyc c)).sum = t
  have hb32 := find?_b32_eq_none (c := c.inPipe t) hposit
  have hat : laneOffsets (laneSize (c.inPipe t)) (maskList mask) ad.toNat = (maskList mask).map fun l => (l, laneAddr c mask ad l) :=
    laneOffsets_eq _ (maskList_sorted mask) _
  have hok : ((maskList mask).map fun l => (l, laneAddr c mask ad l)).find?
      (fun y => !csOk y.2 8 (laneSize (c.inPipe t) y.1)) = none := by
    simpa [List.find?_eq_none] using hin
  have hfmt : ((maskList mask).map fun l => (l, laneAddr c mask ad l, readImage (c.inPipe t) (laneAcc (c.inPipe t) l).q.fmt
      (laneAddr c mask ad l))).find? (fun y => decide (y.2.2.2 ≠ fmtCode (laneAcc (c.inPipe t) y.1).q.fmt)) = none := by
    refine List.find?_eq_none.mpr fun y hy h => ?_
    obtain ⟨l, hl, rfl⟩ := List.mem_map.mp hy
    exact of_decide_eq_true h (himgs l hl)
  unfold laneSize at hat hok
  simp only [activeOn_inPipe, hact, hb32, hat, hok, List.map_map, Function.comp_def, hfmt, List.foldl_map, Bool.not_true,
    Bool.false_eq_true, if_false]
  exact foldl_setLane (fun l q => q.onLong (laneAddr c mask ad l)) (maskList_nodup mask) _

end

/-- Settles O36: V.QZERO is `qzeroCore_zeroes`; the others at an inactive core are `qrndCore_inactive`, `qspillCore_inactive` and
`qfillCore_inactive`, at an active one `qrndCore_rounds`, `qspillCore_spills` and `qfillCore_fills`. -/
theorem laneQuiresZeroRoundSpillFill : Obligations.LaneQuiresZeroRoundSpillFill := by
  intro s d i c p mask hfree hmask now ls took cyc
  have hspill (att : Bool) (ad : BitVec 16) : exec (.vQspill d p att mask ad) s = .next (slotOp s d 0x423 (qspillCore p att mask ad)) :=
    if_neg hmask
  have hfill (ad : BitVec 16) : exec (.vQfill d p false mask ad) s = .next (slotOp s d 0x424 (qfillCore p mask ad)) :=
    if_neg fun h => h.elim hmask Bool.false_ne_true
  refine ⟨fun f hf => ?_, fun rnd f vd sp hsp hkind => ?_, fun att ad hact => ?_, ?_⟩
  · have hfmt : (isPosit f || decide (f = .b32)) = true := by simpa using hf
    exact .eq (f := qzeroCore p f mask) (if_pos ⟨hmask, hfmt⟩) (qzeroCore_zeroes hfree)
  · have hfields : (decide (mask ≠ 0) && (if rnd then decide (sp.val % 2 = 0) else decide (sp = 0))) = true :=
      Bool.and_eq_true_iff.mpr ⟨decide_eq_true hmask, by cases rnd <;> simpa using hsp⟩
    have hexec : exec (.vQrnd d p rnd f vd mask sp) s = .next (slotOp s d 0x422 (qrndCore p rnd f vd mask sp)) := if_pos hfields
    refine ⟨fun hact => .eq hexec (qrndCore_inactive hfree hact), ?_⟩
    intro hact x m r
    obtain ⟨pos, hcore⟩ := qrndCore_rounds (x := x) (f := f) (rnd := rnd) (vd := vd) (sp := sp) hfree hact hkind
    exact ⟨pos, .eq hexec hcore⟩
  · exact ⟨.eq (hspill att ad) (qspillCore_inactive hfree hact), .eq (hfill ad) (qfillCore_inactive hfree hact)⟩
  · intro ad hact hposit size before named fin
    refine ⟨?_, ?_⟩
    · intro att hnames write
      have hcore := qspillCore_spills (x := coreIn s d i) (b := fun l => (laneAcc c l).base.getD (named l)) hfree hact hposit
        (fun l hl => have ⟨hnone, hsome, _⟩ := hnames l hl; spillBase_eq hnone hsome) (fun l hl => have ⟨_, _, hok⟩ := hnames l hl; hok)
      have hlanes : (took cyc).mapLanes ls (fun l q => q.onLong ((laneAcc c l).base.getD (named l))) = { took cyc with
          lq := c.lq.mapIdx fun l q => if mask.getLsbD l then q.onLong (q.base.getD (named l)) else q } :=
        (mapLanes_congr (g' := fun l q => q.onLong (q.base.getD (named l))) fun l hl => rfl).trans (mapLanes_maskList ..)
      have hwrite (l : Nat) : lanePends c (fin l) ((laneAcc c l).base.getD (named l)) l = write l := by
        rw [lanePends, oldImage_isNone]
      refine .eq (hspill att ad) (hcore.trans ?_)
      exact congrArg₂ (fun (c' : Core) (l : List (List Pend)) => { c' with
        pend := c.pend ++ l.flatten, vecDone := (ls.map fin).foldl max c.vecDone }) hlanes (List.map_congr_left fun l _ => hwrite l)
    · intro himgs
      refine .eq (hfill ad) ((qfillCore_fills hfree hact hposit (fun l hl => (himgs l hl).1) fun l hl => (himgs l hl).2).trans ?_)
      exact mapLanes_maskList (took cyc) mask fun l q => q.onLong (named l)

/-! ### One beat of a register form (R162, R163) -/

/-- The positions of a beat that are elements of the operation (R160, R166). -/
def beatPositions (o : VOp) (f : Fmt) (unit : Nat) : List Nat :=
  ((List.range 16).map (16 * unit + ·)).filter fun k => decide (k < o.elems f)

/-- The result of an element operation at position `k` of a register form, and its flag. -/
def regResult (o : VOp) (r : RegForm) (extra : Nat) (j : VecJob) (c : Core) (k : Nat) : Nat × VFlag :=
  let sv := j.sval.toNat % 2 ^ fmtBits r.fmt
  o.elem r.fmt (pepperMode r.rnd j.seed (j.s2.toNat % 2 ^ 32) j.pstep.toNat (j.s3.toNat + k))
    (if r.scal && decide (o = .vmov) then sv else regElem c r.fmt r.va k)
    (if r.scal then sv else if o.arity = 1 then 0 else regElem c r.fmt r.vb k)
    (if o.arity = 3 then regElem c r.fmt r.vc k else 0) ((predVal c (Fin.ofNat 16 extra)).getLsbD k)

/-- What a beat makes of position `k`: whether it is active, and its result, of an inactive one 0 and no flag. -/
def beatOutcome (act : DWord) (res : Nat → Nat × VFlag) (k : Nat) : Nat × Bool × Nat × VFlag :=
  (k, act.getLsbD k, if act.getLsbD k then res k else (0, none))

/-- The flags of a beat: those of its active positions (R163). -/
def regFlags (o : VOp) (r : RegForm) (extra : Nat) (j : VecJob) (c : Core) : List (Nat × Nat) :=
  ((beatPositions o r.fmt j.unit).filter fun k => j.act.getLsbD k).filterMap fun k => (regResult o r extra j c k).2.map fun f => (f, k)

/-- The cycle from which the results of a beat are readable (R166). -/
def regReady (o : VOp) (r : RegForm) (j : VecJob) : Nat := j.start + (j.unit + 1) * (o.time r.fmt).1 - 1 + (o.time r.fmt).2

/-- What a beat adds to the timed writes of the core: its register writes and its flags. -/
def Core.beaten (c : Core) (o : VOp) (r : RegForm) (extra : Nat) (j : VecJob) (ws : List PWrite) : Core :=
  { c with pend := c.pend ++ ws.map (fun w => ⟨regReady o r j, true, w⟩) ++
      flagPends (regReady o r j) j.opIdx (regFlags o r extra j c) }

/-- V.CMP takes up the outcome of one position: where it writes, the bit of the position and its value. -/
def putBit (zm : Bool) (q : DWord × DWord) (y : Nat × Bool × Nat × VFlag) : DWord × DWord :=
  if y.2.1 || zm then (q.1 ||| BitVec.ofNat 64 (2 ^ y.1), q.2 ||| BitVec.ofNat 64 (y.2.2.1 * 2 ^ y.1)) else q

/-- The bits of Pd above the `n` elements of an operation, which the last beat of V.CMP clears (R163). -/
def highBits (n : Nat) (last : Bool) : DWord := if last then BitVec.ofNat 64 (2 ^ 64 - 2 ^ n) else 0

theorem beatOutcome_flags (act : DWord) (res : Nat → Nat × VFlag) (ks : List Nat) :
    (ks.map (beatOutcome act res)).filterMap (fun y => y.2.2.2.map fun f => (f, y.1)) =
    (ks.filter fun k => act.getLsbD k).filterMap fun k => (res k).2.map fun f => (f, k) := by
  rw [List.filterMap_map, List.filterMap_filter]
  refine List.filterMap_congr fun k _ => ?_
  cases h : act.getLsbD k <;> simp [beatOutcome, h]

/-- An active position takes its result, an inactive one is kept, or with ZM written with zeros (R162). -/
theorem beatOutcome_writes (act : DWord) (res : Nat → Nat × VFlag) (zm : Bool) (f : Fmt) (vd k : Nat) :
    (if (beatOutcome act res k).2.1 || zm then elemWrite f vd k (beatOutcome act res k).2.2.1 else []) =
      if act.getLsbD k then elemWrite f vd k (res k).1 else if zm then elemWrite f vd k 0 else [] := by
  cases h : act.getLsbD k <;> simp [beatOutcome, h]

theorem b2n_le_one (b : Bool) : b2n b ≤ 1 := by cases b <;> decide

section
variable (r : RegForm) (extra : Nat) (j : VecJob) (c : Core)

theorem regBeat_elements {o : VOp} (ho : ∀ k, o ≠ .cmp k) : (regBeat o r extra j c).1 = c.beaten o r extra j
    ((beatPositions o r.fmt j.unit).map fun k =>
      if j.act.getLsbD k then elemWrite (o.out r.fmt) r.vd k (regResult o r extra j c k).1
      else if r.zm then elemWrite (o.out r.fmt) r.vd k 0 else []).flatten := by
  have hflags := beatOutcome_flags j.act (regResult o r extra j c) (beatPositions o r.fmt j.unit)
  have hws : ((beatPositions o r.fmt j.unit).map (beatOutcome j.act (regResult o r extra j c))).map
      (fun y => if y.2.1 || r.zm then elemWrite (o.out r.fmt) r.vd y.1 y.2.2.1 else []) = _ :=
    List.map_map.trans (List.map_congr_left fun k _ => beatOutcome_writes j.act (regResult o r extra j c) r.zm (o.out r.fmt) r.vd k)
  rw [Core.beaten, regFlags, ← hws, ← hflags]
  unfold regBeat
  dsimp only
  split
  · exact absurd rfl (ho _)
  · rfl

theorem regBeat_compares (cc : CmpCond) : (regBeat (.cmp cc) r extra j c).1 =
    let outs := (beatPositions (.cmp cc) r.fmt j.unit).map (beatOutcome j.act (regResult (.cmp cc) r extra j c))
    let q := outs.foldl (putBit r.zm) (0, 0)
    c.beaten (.cmp cc) r extra j [.p extra (q.1 ||| highBits ((VOp.cmp cc).elems r.fmt) (decide (j.unit + 1 = j.units))) q.2] := by
  have hflags := beatOutcome_flags j.act (regResult (.cmp cc) r extra j c) (beatPositions (.cmp cc) r.fmt j.unit)
  rw [Core.beaten, regFlags, ← hflags]
  rfl

theorem regResult_cmp_le_one (cc : CmpCond) (k : Nat) : (regResult (.cmp cc) r extra j c k).1 ≤ 1 :=
  b2n_le_one (compareElem ..)

end

/-! ### The bits that V.CMP writes (R163) -/

theorem getLsbD_highBits {n b : Nat} (hn : n ≤ 64) (hb : b < 64) (last : Bool) :
    (highBits n last).getLsbD b = (last && decide (n ≤ b)) := by
  have hlow : 2 ^ n - 1 < 2 ^ 64 := (Nat.sub_lt (Nat.two_pow_pos n) Nat.one_pos).trans_le (Nat.pow_le_pow_right Nat.two_pos hn)
  have hbit : (2 ^ 64 - 2 ^ n).testBit b = decide (n ≤ b) := by
    rw [← Nat.sub_add_cancel (Nat.one_le_two_pow (n := n)), Nat.testBit_two_pow_sub_succ hlow, Nat.testBit_two_pow_sub_one]
    simp only [hb, decide_true, Bool.true_and, ← decide_not, Nat.not_lt]
  cases last with
  | false => exact BitVec.getLsbD_zero
  | true => rw [highBits, if_pos rfl, BitVec.getLsbD_ofNat, hbit, decide_eq_true hb]

theorem getLsbD_ofNat_mul_two_pow {v : Nat} (hv : v ≤ 1) (k : Nat) {b : Nat} (hb : b < 64) :
    (BitVec.ofNat 64 (v * 2 ^ k)).getLsbD b = (decide (b = k) && decide (v = 1)) := by
  rw [BitVec.getLsbD_ofNat, decide_eq_true hb, Bool.true_and]
  rcases Nat.le_one_iff_eq_zero_or_eq_one.mp hv with rfl | rfl
  · rw [Nat.zero_mul, Nat.zero_testBit]
    exact (Bool.and_false _).symm
  · rw [Nat.one_mul, Nat.testBit_two_pow, decide_eq_true rfl, Bool.and_true]
    exact decide_eq_decide.mpr eq_comm

/-- A position changes no bit but its own. -/
theorem getLsbD_putBit {y : Nat × Bool × Nat × VFlag} (hy : y.2.2.1 ≤ 1) (zm : Bool) (q : DWord × DWord) {b : Nat} (hb : b < 64) :
    (putBit zm q y).1.getLsbD b = (q.1.getLsbD b || decide (b = y.1) && (y.2.1 || zm)) ∧
    (putBit zm q y).2.getLsbD b = (q.2.getLsbD b || decide (b = y.1) && ((y.2.1 || zm) && decide (y.2.2.1 = 1))) := by
  have hone := getLsbD_ofNat_mul_two_pow le_rfl y.1 hb
  rw [Nat.one_mul] at hone
  cases h : y.2.1 || zm with
  | false => simp only [putBit, h, Bool.false_eq_true, if_false, Bool.false_and, Bool.and_false, Bool.or_false, and_self]
  | true => simp only [putBit, h, if_true, BitVec.getLsbD_or, hone, getLsbD_ofNat_mul_two_pow hy y.1 hb, decide_true,
      Bool.true_and, Bool.and_true, and_self]

theorem beatOutcome_le_one {act : DWord} {res : Nat → Nat × VFlag} (hres : ∀ k, (res k).1 ≤ 1) (k : Nat) :
    (beatOutcome act res k).2.2.1 ≤ 1 := by
  rw [beatOutcome]
  split
  · exact hres k
  · exact Nat.zero_le 1

/-- The bit of a position is 1 where it is active and its result is. -/
theorem beatOutcome_bit (act : DWord) (res : Nat → Nat × VFlag) (zm : Bool) (k : Nat) :
    (((beatOutcome act res k).2.1 || zm) && decide ((beatOutcome act res k).2.2.1 = 1)) =
      (act.getLsbD k && decide ((res k).1 = 1)) := by
  cases h : act.getLsbD k <;> simp [beatOutcome, h]

theorem decide_mem_cons_and (P : Nat → Bool) (b k : Nat) (ks : List Nat) :
    (decide (b = k) && P k || decide (b ∈ ks) && P b) = (decide (b ∈ k :: ks) && P b) := by
  by_cases hk : b = k
  · simp only [hk, List.mem_cons, Bool.decide_or, Bool.and_or_distrib_right]
  · simp [hk]

/-- The beat writes the bits of its active positions, with ZM those of all, and gives an active one its result. -/
theorem getLsbD_foldl_putBit {act : DWord} {res : Nat → Nat × VFlag} (hres : ∀ k, (res k).1 ≤ 1) (zm : Bool) (ks : List Nat)
    (q : DWord × DWord) {b : Nat} (hb : b < 64) :
    ((ks.map (beatOutcome act res)).foldl (putBit zm) q).1.getLsbD b =
      (q.1.getLsbD b || decide (b ∈ ks) && (act.getLsbD b || zm)) ∧
    ((ks.map (beatOutcome act res)).foldl (putBit zm) q).2.getLsbD b =
      (q.2.getLsbD b || decide (b ∈ ks) && (act.getLsbD b && decide ((res b).1 = 1))) := by
  induction ks generalizing q with
  | nil => simp
  | cons k ks ih =>
    obtain ⟨hmask, hval⟩ := ih (putBit zm q (beatOutcome act res k))
    obtain ⟨hmask', hval'⟩ := getLsbD_putBit (beatOutcome_le_one hres k) zm q hb
    rw [List.map_cons, List.foldl_cons, hmask, hval, hmask', hval', beatOutcome_bit, Bool.or_assoc, Bool.or_assoc]
    exact ⟨congrArg _ (decide_mem_cons_and (fun k => act.getLsbD k || zm) b k ks),
      congrArg _ (decide_mem_cons_and (fun k => act.getLsbD k && decide ((res k).1 = 1)) b k ks)⟩

theorem mem_beatPositions_lt {o : VOp} {f : Fmt} {unit k : Nat} (h : k ∈ beatPositions o f unit) : k < o.elems f :=
  of_decide_eq_true (List.mem_filter.mp h).2

/-- A write of predicate bits changes those of its mask. -/
theorem getLsbD_applyPWrite_p {n : Nat} (h0 : n ≠ 0) (hn : n < 16) (c : Core) (mask val : DWord) {b : Nat} (hb : b < 64) :
    (vget (applyPWrite c (.p n mask val)).p n 0).getLsbD b =
      if mask.getLsbD b then val.getLsbD b else (vget c.p n 0).getLsbD b := by
  rw [applyPWrite, if_neg h0, vget_vset hn, BitVec.getLsbD_or, BitVec.getLsbD_and, BitVec.getLsbD_and, BitVec.getLsbD_not,
    decide_eq_true hb]
  cases mask.getLsbD b <;> simp

/-- The bits of Pd after a beat of V.CMP on positions `ks`, all below `n` (R162, R163). -/
theorem getLsbD_compared {act : DWord} {res : Nat → Nat × VFlag} (hres : ∀ k, (res k).1 ≤ 1) (zm : Bool) {ks : List Nat} {n : Nat}
    (hks : ∀ k ∈ ks, k < n) (hn : n ≤ 64) (last : Prop) [Decidable last] {e : Nat} (h0 : e ≠ 0) (he : e < 16) (old : Core)
    {b : Nat} (hb : b < 64) :
    let q := (ks.map (beatOutcome act res)).foldl (putBit zm) (0, 0)
    (vget (applyPWrite old (.p e (q.1 ||| highBits n (decide last)) q.2)).p e 0).getLsbD b =
      if b ∈ ks then (if act.getLsbD b then decide ((res b).1 = 1) else if zm then false else (vget old.p e 0).getLsbD b)
      else if last ∧ n ≤ b then false else (vget old.p e 0).getLsbD b := by
  obtain ⟨hmask, hval⟩ := getLsbD_foldl_putBit hres zm ks (0, 0) hb
  dsimp only
  rw [getLsbD_applyPWrite_p h0 he old _ _ hb, BitVec.getLsbD_or, getLsbD_highBits hn hb, hmask, hval]
  by_cases hmem : b ∈ ks
  · have hlow : ¬n ≤ b := Nat.not_le.mpr (hks b hmem)
    cases act.getLsbD b <;> cases zm <;> simp [hmem, hlow]
  · simp [hmem]

/-- Settles O34: a beat is `regBeat_elements`, or, of V.CMP, `regBeat_compares` with the bits of `getLsbD_compared`. -/
theorem registerBeatsWriteElements : Obligations.RegisterBeatsWriteElements := by
  intro o r extra j c hextra n ready sv res ks flags c' put own
  have hres : res = regResult o r extra j c := by
    funext k
    simp only [res, regResult, Bool.and_eq_true, decide_eq_true_eq]
    rfl
  have hown (ws : List PWrite) : own ws = c.beaten o r extra j ws := by
    rw [Core.beaten, regFlags, ← hres]
    rfl
  refine ⟨?_, ?_⟩
  · intro ho
    refine (regBeat_elements r extra j c ho).trans ?_
    rw [hown, ← hres]
    rfl
  · rintro cc rfl h0 hn
    refine ⟨_, _, (regBeat_compares r extra j c cc).trans (hown _).symm, fun old b hb => ?_⟩
    rw [hres]
    exact getLsbD_compared (regResult_cmp_le_one r extra j c cc) r.zm (fun k hk => mem_beatPositions_lt hk) hn
      (j.unit + 1 = j.units) h0 hextra old hb

end Sys2Proof.Machine

/-! PROOFS. The family of the die sequencer and the issue word: scalar writes and operations, branches and loops, waits, paging,
the end of a load, and what a word that is not issued does. -/
namespace Sys2Proof.Machine

/-! ### Sorting -/

theorem insertBy_eq_orderedInsert {α : Type} (le : α → α → Bool) (a : α) (l : List α) :
    insertBy le a l = l.orderedInsert (fun x y => le x y = true) a := by
  induction l with
  | nil => rfl
  | cons b l ih => rw [insertBy, List.orderedInsert_cons, ih]

/-- `sortBy` is Mathlib's insertion sort. -/
theorem sortBy_eq_insertionSort {α : Type} (le : α → α → Bool) (l : List α) :
    sortBy le l = l.insertionSort fun x y => le x y = true := by
  induction l with
  | nil => rfl
  | cons a l ih => rw [sortBy, insertBy_eq_orderedInsert, ih, List.insertionSort_cons]

theorem mem_sortBy {α : Type} {le : α → α → Bool} {l : List α} {a : α} : a ∈ sortBy le l ↔ a ∈ l := by
  rw [sortBy_eq_insertionSort]
  exact (List.perm_insertionSort _ l).mem_iff

theorem pairwise_sortBy {α : Type} {le : α → α → Bool} (htotal : ∀ a b, le a b = true ∨ le b a = true)
    (htrans : ∀ a b c, le a b = true → le b c = true → le a c = true) (l : List α) :
    (sortBy le l).Pairwise fun a b => le a b = true := by
  have : Std.Total fun x y => le x y = true := ⟨htotal⟩
  have : IsTrans α fun x y => le x y = true := ⟨htrans⟩
  rw [sortBy_eq_insertionSort]
  exact List.pairwise_insertionSort _ l

/-! ### Scalar writes (R248) -/

/-- The order in which scalar writes are taken: of readiness, then of issue (R248). -/
def scalarBefore (a b : SPend) : Bool :=
  decide (a.ready < b.ready) || (decide (a.ready = b.ready) && decide (a.issued ≤ b.issued))

theorem scalarBefore_iff {a b : SPend} :
    scalarBefore a b = true ↔ a.ready < b.ready ∨ a.ready = b.ready ∧ a.issued ≤ b.issued := by
  simp [scalarBefore]

/-- The scalars after a list of writes, one after the other. -/
def writeScalars (v : Vector DWord 64) (l : List SPend) : Vector DWord 64 := l.foldl (fun v p => v.set p.reg p.val) v

theorem writeScalars_unwritten {l : List SPend} {r : Reg6} (h : ∀ p ∈ l, p.reg ≠ r) (v : Vector DWord 64) :
    (writeScalars v l)[r] = v[r] := by
  induction l generalizing v with
  | nil => rfl
  | cons a l ih =>
    have hne : (a.reg : Nat) ≠ r := fun hr => h a List.mem_cons_self (Fin.ext hr)
    have hrest := ih (fun p hp => h p (List.mem_cons_of_mem a hp)) (v.set a.reg a.val)
    refine hrest.trans ?_
    simp [hne]

/-- The last write of a register is what it holds: `p`, when every other write of it stands before `p` in the order. -/
theorem writeScalars_last {l : List SPend} (hsorted : l.Pairwise fun a b => scalarBefore a b = true) {p : SPend} (hp : p ∈ l)
    (hlast : ∀ y ∈ l, y.reg = p.reg → y ≠ p → scalarBefore p y = false) (v : Vector DWord 64) :
    (writeScalars v l)[p.reg] = p.val := by
  induction l generalizing v with
  | nil => cases hp
  | cons a l ih =>
    obtain ⟨ha, hl⟩ := List.pairwise_cons.mp hsorted
    by_cases hmem : p ∈ l
    · exact ih hl hmem (fun y hy => hlast y (List.mem_cons_of_mem a hy)) (v.set a.reg a.val)
    · obtain rfl : p = a := (List.mem_cons.mp hp).resolve_right hmem
      have hother : ∀ y ∈ l, y.reg ≠ p.reg := by
        intro y hy hreg
        have hne : y ≠ p := fun h => hmem (h ▸ hy)
        exact absurd (ha y hy) (Bool.not_eq_true _ ▸ hlast y (List.mem_cons_of_mem p hy) hreg hne)
      refine (writeScalars_unwritten hother (v.set p.reg p.val)).trans ?_
      simp

/-- The writes that are readable by cycle `t`, in the order in which they are taken (R248). -/
def dueScalars (t : Nat) (q : Seq) : List SPend := sortBy scalarBefore (q.spend.filter fun p => decide (p.ready ≤ t))

theorem mem_dueScalars {t : Nat} {q : Seq} {p : SPend} : p ∈ dueScalars t q ↔ p ∈ q.spend ∧ p.ready ≤ t := by
  simp [dueScalars, mem_sortBy]

theorem dueScalars_sorted (t : Nat) (q : Seq) : (dueScalars t q).Pairwise fun a b => scalarBefore a b = true := by
  refine pairwise_sortBy (fun a b => ?_) (fun a b c => ?_) _ <;> simp only [scalarBefore_iff] <;> omega

theorem commitScalars_eq (t : Nat) (q : Seq) : commitScalars t q =
    { q with s := writeScalars q.s (dueScalars t q), spend := q.spend.filter fun p => decide (t < p.ready) } := rfl

/-- Settles O14: the writes due are taken in order (`dueScalars_sorted`), so the last of a register stays (`writeScalars_last`). -/
theorem scalarWritesBecomeReadable : Obligations.ScalarWritesBecomeReadable := by
  intro q t
  refine ⟨fun p hp hready hlast => ?_, fun r hnone => ?_, rfl⟩
  · refine writeScalars_last (dueScalars_sorted t q) (mem_dueScalars.mpr ⟨hp, hready⟩) (fun y hy hreg hne => ?_) q.s
    obtain ⟨hmem, hdue⟩ := mem_dueScalars.mp hy
    have hbefore := hlast y hmem hdue hreg hne
    rw [← Bool.not_eq_true, scalarBefore_iff]
    omega
  · exact writeScalars_unwritten (fun p hp => hnone p (mem_dueScalars.mp hp).1 (mem_dueScalars.mp hp).2) q.s

/-! ### Loops (R252, R253) -/

/-- One word of a stream: the levels and the program counter after it (R252). -/
def nextWord (x : List Loop × Nat) : List Loop × Nat := advance x.1 x.2

section
variable {ls : List Loop} {b w : Nat}

theorem nextWord_inside {l : Loop} {pc : Nat} (h : pc ≠ l.last) : nextWord (l :: ls, pc) = (l :: ls, pc + 1) := if_neg h

theorem nextWord_iterates {n : Nat} (hn : 1 < n) (i : Nat) :
    nextWord (⟨n, i, w + 1, w + b⟩ :: ls, w + b) = (⟨n - 1, i + 1, w + 1, w + b⟩ :: ls, w + 1) :=
  (if_pos rfl).trans (if_pos hn)

theorem nextWord_leaves (i : Nat) : nextWord (⟨1, i, w + 1, w + b⟩ :: ls, w + b) = advance ls (w + b) :=
  (if_pos rfl).trans (if_neg (lt_irrefl 1))

/-- The first `k` words of an iteration follow one another. -/
theorem iterate_nextWord_body {n i k : Nat} (hk : k < b) :
    nextWord^[k] (⟨n, i, w + 1, w + b⟩ :: ls, w + 1) = (⟨n, i, w + 1, w + b⟩ :: ls, w + 1 + k) := by
  induction k with
  | zero => rfl
  | succ k ih =>
    rw [Function.iterate_succ_apply', ih (Nat.lt_of_succ_lt hk)]
    exact nextWord_inside (by dsimp only; omega)

/-- The last word of an iteration that is not the last one starts the next. -/
theorem iterate_nextWord_iteration (hb : 1 ≤ b) {n : Nat} (hn : 1 < n) (i : Nat) :
    nextWord^[b] (⟨n, i, w + 1, w + b⟩ :: ls, w + 1) = (⟨n - 1, i + 1, w + 1, w + b⟩ :: ls, w + 1) := by
  obtain ⟨k, rfl⟩ := Nat.exists_eq_add_of_le' hb
  rw [Function.iterate_succ_apply', iterate_nextWord_body k.lt_succ_self, Nat.add_assoc, Nat.add_comm 1 k]
  exact nextWord_iterates hn i

theorem iterate_nextWord_iterations (hb : 1 ≤ b) {c i : Nat} (hi : i < c) :
    nextWord^[i * b] (⟨c, 0, w + 1, w + b⟩ :: ls, w + 1) = (⟨c - i, i, w + 1, w + b⟩ :: ls, w + 1) := by
  induction i with
  | zero => rw [Nat.zero_mul]; rfl
  | succ i ih =>
    rw [Nat.succ_mul, Nat.add_comm, Function.iterate_add_apply, ih (Nat.lt_of_succ_lt hi),
      iterate_nextWord_iteration hb (by omega), Nat.sub_sub]

theorem iterate_nextWord_word {c i k : Nat} (hi : i < c) (hk : k < b) :
    nextWord^[i * b + k] (⟨c, 0, w + 1, w + b⟩ :: ls, w + 1) = (⟨c - i, i, w + 1, w + b⟩ :: ls, w + 1 + k) := by
  rw [Nat.add_comm, Function.iterate_add_apply, iterate_nextWord_iterations (Nat.one_le_of_lt hk) hi, iterate_nextWord_body hk]

/-- The last word of the last iteration leaves the level. -/
theorem iterate_nextWord_loop {c : Nat} (hc : 1 ≤ c) (hb : 1 ≤ b) :
    nextWord^[c * b] (⟨c, 0, w + 1, w + b⟩ :: ls, w + 1) = advance ls (w + b) := by
  obtain ⟨i, rfl⟩ := Nat.exists_eq_add_of_le' hc
  obtain ⟨k, rfl⟩ := Nat.exists_eq_add_of_le' hb
  have hwords : (i + 1) * (k + 1) = i * (k + 1) + k + 1 := by ring
  rw [hwords, Function.iterate_succ_apply', iterate_nextWord_word i.lt_succ_self k.lt_succ_self, Nat.succ_eq_add_one,
    Nat.add_sub_cancel_left, Nat.add_assoc, Nat.add_comm 1 k]
  exact nextWord_leaves i

end

/-- Settles O16: a loop ends by `iterate_nextWord_loop`; its words before are those of `iterate_nextWord_word`. -/
theorem loopRunsItsCount : Obligations.LoopRunsItsCount := by
  intro ls c b w hc hb
  exact ⟨iterate_nextWord_loop hc hb, fun i k hi hk => iterate_nextWord_word hi hk⟩

/-! ### The CTL slot (R241, R243) -/

theorem State.setSeq_twice (s : State) (d : Die) (q r : Seq) : (s.setSeq d q).setSeq d r = s.setSeq d r := by
  simp only [State.setSeq, State.setDie_die_self, State.setDie_twice]

/-- A sequencer in whose word an operation of the CTL slot stands: its charge is counted, a word is issued (R46, R241). -/
def Seq.issues (q : Seq) (op : Nat) : Seq := { q with energy := q.energy + Config.charge op, issued := true }

section
variable {s : State} {d : Die}

theorem ctlOp_issuing (h : issuing s d = true) (op : Nat) (f : State → State) :
    ctlOp s d op f = f (s.setSeq d ((s.die d).seq.issues op)) := by
  simp only [ctlOp, h, if_true, addEnergy, State.setSeq_seq, State.setSeq_twice, Seq.issues]

theorem ctlOp_not_issuing (h : issuing s d = false) (op : Nat) (f : State → State) : ctlOp s d op f = s := by
  simp only [ctlOp, h, Bool.false_eq_true, if_false]

theorem sRead_setSeq (s : State) (d : Die) (q : Seq) (r : Reg6) : sRead (s.setSeq d q) d r = q.s[r] := by
  simp only [sRead, State.setSeq_seq]

theorem sWrite_setSeq (s : State) (d : Die) (q : Seq) (r : Reg6) (lat : Nat) (v : DWord) : sWrite (s.setSeq d q) d r lat v =
    s.setSeq d { q with spend := q.spend ++ [⟨s.laps.now + lat, s.laps.now, r, v⟩] } := by
  simp only [sWrite, State.setSeq_seq, State.setSeq_twice, State.setSeq_laps]

theorem branchTo_setSeq (s : State) (d : Die) (q : Seq) (t : Option Nat) :
    branchTo (s.setSeq d q) d t = s.setSeq d { q with jump := t, nops := 2 } := by
  simp only [branchTo, State.setSeq_seq, State.setSeq_twice]

end

/-! ### Scalar operations (R247, R250, Tables 11-3, 11-4) -/

/-- An operation of a program word that writes a scalar. -/
theorem ctlOp_sWrite {s : State} {d : Die} (h : issuing s d = true) (op : Nat) (r : Reg6) (lat : Nat) (v : State → DWord) :
    ctlOp s d op (fun x => sWrite x d r lat (v x)) = s.setSeq d { (s.die d).seq.issues op with
      spend := (s.die d).seq.spend ++ [⟨s.laps.now + lat, s.laps.now, r, v (s.setSeq d ((s.die d).seq.issues op))⟩] } := by
  rw [ctlOp_issuing h, sWrite_setSeq]
  rfl

theorem linfoItem_setSeq (s : State) (d : Die) (q : Seq) (k : Nat) : linfoItem (s.setSeq d q) d k = linfoItem s d k := rfl

/-- The items of Table 11-4 in a run. -/
theorem linfoItem_of_run {s : State} {r : RunCfg} (hr : s.run.run = some r) (d : Die) {k v : Nat}
    (h : [s.laps.runLap, s.laps.moduleLap, d.val, s.laps.curK, r.n, b2n r.strict + 2 * b2n r.records, r.seed.toNat,
      nth s.net.presented d 0][k]? = some v) : k < 8 ∧ linfoItem s d k = v := by
  obtain ⟨hk, hv⟩ := List.getElem?_eq_some_iff.mp h
  refine ⟨hk, ?_⟩
  simp only [List.length_cons, List.length_nil] at hk
  subst hv
  interval_cases k <;> simp [linfoItem, sideN, modeWord, hr]

theorem execCtlLidx_open {s : State} {d : Die} (h : issuing s d = true) (sd : Reg6) {k : Fin 8} {l : Loop}
    (hl : (s.die d).seq.loops[k.val]? = some l) :
    execCtlLidx d sd k s = .next (ctlOp s d 0x04 fun y => sWrite y d sd 1 (BitVec.ofNat 64 l.iter)) := by
  simp only [execCtlLidx, h, hl, if_true]

/-- Settles O12: each operation is `ctlOp_sWrite`; the items of CTL.LINFO are those of `linfoItem_of_run`. -/
theorem scalarOperationsWrite : Obligations.ScalarOperationsWrite := by
  intro s d sd sa sb h q wr
  have hread (op : Nat) (r : Reg6) : sRead (s.setSeq d (q.issues op)) d r = q.s[r] := sRead_setSeq ..
  have hwrite {op lat : Nat} {v : State → DWord} {x : DWord} (hv : v (s.setSeq d (q.issues op)) = x) :
      Host.Outcome.next (φ := Fault) (ρ := Refusal) (ctlOp s d op fun y => sWrite y d sd lat (v y)) = .next (wr op lat x) := by
    rw [ctlOp_sWrite h, hv]
    rfl
  refine ⟨fun imm => hwrite rfl, fun imm => hwrite ?_, fun fn imm => hwrite ?_, fun fn imm => hwrite ?_, hwrite ?_,
    fun k l hl => ?_, fun r hr k v hv => ?_⟩
  · rw [hread]; rfl
  · rw [hread, hread]; rfl
  · rw [hread]; rfl
  · rw [hread, hread, BitVec.ofNat_mul, BitVec.ofNat_toNat, BitVec.ofNat_toNat, BitVec.setWidth_eq, BitVec.setWidth_eq]
  · exact (execCtlLidx_open h sd hl).trans (hwrite rfl)
  · obtain ⟨hk, hitem⟩ := linfoItem_of_run hr d hv
    refine (if_pos hk).trans (hwrite ?_)
    rw [linfoItem_setSeq, hitem]

/-! ### Branches and loops -/

/-- The conditions of R251. -/
theorem brTaken_eq_brHolds (c : BrCond) (a b : DWord) : brTaken c a b = brHolds c a b := by
  cases c with
  | eq => rfl
  | ne => exact (congrArg not (beq_eq_decide ..)).trans decide_not.symm
  | lt => rfl
  | le => rfl
  | ltu => rfl
  | leu => rfl

theorem brTarget_eq {pc : Nat} {ofs : BitVec 20} (h : 0 ≤ (pc : Int) + ofs.toInt) : brTarget pc ofs = ((pc : Int) + ofs.toInt).toNat :=
  if_neg (not_lt.mpr h)

/-- Settles O15: the conditions are `brTaken_eq_brHolds`, the target is `brTarget_eq`, a loop starts as `loopStart` says. -/
theorem branchesAndLoopsRedirect : Obligations.BranchesAndLoopsRedirect := by
  intro s d sa sb ofs h hofs q tgt hold br
  have hread (op : Nat) (r : Reg6) : sRead (s.setSeq d (q.issues op)) d r = q.s[r] := sRead_setSeq ..
  have hseq (op : Nat) : ((s.setSeq d (q.issues op)).die d).seq = q.issues op := State.setSeq_seq ..
  have hpc (op : Nat) : brTarget (q.issues op).pc ofs = tgt := brTarget_eq hofs
  refine ⟨fun c => congrArg Host.Outcome.next ?_, congrArg Host.Outcome.next ?_, fun src count body => ?_⟩
  · rw [ctlOp_issuing h, branchTo_setSeq, hread, hread, hseq, hpc, brTaken_eq_brHolds]
    rfl
  · rw [ctlOp_issuing h, branchTo_setSeq, hseq, hpc]
    rfl
  · intro n
    have hn : (if src then ((sRead (s.setSeq d (q.issues 0x12)) d sa).setWidth 32 : Word).toNat else count.toNat) = n := by
      rw [hread, BitVec.toNat_setWidth]
    refine congrArg Host.Outcome.next ?_
    rw [ctlOp_issuing h, hn, hseq, State.setSeq_twice, loopStart]
    split <;> rfl

/-! ### NOP, CTL.COLL, CTL.PSTEP, LAP.END and CTL.WAIT -/

/-- An operation of a program word that replaces the sequencer's state. -/
theorem ctlOp_setSeq {s : State} {d : Die} (h : issuing s d = true) (op : Nat) (g : State → Seq) :
    ctlOp s d op (fun x => x.setSeq d (g x)) = s.setSeq d (g (s.setSeq d ((s.die d).seq.issues op))) := by
  rw [ctlOp_issuing h, State.setSeq_twice]

/-- Settles O20: each operation replaces the sequencer's state (`ctlOp_setSeq`). -/
theorem collPstepLapEndAct : Obligations.CollPstepLapEndAct := by
  intro s d
  refine ⟨rfl, ?_⟩
  intro h q hold
  refine ⟨fun sd vn comb pq => congrArg Host.Outcome.next ((ctlOp_setSeq h _ _).trans ?_),
    fun sa => congrArg Host.Outcome.next ((ctlOp_setSeq h _ _).trans ?_),
    fun fin => congrArg Host.Outcome.next ((ctlOp_setSeq h _ _).trans ?_)⟩
  · rw [State.setSeq_seq]; rfl
  · rw [State.setSeq_seq, sRead_setSeq, ← BitVec.ofNat_toNat]; rfl
  · rw [State.setSeq_seq]; rfl

section
variable {s : State} {d : Die} {w : Wait} (hw : (s.die d).seq.wait = some w)
include hw

theorem execWaitMet_waiting : execWaitMet d s =
    if w.n ≤ (s.die d).seq.bar[w.bar] ∧ (w.limit = 0 ∨ s.laps.now ≤ w.issued + w.limit) then
      .next (s.setSeq d { (s.die d).seq with
        bar := (s.die d).seq.bar.set w.bar ((s.die d).seq.bar[w.bar] - w.n), wait := none
        nops := if w.issued < s.laps.now then 1 else 0
        stalls := if w.issued < s.laps.now then (s.die d).seq.stalls + 1 else (s.die d).seq.stalls })
    else .next s := by
  simp only [execWaitMet, hw, vget_fin, vset_eq_set w.bar.isLt]

theorem execWaitLimit_waiting : execWaitLimit d s =
    if w.limit ≠ 0 ∧ w.issued + w.limit + 1 = s.laps.now then .next (raiseDie s d 0x014A 6 0) else .next s := by
  simp only [execWaitLimit, hw]

end

/-- Settles O18: `execWaitMet_waiting` and `execWaitLimit_waiting`; the record is `recorded_mergeRec_self`. -/
theorem waitsEndOrFault : Obligations.WaitsEndOrFault := by
  intro s d
  refine ⟨fun bar n lim hn h => ?_, fun w hw => ?_⟩
  · refine (if_neg hn).trans (congrArg Host.Outcome.next ((ctlOp_setSeq h _ _).trans ?_))
    rw [State.setSeq_seq]
    rfl
  · intro b
    have hmet := execWaitMet_waiting hw
    have hlimit := execWaitLimit_waiting hw
    refine ⟨fun hb ht => hmet.trans (if_pos ⟨hb, ht⟩), fun hunmet => hmet.trans (if_neg ?_), fun hl hnow => ?_,
      fun hnot => hlimit.trans (if_neg ?_)⟩
    · rintro ⟨hb, ht⟩
      omega
    · obtain ⟨r, hr, hcause, hdie, hat⟩ := recorded_mergeRec_self (mkRec s 2 0x014A d none 6 0 0 1) s.faults.detected
      exact ⟨raiseDie s d 0x014A 6 0, hlimit.trans (if_pos ⟨hl, hnow.symm⟩), Bool.or_true _, rfl, rfl, r, hr, hcause, hdie, hat⟩
    · rintro ⟨hl, hnow⟩
      exact hnot.elim hl fun h => h hnow.symm

/-! ### Paging (R262, R263, R271) -/

theorem streamLen_setSeq (s : State) (d : Die) (q : Seq) : streamLen (s.setSeq d q) d = streamLen s d := rfl

/-- A page beyond the stream is no page (PAGE_RANGE). -/
theorem pageStart_beyond {s : State} {d : Die} {p : Nat} (h : streamLen s d ≤ p * 1024) :
    pageStart s d p = raiseDie s d 0x0150 6 0 := if_pos h

theorem pageStart_starts {s : State} {d : Die} {q : Seq} {p : Nat} (hlen : p * 1024 < streamLen s d)
    (hloads : ∀ a b c, q.frames[Fin.ofNat 128 p] ≠ .loading a b c) (hissued : q.frames[Fin.ofNat 128 p] ≠ .held (q.pc / 1024)) :
    pageStart (s.setSeq d q) d p = s.setSeq d { q with
      frames := q.frames.set (Fin.ofNat 128 p) (.loading p 0 s.laps.now), pageQ := q.pageQ ++ [p] } := by
  have hframe : vget q.frames (p % 128) .none = q.frames[Fin.ofNat 128 p] := vget_fin _ (Fin.ofNat 128 p) _
  have hset (x : PFrame) : vset q.frames (p % 128) x = q.frames.set (Fin.ofNat 128 p) x := vset_eq_set (Fin.ofNat 128 p).isLt x
  simp only [pageStart, State.setSeq_seq, State.setSeq_twice, State.setSeq_laps, streamLen_setSeq, hframe, hset]
  rw [if_neg (not_le.mpr hlen), if_neg hissued]

theorem execPageLoadDone_loading {s : State} {d : Die} {f : Fin 128} {p last : Nat}
    (h : (s.die d).seq.frames[f] = .loading p (pageWords s d p) last) : execPageLoadDone d f s =
      if last + 176 ≤ s.laps.now then .next (s.setSeq d { (s.die d).seq with frames := (s.die d).seq.frames.set f (.held p) })
      else .next s := by
  simp only [execPageLoadDone, h, true_and]

/-- Settles O19: a page starts to load by `pageStart_starts`, or is refused by `pageStart_beyond`; a loading frame is
`execPageLoadDone_loading`. -/
theorem pagesLoadAndAreHeld : Obligations.PagesLoadAndAreHeld := by
  intro s d
  refine ⟨?_, ?_, ?_⟩
  · intro src sa page h q p f
    have hframes : ((s.setSeq d { q with issued := true }).die d).seq.frames = q.frames := by rw [State.setSeq_seq]
    have hexec : exec (.ctlPage d src sa page) s = .next (pageStart (s.setSeq d { q with issued := true }) d p) := by
      simp only [exec, execCtlPage, h, if_true]
      rfl
    refine ⟨fun hlen hloads hissued => ?_, fun hlen => ?_⟩
    · exact hexec.trans (congrArg Host.Outcome.next (pageStart_starts hlen hloads hissued))
    · obtain ⟨r, hr, hcause, -⟩ := recorded_mergeRec_self
        (mkRec (s.setSeq d { q with issued := true }) 2 0x0150 d none 6 0 0 1) s.faults.detected
      refine ⟨_, hexec.trans (congrArg Host.Outcome.next (pageStart_beyond hlen)), Bool.or_true _, hframes, r, hr, hcause⟩
  · intro f p last h
    have hexec := execPageLoadDone_loading h
    exact ⟨fun hdone => hexec.trans (if_pos hdone), fun hearly => hexec.trans (if_neg (not_le.mpr hearly))⟩
  · intro hstate hdue hprog hcodes hidle hrun
    have hguard : ((s.die d).regs.state == 1 && s.run.program.isSome && s.run.loadCodes.isEmpty && s.laps.state == 0 &&
        !inRun s && decide ((s.die d).due = 0)) = true := by
      simp [hstate, hdue, hprog, hcodes, hidle, hrun, inRun]
    refine ⟨_, if_pos hguard, ?_, fun e he => ?_⟩
    · rw [State.setDie_die_self]
    · rw [State.setDie_die_other _ _ he]
      exact State.setSeq_die_other _ _ he

/-! ### The end of a load (R268) -/

/-- A die whose load has finished with code `c`: its code is reported, and of a program that passed its checks its resident pages
are held, those of the first `n` words. -/
def DieSt.loadReported (x : DieSt) (c : Byte) (n : Option Nat) : DieSt :=
  { x with
    regs := { x.regs with loadDone := true, loadCode := c, state := if n.isSome then 2 else 0 }
    seq := match n with
      | some n => { x.seq with
          frames := Vector.ofFn fun i : Fin 128 => if i.val < n / 1024 then .held i.val else .none, pageQ := [] }
      | none => x.seq }

theorem holdPages_of_setDie (s : State) (d : Die) (x : DieSt) (n : Nat) : holdPages (s.setDie d x) d n = s.setDie d { x with
    seq := { x.seq with
      frames := Vector.ofFn fun i : Fin 128 => if i.val < n / 1024 then .held i.val else .none, pageQ := [] } } := by
  simp only [holdPages, State.setSeq, State.setDie_die_self, State.setDie_twice]

/-- Whether every die has reported its load, of a module in which die `d` has. -/
theorem all_loadDone_setDie {s : State} {d : Die} {x : DieSt} (hx : x.regs.loadDone = true) :
    ((List.finRange 16).all fun e => ((s.setDie d x).die e).regs.loadDone) = true ↔
      ∀ e, e ≠ d → (s.die e).regs.loadDone = true := by
  rw [List.all_eq_true]
  refine ⟨fun h e he => ?_, fun h e _ => ?_⟩
  · have hdone := h e (List.mem_finRange e)
    rwa [State.setDie_die_other _ _ he] at hdone
  · by_cases he : e = d
    · rw [he, State.setDie_die_self]; exact hx
    · rw [State.setDie_die_other _ _ he]; exact h e he

/-- The words of the program that a load brings to die `d` and that stay resident; none where a check has failed. -/
def residentLoad (s : State) (d : Die) : Option Nat := s.run.loading.map fun p => (nth p.streams d.val (0, 0, 0)).2.2

section
variable {s : State} {d : Die} {c : Byte} (hcode : s.run.loadCodes[d.val]? = some c)
include hcode

theorem execLoadDone_waiting (h : (s.die d).due ≠ 0) : execLoadDone d s = .next s := by
  simp only [execLoadDone, hcode, h, ne_eq, not_false_eq_true, decide_true, Bool.or_true, if_true]

/-- The last die that reports completes the load. -/
theorem execLoadDone_reports (hfirst : (s.die d).regs.loadDone = false) (h : (s.die d).due = 0) : execLoadDone d s = .next
    { s.setDie d ((s.die d).loadReported c (residentLoad s d)) with
      run := if ∀ e, e ≠ d → (s.die e).regs.loadDone = true then
        { s.run with program := s.run.loading, loading := none, loadCodes := [] } else s.run } := by
  have htakes : ((s.die d).regs.loadDone || decide ((s.die d).due ≠ 0)) = false := by simp [hfirst, h]
  cases hl : s.run.loading with
  | none =>
    simp only [execLoadDone, hcode, htakes, hl, residentLoad, Bool.false_eq_true, if_false]
    rw [if_congr (all_loadDone_setDie rfl) rfl rfl]
    split <;> rfl
  | some p =>
    simp only [execLoadDone, hcode, htakes, hl, residentLoad, holdPages_of_setDie, Bool.false_eq_true, if_false]
    rw [if_congr (all_loadDone_setDie rfl) rfl rfl]
    split <;> rfl

end

theorem loadReported_frames (x : DieSt) (c : Byte) (n : Nat) (f : Fin 128) :
    (x.loadReported c (some n)).seq.frames[f] = if f.val < n / 1024 then .held f.val else .none := by
  simp [DieSt.loadReported]

/-- Settles O53: a die waits by `execLoadDone_waiting`, and reports by `execLoadDone_reports`. -/
theorem loadsFinishPerDie : Obligations.LoadsFinishPerDie := by
  intro s d c hcode hfirst
  refine ⟨execLoadDone_waiting hcode, fun hdue => ⟨_, execLoadDone_reports hcode hfirst hdue, ?_⟩⟩
  generalize hr : (if ∀ e, e ≠ d → (s.die e).regs.loadDone = true then
    { s.run with program := s.run.loading, loading := none, loadCodes := [] } else s.run : RunSt) = r
  have hself : State.die { s.setDie d ((s.die d).loadReported c (residentLoad s d)) with run := r } d =
      (s.die d).loadReported c (residentLoad s d) := State.setDie_die_self ..
  rw [hself]
  refine ⟨rfl, rfl, ?_, ?_, fun e he => State.setDie_die_other _ _ he, rfl, rfl, rfl, fun hall => ?_, ?_⟩
  · simp only [DieSt.loadReported, residentLoad, Option.isSome_map]
  · intro p hp f
    rw [residentLoad, hp]
    exact loadReported_frames ..
  · rw [if_pos hall] at hr
    subst hr
    exact ⟨rfl, rfl, rfl⟩
  · rintro ⟨e, he, hwaits⟩
    rw [if_neg fun hall => Bool.false_ne_true (hwaits.symm.trans (hall e he))] at hr
    exact hr.symm

/-! ### What a command answers (R243, R276) -/

/-- A command completes. -/
def Completes (o : Host.Outcome State Fault Refusal) : Prop := ∃ t, o = .next t

theorem Completes.next {t : State} : Completes (.next t) := ⟨t, rfl⟩

theorem Completes.ite {c : Prop} [Decidable c] {a b : Host.Outcome State Fault Refusal} (ha : Completes a) (hb : Completes b) :
    Completes (if c then a else b) := by
  split
  · exact ha
  · exact hb

/-- An outcome of a command whose fields are `ok`: it completes, or reserved fields are refused. -/
def Answers (ok : Bool) (o : Host.Outcome State Fault Refusal) : Prop :=
  (ok = false ∧ o = .refused .reserved) ∨ (ok = true ∧ Completes o)

theorem Answers.total {o : Host.Outcome State Fault Refusal} (h : Completes o) : Answers true o := .inr ⟨rfl, h⟩

theorem IsSlot.completes {s : State} {d : Die} {o} (h : IsSlot s d o) : Completes o := by
  obtain ⟨op, f, -, rfl⟩ := h
  exact .next

theorem SlotOut.answers {s : State} {d : Die} {ok o} (h : SlotOut s d ok o) : Answers ok o :=
  h.imp id (And.imp_right IsSlot.completes)

/-- A choice on the fields. -/
theorem Answers.ite {ok : Bool} {c : Prop} [Decidable c] {o : Host.Outcome State Fault Refusal} (hc : c ↔ ok = true)
    (h : Completes o) : Answers ok (if c then o else .refused .reserved) := by
  split
  next hok => exact .inr ⟨hc.mp hok, h⟩
  next hbad => exact .inl ⟨Bool.eq_false_iff.mpr fun hok => hbad (hc.mpr hok), rfl⟩

/-- The same with the refusal first. -/
theorem Answers.ite' {ok : Bool} {c : Prop} [Decidable c] {o : Host.Outcome State Fault Refusal} (hc : c ↔ ok = false)
    (h : Completes o) : Answers ok (if c then .refused .reserved else o) := by
  split
  next hbad => exact .inl ⟨hc.mp hbad, rfl⟩
  next hok => exact .inr ⟨Bool.eq_true_of_not_eq_false fun hbad => hok (hc.mpr hbad), h⟩

/-- Every command but those of the core slots and CTL.LIDX. -/
theorem exec_answers_of_no_core {c : Instr} (hc : coreDie c = none) (hl : ∀ d sd q, c ≠ .ctlLidx d sd q) (s : State) :
    Answers (fieldsOk c) (exec c s) := by
  cases c
  all_goals simp only [coreDie, reduceCtorEq] at hc
  case ctlLidx => exact absurd rfl (hl _ _ _)
  case ctlLinfo => exact .ite decide_eq_true_iff.symm .next
  case ctlSig => exact .ite' (by simp [fieldsOk]) .next
  case ctlWait => exact .ite' (by simp [fieldsOk]) .next
  case netSend => exact .ite' (by simp [fieldsOk]) (.ite .next .next)
  case memRd => exact .ite Iff.rfl .next
  case memWr => exact .ite Iff.rfl .next
  case memQadd => exact .ite Iff.rfl .next
  case memMaxloc => exact .ite Iff.rfl .next
  case memRadd => exact .ite Iff.rfl (.ite (.ite .next .next) .next)
  case unknownCommand => exact .ite' (by simp [fieldsOk]) .next
  case nop | ctlLi | ctlAlu | ctlMul | ctlColl | ctlPstep | ctlBr | ctlJmp | ctlLoop | ctlPage | lapEnd | memUnitService
      | memComplete | signalArrive | netArrive | splitHeaderWritten | dataFrame | directWrite | managementFrame |
      mgmtReadDeferred | ping | load | run | resume | stop | reset | attest | recoverCommit | wsetStart | verify |
      cancel | faultPop | fenceClear | advance | revoke0 | revoke1 | lockService | budgetWrite | envelopeWrite |
      peerCfgWrite | peerAdminWrite | registerWrite | dieResetEnd | fencedCompletion | memResponseTimeout | oscSwitch |
      driftCheck | staggerStep | railsOff | overvoltageShutdown | overcurrentShutdown | sealKeyIssue | extestLoad |
      uvChange =>
    exact .total .next
  case netMesh | residentReloadDone | closePhaseStart | lapOverrun | lapVerdict | ackFrame | commandFrame |
      neighbourSolicitation | ptpSync | ptpSyncLoss | pfcResumeSend | portLinkChange | egressDiscard | controlledStop |
      recoveryDirectWrite | wsetDigestDone | faultRecordQueue | inputRise | powerGoodCheck | memTrainingDone |
      linkTrainingDone | mapBuild | firstIdleLap | extestRelease | pauseTimeExpiry =>
    exact .total (.ite .next .next)
  case fabricPacketArrive => exact .total (.ite .next .next)
  case lapCut => exact .total (.ite (.ite .next .next) .next)
  case pfcReceive | clockXchk | thermalSample | ptpDelayResponse => exact .total (.ite .next (.ite .next .next))
  case lapSeal | memHot => exact .total (.ite .next (.ite .next (.ite .next .next)))
  case waitMet | waitLimit | pageLoadDone | earlyClose | ackDelay | verifyDone | uvStop =>
    refine .total ?_
    dsimp only [exec, execWaitMet, execWaitLimit, execPageLoadDone, execEarlyClose, execAckDelay, execVerifyDone, execUvStop]
    split
    · exact .ite .next .next
    · exact .next
  case channelResetEnd | drainSend =>
    refine .total ?_
    dsimp only [exec, execChannelResetEnd, execDrainSend]
    split
    · exact .ite .next (.ite .next .next)
    · exact .next
  case loadDone =>
    refine .total ?_
    dsimp only [exec, execLoadDone]
    split
    · exact .next
    · exact .ite .next (.ite .next .next)
  case refresh | faultDetected | discardedFrame =>
    refine .total ?_
    dsimp only [exec, execRefresh, execFaultDetected, execDiscardedFrame]
    split <;> exact .next
  case patrolRead | tapInstruction =>
    refine .total (.ite .next ?_)
    split <;> exact .next
  case recoveryDone =>
    refine .total (.ite .next (.ite .next ?_))
    split <;> exact .next
  case romVerifyDone =>
    refine .total (.ite ?_ .next)
    split <;> exact .next
  case egressTransmit =>
    refine .total ?_
    dsimp only [exec, execEgressTransmit]
    split
    · exact .next
    · split
      · exact .next
      · exact .ite .next .next
  case retransmit =>
    refine .total (.ite .next ?_)
    split
    · exact .next
    · split
      · exact .next
      · exact .ite .next .next
  case recordTransmit =>
    refine .total ?_
    dsimp only [exec, execRecordTransmit]
    split
    · exact .next
    · split
      · exact .next
      · split <;> exact .next
  case flashProgramDone =>
    refine .total ?_
    dsimp only [exec, execFlashProgramDone]
    split
    · exact .next
    · split <;> exact .next

/-- CTL.LIDX of an open level completes; of another, where a program word issues, it is refused (R280). -/
theorem lidx_answers (d : Die) (sd : Reg6) (q : Fin 8) (s : State) : Completes (exec (.ctlLidx d sd q) s) ∨
    issuing s d = true ∧ (s.die d).seq.loops.length ≤ q.val ∧ exec (.ctlLidx d sd q) s = .refused .reserved := by
  by_cases hi : issuing s d = true
  · cases hl : (s.die d).seq.loops[q.val]? with
    | some l => exact .inl ⟨_, execCtlLidx_open hi sd hl⟩
    | none => exact .inr ⟨hi, List.getElem?_eq_none_iff.mp hl, by simp only [exec, execCtlLidx, hi, hl, if_true]⟩
  · exact .inl ⟨s, if_neg hi⟩

/-- Every command but CTL.LIDX answers by its fields alone. -/
theorem exec_answers {c : Instr} (hl : ∀ d sd q, c ≠ .ctlLidx d sd q) (s : State) : Answers c.wf (exec c s) := by
  cases hd : coreDie c with
  | some d => exact (exec_core hd s).answers
  | none => exact exec_answers_of_no_core hd hl s

theorem Answers.refused {o : Host.Outcome State Fault Refusal} (h : Answers false o) : o = .refused .reserved :=
  h.elim And.right fun h => absurd h.1 Bool.false_ne_true

theorem Answers.completes {o : Host.Outcome State Fault Refusal} (h : Answers true o) : Completes o :=
  h.elim (fun h => absurd h.1.symm Bool.false_ne_true) And.right

/-- Settles O9: every command answers by its fields (`exec_answers`), but CTL.LIDX, which `lidx_answers` tells. -/
theorem wellFormedCommandsComplete : Obligations.WellFormedCommandsComplete := by
  intro c s
  by_cases hl : ∃ d sd q, c = .ctlLidx d sd q
  · obtain ⟨d, sd, q, rfl⟩ := hl
    refine ⟨fun hwf => absurd hwf (Bool.false_ne_true ·.symm), fun _ => ?_⟩
    exact (lidx_answers d sd q s).imp id fun ⟨hi, hlen, hexec⟩ => ⟨d, sd, q, rfl, hi, hlen, hexec⟩
  · have h := exec_answers (fun d sd q hc => hl ⟨d, sd, q, hc⟩) s
    exact ⟨fun hwf => (hwf ▸ h).refused, fun hwf => .inl (hwf ▸ h).completes⟩

/-! ### NOP words (R241) -/

theorem slotOp_nop {s : State} {d : Die} (h : ¬ Acts s d) (op : Nat) (f : CoreIn → Core → Core × List Raise) :
    slotOp s d op f = s := if_neg h

theorem memOp_nop {s : State} {d : Die} (h : ¬ Acts s d) (p : Reg4) (m : MemArgs) (op : Nat) (k : MemKind) (n align csAl : Nat) :
    memOp s d p m op k n align csAl = s := if_neg h

/-- A command of a core slot, in a cycle whose word is none. -/
theorem exec_core_nop {c : Instr} {s : State} {d : Die} (hwf : c.wf = true) (hd : coreDie c = some d) (h : ¬ Acts s d) :
    exec c s = .next s := by
  rcases exec_core hd s with ⟨hbad, -⟩ | ⟨-, op, f, -, hexec⟩
  · exact absurd (hwf.symm.trans hbad) Bool.noConfusion
  · rw [hexec, slotOp_nop h]

/-- A command of the MEM slot, in a cycle whose word is none. -/
theorem exec_mem_nop {c : Instr} {s : State} {d : Die} (hwf : c.wf = true) (hd : memDie c = some d) (h : ¬ Acts s d) :
    exec c s = .next s := by
  cases c <;> simp only [memDie, reduceCtorEq, Option.some.injEq] at hd <;> subst hd
  case memRd | memWr | memQadd | memMaxloc =>
    refine (if_pos hwf).trans ?_
    rw [memOp_nop h]
  case memRadd => exact (if_pos hwf).trans (if_neg h)

/-- A command of the CTL slot, in a cycle in which the sequencer issues no word. -/
theorem exec_ctl_nop {c : Instr} {s : State} {d : Die} (hwf : c.wf = true) (hd : ctlDie c = some d) (h : issuing s d = false) :
    exec c s = .next s := by
  have hno : ¬ issuing s d = true := Bool.eq_false_iff.mp h
  have hop (op : Nat) (f : State → State) : Host.Outcome.next (φ := Fault) (ρ := Refusal) (ctlOp s d op f) = .next s :=
    congrArg _ (ctlOp_not_issuing h op f)
  cases c <;> simp only [ctlDie, reduceCtorEq, Option.some.injEq] at hd <;> subst hd
  case nop => rfl
  case ctlLidx => exact if_neg hno
  case ctlLinfo => exact (if_pos (of_decide_eq_true hwf)).trans (hop _ _)
  case ctlSig | ctlWait => exact (if_neg (of_decide_eq_true hwf)).trans (hop _ _)
  case ctlPage => exact congrArg _ (if_neg hno)
  all_goals exact hop _ _

/-- Settles O10: `exec_core_nop`, `exec_mem_nop`, `exec_ctl_nop`. -/
theorem nopWordChangesNothing : Obligations.NopWordChangesNothing := by
  intro c s d hwf
  exact ⟨exec_core_nop hwf, exec_mem_nop hwf, exec_ctl_nop hwf⟩

end Sys2Proof.Machine

/-! PROOFS. The instruction reference family: data that travel between cores, memory operations and their requests, the service
of units and the completion of requests. -/
namespace Sys2Proof.Machine

/-! ### MEM.RADD with STRICT set (R295) -/

/-- A program fault of a die marks the lap and is recorded. -/
theorem raiseDie_recorded (s : State) (d : Die) (cause unit addr : Nat) :
    (raiseDie s d cause unit addr).laps.progFault = true ∧ (raiseDie s d cause unit addr).laps.lapFault = true ∧
      Recorded (raiseDie s d cause unit addr).faults.detected cause d s.laps.now :=
  ⟨Bool.or_true _, rfl, recorded_mergeRec_self (mkRec s 2 cause d none unit 0 addr 1) s.faults.detected⟩

theorem execMemRadd_strict {s : State} {d : Die} {f : Fmt} (hf : isPosit f = true ∨ isIeee f = true) (ha : Acts s d)
    (hs : strictNow s = true) (p : Reg4) (m : MemArgs) (cnt : Fin 64) :
    execMemRadd d p m f cnt s = .next (raiseDie s d 0x0169 11 0) := by
  have hprog : (issueNow s d).prog = true := ha
  simp only [execMemRadd, Bool.or_eq_true, hf, hprog, hs, if_true]

/-- Settles O41: the operation only raises the fault of its die. -/
theorem strictRaddIsAFault : Obligations.StrictRaddIsAFault := by
  intro s d p m f cnt hf ha hs
  obtain ⟨hprog, hlap, r, hr, hc, hd, -⟩ := raiseDie_recorded s d 0x0169 11 0
  exact ⟨_, execMemRadd_strict hf ha hs p m cnt, rfl, rfl, hprog, hlap, r, hr, hc, hd⟩

/-! ### NET.MESH (R291, R304, R306) -/

theorem mem_idxCores {s : State} {d : Die} {i : Nat} {c : Core} (h : (s.die d).cores[i]? = some c) : (i, c) ∈ idxCores s d := by
  obtain ⟨hi, rfl⟩ := List.getElem?_eq_some_iff.mp h
  exact List.mem_mapIdx.mpr ⟨i, hi, rfl⟩

/-- The module without the loads of its links and the faults found in the lap. -/
def State.unlinked (s : State) : State :=
  { s with
    laps := { s.laps with lapFault := false, progFault := false }
    faults := { s.faults with detected := [], lapRecs := [] }
    fabric := { s.fabric with crossings := [] } }

/-- From `s` to `t` data crossed links: their loads were counted, and links with too much of it found faulty (R309). -/
abbrev Crossed (s t : State) : Prop := Leaves State.unlinked s t

theorem crossed_crossLinks (s : State) (a b t n : Nat) : Crossed s (crossLinks s a b t n) :=
  Leaves.foldl (fun u y => by
    dsimp only
    exact .ite ⟨rfl, fun _ => rfl⟩ ⟨rfl, id⟩) _ (.refl s)

section
variable {s : State} {d : Die}

/-- The data that the cores of a die send in a NET.MESH. -/
def meshSent (s : State) (d : Die) (p : Reg4) (dir : Dir) (dst : Nat) (a : Csa) : List NetDatum :=
  ((idxCores s d).map fun y => meshData s d p dir dst a (coreIn s d y.1) y.2).flatten

/-- NET.MESH at its cores, the data that it sends, and the loads of the links that these cross. -/
theorem execNetMesh_acts (h : Acts s d) (p : Reg4) (dir : Dir) (dst : BitVec 16) (a : Csa) :
    let u := slotOp s d 0x601 (meshCore p dir dst.toNat a)
    ∃ t, execNetMesh d p dir dst a s = .next t ∧
      Crossed { u with fabric := { u.fabric with data := u.fabric.data ++ meshSent s d p dir dst.toNat a } } t :=
  ⟨_, if_pos h, Leaves.foldl (fun _ _ => crossed_crossLinks ..) _ (.refl _)⟩

theorem meshCore_legal {p : Reg4} {dir : Dir} {dst : Nat} {a : Csa} {x : CoreIn} {c : Core} (h : meshBad p dir dst a x c = []) :
    (meshCore p dir dst a x c).1 = { c with mesh := c.mesh.setIfInBounds (dirNo dir) (x.now + 2) } := by
  simp only [meshCore, h, List.isEmpty_nil, if_true, vset]

/-- Half `k` of the 64 bytes that core `i` sends to a neighbour. -/
def meshHalf (s : State) (d : Die) (p : Reg4) (dst : Nat) (c : Core) (q : Nat × Nat) (k : Nat) (bs : List Byte) : NetDatum :=
  ⟨d, dieOf q.1, q.2, dst + 32 * k, bs, s.laps.now + 36 + 24 * hops d q.1 + k, true, activeOn c p, s.laps.moduleLap, (s.die d).epoch,
    epochOf s d (dieOf q.1)⟩

theorem mem_meshSent {p : Reg4} {dir : Dir} {dst : Nat} {a : Csa} {i : Nat} {c : Core} {q : Nat × Nat}
    (hc : (s.die d).cores[i]? = some c) (hbad : meshBad p dir dst a (coreIn s d i) c = []) (hq : neighbour (sideN s) d i dir = some q) :
    meshHalf s d p dst c q 0 ((csRead c (csaAddr c a) 64).take 32) ∈ meshSent s d p dir dst a ∧
      meshHalf s d p dst c q 1 ((csRead c (csaAddr c a) 64).drop 32) ∈ meshSent s d p dir dst a := by
  have hdata : meshData s d p dir dst a (coreIn s d i) c =
      [meshHalf s d p dst c q 0 ((csRead c (csaAddr c a) 64).take 32),
        meshHalf s d p dst c q 1 ((csRead c (csaAddr c a) 64).drop 32)] := by
    have hq' : neighbour (coreIn s d i).n (coreIn s d i).die (coreIn s d i).idx dir = some q := hq
    simp only [meshData, hbad, hq', List.isEmpty_nil, if_true]
    rfl
  have hmem := List.mem_map_of_mem (f := fun y : Nat × Core => meshData s d p dir dst a (coreIn s d y.1) y.2) (mem_idxCores hc)
  dsimp only at hmem
  rw [hdata] at hmem
  exact ⟨List.mem_flatten.mpr ⟨_, hmem, List.mem_cons_self⟩, List.mem_flatten.mpr ⟨_, hmem, List.mem_cons_of_mem _ List.mem_cons_self⟩⟩

/-! ### NET.SEND (R292, R306) -/

/-- The sends that the cores of a die start in a NET.SEND. -/
def sendStarted (s : State) (d : Die) (p : Reg4) (ax w dst : Nat) (a : Csa) : List SendJob :=
  ((idxCores s d).map fun y => sendJobs p ax w dst a d (coreIn s d y.1) y.2).flatten

theorem execNetSend_acts {ax : Reg4} (hax : ax.val % 2 = 0) (h : Acts s d) (p : Reg4) (w : BitVec 8) (dst : BitVec 16) (a : Csa) :
    let u := slotOp s d 0x602 (sendCore p ax (w.toNat + 1) dst.toNat a)
    execNetSend d p ax w dst a s =
      .next { u with fabric := { u.fabric with sends := u.fabric.sends ++ sendStarted s d p ax (w.toNat + 1) dst.toNat a } } :=
  (if_neg (not_not.mpr hax)).trans (if_pos h)

theorem sendCore_legal {p : Reg4} {ax w dst : Nat} {a : Csa} {x : CoreIn} {c : Core} (h : sendBad p ax w dst a x c = []) :
    (sendCore p ax w dst a x c).1 = { c with injTo := x.now + w } := by
  simp only [sendCore, h, List.isEmpty_nil, if_true]

theorem mem_sendStarted {p : Reg4} {ax w dst : Nat} {a : Csa} {i : Nat} {c : Core} {q : Nat × Nat}
    (hc : (s.die d).cores[i]? = some c) (hbad : sendBad p ax w dst a (coreIn s d i) c = []) (hq : sendTo (sideN s) c ax = some q) :
    ⟨d, i, s.laps.now, w, csaAddr c a, dieOf q.1, q.2, dst, activeOn c p⟩ ∈ sendStarted s d p ax w dst a := by
  have hjobs : sendJobs p ax w dst a d (coreIn s d i) c =
      [⟨d, i, s.laps.now, w, csaAddr c a, dieOf q.1, q.2, dst, activeOn c p⟩] := by
    have hq' : sendTo (coreIn s d i).n c ax = some q := hq
    simp only [sendJobs, hbad, hq', List.isEmpty_nil, if_true]
    rfl
  have hmem := List.mem_map_of_mem (f := fun y : Nat × Core => sendJobs p ax w dst a d (coreIn s d y.1) y.2) (mem_idxCores hc)
  dsimp only at hmem
  rw [hjobs] at hmem
  exact List.mem_flatten.mpr ⟨_, hmem, List.mem_singleton_self _⟩

end

/-! ### NET_ARRIVE (R305, R306, R312) -/

/-- From `s` to `t` at most core `i` of die `d` changed, which is `c` in `t`, and faults were found. -/
structure CoreTakes (d : Die) (i : Nat) (c : Core) (s t : State) : Prop where
  others : ∀ e, e ≠ d → t.die e = s.die e
  fabric : t.fabric = s.fabric
  core : (t.die d).cores[i]? = some c
  cores : ∀ k, k ≠ i → (t.die d).cores[k]? = (s.die d).cores[k]?
  fault : s.laps.progFault = true → t.laps.progFault = true

namespace CoreTakes

variable {d : Die} {i : Nat} {c : Core} {s t : State}

theorem refl (h : (s.die d).cores[i]? = some c) : CoreTakes d i c s s := ⟨fun _ _ => rfl, rfl, h, fun _ _ => rfl, id⟩

theorem addFault (h : CoreTakes d i c s t) (r : FaultRec) : CoreTakes d i c s (addFault t r) :=
  ⟨h.others, h.fabric, h.core, h.cores, fun hs => Bool.or_eq_true_iff.mpr (.inl (h.fault hs))⟩

theorem setCore (h : CoreTakes d i c s t) (c' : Core) : CoreTakes d i c' s (t.setCores d ((t.die d).cores.set i c')) where
  others e he := (State.setCores_die_other _ _ he).trans (h.others e he)
  fabric := h.fabric
  core := by
    rw [State.setCores_die_self]
    exact List.getElem?_set_self (List.getElem?_eq_some_iff.mp h.core).1
  cores k hk := by
    rw [State.setCores_die_self]
    exact (List.getElem?_set_ne hk.symm).trans (h.cores k hk)
  fault := h.fault

theorem onCore (h : CoreTakes d i c s t) (f : Core → Core × List Raise) : CoreTakes d i (f c).1 s (onCore t d i f) := by
  simp only [Machine.onCore, h.core]
  exact List.foldlRecOn (motive := CoreTakes d i (f c).1 s) _ _ (h.setCore (f c).1) fun _ hu _ _ => hu.addFault _

theorem dropPackets (h : CoreTakes d i c s t) (e : Die) (n : Nat) : CoreTakes d i c s (dropPackets t e n) :=
  List.foldlRecOn (motive := CoreTakes d i c s) _ _ h fun _ hu _ _ => hu.addFault _

/-- Data that arrive one after another. -/
theorem arrive (h : CoreTakes d i c s t) (now : Nat) (l : List NetDatum) :
    CoreTakes d i (l.foldl (fun c y => (arriveBytes now y.addr y.bytes c).1) c) s
      (l.foldl (fun u y => Machine.onCore u d i (arriveBytes now y.addr y.bytes)) t) := by
  induction l generalizing c t with
  | nil => exact h
  | cons y l ih => exact ih (h.onCore _)

end CoreTakes

/-- Whether a datum is due at core `i` of a die by this cycle. -/
def dueAt (s : State) (d : Die) (i : Nat) (y : NetDatum) : Bool :=
  decide (y.die = d) && decide (y.core = i) && decide (y.arrive ≤ s.laps.now)

/-- The data due at a core that it takes: those of active operations, of no earlier epoch. -/
def dataTaken (s : State) (d : Die) (i : Nat) : List NetDatum :=
  ((s.fabric.data.filter (dueAt s d i)).filter (·.live)).filter fun y => !staleEpochs s y.src d y.srcEpoch y.dstEpoch

/-- The module without the data due at a core. -/
def State.withoutDue (s : State) (d : Die) (i : Nat) : State :=
  { s with fabric := { s.fabric with data := s.fabric.data.filter fun y => !dueAt s d i y } }

/-- The halves that arrive at a core in this very cycle. -/
def halvesNow (s : State) (d : Die) (i : Nat) : Nat :=
  ((s.fabric.data.filter (dueAt s d i)).filter fun y => y.mesh && decide (y.arrive = s.laps.now)).length

theorem execNetArrive_takes {s : State} {d : Die} {i : Nat} {c : Core} (hc : (s.die d).cores[i]? = some c) :
    ∃ t, execNetArrive d i s = .next t ∧
      CoreTakes d i ((dataTaken s d i).foldl (fun c y => (arriveBytes s.laps.now y.addr y.bytes c).1) c) (s.withoutDue d i) t ∧
      (4 < halvesNow s d i → t.laps.progFault = true) := by
  have hnone : CoreTakes d i c (s.withoutDue d i) (s.withoutDue d i) := .refl hc
  refine ⟨_, rfl, ?_, fun h => ?_⟩
  · refine ((?_ : CoreTakes d i c (s.withoutDue d i) _).dropPackets d _).arrive s.laps.now _
    split
    · exact hnone.addFault _
    · exact hnone
  · rw [if_pos (.inl h)]
    have hover : CoreTakes d i c (raiseCore (s.withoutDue d i) d i (0x0160, 0xFF, 0, 0)) _ := .refl hc
    exact ((hover.dropPackets d _).arrive s.laps.now _).fault (Bool.or_true _)

theorem arriveBytes_foldl (now : Nat) (l : List NetDatum) (c : Core) :
    let c' := l.foldl (fun c y => (arriveBytes now y.addr y.bytes c).1) c
    c'.cs = l.foldl (fun m y => memWrite m y.addr y.bytes) c.cs ∧ c'.v = c.v ∧ c'.p = c.p ∧ c'.a = c.a := by
  induction l generalizing c with
  | nil => exact ⟨rfl, rfl, rfl, rfl⟩
  | cons y l ih => exact ih _

/-- Settles O40: `mem_meshSent` with `meshCore_legal`, `mem_sendStarted` with `sendCore_legal`, and the data due at a core taken one
after another (`CoreTakes.arrive`). -/
theorem netDataTravelAndArrive : Obligations.NetDataTravelAndArrive := by
  intro s d
  refine ⟨fun p dir dst a ha => ?mesh, fun p ax w dst a hax ha => ?send, fun i c hc => ?arrive⟩
  case mesh =>
    obtain ⟨t, ht, hcross⟩ := execNetMesh_acts ha p dir dst a
    have hslot := slotOp_frame s d 0x601 (f := meshCore p dir dst.toNat a) fun x c => meshCore_stores ..
    have hdies : t.dies = (slotOp s d 0x601 (meshCore p dir dst.toNat a)).dies := hcross.get State.dies
    have hdie (e : Die) : t.die e = (slotOp s d 0x601 (meshCore p dir dst.toNat a)).die e := congrArg (·[e]) hdies
    have hdata : t.fabric.data = s.fabric.data ++ meshSent s d p dir dst.toNat a := by
      rw [hcross.get fun u => u.fabric.data, hslot.fabric]
    refine ⟨t, ht, fun e he => (hdie e).trans (hslot.others e he), ?_, ?_, ?_, ⟨_, hdata.symm⟩, fun i c hc hbad => ⟨?_, fun q hq => ?_⟩⟩
    · rw [hdie]; exact hslot.stores
    · rw [hcross.get fun u => u.fabric.sends, hslot.fabric]
    · rw [hcross.get fun u => u.fabric.signals, hslot.fabric]
    · rw [hdie, slotOp_core _ _ ha hc, meshCore_legal hbad]; rfl
    · rw [hdata]
      exact (mem_meshSent hc hbad hq).imp (List.mem_append_right _) (List.mem_append_right _)
  case send =>
    have hslot := slotOp_frame s d 0x602 (f := sendCore p ax (w.toNat + 1) dst.toNat a) fun x c => sendCore_stores ..
    refine ⟨_, execNetSend_acts hax ha p w dst a, ?_, ?_, ?_, fun i c hc hbad => ⟨?_, fun q hq => ?_⟩⟩
    · exact { hslot with fabric := rfl }
    · rw [hslot.fabric]
    · exact ⟨_, congrArg (Fabric.sends · ++ _) hslot.fabric.symm⟩
    · exact (slotOp_core _ _ ha hc).trans (congrArg some (sendCore_legal hbad))
    · exact List.mem_append_right _ (mem_sendStarted hc hbad hq)
  case arrive =>
    intro mine due
    obtain ⟨t, ht, htakes, hover⟩ := execNetArrive_takes hc
    obtain ⟨hcs, hv, hp, ha⟩ := arriveBytes_foldl s.laps.now (dataTaken s d i) c
    exact ⟨t, _, ht, htakes.others, htakes.fabric, htakes.core, htakes.cores, hcs, hv, hp, ha, hover⟩

/-! ### Budget granted to queued requests (R41) -/

/-- A die with other grants of its requests, and other counts of what its tiers granted. -/
def DieSt.granted (x : DieSt) (upd : MemReq → MemReq) (near far : Nat) : DieSt :=
  { x with
    memQ := x.memQ.map upd
    near := { x.near with asyncUsed := near }
    far := { x.far with asyncUsed := far } }

/-- The module with another state of its pacer, and with grants at a die. -/
def State.granted (s : State) (d : Die) (p : Pacer) (upd : MemReq → MemReq) (near far : Nat) : State :=
  { s with pacer := p }.setDie d ((s.die d).granted upd near far)

/-- A part of a request that its grants are no part of. -/
theorem ungranted_get {α : Type} {x y : MemReq} (h : x.ungranted = y.ungranted) (part : MemReq → α)
    (hp : ∀ z : MemReq, part z.ungranted = part z := by intros; rfl) : part x = part y :=
  (hp x).symm.trans ((congrArg part h).trans (hp y))

/-- From `s` to `t` requests of a die were granted budget. -/
def Granted (d : Die) (s t : State) : Prop :=
  ∃ p upd near far, (∀ r : MemReq, (upd r).ungranted = r.ungranted) ∧ t = s.granted d p upd near far

namespace Granted

variable {d : Die} {s t u : State}

theorem pacer (s : State) (d : Die) (p : Pacer) : Granted d s { s with pacer := p } :=
  ⟨p, id, _, _, fun _ => rfl, by
    rw [State.granted, DieSt.granted, List.map_id]
    exact (State.setDie_self { s with pacer := p } d).symm⟩

theorem refl (s : State) (d : Die) : Granted d s s := .pacer s d s.pacer

theorem trans (h : Granted d s t) (g : Granted d t u) : Granted d s u := by
  obtain ⟨p, upd, n, f, hu, rfl⟩ := h
  obtain ⟨p', upd', n', f', hu', rfl⟩ := g
  refine ⟨p', upd' ∘ upd, n', f', fun r => (hu' _).trans (hu r), ?_⟩
  have hdie : ((s.granted d p upd n f).die d).granted upd' n' f' = (s.die d).granted (upd' ∘ upd) n' f' := by
    simp only [State.granted, State.setDie_die_self, DieSt.granted, List.map_map]
  rw [State.granted, hdie]
  exact State.setDie_twice { s with pacer := p' } d _ _

theorem grantOne (s : State) (d : Die) (far late : Bool) (id : Nat) : Granted d s (grantOne s d far late id).1 := by
  unfold Machine.grantOne
  extract_lets x mine rs charge tier total had got ord upd n1 s1 s2
  have hu (r : MemReq) : (upd r).ungranted = r.ungranted := by
    unfold upd
    split
    · dsimp only
      split <;> rfl
    · rfl
  have h2 : Granted d s s2 := by
    cases far
    · exact ⟨_, upd, tier.asyncUsed + got, x.far.asyncUsed, hu, rfl⟩
    · exact ⟨_, upd, x.near.asyncUsed, tier.asyncUsed + got, hu, rfl⟩
  split
  · exact .pacer s d _
  · split
    · exact h2.trans (.pacer s2 d _)
    · exact h2

theorem grantAll (s : State) (d : Die) (far late : Bool) : Granted d s (grantAll s d far late) :=
  List.foldlRecOn (motive := fun y : State × Bool => Granted d s y.1) (waitingIds (s.die d) far) _ (.refl s d) fun y hy id _ => by
    split
    · exact hy.trans (grantOne ..)
    · exact hy

theorem fabric (h : Granted d s t) : t.fabric = s.fabric := by
  obtain ⟨p, upd, n, f, -, rfl⟩ := h
  rfl

theorem run (h : Granted d s t) : t.run = s.run := by
  obtain ⟨p, upd, n, f, -, rfl⟩ := h
  rfl

theorem others (h : Granted d s t) {e : Die} (he : e ≠ d) : t.die e = s.die e := by
  obtain ⟨p, upd, n, f, -, rfl⟩ := h
  exact State.setDie_die_other _ _ he

theorem die (h : Granted d s t) :
    ∃ upd near far, (∀ r : MemReq, (upd r).ungranted = r.ungranted) ∧ t.die d = (s.die d).granted upd near far := by
  obtain ⟨p, upd, n, f, hu, rfl⟩ := h
  exact ⟨upd, n, f, hu, State.setDie_die_self ..⟩

end Granted

/-! ### Requests queued (R293, R323 to R326) -/

/-- The module with the charge of a static operation counted; that of an asynchronous one falls due with its service (R41). -/
def State.charged (s : State) (d : Die) (async : Bool) (op : Nat) : State := if async then s else addEnergy s d op

/-- The requests that an operation queues: one for each tier and die that its cores name. -/
def memReqs (s : State) (d : Die) (p : Reg4) (m : MemArgs) (op : Nat) (k : MemKind) (n : Nat) : List MemReq :=
  let ins := memIns s d p m
  let home := memHome d m.async ins
  ((ins.map (memWhere home)).eraseDups).mapIdx fun i w =>
    memReq s d m k n (if m.async && decide (i = 0) then Config.charge op else 0) w (ins.filter fun y => decide (memWhere home y = w))

/-- The module with requests queued at a die. -/
def State.queues (s : State) (d : Die) (reqs : List MemReq) : State :=
  { s with fabric := { s.fabric with nextId := s.fabric.nextId + 1 } }.setDie d { s.die d with memQ := (s.die d).memQ ++ reqs }

section
variable {s : State} {d : Die}

theorem charged_get {α : Type} (async : Bool) (op : Nat) (part : State → α)
    (hp : ∀ (u : State) v, part { u with dies := v } = part u := by intros; rfl) : part (s.charged d async op) = part s := by
  cases async
  · exact hp s _
  · rfl

theorem charged_die_other (async : Bool) (op : Nat) {e : Die} (he : e ≠ d) : (s.charged d async op).die e = s.die e := by
  cases async
  · exact State.setSeq_die_other _ _ he
  · rfl

theorem charged_die_self (async : Bool) (op : Nat) : ∃ q, (s.charged d async op).die d = { s.die d with seq := q } ∧
    q.pipe = (s.die d).seq.pipe := by
  cases async
  · exact ⟨_, State.setSeq_die_self .., rfl⟩
  · exact ⟨_, rfl, rfl⟩

theorem memIns_charged (p : Reg4) (m : MemArgs) (async : Bool) (op : Nat) : memIns (s.charged d async op) d p m = memIns s d p m := by
  obtain ⟨q, hd, hq⟩ := charged_die_self (s := s) (d := d) async op
  simp only [memIns, issueNow, idxCores, hd, hq]

/-- An operation whose active cores' addresses are legal queues its requests; asynchronous ones are then granted budget. -/
theorem memOp_queues (ha : Acts s d) {p : Reg4} {m : MemArgs} {n align csAl : Nat}
    (hok : ∀ y ∈ memIns s d p m, y.active = true → memInBad d m.async n align csAl y = false) (op : Nat) (k : MemKind) :
    let s0 := s.charged d m.async op
    let u := s0.queues d (memReqs s0 d p m op k n)
    memOp s d p m op k n align csAl = if m.async then grantAll (grantAll u d false false) d true false else u := by
  intro s0 u
  have hgood : (memIns s0 d p m).filter (fun y => y.active && memInBad d m.async n align csAl y) = [] := by
    rw [memIns_charged]
    exact List.filter_eq_nil_iff.mpr fun y hy hbad => by
      obtain ⟨hact, hb⟩ := Bool.and_eq_true_iff.mp hbad
      exact Bool.false_ne_true ((hok y hy hact).symm.trans hb)
  refine (if_pos ha).trans ?_
  change (if (!((memIns s0 d p m).filter _).isEmpty) = true then _ else _) = _
  rw [hgood]
  rfl

section
variable {p : Reg4} {m : MemArgs} {op n : Nat} {k : MemKind}

theorem memReq_of_mem {r : MemReq} (h : r ∈ memReqs s d p m op k n) : ∃ charge w ys, r = memReq s d m k n charge w ys := by
  obtain ⟨i, hi, hr⟩ := List.mem_mapIdx.mp h
  exact ⟨_, _, _, hr.symm⟩

/-- A core's part stands in the request of the tier and die that its address names. -/
theorem part_mem_memReqs {y : MemIn} (hy : y ∈ memIns s d p m) (hact : y.active = true) {w : Bool × Nat × Nat} (hw : devLocate y.dev = some w) :
    ∃ charge ys, memReq s d m k n charge (w.1, w.2.1) ys ∈ memReqs s d p m op k n ∧
      ⟨y.core, true, w.2.2, y.cs, n, rangeUnits k w.2.2 n, 0, []⟩ ∈ (memReq s d m k n charge (w.1, w.2.1) ys).parts := by
  have hwhere (home : Bool × Nat) : memWhere home y = (w.1, w.2.1) := by simp only [memWhere, hact, hw, if_true]
  have hkey : (w.1, w.2.1) ∈ ((memIns s d p m).map (memWhere (memHome d m.async (memIns s d p m)))).eraseDups :=
    List.mem_eraseDups.mpr (List.mem_map.mpr ⟨y, hy, hwhere _⟩)
  obtain ⟨i, hi, hkey⟩ := List.getElem_of_mem hkey
  refine ⟨_, _, List.mem_mapIdx.mpr ⟨i, hi, congrArg₂ _ hkey rfl⟩, List.mem_map.mpr ⟨y, List.mem_filter.mpr ⟨hy, ?_⟩, ?_⟩⟩
  · exact decide_eq_true ((hwhere _).trans hkey.symm)
  · simp only [hw, hact, if_true]

end

/-- What queueing the requests of a memory operation leaves of the module, and what it makes of the die's queue. -/
structure QueuesRequests (s : State) (d : Die) (p : Reg4) (m : MemArgs) (k : MemKind) (n : Nat) (t : State) : Prop where
  run : t.run = s.run
  fabric : t.fabric = { s.fabric with nextId := s.fabric.nextId + 1 }
  others : ∀ e, e ≠ d → t.die e = s.die e
  cores : (t.die d).cores = (s.die d).cores
  near : (t.die d).near.mem = (s.die d).near.mem
  far : (t.die d).far.mem = (s.die d).far.mem
  queue : ∃ reqs : List MemReq, (t.die d).memQ.map (fun r => (r.id, r.kind, r.parts, r.total)) =
      (s.die d).memQ.map (fun r => (r.id, r.kind, r.parts, r.total)) ++ reqs.map (fun r => (r.id, r.kind, r.parts, r.total)) ∧
    ∀ r ∈ reqs, r.id = s.fabric.nextId ∧ r.kind = k ∧ r.total = (r.parts.map (·.units)).sum
  static : m.async = false → ∀ r ∈ (t.die d).memQ.drop (s.die d).memQ.length,
    r.allowed = r.total ∧ r.earliest = memEarliest s d false r.far d
  parts : ∀ y ∈ memIns s d p m, y.active = true → ∀ w, devLocate y.dev = some w → ∃ r ∈ (t.die d).memQ,
    r.id = s.fabric.nextId ∧ r.far = w.1 ∧ r.target = dieOf w.2.1 ∧ r.effect = s.laps.now ∧
      r.sig = (if m.sig then some m.bar else none) ∧
      ⟨y.core, true, w.2.2, y.cs, n, rangeUnits k w.2.2 n, 0, []⟩ ∈ r.parts

theorem queues_queuesRequests (s : State) (d : Die) (p : Reg4) (m : MemArgs) (op : Nat) (k : MemKind) (n : Nat) :
    QueuesRequests s d p m k n (s.queues d (memReqs s d p m op k n)) := by
  have hdie : (s.queues d (memReqs s d p m op k n)).die d = { s.die d with memQ := (s.die d).memQ ++ memReqs s d p m op k n } :=
    State.setDie_die_self ..
  exact {
    run := rfl
    fabric := rfl
    others := fun e he => State.setDie_die_other _ _ he
    cores := by rw [hdie]
    near := by rw [hdie]
    far := by rw [hdie]
    queue := by
      refine ⟨memReqs s d p m op k n, by rw [hdie, List.map_append], fun r hr => ?_⟩
      obtain ⟨charge, w, ys, rfl⟩ := memReq_of_mem hr
      exact ⟨rfl, rfl, List.sum_eq_foldl.symm⟩
    static := fun hsync r hr => by
      rw [hdie, List.drop_left] at hr
      obtain ⟨charge, w, ys, rfl⟩ := memReq_of_mem hr
      simp only [memReq, hsync, Bool.false_eq_true, if_false, memEarliest, and_self]
    parts := fun y hy hact w hw => by
      obtain ⟨charge, ys, hr, hpart⟩ := part_mem_memReqs (op := op) (n := n) (k := k) hy hact hw
      refine ⟨_, ?_, rfl, rfl, rfl, rfl, rfl, hpart⟩
      rw [hdie]
      exact List.mem_append_right _ hr }

/-- A charge counted beforehand changes nothing of it. -/
theorem QueuesRequests.of_charged {p : Reg4} {m : MemArgs} {k : MemKind} {n : Nat} {t : State} {async : Bool} {op : Nat}
    (h : QueuesRequests (s.charged d async op) d p m k n t) : QueuesRequests s d p m k n t := by
  have hins := memIns_charged (s := s) (d := d) p m async op
  have hfab := charged_get (s := s) (d := d) async op State.fabric
  have hlaps := charged_get (s := s) (d := d) async op State.laps
  have hrun := charged_get (s := s) (d := d) async op State.run
  have hother (e : Die) (he : e ≠ d) := charged_die_other (s := s) async op he
  obtain ⟨q, hd, -⟩ := charged_die_self (s := s) (d := d) async op
  generalize s.charged d async op = s0 at h hins hfab hlaps hrun hother hd
  have hearliest (far : Bool) : memEarliest s0 d false far d = memEarliest s d false far d := by
    simp only [memEarliest, hd, hlaps]
  obtain ⟨run, fabric, others, cores, near, far, queue, static, parts⟩ := h
  simp only [hd, hfab, hlaps, hins, hearliest] at fabric cores near far queue static parts
  exact ⟨run.trans hrun, fabric, fun e he => (others e he).trans (hother e he), cores, near, far, queue, static, parts⟩

/-- Budget granted to asynchronous requests changes nothing of it. -/
theorem QueuesRequests.of_granted {p : Reg4} {m : MemArgs} {k : MemKind} {n : Nat} {t u : State} (h : QueuesRequests s d p m k n t)
    (hg : Granted d t u) (hsync : m.async = false → u = t) : QueuesRequests s d p m k n u := by
  obtain ⟨upd, n', f', hu, hdie⟩ := hg.die
  exact {
    run := hg.run.trans h.run
    fabric := hg.fabric.trans h.fabric
    others := fun e he => (hg.others he).trans (h.others e he)
    cores := (congrArg DieSt.cores hdie).trans h.cores
    near := (congrArg (fun x : DieSt => x.near.mem) hdie).trans h.near
    far := (congrArg (fun x : DieSt => x.far.mem) hdie).trans h.far
    queue := by
      obtain ⟨reqs, hq, hreqs⟩ := h.queue
      refine ⟨reqs, ?_, hreqs⟩
      rw [hdie, ← hq]
      exact List.map_map.trans (List.map_congr_left fun r _ =>
        ungranted_get (hu r) fun x => (x.id, x.kind, x.parts, x.total))
    static := fun hs => hsync hs ▸ h.static hs
    parts := fun y hy hact w hw => by
      obtain ⟨r, hr, hrest⟩ := h.parts y hy hact w hw
      refine ⟨upd r, ?_, ?_⟩
      · rw [hdie]
        exact List.mem_map_of_mem hr
      · rw [ungranted_get (hu r) MemReq.id, ungranted_get (hu r) MemReq.far, ungranted_get (hu r) MemReq.target,
          ungranted_get (hu r) MemReq.effect, ungranted_get (hu r) MemReq.sig, ungranted_get (hu r) MemReq.parts]
        exact hrest }

theorem memOp_queuesRequests (ha : Acts s d) {p : Reg4} {m : MemArgs} {n align csAl : Nat}
    (hok : ∀ y ∈ memIns s d p m, y.active = true → memInBad d m.async n align csAl y = false) (op : Nat) (k : MemKind) :
    QueuesRequests s d p m k n (memOp s d p m op k n align csAl) := by
  have hq := queues_queuesRequests (s.charged d m.async op) d p m op k n
  rw [memOp_queues ha hok op k]
  refine (hq.of_granted ?_ fun hsync => by rw [hsync]; rfl).of_charged
  split
  · exact (Granted.grantAll ..).trans (.grantAll ..)
  · exact .refl ..

end

/-- Settles O42: each command is `memOp`, a RADD after its choice is counted (R341), and `memOp_queuesRequests` says what that does. -/
theorem memoryOperationsQueueRequests : Obligations.MemoryOperationsQueueRequests := by
  intro s d p m cmd k op n align csAl tdc ha hcmd hok
  obtain ⟨r, hr, hexec⟩ : ∃ r : RunSt, r.tdcNow = s.run.tdcNow + tdc ∧
      exec cmd s = .next (memOp { s with run := r } d p m op k n align csAl) := by
    rcases hcmd with ⟨len, hlen, rfl, rfl, rfl, rfl, ⟨rfl, rfl, rfl⟩ | ⟨rfl, rfl, rfl⟩⟩ | ⟨f, cnt, hf, rfl, rfl, rfl, rfl, rfl, rfl, rfl⟩ |
      ⟨f, cnt, hf, rfl, rfl, rfl, rfl, rfl, rfl, rfl⟩ | ⟨f, cnt, hf, hs, rfl, rfl, rfl, rfl, rfl, rfl, rfl⟩
    · exact ⟨s.run, rfl, if_pos hlen⟩
    · exact ⟨s.run, rfl, if_pos hlen⟩
    · exact ⟨s.run, rfl, if_pos hf⟩
    · exact ⟨s.run, rfl, if_pos (by simpa using hf)⟩
    · exact ⟨(addTdc s 1 1).run, rfl, (if_pos (by simpa using hf)).trans ((if_pos ha).trans (if_neg (by simp [hs])))⟩
  have hqueues : QueuesRequests { s with run := r } d p m k n (memOp { s with run := r } d p m op k n align csAl) :=
    memOp_queuesRequests (s := { s with run := r }) ha hok op k
  obtain ⟨reqs, hqueue, hreqs⟩ := hqueues.queue
  exact ⟨_, reqs.map fun r : MemReq => (r.id, r.kind, r.parts, r.total), hexec, (congrArg RunSt.tdcNow hqueues.run).trans hr, hqueues.fabric,
    hqueues.others, hqueues.cores, hqueues.near, hqueues.far, hqueue, List.forall_mem_map.mpr hreqs, hqueues.static, hqueues.parts⟩

/-! ### Bytes in order -/

theorem memRead_append (m : Mem) (n k : Nat) : ∀ a, memRead m a (n + k) = memRead m a n ++ memRead m (a + n) k := by
  induction n with
  | zero => intro a; rw [Nat.zero_add]; rfl
  | succ n ih => intro a; rw [Nat.succ_add, memRead, ih (a + 1), memRead, Nat.add_right_comm]; rfl

theorem memRead_length (m : Mem) (n : Nat) : ∀ a, (memRead m a n).length = n := by
  induction n with
  | zero => exact fun _ => rfl
  | succ n ih => exact fun a => congrArg (· + 1) (ih (a + 1))

theorem memRead_slice (m : Mem) (a : Nat) {x n k : Nat} (h : x + n ≤ k) : ((memRead m a k).drop x).take n = memRead m (a + x) n := by
  obtain ⟨y, rfl⟩ := Nat.exists_eq_add_of_le h
  rw [Nat.add_assoc, memRead_append, List.drop_left' (memRead_length ..), memRead_append, List.take_left' (memRead_length ..)]

theorem memWrite_append (m : Mem) (bs cs : List Byte) : ∀ a, memWrite m a (bs ++ cs) = memWrite (memWrite m a bs) (a + bs.length) cs := by
  induction bs generalizing m with
  | nil => exact fun _ => rfl
  | cons b bs ih => intro a; rw [List.cons_append, memWrite, ih, memWrite, List.length_cons, Nat.add_assoc, Nat.add_comm 1]

theorem csReadAt_append (c : Core) (t a n k : Nat) : csReadAt c t a (n + k) = csReadAt c t a n ++ csReadAt c t (a + n) k := by
  simp only [csReadAt, List.range_add, List.map_append, List.map_map, Function.comp_def, Nat.add_assoc]

theorem csReadAt_length (c : Core) (t a n : Nat) : (csReadAt c t a n).length = n := by simp [csReadAt]

theorem hops_self (a : Nat) : hops a a = 0 := by simp [hops]

/-! ### One stripe (R321, Table 14-3) -/

/-- Reading bytes of a stripe that is found clean returns what the tier holds. -/
theorem tierRead_of_clean {t : Tier} {b a n : Nat} (h : stripeRead t b = .clean) (ha : a / 256 = b) (hn : a % 256 + n ≤ 256) :
    tierRead t a n = memRead t.mem a n := by
  by_cases h0 : n = 0
  · subst h0; rfl
  · have hb : blocksOf a n = [b] := by
      have hlast : (a + n - 1) / 256 + 1 - a / 256 = 1 := by omega
      rw [blocksOf, if_neg h0, hlast, ← ha]
      rfl
    have hdata : stripeData t b = some (memRead t.mem (256 * b) 256) := by rw [stripeData, h]
    rw [tierRead, hb, List.flatMap_singleton, hdata, Option.getD_some, memRead_slice _ _ hn, ← ha, Nat.div_add_mod]

/-- A range within one stripe has that stripe's units. -/
theorem rangeStripes_one {k : MemKind} {o n : Nat} (h0 : 0 < n) (h : o % 256 + n ≤ 256) :
    rangeStripes k o n = [(o / 256, stripeUnits k o n (o / 256))] := by
  have hlast : (o + n - 1) / 256 + 1 - o / 256 = 1 := by omega
  rw [rangeStripes, hlast]
  rfl

theorem unitAt_one {st n u : Nat} (h : u < n) : unitAt [(st, n)] u = (st, n, u) := if_pos h

/-! ### Only static requests wait -/

/-- Nothing but static service is due at a tier of a die: no page, resident word or digest waits for it, no asynchronous request, no
check between runs. -/
structure OnlyStatic (s : State) (d : Die) (far : Bool) : Prop where
  page : far = false → (s.die d).seq.pageQ = [] ∧ (s.die d).due = 0 ∧ s.mladar.toDigest = []
  queue : ∀ e, ∀ r ∈ (s.die e).memQ, r.async = false
  checks : s.run.run = none → s.run.wsetBusy = false ∧ s.split.verifyBusy = false

section
variable {s : State} {d : Die} {far : Bool}

theorem servePage_idle (hpage : (s.die d).seq.pageQ = []) (hdue : (s.die d).due = 0) : servePage s d = s := by
  have h : serveDue s d = s := if_pos (.inl hdue)
  simp only [servePage, hpage, h, ite_self]

theorem serveDigest_idle (h : s.mladar.toDigest = []) (n : Nat) : serveDigest n s d = s := by
  have hnone : digestUnit s d = none := by simp only [digestUnit, h, firstIdx]
  cases n with
  | zero => rfl
  | succ n => rw [serveDigest, hnone]

theorem serveAsync_idle (h : ∀ e, ∀ r ∈ (s.die e).memQ, r.async = false) : serveAsync s d far = s := by
  have hnone : asyncOrder s d far = [] := by
    unfold asyncOrder
    extract_lets all mine
    have hmine : mine = [] := List.filter_eq_nil_iff.mpr fun y hy hasync => by
      obtain ⟨l, hl, hy⟩ := List.mem_flatten.mp hy
      obtain ⟨e, -, rfl⟩ := List.mem_map.mp hl
      obtain ⟨j, hj, rfl⟩ := List.mem_mapIdx.mp hy
      simp [h e _ (List.getElem_mem hj)] at hasync
    rw [hmine]
    rfl
  simp only [serveAsync, hnone, List.foldl_nil, ite_self]

theorem serveWset_idle (h : s.run.run = none → s.run.wsetBusy = false) : serveWset s d far = s := by
  refine if_pos ?_
  cases hr : s.run.run with
  | none => rw [h hr]; rfl
  | some r => rfl

theorem serveVerify_idle (h : s.run.run = none → s.split.verifyBusy = false) : serveVerify s d far = s := by
  have hnone : (s.run.run.isSome || !s.split.verifyBusy) = true := by
    cases hr : s.run.run with
    | none => rw [h hr]; rfl
    | some r => rfl
  simp only [serveVerify, hnone, if_true]

theorem OnlyStatic.serves (h : OnlyStatic (serveStatic s d far) d far) :
    execMemUnitService d far s = .next (serveStatic s d far) := by
  obtain ⟨hpage, hqueue, hchecks⟩ := h
  have hrest : ∀ u, u = serveStatic s d far → serveVerify (serveWset (serveAsync u d far) d far) d far = serveStatic s d far := by
    rintro u rfl
    rw [serveAsync_idle hqueue, serveWset_idle fun hr => (hchecks hr).1, serveVerify_idle fun hr => (hchecks hr).2]
  refine congrArg Host.Outcome.next (hrest _ ?_)
  cases far with
  | true => rfl
  | false =>
    obtain ⟨hpageQ, hdue, hdigest⟩ := hpage rfl
    simp only [Bool.false_eq_true, servePage_idle hpageQ hdue, serveDigest_idle hdigest, ite_self]

theorem serveStatic_empty (h : (s.die d).memQ = []) : serveStatic s d far = s := by
  simp only [serveStatic, h, firstIdx]

end

/-! ### What serving a unit leaves -/

/-- The module without the faults found in the lap, and what a write clears. -/
def State.unserved (s : State) : State :=
  { s with
    laps := { s.laps with lapFault := false, progFault := false }
    faults := { s.faults with detected := [], lapRecs := [] }
    run := { s.run with wsetValid := false, wsetDirty := false }
    split := { s.split with verified := false } }

/-- A die without what the service of its requests changes: its cores, their requests, its tiers. -/
def DieSt.unserved (x : DieSt) : DieSt := { x with cores := [], memQ := [], near := Tier.init, far := Tier.init }

/-- From `s` to `t` units of memory were served. -/
abbrev Served (s t : State) : Prop := Leaves (State.masked State.unserved DieSt.unserved) s t

namespace Served

variable {s t : State}

theorem addFault (h : Served s t) (r : FaultRec) : Served s (addFault t r) := ⟨h.same, fun _ => rfl⟩

theorem setTier (h : Served s t) (d : Die) (far : Bool) (x : Tier) : Served s (t.setTier d far x) :=
  Leaves.setDie h (by cases far <;> rfl)

theorem setQueue (h : Served s t) (d : Die) (l : List MemReq) : Served s (t.setDie d { t.die d with memQ := l }) := Leaves.setDie h rfl

theorem noteWrite (h : Served s t) (a n : Nat) : Served s (noteWrite t a n) := by
  unfold Machine.noteWrite
  extract_lets hit r1 s1 side
  have h1 : Served s s1 := .ite ⟨h.same, h.fault⟩ h
  exact .ite ⟨h1.same, h1.fault⟩ h1

theorem tierWrite (h : Served s t) (d : Die) (far : Bool) (o : Nat) (bs : List Byte) : Served s (tierWrite t d far o bs) :=
  (h.setTier d far _).noteWrite _ _

theorem onCore (h : Served s t) (d : Die) (i : Nat) (f : Core → Core × List Raise) : Served s (onCore t d i f) := by
  unfold Machine.onCore
  split
  · exact List.foldlRecOn (motive := Served s) _ _ (Leaves.setDie h rfl) fun _ hu _ _ => hu.addFault _
  · exact h

end Served

theorem Tier.store_mem (t : Tier) (o : Nat) (bs : List Byte) : (t.store o bs).mem = memWrite t.mem o bs := rfl

theorem tierWrite_die (s : State) (d : Die) (far : Bool) (o : Nat) (bs : List Byte) (e : Die) :
    (tierWrite s d far o bs).die e = (s.setTier d far (((s.die d).tier far).store o bs)).die e := noteWrite_die ..

/-! ### One unit of a part (R321, R324, R327) -/

/-- A part of which `i` units are served and `buf` is read. -/
def MemPart.progress (q : MemPart) (i : Nat) (buf : List Byte) : MemPart := { q with served := i, buf := buf }

/-- A request of one part of which `i` units are served, the last of them in cycle `t`. -/
def MemReq.progress (r : MemReq) (q : MemPart) (t i : Nat) (buf : List Byte) : MemReq :=
  { r with served := i, lastAt := t, parts := [q.progress i buf] }

/-- A tier without its counts of slots and units. -/
def Tier.unslotted (t : Tier) : Tier := { t with staticUsed := 0, usedNow := 0, usedAt := 0 }

theorem DieSt.tier_withQueue (x : DieSt) (l : List MemReq) (far : Bool) : ({ x with memQ := l } : DieSt).tier far = x.tier far := by
  cases far <;> rfl

theorem DieSt.tier_withCores (x : DieSt) (l : List Core) (far : Bool) : ({ x with cores := l } : DieSt).tier far = x.tier far := by
  cases far <;> rfl

/-- A core that takes what a function makes of it: of the dies only it changes. -/
theorem onCore_taken {s : State} {d : Die} {i : Nat} {c c' : Core} (hc : (s.die d).cores[i]? = some c) {f : Core → Core × List Raise}
    (hf : (f c).1 = c') :
    Served s (onCore s d i f) ∧ ((onCore s d i f).die d).memQ = (s.die d).memQ ∧
      ((onCore s d i f).die d).cores = (s.die d).cores.set i c' ∧ (∀ e, e ≠ d → (onCore s d i f).die e = s.die e) ∧
      ∀ far, ((onCore s d i f).die d).tier far = (s.die d).tier far := by
  have hdie (e : Die) : (onCore s d i f).die e = (s.setCores d ((s.die d).cores.set i c')).die e := by
    simp only [onCore, hc, ← hf]
    exact foldl_leaves (State.die · e) (f := fun s x => raiseCore s d i x) (fun _ _ => rfl) _ _
  have hself := (hdie d).trans (State.setCores_die_self ..)
  exact ⟨.onCore (.refl s) .., by rw [hself], by rw [hself], fun e he => (hdie e).trans (State.setCores_die_other _ _ he),
    fun far => by rw [hself, DieSt.tier_withCores]⟩

/-- The slot and the static unit of a tier that a unit takes (R322, R324). -/
def Tier.takeUnit (t : Tier) (now : Nat) (async : Bool) : Tier :=
  { t.useSlot now with staticUsed := if async then t.staticUsed else t.staticUsed + 1 }

theorem mem_of_unslotted {x y : Tier} (h : x.unslotted = y.unslotted) : x.mem = y.mem := (congrArg Tier.mem h :)

theorem stripeRead_of_unslotted {x y : Tier} (h : x.unslotted = y.unslotted) (b : Nat) : stripeRead x b = stripeRead y b :=
  (congrArg (stripeRead · b) h :)

/-- A unit served: its effect, one more unit of its part, a slot of its tier, and a fault where its budget is spent. -/
theorem serveUnit_eq {s u : State} {d : Die} {j i : Nat} {r : MemReq} {p p1 : MemPart} (hr : (s.die d).memQ[j]? = some r)
    (hp : nextPart r.parts 0 = some (i, p)) (hact : p.active = true) (heff : unitEffect s r p = (u, p1)) :
    let r1 := { r with parts := r.parts.set i { p1 with served := p.served + 1 }, served := r.served + 1, lastAt := s.laps.now }
    let s1 := u.setDie d { u.die d with memQ := (u.die d).memQ.set j r1 }
    let s2 := s1.setTier r.target r.far (((s1.die r.target).tier r.far).takeUnit s.laps.now r.async)
    ∃ spent : Bool, serveUnit s d j = if spent then raiseDie s2 d 0x016A 11 0 else s2 := by
  intro r1 s1 s2
  unfold serveUnit
  simp only [hr, hp, hact, if_true, heff]
  exact ⟨_, rfl⟩

/-- A unit served: its effect, one more unit of its part, a slot of its tier. -/
theorem serveUnit_serves {s u : State} {d : Die} {r : MemReq} {q : MemPart} {l i : Nat} {buf buf' : List Byte}
    (hr : (s.die d).memQ = [r.progress q l i buf]) (hact : q.active = true) (hi : i < q.units) (htarget : r.target = d)
    (heff : unitEffect s (r.progress q l i buf) (q.progress i buf) = (u, q.progress i buf')) (hu : (u.die d).memQ.length = 1) :
    let t := serveUnit s d 0
    Served u t ∧ (t.die d).memQ = [r.progress q s.laps.now (i + 1) buf'] ∧ (t.die d).cores = (u.die d).cores ∧
      (∀ e, e ≠ d → t.die e = u.die e) ∧ ((t.die d).tier r.far).unslotted = ((u.die d).tier r.far).unslotted := by
  subst htarget
  obtain ⟨r0, hr0⟩ := List.length_eq_one_iff.mp hu
  have hget : (s.die r.target).memQ[0]? = some (r.progress q l i buf) := by rw [hr]; rfl
  have hnext : nextPart (r.progress q l i buf).parts 0 = some (0, q.progress i buf) := if_pos hi
  obtain ⟨spent, ht⟩ := serveUnit_eq hget hnext hact heff
  have htarget' : (r.progress q l i buf).target = r.target := rfl
  rw [htarget', hr0, State.setDie_die_self, DieSt.tier_withQueue] at ht
  generalize hy : State.setTier _ _ _ _ = y at ht
  have hserved : Served u y := by
    rw [← hy]
    exact Served.setTier (Served.setQueue (.refl u) ..) ..
  have hdies : (serveUnit s r.target 0).dies = y.dies := by rw [ht]; cases spent <;> rfl
  have hd : (serveUnit s r.target 0).die r.target =
      { u.die r.target with memQ := [r.progress q s.laps.now (i + 1) buf'] }.setTier r.far
        (((u.die r.target).tier r.far).takeUnit s.laps.now r.async) := by
    rw [State.die, hdies, ← hy]
    exact (State.setTier_die_self ..).trans (congrArg (DieSt.setTier · r.far _) (State.setDie_die_self ..))
  refine ⟨?_, ?_, ?_, fun e he => ?_, ?_⟩
  · rw [ht]
    exact .ite (hserved.addFault _) hserved
  · rw [hd, DieSt.setTier_memQ]
  · rw [hd, DieSt.setTier_cores]
  · rw [State.die, hdies, ← hy]
    exact (State.setTier_die_other _ _ _ he).trans (State.setDie_die_other _ _ he)
  · rw [hd, DieSt.setTier_tier]
    rfl

/-! ### All units of a request (R322, R324) -/

/-- Serving a request as long as it may be served, when `k` units are left of `n` slots. -/
theorem serveMany_units {P : Nat → State → Prop} {d : Die} {j k : Nat}
    (hstep : ∀ i < k, ∀ t, P i t → (∃ r, (t.die d).memQ[j]? = some r ∧ reqReady t r = true) ∧ P (i + 1) (serveUnit t d j))
    (hstop : ∀ t, P k t → ∃ r, (t.die d).memQ[j]? = some r ∧ reqReady t r = false) :
    ∀ n i t, P i t → i ≤ k → k ≤ i + n → P k (serveMany n t d j) := by
  intro n
  induction n with
  | zero =>
    intro i t h hi hk
    exact Nat.le_antisymm hi hk ▸ h
  | succ n ih =>
    intro i t h hi hk
    rcases hi.lt_or_eq with hlt | rfl
    · obtain ⟨⟨r, hr, hready⟩, hnext⟩ := hstep i hlt t h
      simp only [serveMany, hr, hready, if_true]
      exact ih (i + 1) _ hnext hlt (by omega)
    · obtain ⟨r, hr, hready⟩ := hstop t h
      simpa only [serveMany, hr, hready, Bool.false_eq_true, if_false] using h

/-- Static service of a request that is alone in its queue, `k` units long, when its tier has slots for all of them. -/
theorem serveStatic_units {P : Nat → State → Prop} {s : State} {d : Die} {far : Bool} {r : MemReq} {k : Nat} (hr : (s.die d).memQ = [r])
    (hasync : r.async = false) (hfar : r.far = far) (htotal : r.served < r.total) (hslots : k ≤ slotsLeft s d far) (h0 : P 0 s)
    (hstep : ∀ i < k, ∀ t, P i t → (∃ r, (t.die d).memQ[0]? = some r ∧ reqReady t r = true) ∧ P (i + 1) (serveUnit t d 0))
    (hstop : ∀ t, P k t → ∃ r, (t.die d).memQ[0]? = some r ∧ reqReady t r = false) : P k (serveStatic s d far) := by
  have hfirst : firstIdx (fun r : MemReq => !r.async && decide (r.far = far) && decide (r.served < r.total)) (s.die d).memQ 0 = some 0 := by
    rw [hr]
    exact if_pos (by simp [hasync, hfar, htotal])
  simp only [serveStatic, hfirst]
  exact serveMany_units hstep hstop _ 0 s h0 (Nat.zero_le k) (by omega)

/-- A read or a write of one stripe by one core of a die, the only request of its queue, which it may be served from now on. -/
structure OneStripe (s : State) (d : Die) (r : MemReq) (q : MemPart) (c : Core) : Prop where
  queue : (s.die d).memQ = [r]
  static : r.async = false
  die : r.die = d
  target : r.target = d
  parts : r.parts = [q]
  active : q.active = true
  units : q.units = 4
  unserved : q.served = 0 ∧ q.buf = [] ∧ r.served = 0
  total : r.total = 4 ∧ r.allowed = 4
  started : r.earliest ≤ s.laps.now ∧ r.floorAt ≤ s.laps.now
  range : 0 < q.len ∧ q.off % 256 + q.len ≤ 256
  core : (s.die d).cores[q.core]? = some c
  others : ∀ e, e ≠ d → (s.die e).memQ = []

/-- From `s` to `t`, `i` units of a request were served: what its part has read, what the cores of the die and a part of the tier
become with each unit. -/
structure Serving {α : Type} (s : State) (d : Die) (r : MemReq) (q : MemPart) (bufs : Nat → List Byte) (cores : Nat → List Core)
    (part : Tier → α) (tiers : Nat → α) (i : Nat) (t : State) : Prop where
  served : Served s t
  queue : (t.die d).memQ = [r.progress q (if i = 0 then r.lastAt else s.laps.now) i (bufs i)]
  cores : (t.die d).cores = cores i
  others : ∀ e, e ≠ d → t.die e = s.die e
  tier : part ((t.die d).tier r.far) = tiers i

section
variable {α : Type} {s : State} {d : Die} {r : MemReq} {q : MemPart} {c : Core} {bufs : Nat → List Byte}
  {cores : Nat → List Core} {part : Tier → α} {tiers : Nat → α}

theorem OneStripe.progress_zero (h : OneStripe s d r q c) : r.progress q r.lastAt 0 [] = r := by
  have hq : q.progress 0 [] = q := by
    rw [MemPart.progress, ← h.unserved.1, ← h.unserved.2.1]
  rw [MemReq.progress, hq, ← h.parts, ← h.unserved.2.2]

/-- Four units whose effects are known are served in one cycle. -/
theorem OneStripe.serves (h : OneStripe s d r q c) (hused : ((s.die d).tier r.far).usedAt < s.laps.now)
    (hpart : ∀ x y : Tier, x.unslotted = y.unslotted → part x = part y) (h0 : Serving s d r q bufs cores part tiers 0 s)
    (hunit : ∀ i < 4, ∀ t l, Serving s d r q bufs cores part tiers i t → ∃ u,
      unitEffect t (r.progress q l i (bufs i)) (q.progress i (bufs i)) = (u, q.progress i (bufs (i + 1))) ∧ Served t u ∧
        (u.die d).memQ = (t.die d).memQ ∧ (u.die d).cores = cores (i + 1) ∧ (∀ e, e ≠ d → u.die e = t.die e) ∧
        part ((u.die d).tier r.far) = tiers (i + 1)) :
    Serving s d r q bufs cores part tiers 4 (serveStatic s d r.far) := by
  have hready (i : Nat) (t : State) (ht : Serving s d r q bufs cores part tiers i t) :
      ∃ r', (t.die d).memQ[0]? = some r' ∧ reqReady t r' = decide (i < 4) := by
    refine ⟨_, congrArg (·[0]?) ht.queue, ?_⟩
    have hnow : t.laps.now = s.laps.now := ht.served.get fun u => u.laps.now
    simp [reqReady, MemReq.progress, hnow, h.total.2, h.started.1, h.started.2]
  refine serveStatic_units h.queue h.static rfl ?_ ?_ h0 (fun i hi t ht => ⟨?_, ?_⟩) (hready 4)
  · rw [h.unserved.2.2, h.total.1]; decide
  · rw [slotsLeft, if_neg hused.ne, tierSlots]
    split <;> decide
  · obtain ⟨r', hr', hready⟩ := hready i t ht
    exact ⟨r', hr', hready.trans (decide_eq_true hi)⟩
  · obtain ⟨u, heff, hserved, hqueue, hcores, hothers, htier⟩ := hunit i hi t _ ht
    obtain ⟨hserved', hqueue', hcores', hothers', htier'⟩ :=
      serveUnit_serves ht.queue h.active (h.units ▸ hi) h.target heff (by rw [hqueue, ht.queue]; rfl)
    have hnow : t.laps.now = s.laps.now := ht.served.get fun u => u.laps.now
    exact ⟨(ht.served.trans hserved).trans hserved', by rw [hqueue', hnow]; rfl, hcores'.trans hcores,
      fun e he => (hothers' e he).trans ((hothers e he).trans (ht.others e he)), (hpart _ _ htier').trans htier⟩

/-- No request races with the only one that waits. -/
theorem Serving.stripeRaces {i : Nat} {t : State} (ht : Serving s d r q bufs cores part tiers i t) (h : OneStripe s d r q c)
    (l : Nat) (buf : List Byte) (st : Nat) : stripeRaces t (r.progress q l i buf) st = false := by
  refine List.any_eq_false.mpr fun e _ => Bool.not_eq_true _ ▸ List.any_eq_false.mpr fun x hx => ?_
  by_cases he : e = d
  · rw [he, ht.queue] at hx
    rw [List.mem_singleton.mp hx]
    simp [MemReq.progress]
  · rw [ht.others e he, h.others e he] at hx
    cases hx

/-- Nothing else is due after the request was served. -/
theorem Serving.onlyStatic {i : Nat} {t : State} (ht : Serving s d r q bufs cores part tiers i t) (h : OneStripe s d r q c)
    (hpage : r.far = false → (s.die d).seq.pageQ = [] ∧ (s.die d).due = 0 ∧ s.mladar.toDigest = [])
    (hchecks : s.run.run = none → s.run.wsetBusy = false ∧ s.split.verifyBusy = false) : OnlyStatic t d r.far where
  page hf := by
    obtain ⟨hpageQ, hdue, hdigest⟩ := hpage hf
    exact ⟨(ht.served.die d fun x => x.seq.pageQ).trans hpageQ, (ht.served.die d fun x => x.due).trans hdue,
      (ht.served.get fun u => u.mladar.toDigest).trans hdigest⟩
  queue e r' hr' := by
    by_cases he : e = d
    · subst he
      rw [ht.queue] at hr'
      exact List.mem_singleton.mp hr' ▸ h.static
    · rw [ht.others e he, h.others e he] at hr'
      cases hr'
  checks hrun := by
    obtain ⟨hwset, hverify⟩ := hchecks ((ht.served.get fun u => u.run.run).symm.trans hrun)
    exact ⟨(ht.served.get fun u => u.run.wsetBusy).trans hwset, (ht.served.get fun u => u.split.verifyBusy).trans hverify⟩

theorem stripeStart_quiet {t : State} {r : MemReq} {p : MemPart} {st : Nat} {reads : Bool} (hrace : Machine.stripeRaces t r st = false)
    (hclean : reads = true → stripeRead ((t.die r.target).tier r.far) st = .clean) : stripeStart t r p st reads = t := by
  cases reads with
  | false => simp [stripeStart, hrace]
  | true => simp [stripeStart, hrace, noteRead, hclean rfl]

/-! ### A read of one stripe (R320, R326, R327) -/

/-- The effect of a unit of a read from a clean stripe of the core's die: its line's bytes; with the last one all go to the core. -/
theorem unitEffect_read {t : State} {d : Die} {r : MemReq} {p : MemPart} {st i : Nat} {buf : List Byte} (hk : r.kind = .rd)
    (hdie : r.die = d) (htarget : r.target = d) (hunit : unitAt (rangeStripes .rd p.off p.len) p.served = (st, 4, i))
    (hstart : stripeStart t r p st true = t) (hclean : stripeRead ((t.die d).tier r.far) st = .clean)
    (hbuf : p.buf ++ tierRead ((t.die d).tier r.far) (linePart p.off p.len st i).1 (linePart p.off p.len st i).2 = buf) :
    unitEffect t r p = if p.served + 1 = p.units ∧ buf.length = p.len then
      (onCore t d p.core fun c => csWrite c (t.laps.now + tierTail r.far) p.cs buf 4, { p with buf := buf })
      else (t, { p with buf := buf }) := by
  have hsome : (stripeData ((t.die d).tier r.far) st).isSome = true := by simp [stripeData, hclean]
  simp [unitEffect, hk, hdie, htarget, hunit, hstart, hsome, hbuf, hops_self]

/-- The bytes of a part that `i` lines of its stripe hold. -/
def lineBytesRead (m : Mem) (q : MemPart) (i : Nat) : List Byte :=
  memRead m q.off (min (q.off + q.len) (256 * (q.off / 256) + 64 * i) - q.off)

theorem lineBytesRead_succ (m : Mem) (q : MemPart) (i : Nat) :
    lineBytesRead m q i ++ memRead m (linePart q.off q.len (q.off / 256) i).1 (linePart q.off q.len (q.off / 256) i).2 =
      lineBytesRead m q (i + 1) := by
  unfold lineBytesRead linePart
  dsimp only
  generalize hx : min (q.off + q.len) (256 * (q.off / 256) + 64 * i) - q.off = x
  generalize hn : min (q.off + q.len) (256 * (q.off / 256) + 64 * (i + 1)) - max q.off (256 * (q.off / 256) + 64 * i) = n
  have hsum : min (q.off + q.len) (256 * (q.off / 256) + 64 * (i + 1)) - q.off = x + n := by omega
  rw [hsum, memRead_append]
  by_cases h0 : n = 0
  · subst h0; rfl
  · rw [show max q.off (256 * (q.off / 256) + 64 * i) = q.off + x by omega]

theorem lineBytesRead_zero (m : Mem) (q : MemPart) : lineBytesRead m q 0 = [] := by
  rw [lineBytesRead, show min (q.off + q.len) (256 * (q.off / 256) + 64 * 0) - q.off = 0 by omega]
  rfl

theorem lineBytesRead_all (m : Mem) {q : MemPart} (h : q.off % 256 + q.len ≤ 256) : lineBytesRead m q 4 = memRead m q.off q.len := by
  rw [lineBytesRead, show min (q.off + q.len) (256 * (q.off / 256) + 64 * 4) - q.off = q.len by omega]

/-- A line of a part of one stripe lies in that stripe. -/
theorem linePart_inside {o n i : Nat} (h0 : 0 < n) (h : o % 256 + n ≤ 256) (hi : i < 4) :
    (linePart o n (o / 256) i).1 / 256 = o / 256 ∧ (linePart o n (o / 256) i).1 % 256 + (linePart o n (o / 256) i).2 ≤ 256 := by
  unfold linePart
  dsimp only
  omega

/-- The cores of a die after `i` of four units of a read: its core takes the bytes with the last one. -/
def coresReading (s : State) (d : Die) (far : Bool) (q : MemPart) (c : Core) (i : Nat) : List Core :=
  if i = 4 then (s.die d).cores.set q.core
    { c with pend := c.pend ++ csPends (s.laps.now + tierTail far) false q.cs (memRead ((s.die d).tier far).mem q.off q.len) }
  else (s.die d).cores

/-- A read of one clean stripe is served in one cycle. -/
theorem OneStripe.reads (h : OneStripe s d r q c) (hused : ((s.die d).tier r.far).usedAt < s.laps.now) (hk : r.kind = .rd)
    (hclean : stripeRead ((s.die d).tier r.far) (q.off / 256) = .clean) :
    Serving s d r q (lineBytesRead ((s.die d).tier r.far).mem q) (coresReading s d r.far q c) Tier.unslotted
      (fun _ => ((s.die d).tier r.far).unslotted) 4 (serveStatic s d r.far) := by
  refine h.serves hused (fun _ _ hxy => hxy) ⟨.refl s, ?_, rfl, fun _ _ => rfl, rfl⟩ fun i hi t l ht => ?_
  · rw [lineBytesRead_zero, if_pos rfl, h.progress_zero, h.queue]
  have hlen := lineBytesRead_all ((s.die d).tier r.far).mem h.range.2
  have hcores (i : Nat) (hi : i < 4) : coresReading s d r.far q c i = (s.die d).cores := if_neg hi.ne
  have hclean' := (stripeRead_of_unslotted ht.tier (q.off / 256)).trans hclean
  have hunit : unitAt (rangeStripes .rd q.off q.len) i = (q.off / 256, 4, i) := by
    rw [rangeStripes_one h.range.1 h.range.2]
    exact unitAt_one hi
  obtain ⟨hin, hend⟩ := linePart_inside h.range.1 h.range.2 hi
  have hbuf : lineBytesRead ((s.die d).tier r.far).mem q i ++ tierRead ((t.die d).tier r.far)
      (linePart q.off q.len (q.off / 256) i).1 (linePart q.off q.len (q.off / 256) i).2 =
        lineBytesRead ((s.die d).tier r.far).mem q (i + 1) := by
    rw [tierRead_of_clean hclean' hin hend, mem_of_unslotted ht.tier, lineBytesRead_succ]
  have hstart := stripeStart_quiet (p := q.progress i (lineBytesRead ((s.die d).tier r.far).mem q i)) (reads := true)
    (ht.stripeRaces h l (lineBytesRead ((s.die d).tier r.far).mem q i) (q.off / 256)) fun _ => h.target.symm ▸ hclean'
  have heff := unitEffect_read (r := r.progress q l i (lineBytesRead ((s.die d).tier r.far).mem q i))
    hk h.die h.target hunit hstart hclean' hbuf
  by_cases hlast : i + 1 = 4
  · have hi3 : i = 3 := by omega
    subst hi3
    have hnow : t.laps.now = s.laps.now := ht.served.get fun u => u.laps.now
    have hcore : (t.die d).cores[q.core]? = some c := by rw [ht.cores, hcores 3 hi, h.core]
    rw [hlen, hnow] at heff
    obtain ⟨hserved, hqueue, hcs, hothers, htier⟩ := onCore_taken hcore (f := fun c =>
      csWrite c (s.laps.now + tierTail r.far) q.cs (memRead ((s.die d).tier r.far).mem q.off q.len) 4) rfl
    refine ⟨_, (heff.trans (if_pos ⟨h.units.symm, memRead_length ..⟩)).trans ?_, hserved, hqueue, hcs.trans ?_, hothers, ?_⟩
    · rw [hlen]; rfl
    · rw [ht.cores, hcores 3 hi]; rfl
    · rw [htier, ht.tier]
  · refine ⟨t, heff.trans (if_neg fun hl => hlast (hl.1.trans h.units)), .refl t, rfl, ?_, fun _ _ => rfl, ht.tier⟩
    rw [ht.cores, hcores i hi, hcores (i + 1) (by omega)]

/-! ### A write of a whole stripe (R320, R321, R326) -/

/-- The effect of a unit of a write of a whole stripe outside a run: its line takes the core's bytes. -/
theorem unitEffect_write {t : State} {d : Die} {r : MemReq} {p : MemPart} {c : Core} {i : Nat} (hk : r.kind = .wr) (hdie : r.die = d)
    (htarget : r.target = d) (hasync : r.async = false) (hrun : t.run.run = none) (hcore : (t.die d).cores[p.core]? = some c) (hi : i < 4)
    (hlen : p.len = 256) (hoff : p.off % 256 = 0) (hserved : p.served = i) (hrace : stripeRaces t r (p.off / 256) = false) :
    unitEffect t r p = (tierWrite t d r.far (p.off + 64 * i) (csReadAt c t.laps.now (p.cs + 64 * i) 64), p) := by
  have hunit : unitAt (rangeStripes .wr p.off p.len) p.served = (p.off / 256, 4, i) := by
    have hunits : stripeUnits .wr p.off p.len (p.off / 256) = 4 := if_pos (by omega)
    rw [rangeStripes_one (by omega) (by omega), hunits, hserved]
    exact unitAt_one hi
  have hline : linePart p.off p.len (p.off / 256) i = (p.off + 64 * i, 64) := by
    unfold linePart
    refine Prod.ext ?_ ?_ <;> dsimp only <;> omega
  have hsource : sourceBytes t r p (64 * i) 64 = csReadAt c t.laps.now (p.cs + 64 * i) 64 := by
    simp [sourceBytes, hdie, htarget, hcore, hops_self]
  have hstart : stripeStart t r p (p.off / 256) false = t := stripeStart_quiet hrace nofun
  simp [unitEffect, hk, hunit, hline, hsource, hstart, runWrite, hasync, htarget, writeCause_noRun hrun]

/-- A write of a whole stripe outside a run is served in one cycle. -/
theorem OneStripe.writes (h : OneStripe s d r q c) (hused : ((s.die d).tier r.far).usedAt < s.laps.now) (hk : r.kind = .wr)
    (hlen : q.len = 256) (hrun : s.run.run = none) :
    Serving s d r q (fun _ => []) (fun _ => (s.die d).cores) Tier.mem
      (fun i => memWrite ((s.die d).tier r.far).mem q.off (csReadAt c s.laps.now q.cs (64 * i))) 4 (serveStatic s d r.far) := by
  refine h.serves hused (fun _ _ => mem_of_unslotted) ⟨.refl s, ?_, rfl, fun _ _ => rfl, rfl⟩ fun i hi t l ht => ?_
  · rw [if_pos rfl, h.progress_zero, h.queue]
  have hnow : t.laps.now = s.laps.now := ht.served.get fun u => u.laps.now
  have hrun' : t.run.run = none := (ht.served.get fun u => u.run.run).trans hrun
  have hcore : (t.die d).cores[q.core]? = some c := by rw [ht.cores, h.core]
  have hoff : q.off % 256 = 0 := by have hrange := h.range.2; omega
  have heff := unitEffect_write (r := r.progress q l i []) (p := q.progress i []) hk h.die h.target h.static hrun' hcore hi hlen hoff rfl
    (ht.stripeRaces h l [] (q.off / 256))
  have hself := (tierWrite_die t d r.far (q.off + 64 * i) (csReadAt c t.laps.now (q.cs + 64 * i) 64) d).trans (State.setTier_die_self ..)
  refine ⟨_, heff, .tierWrite (.refl t) .., ?_, ?_, fun e he => (tierWrite_die ..).trans (State.setTier_die_other _ _ _ he), ?_⟩
  · exact (congrArg DieSt.memQ hself).trans (DieSt.setTier_memQ ..)
  · exact (congrArg DieSt.cores hself).trans ((DieSt.setTier_cores ..).trans ht.cores)
  · have hstored := congrArg (fun x : DieSt => (x.tier r.far).mem) hself
    rw [DieSt.setTier_tier, Tier.store_mem] at hstored
    refine hstored.trans ?_
    rw [Nat.mul_succ, csReadAt_append, memWrite_append, csReadAt_length c s.laps.now q.cs (64 * i), ht.tier, hnow]

end

/-! ### Atomics that act (R329) -/

namespace Written

variable {s t : State}

theorem store (h : Written s t) (d : Die) (far : Bool) (m p : Mem) (l : List AtomElem) :
    Written s (t.setTier d far { (t.die d).tier far with mem := m, parity := p, atoms := l }) :=
  h.setDie (by cases far <;> rfl)

theorem draw (h : Written s t) : Written s t.draw.2 := ⟨h.same, h.fault⟩

theorem atomTake (h : Written s t) (d : Die) (far : Bool) : Written s (atomTake t d far) := by
  unfold Machine.atomTake atomRun
  extract_lets tier idx x i
  split
  · exact .ite h.draw (.ite ((h.draw.store d far tier.mem tier.parity _).tierWrite ..) (h.draw.store d far tier.mem tier.parity _))
  · exact h.draw

theorem atomDrain (h : Written s t) (n : Nat) (d : Die) (far : Bool) (id : Nat) : Written s (atomDrain n t d far id) := by
  induction n generalizing t with
  | zero => exact h
  | succ n ih => exact .ite (ih (h.atomTake ..)) h

end Written

/-! ### MEM_COMPLETE (R294, R326, R327) -/

/-- The requests of a die that have a number. -/
def requestsOf (s : State) (d : Die) (id : Nat) : List MemReq := (s.die d).memQ.filter fun r => decide (r.id = id)

/-- The atomics of a request applied, and its elements dropped. -/
def settleRequest (id : Nat) (s : State) (r : MemReq) : State :=
  let u := atomDrain ((s.die r.target).tier r.far).atoms.length s r.target r.far id
  u.setTier r.target r.far { (u.die r.target).tier r.far with
    atoms := ((u.die r.target).tier r.far).atoms.filter fun e => decide (e.id ≠ id) }

/-- The completion signal of a request that carries one (R294). -/
def completionSignals (s : State) (d : Die) (id : Nat) : List Signal :=
  (((requestsOf s d id).findSome? (·.sig)).map fun b =>
    (⟨d, d, b, s.laps.now, none, (s.die d).epoch, (s.die d).epoch⟩ : Signal)).toList

/-- The module with a request out of its die's queue, and signals on their way. -/
def State.dequeued (s : State) (d : Die) (id : Nat) (l : List Signal) : State :=
  { s with fabric := { s.fabric with signals := s.fabric.signals ++ l } }.setDie d
    { s.die d with memQ := (s.die d).memQ.filter fun r => decide (r.id ≠ id) }

section
variable {s : State} {d : Die} {id : Nat}

theorem completeReq_eq (s : State) (d : Die) (id : Nat) :
    completeReq s d id = ((requestsOf s d id).foldl (settleRequest id) s).dequeued d id (completionSignals s d id) := by
  unfold completeReq completionSignals requestsOf
  extract_lets rs s1 s2
  cases rs.findSome? (·.sig) with
  | none => simp only [Option.map_none, Option.toList_none, State.dequeued, List.append_nil]; rfl
  | some b => rfl

theorem settleRequest_written (s : State) (r : MemReq) : Written s (settleRequest id s r) :=
  (Written.atomDrain (.refl s) ..).store ..

theorem completeReq_queue (s : State) (d : Die) (id : Nat) :
    ((completeReq s d id).die d).memQ = (s.die d).memQ.filter fun r => decide (r.id ≠ id) := by
  have hw : Written s ((requestsOf s d id).foldl (settleRequest id) s) := Leaves.foldl settleRequest_written _ (.refl s)
  rw [completeReq_eq, State.dequeued, State.setDie_die_self, hw.die d DieSt.memQ]

theorem completeAll_queue (d : Die) (l : List Nat) (s : State) :
    ((l.foldl (fun s id => completeReq s d id) s).die d).memQ = (s.die d).memQ.filter fun r => decide (r.id ∉ l) := by
  induction l generalizing s with
  | nil => simp
  | cons id l ih =>
    rw [List.foldl_cons, ih, completeReq_queue, List.filter_filter]
    exact List.filter_congr fun r _ => by simp [Bool.and_comm]

/-- The requests of a die that are complete in this cycle leave its queue. -/
theorem completed_queue (s : State) (d : Die) :
    (((((s.die d).memQ.map (·.id)).eraseDups.filter (reqDone s d)).foldl (fun s id => completeReq s d id) s).die d).memQ =
      (s.die d).memQ.filter fun r => !reqDone s d r.id := by
  rw [completeAll_queue]
  refine List.filter_congr fun r hr => ?_
  have hmem : r.id ∈ ((s.die d).memQ.map (·.id)).eraseDups := List.mem_eraseDups.mpr (List.mem_map_of_mem hr)
  simp [hmem]

/-- With no atomic element anywhere, completing a request only takes it out of its queue and sends its signal. -/
theorem completeReq_plain (hatoms : ∀ e b, ((s.die e).tier b).atoms = []) (d : Die) (id : Nat) :
    completeReq s d id = s.dequeued d id (completionSignals s d id) := by
  have hsettle (r : MemReq) : settleRequest id s r = s := by
    have hnone := hatoms r.target r.far
    have hsame : { (s.die r.target).tier r.far with atoms := [] } = (s.die r.target).tier r.far := by rw [← hnone]
    have hdie : (s.die r.target).setTier r.far ((s.die r.target).tier r.far) = s.die r.target := by cases r.far <;> rfl
    simp only [settleRequest, hnone, List.length_nil, atomDrain, List.filter_nil]
    rw [hsame, State.setTier, hdie, State.setDie_self]
  rw [completeReq_eq, List.foldl_fixed' hsettle]

theorem dequeued_tier (s : State) (d : Die) (id : Nat) (l : List Signal) (e : Die) (b : Bool) :
    ((s.dequeued d id l).die e).tier b = (s.die e).tier b := by
  rw [State.dequeued, State.setDie_die]
  split
  · next he => rw [he, DieSt.tier_withQueue]
  · rfl

/-- Taking one request out of the queue leaves what another sends. -/
theorem completionSignals_dequeued {id' : Nat} (h : id' ≠ id) (l : List Signal) :
    completionSignals (s.dequeued d id l) d id' = completionSignals s d id' := by
  have hrest : requestsOf (s.dequeued d id l) d id' = requestsOf s d id' := by
    rw [requestsOf, State.dequeued, State.setDie_die_self, List.filter_filter]
    refine List.filter_congr fun r _ => ?_
    by_cases hr : r.id = id' <;> simp [hr, h]
  have hdie : ((s.dequeued d id l).die d).epoch = (s.die d).epoch := by rw [State.dequeued, State.setDie_die_self]
  rw [completionSignals, hrest, hdie]
  rfl

/-- With no atomic element anywhere, completing several requests leaves the tiers. -/
theorem completeAll_tier (d : Die) (l : List Nat) (s : State) (hatoms : ∀ e b, ((s.die e).tier b).atoms = []) (e : Die) (b : Bool) :
    ((l.foldl (fun s id => completeReq s d id) s).die e).tier b = (s.die e).tier b := by
  induction l generalizing s with
  | nil => rfl
  | cons id l ih =>
    have htier := dequeued_tier s d id (completionSignals s d id)
    rw [List.foldl_cons, completeReq_plain hatoms, ih _ fun e b => (congrArg Tier.atoms (htier e b)).trans (hatoms e b), htier]

/-- With no atomic element anywhere, requests completed one after the other send their signals in that order. -/
theorem completeAll_signals (d : Die) (l : List Nat) (hl : l.Nodup) (s : State) (hatoms : ∀ e b, ((s.die e).tier b).atoms = []) :
    (l.foldl (fun s id => completeReq s d id) s).fabric.signals = s.fabric.signals ++ l.flatMap (completionSignals s d) := by
  induction l generalizing s with
  | nil => exact (List.append_nil _).symm
  | cons id l ih =>
    obtain ⟨hid, hl⟩ := List.nodup_cons.mp hl
    have htier := dequeued_tier s d id (completionSignals s d id)
    have hrest : l.flatMap (completionSignals (s.dequeued d id (completionSignals s d id)) d) = l.flatMap (completionSignals s d) :=
      List.flatMap_congr fun x hx => completionSignals_dequeued (fun h : x = id => hid (h ▸ hx)) _
    rw [List.foldl_cons, completeReq_plain hatoms, ih hl _ fun e b => (congrArg Tier.atoms (htier e b)).trans (hatoms e b), hrest,
      List.flatMap_cons, ← List.append_assoc]
    rfl

/-- A list without repetition has none to erase. -/
theorem eraseDups_of_nodup : ∀ {l : List Nat}, l.Nodup → l.eraseDups = l
  | [], _ => rfl
  | a :: l, h => by
    obtain ⟨ha, hl⟩ := List.nodup_cons.mp h
    have hfilter : l.filter (fun b => !b == a) = l := List.filter_eq_self.mpr fun b hb => by
      simp [show b ≠ a from fun he => ha (he ▸ hb)]
    rw [List.eraseDups_cons, hfilter, eraseDups_of_nodup hl]

/-- Requests with numbers of their own: the one with a request's number is that request. -/
theorem requestsOf_self (h : (s.die d).memQ.Pairwise fun x y => x.id ≠ y.id) {r : MemReq} (hr : r ∈ (s.die d).memQ) :
    requestsOf s d r.id = [r] := by
  unfold requestsOf
  generalize (s.die d).memQ = l at h hr
  obtain ⟨l1, l2, rfl⟩ := List.append_of_mem hr
  obtain ⟨-, h2, h12⟩ := List.pairwise_append.mp h
  have hbefore : l1.filter (fun x => decide (x.id = r.id)) = [] :=
    List.filter_eq_nil_iff.mpr fun x hx he => h12 x hx r List.mem_cons_self (of_decide_eq_true he)
  have hafter : l2.filter (fun x => decide (x.id = r.id)) = [] :=
    List.filter_eq_nil_iff.mpr fun x hx he => (List.pairwise_cons.mp h2).1 x hx (of_decide_eq_true he).symm
  rw [List.filter_append, hbefore, List.nil_append, List.filter_cons, if_pos (decide_eq_true rfl), hafter]

/-- With no atomic element anywhere, the completed requests of a queue send their signals in its order. -/
theorem completed_signals (hatoms : ∀ e b, ((s.die e).tier b).atoms = []) (h : (s.die d).memQ.Pairwise fun x y => x.id ≠ y.id) :
    ((((s.die d).memQ.map (·.id)).eraseDups.filter (reqDone s d)).foldl (fun s id => completeReq s d id) s).fabric.signals =
      s.fabric.signals ++ ((s.die d).memQ.filter fun r => reqDone s d r.id).filterMap fun r =>
        r.sig.map fun b => ⟨d, d, b, s.laps.now, none, (s.die d).epoch, (s.die d).epoch⟩ := by
  have hnodup : ((s.die d).memQ.map (·.id)).Nodup := List.pairwise_map.mpr h
  rw [eraseDups_of_nodup hnodup, completeAll_signals d _ (hnodup.filter _) s hatoms, List.filter_map, List.flatMap_map,
    List.filterMap_eq_flatMap_toList]
  refine congrArg (s.fabric.signals ++ ·) (List.flatMap_congr fun r hr => ?_)
  rw [completionSignals, requestsOf_self h (List.mem_filter.mp hr).1]
  cases hsig : r.sig <;> simp [hsig]

end

/-! ### MEM_UNIT_SERVICE and MEM_COMPLETE -/

section
variable {s : State} {d : Die} {r : MemReq} {q : MemPart} {c : Core}

/-- A read of one clean stripe by one core: the core takes its bytes the tail of the tier later, and the tier's memory stays. -/
theorem OneStripe.read_serves (h : OneStripe s d r q c)
    (hpage : r.far = false → (s.die d).seq.pageQ = [] ∧ (s.die d).due = 0 ∧ s.mladar.toDigest = [])
    (hchecks : s.run.run = none → s.run.wsetBusy = false ∧ s.split.verifyBusy = false)
    (hused : ((s.die d).tier r.far).usedAt < s.laps.now) (hclean : stripeRead ((s.die d).tier r.far) (q.off / 256) = .clean)
    (hk : r.kind = .rd) :
    let m := ((s.die d).tier r.far).mem
    ∃ t, execMemUnitService d r.far s = .next t ∧
      (t.die d).cores[q.core]? = some { c with
        pend := c.pend ++ csPends (s.laps.now + tierTail r.far) false q.cs (memRead m q.off q.len) } ∧
      (t.die d).memQ = [{ r with
        served := 4, lastAt := s.laps.now, parts := [{ q with served := 4, buf := memRead m q.off q.len }] }] ∧
      ((t.die d).tier r.far).mem = m := by
  have ht := h.reads hused hk hclean
  obtain ⟨hcore, -⟩ := List.getElem?_eq_some_iff.mp h.core
  refine ⟨_, (ht.onlyStatic h hpage hchecks).serves, ?_, ?_, mem_of_unslotted ht.tier⟩
  · rw [ht.cores, coresReading, if_pos rfl, List.getElem?_set_self hcore]
  · rw [ht.queue, lineBytesRead_all _ h.range.2]
    rfl

/-- A write of a whole stripe by one core outside a run: the tier takes the core's bytes. -/
theorem OneStripe.write_serves (h : OneStripe s d r q c)
    (hpage : r.far = false → (s.die d).seq.pageQ = [] ∧ (s.die d).due = 0 ∧ s.mladar.toDigest = [])
    (hchecks : s.run.run = none → s.run.wsetBusy = false ∧ s.split.verifyBusy = false)
    (hused : ((s.die d).tier r.far).usedAt < s.laps.now) (hk : r.kind = .wr) (hlen : q.len = 256) (hrun : s.run.run = none) :
    ∃ t, execMemUnitService d r.far s = .next t ∧
      (t.die d).memQ = [{ r with served := 4, lastAt := s.laps.now, parts := [{ q with served := 4 }] }] ∧
      ((t.die d).tier r.far).mem = memWrite ((s.die d).tier r.far).mem q.off (csReadAt c s.laps.now q.cs 256) := by
  have ht := h.writes hused hk hlen hrun
  have hq : q.progress 4 [] = { q with served := 4 } := by rw [MemPart.progress, ← h.unserved.2.1]
  refine ⟨_, (ht.onlyStatic h hpage hchecks).serves, ?_, ht.tier⟩
  rw [ht.queue, MemReq.progress, hq]
  rfl

end

/-- Settles O43: the four units of a stripe by induction on the units served; the completed requests of a queue in its order. -/
theorem unitsAreServedAndComplete : Obligations.UnitsAreServedAndComplete := by
  unfold Obligations.UnitsAreServedAndComplete
  intro s d far now
  refine ⟨?_, fun hqueues hpageQ hdue hdigest hwset hverify => ?_, _, rfl, completed_queue s d, fun hatoms =>
    ⟨fun e b => congrArg Tier.mem (completeAll_tier d _ s hatoms e b), completed_signals hatoms⟩⟩
  · rintro r q c hqueue hstatic rfl hdie htarget hparts hactive hserved hunits hbuf hrserved htotal hallowed hearliest hfloor hlen
      hend hcore t0 hpage hchecks hothers hused hatoms hclean hbudget
    have h : OneStripe s d r q c := ⟨hqueue, hstatic, hdie, htarget, hparts, hactive, hunits, ⟨hserved, hbuf, hrserved⟩,
      ⟨htotal, hallowed⟩, ⟨hearliest, hfloor⟩, ⟨hlen, hend⟩, hcore, hothers⟩
    exact ⟨h.read_serves hpage hchecks hused hclean, fun hk hwhole hrun _ _ => h.write_serves hpage hchecks hused hk hwhole hrun⟩
  · have hsame : serveStatic s d far = s := serveStatic_empty (hqueues d)
    have hidle : OnlyStatic s d far := ⟨fun _ => ⟨hpageQ, hdue, hdigest⟩, fun e r hr => by simp [hqueues e] at hr, fun _ => ⟨hwset, hverify⟩⟩
    exact (OnlyStatic.serves (hsame.symm ▸ hidle)).trans (congrArg _ hsame)

end Sys2Proof.Machine

/-! PROOFS. The family of the core store, the map and the fabric: power and bring-up, the service connector, resets of dies and
channels. -/
namespace Sys2Proof.Machine

/-! ### The rails (R441, R442, R444, R445) -/

theorem railsDown_die (s : State) (latched : Bool) (d : Die) : (railsDown s latched).die d = coldDie (s.die d) (gridSide s) false 0 :=
  State.die_map s _ d

/-- Without rails only what fuses, flash, fence lists and certificates hold is left. -/
theorem railsDown_keeps (s : State) (latched : Bool) :
    let t := railsDown s latched
    t.power.phase = .off ∧ t.power.latched = latched ∧ t.power.step = 0 ∧ t.run = RunSt.init ∧
      t.laps = { Laps.init with now := s.laps.now } ∧
      t.sec.flash = (if s.sec.commit.isSome then memClear s.sec.flash 0 0x1000000 else s.sec.flash) ∧
      t.sec.rollback = s.sec.rollback ∧ t.sec.revoked = s.sec.revoked ∧
      ∀ d, (t.die d).near.mem = [] ∧ (t.die d).groupsOn = 0 ∧ (t.die d).fences = (s.die d).fences :=
  ⟨rfl, rfl, rfl, rfl, rfl, rfl, rfl, rfl, fun d => by rw [railsDown_die]; exact ⟨rfl, rfl, rfl⟩⟩

theorem powered_iff {s : State} : powered s = true ↔ s.power.phase ≠ .off := decide_eq_true_iff

/-- The input of a module that is off rises: power comes up unless a latch holds it that no fall of the input has cleared. -/
theorem execInputRise_off {s : State} (h : s.power.phase = .off) : execInputRise s =
    if s.power.latched = false ∨ s.power.fell = true then
      .next { s with
        power := { s.power with
          phase := .softStart, latched := false, fell := false, riseAt := s.laps.now, uv := false, below40 := true, uvSince := none }
        ident := { s.ident with resetCause := if s.power.latched then 5 else 1 } }
    else .next s := by
  simp [execInputRise, powered, h]

theorem execStaggerStep_early {s : State} (h : s.laps.now < s.power.riseAt + 4700000 + 235000 * (s.power.step + 1)) :
    execStaggerStep s = .next s := by
  have hd : ¬ stepEnd s.power s.power.step ≤ s.laps.now := Nat.not_le.mpr h
  simp [execStaggerStep, hd]

theorem execStaggerStep_due {s : State} (hp : s.power.phase = .softStart ∨ s.power.phase = .stagger) (hk : s.power.step < 257)
    (h : s.power.riseAt + 4700000 + 235000 * (s.power.step + 1) ≤ s.laps.now) : execStaggerStep s = .next (staggerNext s) := by
  have hd : stepEnd s.power s.power.step ≤ s.laps.now := h
  simp [execStaggerStep, hp, hk, hd]

/-- Step 0 is the hub's; step k > 0 powers row group (k − 1) mod 16 of die (k − 1) / 16. -/
theorem staggerNext_die {s : State} (hk : s.power.step < 257) (d : Die) :
    (1 ≤ s.power.step → d.val = (s.power.step - 1) / 16 → ((staggerNext s).die d).groupsOn = (s.power.step - 1) % 16 + 1) ∧
    (s.power.step = 0 ∨ d.val ≠ (s.power.step - 1) / 16 → (staggerNext s).die d = s.die d) := by
  by_cases h0 : s.power.step = 0
  · simp only [staggerNext, h0, if_true]
    exact ⟨fun h => absurd h (by decide), fun _ => rfl⟩
  · simp only [staggerNext, h0, if_false, false_or]
    refine ⟨fun _ hd => ?_, fun hd => ?_⟩
    · rw [← hd, dieOf_val, State.setDie_die_self]
    · refine State.setDie_die_other _ _ fun he => hd ?_
      rw [he]
      exact Nat.mod_eq_of_lt (by omega)

theorem staggerNext_power (s : State) : (staggerNext s).power = { s.power with phase := .stagger, step := s.power.step + 1 } := by
  unfold staggerNext
  dsimp only
  split <;> rfl

/-- 2.75 ms after step 256 ended, 72 ms after the rise. -/
theorem goodCheckAt (p : Power) : stepEnd p 256 + 2585000 = p.riseAt + 67680000 := by simp [stepEnd, Nat.add_assoc]

theorem execPowerGoodCheck_early {s : State} (h : s.laps.now < s.power.riseAt + 67680000) (good : Bool) :
    execPowerGoodCheck good s = .next s := by
  simp [execPowerGoodCheck, goodCheckAt, h]

theorem execPowerGoodCheck_due {s : State} (hp : s.power.phase = .stagger) (hk : s.power.step = 257)
    (h : s.power.riseAt + 67680000 ≤ s.laps.now) (good : Bool) : execPowerGoodCheck good s =
      .next (if good then { s with power := { s.power with phase := .boot, goodDone := true } } else railsDown s true) := by
  simp [execPowerGoodCheck, goodCheckAt, hp, hk, h]

/-! ### The firmware image (R424 to R427) -/

theorem verifyImage_unread (x : Sec) (m : Mem) : verifyImage x m false = .inl 6 := rfl

/-! ### The seal certificate (R432) -/

theorem tlv_length_le {c : List Byte} {n : Nat} (h : c.length ≤ n) (tag : Byte) : (tlv tag c).length ≤ n + 4 := by
  have hlen : (derLen c.length).length ≤ 3 := by
    unfold derLen
    split
    · simp
    · split <;> simp
  rw [tlv, List.length_cons, List.length_append]
  omega

theorem derSeq_length_le {l : List (List Byte)} {n : Nat} (h : (l.map List.length).sum ≤ n) : (derSeq l).length ≤ n + 4 :=
  tlv_length_le (List.length_flatten.trans_le h) 0x30

theorem derInt_length_le (bs : List Byte) : (derInt bs).length ≤ bs.length + 5 := by
  have hle : (bs.dropWhile (· == 0)).length ≤ bs.length := (List.dropWhile_sublist _).length_le
  unfold derInt
  generalize bs.dropWhile (· == 0) = l at hle
  cases l with
  | nil => exact Nat.le_trans (by decide) (Nat.le_add_left 5 _)
  | cons b l => exact tlv_length_le (n := bs.length + 1) (by split <;> simp at hle ⊢ <;> omega) 2

theorem pointBytes_length_le (p : Point) : (pointBytes p).length ≤ 133 := by
  cases p <;> simp [pointBytes, beBytes, leBytes_length]

theorem serialAttr_length_le (serial : List Byte) : (serialAttr serial).length ≤ 33 := by
  have hserial : ((serial.take 16).filter (· != 0)).length ≤ 16 :=
    (List.length_filter_le _ _).trans (List.length_take_le 16 serial)
  have hstring : (tlv 0x13 ((serial.take 16).filter (· != 0))).length ≤ 20 := tlv_length_le hserial _
  have hoid : (tlv 6 [0x55, 0x04, 0x05]).length = 5 := rfl
  exact tlv_length_le (derSeq_length_le (n := 25) (by simp only [List.map_cons, List.map_nil, List.sum_cons, List.sum_nil]; omega)) _

theorem identName_length_le (serial : List Byte) : (identName serial).length ≤ 37 :=
  derSeq_length_le (by simpa using serialAttr_length_le serial)

theorem sealName_length_le (serial : List Byte) : (sealName serial).length ≤ 62 := by
  have hname : (nameAttr "Xervo lap seal").length = 25 := by decide
  have hserial := serialAttr_length_le serial
  exact derSeq_length_le (n := 58) (by simp only [List.map_cons, List.map_nil, List.sum_cons, List.sum_nil]; omega)

theorem keyInfo_length_le (p : Point) : (keyInfo p).length ≤ 164 := by
  have halg : (derSeq [tlv 6 [0x2A, 0x86, 0x48, 0xCE, 0x3D, 0x02, 0x01], tlv 6 [0x2B, 0x81, 0x04, 0x00, 0x23]]).length = 18 := by decide
  have hkey : (tlv 3 (0 :: pointBytes p)).length ≤ 138 := tlv_length_le (Nat.succ_le_succ (pointBytes_length_le p)) _
  exact derSeq_length_le (n := 160) (by simp only [List.map_cons, List.map_nil, List.sum_cons, List.sum_nil]; omega)

theorem sigAlg_length : sigAlg.length = 12 := by decide

theorem sealBodyOf_length_le {number : List Byte} (h : number.length ≤ 16) (serial : List Byte) (key : Nat) :
    (sealBodyOf number serial key).length ≤ 512 := by
  have hver : (tlv 0xA0 (tlv 2 [2])).length = 5 := rfl
  have hnumber := derInt_length_le number
  have hissuer := identName_length_le serial
  have halg := sigAlg_length
  have hvalidity : validity.length = 36 := by decide
  have hsubject := sealName_length_le serial
  have hkey := keyInfo_length_le (publicPoint key)
  have hexts : (certExts false).length ≤ 100 := by decide
  exact derSeq_length_le (n := 508) (by simp only [List.map_cons, List.map_nil, List.sum_cons, List.sum_nil]; omega)

theorem certOfBody_length_le {body : List Byte} (h : body.length ≤ 512) (g : Nat × Nat) : (certOfBody body g).length ≤ 700 := by
  have hint (x : Nat) : (derInt (beBytes 66 x)).length ≤ 71 := by
    have hx := derInt_length_le (beBytes 66 x)
    simpa [beBytes, leBytes_length] using hx
  have hpair : (derSeq [derInt (beBytes 66 g.1), derInt (beBytes 66 g.2)]).length ≤ 146 :=
    derSeq_length_le (by simpa using Nat.add_le_add (hint g.1) (hint g.2))
  have hsig : (tlv 3 (0 :: derSeq [derInt (beBytes 66 g.1), derInt (beBytes 66 g.2)])).length ≤ 151 :=
    tlv_length_le (Nat.succ_le_succ hpair) _
  have halg := sigAlg_length
  exact derSeq_length_le (n := 696) (by simp only [List.map_cons, List.map_nil, List.sum_cons, List.sum_nil]; omega)

theorem certNumber_length (bs : List Byte) : (certNumber bs).length = bs.length := by cases bs <;> rfl

theorem issueSeal_certificate (s : State) : (issueSeal s).sec.certSeal.length ≤ 2044 ∧
    ∃ number g, (issueSeal s).sec.certSeal = certOfBody (sealBodyOf number s.sec.serial (issueSeal s).sec.sealKey) g := by
  refine ⟨(certOfBody_length_le (sealBodyOf_length_le ?_ ..) _).trans (by decide), _, _, rfl⟩
  simp [certNumber_length, randomBytes]

/-- A seal key takes draws and leaves the fuses and the dies. -/
theorem issueSeal_leaves (s : State) :
    s.freeIdx < (issueSeal s).freeIdx ∧ (issueSeal s).sec.rollback = s.sec.rollback ∧ (issueSeal s).dies = s.dies := by
  unfold issueSeal
  exact ⟨(Nat.lt_add_of_pos_right (by decide)).trans (Nat.lt_add_of_pos_right (by decide)), rfl, rfl⟩

/-! ### Training of the memory channels (R316, R372) -/

/-- A channel failed. -/
def Chan.fails (c : Chan) : Chan := { c with failed := true, resetFrom := none }

theorem failChannel_eq (s : State) (d : Die) (far : Bool) (ch : Fin 20) : failChannel s d far ch.val =
    s.setTier d far { (s.die d).tier far with
      chans := ((s.die d).tier far).chans.set ch ((s.die d).tier far).chans[ch].fails
      degraded := ((s.die d).tier far).degraded || groupFailed ((s.die d).tier far) ch } := by
  rw [failChannel, vset_eq_set ch.isLt, vget_fin]
  rfl

theorem failChannel_mem (s : State) (d e : Die) (far x : Bool) (ch : Fin 20) :
    (((failChannel s d far ch.val).die e).tier x).mem = ((s.die e).tier x).mem := by
  rw [failChannel_eq]
  by_cases h : e ≠ d ∨ x ≠ far
  · rw [State.setTier_tier_other s _ h]
  · obtain ⟨rfl, rfl⟩ : e = d ∧ x = far := by simpa using h
    rw [State.setTier_tier_self]

theorem failChannel_chan (s : State) (d e : Die) (far x : Bool) (ch k : Fin 20) :
    (((failChannel s d far ch.val).die e).tier x).chans[k] =
      if (e, x, k) = (d, far, ch) then ((s.die e).tier x).chans[k].fails else ((s.die e).tier x).chans[k] := by
  rw [failChannel_eq]
  by_cases h : e ≠ d ∨ x ≠ far
  · rw [State.setTier_tier_other s _ h, if_neg]
    rintro ⟨⟩
    simp at h
  · obtain ⟨rfl, rfl⟩ : e = d ∧ x = far := by simpa using h
    rw [State.setTier_tier_self]
    by_cases hk : k = ch
    · subst hk; simp
    · have hv : ch.val ≠ k.val := fun hv => hk (Fin.ext hv.symm)
      simp [hk, hv]

/-- The channels of a list failed, and no others, with the memories as before. -/
theorem failChannels (l : List (Die × Bool × Fin 20)) (s : State) :
    let t := l.foldl (fun s y => failChannel s y.1 y.2.1 y.2.2) s
    ∀ (d : Die) (far : Bool) (ch : Fin 20),
      ((d, far, ch) ∈ l ∨ ((s.die d).tier far).chans[ch].failed = true → ((t.die d).tier far).chans[ch].failed = true) ∧
      ((d, far, ch) ∉ l → ((t.die d).tier far).chans[ch] = ((s.die d).tier far).chans[ch]) ∧
      ((t.die d).tier far).mem = ((s.die d).tier far).mem := by
  induction l generalizing s with
  | nil => exact fun d far ch => ⟨fun h => by simpa using h, fun _ => rfl, rfl⟩
  | cons y l ih =>
    intro t d far ch
    obtain ⟨hin, hout, hmem⟩ := ih (failChannel s y.1 y.2.1 y.2.2) d far ch
    rw [failChannel_mem] at hmem
    rw [failChannel_chan] at hin hout
    refine ⟨fun h => hin ?_, fun h => ?_, hmem⟩
    · split
      · exact .inr rfl
      · next hne => simpa [hne] using h
    · obtain ⟨hne, hl⟩ := not_or.mp (h ∘ List.mem_cons.mpr)
      exact (hout hl).trans (if_neg hne)

/-! ### The map (R300, R301, R370) -/

/-- The rows that are taken: further ones of the list, in its order, that can be built and were not retired before. -/
theorem buildRows_rows (x : DieSt) (n : Nat) (l rows ret : List Nat) : ∃ m, (buildRows x n l rows ret).1 = rows ++ m ∧
    m.Sublist l ∧ ∀ pr ∈ m, pr ∉ ret ∧ buildRow x n pr = true := by
  induction l generalizing rows ret with
  | nil => exact ⟨[], (List.append_nil rows).symm, .refl _, by simp⟩
  | cons pr l ih =>
    have hnone : ∃ m, rows = rows ++ m ∧ m.Sublist (pr :: l) ∧ ∀ p ∈ m, p ∉ ret ∧ buildRow x n p = true :=
      ⟨[], (List.append_nil rows).symm, List.nil_sublist _, by simp⟩
    have hskip (ret' : List Nat) (hret : ∀ p ∈ ret, p ∈ ret') : ∃ m, (buildRows x n l rows ret').1 = rows ++ m ∧
        m.Sublist (pr :: l) ∧ ∀ p ∈ m, p ∉ ret ∧ buildRow x n p = true := by
      obtain ⟨m, heq, hsub, hm⟩ := ih rows ret'
      exact ⟨m, heq, hsub.cons pr, fun p hp => ⟨fun hr => (hm p hp).1 (hret p hr), (hm p hp).2⟩⟩
    unfold buildRows
    split
    next htry =>
      split
      next hbuild =>
        have htake : ∃ m, (buildRows x n l (rows ++ [pr]) ret).1 = rows ++ m ∧
            m.Sublist (pr :: l) ∧ ∀ p ∈ m, p ∉ ret ∧ buildRow x n p = true := by
          obtain ⟨m, heq, hsub, hm⟩ := ih (rows ++ [pr]) ret
          refine ⟨pr :: m, heq.trans (List.append_assoc ..), hsub.cons_cons pr, fun p hp => ?_⟩
          rcases List.mem_cons.mp hp with rfl | hp
          · exact ⟨by simpa using htry.2, hbuild⟩
          · exact hm p hp
        split
        · split
          · exact hnone
          · exact htake
        · exact htake
      next => exact hskip _ fun p hp => List.mem_append_left _ hp
    next => exact hskip ret fun p hp => hp

/-- No more rows are taken than a map has, and as many unless sparing is exhausted. -/
theorem buildRows_length (x : DieSt) (n : Nat) (l rows ret : List Nat) (h : rows.length ≤ n) :
    (buildRows x n l rows ret).1.length ≤ n ∧
      ((buildRows x n l rows ret).2.2 = false → (buildRows x n l rows ret).1.length = n) := by
  induction l generalizing rows ret with
  | nil => exact ⟨h, fun hx => le_antisymm h (Nat.not_lt.mp (of_decide_eq_false hx))⟩
  | cons pr l ih =>
    unfold buildRows
    split
    next htry =>
      have hnext : (rows ++ [pr]).length ≤ n := by simpa using htry.1
      split
      · split
        · split
          · exact ⟨h, fun hx => Bool.noConfusion hx⟩
          · exact ih _ ret hnext
        · exact ih _ ret hnext
      · exact ih rows _ h
    next => exact ih rows ret h

/-- A die with its map built at power-up. -/
def DieSt.mapped (n : Nat) (x : DieSt) : DieSt :=
  let r := buildRows { x with map := { x.map with bad := x.fences } } n (List.range 256) [] x.map.retired
  { x with map := ⟨r.1, x.fences, r.2.1, r.2.2 || decide (1024 ≤ x.fences.length)⟩ }

theorem bootMap_eq (s : State) (d : Die) : bootMap s d = s.setDie d ((s.die d).mapped (gridSide s)) := by
  simp only [bootMap, rebuildMap, State.setDie_die_self, State.setDie_twice]
  rfl

theorem forDies_bootMap_die (s : State) (d : Die) : (forDies bootMap s).die d = (s.die d).mapped (gridSide s) := by
  have h : forDies bootMap s = forDies (fun u d => u.setDie d ((u.die d).mapped (gridSide s))) s := by
    have hboot : bootMap = fun u d => u.setDie d ((u.die d).mapped (gridSide u)) := funext₂ bootMap_eq
    rw [hboot]
    exact foldl_setDie_context gridSide (fun _ _ _ => rfl) (fun n _ x => x.mapped n) _ s rfl
  rw [h, forDies_setDie_die fun _ x => x.mapped (gridSide s)]

/-- The map at power-up takes rows in ascending order that can be built and were not retired, and is full unless sparing is
exhausted. -/
theorem mapped_map (n : Nat) (x : DieSt) :
    let y := x.mapped n
    y.fences = x.fences ∧ y.map.bad = x.fences ∧ y.map.rows.Pairwise (· < ·) ∧ y.map.rows.length ≤ n ∧
      (y.map.exhausted = false → y.map.rows.length = n) ∧ ∀ pr ∈ y.map.rows, pr < 256 ∧ pr ∉ x.map.retired ∧ buildRow y n pr = true := by
  have hlength := buildRows_length { x with map := { x.map with bad := x.fences } } n (List.range 256) [] x.map.retired (Nat.zero_le n)
  obtain ⟨m, hrows, hsub, hm⟩ := buildRows_rows { x with map := { x.map with bad := x.fences } } n (List.range 256) [] x.map.retired
  have hy : (x.mapped n).map.rows = m := hrows
  refine ⟨rfl, rfl, hy ▸ List.pairwise_lt_range.sublist hsub, hlength.1, fun hx => hlength.2 ?_, fun pr hpr => ?_⟩
  · exact (Bool.or_eq_false_iff.mp hx).1
  · rw [hy] at hpr
    exact ⟨List.mem_range.mp (hsub.subset hpr), hm pr hpr⟩

/-! ### Bring-up (R457, R458, Table 21-1) -/

section
variable {s : State}

theorem bringingUp_of (h : (s.power.phase = .stagger ∨ s.power.phase = .boot) ∧ s.sec.responder = false ∧ s.sec.extest = false) :
    bringingUp s = true := by
  simp [bringingUp, h]

theorem training_of (h : bringingUp s = true) (hv : s.power.verified = true) (hg : s.power.goodDone = true) : training s = true := by
  simp [training, h, hv, hg]

/-- The ROM's verification of an image that fails a check ends in the responder with the reason code. -/
theorem execRomVerifyDone_fails (h : bringingUp s = true) (hstep : 1 ≤ s.power.step) (hv : s.power.verified = false) {reads : Bool}
    {r : Nat} (hi : verifyImage s.sec s.sec.flash reads = .inl r) : execRomVerifyDone reads s = .next (raiseResponder s r) := by
  simp [execRomVerifyDone, h, hstep, hv, hi]

/-- The ROM's verification of an image that meets every check ends in the firmware that the image holds. -/
theorem execRomVerifyDone_passes (h : bringingUp s = true) (hstep : 1 ≤ s.power.step) (hv : s.power.verified = false) {reads : Bool}
    {v : ImageOk} (hi : verifyImage s.sec s.sec.flash reads = .inr v) : execRomVerifyDone reads s = .next { s with
      power := { s.power with verified := true }
      net := { s.net with dark := false }
      sec := { s.sec with slot := v.slot, secVerRun := v.ver, fwDigest := v.digest } } := by
  simp [execRomVerifyDone, h, hstep, hv, hi]

theorem execSealKeyIssue_due (h : bringingUp s = true) (hv : s.power.verified = true) (hi : s.power.sealIssued = false) :
    execSealKeyIssue s = .next (issueSeal s) := by
  simp [execSealKeyIssue, h, hv, hi]

theorem execMemTrainingDone_due (h : training s = true) (hm : s.power.memTrained = false) (l : List (Die × Bool × Fin 20)) :
    execMemTrainingDone l s = .next { l.foldl (fun s y => failChannel s y.1 y.2.1 y.2.2) s with
      power := { (l.foldl (fun s y => failChannel s y.1 y.2.1 y.2.2) s).power with memTrained := true } } := by
  simp [execMemTrainingDone, h, hm]

theorem execLinkTrainingDone_due (h : training s = true) (hl : s.power.linkTrained = false) (failed : BitVec 28) :
    execLinkTrainingDone failed s = .next { s with
      power := { s.power with linkTrained := true }
      fabric := { s.fabric with linkFailed := s.fabric.linkFailed ||| failed } } := by
  simp [execLinkTrainingDone, h, hl]

theorem execMapBuild_due (h : training s = true) (hm : s.power.memTrained = true) (hl : s.power.linkTrained = true)
    (hb : s.power.mapped = false) :
    ∃ t, execMapBuild s = .next t ∧ t.power.mapped = true ∧ ∀ d, t.die d = (s.die d).mapped (gridSide s) := by
  have hdies := forDies_bootMap_die s
  rw [execMapBuild, if_pos (by simp [h, hm, hl, hb])]
  generalize forDies bootMap s = u at hdies
  exact ⟨_, rfl, rfl, hdies⟩

theorem execFirstIdleLap_due (h : training s = true) (hm : s.power.mapped = true) (hi : s.power.sealIssued = true) (us : Word) :
    execFirstIdleLap us s = .next { s with
      power := { firstTelemetry s.power with phase := .laps }
      laps := { Laps.init with now := s.laps.now }
      net := { s.net with carries := s.net.lanes == 0xFF }
      ident := { s.ident with bootDegraded := degraded s, bootTime := us, restarts := s.power.restarts } } := by
  simp [execFirstIdleLap, h, hm, hi]

/-! ### The service connector (R437, R453, R467) -/

theorem execTapInstruction_on (h : s.power.phase ≠ .off) {i : TapInstr} (he : i ≠ .extest) (hf : i ≠ .factory) :
    execTapInstruction i s = .next (loadTap s i) := by
  cases i <;> simp_all [execTapInstruction, powered_iff]

theorem execTapInstruction_extest (h : s.power.phase ≠ .off) (he : s.sec.extest = false) :
    execTapInstruction .extest s = .next (holdExtest s) := by
  simp [execTapInstruction, powered_iff.mpr h, he]

theorem execTapInstruction_factory (h : s.power.phase ≠ .off) :
    execTapInstruction .factory s = .next (if s.sec.locked then s else loadTap s .factory) := by
  simp [execTapInstruction, powered_iff.mpr h]

theorem execExtestLoad_on (h : s.power.phase ≠ .off) (he : s.sec.extest = false) : execExtestLoad s = .next (holdExtest s) := by
  simp [execExtestLoad, powered_iff.mpr h, he]

/-- The instruction that releases EXTEST is one of the others, and no factory instruction of a locked module (log 26). -/
theorem execExtestRelease_loads (he : s.sec.extest = true) : ∃ i, execExtestRelease s = .next (loadTap s.draw.2 i) ∧
    i ≠ .extest ∧ (s.sec.locked = true → i ≠ .factory) := by
  rw [execExtestRelease, if_pos he]
  refine ⟨_, rfl, ?_, fun hl => ?_⟩
  · split_ifs <;> decide
  · have hk : Config.freeNat s.draw.1 % 3 = 0 ∨ Config.freeNat s.draw.1 % 3 = 1 ∨ Config.freeNat s.draw.1 % 3 = 2 := by omega
    rcases hk with hk | hk | hk <;> simp [hl, hk]

end

/-- Settles O60: the loss of the rails is `railsDown_keeps`, the map `mapped_map`, the certificate `issueSeal_certificate`, the
trained channels `failChannels`; every other event is its own equation. -/
theorem powerAndBringUpProceed : Obligations.PowerAndBringUpProceed := by
  unfold Obligations.PowerAndBringUpProceed
  intro s down trains
  refine ⟨fun hoff => ?_, execStaggerStep_early, fun hp hk hd => ?_, execPowerGoodCheck_early, fun hp hk hd => ?_, fun hon => ?_,
    fun htrains hstep hv reads => ?_, fun htrains hv hi => ?_, fun htrains hv hg => ?_, fun hon => ?_, fun he => ?_⟩
  · refine ⟨fun h => ⟨_, (execInputRise_off hoff).trans (if_pos h), rfl, rfl, rfl, rfl⟩, fun hl hf => ?_, ?_⟩
    · exact (execInputRise_off hoff).trans (if_neg (by simp [hl, hf]))
    · exact congrArg Host.Outcome.next (if_neg fun h => powered_iff.mp h hoff)
  · have hpower := staggerNext_power s
    exact ⟨_, execStaggerStep_due hp hk hd, congrArg Power.phase hpower, congrArg Power.step hpower, staggerNext_die hk⟩
  · exact ⟨execPowerGoodCheck_due hp hk hd true, _, execPowerGoodCheck_due hp hk hd false, railsDown_keeps s true⟩
  · have hpowered := powered_iff.mpr hon
    exact ⟨⟨_, congrArg Host.Outcome.next (if_pos hpowered), railsDown_keeps s false⟩,
      ⟨_, congrArg Host.Outcome.next (if_pos hpowered), railsDown_keeps s true⟩,
      ⟨_, congrArg Host.Outcome.next (if_pos hpowered), railsDown_keeps s true⟩⟩
  · have hup := bringingUp_of htrains
    have hunread (hr : reads = false) : verifyImage s.sec s.sec.flash reads = .inl 6 := by rw [hr, verifyImage_unread]
    cases himage : verifyImage s.sec s.sec.flash reads with
    | inl r =>
      exact ⟨_, execRomVerifyDone_fails hup hstep hv himage, fun hr => ⟨rfl, Sum.inl.inj (himage.symm.trans (hunread hr))⟩,
        .inl ⟨r, rfl, rfl, rfl, hv⟩⟩
    | inr v =>
      exact ⟨_, execRomVerifyDone_passes hup hstep hv himage, fun hr => absurd (himage.symm.trans (hunread hr)) nofun,
        .inr ⟨v, rfl, htrains.2.1, rfl, rfl, rfl, rfl⟩⟩
  · obtain ⟨hlen, hcert⟩ := issueSeal_certificate s
    obtain ⟨hdraws, hrollback, hdies⟩ := issueSeal_leaves s
    exact ⟨_, execSealKeyIssue_due (bringingUp_of htrains) hv hi, rfl, rfl, hlen, hdraws, hcert, hrollback, hdies⟩
  · have ht := training_of (bringingUp_of htrains) hv hg
    refine ⟨fun hm l => ⟨_, execMemTrainingDone_due ht hm l, rfl, fun d far ch => ?_⟩, execLinkTrainingDone_due ht,
      fun hm hl hb => ?_, fun hm hi us =>
      ⟨_, execFirstIdleLap_due ht hm hi us, rfl, rfl, rfl, rfl, rfl, rfl, rfl, rfl, rfl⟩⟩
    · obtain ⟨hin, hout, hmem⟩ := failChannels l s d far ch
      exact ⟨fun h => hin (.inl h), hout, hmem⟩
    · obtain ⟨t, hexec, hmapped, hdies⟩ := execMapBuild_due ht hm hl hb
      exact ⟨t, hexec, hmapped, fun d => hdies d ▸ mapped_map (gridSide s) (s.die d)⟩
  · refine ⟨fun he => ?_, fun i hi => ?_, fun hl => ?_, fun hl => ?_⟩
    · exact ⟨_, execExtestLoad_on hon he, execTapInstruction_extest hon he, rfl, rfl, rfl, rfl, rfl⟩
    · have hne : i ≠ .extest ∧ i ≠ .factory := by
        revert i
        decide
      exact execTapInstruction_on hon hne.1 hne.2
    · exact (execTapInstruction_factory hon).trans (congrArg Host.Outcome.next (if_pos hl))
    · exact (execTapInstruction_factory hon).trans (congrArg Host.Outcome.next (if_neg (by simp [hl])))
  · obtain ⟨i, hexec, hi, hlocked⟩ := execExtestRelease_loads he
    exact ⟨_, hexec, rfl, hi, hlocked, rfl, rfl⟩

/-! ### Faults found in a cycle (R365) -/

/-- The lap has a fault, and a record of a cause on a die in a cycle is detected. -/
def Found (t : State) (cause die at_ : Nat) : Prop := t.laps.lapFault = true ∧ Recorded t.faults.detected cause die at_

theorem found_addFault (s : State) (r : FaultRec) : Found (addFault s r) r.cause r.die r.at_ :=
  ⟨rfl, recorded_mergeRec_self r s.faults.detected⟩

/-! ### DIE_RESET_END (R371) -/

theorem endDieReset_over {s : State} {d : Die} {b : Nat} (h : (s.die d).resetFrom = some b) :
    endDieReset s d = if b + 4096 ≤ s.laps.now then s.setDie d { s.die d with resetFrom := none } else s := by
  rw [endDieReset, h]

/-! ### FENCED_COMPLETION (R313, R334) -/

theorem fencedChan_idle {t : Tier} (h : ∀ c ∈ t.chans.toList, c.resetFrom = none) (r : MemReq) : fencedChan t r = none := by
  rw [fencedChan, List.find?_eq_none]
  intro k hk
  have hlt : k < 20 := List.mem_range.mp hk
  have hc : (vget t.chans k Chan.init).resetFrom = none := by
    rw [vget_fin t.chans ⟨k, hlt⟩]
    exact h _ (by simp)
  simp [hc]

theorem fencedReq_idle {s : State} {d : Die} (hd : (s.die d).resetFrom = none) {r : MemReq}
    (h : r.target = d → ∀ c ∈ ((s.die d).tier r.far).chans.toList, c.resetFrom = none) : fencedReq s d r = false := by
  by_cases ht : r.target = d
  · simp [fencedReq, hd, fencedChan_idle (h ht)]
  · simp [fencedReq, ht]

/-- Ending die `e`'s requests that die `d` or a channel of it fences. -/
def fenceDie (s : State) (d : Die) (x : State) (e : Die) : State :=
  let l := (x.die e).memQ.filter (fencedReq s d)
  if l.isEmpty then x
  else
    let x0 : State := { x with fabric := { x.fabric with fenced := x.fabric.fenced ++ l.map (fencedDone s d) } }
    let x1 := x0.setDie e { x.die e with memQ := (x.die e).memQ.filter fun r => !fencedReq s d r }
    addFault x1 (mkRec x1 1 18 e none 11 0 0 1)

theorem execFencedCompletion_eq (s : State) (d : Die) :
    execFencedCompletion d s = .next (fenceHub (forDies (fenceDie s d) s) d) := rfl

theorem fenceDie_idle {s x : State} {d e : Die} (h : ∀ r ∈ (x.die e).memQ, fencedReq s d r = false) : fenceDie s d x e = x := by
  have hl : (x.die e).memQ.filter (fencedReq s d) = [] := List.filter_eq_nil_iff.mpr fun r hr => by simp [h r hr]
  simp [fenceDie, hl]

/-- The module without fenced completions and without the marks that faults leave in the lap. -/
def State.unfenced (s : State) : State :=
  { s with
    laps := { s.laps with lapFault := false, progFault := false }
    faults := { s.faults with detected := [], lapRecs := [] }
    fabric := { s.fabric with fenced := [] } }

/-- From `s` to `t` requests waiting in the dies were ended by fenced completions. -/
abbrev Ended (s t : State) : Prop := Leaves (State.masked State.unfenced fun x => { x with memQ := [] }) s t

/-- From `x` to `y` the requests that die `d` fences in `s` are ended in the dies of `l`. -/
structure Fences (s : State) (d : Die) (l : List Die) (x y : State) : Prop where
  ended : Ended x y
  queue : ∀ e, (y.die e).memQ = if e ∈ l then (x.die e).memQ.filter (fun r => !fencedReq s d r) else (x.die e).memQ
  fenced : ∀ z ∈ x.fabric.fenced, z ∈ y.fabric.fenced
  done : ∀ e ∈ l, ∀ r ∈ (x.die e).memQ, fencedReq s d r = true → fencedDone s d r ∈ y.fabric.fenced
  found : ∀ e ∈ l, (∃ r ∈ (x.die e).memQ, fencedReq s d r = true) → Found y 18 e x.laps.now
  keeps : ∀ c e a, Found x c e a → Found y c e a

/-- Nothing is ended in a die in which nothing is fenced. -/
theorem fences_of_none {s x : State} {d e : Die} (h : ∀ r ∈ (x.die e).memQ, fencedReq s d r = false) : Fences s d [e] x x := by
  have hnone {c : Die} (hc : c ∈ [e]) {r : MemReq} (hr : r ∈ (x.die c).memQ) : fencedReq s d r ≠ true := by
    rw [List.mem_singleton.mp hc] at hr
    simp [h r hr]
  have hq : (x.die e).memQ.filter (fun r => !fencedReq s d r) = (x.die e).memQ :=
    List.filter_eq_self.mpr fun r hr => by simp [h r hr]
  exact {
    ended := .refl x
    queue := fun c => by
      by_cases hc : c = e
      · simp [hc, hq]
      · simp [hc]
    fenced := fun _ hz => hz
    done := fun c hc r hr hf => absurd hf (hnone hc hr)
    found := fun c hc ⟨r, hr, hf⟩ => absurd hf (hnone hc hr)
    keeps := fun _ _ _ hk => hk }

theorem fenceDie_fences (s : State) (d : Die) (x : State) (e : Die) : Fences s d [e] x (fenceDie s d x e) := by
  by_cases h : ∀ r ∈ (x.die e).memQ, fencedReq s d r = false
  · rw [fenceDie_idle h]
    exact fences_of_none h
  · have hl : (x.die e).memQ.filter (fencedReq s d) ≠ [] := fun hn => h fun r hr => by
      simpa using List.filter_eq_nil_iff.mp hn r hr
    rw [fenceDie]
    extract_lets l x0 y x1
    rw [if_neg (by simpa [l] using hl)]
    have h0 : Ended x x0 := ⟨rfl, id⟩
    have h1 : Ended x x1 := h0.setDie rfl
    exact {
      ended := ⟨h1.same, fun _ => rfl⟩
      queue := fun c => by
        rw [addFault_die, State.setDie_die x0 e c]
        by_cases hc : c = e
        · simp [hc, y]
        · simp only [hc, List.mem_singleton, if_false]
          rfl
      fenced := fun _ hz => List.mem_append_left _ hz
      done := fun c hc r hr hf => by
        rw [List.mem_singleton.mp hc] at hr
        exact List.mem_append_right _ (List.mem_map_of_mem (List.mem_filter.mpr ⟨hr, hf⟩))
      found := fun c hc _ => by
        rw [List.mem_singleton.mp hc]
        exact found_addFault x1 _
      keeps := fun _ _ _ hk => ⟨rfl, hk.2.mergeRec _⟩ }

theorem Fences.cons {s x y z : State} {d e : Die} {l : List Die} (h : Fences s d [e] x y) (g : Fences s d l y z) (he : e ∉ l) :
    Fences s d (e :: l) x z := by
  have hout {c : Die} (hc : c ∈ l) : (y.die c).memQ = (x.die c).memQ := by
    have hce : c ∉ [e] := fun hm => he (List.mem_singleton.mp hm ▸ hc)
    rw [h.queue, if_neg hce]
  have hnow : y.laps.now = x.laps.now := h.ended.get fun u => u.laps.now
  exact {
    ended := h.ended.trans g.ended
    queue := fun c => by
      rw [g.queue, h.queue]
      by_cases hc : c = e
      · simp [hc, he]
      · simp [hc]
    fenced := fun w hw => g.fenced w (h.fenced w hw)
    done := fun c hc r hr hf => by
      rcases List.mem_cons.mp hc with rfl | hc
      · exact g.fenced _ (h.done c (List.mem_singleton_self c) r hr hf)
      · exact g.done c hc r (hout hc ▸ hr) hf
    found := fun c hc hex => by
      rcases List.mem_cons.mp hc with rfl | hc
      · exact g.keeps _ _ _ (h.found c (List.mem_singleton_self c) hex)
      · exact hnow ▸ g.found c hc ((hout hc).symm ▸ hex)
    keeps := fun c f a hk => g.keeps c f a (h.keeps c f a hk) }

theorem foldl_fenceDie_fences (s : State) (d : Die) (l : List Die) (hl : l.Nodup) (x : State) :
    Fences s d l x (l.foldl (fenceDie s d) x) := by
  induction l generalizing x with
  | nil => exact ⟨.refl x, fun _ => (if_neg List.not_mem_nil).symm, fun _ hz => hz, by simp, by simp, fun _ _ _ hk => hk⟩
  | cons e l ih =>
    obtain ⟨he, hl⟩ := List.nodup_cons.mp hl
    exact (fenceDie_fences s d x e).cons (ih hl _) he

/-- A digest read of the hub that ends at a die in reset. -/
def HubWaits (x : State) (d : Die) : Prop := ∃ y ∈ x.mladar.toDigest, y.die = d.val ∧ y.got.length < y.len

/-- What the end of the hub's digest reads leaves. -/
theorem fenceHub_leaves (x : State) (d : Die) : let t := fenceHub x d
    t.dies = x.dies ∧ t.fabric = { x.fabric with fenced := t.fabric.fenced } ∧ (∀ z ∈ x.fabric.fenced, z ∈ t.fabric.fenced) ∧
      ∀ c e a, Found x c e a → Found t c e a := by
  unfold fenceHub
  dsimp only
  split
  · exact ⟨rfl, rfl, fun z hz => List.mem_append_left _ hz, fun _ _ _ hk => ⟨rfl, hk.2.mergeRec _⟩⟩
  · exact ⟨rfl, rfl, fun _ hz => hz, fun _ _ _ hk => hk⟩

theorem fenceHub_idle {x : State} {d : Die} (h : (x.die d).resetFrom = none) : fenceHub x d = x := by
  simp [fenceHub, h]

theorem fenceHub_ends {x : State} {d : Die} (hr : (x.die d).resetFrom ≠ none) (hl : digestLap x = true) (hw : HubWaits x d) :
    Found (fenceHub x d) 18 16 x.laps.now ∧
      ∀ y ∈ (fenceHub x d).mladar.toDigest, y.die = d.val → y.got.length < y.len → y.got = [] := by
  obtain ⟨y, hy, hdie, hgot⟩ := hw
  have hany : x.mladar.toDigest.any (fun e => decide (e.die = d.val) && decide (e.got.length < e.len)) = true :=
    List.any_eq_true.mpr ⟨y, hy, by simp [hdie, hgot]⟩
  have hreset : (x.die d).resetFrom.isSome = true := Option.isSome_iff_ne_none.mpr hr
  simp only [fenceHub, hreset, hl, hany, Bool.and_self, if_true]
  refine ⟨found_addFault _ _, fun z hz hzd hzg => ?_⟩
  obtain ⟨e, -, rfl⟩ := List.mem_map.mp hz
  by_cases h : (decide (e.die = d.val) && decide (e.got.length < e.len)) = true
  · rw [if_pos h]
  · rw [if_neg h] at hzd hzg
    exact absurd (by simp [hzd, hzg]) h

/-- The fenced completions of a die: every request that it or a channel of it fences ends, wherever it waits. -/
theorem execFencedCompletion_fences (s : State) (d : Die) : ∃ t, execFencedCompletion d s = .next t ∧
    t.fabric = { s.fabric with fenced := t.fabric.fenced } ∧
    ((s.die d).resetFrom ≠ none → digestLap s = true → HubWaits s d → Found t 18 16 s.laps.now ∧
      ∀ y ∈ t.mladar.toDigest, y.die = d.val → y.got.length < y.len → y.got = []) ∧
    ∀ e, (∀ r ∈ (s.die e).memQ, fencedReq s d r = true → fencedDone s d r ∈ t.fabric.fenced) ∧
      (t.die e).memQ = (s.die e).memQ.filter (fun r => !fencedReq s d r) ∧ (t.die e).cores = (s.die e).cores ∧
      ((∃ r ∈ (s.die e).memQ, fencedReq s d r = true) → Found t 18 e s.laps.now) := by
  refine ⟨_, execFencedCompletion_eq s d, ?_⟩
  have hx : Fences s d (List.finRange 16) s (forDies (fenceDie s d) s) :=
    foldl_fenceDie_fences s d _ (List.nodup_finRange 16) s
  generalize forDies (fenceDie s d) s = x at hx
  obtain ⟨hdies, hfabric, hfenced, hkeeps⟩ := fenceHub_leaves x d
  have hdie (e : Die) : (fenceHub x d).die e = x.die e := congrArg (·[e]) hdies
  have hempty : { x.fabric with fenced := [] } = { s.fabric with fenced := [] } := congrArg State.fabric hx.ended.same
  have hnow : x.laps.now = s.laps.now := hx.ended.get fun u => u.laps.now
  have hlap : digestLap x = digestLap s := hx.ended.get digestLap
  have hreset : (x.die d).resetFrom = (s.die d).resetFrom := hx.ended.die d DieSt.resetFrom
  have hdigest : x.mladar.toDigest = s.mladar.toDigest := hx.ended.get fun u => u.mladar.toDigest
  refine ⟨hfabric.trans ?_, fun hr hl hw => ?_, fun e => ⟨fun r hr hf => ?_, ?_, ?_, fun h => ?_⟩⟩
  · exact congrArg (fun f : Fabric => { f with fenced := (fenceHub x d).fabric.fenced }) hempty
  · rw [← hnow]
    exact fenceHub_ends (hreset ▸ hr) (hlap ▸ hl) (by rwa [HubWaits, hdigest])
  · exact hfenced _ (hx.done e (List.mem_finRange e) r hr hf)
  · rw [hdie, hx.queue, if_pos (List.mem_finRange e)]
  · rw [hdie]
    exact hx.ended.die e DieSt.cores
  · exact hkeeps _ _ _ (hx.found e (List.mem_finRange e) h)

theorem execFencedCompletion_idle {s : State} {d : Die} (hd : (s.die d).resetFrom = none)
    (h : ∀ e, ∀ r ∈ (s.die e).memQ, r.target = d → ∀ c ∈ ((s.die d).tier r.far).chans.toList, c.resetFrom = none) :
    execFencedCompletion d s = .next s := by
  have hfold : forDies (fenceDie s d) s = s :=
    List.foldlRecOn (motive := (· = s)) _ _ rfl fun x hx e _ => by
      subst hx
      exact fenceDie_idle fun r hr => fencedReq_idle hd (h e r hr)
  rw [execFencedCompletion_eq, hfold, fenceHub_idle hd]

/-! ### FABRIC_PACKET_ARRIVE (R312, R333) -/

section
variable {s : State} {d : Die} {dst src : Fin 17}

theorem packetMemory_fst (dst src : Fin 17) (c : ChanTag) : (packetMemory dst src c).1.val = if c.reply then src.val else dst.val := by
  unfold packetMemory; split <;> rfl

theorem packetMemory_snd (dst src : Fin 17) (c : ChanTag) : (packetMemory dst src c).2.val = if c.reply then dst.val else src.val := by
  unfold packetMemory; split <;> rfl

/-- The epochs of a packet for a die that are not in force on arrival: the die's own, the sender's as the die knows it, and the
channel's at the die whose memory the packet concerns. -/
theorem packetStale_iff (hd : dst.val = d.val) (hs : src ≠ dst) {de se : BitVec 4} {chan : Option ChanTag} :
    packetStale s dst src de se chan = true ↔ de ≠ (s.die d).epoch ∨ se ≠ (s.die d).copies[src] ∨
      ∃ c ∈ chan, ∃ m : Die, m.val = (if c.reply then src.val else dst.val) ∧ c.epoch ≠ ((s.die m).tier c.far).chans[c.ch].epoch := by
  have hlt : dst.val < 16 := hd ▸ d.isLt
  have hne : ¬ src.val = dst.val := fun h => hs (Fin.ext h)
  have hdie : dieOf dst.val = d := by rw [hd, dieOf_val]
  have hchan (c : ChanTag) : (decide ((packetMemory dst src c).1.val < 16) &&
      c.epoch != ((s.die (dieOf (packetMemory dst src c).1.val)).tier c.far).chans[c.ch].epoch) = true ↔
      ∃ m : Die, m.val = (if c.reply then src.val else dst.val) ∧ c.epoch ≠ ((s.die m).tier c.far).chans[c.ch].epoch := by
    rw [← packetMemory_fst, Bool.and_eq_true, decide_eq_true_iff, bne_iff_ne]
    constructor
    · exact fun ⟨hm, h⟩ => ⟨dieOf (packetMemory dst src c).1.val, Nat.mod_eq_of_lt hm, h⟩
    · rintro ⟨m, hm, h⟩
      rw [← hm, dieOf_val]
      exact ⟨m.isLt, h⟩
  simp only [packetStale, hlt, if_true, hne, if_false, hdie, vget_fin, Bool.or_eq_true, bne_iff_ne, or_assoc]
  cases chan with
  | none => simp
  | some c => simpa using or_congr_right (or_congr_right (hchan c))

/-- A part of the module that no queue of requests is part of. -/
theorem dropRequest_get {α : Type} (part : State → α) (hp : ∀ u e x, part (u.setDie e x) = part u := by intros; rfl)
    (s : State) (dst src : Fin 17) (c : ChanTag) : part (dropRequest s dst src c) = part s := by
  unfold dropRequest
  dsimp only
  split
  · split
    · exact hp ..
    · rfl
  · rfl

/-- A dropped packet ends the request it belongs to, in the die that asked. -/
theorem dropRequest_die (s : State) (dst src : Fin 17) (c : ChanTag) (x : Die) :
    let t := dropRequest s dst src c
    (t.die x).cores = (s.die x).cores ∧ (t.die x).near = (s.die x).near ∧ (t.die x).far = (s.die x).far ∧
      (t.die x).memQ.Sublist (s.die x).memQ ∧ (x.val = (if c.reply then dst.val else src.val) →
        ∀ r, (s.die x).memQ.find? (packetReq dst src c) = some r → ∀ z ∈ (t.die x).memQ, z.id ≠ r.id) := by
  rw [← packetMemory_snd]
  unfold dropRequest
  generalize (packetMemory dst src c).2 = m
  dsimp only
  split
  next hm =>
    have hme : x.val = m.val ↔ x = dieOf m.val := by
      constructor
      · exact fun h => by rw [← h, dieOf_val]
      · exact fun h => h ▸ Nat.mod_eq_of_lt hm
    rw [hme]
    split
    next r hr =>
      rw [State.setDie_die]
      split
      next hx =>
        subst hx
        refine ⟨rfl, rfl, rfl, List.filter_sublist, fun _ q hq z hz => ?_⟩
        obtain rfl : r = q := Option.some.inj (hr.symm.trans hq)
        exact of_decide_eq_true (List.mem_filter.mp hz).2
      next hx => exact ⟨rfl, rfl, rfl, .refl _, fun h => absurd h hx⟩
    next hr => exact ⟨rfl, rfl, rfl, .refl _, fun h r hq => by subst h; cases hr.symm.trans hq⟩
  next hm => exact ⟨rfl, rfl, rfl, .refl _, fun h => absurd (h ▸ x.isLt) hm⟩

/-- What of a packet's request ends with it. -/
def droppedBy (s : State) (dst src : Fin 17) : Option ChanTag → State
  | some c => dropRequest s dst src c
  | none => s

theorem execFabricPacketArrive_drops (hon : portOn s = true) (hd : dst.val = d.val) {de se : BitVec 4} {chan : Option ChanTag}
    (h : packetStale s dst src de se chan = true) : ∃ r : FaultRec, r.cause = 15 ∧ r.die = d ∧ r.at_ = s.laps.now ∧
      execFabricPacketArrive dst src de se chan s = .next (addFault (droppedBy s dst src chan) r) := by
  have hlt : dst.val < 16 := hd ▸ d.isLt
  have hdie : (dieOf dst.val).val = d.val := by rw [hd, dieOf_val]
  have hnow : (droppedBy s dst src chan).laps.now = s.laps.now := by
    cases chan with
    | none => rfl
    | some c => exact dropRequest_get (fun u => u.laps.now) ..
  refine ⟨mkRec (droppedBy s dst src chan) 1 15 (dieOf dst.val) none (if chan.isSome then 11 else 0xFF) 0 0 1, rfl, hdie, hnow, ?_⟩
  simp only [execFabricPacketArrive, hon, h, hlt, Bool.and_self, if_true]
  cases chan <;> rfl

/-- A dropped packet is recorded, and the request that it belongs to ends. -/
theorem execFabricPacketArrive_stale (hon : portOn s = true) (hd : dst.val = d.val) {de se : BitVec 4}
    {chan : Option ChanTag} (h : packetStale s dst src de se chan = true) :
    ∃ t, execFabricPacketArrive dst src de se chan s = .next t ∧ Found t 15 d s.laps.now ∧ t.fabric = s.fabric ∧
      (chan = none → t.dies = s.dies) ∧ ∀ x, (t.die x).cores = (s.die x).cores ∧ (t.die x).near = (s.die x).near ∧
        (t.die x).far = (s.die x).far ∧ (t.die x).memQ.Sublist (s.die x).memQ ∧
        ∀ y, chan = some y → x.val = (if y.reply then dst.val else src.val) →
          ∀ r, (s.die x).memQ.find? (packetReq dst src y) = some r → ∀ z ∈ (t.die x).memQ, z.id ≠ r.id := by
  obtain ⟨r, hcause, hdie, hat, hexec⟩ := execFabricPacketArrive_drops hon hd h
  refine ⟨_, hexec, hcause ▸ hdie ▸ hat ▸ found_addFault _ r, ?_⟩
  cases chan with
  | none => exact ⟨rfl, fun _ => rfl, fun x => ⟨rfl, rfl, rfl, .refl _, nofun⟩⟩
  | some c =>
    refine ⟨dropRequest_get State.fabric (s := s) .., nofun, fun x => ?_⟩
    obtain ⟨hcores, hnear, hfar, hqueue, hends⟩ := dropRequest_die s dst src c x
    refine ⟨hcores, hnear, hfar, hqueue, fun y hy => ?_⟩
    obtain rfl : c = y := Option.some.inj hy
    exact hends

theorem execFabricPacketArrive_takes {de se : BitVec 4} {chan : Option ChanTag} (h : packetStale s dst src de se chan = false) :
    execFabricPacketArrive dst src de se chan s = .next s := by
  simp [execFabricPacketArrive, h]

end

/-! ### Channel resets (R334, R372) -/

/-- A channel at the start of a reset in a cycle: at its third it fails, and a failed one is never reset again. -/
def Chan.resetAt (now : Nat) (c : Chan) : Chan :=
  if c.failed then c else ⟨c.epoch + 1, c.resets + 1, if 2 ≤ c.resets then none else some now, decide (2 ≤ c.resets)⟩

theorem Chan.resetAt_failed {c : Chan} (h : c.failed = true) (now : Nat) : c.resetAt now = c := if_pos h

theorem Chan.resetAt_restarts {c : Chan} (hf : c.failed = false) (h : c.resets < 2) (now : Nat) :
    c.resetAt now = ⟨c.epoch + 1, c.resets + 1, some now, false⟩ := by
  simp [Chan.resetAt, hf, Nat.not_le.mpr h]

theorem Chan.resetAt_third {c : Chan} (hf : c.failed = false) (h : 2 ≤ c.resets) (now : Nat) :
    c.resetAt now = ⟨c.epoch + 1, c.resets + 1, none, true⟩ := by
  simp [Chan.resetAt, hf, h]

theorem State.setTier_twice (s : State) (d : Die) (far : Bool) (t u : Tier) : (s.setTier d far t).setTier d far u = s.setTier d far u := by
  cases far <;> simp [State.setTier, DieSt.setTier, State.setDie_twice]

theorem State.setTier_self (s : State) (d : Die) (far : Bool) : s.setTier d far ((s.die d).tier far) = s := by
  cases far <;> exact State.setDie_self s d

/-- A channel reset changes one tier, and of it that channel and the mark of degraded parity groups. -/
theorem startChanReset_tier (s : State) (d : Die) (far : Bool) (ch : Fin 20) : ∃ t : Tier,
    (startChanReset s d far ch.val).1 = s.setTier d far t ∧ t.mem = ((s.die d).tier far).mem ∧
      t.chans[ch] = ((s.die d).tier far).chans[ch].resetAt s.laps.now := by
  unfold startChanReset
  simp only [vget_fin, vset_eq_set ch.isLt]
  split
  next hf => exact ⟨_, (State.setTier_self s d far).symm, rfl, (Chan.resetAt_failed hf _).symm⟩
  next hf =>
    have hf : ((s.die d).tier far).chans[ch].failed = false := Bool.eq_false_iff.mpr hf
    split
    next h3 =>
      refine ⟨_, by rw [failChannel_eq, State.setTier_twice], ?_, ?_⟩
      · simp only [State.setTier_tier_self]
      · rw [Chan.resetAt_third hf (Nat.le_of_succ_le_succ h3)]
        simp [Chan.fails]
    next h3 =>
      refine ⟨_, rfl, rfl, ?_⟩
      rw [Chan.resetAt_restarts hf (Nat.lt_of_succ_lt_succ (Nat.not_le.mp h3)), ← hf]
      simp

/-- An overdue read resets its channel and records CH_RESET. -/
theorem chanFault_timeout (s : State) (d : Die) (far : Bool) (ch : Fin 20) : ∃ (t : Tier) (r : FaultRec),
    chanFault s 14 d far ch.val 0 = addFault (s.setTier d far t) r ∧ r.cause = 14 ∧ r.die = d ∧ r.at_ = s.laps.now ∧
      t.mem = ((s.die d).tier far).mem ∧ t.chans[ch] = ((s.die d).tier far).chans[ch].resetAt s.laps.now := by
  obtain ⟨t, heq, hmem, hchan⟩ := startChanReset_tier s d far ch
  unfold chanFault
  simp only [heq, ne_eq, not_true_eq_false, false_and, if_false]
  exact ⟨t, _, rfl, rfl, rfl, rfl, hmem, hchan⟩

theorem execMemResponseTimeout_overdue {s : State} {d : Die} {far : Bool} {ch : Fin 20} (hon : portOn s = true)
    (h : readOverdue s d far ch = true) : ∃ t, execMemResponseTimeout d far ch s = .next t ∧ Found t 14 d s.laps.now ∧
      ((t.die d).tier far).mem = ((s.die d).tier far).mem ∧ (t.die d).tier (!far) = (s.die d).tier (!far) ∧
      (∀ e, e ≠ d → t.die e = s.die e) ∧
      ((t.die d).tier far).chans[ch] = ((s.die d).tier far).chans[ch].resetAt s.laps.now := by
  obtain ⟨u, r, heq, hcause, hdie, hat, hmem, hchan⟩ := chanFault_timeout s d far ch
  have hfound := found_addFault (s.setTier d far u) r
  rw [hcause, hdie, hat] at hfound
  have hself : ((addFault (s.setTier d far u) r).die d).tier far = u := State.setTier_tier_self s d far u
  refine ⟨_, ?_, hfound, by rw [hself, hmem], ?_, fun e he => State.setTier_die_other s far u he, by rw [hself, hchan]⟩
  · rw [execMemResponseTimeout, hon, h, ← heq]
    rfl
  · exact State.setTier_tier_other s u (.inr (by cases far <;> decide))

theorem execChannelResetEnd_early {s : State} {d : Die} {far : Bool} {ch : Fin 20} {b : Nat}
    (h : ((s.die d).tier far).chans[ch].resetFrom = some b) (hb : s.laps.now < b + 4096) (ok : Bool) :
    execChannelResetEnd d far ch ok s = .next s := by
  simp only [execChannelResetEnd, h, if_pos hb]

theorem execChannelResetEnd_due {s : State} {d : Die} {far : Bool} {ch : Fin 20} {b : Nat}
    (h : ((s.die d).tier far).chans[ch].resetFrom = some b) (hb : b + 4096 ≤ s.laps.now) (ok : Bool) :
    execChannelResetEnd d far ch ok s = .next (if ok then s.setTier d far { (s.die d).tier far with
      chans := ((s.die d).tier far).chans.set ch { ((s.die d).tier far).chans[ch] with resetFrom := none } }
      else addFault (failChannel s d far ch) (mkRec (failChannel s d far ch) 1 14 d none 10 (chanDetail far ch) 0
        (1 ||| failBits (failChannel s d far ch) d far))) := by
  simp only [execChannelResetEnd, h, if_neg (Nat.not_lt.mpr hb)]
  cases ok <;> rfl

/-! ### REFRESH (R332) -/

theorem refreshNo_due {cyc rank : Nat} (h : cyc % 64 = 32 + 16 * rank) :
    ∃ q, refreshNo cyc rank = some q ∧ q % 16 = cyc / 64 % 16 := by
  refine ⟨(cyc % 4096 - 32 - 16 * rank) / 64, if_pos ⟨?_, ?_⟩, ?_⟩ <;> omega

theorem refreshNo_between {cyc rank : Nat} (hr : rank < 2) (h : cyc % 64 ≠ 32 + 16 * rank) : refreshNo cyc rank = none :=
  if_neg (by omega)

theorem execRefresh_due {s : State} {d : Die} {far : Bool} {rank : Fin 2} (hon : portOn s = true)
    (h : s.laps.cyc % 64 = 32 + 16 * rank.val) (hrank : far = true ∨ rank = 0) (ch : Fin 20) :
    execRefresh d far ch rank s = .next (s.setTier d far { (s.die d).tier far with
      banks := vset ((s.die d).tier far).banks (2 * ch.val + rank.val) (some (s.laps.cyc / 64 % 16)) }) := by
  obtain ⟨q, hq, hbank⟩ := refreshNo_due h
  have hrank : (far || decide (rank.val = 0)) = true := by
    rcases hrank with rfl | rfl
    · rfl
    · simp
  simp only [execRefresh, hq, hbank, hon, hrank, Bool.and_self, if_true]

theorem execRefresh_between {s : State} {rank : Fin 2} (h : s.laps.cyc % 64 ≠ 32 + 16 * rank.val) (d : Die) (far : Bool) (ch : Fin 20) :
    execRefresh d far ch rank s = .next s := by
  simp [execRefresh, refreshNo_between rank.isLt h]

/-- Settles O58: what fenced completions leave is `execFencedCompletion_fences`, what a dropped packet leaves
`execFabricPacketArrive_stale`, and a channel at a reset `chanFault_timeout`. -/
theorem resetsFenceAndEnd : Obligations.ResetsFenceAndEnd := by
  unfold Obligations.ResetsFenceAndEnd
  intro s d found
  refine ⟨fun b hb => ⟨fun hcut hover => ?_, fun h => ?_⟩, ?_, execFencedCompletion_idle, fun hon dst src de se hd hs => ?_, fun far ch => ?_⟩
  · exact congrArg Host.Outcome.next ((if_pos hcut).trans ((endDieReset_over hb).trans (if_pos hover)))
  · refine congrArg Host.Outcome.next ?_
    rcases h with h | h
    · exact if_neg h
    · rw [endDieReset_over hb, if_neg (Nat.not_le.mpr h), ite_self]
  · obtain ⟨t, hexec, hfabric, hhub, hdies⟩ := execFencedCompletion_fences s d
    refine ⟨t, hexec, hfabric, hhub, fun e => ?_⟩
    obtain ⟨hdone, hqueue, hcores, hfound⟩ := hdies e
    exact ⟨fun r hr hf => ⟨_, hdone r hr hf, rfl, rfl, rfl, rfl⟩, hqueue, hcores, hfound⟩
  · intro drops
    have hstale (chan : Option ChanTag) (h : packetStale s dst src de se chan = true) : drops chan :=
      execFabricPacketArrive_stale hon hd h
    refine ⟨fun hde hse => ⟨?_, fun c m hm => ⟨fun hc => ?_, fun hc => ?_⟩⟩, fun h chan => ?_⟩
    · exact execFabricPacketArrive_takes (Bool.eq_false_iff.mpr fun h => by simp [packetStale_iff hd hs, hde, hse] at h)
    · refine execFabricPacketArrive_takes (Bool.eq_false_iff.mpr fun h => ?_)
      rcases (packetStale_iff hd hs).mp h with h | h | ⟨c', hc', m', hm', h⟩
      · exact h hde
      · exact h hse
      · obtain rfl : c = c' := Option.some.inj hc'
        obtain rfl : m = m' := Fin.ext (hm.trans hm'.symm)
        exact h hc
    · exact hstale _ ((packetStale_iff hd hs).mpr (.inr (.inr ⟨c, rfl, m, hm, hc⟩)))
    · exact hstale _ ((packetStale_iff hd hs).mpr (h.imp_right .inl))
  · intro c chan
    refine ⟨fun h => ?_, fun hon hover => ?_, fun b hb => ⟨fun ok => (execChannelResetEnd_early hb · ok), fun hdue => ⟨?_, ?_⟩⟩,
      fun hon rank => ⟨fun hcyc hrank => execRefresh_due hon hcyc hrank ch, fun hcyc => execRefresh_between hcyc d far ch⟩⟩
    · exact congrArg Host.Outcome.next (if_neg (by rcases h with h | h <;> simp [h]))
    · obtain ⟨t, hexec, hfound, hmem, hother, hdies, hchan⟩ := execMemResponseTimeout_overdue hon hover
      exact ⟨t, hexec, hfound, hmem, hother, hdies, fun hf => hchan.trans (Chan.resetAt_failed hf _),
        fun hf h2 => hchan.trans (Chan.resetAt_restarts hf h2 _), fun hf h2 => hchan.trans (Chan.resetAt_third hf h2 _)⟩
    · refine ⟨_, execChannelResetEnd_due hb hdue true, ?_, rfl, rfl⟩
      change (((s.setTier d far _).die d).tier far).chans[ch] = _
      rw [State.setTier_tier_self]
      exact Vector.getElem_set_self ch.isLt
    · refine ⟨_, execChannelResetEnd_due hb hdue false, ?_, found_addFault _ _⟩
      exact (failChannel_chan s d d far far ch ch).trans (if_pos rfl)

end Sys2Proof.Machine

/-! PROOFS. The families of replay, faults, splits and the port: the state after reset, the step, the functions of CTL.ALU. -/
namespace Sys2Proof.Machine

/-! ### The step -/

/-- Settles O1: `step` takes the first command off the queue. -/
theorem stepRunsFrontCommand : Obligations.StepRunsFrontCommand := fun _ _ _ => rfl

/-- Settles O6: the invariant does not speak of the queue, so `step_keeps` carries it over. -/
theorem stepKeepsInvariant : Obligations.StepKeepsInvariant := by
  intro s t hinv h
  exact (step_keeps h).inv hinv

/-- Settles O7: `step_keeps` says what becomes of the fuses. -/
theorem stepOnlyBlowsFuses : Obligations.StepOnlyBlowsFuses := by
  intro s t h
  exact (step_keeps h).sec.fuses

/-! ### The state after reset -/

theorem State.reset_die (d : Die) : State.reset.die d = DieSt.init 250 := by
  simp [State.reset, State.die]

/-- Settles O3: every memory is empty, the fault queue too, and every barrier counter is 0. -/
theorem resetMeetsInvariant : Obligations.ResetMeetsInvariant := by
  refine ⟨⟨fun d => ?_, rfl, rfl⟩, Nat.zero_le _, fun d i => ?_⟩
  · rw [State.reset_die]
    refine ⟨⟨rfl, rfl⟩, ⟨rfl, rfl⟩, fun c hc => ?_⟩
    obtain rfl : c = Core.init 0 := List.eq_of_mem_replicate ((List.append_nil _) ▸ hc)
    exact ⟨rfl, rfl⟩
  · rw [State.reset_die]
    exact (Vector.getElem_replicate i.isLt).trans_le (Nat.zero_le _)

theorem openK_idle {s : State} (h : s.laps.state = 0) : openK s = 12 := by
  simp [openK, h]

/-- Settles O4: the registers are read off; an idle lap has k = 12 (`openK_idle`). -/
theorem resetModeAndIdleLapLength : Obligations.ResetModeAndIdleLapLength := by
  refine ⟨rfl, rfl, rfl, by decide, by decide, by decide, fun s h => ?_⟩
  exact congrArg (2 ^ ·) (openK_idle h)

/-! ### Register values after reset -/

theorem ctlRead_reset_hub : ∀ x ∈ resetLapTable ++ resetRunTable ++ resetFaultTable ++ resetNetTable,
    ctlRead State.reset x.1 = some x.2 := by
  decide +kernel

/-- The registers of a die stand at the same offsets from its base. -/
theorem resetDieTable_eq (b : Nat) : resetDieTable b = (resetDieTable 0).map fun x => (b + x.1, x.2) := by
  simp [resetDieTable, resetWords, List.map_flatten, Function.comp_def, Nat.add_assoc]

/-- A register of a die is read at its offset. -/
theorem ctlRead_die (s : State) {d o : Nat} (hd : d < 16) (ho : o < 65536) (h4 : o % 4 = 0) :
    ctlRead s (0x100000 + 0x10000 * d + o) = readDie s (dieOf d) o := by
  have hoff : (0x100000 + 0x10000 * d + o) % 65536 = o := by omega
  have hbase : (0x100000 + 0x10000 * d + o) / 65536 = 16 + d := by omega
  have halign : (0x100000 + 0x10000 * d + o) % 4 = 0 := by omega
  rw [ctlRead, hoff, hbase, halign, Nat.add_sub_cancel_left]
  simp (disch := omega) only [if_neg, if_pos, ne_eq, not_true_eq_false]
  rfl

/-- After reset all dies read alike, so that the table is looked up for one. -/
theorem readDie_reset (d : Die) : ∀ x ∈ resetDieTable 0, x.1 < 65536 ∧ x.1 % 4 = 0 ∧ readDie State.reset d x.1 = some x.2 := by
  have halike : readDie State.reset d = readDie State.reset 0 := by
    funext o
    rw [readDie, readDie, pagePending, pagePending, State.reset_die, State.reset_die]
  rw [halike]
  decide +kernel

/-- Settles O5: the registers of the hub are read off; one of a die is read at its offset (`ctlRead_die`). -/
theorem resetRegisterValues : Obligations.ResetRegisterValues := by
  intro x hx
  rcases List.mem_append.mp hx with hx | hx
  · exact ctlRead_reset_hub x hx
  · obtain ⟨l, hl, hx⟩ := List.mem_flatten.mp hx
    obtain ⟨d, hd, rfl⟩ := List.mem_map.mp hl
    rw [resetDieTable_eq] at hx
    obtain ⟨y, hy, rfl⟩ := List.mem_map.mp hx
    obtain ⟨hlt, halign, hread⟩ := readDie_reset (dieOf d) y hy
    exact (ctlRead_die State.reset (List.mem_range.mp hd) hlt halign).trans hread

/-! ### CTL.ALU (Table 12-2) -/

/-- Settles O13: arithmetic, logic and shifts are what the library says of bit vectors; the choices compare the integers. -/
theorem aluFunctionValues : Obligations.AluFunctionValues := by
  intro a b
  have hslt : a.slt b = decide (a.toInt < b.toInt) := rfl
  have hult : a.ult b = decide (a.toNat < b.toNat) := rfl
  refine ⟨BitVec.toNat_add a b, BitVec.toInt_sub, fun i => ⟨BitVec.getLsbD_and, BitVec.getLsbD_or, ?_⟩,
    ?_, ?_, ?_, ?_, ?_, ?_, ?_, ?_, ?_⟩
  · exact BitVec.getLsbD_xor
  · rw [aluFn, BitVec.toNat_shiftLeft, Nat.shiftLeft_eq]
  · rw [aluFn, BitVec.toNat_ushiftRight, Nat.shiftRight_eq_div_pow]
  · rw [aluFn, BitVec.toInt_sshiftRight, Int.shiftRight_eq_div_pow]
    norm_cast
  all_goals simp only [aluFn, hslt, hult, decide_eq_true_eq]
  all_goals split <;> omega

/-! ### Program faults of cores (R365, R367) -/

/-- The lap has a program fault, and a record of a cause on a die in a cycle is detected. -/
structure ProgFound (t : State) (cause die at_ : Nat) : Prop where
  lapFault : t.laps.lapFault = true
  progFault : t.laps.progFault = true
  recorded : Recorded t.faults.detected cause die at_

theorem progFound_raiseCore (s : State) (d : Die) (i : Nat) {r : Raise} (h : 0x100 ≤ r.1) :
    ProgFound (raiseCore s d i r) r.1 d s.laps.now where
  lapFault := rfl
  progFault := by simp [raiseCore, addFault, mkRec, Nat.not_lt.mpr h]
  recorded := recorded_mergeRec_self (mkRec s _ r.1 d (some i) r.2.1 r.2.2.1 r.2.2.2 _) s.faults.detected

theorem ProgFound.raiseCore {t : State} {cause die at_ : Nat} (h : ProgFound t cause die at_) (d : Die) (i : Nat) (r : Raise) :
    ProgFound (raiseCore t d i r) cause die at_ where
  lapFault := rfl
  progFault := Bool.or_eq_true_iff.mpr (.inl h.progFault)
  recorded := h.recorded.mergeRec _

/-- A program fault stays found while the other reports of the cores are taken. -/
theorem progFound_raises {d : Die} {i : Nat} {r : Raise} {l : List (Nat × Raise)} (hmem : (i, r) ∈ l) (hr : 0x100 ≤ r.1)
    (s : State) : ProgFound (l.foldl (fun s x => Machine.raiseCore s d x.1 x.2) s) r.1 d s.laps.now := by
  obtain ⟨pre, post, rfl⟩ := List.append_of_mem hmem
  rw [List.foldl_append, List.foldl_cons]
  have hnow := foldl_leaves (fun u : State => u.laps.now) (f := fun s (x : Nat × Raise) => Machine.raiseCore s d x.1 x.2)
    (fun _ _ => rfl) pre s
  generalize pre.foldl (fun s (x : Nat × Raise) => Machine.raiseCore s d x.1 x.2) s = u at hnow ⊢
  exact List.foldlRecOn (motive := fun t => ProgFound t r.1 d s.laps.now) post _ (hnow ▸ progFound_raiseCore u d i hr)
    fun t ht x _ => ht.raiseCore d x.1 x.2

theorem mem_mapCores_raises {f : Nat → Core → Core × List Raise} {i k : Nat} {l : List Core} {c : Core} {r : Raise}
    (hc : l[k]? = some c) (hr : r ∈ (f (i + k) c).2) : (i + k, r) ∈ (mapCores f i l).2 := by
  induction l generalizing i k with
  | nil => simp at hc
  | cons x l ih =>
    rw [mapCores, List.mem_append]
    cases k with
    | zero =>
      obtain rfl : x = c := by simpa using hc
      exact .inl (List.mem_map_of_mem hr)
    | succ k =>
      have hk : i + (k + 1) = i + 1 + k := by omega
      rw [hk] at hr ⊢
      exact .inr (ih (by simpa using hc) hr)

/-- A program fault that a core reports of a slot operation is found. -/
theorem progFound_slotOp {s : State} {d : Die} (op : Nat) {f : CoreIn → Core → Core × List Raise} {k : Nat} {c : Core}
    (h : Acts s d) (hc : (s.die d).cores[k]? = some c) {r : Raise} (hr : r ∈ (f (coreIn s d k) c).2) (hcause : 0x100 ≤ r.1) :
    ProgFound (slotOp s d op f) r.1 d s.laps.now := by
  have hcores : ((addEnergy s d op).die d).cores = (s.die d).cores := by simp [addEnergy, State.setSeq]
  rw [slotOp, if_pos (show (issueNow s d).prog = true from h), onCores]
  refine progFound_raises (i := 0 + k) (mem_mapCores_raises (hcores ▸ hc) ?_) hcause _
  rw [coreIn_addEnergy, Nat.zero_add]
  exact hr

/-- A slot operation at which a core only reports a program fault leaves that core, and the fault is found. -/
theorem exec_slot_faults {s : State} {cmd : Instr} {d : Die} {op k : Nat} {f : CoreIn → Core → Core × List Raise} {c : Core}
    {r : Raise} (hexec : exec cmd s = .next (slotOp s d op f)) (h : Acts s d) (hc : (s.die d).cores[k]? = some c)
    (hf : f (coreIn s d k) c = (c, [r])) (hcause : 0x100 ≤ r.1) :
    ∃ t, exec cmd s = .next t ∧ t.laps.lapFault = true ∧ t.laps.progFault = true ∧ (t.die d).cores[k]? = some c ∧
      Recorded t.faults.detected r.1 d s.laps.now := by
  have hfound := progFound_slotOp op h hc (f := f) (r := r) (by simp [hf]) hcause
  exact ⟨_, hexec, hfound.lapFault, hfound.progFault, (slotOp_core op f h hc).trans (by rw [hf]), hfound.recorded⟩

/-- Settles O32: each of the three operations answers with the core as it was and one report (`exec_slot_faults`). -/
theorem coreFaultsMarkTheLap : Obligations.CoreFaultsMarkTheLap := by
  intro s d i c k cmd cause hacts hc hcmd
  rcases hcmd with ⟨f, cap, rfl, hfmt, hcap, hfeed, rfl⟩ | ⟨rfl, hload, rfl⟩ | ⟨p, ts, g, rfl, hbusy, hfeed, rfl⟩
  · refine exec_slot_faults (f := cfgCore k f cap) (r := (0x159, arrUnit k, 0, 0)) (if_pos (by simp [hfmt, hcap])) hacts hc ?_ (by simp)
    simp [cfgCore, hfeed]
  · exact exec_slot_faults (r := (0x114, arrUnit k, 0, 0)) rfl hacts hc (if_pos hload) (by simp)
  · refine exec_slot_faults (f := strmCore k p ts g) (r := (0x112, arrUnit k, mxDetail g (tileOf c ts), 0)) rfl hacts hc ?_ (by simp)
    have hfree : ¬ (coreIn s d i).now < (c.arr k).busyTo := Nat.not_lt.mpr hbusy
    simp [strmCore, hfree, hfeed]

end Sys2Proof.Machine

/-! PROOFS. The port: link, flow control and 1588 (R400 to R403, R457). -/
namespace Sys2Proof.Machine

/-! ### Credit frames that a pause held back (R411) -/

/-- A peer entry without its waiting credit and its sequences. -/
def Peer.uncredited (x : Peer) : Peer := { x with creditDue := none, classes := Vector.replicate 5 SeqSt.init }

/-- The module without what sending a credit frame changes. -/
def State.uncredited (s : State) : State :=
  { s with net := { s.net with sent := [], peers := s.net.peers.map Peer.uncredited } }

/-- From `s` to `t` credit frames have left, and nothing else has happened. -/
structure Credited (s t : State) : Prop where
  leaves : Leaves State.uncredited s t
  sent : s.net.sent <+: t.net.sent

theorem Credited.refl (s : State) : Credited s s := ⟨.refl s, List.prefix_rfl⟩
theorem Credited.trans {s t u : State} (h : Credited s t) (g : Credited t u) : Credited s u :=
  ⟨h.leaves.trans g.leaves, h.sent.trans g.sent⟩

theorem credited_setPeer {s : State} {p : Fin 16} {x : Peer} (h : x.uncredited = (s.net.peers[p]).uncredited) :
    Credited s (s.setPeer p x) := by
  have hpeers : (s.net.peers.set p x).map Peer.uncredited = s.net.peers.map Peer.uncredited := map_set_of_eq _ _ p.isLt h
  refine ⟨⟨?_, id⟩, List.prefix_rfl⟩
  simp only [State.uncredited, State.setPeer, vset_eq_set p.isLt, hpeers]

theorem credited_sendPlain (s : State) (p : Fin 16) (c ty aux : Nat) : Credited s (sendPlain s p c ty aux) := by
  have hseq : Credited s (s.setSeqOf p c { seqOf s p c with ackDue := none }) :=
    credited_setPeer (by rw [peerAt, vget_fin]; rfl)
  exact hseq.trans ⟨⟨rfl, id⟩, List.prefix_append ..⟩

/-- The state in which a peer's credit frame has left. -/
def creditPaid (s : State) (p : Fin 16) (lim : Nat) : State :=
  sendPlain (s.setPeer p { s.net.peers[p] with creditDue := none }) p 1 2 lim

theorem sendCredit_due {s : State} {p : Fin 16} {lim : Nat} (h : s.net.peers[p].creditDue = some lim) :
    sendCredit s p = if mayTransmit s p 1 then creditPaid s p lim else s := by
  simp only [sendCredit, h]
  rfl

theorem sendCredit_not_due {s : State} {p : Fin 16} (h : s.net.peers[p].creditDue = none) : sendCredit s p = s := by
  simp only [sendCredit, h]

/-- The frame leaves, or nothing happens. -/
theorem sendCredit_cases (s : State) (p : Fin 16) : sendCredit s p = s ∨ ∃ lim, sendCredit s p = creditPaid s p lim := by
  cases h : s.net.peers[p].creditDue with
  | none => exact .inl (sendCredit_not_due h)
  | some lim =>
    rw [sendCredit_due h]
    split
    · exact .inr ⟨lim, rfl⟩
    · exact .inl rfl

theorem credited_unpaid (s : State) (p : Fin 16) : Credited s (s.setPeer p { s.net.peers[p] with creditDue := none }) :=
  credited_setPeer rfl

theorem credited_creditPaid (s : State) (p : Fin 16) (lim : Nat) : Credited s (creditPaid s p lim) :=
  (credited_unpaid s p).trans (credited_sendPlain _ p 1 2 lim)

theorem credited_sendCredit (s : State) (p : Fin 16) : Credited s (sendCredit s p) := by
  rcases sendCredit_cases s p with h | ⟨lim, h⟩ <;> rw [h]
  · exact .refl s
  · exact credited_creditPaid s p lim

theorem setPeer_peers_other (s : State) {p q : Fin 16} (h : q ≠ p) (x : Peer) : (s.setPeer q x).net.peers[p] = s.net.peers[p] := by
  have hne : q.val ≠ p.val := fun e => h (Fin.ext e)
  simp [State.setPeer, vset_eq_set q.isLt, hne]

theorem sendPlain_peers_other (s : State) {p q : Fin 16} (h : q ≠ p) (c ty aux : Nat) :
    (sendPlain s q c ty aux).net.peers[p] = s.net.peers[p] := setPeer_peers_other s h _

theorem sendCredit_peers_other (s : State) {p q : Fin 16} (h : q ≠ p) : (sendCredit s q).net.peers[p] = s.net.peers[p] := by
  rcases sendCredit_cases s q with heq | ⟨lim, heq⟩ <;> rw [heq]
  exact (sendPlain_peers_other _ h ..).trans (setPeer_peers_other s h _)

theorem sendCredit_foldl_other {p : Fin 16} {l : List (Fin 16)} (h : p ∉ l) (s : State) :
    Credited s (l.foldl sendCredit s) ∧ (l.foldl sendCredit s).net.peers[p] = s.net.peers[p] := by
  induction l generalizing s with
  | nil => exact ⟨.refl s, rfl⟩
  | cons q l ih =>
    obtain ⟨hq, hl⟩ := not_or.mp (mt List.mem_cons.mpr h)
    obtain ⟨hcredited, hpeer⟩ := ih hl (sendCredit s q)
    exact ⟨(credited_sendCredit s q).trans hcredited, hpeer.trans (sendCredit_peers_other s (Ne.symm hq))⟩

/-- The credit frame of a peer has left with a limit; the state before says where frames go. -/
structure CreditSent (s t : State) (p : Fin 16) (lim : Nat) : Prop where
  due : t.net.peers[p].creditDue = none
  frame : ∃ f : TxFrame, .niwick (wireTo s p 1) f ∈ t.net.sent ∧ f.peer = p.val ∧ f.cls = 1 ∧ f.type = 2 ∧ f.aux = lim ∧ f.payload = []

theorem wireTo_credited {s t : State} (h : Credited s t) (p : Fin 16) (c : Nat) : wireTo t p c = wireTo s p c := by
  refine h.leaves.get (wireTo · p c) fun u => ?_
  have hpeer : peerAt u.uncredited p = (peerAt u p).uncredited := by simp [peerAt, vget_fin, State.uncredited]
  rw [wireTo, hpeer]
  rfl

theorem creditSent_creditPaid (s : State) (p : Fin 16) (lim : Nat) (hresp : s.sec.responder = false) :
    CreditSent s (creditPaid s p lim) p lim where
  due := by
    change (State.setSeqOf _ p 1 _).net.peers[p].creditDue = none
    simp [State.setSeqOf, State.setPeer, peerAt, vget_fin, vset_eq_set p.isLt]
  frame := by
    have hwire (x : Sent) : wire ((s.setPeer p { s.net.peers[p] with creditDue := none }).setSeqOf p 1
        { seqOf (s.setPeer p { s.net.peers[p] with creditDue := none }) p 1 with ackDue := none }) x = x := by
      cases x <;> simp [wire, hresp]
    rw [← wireTo_credited (credited_unpaid s p) p 1]
    refine ⟨_, List.mem_append_right _ (List.mem_singleton.mpr (hwire _).symm), rfl, rfl, rfl, rfl, rfl⟩

theorem mayTransmit_credited {s t : State} (h : Credited s t) (p : Fin 16) (c : Nat) : mayTransmit t p c = mayTransmit s p c := by
  refine h.leaves.get (mayTransmit · p c) fun u => ?_
  have hpeer : peerAt u.uncredited p = (peerAt u p).uncredited := by simp [peerAt, vget_fin, State.uncredited]
  rw [mayTransmit, hpeer]
  rfl

/-- A credit frame sent on the way from `s` to `t` is one of the frames that have left by `w`. -/
theorem CreditSent.between {s u v w : State} {p : Fin 16} {lim : Nat} (h : CreditSent u v p lim) (hbefore : Credited s u)
    (hafter : Credited v w) (hpeer : w.net.peers[p] = v.net.peers[p]) : CreditSent s w p lim where
  due := hpeer ▸ h.due
  frame := by
    obtain ⟨f, hmem, hf⟩ := h.frame
    exact ⟨f, hafter.sent.subset (wireTo_credited hbefore p 1 ▸ hmem), hf⟩

/-- A credit frame that may leave leaves, whichever others do. -/
theorem sendCredits_sends {s : State} {p : Fin 16} {lim : Nat} (h : s.net.peers[p].creditDue = some lim)
    (hmay : mayTransmit s p 1 = true) (hresp : s.sec.responder = false) : CreditSent s (sendCredits s) p lim := by
  obtain ⟨pre, post, hl⟩ := List.append_of_mem (List.mem_finRange p)
  have hnodup : (pre ++ p :: post).Nodup := hl ▸ List.nodup_finRange 16
  obtain ⟨-, hpost, hdisjoint⟩ := List.nodup_append.mp hnodup
  have hpre : p ∉ pre := fun hp => hdisjoint p hp p List.mem_cons_self rfl
  obtain ⟨hbefore, hpeer⟩ := sendCredit_foldl_other hpre s
  rw [sendCredits, hl, List.foldl_append, List.foldl_cons]
  generalize pre.foldl sendCredit s = u at hbefore hpeer ⊢
  have hpaid : sendCredit u p = creditPaid u p lim :=
    (sendCredit_due (hpeer ▸ h)).trans (if_pos ((mayTransmit_credited hbefore p 1).trans hmay))
  have hsent := creditSent_creditPaid u p lim ((hbefore.leaves.get fun v => v.sec.responder).trans hresp)
  obtain ⟨hafter, hpeer⟩ := sendCredit_foldl_other (List.nodup_cons.mp hpost).1 (sendCredit u p)
  exact (hpaid ▸ hsent).between hbefore hafter hpeer

theorem credited_sendCredits (s : State) : Credited s (sendCredits s) :=
  List.foldlRecOn (motive := Credited s) _ _ (.refl s) fun _ hu p _ => hu.trans (credited_sendCredit _ p)

/-! ### Pauses (R400, R411) -/

/-- The module with its bulk priority no longer paused. -/
def State.bulkResumed (s : State) : State := { s with net := { s.net with bulkPaused := false } }

/-- What becomes of the credit frame of a peer that the pause alone held back (R411). -/
theorem bulkResumed_sends {s : State} {p : Fin 16} {lim : Nat} (h : s.net.peers[p].creditDue = some lim)
    (hcarries : s.net.carries = true) (hresp : s.sec.responder = false) (hdown : s.net.peers[p].down = false) :
    CreditSent s (sendCredits s.bulkResumed) p lim := by
  have hmay : mayTransmit s.bulkResumed p 1 = true := by
    have hpeer : (peerAt s.bulkResumed p).down = false := by rw [peerAt, vget_fin]; exact hdown
    simp [mayTransmit, isBulk, State.bulkResumed, hcarries] at hpeer ⊢
    exact hpeer
  have hsent := sendCredits_sends (s := s.bulkResumed) h hmay hresp
  exact ⟨hsent.due, hsent.frame⟩

/-- Transmission on the bulk priority goes on, and the credit frames that its pause held back have left. -/
structure BulkResumed (s t : State) : Prop where
  bulk : t.net.bulkPaused = false
  ctrl : t.net.ctrlPaused = s.net.ctrlPaused
  laps : t.laps = s.laps
  dies : t.dies = s.dies
  sent : s.net.sent <+: t.net.sent
  credits : ∀ (p : Fin 16) (lim : Nat), s.net.peers[p].creditDue = some lim → s.net.carries = true → s.sec.responder = false →
    s.net.peers[p].down = false → CreditSent s t p lim

theorem resumePort_bulk (s : State) : BulkResumed s (resumePort s false) := by
  have heq : resumePort s false = sendCredits s.bulkResumed := if_neg Bool.false_ne_true
  have hcredited : Credited s.bulkResumed (resumePort s false) := heq ▸ credited_sendCredits _
  have hbulk := hcredited.leaves.get fun u => u.net.bulkPaused
  have hctrl := hcredited.leaves.get fun u => u.net.ctrlPaused
  have hlaps := hcredited.leaves.get State.laps
  have hdies := hcredited.leaves.get State.dies
  exact ⟨hbulk, hctrl, hlaps, hdies, hcredited.sent, fun p lim => heq ▸ bulkResumed_sends⟩

/-! ### Messages that the port answers or notes (R400 to R403, R457) -/

section
variable {s : State}

theorem execNeighbourSolicitation_mine (hon : portOn s = true) (hcarries : s.net.carries = true) {target : BitVec 128}
    (h : target = linkLocal s.net.mac ∨ (target = s.net.cfg.addr ∧ s.net.cfg.addr ≠ 0)) (src : BitVec 128) (mac : BitVec 48) :
    execNeighbourSolicitation src target mac s =
      .next (emit s (.advert src target (if s.net.cfg.gwMac = 0 then mac else s.net.cfg.gwMac))) := by
  rcases h with h | ⟨h, h0⟩ <;> simp_all [execNeighbourSolicitation]

theorem execNeighbourSolicitation_other {target : BitVec 128} (hlink : target ≠ linkLocal s.net.mac)
    (haddr : target ≠ s.net.cfg.addr) (src : BitVec 128) (mac : BitVec 48) : execNeighbourSolicitation src target mac s = .next s := by
  simp [execNeighbourSolicitation, hlink, haddr]

/-- The port after a Sync: 16 offsets in a row within 100 ns lock it, 4 in a row above 1 µs unlock it (R403). -/
def Net.synced (n : Net) (o : Int) (now : Nat) : Net :=
  let good := if o.natAbs ≤ 100 then n.ptpGood + 1 else 0
  let bad := if 1000 < o.natAbs then n.ptpBad + 1 else 0
  { n with
    ptpOffset := o, ptpGood := good, ptpBad := bad, ptpLocked := n.ptpLocked && decide (bad < 4) || decide (16 ≤ good)
    ptpLast := now }

theorem execPtpSync_on (hon : s.power.phase ≠ .off) (hptp : s.net.cfg.ptpEn = true) (o : Int) :
    execPtpSync o s = .next (delayRequest { s with net := s.net.synced o s.laps.now }) := by
  simp [execPtpSync, hon, hptp, Net.synced]

/-- A Delay_Req adds to what has been sent. -/
theorem delayRequest_eq (s : State) : ∃ sent, delayRequest s = { s with freeIdx := s.freeIdx + 1, net := { s.net with sent := sent } } := by
  unfold delayRequest
  dsimp only
  split
  · exact ⟨_, rfl⟩
  · exact ⟨s.net.sent, rfl⟩

theorem synced_locks {n : Net} {o : Int} (h : o.natAbs ≤ 100) (hgood : 15 ≤ n.ptpGood) (now : Nat) :
    (n.synced o now).ptpLocked = true := by
  simp [Net.synced, h]
  omega

theorem synced_unlocks {n : Net} {o : Int} (h : 1000 < o.natAbs) (hbad : 3 ≤ n.ptpBad) (now : Nat) :
    (n.synced o now).ptpLocked = false := by
  have hgood : ¬ o.natAbs ≤ 100 := by omega
  simp [Net.synced, h, hgood]
  omega

theorem synced_stays_locked {n : Net} {o : Int} (h : o.natAbs ≤ 1000) (hlock : n.ptpLocked = true) (now : Nat) :
    (n.synced o now).ptpLocked = true := by
  simp [Net.synced, hlock, Nat.not_lt.mpr h]

theorem synced_stays_unlocked {n : Net} {o : Int} (h : 100 < o.natAbs) (hlock : n.ptpLocked = false) (now : Nat) :
    (n.synced o now).ptpLocked = false := by
  simp [Net.synced, hlock, Nat.not_le.mpr h]

theorem execPtpDelayResponse_on (hon : s.power.phase ≠ .off) (hptp : s.net.cfg.ptpEn = true) (followUp : Bool) (o : Int) :
    execPtpDelayResponse followUp o s =
      .next (if followUp then { s with net := { s.net with ptpOffset := o } } else { s with net := { s.net with ptpDelay := o } }) := by
  cases followUp <;> simp [execPtpDelayResponse, hon, hptp]

theorem execPfcReceive_pauses (hon : s.power.phase ≠ .off) {quanta : BitVec 16} (hq : quanta ≠ 0) (ctrl : Bool) :
    execPfcReceive ctrl quanta s = .next (pausePort s ctrl (s.laps.now + (quanta.toNat * 3008 + 9999) / 10000)) := by
  simp only [execPfcReceive, decide_eq_false hon, if_neg hq]
  rfl

theorem execPfcReceive_resumes (hon : s.power.phase ≠ .off) (ctrl : Bool) : execPfcReceive ctrl 0 s = .next (resumePort s ctrl) := by
  simp [execPfcReceive, hon]

theorem execPauseTimeExpiry_eq (s : State) (ctrl : Bool) : execPauseTimeExpiry ctrl s =
    .next (if (if ctrl then s.net.ctrlPaused else s.net.bulkPaused) = true ∧
      (if ctrl then s.net.ctrlUntil else s.net.bulkUntil) ≤ s.laps.now then resumePort s ctrl else s) := by
  cases ctrl <;> simp only [execPauseTimeExpiry, Bool.and_eq_true, decide_eq_true_eq, if_true, Bool.false_eq_true, if_false] <;>
    split <;> rfl

theorem freeLevel_lt (n : Nat) : Config.freeNat n % 524288 < 524288 := Nat.mod_lt _ (by decide)

theorem execDiscardedFrame_on (hon : portOn s = true) (why : DropReason) : execDiscardedFrame why s =
    .next (if why = .fcs ∨ why = .beforeFirstLap then s else rxDrop s) := by
  cases why <;> simp [execDiscardedFrame, hon]

end

/-- Settles O49: a resumed priority is `resumePort_bulk`, the lock after a Sync what `Net.synced` holds; every other event is its
own equation. -/
theorem portEventsAct : Obligations.PortEventsAct := by
  intro s resumed
  have hresumed : resumed (resumePort s false) := by
    obtain ⟨hbulk, hctrl, hlaps, hdies, hsent, hcredits⟩ := resumePort_bulk s
    refine ⟨hbulk, hctrl, hlaps, hdies, hsent, fun p lim hdue hcarries hresp hdown => ?_⟩
    obtain ⟨hnone, hframe⟩ := hcredits p lim hdue hcarries hresp hdown
    exact ⟨hnone, hframe⟩
  refine ⟨fun hon hcarries src target mac => ⟨fun hmine => execNeighbourSolicitation_mine hon hcarries hmine src mac,
      fun hlink haddr => execNeighbourSolicitation_other hlink haddr src mac⟩,
    fun hon hptp o => ⟨?_, execPtpDelayResponse_on hon hptp true o, execPtpDelayResponse_on hon hptp false o⟩,
    fun h => if_pos h, fun h => ?_,
    fun quanta hon => ⟨fun hq => ⟨execPfcReceive_pauses hon hq true, execPfcReceive_pauses hon hq false⟩, fun hq => ⟨?_, ?_⟩⟩,
    fun hp hu => ?_, fun hp hu => ?_, fun h => ?_, fun h => ?_, fun h => ?_, fun h => ?_, fun lanes hon => ?_,
    fun hon why => ?_⟩
  · obtain ⟨sent, heq⟩ := delayRequest_eq { s with net := s.net.synced o s.laps.now }
    exact ⟨_, execPtpSync_on hon hptp o, heq ▸ ⟨rfl, rfl, rfl, rfl, (synced_locks · · s.laps.now), (synced_unlocks · · s.laps.now),
      (synced_stays_locked · · s.laps.now), (synced_stays_unlocked · · s.laps.now), rfl, rfl⟩⟩
  · exact if_neg (Nat.not_le.mpr h)
  · rw [hq]; exact execPfcReceive_resumes hon true
  · rw [hq]; exact ⟨_, execPfcReceive_resumes hon false, hresumed⟩
  · exact (execPauseTimeExpiry_eq s true).trans (congrArg Host.Outcome.next (if_pos ⟨hp, hu⟩))
  · exact ⟨_, (execPauseTimeExpiry_eq s false).trans (congrArg Host.Outcome.next (if_pos ⟨hp, hu⟩)), hresumed⟩
  · exact (execPauseTimeExpiry_eq s true).trans (congrArg Host.Outcome.next (if_neg fun hd => Nat.not_le.mpr h hd.2))
  · exact (execPauseTimeExpiry_eq s false).trans (congrArg Host.Outcome.next (if_neg fun hd => Nat.not_le.mpr h hd.2))
  · exact ⟨_, if_neg (by simp [h]), freeLevel_lt _, rfl, rfl, rfl⟩
  · exact ⟨_, if_neg (by simp [h]), freeLevel_lt _, rfl, rfl, rfl⟩
  · exact if_neg (by simp [hon])
  · rw [show exec (.discardedFrame why) s = _ from execDiscardedFrame_on hon why]
    split <;> rfl

end Sys2Proof.Machine

/-! PROOFS. The port: which frame leaves, and what is kept until it is acknowledged (R407 to R409, R417). -/
namespace Sys2Proof.Machine

section
variable {s : State} {p : Fin 16}

/-! ### The first of a list that meets a test -/

/-- The first element that meets a test, by its place. -/
theorem firstIdx_split {α : Type} (test : α → Bool) {l pre post : List α} {a : α} (hl : l = pre ++ a :: post)
    (hpre : ∀ x ∈ pre, test x = false) (ha : test a = true) :
    firstIdx test l 0 = some pre.length ∧ l[pre.length]? = some a ∧ l.eraseIdx pre.length = pre ++ post ∧
      ∀ x, l.set pre.length x = pre ++ x :: post := by
  subst hl
  refine ⟨(firstIdx_append test ha post pre 0 hpre).trans (by rw [Nat.zero_add]), by simp, ?_, fun x => by simp⟩
  rw [List.eraseIdx_append_of_length_le (Nat.le_refl _), Nat.sub_self, List.eraseIdx_zero, List.tail_cons]

/-! ### EGRESS_TRANSMIT and EGRESS_DISCARD (R417) -/

/-- Whether the port takes a data frame of `n` bytes for a peer now (R407, R417). -/
def takesData (s : State) (p : Fin 16) (n : Nat) : Bool :=
  maySend s p 1 && (peerAt s p).dataOut && decide (s.net.storeBytes + n ≤ 64 * 2 ^ 20)

theorem takesData_iff {n : Nat} : takesData s p n = true ↔ mayTransmit s p 1 = true ∧ (seqOf s p 1).unacked.length < 256 ∧
    (peerAt s p).dataOut = true ∧ s.net.storeBytes + n ≤ 64 * 2 ^ 20 := by
  simp only [takesData, maySend, Bool.and_eq_true, decide_eq_true_eq, and_assoc]

/-- The port with a data frame moved from the waiting frames to the transmit store. -/
def State.stores (s : State) (out : List OutFrame) (n : Nat) : State :=
  { s with net := { s.net with out := out, storeBytes := s.net.storeBytes + n } }

theorem execEgressTransmit_first {pre post : List OutFrame} {o : OutFrame} (hout : s.net.out = pre ++ o :: post)
    (hpre : ∀ x ∈ pre, x.peer ≠ p.val) (ho : o.peer = p.val) : execEgressTransmit p s =
    if takesData s p o.len then .next (sendPayload (s.stores (pre ++ post) o.len) p 1 (b2n o.slotEnd) o.queue o.slot
      (tierRead (s.die (dieOf o.die)).near o.off o.len)) else .next s := by
  obtain ⟨hfirst, hget, herase, -⟩ := firstIdx_split (fun o : OutFrame => decide (o.peer = p.val)) hout (by simpa using hpre) (by simpa using ho)
  simp only [execEgressTransmit, hfirst, hget, herase]
  rfl

theorem egressLose_eq (s : State) {n : Nat} (h : n ≠ 0) :
    egressLose s n = netEvent { s with net := { s.net with egressLost := satAdd32 s.net.egressLost n } } 1 := if_neg h

/-- Counting lost frames leaves the peers and the frames, and undoes no event. -/
theorem egressLose_leaves (s : State) (n : Nat) : (egressLose s n).net.peers = s.net.peers ∧
    (egressLose s n).net.sent = s.net.sent ∧ (egressLose s n).net.out = s.net.out ∧
    ∀ i, s.net.events.getLsbD i = true → (egressLose s n).net.events.getLsbD i = true := by
  by_cases h : n = 0
  · rw [egressLose, if_pos h]
    exact ⟨rfl, rfl, rfl, fun i hi => hi⟩
  · rw [egressLose_eq s h]
    refine ⟨rfl, rfl, rfl, fun i hi => ?_⟩
    rw [netEvent, BitVec.getLsbD_or, hi, Bool.true_or]

theorem egressLose_out (s : State) (n : Nat) : (egressLose s n).net.out = s.net.out := by
  obtain ⟨-, -, hout, -⟩ := egressLose_leaves s n
  exact hout

/-- The frames of laps before the last two that still wait at the cut. -/
def oldFrames (s : State) : List OutFrame := s.net.out.filter fun o => decide (o.lap + 2 ≤ s.laps.moduleLap)

theorem execEgressDiscard_cut (hc : s.laps.cyc = 0) : execEgressDiscard s = .next (egressLose
    { s with net := { s.net with out := s.net.out.filter fun o => decide (s.laps.moduleLap < o.lap + 2) } } (oldFrames s).length) := by
  have hkept : (fun o : OutFrame => !decide (o.lap + 2 ≤ s.laps.moduleLap)) = fun o => decide (s.laps.moduleLap < o.lap + 2) :=
    funext fun o => by rw [← decide_not, decide_eq_decide, Nat.not_le]
  simp only [execEgressDiscard, if_pos hc, hkept]
  rfl

theorem oldFrames_length_ne_zero (h : ∃ o ∈ s.net.out, o.lap + 2 ≤ s.laps.moduleLap) : (oldFrames s).length ≠ 0 := by
  obtain ⟨o, ho, hold⟩ := h
  exact (List.length_pos_of_mem (List.mem_filter.mpr ⟨ho, decide_eq_true hold⟩)).ne'

/-! ### RETRANSMIT (R408, R409) -/

/-- A frame sent again, with the ACK and SACK of now. -/
def freshFrame (f : TxFrame) (q : SeqSt) : TxFrame := { f with ack := q.rxNext % 2 ^ 32, sack := sackOf q }

/-- The module after the first overdue frame of a sequence has been sent again. -/
def resent (s : State) (p : Fin 16) (c : Fin 5) (pre post : List Unacked) (u : Unacked) : State :=
  let q := seqOf s p c
  let s1 := s.setSeqOf p c { q with
    unacked := pre ++ ⟨freshFrame u.frame q, u.sends + 1, s.laps.now⟩ :: post, ackDue := none }
  emit { s1 with net := { s1.net with retransmits := satAdd32 s1.net.retransmits 1 } } (.niwick (wireTo s p c) (freshFrame u.frame q))

theorem execRetransmit_first {c : Fin 5} {pre post : List Unacked} {u : Unacked} (hmay : mayTransmit s p c = true)
    (hq : (seqOf s p c).unacked = pre ++ u :: post) (hpre : ∀ x ∈ pre, s.laps.now ≤ x.last + rtoCycles s)
    (hu : u.last + rtoCycles s < s.laps.now) :
    execRetransmit p c s = .next (if 16 ≤ u.sends then markDown s p else resent s p c pre post u) := by
  obtain ⟨hfirst, hget, -, hset⟩ := firstIdx_split (fun u : Unacked => decide (u.last + rtoCycles s < s.laps.now)) hq
    (by simpa using hpre) (by simpa using hu)
  simp only [execRetransmit, hmay, hfirst, hget, hset, Bool.not_true, Bool.false_eq_true, if_false]
  split <;> rfl

theorem seqOf_resent (c : Fin 5) (pre post : List Unacked) (u : Unacked) : seqOf (resent s p c pre post u) p c =
    { seqOf s p c with unacked := pre ++ ⟨freshFrame u.frame (seqOf s p c), u.sends + 1, s.laps.now⟩ :: post, ackDue := none } :=
  seqOf_setSeqOf_self s p.isLt c.isLt _

/-- A peer that is down has nothing left to send, and the event is noted. -/
theorem markDown_down (s : State) (p : Fin 16) : (peerAt (markDown s p) p).down = true ∧ (markDown s p).net.sent = s.net.sent ∧
    (seqOf (markDown s p) p 1).unacked = [] ∧ (markDown s p).net.out = s.net.out.filter (fun o => decide (o.peer ≠ p.val)) ∧
    (markDown s p).net.events.getLsbD 0 = true := by
  unfold markDown
  extract_lets x q bytes mine s1 n s2
  obtain ⟨hpeers, hsent, hout, hevents⟩ := egressLose_leaves (netEvent s2 0) (q.unacked.length + mine.length)
  have hpeer : peerAt (egressLose (netEvent s2 0) (q.unacked.length + mine.length)) p =
      { x with down := true, creditDue := none, classes := vset x.classes 1 { q with unacked := [] } } :=
    (congrArg (vget · p.val Peer.empty) hpeers).trans (peerAt_setPeer_self s p.isLt _)
  refine ⟨congrArg Peer.down hpeer, hsent, ?_, hout, hevents 0 ?_⟩
  · rw [seqOf, hpeer, vget_vset (by decide)]
  · simp [netEvent]

/-! ### ACK_DELAY (R408) -/

theorem execAckDelay_due {c : Fin 5} {at_ : Nat} (h : (seqOf s p c).ackDue = some at_) (hmay : mayTransmit s p c = true) :
    execAckDelay p c s = .next (if at_ ≤ s.laps.now then sendPlain s p c 1 0 else s) := by
  simp only [execAckDelay, h, hmay, and_true]
  split <;> rfl

theorem seqOf_sendPlain (s : State) {p c : Nat} (hp : p < 16) (hc : c < 5) (ty aux : Nat) :
    seqOf (sendPlain s p c ty aux) p c = { seqOf s p c with ackDue := none } := seqOf_setSeqOf_self s hp hc _

end

/-- Settles O50: the frame that leaves is that of `execEgressTransmit_first` and `execRetransmit_first`, a sequence afterwards what
`seqOf_sendPayload`, `seqOf_resent` and `seqOf_sendPlain` say, a peer that does not answer `markDown_down`. -/
theorem framesLeaveAndAreKept : Obligations.FramesLeaveAndAreKept := by
  intro s p
  refine ⟨fun pre post o d hout hpre ho hd => ?_, fun hc => ?_, ?_, ?_⟩
  · intro q f
    have hexec := execEgressTransmit_first hout hpre ho
    rw [hd, dieOf_val] at hexec
    refine ⟨fun hmay hwin hdata hstore => ?_, fun h => ?_⟩
    · have hseq := seqOf_sendPayload (s.stores (pre ++ post) o.len) p.isLt (c := 1) (by decide) (b2n o.slotEnd) o.queue o.slot
        (tierRead (s.die d).near o.off o.len)
      refine ⟨_, hexec.trans (if_pos (takesData_iff.mpr ⟨hmay, hwin, hdata, hstore⟩)), rfl, rfl, rfl,
        congrArg SeqSt.txNext hseq, congrArg SeqSt.unacked hseq, congrArg SeqSt.ackDue hseq, rfl, rfl⟩
    · refine hexec.trans (if_neg fun ht => ?_)
      obtain ⟨-, hwin, hdata, hstore⟩ := takesData_iff.mp ht
      rcases h with h | h | h
      · exact Nat.not_lt.mpr h hwin
      · exact absurd hdata (by simp [h])
      · exact Nat.not_le.mpr h hstore
  · refine ⟨_, execEgressDiscard_cut hc, egressLose_out .., fun hold => ?_⟩
    rw [egressLose_eq _ (oldFrames_length_ne_zero hold)]
    exact ⟨rfl, rfl⟩
  · intro c pre post u hmay hq hpre hu q f
    have hexec := execRetransmit_first hmay hq hpre hu
    have hseq := seqOf_resent (s := s) (p := p) c pre post u
    exact ⟨fun hsends => ⟨_, hexec.trans (congrArg _ (if_neg (Nat.not_le.mpr hsends))), rfl, congrArg SeqSt.unacked hseq,
      (congrArg SeqSt.txNext hseq :), rfl, rfl⟩, fun hsends => ⟨_, hexec.trans (congrArg _ (if_pos hsends)), markDown_down s p⟩⟩
  · intro c at_ hdue hmay q
    have hexec := execAckDelay_due hdue hmay
    have hseq := seqOf_sendPlain s p.isLt c.isLt 1 0
    exact ⟨fun h => ⟨_, hexec.trans (congrArg _ (if_pos h)), congrArg SeqSt.ackDue hseq, rfl, (congrArg SeqSt.unacked hseq :),
      (congrArg SeqSt.txNext hseq :)⟩, fun h => hexec.trans (congrArg _ (if_neg (Nat.not_le.mpr h)))⟩

end Sys2Proof.Machine

/-! PROOFS. Fuse actions and the writes of the peer table that only an administrator may make (R405, R429, R430, R436, R437). -/
namespace Sys2Proof.Machine

section
variable {s : State} {p : Fin 16}

/-! ### Administered writes (R436) -/

/-- A command whose whole meaning is an administered write of peer `p` at a cut. -/
def Administered (p : Fin 16) (cmd : Instr) : Prop := ∃ f, ∀ s, exec cmd s = .next (atCut s fun s => ifAdmin s p f)

theorem Administered.off_cut {cmd : Instr} (h : Administered p cmd) (hc : s.laps.cyc ≠ 0) : exec cmd s = .next s := by
  obtain ⟨f, hf⟩ := h
  rw [hf, atCut_off_cut hc]

theorem Administered.denied {cmd : Instr} (h : Administered p cmd) (hon : portOn s = true) (hc : s.laps.cyc = 0)
    (hp : s.sec.admin.getLsbD p = false) :
    exec cmd s = .next { s with sec := { s.sec with denied := true, setNow := s.sec.setNow ||| 1 } } := by
  obtain ⟨f, hf⟩ := h
  rw [hf, atCut_at_cut hon hc, ifAdmin, administers, hp]
  rfl

/-- At a cut the administrator's write leaves what its meaning gives. -/
theorem next_administered {t : State} (hon : portOn s = true) (hc : s.laps.cyc = 0) (hp : s.sec.admin.getLsbD p = true)
    {f : State → State} (h : f s = t) : (.next (atCut s fun s => ifAdmin s p f) : Host.Outcome State Fault Refusal) = .next t := by
  rw [atCut_at_cut hon hc, ifAdmin, administers, if_pos hp, h]

/-! ### Fuse actions (R429, R430, R437) -/

theorem fuseReady_iff : fuseReady s = true ↔ s.laps.state = 0 ∧ s.run.run = none := by
  simp [fuseReady, inRun]

theorem fuseReady_eq_false (h : ¬ (s.laps.state = 0 ∧ s.run.run = none)) : fuseReady s = false :=
  Bool.eq_false_iff.mpr (mt fuseReady_iff.mp h)

theorem fuse_not_ready (h : fuseReady s = false) (b : Bool) : advanceFuse s b = fuseDone s false ∧
    (∀ i, revokeFuse s i b = fuseDone s false) ∧ lockFuse s b = fuseDone s false := by
  simp [advanceFuse, revokeFuse, lockFuse, h]

theorem advanceFuse_reached (h : fuseReady s = true) (hver : s.sec.secVerRun ≤ s.sec.rollback) (b : Bool) :
    advanceFuse s b = fuseDone s true := by
  simp [advanceFuse, h, hver]

theorem advanceFuse_blown (h : fuseReady s = true) (hver : s.sec.rollback < s.sec.secVerRun) :
    advanceFuse s true = fuseDone { s with sec := { s.sec with rollback := min s.sec.secVerRun 64 } } true := by
  simp [advanceFuse, h, Nat.not_le.mpr hver]

/-- Where a bit does not read back, some of the fuses below SEC_VER are blown (log 9). -/
theorem advanceFuse_fails (h : fuseReady s = true) (hver : s.sec.rollback < s.sec.secVerRun) :
    ∃ k, k < s.sec.secVerRun - s.sec.rollback ∧ advanceFuse s false =
      fuseDone { s.draw.2 with sec := { s.sec with rollback := min (s.sec.rollback + k) 64 } } false := by
  refine ⟨Config.freeNat s.draw.1 % (s.sec.secVerRun - s.sec.rollback), Nat.mod_lt _ (by omega), ?_⟩
  simp [advanceFuse, h, Nat.not_le.mpr hver]

/-- A write that names the slot of the running image is ignored (R430). -/
theorem revokeFuse_running {i : Fin 2} (hi : s.sec.slot = i.val) (b : Bool) : revokeFuse s i b = fuseDone s false := by
  simp [revokeFuse, hi]

theorem revokeFuse_blown (h : fuseReady s = true) {i : Fin 2} (hi : s.sec.slot ≠ i.val) :
    revokeFuse s i true = fuseDone { s with sec := { s.sec with revoked := s.sec.revoked.set i true } } true := by
  simp [revokeFuse, h, hi]

theorem revokeFuse_fails (i : Fin 2) : revokeFuse s i false = fuseDone s false := by
  simp [revokeFuse]

theorem lockFuse_blown (h : fuseReady s = true) :
    lockFuse s true = fuseDone { s with sec := { s.sec with locked := true } } true := by
  simp [lockFuse, h]

theorem lockFuse_fails (hl : s.sec.locked = false) : lockFuse s false = fuseDone s false := by
  simp [lockFuse, hl]

theorem peerAdminSet_some {v : Word} (h : v.toNat % 2 ^ 16 ≠ 0) :
    peerAdminSet s v.toNat = { s with sec := { s.sec with admin := v.setWidth 16 } } := by
  rw [← BitVec.ofNat_toNat]
  exact if_neg h

end

/-- Settles O56: all these writes are administered ones (`Administered`); each fuse action at a cut is the lemma of its case. -/
theorem administratorsBlowFuses : Obligations.AdministratorsBlowFuses := by
  intro s p hon failed fails done idle all
  have hall : ∀ cmd ∈ all, Administered p cmd := by
    simp only [all, List.forall_mem_append, List.forall_mem_cons, List.forall_mem_map]
    exact ⟨⟨⟨⟨_, fun _ => rfl⟩, ⟨_, fun _ => rfl⟩, ⟨_, fun _ => rfl⟩, ⟨_, fun _ => rfl⟩, ⟨_, fun _ => rfl⟩, ⟨_, fun _ => rfl⟩,
      ⟨_, fun _ => rfl⟩, ⟨_, fun _ => rfl⟩, List.forall_mem_nil _⟩,
      fun e _ => ⟨_, fun _ => rfl⟩⟩, ⟨_, fun _ => rfl⟩, List.forall_mem_nil _⟩
  refine ⟨fun hc cmd hcmd => (hall cmd hcmd).off_cut hc, fun hc => ⟨fun hp cmd hcmd => (hall cmd hcmd).denied hon hc hp, fun hp => ?_⟩⟩
  have hat {t : State} {f : State → State} (h : f s = t) :
    (.next (atCut s fun s => ifAdmin s p f) : Host.Outcome State Fault Refusal) = .next t := next_administered hon hc hp h
  refine ⟨fun hidle b => ?_, fun hidle => ?_, fun e v => hat rfl, fun v hv => hat (peerAdminSet_some hv), fun v hv => hat (if_pos hv)⟩
  · obtain ⟨hadvance, hrevoke, hlock⟩ := fuse_not_ready (fuseReady_eq_false hidle) b
    exact ⟨hat hadvance, hat (hrevoke 0), hat (hrevoke 1), hat hlock⟩
  · have hready := fuseReady_iff.mpr hidle
    refine ⟨fun hver b => hat (advanceFuse_reached hready hver b), fun hver => ⟨hat (advanceFuse_blown hready hver), fun h64 => ?_⟩,
      fun h0 => hat (revokeFuse_blown hready h0), fun h0 => hat (revokeFuse_running h0 true), fun h1 => hat (revokeFuse_blown hready h1),
      fun h1 => hat (revokeFuse_running h1 true), hat (revokeFuse_fails 0), hat (revokeFuse_fails 1), hat (lockFuse_blown hready),
      fun hl => hat (lockFuse_fails hl)⟩
    obtain ⟨k, hk, heq⟩ := advanceFuse_fails hready hver
    refine ⟨_, hat heq, rfl, ?_, ?_⟩
    · exact Nat.le_min.mpr ⟨Nat.le_add_right .., h64⟩
    · exact (Nat.min_le_left ..).trans_lt (by omega)

end Sys2Proof.Machine

/-! PROOFS. Module resets and the recovery responder (R427, R428, R466). -/
namespace Sys2Proof.Machine

section
variable {s : State}

/-! ### What a module reset leaves (R466) -/

/-- What a module reset makes of a module: registers and memories are those of a reset; fuses, fence lists, the clock and the
orders of the queue are kept. -/
def ResetFrom (s t : State) (cause : Nat) : Prop :=
  t.laps = { Laps.init with now := s.laps.now } ∧ t.run = RunSt.init ∧ t.faults = Faults.init ∧ t.split = Splits.init ∧
    t.pacer = Pacer.init ∧ t.fabric = Fabric.init ∧ t.sec.rollback = s.sec.rollback ∧ t.sec.revoked = s.sec.revoked ∧
    t.sec.locked = s.sec.locked ∧ t.sec.responder = false ∧ t.net.carries = false ∧ t.net.peers = peersInit ∧
    t.sec.identKey = s.sec.identKey ∧ t.sec.sealReady = false ∧ t.power.uv = false ∧ t.power.events = 0 ∧
    t.ident.resetCause = cause ∧ t.ident.resetCount = satAdd32 s.ident.resetCount 1 ∧ t.power.verified = false ∧
    (s.power.goodDone = true → t.power.phase = .boot) ∧ t.pending = s.pending ∧ t.freeIdx ≥ s.freeIdx ∧
    ∀ d, (t.die d).near.mem = [] ∧ (t.die d).far.mem = [] ∧ (t.die d).defects = (s.die d).defects ∧
      (t.die d).fences = if s.faults.clearPending then [] else (s.die d).fences

theorem moduleReset_die (s : State) (cause : Nat) (d : Die) :
    (moduleReset s cause).die d = coldDie (s.die d) (gridSide s) s.faults.clearPending 16 := State.die_map s _ d

/-- A module reset depends on neither the port nor an image that is being programmed. -/
theorem resetFrom_moduleReset (s : State) (n : Net) (flash : Mem) (commit : Option (CmdReq × Nat)) (cause : Nat) :
    ResetFrom s (moduleReset { s with net := n, sec := { s.sec with flash := flash, commit := commit } } cause) cause :=
  ⟨rfl, rfl, rfl, rfl, rfl, rfl, rfl, rfl, rfl, rfl, rfl, rfl, rfl, rfl, rfl, rfl, rfl, rfl, rfl, fun h => if_pos h, rfl, Nat.le_refl _,
    fun d => by rw [moduleReset_die]; exact ⟨rfl, rfl, rfl, rfl⟩⟩

theorem moduleReset_flash (cause : Nat) (h : s.sec.commit = none) : (moduleReset s cause).sec.flash = s.sec.flash := by
  show flashLeft s.sec = _
  rw [flashLeft, h]
  rfl

/-! ### Replies and commands of the responder (Table 19-4) -/

/-- What the responder puts on the wire as a reply: bytes 8 to 19 are 0. -/
def responderReply (s : State) (req : CmdReq) (code status reason : Nat) : Sent :=
  let q := seqOf s 0 0
  .responder s.net.firstMac ⟨0, 1, s.net.mac.setWidth 32, 0, 0, 0, q.txNext % 2 ^ 32, q.rxNext % 2 ^ 32, sackOf q, 0, 0,
    [BitVec.ofNat 8 code, BitVec.ofNat 8 status] ++ leBytes 2 0 ++ leBytes 4 req.token.toNat ++ leBytes 8 0 ++ leBytes 4 0 ++
      [BitVec.ofNat 8 reason] ++ zeros 43⟩

theorem respondReply_sent (h : s.sec.responder = true) (req : CmdReq) (code status reason : Nat) :
    (respondReply s req code status reason).net.sent = s.net.sent ++ [responderReply s req code status reason] := by
  have hwire (t : State) (ht : t.sec = s.sec) (w : WireTo) (f : TxFrame) : wire t (.niwick w f) = .responder t.net.firstMac f := by
    rw [wire, ht]
    exact if_pos h
  refine congrArg (fun x => s.net.sent ++ [x]) ?_
  exact hwire _ rfl _ _

theorem command_responder (h : s.sec.responder = true) (f g : State → State) : command s f g = g s := if_pos h

theorem unlessCommit_none (h : s.sec.commit = none) (g : State → State) : unlessCommit g s = g s := by
  rw [unlessCommit, h]
  rfl

theorem unlessCommit_some (h : s.sec.commit ≠ none) (g : State → State) : unlessCommit g s = s :=
  if_pos (Option.isSome_iff_ne_none.mpr h)

/-! ### Staging an image (R427, Table 19-4) -/

theorem stageImage_fits {bs : List Byte} (ho : leNat (bs.take 8) % 64 = 0) (hb : (bs.drop 8).length % 64 = 0)
    (hfit : leNat (bs.take 8) + (bs.drop 8).length ≤ 16777216) : stageImage s bs =
      { s with sec := { s.sec with staging := memWrite s.sec.staging (leNat (bs.take 8)) (bs.drop 8) } } := by
  rw [stageImage]
  exact if_neg (by omega)

/-- A frame of the sender that the responder is bound to, within the responder's limits (R427). -/
structure RespAdmits (s : State) (f : Frame) : Prop where
  ver : f.ver = 1
  len : f.len.toNat = f.payload.length
  linkLocal : f.toLinkLocal = true
  size : f.payload.length ≤ 9136
  bound : (peerAt s 0).open_ = false
  addr : (peerAt s 0).addr = f.srcAddr
  port : (peerAt s 0).port = f.srcPort
  sender : (peerAt s 0).sender = f.sender

/-- The responder once a frame is taken: its number is received, its acknowledgements are taken, its source is answered. -/
def responderTook (s : State) (f : Frame) (c n : Nat) : State :=
  let s2 := takeAck (seqTake s 0 c n) 0 c f.ack.toNat f.sack.toNat
  { s2 with net := { s2.net with firstMac := f.srcMac } }

theorem respAccept_take {f : Frame} (h : RespAdmits s f) {c n : Nat} (hn : seqAct (seqOf s 0 c) f.seq.toNat = .take n) :
    respAccept s f c = (responderTook s f c n, true) := by
  simp [respAccept, responderTook, h.ver, h.len, h.linkLocal, h.bound, h.addr, h.port, h.sender, hn, Nat.not_lt.mpr h.size]

theorem responderTook_leaves (s : State) (f : Frame) (c n : Nat) :
    (responderTook s f c n).sec = s.sec ∧ (responderTook s f c n).dies = s.dies :=
  ⟨takeAck_get _ _ _ _ _ State.sec, takeAck_get _ _ _ _ _ State.dies⟩

theorem responderTook_ackDue (s : State) (f : Frame) {c : Nat} (hc : c < 5) (n : Nat) :
    (seqOf (responderTook s f c n) 0 c).ackDue = some ((seqOf s 0 c).ackDue.getD (s.laps.now + 1880)) := by
  have hack := takeAck_get (seqTake s 0 c n) 0 c f.ack.toNat f.sack.toNat fun u => (seqOf u 0 c).ackDue
  have htake : seqOf (seqTake s 0 c n) 0 c = _ := seqOf_setSeqOf_self s (by decide) hc _
  rw [seqOf_setSeqOf_self _ (by decide) hc, htake] at hack
  exact hack

theorem execRecoveryDirectWrite_take (hr : s.sec.responder = true) (hc : s.sec.commit = none) {f : Frame} (hcls : f.cls = 2)
    (hty : f.type = 3) (h : RespAdmits s f) {n : Nat} (hn : seqAct (seqOf s 0 1) f.seq.toNat = .take n) :
    execRecoveryDirectWrite f s = .next (stageImage (responderTook s f 1 n) f.payload) := by
  simp [execRecoveryDirectWrite, hr, hc, hcls, hty, respAccept_take h hn]

/-! ### Programming an image (R428) -/

/-- The flash once the staged image of `len` bytes is programmed. -/
def programmed (s : State) (len : Nat) : Mem :=
  memWrite (memClear s.sec.flash 0 0x1000000) 0 (memRead s.sec.staging 0 (min len 0x1000000))

/-- The module with the image programmed. -/
def State.programs (s : State) (len : Nat) : State := { s with sec := { s.sec with flash := programmed s len, commit := none } }

theorem execFlashProgramDone_checked (hr : s.sec.responder = true) {req : CmdReq} {len : Nat} (hc : s.sec.commit = some (req, len)) :
    execFlashProgramDone s = match verifyImage (s.programs len).sec (programmed s len) true with
      | .inl r => .next (respondReply (s.programs len) req 0x0A 0x05 r)
      | .inr _ => .next (moduleReset (respondReply (s.programs len) req 0x0A 0x00 s.sec.reason) 4) := by
  rw [execFlashProgramDone, if_pos hr, hc]
  rfl

end

/-- Settles O54: a reset by `resetFrom_moduleReset`, the responder's answers by `respondReply_sent`, a staged image by
`responderTook_leaves` and `stageImage_fits`, a programmed one by the outcome of its check. -/
theorem resetAndRecoveryAct : Obligations.ResetAndRecoveryAct := by
  intro s req fresh respond
  have hreset : ResetFrom s (moduleReset s 2) 2 := resetFrom_moduleReset s s.net s.sec.flash s.sec.commit 2
  refine ⟨fun hon hcut => ⟨_, congrArg Host.Outcome.next (command_at_cut hon hcut _ _), hreset, rfl, moduleReset_flash 2⟩,
    fun hr => ⟨fun hc => ⟨_, congrArg Host.Outcome.next ((command_responder hr _ _).trans (unlessCommit_none hc _)), hreset⟩,
      fun hc => congrArg Host.Outcome.next ((command_responder hr _ _).trans (unlessCommit_some hc _)),
      ⟨_, congrArg Host.Outcome.next (command_responder hr _ _), respondReply_sent hr .., rfl, rfl⟩, fun hc len => ?_, ?_, ?_⟩⟩
  · refine ⟨_, congrArg Host.Outcome.next ((command_responder hr _ _).trans (unlessCommit_none hc _)), ?_⟩
    rw [responderCommit]
    cases verifyImage s.sec s.sec.staging true with
    | inl r => exact ⟨rfl, .inl ⟨r, rfl, respondReply_sent hr .., rfl⟩⟩
    | inr v => exact ⟨rfl, .inr ⟨v, rfl, rfl⟩⟩
  · intro f n hc hcls hty hver hlen hlink hsize hbound haddr hport hsender hn o b ho hb hfit
    have hadmits : RespAdmits s f := ⟨hver, hlen, hlink, hsize, hbound, haddr, hport, hsender⟩
    obtain ⟨hsec, hdies⟩ := responderTook_leaves s f 1 n
    refine ⟨_, (execRecoveryDirectWrite_take hr hc hcls hty hadmits hn).trans (congrArg _ (stageImage_fits ho hb hfit)), ?_, rfl, hdies,
      responderTook_ackDue s f (by decide) n⟩
    rw [hsec]
  · intro len hc flash
    rw [show exec .flashProgramDone s = _ from execFlashProgramDone_checked hr hc]
    have hr' : (s.programs len).sec.responder = true := hr
    have hflash : { s.sec with flash := flash, commit := none } = (s.programs len).sec := rfl
    rw [hflash]
    cases hv : verifyImage (s.programs len).sec (programmed s len) true with
    | inl r => exact ⟨_, rfl, rfl, rfl, .inl ⟨r, hv, respondReply_sent hr' .., hr⟩⟩
    | inr v => exact ⟨_, rfl, rfl, rfl, .inr ⟨v, hv, respondReply_sent hr' .., resetFrom_moduleReset s _ (programmed s len) none 4⟩⟩

end Sys2Proof.Machine

/-! PROOFS. Split headers and controlled stops (R271, R352, R384, R395). -/
namespace Sys2Proof.Machine

/-! ### Writing whole blocks of the near tier (R320, R384) -/

section
variable {d : Die} {far : Bool} {o : Nat} {bs : List Byte}

/-- A block that is written whole is not read first. -/
theorem wrote_wholeBlock {b : Nat} (h : min (o + bs.length) (256 * (b + 1)) - max o (256 * b) = 256) (s : State) :
    Wrote d far o bs [b] s (blockWrite d far o bs s b) := by
  have he : blockWrite d far o bs s b = tierWrite s d far (max o (256 * b)) (blockPart o bs b) := if_pos h
  rw [he, tierWrite_eq]
  refine wrote_store (tierWrite_eq s .. ▸ Written.tierWrite (.refl s) ..) (noteWrite_get _ _ _ State.laps) ?_ fun e x hx => ?_
  · rw [noteWrite_die, State.setTier_tier_self]
  · rw [noteWrite_die, State.setTier_tier_other s _ hx]

theorem wrote_wholeBlocks (ho : o % 256 = 0) (hn : bs.length % 256 = 0) (l : List Nat) (hl : ∀ b ∈ l, b ∈ blocksOf o bs.length)
    (s : State) : Wrote d far o bs l s (l.foldl (blockWrite d far o bs) s) := by
  induction l generalizing s with
  | nil => exact .nil s
  | cons b l ih =>
    have hb := mem_blocksOf.mp (hl b List.mem_cons_self)
    exact (wrote_wholeBlock (by omega) s).trans (ih (fun x hx => hl x (List.mem_cons_of_mem b hx)) _)

end

/-- From `s` to `t` the bytes `bs` were written at the near-tier address `a`, and nothing else of the tiers changed. -/
structure StoredNear (a : Nat) (bs : List Byte) (s t : State) : Prop where
  written : Written s t
  laps : t.laps = s.laps
  wf : (∀ e, (s.die e).near.memWf) → ∀ e, (t.die e).near.memWf
  mem : (∀ e, (s.die e).near.memWf) → ∀ (e : Die) (o : Nat), o < 2 ^ 35 → memGet (t.die e).near.mem o =
    if a ≤ e.val * 2 ^ 35 + o ∧ e.val * 2 ^ 35 + o < a + bs.length then nth bs (e.val * 2 ^ 35 + o - a) 0
    else memGet (s.die e).near.mem o
  far : ∀ e, (t.die e).far = (s.die e).far

theorem StoredNear.append {a : Nat} {xs ys : List Byte} {s t u : State} (h : StoredNear a xs s t)
    (g : StoredNear (a + xs.length) ys t u) : StoredNear a (xs ++ ys) s u where
  written := h.written.trans g.written
  laps := g.laps.trans h.laps
  wf hw := g.wf (h.wf hw)
  mem hw e o ho := by
    rw [g.mem (h.wf hw) e o ho, h.mem hw e o ho, List.length_append]
    by_cases hys : a + xs.length ≤ e.val * 2 ^ 35 + o ∧ e.val * 2 ^ 35 + o < a + xs.length + ys.length
    · rw [if_pos hys, if_pos (by omega), nth, nth, List.getElem?_append_right (by omega)]
      congr 2
      omega
    · rw [if_neg hys]
      by_cases hxs : a ≤ e.val * 2 ^ 35 + o ∧ e.val * 2 ^ 35 + o < a + xs.length
      · rw [if_pos hxs, if_pos (by omega), nth, nth, List.getElem?_append_left (by omega)]
      · rw [if_neg hxs, if_neg (by omega)]
  far e := (g.far e).trans (h.far e)

theorem devLocate_near {a : Nat} (h : a < 2 ^ 39) : devLocate a = some (false, a / 2 ^ 35, a % 2 ^ 35) := by
  have h41 : a / 2 ^ 41 = 0 := by omega
  have h40 : bitAt a 40 = false := by rw [bitAt_eq_mod]; exact decide_eq_false (by omega)
  have h39 : bitAt a 39 = false := by rw [bitAt_eq_mod]; exact decide_eq_false (by omega)
  have hd : a / 2 ^ 35 % 16 = a / 2 ^ 35 := Nat.mod_eq_of_lt (by omega)
  rw [devLocate, if_neg (not_not.mpr h41), h40, h39, hd]
  rfl

/-- Whole blocks within one die's near tier. -/
theorem storedNear_devWrite {a : Nat} {bs : List Byte} (ha : a % 256 = 0) (hn : bs.length % 256 = 0) (hlt : a < 2 ^ 39)
    (hfit : a % 2 ^ 35 + bs.length ≤ 2 ^ 35) (s : State) : StoredNear a bs s (devWrite s a bs) := by
  obtain ⟨d, hd⟩ : ∃ d : Die, d.val = a / 2 ^ 35 := ⟨⟨a / 2 ^ 35, by omega⟩, rfl⟩
  have hw : Wrote d false (a % 2 ^ 35) bs (blocksOf (a % 2 ^ 35) bs.length) s (devWrite s a bs) := by
    rw [devWrite, devLocate_near hlt, ← hd]
    dsimp only
    rw [dieOf_val]
    exact wrote_wholeBlocks (by omega) hn _ (fun b hb => hb) s
  have hsame (e : Die) (he : e ≠ d) : ((devWrite s a bs).die e).near = (s.die e).near := hw.other e false (.inl he)
  refine ⟨hw.written, hw.laps, fun h e => ?_, fun h e o ho => ?_, fun e => hw.other e true (.inr (by decide))⟩
  · by_cases he : e = d
    · exact he ▸ hw.wf (h d)
    · exact hsame e he ▸ h e
  · by_cases he : e = d
    · subst he
      refine (hw.mem (h e) o).trans ?_
      have hsub : e.val * 2 ^ 35 + o - a = o - a % 2 ^ 35 := by omega
      by_cases hin : a % 2 ^ 35 ≤ o ∧ o < a % 2 ^ 35 + bs.length
      · rw [if_pos ⟨hin, block_mem_blocksOf hin.1 hin.2⟩, if_pos (by omega), hsub]
      · rw [if_neg fun hc => hin hc.1, if_neg (by omega)]
        rfl
    · have hne : e.val ≠ d.val := fun h => he (Fin.ext h)
      rw [hsame e he, if_neg (by omega)]

/-- Whole blocks of the near tiers, over the end of one die's into the next. -/
theorem storedNear_nearWrite {a : Nat} {bs : List Byte} (ha : a % 256 = 0) (hn : bs.length % 256 = 0)
    (hfit : a + bs.length ≤ 2 ^ 39) (hpos : 0 < bs.length) (hlen : bs.length ≤ 2 ^ 35) (s : State) : StoredNear a bs s (nearWrite s a bs) := by
  unfold nearWrite
  extract_lets m
  by_cases hm : bs.length ≤ m
  · rw [if_pos hm]
    exact storedNear_devWrite ha hn (by omega) (by omega) s
  · rw [if_neg hm]
    have htake : (bs.take m).length = m := by rw [List.length_take]; omega
    have h1 : StoredNear a (bs.take m) s (devWrite s a (bs.take m)) := storedNear_devWrite ha (by omega) (by omega) (by omega) s
    have h2 : StoredNear (a + (bs.take m).length) (bs.drop m) (devWrite s a (bs.take m))
        (devWrite (devWrite s a (bs.take m)) (a + m) (bs.drop m)) := by
      rw [htake]
      have hdrop := List.length_drop (i := m) (l := bs)
      exact storedNear_devWrite (by omega) (by omega) (by omega) (by omega) _
    have h3 := h1.append h2
    rwa [List.take_append_drop] at h3

/-! ### SPLIT_HEADER_WRITTEN (R384) -/

section
variable {s : State} {g : SplitImage} {k : SplitCfg}

/-- What a split header and its die blocks leave when they are written. -/
theorem execSplitHeaderWritten_writes (hg : s.split.image = some g) (hk : splitCfgOf s = some k) (hd : s.split.hdrDone = false)
    {u : State} (hu : nearWrite s (hdrOf k g.side) (headerBytes s g ++ g.dies.flatten) = u) :
    execSplitHeaderWritten s = .next { u with split := { u.split with hdrDone := true } } := by
  simp only [execSplitHeaderWritten, writeHeader, hg, hk, hd, hu, Bool.false_eq_true, if_false]

theorem execSplitHeaderWritten_done (hd : s.split.hdrDone = true) : execSplitHeaderWritten s = .next s := by
  rw [execSplitHeaderWritten, writeHeader]
  split
  · rw [if_pos hd]
  · rfl

end

/-! ### The slots of a lap that commits (R350, R352) -/

/-- Every slot that a walk has ended knows its lap. -/
def SlotWalk.dated (w : SlotWalk) : Prop := ∀ x ∈ w.ended, x.ended ≠ none

theorem walkOpen_ended (w : SlotWalk) (id lap : Nat) : (walkOpen w id lap).ended = w.ended := by
  unfold walkOpen
  split <;> rfl

theorem walkIn_dated {w : SlotWalk} (h : w.dated) (lap : Nat) (x : Ingress) : (walkIn lap w x).dated :=
  fun y hy => h y (walkOpen_ended w x.slot lap ▸ hy)

theorem walkOut_dated {w : SlotWalk} (h : w.dated) (lap : Nat) (x : Egress) : (walkOut lap w x).dated := by
  intro y hy
  unfold walkOut at hy
  extract_lets w1 at hy
  have h1 : w1.ended = w.ended := walkOpen_ended w x.slot lap
  split at hy
  · rcases List.mem_append.mp hy with hy | hy
    · exact h y (h1 ▸ hy)
    · obtain ⟨z, -, rfl⟩ := List.mem_map.mp hy
      exact Option.some_ne_none lap
  · exact h y (h1 ▸ hy)

theorem commitSlots_dated (s : State) : ∀ x ∈ (commitSlots s).mladar.ended, x.ended ≠ none := by
  unfold commitSlots
  extract_lets lap recs held w0 ins w1 out w2
  have h0 : w0.dated := nofun
  have h1 : w1.dated := List.foldlRecOn ins _ h0 fun _ hw x _ => walkIn_dated hw lap x
  exact List.foldlRecOn (motive := SlotWalk.dated) out _ h1 fun _ hw x _ => walkOut_dated hw lap x

/-- The slots that a lap of a run ends know their lap once it commits. -/
theorem commitLap_dated {s : State} (hc : s.laps.committed = false) (hf : s.laps.lapFault = false) (hr : runLapOpen s = true) :
    ∀ x ∈ (commitLap s).mladar.ended, x.ended ≠ none := by
  have hopen : runLapOpen (lapRegs s) = true := ((lapRegs_passed s).get runLapOpen).trans hr
  have hpass : ∃ u, (passLap (lapRegs s)).mladar = (commitSlots u).mladar := by
    unfold passLap
    extract_lets s1 s2 s3 s4
    have h4 : s4 = commitSlots s3 := if_pos hopen
    exact ⟨s3, (congrArg State.mladar h4 :)⟩
  obtain ⟨u, hu⟩ := hpass
  rw [commitLap_eq hc, if_neg (hf ▸ Bool.false_ne_true)]
  intro x hx
  exact commitSlots_dated u x (hu ▸ hx)

/-! ### The end of a run (R271, R352) -/

theorem settleTier_written (s : State) (d : Die) (far : Bool) : Written s (settleTier s d far) :=
  Leaves.foldl (fun _ _ => Written.atomDrain (.refl _) ..) _ (.refl s)

theorem settleAtoms_written (s : State) : Written s (settleAtoms s) :=
  Leaves.foldl (fun u d => (settleTier_written u d false).trans (settleTier_written _ d true)) _ (.refl s)

/-- What changing each die does to that die, the others left alone. -/
theorem forDies_each {P : DieSt → Prop} {f : State → Die → State} (hself : ∀ s d, P ((f s d).die d))
    (hother : ∀ s d e, e ≠ d → (f s d).die e = s.die e) (s : State) (e : Die) : P ((forDies f s).die e) := by
  have hkeep (l : List Die) (t : State) (ht : P (t.die e)) : P ((l.foldl f t).die e) := by
    refine List.foldlRecOn (motive := fun u => P (u.die e)) l f ht fun u hu d _ => ?_
    by_cases he : e = d
    · exact he ▸ hself u e
    · exact (hother u d e he).symm ▸ hu
  obtain ⟨l1, l2, hl⟩ := List.append_of_mem (List.mem_finRange e)
  rw [forDies, hl, List.foldl_append, List.foldl_cons]
  exact hkeep l2 _ (hself _ e)

theorem idleDie_idle (s : State) (d : Die) : ((idleDie s d).die d).memQ = [] ∧ ((idleDie s d).die d).seq = Seq.init := by
  rw [idleDie, State.setDie_die_self]
  exact ⟨rfl, rfl⟩

/-- The module with its dies idle: the atomics that waited have acted. -/
def State.idled (s : State) : State := forDies idleDie (settleAtoms s)

theorem idled_die (s : State) (d : Die) : (s.idled.die d).memQ = [] ∧ (s.idled.die d).seq = Seq.init :=
  forDies_each (P := fun x => x.memQ = [] ∧ x.seq = Seq.init) idleDie_idle (fun _ _ _ h => State.setDie_die_other _ _ h) _ d

/-- A part of the module that lies in no die and that no write of memory changes. -/
theorem idled_get {α : Type} (s : State) (part : State → α) (hp : ∀ u : State, part u.outline = part u := by intros; rfl)
    (hd : ∀ (u : State) d x, part (u.setDie d x) = part u := by intros; rfl) : part s.idled = part s :=
  (forDies_leaves part (fun u d => hd u d _) _).trans ((settleAtoms_written s).get part hp)

/-- What the end of a run leaves. -/
structure RunEnded (s : State) (r : RunCfg) (reason : Nat) (t : State) : Prop where
  run : t.run.run = none
  last : t.run.last = some r
  endReason : t.split.endReason = reason
  stop : t.split.stop = false
  slots : t.mladar.slots = []
  ingress : t.net.ingress = []
  data : t.fabric.data = []
  sends : t.fabric.sends = []
  signals : t.fabric.signals = []
  moduleLap : t.laps.moduleLap = s.laps.moduleLap
  committed : t.laps.committed = s.laps.committed
  dies : ∀ d, (t.die d).memQ = [] ∧ (t.die d).seq = Seq.init

theorem endRun_eq {s : State} {r : RunCfg} (hr : s.run.run = some r) (reason c : Nat) : RunEnded s r reason (endRun s reason c) ∧
    (r.records = true → (endRun s reason c).mladar.ended =
      s.mladar.ended ++ s.mladar.slots.map fun x => { x with ended := some c, unterm := true }) := by
  have hdies := idled_die s
  have hlap := idled_get s fun u => u.laps.moduleLap
  have hdone := idled_get s fun u => u.laps.committed
  have hended := idled_get s fun u => u.mladar.ended
  rw [endRun, hr]
  extract_lets s1 slots
  change ∀ d, (s1.die d).memQ = [] ∧ (s1.die d).seq = Seq.init at hdies
  change s1.laps.moduleLap = _ at hlap
  change s1.laps.committed = _ at hdone
  change s1.mladar.ended = _ at hended
  clear_value s1
  refine ⟨⟨rfl, rfl, rfl, rfl, rfl, rfl, rfl, rfl, rfl, hlap, hdone, hdies⟩, fun hrec => ?_⟩
  rw [← hended]
  exact if_pos hrec

/-! ### CONTROLLED_STOP (R395, R449) -/

/-- A stop takes at most a split, and ends the run with reason 4. -/
theorem stopRun_eq (s : State) : ∃ u, SplitTaken s u ∧ stopRun s = endRun u 4 s.laps.runLap := by
  refine ⟨_, ?_, rfl⟩
  split
  · exact .ite (takeSplit_splitTaken ..) (.refl s)
  · exact .refl s

theorem execControlledStop_due {s : State} (hlen : s.laps.len ≤ s.laps.cyc) (hopen : runLapOpen s = true) (hstop : stopDue s = true)
    (hfault : s.laps.lapFault = false) (hends : runEnds (commitLap s) = false) :
    execControlledStop s = .next (stopRun (commitLap s)) := by
  simp [execControlledStop, hlen, hopen, hstop, hfault, hends]

/-- Settles O47: whole blocks are stored by `storedNear_nearWrite`; a run ends by `endRun_eq`, after its lap commits
(`commitLap_passed`, `commitLap_dated`). -/
theorem splitHeadersAndStops : Obligations.SplitHeadersAndStops := by
  intro s
  refine ⟨fun g k hmem hg hk => ?_, fun r hlen hopen hstop hfault hr hc hlate => ?_⟩
  · intro h b halign hfit hlen
    refine ⟨fun hd => ?_, execSplitHeaderWritten_done⟩
    obtain ⟨u, hu⟩ : ∃ u, nearWrite s h b = u := ⟨_, rfl⟩
    have hw : StoredNear h b s u := hu ▸ storedNear_nearWrite halign (by omega) (by omega) (by omega) (by omega) s
    have hexec := execSplitHeaderWritten_writes hg hk hd hu
    have hmem := hw.mem fun d => hmem.tier d false
    rw [hlen] at hmem
    exact ⟨_, hexec, hmem, rfl, hw.laps, hw.written.get State.net, fun e =>
      ⟨hw.far e, hw.written.die e DieSt.cores, hw.written.die e DieSt.seq⟩⟩
  · have hpass : Passed s.noted.counted.over (commitLap s) := commitLap_passed hc hfault
    have hnot : allFinal (commitLap s) = false := by
      obtain ⟨d, hd⟩ := hlate
      exact allFinal_false.mpr ⟨d, (hpass.die d fun x => x.seq.ended && x.seq.final).trans hd⟩
    obtain ⟨u, hu, hstopped⟩ := stopRun_eq (commitLap s)
    have hrun : u.run.run = some r := (hu.get fun v => v.run.run).trans ((hpass.get fun v => v.run.run).trans hr)
    have hdated : ∀ x ∈ u.mladar.ended, x.ended ≠ none := (hu.get State.mladar).symm ▸ commitLap_dated hc hfault hopen
    obtain ⟨he, hslots⟩ := endRun_eq hrun 4 (commitLap s).laps.runLap
    refine ⟨_, (execControlledStop_due hlen hopen hstop hfault (runEnds_of_not_final hnot)).trans (congrArg _ hstopped), he.run, he.last,
      he.endReason, he.stop, he.slots, he.ingress, he.data, he.sends, he.signals,
      he.committed.trans ((hu.get fun v => v.laps.committed).trans (hpass.get fun v => v.laps.committed)),
      he.moduleLap.trans ((hu.get fun v => v.laps.moduleLap).trans (hpass.get fun v => v.laps.moduleLap)), he.dies, fun hrec x hx => ?_⟩
    rw [hslots hrec] at hx
    rcases List.mem_append.mp hx with hx | hx
    · exact hdated x hx
    · obtain ⟨y, -, rfl⟩ := List.mem_map.mp hx
      exact Option.some_ne_none _

end Sys2Proof.Machine

/-! PROOFS. What each detected fault counts, marks and records, how records are queued, and the patrol (R361 to R373, R458). -/
namespace Sys2Proof.Machine

/-! ### Records and their actions (R365, Table 16-1) -/

/-- A list holds a record of a cause on a die in a cycle whose `ACTION` has the bits `act`. -/
def RecordActs (l : List FaultRec) (cause die at_ act : Nat) : Prop :=
  ∃ r ∈ l, r.cause = cause ∧ r.die = die ∧ r.at_ = at_ ∧ r.action &&& act = act

/-- The lap has a fault, and such a record is detected. -/
def FoundActing (t : State) (cause die at_ act : Nat) : Prop := t.laps.lapFault = true ∧ RecordActs t.faults.detected cause die at_ act

theorem or_covers {b act : Nat} (a : Nat) (h : b &&& act = act) : (a ||| b) &&& act = act := by
  refine Nat.eq_of_testBit_eq fun i => ?_
  have hi := congrArg (Nat.testBit · i) h
  simp only [Nat.testBit_and, Nat.testBit_or, Bool.and_eq_right_iff_imp] at hi ⊢
  exact fun ha => by rw [hi ha, Bool.or_true]

/-- Merging keeps the bits of a record, but for WORD_ECC on several cores of a die, which resets it. -/
theorem mergedAction_covers {x r : FaultRec} {act : Nat} (h : r.action &&& act = act) (h8 : x.cause = 8 → 5 &&& act = act) :
    mergedAction x r &&& act = act := by
  unfold mergedAction
  split
  next hm => exact h8 hm.1
  next => exact or_covers _ h

theorem acts_mergeRec_self {r : FaultRec} {act : Nat} (h : r.action &&& act = act) (h8 : r.cause = 8 → 5 &&& act = act)
    (l : List FaultRec) : RecordActs (mergeRec r l) r.cause r.die r.at_ act := by
  induction l with
  | nil => exact ⟨r, List.mem_singleton_self r, rfl, rfl, rfl, h⟩
  | cons x l ih =>
    unfold mergeRec
    split
    next hm =>
      obtain ⟨hc, hd, ha, -⟩ := hm
      refine ⟨_, List.mem_cons_self, ?_, ?_, ?_, mergedAction_covers h fun hx => h8 (hc ▸ hx)⟩
      · dsimp only; split <;> simp [hc]
      · dsimp only; split <;> simp [hd]
      · dsimp only; split <;> simp [ha]
    next =>
      obtain ⟨y, hy, hacts⟩ := ih
      exact ⟨y, List.mem_cons_of_mem x hy, hacts⟩

/-- A record of another cause leaves those of this one. -/
theorem RecordActs.mergeRec {l : List FaultRec} {c d a act : Nat} (h : RecordActs l c d a act) {r : FaultRec} (hr : r.cause ≠ c) :
    RecordActs (mergeRec r l) c d a act := by
  obtain ⟨y, hy, hacts⟩ := h
  refine ⟨y, ?_, hacts⟩
  induction l with
  | nil => cases hy
  | cons x l ih =>
    unfold Machine.mergeRec
    split
    next hm =>
      rcases List.mem_cons.mp hy with rfl | hy
      · exact absurd (hm.1.symm.trans hacts.1) hr
      · exact List.mem_cons_of_mem _ hy
    next =>
      rcases List.mem_cons.mp hy with rfl | hy
      · exact List.mem_cons_self
      · exact List.mem_cons_of_mem x (ih hy)

theorem foundActing_addFault (s : State) {r : FaultRec} {act : Nat} (h : r.action &&& act = act)
    (h8 : r.cause = 8 → 5 &&& act = act) : FoundActing (addFault s r) r.cause r.die r.at_ act :=
  ⟨rfl, acts_mergeRec_self h h8 _⟩

theorem FoundActing.addFault {t : State} {c d a act : Nat} (h : FoundActing t c d a act) {r : FaultRec} (hr : r.cause ≠ c) :
    FoundActing (addFault t r) c d a act :=
  ⟨rfl, h.2.mergeRec hr⟩

/-- The first record of a lap stands alone. -/
theorem addFault_first {s : State} (h : s.faults.detected = []) (r : FaultRec) : (addFault s r).faults.detected = [r] := by
  rw [addFault, h]
  rfl

/-- WORD_ECC on a second core of a die in one cycle resets the die (Table 16-1). -/
theorem addFault_wordEcc {s : State} {x r : FaultRec} (h : s.faults.detected = [x]) (hx : x.cause = 8) (hcls : x.cls = 1)
    (hr : r.cause = 8) (hd : x.die = r.die) (hlt : r.die < 0xFF) (ha : x.at_ = r.at_) (hcore : x.core ≠ r.core) :
    ∃ y, (addFault s r).faults.detected = [y] ∧ y.action = 5 := by
  have hmerge : x.cause = r.cause ∧ x.die = r.die ∧ x.at_ = r.at_ ∧ x.die ≠ 0xFF := ⟨hx.trans hr.symm, hd, ha, by omega⟩
  have haction : mergedAction x r = 5 := if_pos ⟨hx, hcls, hcore⟩
  rw [addFault, h]
  exact ⟨_, if_pos hmerge, haction⟩

section
variable {s : State}

/-! ### Detection in laps (R361, R367) -/

theorem execFaultDetected_laps (hp : s.power.phase = .laps) (hr : s.sec.responder = false) (det : Detection) :
    execFaultDetected det s = .next (detect s det) := by
  simp [execFaultDetected, hp, hr]

theorem execFaultDetected_boot (hp : s.power.phase = .boot) (hr : s.sec.responder = false) :
    execFaultDetected .hub s = .next (if s.sec.extest then s else bringupRestart s) := by
  simp [execFaultDetected, hp, hr]

/-- The die notes that WORD_ECC was detected (Table 11-12). -/
def State.seesWordEcc (s : State) (d : Die) : State :=
  s.setDie d { s.die d with regs := { (s.die d).regs with wordEccSeen := true, setNow := (s.die d).regs.setNow ||| 0x100 } }

theorem coreFault_unmapped {d : Die} {i : Nat} (h : physOf s d i = none) (cause unit detail addr : Nat) :
    coreFault s d i cause unit detail addr = s := by
  simp [coreFault, h]

/-- A fault of a core that the map places is recorded with abort and fence; WORD_ECC is noted by its die. -/
theorem coreFault_mapped {d : Die} {i : Nat} (h : physOf s d i ≠ none) (cause unit detail addr : Nat) :
    coreFault s d i cause unit detail addr =
      let u := if cause = 8 then s.seesWordEcc d else s
      addFault u (mkRec u 1 cause d (some i) unit detail addr 3) := by
  rw [coreFault, if_neg (by simpa using h)]
  rfl

theorem seesWordEcc_cores (d e : Die) : ((s.seesWordEcc d).die e).cores = (s.die e).cores := by
  rw [State.seesWordEcc, State.setDie_die]
  split <;> simp_all

theorem detCode_eq_wordEcc {c : DetCause} : detCode c = 8 ↔ c = .wordEcc := by cases c <;> decide

/-- A fault of a core. -/
theorem coreFault_finds (d : Die) (c : DetCause) {i : Nat} (h : physOf s d i ≠ none) (unit detail addr : Nat) :
    let t := coreFault s d i (detCode c) unit detail addr
    FoundActing t (detCode c) d s.laps.now (if c = .wordEcc then 1 else 3) ∧ (∀ e, (t.die e).cores = (s.die e).cores) ∧
      (∀ x : FaultRec, s.faults.detected = [x] → c = .wordEcc → x.cause = 8 → x.cls = 1 → x.die = d → x.at_ = s.laps.now →
        i < sideN s * sideN s → x.core ≠ coreAddr (sideN s) d i → ∃ r, t.faults.detected = [r] ∧ r.action = 5) ∧
      (s.faults.detected = [] → ∃ r, t.faults.detected = [r] ∧ r.cls = 1 ∧
        r.core = (if i < sideN s * sideN s then coreAddr (sideN s) d i else 0xFFFFF) ∧
        r.unit = unit ∧ r.detail = detail ∧ r.address = addr ∧ r.moduleLap = s.laps.moduleLap ∧ r.action = 3 ∧ r.more = 0) := by
  intro t
  have ht : t = _ := coreFault_mapped h (detCode c) unit detail addr
  obtain ⟨u, hu⟩ : ∃ u, u = if detCode c = 8 then s.seesWordEcc d else s := ⟨_, rfl⟩
  have hfaults : u.faults = s.faults := by rw [hu]; split <;> rfl
  have hlaps : u.laps = s.laps := by rw [hu]; split <;> rfl
  have hside : sideN u = sideN s := by rw [hu]; split <;> rfl
  have hcores (e : Die) : (u.die e).cores = (s.die e).cores := by
    rw [hu]
    split
    · exact seesWordEcc_cores d e
    · rfl
  rw [← hu] at ht
  clear_value t
  subst ht
  refine ⟨?_, hcores, fun x hl hc hx hcls hd ha hi hcore => ?_, fun hl => ⟨_, addFault_first (hfaults ▸ hl) _, rfl, ?_, rfl, rfl, rfl,
    congrArg Laps.moduleLap hlaps, rfl, rfl⟩⟩
  · rw [← hlaps]
    refine foundActing_addFault u (r := mkRec u 1 (detCode c) d (some i) unit detail addr 3) ?_ fun h8 => ?_
    · split
      · exact show 3 &&& 1 = 1 by decide
      · exact show 3 &&& 3 = 3 by decide
    · rw [if_pos (detCode_eq_wordEcc.mp h8)]
      decide
  · refine addFault_wordEcc (hfaults ▸ hl) hx hcls (detCode_eq_wordEcc.mpr hc) hd ?_ (ha.trans (congrArg Laps.now hlaps).symm) ?_
    · exact Nat.lt_trans d.isLt (by decide)
    · simpa [mkRec, hside, hi] using hcore
  · rw [← hside]
    rfl

/-- A fault of a die is recorded with abort and die reset, and noted by the die (Tables 11-12, 16-1). -/
theorem dieFault_finds (d : Die) (c : DetCause) (unit : Nat) :
    let t := dieFault s d (detCode c) unit
    FoundActing t (detCode c) d s.laps.now 5 ∧ (c = .seqLockstep → (t.die d).regs.lockstepSeen = true) ∧
      (c = .wordEcc → (t.die d).regs.wordEccSeen = true) := by
  unfold dieFault
  extract_lets q x s1 r p t
  have hrec (y : FaultRec) (hy : y.action = 5) (hc : y.cause = detCode c) (hd : y.die = d) (ha : y.at_ = s.laps.now) :
      FoundActing (addFault s1 y) (detCode c) d s.laps.now 5 := by
    have hfound := foundActing_addFault s1 (r := y) (act := 5) (by rw [hy]; decide) fun _ => by decide
    rwa [hc, hd, ha] at hfound
  refine ⟨?_, fun hc => ?_, fun hc => ?_⟩
  · unfold t
    split
    · exact hrec _ rfl rfl rfl rfl
    · split
      · exact hrec _ rfl rfl rfl rfl
      · exact hrec _ rfl rfl rfl rfl
  · rw [show t.die d = _ from State.setDie_die_self s d _]
    simp [hc, detCode]
  · rw [show t.die d = _ from State.setDie_die_self s d _]
    simp [hc, detCode]

/-! ### Links, channels and the hub (R372, R373) -/

theorem getLsbD_or_bit (x : BitVec 28) (n : Fin 28) : (x ||| BitVec.ofNat 28 (2 ^ n.val)).getLsbD n = true := by
  rw [BitVec.getLsbD_or, BitVec.getLsbD_ofNat, Nat.testBit_two_pow_self, decide_eq_true n.isLt, Bool.and_self, Bool.or_true]

/-- A residual error on a link drops what crosses it, and the link is to be retrained; it fails at its fourth. -/
theorem linkFault_finds (n : Fin 28) :
    let t := linkFault s n
    FoundActing t 10 0xFF s.laps.now 1 ∧ t.dies = s.dies ∧ t.fabric.data = s.fabric.data.filter (fun y => !crossesNow s n y) ∧
      t.fabric.linkErrors[n] = s.fabric.linkErrors[n] + 1 ∧ t.faults.toRetrain.getLsbD n = true ∧
      (3 ≤ s.fabric.linkErrors[n] → t.fabric.linkFailed.getLsbD n = true) ∧
      (s.fabric.linkErrors[n] < 3 → t.fabric.linkFailed = s.fabric.linkFailed) := by
  unfold linkFault
  extract_lets u e bad fabric faults s1 r t
  have hact : (if bad then 0x61 else 1) &&& 1 = 1 := by cases bad <;> decide
  have hfound : FoundActing t 10 0xFF s.laps.now 1 :=
    foundActing_addFault s1 (r := { r with die := 0xFF, pc := 0xFFFFFFFF }) hact fun h => absurd h (show (10 : Nat) ≠ 8 by decide)
  refine ⟨hfound, rfl, rfl, Vector.getElem_set_self n.isLt, getLsbD_or_bit .., fun h => ?_, fun h => ?_⟩
  · have hbad : bad = true := decide_eq_true (Nat.succ_le_succ h)
    rw [show t.fabric.linkFailed = _ from if_pos hbad]
    exact getLsbD_or_bit ..
  · have hbad : bad ≠ true := Bool.eq_false_iff.mp (decide_eq_false (Nat.not_le.mpr (Nat.succ_lt_succ h)))
    exact if_neg hbad

/-- `ACTION` of a channel fault: the lap is aborted; a channel that has not failed is reset, and at its third reset fails. -/
theorem startChanReset_action (s : State) (d : Die) (far : Bool) (ch : Fin 20) :
    let a := (startChanReset s d far ch.val).2
    (((s.die d).tier far).chans[ch].failed = true ∧ a = 1) ∨
      (((s.die d).tier far).chans[ch].failed = false ∧ (a = 9 ∨ a = 0x19 ∨ a = 0x59)) := by
  rw [← vget_fin _ ch Chan.init]
  unfold startChanReset
  dsimp only
  split
  next hf => exact .inl ⟨hf, rfl⟩
  next hf =>
    refine .inr ⟨Bool.eq_false_iff.mpr hf, ?_⟩
    split
    · dsimp only
      unfold failBits
      split
      · exact .inr (.inr (by decide))
      · exact .inr (.inl (by decide))
    · exact .inl rfl

/-- An error of a channel beside CH_RESET resets the channel, unless it has failed, and both are recorded. -/
theorem chanFault_finds (d : Die) (far : Bool) (ch : Fin 20) (addr : Nat) :
    let t := chanFault s 13 d far ch.val addr
    FoundActing t 13 d s.laps.now 1 ∧ (((s.die d).tier far).chans[ch].failed = false →
      FoundActing t 14 d s.laps.now 9 ∧ ((t.die d).tier far).chans[ch].epoch = ((s.die d).tier far).chans[ch].epoch + 1) := by
  obtain ⟨x, hreset, -, hchan⟩ := startChanReset_tier s d far ch
  have haction := startChanReset_action s d far ch
  unfold chanFault
  extract_lets r e y s1 t
  have hnow : r.1.laps.now = s.laps.now := by rw [show r.1 = _ from hreset]; rfl
  have hfirst (h : r.2 &&& 1 = 1) : FoundActing s1 13 d s.laps.now 1 :=
    hnow ▸ foundActing_addFault r.1 (r := y 13) h fun h8 => absurd h8 (show (13 : Nat) ≠ 8 by decide)
  rcases haction with ⟨hf, ha⟩ | ⟨hf, ha⟩
  · have ht : t = s1 := if_neg (by rw [show r.2 = 1 from ha]; decide)
    rw [ht]
    exact ⟨hfirst (by rw [show r.2 = 1 from ha]; decide), fun h => absurd (hf.symm.trans h) nofun⟩
  · have hbits : r.2 &&& 1 = 1 ∧ r.2 &&& 9 = 9 ∧ bitAt r.2 3 = true := by
      rcases ha with ha | ha | ha <;> rw [show r.2 = _ from ha] <;> decide
    have ht : t = addFault s1 (y 14) := if_pos ⟨by decide, hbits.2.2⟩
    rw [ht]
    refine ⟨(hfirst hbits.1).addFault (show (14 : Nat) ≠ 13 by decide), fun _ => ⟨?_, ?_⟩⟩
    · exact hnow ▸ foundActing_addFault s1 (r := y 14) hbits.2.1 fun h8 => absurd h8 (show (14 : Nat) ≠ 8 by decide)
    · have htier : (s1.die d).tier far = x := by
        rw [addFault_die, show r.1 = _ from hreset, State.setTier_tier_self]
      rw [addFault_die, htier, hchan, Chan.resetAt, if_neg (Bool.eq_false_iff.mp hf)]

/-! ### Resetting a die (R311, R312, R371) -/

theorem bumpEpoch_die (d e : Die) : (bumpEpoch s d).die e = { s.die e with
    epoch := if e = d then (s.die d).epoch + 1 else (s.die e).epoch
    copies := vset (s.die e).copies d.val ((s.die d).epoch + 1) } := by
  rw [bumpEpoch]
  dsimp only
  refine (forDies_setDie_die (fun _ x => { x with copies := vset x.copies d.val ((s.die d).epoch + 1) }) _ e).trans ?_
  by_cases h : e = d
  · rw [h, State.setDie_die_self, if_pos rfl]
  · rw [State.setDie_die_other _ _ h, if_neg h]

/-- A part of the module that lies in no die. -/
theorem bumpEpoch_get {α : Type} (s : State) (d : Die) (part : State → α)
    (hp : ∀ (u : State) v, part { u with dies := v } = part u := by intros; rfl) : part (bumpEpoch s d) = part s :=
  (forDies_setDie_get (fun _ x => { x with copies := vset x.copies d.val ((s.die d).epoch + 1) }) _ part hp).trans (hp s _)

theorem dropPackets_get {α : Type} (s : State) (d : Die) (n : Nat) (part : State → α)
    (hp : ∀ (u : State) r, part (addFault u r) = part u := by intros; rfl) : part (dropPackets s d n) = part s :=
  foldl_leaves part (fun u _ => hp u _) _ s

theorem freshCores_nil (n t : Nat) : freshCores [] n t = List.replicate n (Core.init t) := by
  refine (List.map_congr_left (g := fun _ => Core.init t) fun _ _ => rfl).trans ?_
  rw [List.map_const', List.length_range]

/-- A die as its reset leaves it; its memories, its map and its fences stay. -/
def resetDie (s : State) (d : Die) : DieSt :=
  { s.die d with
    epoch := (s.die d).epoch + 1, copies := vset (s.die d).copies d.val ((s.die d).epoch + 1)
    cores := List.replicate (s.die d).cores.length (Core.init s.laps.now)
    rest := List.replicate (s.die d).rest.length (Core.init s.laps.now)
    seq := { runStartSeq s d with words := (s.die d).seq.words, stalls := (s.die d).seq.stalls, energy := (s.die d).seq.energy }
    memQ := [], resetFrom := some s.laps.now }

theorem startDieReset_die (s : State) (d e : Die) : (startDieReset s d).die e = if e = d then resetDie s d else
    { s.die e with copies := vset (s.die e).copies d.val ((s.die d).epoch + 1) } := by
  unfold startDieReset
  extract_lets s1 x q s2 inside mine held
  have hx : x = { s.die d with
      epoch := (s.die d).epoch + 1, copies := vset (s.die d).copies d.val ((s.die d).epoch + 1) } := by
    rw [show x = (bumpEpoch s d).die d from rfl, bumpEpoch_die, if_pos rfl]
  have hself : s2.die d = resetDie s d := by
    rw [show s2.die d = _ from State.setDie_die_self .., hx, freshCores_nil, freshCores_nil]
    rfl
  have hother (h : e ≠ d) : s2.die e = { s.die e with copies := vset (s.die e).copies d.val ((s.die d).epoch + 1) } := by
    rw [show s2.die e = _ from State.setDie_die_other _ _ h, show s1.die e = _ from bumpEpoch_die d e, if_neg h]
  clear_value held s2
  refine (dropPackets_get _ d held (State.die · e)).trans ?_
  by_cases h : e = d
  · rw [if_pos h, h]
    exact hself
  · rw [if_neg h]
    exact hother h

/-- Packets that never leave the die are dropped with its reset. -/
theorem startDieReset_fabric (s : State) (d : Die) : (startDieReset s d).fabric.data =
      s.fabric.data.filter (fun y => !(decide (y.src = d) && decide (y.die = d))) ∧
    (startDieReset s d).fabric.signals = s.fabric.signals.filter (fun g => !(decide (g.src = d) && decide (g.die = d))) := by
  unfold startDieReset
  extract_lets s1 x q s2 inside mine held
  exact ⟨dropPackets_get _ d held fun u => u.fabric.data, dropPackets_get _ d held fun u => u.fabric.signals⟩

theorem startDieReset_faults (s : State) (d : Die) : (startDieReset s d).faults.queue = s.faults.queue := by
  unfold startDieReset
  extract_lets s1 x q s2 inside mine held
  exact (dropPackets_get _ d held fun u => u.faults.queue).trans (bumpEpoch_get s d fun u => u.faults.queue)

/-! ### FAULT_RECORD_QUEUE (R365, R366) -/

/-- The module with the detected records taken; from now on sequencers issue NOP words. -/
def State.takesRecords (s : State) (l : List FaultRec) : State :=
  { s with
    faults := { s.faults with detected := [] }
    laps := { s.laps with stopIssue := s.laps.stopIssue || l.any fun r => decide (r.moduleLap = s.laps.moduleLap) } }

theorem execFaultRecordQueue_records {l : List FaultRec} (h : sortBy recBefore s.faults.detected = l) (hne : l ≠ []) :
    execFaultRecordQueue s = .next (l.foldl queueRec (s.takesRecords l)) := by
  have hsome : s.faults.detected.isEmpty ≠ true := fun he => hne (h.symm.trans (by rw [List.isEmpty_iff.mp he]; rfl))
  rw [execFaultRecordQueue, if_neg hsome, h]
  rfl

theorem queueRec_keeps_dies {r : FaultRec} (h : bitAt r.action 2 = false) (s : State) : queueRec s r =
    (let same := decide (s.faults.cameAt = s.laps.now)
     let fresh := if same then s.faults.fresh else 0
     let spill := if same then s.faults.spill else []
     if s.faults.queue.length < 256 then
      { s with faults := { s.faults with
          queue := s.faults.queue ++ [r], total := satAdd32 s.faults.total 1, cameAt := s.laps.now, fresh := fresh + 1, spill := spill } }
     else { s with faults := { s.faults with
          lost := satAdd32 s.faults.lost 1, cameAt := s.laps.now, fresh := fresh, spill := spill ++ [r] } }) := by
  simp only [queueRec, h, Bool.false_and, Bool.false_eq_true, if_false]

theorem queueRec_room {r : FaultRec} (h : bitAt r.action 2 = false) (hroom : s.faults.queue.length < 256) :
    (queueRec s r).faults.queue = s.faults.queue ++ [r] := by
  rw [queueRec_keeps_dies h]
  dsimp only
  rw [if_pos hroom]

/-- A record whose action resets its die takes the die's new epoch. -/
theorem queueRec_resets {r : FaultRec} {d : Die} (h : bitAt r.action 2 = true) (hd : r.die = d.val)
    (hroom : s.faults.queue.length < 256) :
    (queueRec s r).dies = (startDieReset s d).dies ∧ (queueRec s r).fabric = (startDieReset s d).fabric ∧
      (queueRec s r).faults.queue = s.faults.queue ++ [{ r with epoch := ((s.die d).epoch + 1).toNat }] := by
  have hreset : (bitAt r.action 2 && decide (r.die < 16)) = true := by simp [h, hd]
  have hepoch : ((startDieReset s d).die d).epoch = (s.die d).epoch + 1 := by rw [startDieReset_die, if_pos rfl]; rfl
  have hq := startDieReset_faults s d
  simp only [queueRec, hreset, if_true]
  simp only [hd, dieOf_val, hepoch, hq, if_pos hroom, and_self]

/-- The order of two records found in one cycle (R365). -/
theorem sortBy_recBefore_pair {a b : FaultRec} (h : dieRank a < dieRank b) : sortBy recBefore [b, a] = [a, b] := by
  have hba : recBefore b a = false := by simp [recBefore]; omega
  simp [sortBy, insertBy, hba]

/-! ### PATROL_READ (R363, R369) -/

theorem physOf_setCores (s : State) (d e : Die) (l : List Core) (i : Nat) : physOf (s.setCores d l) e i = physOf s e i := by
  by_cases h : e = d
  · subst h
    rw [physOf, State.setCores_die_self]
    rfl
  · rw [physOf, State.setCores_die_other _ _ h]
    rfl

theorem execPatrolRead_core (hon : portOn s = true) {d : Die} {i : Nat} {c : Core} (hc : (s.die d).cores[i]? = some c) (flips : Fin 3) :
    execPatrolRead d i flips s = .next (patrolFinds (s.setCores d ((s.die d).cores.set i (stepPatrol c))) d i c.patrol flips) := by
  simp [execPatrolRead, hon, hc]

theorem execPatrolRead_rest (hon : portOn s = true) {d : Die} {j : Nat} {c : Core} (hc : (s.die d).rest[j]? = some c) :
    execPatrolRead d ((s.die d).cores.length + j) 0 s =
      .next (s.setDie d { s.die d with rest := (s.die d).rest.set j (stepPatrol c) }) := by
  simp [execPatrolRead, hon, hc, patrolFinds]

theorem patrolFinds_nothing {d : Die} {i : Nat} {flips : Fin 3} (h : flips = 0 ∨ physOf s d i = none) (a : Nat) :
    patrolFinds s d i a flips = s :=
  if_pos (h.imp (congrArg Fin.val) fun hp => by rw [hp]; rfl)

theorem patrolFinds_found {d : Die} {i : Nat} (h : physOf s d i ≠ none) (a : Nat) :
    patrolFinds s d i a 1 = { s with faults := { s.faults with csCorrected := satAdd32 s.faults.csCorrected 1 } } ∧
      patrolFinds s d i a 2 = coreFault s d i 1 4 0 a := by
  have hp : (physOf s d i).isNone = false := Option.isNone_eq_false_iff.mpr (Option.isSome_iff_ne_none.mpr h)
  simp [patrolFinds, hp, detect]

end

/-- Settles O57: each detection by the lemma of its kind (`coreFault_finds`, `dieFault_finds`, `linkFault_finds`,
`chanFault_finds`), a record by `queueRec_keeps_dies` or, where it resets its die, by `queueRec_resets` and `startDieReset_die`. -/
theorem detectionsLeaveRecords : Obligations.DetectionsLeaveRecords := by
  intro s found
  refine ⟨fun hp hr => ?_, fun hp hr he => ?_, fun hp hr he => ⟨fun h => ?_, fun h => ?_⟩, fun hd => ?_, fun r hd hact => ?_,
    fun a b hd ha hlt hab hacta hactb hroom => ?_, fun r d hd hact hdie hroom => ?_, fun hon d j c hc => ?_, fun hon d i c hc => ?_⟩
  · have hexec (det : Detection) : exec (.faultDetected det) s = .next (detect s det) := execFaultDetected_laps hp hr det
    refine ⟨hexec _, hexec _, hexec _, hexec _, fun d => ⟨_, hexec _, rfl, ?_⟩, fun c d i unit detail addr => ⟨fun h => ?_, fun h => ?_⟩,
      fun c d unit => ⟨_, hexec _, dieFault_finds d c unit⟩, fun n => ⟨_, hexec _, linkFault_finds n⟩,
      fun d far ch addr => ⟨⟨_, hexec _, ?_, rfl⟩, ⟨_, hexec _, ?_, ?_⟩, ⟨_, hexec _, chanFault_finds d far ch addr.toNat⟩⟩,
      ⟨_, hexec _, ?_, rfl⟩⟩
    · exact congrArg (fun x : DieSt => x.regs.wordCorrected) (State.setDie_die_self ..)
    · exact (hexec _).trans (congrArg Host.Outcome.next (coreFault_unmapped h ..))
    · exact ⟨_, hexec _, coreFault_finds d c h unit detail.toNat addr.toNat⟩
    · exact foundActing_addFault s (r := mkRec s 1 11 d none 10 _ _ 1) (show 1 &&& 1 = 1 by decide) fun h => absurd h (show 11 ≠ 8 by decide)
    · exact foundActing_addFault _ (r := mkRec _ 1 12 d none 10 _ _ 0x41) (show 0x41 &&& 0x41 = 0x41 by decide)
        fun h => absurd h (show 12 ≠ 8 by decide)
    · exact congrArg Tier.degraded (State.setTier_tier_self ..)
    · exact foundActing_addFault s (r := { mkRec s 1 17 0 none 12 0 0 1 with die := 16, pc := 0xFFFFFFFF })
        (show 1 &&& 1 = 1 by decide) fun h => absurd h (show 17 ≠ 8 by decide)
  · exact (execFaultDetected_boot hp hr).trans (congrArg _ (if_pos he))
  · have hexec := (execFaultDetected_boot hp hr).trans (congrArg Host.Outcome.next (if_neg (Bool.eq_false_iff.mp he)))
    exact ⟨_, hexec.trans (congrArg _ (if_pos h)), rfl, rfl, rfl, rfl⟩
  · have hexec := (execFaultDetected_boot hp hr).trans (congrArg Host.Outcome.next (if_neg (Bool.eq_false_iff.mp he)))
    exact ⟨_, hexec.trans (congrArg _ (if_neg (Nat.not_lt.mpr h))), rfl, rfl⟩
  · exact if_pos (List.isEmpty_iff.mpr hd)
  · have hexec : exec .faultRecordQueue s = _ := execFaultRecordQueue_records (l := [r]) (by rw [hd]; rfl) nofun
    have htaken : s.takesRecords [r] = { s with
        laps := { s.laps with stopIssue := s.laps.stopIssue || decide (r.moduleLap = s.laps.moduleLap) }
        faults := { s.faults with detected := [] } } := by
      rw [State.takesRecords, List.any_cons, List.any_nil, Bool.or_false]
    have hqueued := hexec.trans (congrArg Host.Outcome.next (queueRec_keeps_dies hact _))
    rw [htaken] at hqueued
    exact ⟨fun h => hqueued.trans (congrArg _ (if_pos h)), fun h => hqueued.trans (congrArg _ (if_neg (Nat.not_lt.mpr h)))⟩
  · have hrank : dieRank a < dieRank b := by
      rw [dieRank, dieRank, if_neg ha]
      split
      · exact hlt
      · omega
    have hexec : exec .faultRecordQueue s = _ := execFaultRecordQueue_records (l := [a, b]) (hd ▸ sortBy_recBefore_pair hrank) nofun
    refine ⟨_, hexec, ?_⟩
    have hfirst : (queueRec (s.takesRecords [a, b]) a).faults.queue = s.faults.queue ++ [a] :=
      queueRec_room (s := s.takesRecords [a, b]) hacta (by exact Nat.lt_succ_of_lt hroom)
    have hsecond := queueRec_room (s := queueRec (s.takesRecords [a, b]) a) hactb (by rw [hfirst, List.length_append]; exact Nat.succ_lt_succ hroom)
    rw [hfirst, List.append_assoc] at hsecond
    exact hsecond
  · have hexec : exec .faultRecordQueue s = _ := execFaultRecordQueue_records (l := [r]) (by rw [hd]; rfl) nofun
    obtain ⟨hdies, hfabric, hqueue⟩ := queueRec_resets (s := s.takesRecords [r]) hact hdie hroom
    have hdie (e : Die) : (queueRec (s.takesRecords [r]) r).die e = if e = d then resetDie s d else
        { s.die e with copies := vset (s.die e).copies d.val ((s.die d).epoch + 1) } :=
      (congrArg (fun v : Vector DieSt 16 => v[e]) hdies).trans (startDieReset_die (s.takesRecords [r]) d e)
    have hself := (hdie d).trans (if_pos rfl)
    have hother (e : Die) (he : e ≠ d) := (hdie e).trans (if_neg he)
    obtain ⟨hdata, hsignals⟩ := startDieReset_fabric (s.takesRecords [r]) d
    rw [← hfabric] at hdata hsignals
    refine ⟨_, hexec, hself ▸ rfl, fun e => ?_, hself ▸ rfl, hself ▸ rfl, hself ▸ rfl, hself ▸ rfl, hself ▸ rfl, hself ▸ rfl, hqueue,
      fun x hx hsrc hdst => ?_, fun x hx hsrc hdst => ?_, fun e he => ?_⟩
    · have hcopies : ((queueRec (s.takesRecords [r]) r).die e).copies = vset (s.die e).copies d.val ((s.die d).epoch + 1) := by
        by_cases he : e = d
        · rw [he, hself]
          rfl
        · rw [hother e he]
      exact (congrArg (vget · d.val 0) hcopies).trans (vget_vset (Nat.lt_succ_of_lt d.isLt) _ _)
    · have hx := hdata ▸ hx
      simp [hsrc, hdst] at hx
    · have hx := hsignals ▸ hx
      simp [hsrc, hdst] at hx
    · exact (congrArg DieSt.cores (hother e he) :)
  · exact execPatrolRead_rest hon hc
  · intro moved
    have hmap : physOf moved d i = physOf s d i := physOf_setCores s d d _ i
    have hexec (flips : Fin 3) : exec (.patrolRead d i flips) s = .next (patrolFinds moved d i c.patrol flips) :=
      execPatrolRead_core hon hc flips
    refine ⟨(hexec 0).trans (congrArg _ (patrolFinds_nothing (.inl rfl) _)),
      fun h flips => (hexec flips).trans (congrArg _ (patrolFinds_nothing (.inr (hmap.trans h)) _)), fun h => ?_, fun h => ?_⟩
    · obtain ⟨hone, -⟩ := patrolFinds_found (hmap.symm ▸ h) c.patrol
      exact (hexec 1).trans (congrArg _ hone)
    · obtain ⟨-, htwo⟩ := patrolFinds_found (hmap.symm ▸ h) c.patrol
      obtain ⟨hfound, -⟩ := coreFault_finds (s := moved) d .csUe (hmap.symm ▸ h) 4 0 c.patrol
      refine ⟨_, (hexec 2).trans (congrArg _ htwo), hfound, ?_⟩
      rw [coreFault_mapped (hmap.symm ▸ h)]
      rfl

end Sys2Proof.Machine

/-! PROOFS. Recovery: what a header written last can take from a record (R365, R368, R384). -/
namespace Sys2Proof.Machine

/-- A core record of die 15 whose core field lies above every core address and above 0xFFFFF, which stands for no core. -/
def strayRec : FaultRec :=
  { cls := 1, cause := 12, core := 0x100000, die := 15, unit := 10, detail := 0, phys := 0x10000, runLap := 0, moduleLap := 0
    cycle := 0, pc := 0, address := 0, action := 3, epoch := 0, more := 0, at_ := 0 }

/-- A run whose header block of side A starts in the last byte of the near tiers. -/
def strayRun : RunCfg :=
  { strict := false, records := false, seed := 0, n := 1, gridMode := 0, queues := [], areas := []
    split := some ⟨2 ^ 39 - 1, 0, [], 0, 0, false⟩, restore := false, startLap := 0 }

/-- A split captured in side A whose header is not written yet. -/
def strayImage : SplitImage :=
  { side := false, index := 0, step := 0, streams := 0, origin := 0, stride := 0, cursors := [], resumeLap := 0, moduleLap := 0
    tdc := 0, tdcKinds := 0, restores := 0, prev := [], dies := [] }

/-- Die 15 with every channel of its near tier failed. -/
def strayDie : DieSt :=
  let x := State.reset.die 15
  { x with near := { x.near with chans := Vector.replicate 20 ⟨0, 0, none, true⟩ } }

/-- A module in recovery after a run. -/
def strayState : State :=
  { State.reset.setDie 15 strayDie with
    laps := { State.reset.laps with state := 3 }
    run := { State.reset.run with last := some strayRun }
    faults := { State.reset.faults with recovering := true, lapRecs := [strayRec] }
    split := { State.reset.split with image := some strayImage, hdrDone := false } }

/-- The fences of die 15 once a command completes. -/
def fencesAfter (i : Instr) (s : State) : Option (List (Nat × Nat)) :=
  match exec i s with
  | .next t => some (t.die 15).fences
  | _ => none

theorem fencesAfter_next {i : Instr} {s t : State} (h : exec i s = .next t) : fencesAfter i s = some (t.die 15).fences := by
  rw [fencesAfter, h]

theorem strayState_recovers : strayState.faults.recovering = true ∧ strayState.faults.recDone = false ∧
    strayState.laps.state = 3 ∧ resetsBusy strayState = false ∧ reloads strayState = false := by
  decide +kernel

/-- The record asks for a fence that die 15 does not hold yet. -/
theorem strayRec_fences : strayState.faults.lapRecs = [strayRec] ∧ bitAt strayRec.action 1 = true ∧ bitAt strayRec.phys 16 = true ∧
    strayRec.die = (15 : Die).val ∧ (strayState.die 15).fences = [] := by
  decide +kernel

/-- Writing the header reads the block of its first byte, which cannot be read. That fault merges with the record and, being of
the lower core field, gives the merged record its place: none. So recovery fences no core. -/
theorem strayState_fences_nothing : fencesAfter (.recoveryDone 0) strayState = some [] := by
  decide +kernel

/-- Refutes O59: RECOVERY_DONE adds no fence for the only record of the lap when the header write finds a fault of the same cause,
die and cycle that is merged with it; in the counterexample `strayState` the record's core field is 0x100000, above 0xFFFFF. -/
theorem not_monitorsStopAndRecover : ¬ Obligations.MonitorsStopAndRecover := by
  intro h
  obtain ⟨-, -, -, -, -, hrecovery, -⟩ := h strayState
  obtain ⟨hrecovering, hdone, hstate, hbusy, hreloads⟩ := strayState_recovers
  obtain ⟨hrecs, haction, hphys, hdie, hfences⟩ := strayRec_fences
  obtain ⟨t, hexec, -, -, -, -, -, hfence, -⟩ := hrecovery hrecovering hdone hstate hbusy (by simp [hreloads]) 0
  have hadded := hfence strayRec 15 hrecs haction hphys hdie (by simp [hfences]) (by simp [hfences])
  have hnone := (fencesAfter_next hexec).symm.trans strayState_fences_nothing
  rw [hadded, hfences] at hnone
  exact absurd hnone (by decide)

end Sys2Proof.Machine
